-- ==== Sys2Proof/Word.lean ====
section
/-! DEFINITION. The word types of the Corsan model and their plainest conversions (R7 to R9, R49). -/

namespace Sys2Proof

/-- A main register or pump instruction word: 64 bits (R49, R91). -/
abbrev Word := BitVec 64

/-- One byte, the unit of every memory (R8, R261). -/
abbrev Byte := BitVec 8

/-- A 256-bit frame, block header or token payload (R78, R146). -/
abbrev Frame := BitVec 256

/-- The six sticky flags sat, nv, dz, of, uf, nx in bits [5:0] (R96). -/
abbrev Flags := BitVec 6

/-- A package core number of R19: 64 × die + die core number. -/
abbrev CoreId := Fin 256

end Sys2Proof
end

