-- ==== Sys2Proof/Config.lean ====
section
/-! DEFINITION. What a part fixes (R1, R20, R470) and the free values: the numbers the manual leaves open, as
constants without a body, so that no proof can see a value of theirs (assumption log 2, 12, 16). -/

namespace Sys2Proof

/-- The three parts of R1. -/
inductive Part where
  | jx34
  | jx34e
  | jx32
  deriving DecidableEq, Repr

/-- Compute dies of the part (R20). -/
def Part.dies : Part → Nat
  | .jx34 => 4
  | .jx34e => 4
  | .jx32 => 2

/-- Cores of the part: 64 a die (R20). -/
def Part.cores (p : Part) : Nat := 64 * p.dies

/-- Quads of the part: 16 a die (R20). -/
def Part.quads (p : Part) : Nat := 16 * p.dies

/-- A Weir stands in every quad, except on JX3-4E (R1, R20). -/
def Part.hasWeir : Part → Bool
  | .jx34 => true
  | .jx34e => false
  | .jx32 => true

/-- A sluice array stands at every memory controller, except on JX3-4E (R1, R20). -/
def Part.hasSluice : Part → Bool
  | .jx34 => true
  | .jx34e => false
  | .jx32 => true

/-- `s.feat0` of the part: the bits of R470. -/
def Part.feat0 : Part → Word
  | .jx34 => 0x70FFF#64
  | .jx34e => 0x40FFF#64
  | .jx32 => 0x70FFF#64

/-- The first HBM offset beyond the part's stacks (R471). -/
def Part.hbmEnd : Part → Nat
  | .jx34 => 0xC0_0000_0000
  | .jx34e => 0xC0_0000_0000
  | .jx32 => 0x60_0000_0000

/-- Levee ports of the part (R20, R472). -/
def Part.leveePorts : Part → Nat
  | .jx34 => 16
  | .jx34e => 16
  | .jx32 => 8

/-- Module power in watts (R483). -/
def Part.watts : Part → Nat
  | .jx34 => 2400
  | .jx34e => 2200
  | .jx32 => 1300

/-- The part number as ASCII, padded with zeros to 16 bytes (R482). -/
def Part.name : Part → List Byte
  | .jx34 => [0x4A, 0x58, 0x33, 0x2D, 0x34, 0, 0, 0, 0, 0, 0, 0, 0, 0, 0, 0]
  | .jx34e => [0x4A, 0x58, 0x33, 0x2D, 0x34, 0x45, 0, 0, 0, 0, 0, 0, 0, 0, 0, 0]
  | .jx32 => [0x4A, 0x58, 0x33, 0x2D, 0x32, 0, 0, 0, 0, 0, 0, 0, 0, 0, 0, 0]

namespace Config

/-- FREE VALUE: how many further cycles the n-th unscheduled step takes (R99 and R390 enter no result; log 2). -/
opaque elapsed : Nat → Nat

/-- FREE VALUE: how many cycles after the package's reset that of the n-th core ends: the counters of two cores are not
aligned (R28; log 89). -/
opaque resetSkew : Nat → Nat

/-- FREE VALUE: whether a pod, by its id, holds a package number: the host decides it when it forms the pod (R29, R471; log
92). -/
opaque podHolds : Word → Nat → Bool

/-- FREE VALUE: the n-th byte of an element's state in the element section of a save area, whose length
R468 gives and whose layout the manual does not (log 16). -/
opaque elementByte : Nat → Byte

/-- FREE VALUE: the n-th byte that the host reads from a poisoned line, for which R346 states no value (log 32). -/
opaque poisonByte : Nat → Byte

/-- FREE VALUE: SHA-384 of R480 to R482, a function the manual names and does not define (log 12). -/
opaque sha384 : List Byte → List Byte

/-- FREE VALUE: ECDSA verification on brainpoolP384r1 (R480): key, digest, signature (log 12). -/
opaque ecdsaVerify : List Byte → List Byte → List Byte → Bool

/-- FREE VALUE: the signature by the device identity key over a digest (R482; log 12). -/
opaque identitySign : List Byte → List Byte

/-- FREE VALUE: the public half of the device identity key, 97 bytes (R482; log 12). -/
opaque identityPublic : List Byte

/-- FREE VALUE: the fused key hash, 48 bytes (R473, R480; log 12). -/
opaque fusedKeyHash : List Byte

end Config

end Sys2Proof
end

