-- ==== Sys2Proof/Syntax.lean ====
section
/-! DEFINITION. The syntax of the machine's steps: one constructor of `Instr` per row of the opcode table. The first
136 are pump instructions with their decoded fields (R49 to R72); the others are the steps of the table that no
instruction word carries (a site's firing, a pumphouse decision, a host access), with the unit they act on. -/

namespace Sys2Proof

/-- A register of the main hierarchy, as a specifier names it (R53). -/
inductive Reg where
  | g (i : BitVec 6)
  | k (i : BitVec 3)
  | last
  deriving DecidableEq, Repr

/-- The six levels of R16, as scopes (R67). -/
inductive Scope where
  | lane
  | core
  | quad
  | die
  | pkg
  | pod
  deriving DecidableEq, Repr

/-- The five atom formats (R71). -/
inductive Fmt where
  | c4
  | c16
  | o16
  | o32
  | oi
  deriving DecidableEq, Repr

/-- The conditions of `fcmp` and `acmp` (R59, R72). -/
inductive Cond where
  | eq
  | lt
  | le
  | un
  deriving DecidableEq, Repr

/-- The conversions of `fcvt` (R59). -/
inductive CvtKind where
  | f32s64
  | f32n64
  | s64f32
  | n64f32
  | f32s32
  | s32f32
  | f32f16
  | f16f32
  | f32bf16
  | bf16f32
  deriving DecidableEq, Repr

/-- Size and extension of a load (R68). -/
inductive LdSize where
  | bz
  | hz
  | wz
  | d
  | bs
  | hs
  | ws
  deriving DecidableEq, Repr

/-- Size of a store (R68). -/
inductive StSize where
  | b
  | h
  | w
  | d
  deriving DecidableEq, Repr

/-- The two kinds of `pref` (R62). -/
inductive PrefKind where
  | l2
  | xl
  deriving DecidableEq, Repr

/-- The import formats in memory (R62, R142). -/
inductive IntFmt where
  | int8
  | int4
  deriving DecidableEq, Repr

/-- The operations of `amo` other than `cas` (R70). -/
inductive AmoOp where
  | add
  | fadd
  | and
  | or
  | xor
  | min
  | max
  | minn
  | maxn
  | swp
  deriving DecidableEq, Repr

/-- The scopes an `amo` ordering can carry (R70). -/
inductive AmoScope where
  | core
  | quad
  | die
  | pkg
  | pod
  deriving DecidableEq, Repr

/-- The ordering of an `amo` (R70). -/
inductive AmoOrd where
  | relaxed
  | acq (s : AmoScope)
  | rel (s : AmoScope)
  | ar (s : AmoScope)
  deriving DecidableEq, Repr

/-- The operations of `nma` (R70, R303). -/
inductive NmaOp where
  | fadd
  | add
  | max
  | min
  | fmax
  | fmin
  deriving DecidableEq, Repr

/-- The per-lane functions of `amap` and `map.fn` (R72). -/
inductive MapFn where
  | relu
  | abs
  | neg
  | exp2
  | log2
  | rcp
  | rsqrt
  | sqrt
  deriving DecidableEq, Repr

/-- The two forms of `arnd` (R72). -/
inductive Dist where
  | unif
  | bits
  deriving DecidableEq, Repr

/-- The system registers of R55. -/
inductive SReg where
  | isa
  | feat0
  | feat1
  | feat2
  | feat3
  | core
  | flow
  | status
  | tvec
  | tcause
  | tval
  | epc
  | cycle
  | fflags
  | seed
  | stall
  deriving DecidableEq, Repr

/-- The four directions of a site's ports and links (R81, R84). -/
inductive Dir where
  | n
  | e
  | s
  | w
  deriving DecidableEq, Repr

/-- What a TOKEN_HOP moves: the head of an incoming-link buffer of a site, a further output a site still holds
(R363), or a token over the window of a crossing (R366). -/
inductive Hop where
  | link (site : Fin 64) (dir : Dir)
  | out (site : Fin 64) (port : Dir)
  | crossing (i : Nat)
  deriving DecidableEq, Repr

/-- How a configuration-cache refill ends (R398). -/
inductive FetchEnd where
  /-- as its walk and the line it reads give it (R398, R434) -/
  | fetched
  | uncorrectable
  /-- an uncorrectable error of a switch, memory or AG frame: its site address (R80, R461) -/
  | damagedSwitch
  | damagedMem
  | damagedAg
  deriving DecidableEq, Repr

/-- Which check failed (R451, R453). -/
inductive CheckKind where
  /-- the word in which a token arrives (R147) -/
  | token (word : BitVec 280)
  /-- the sideband of a token and its parity bit, as they arrive (R177, R451, R458) -/
  | parity (scale : Byte) (poison bit : Bool)
  /-- an integer that a Dot or Weir formed, and its residue modulo 3 (R452) -/
  | residue (value : Int) (res : BitVec 2)
  /-- a check of the link at a port (R472) -/
  | link (port : BitVec 16)
  /-- a check of the sluice context that line `job` passes (R457) -/
  | line (job : Nat)
  deriving DecidableEq, Repr

/-- One host access through the Causeway link (R473, R474): to memory, by physical address, or to the window. -/
inductive HostAccess where
  | readMem (pa : Nat) (n : Nat)
  | writeMem (pa : Nat) (bytes : List Byte)
  | readReg (off : Nat)
  | writeReg (off : Nat) (v : Word)
  | writeCommand (off : Nat) (bytes : List Byte)
  deriving DecidableEq, Repr

/-- The steps of the machine, one constructor per row of spec/opcode_table.json. -/
inductive Instr where
  -- integer register forms (R57, R101)
  | add (d a b : Reg)
  | sub (d a b : Reg)
  | and (d a b : Reg)
  | or (d a b : Reg)
  | xor (d a b : Reg)
  | andn (d a b : Reg)
  | shl (d a b : Reg)
  | shr (d a b : Reg)
  | sar (d a b : Reg)
  | rol (d a b : Reg)
  | min (d a b : Reg)
  | max (d a b : Reg)
  | minn (d a b : Reg)
  | maxn (d a b : Reg)
  | slt (d a b : Reg)
  | sltn (d a b : Reg)
  -- immediate forms (R57, R103)
  | addi (d a : Reg) (imm : BitVec 32)
  | andi (d a : Reg) (imm : BitVec 32)
  | ori (d a : Reg) (imm : BitVec 32)
  | xori (d a : Reg) (imm : BitVec 32)
  | shli (d a : Reg) (n : BitVec 6)
  | shri (d a : Reg) (n : BitVec 6)
  | sari (d a : Reg) (n : BitVec 6)
  | roli (d a : Reg) (n : BitVec 6)
  | slti (d a : Reg) (imm : BitVec 32)
  | li (d : Reg) (imm : BitVec 32)
  | lih (d : Reg) (imm : BitVec 32)
  | movk (d : Reg) (imm : BitVec 16) (lane : BitVec 2)
  | agen (d : Reg) (imm : BitVec 32)
  | mov (d a : Reg)
  -- multiply, divide, count, bit field, select (R57, R101, R102, R104)
  | mul (d a b : Reg)
  | mulh (d a b : Reg)
  | mulhn (d a b : Reg)
  | div (d a b : Reg)
  | divn (d a b : Reg)
  | rem (d a b : Reg)
  | remn (d a b : Reg)
  | madd (d a b c : Reg)
  | clz (d a : Reg)
  | ctz (d a : Reg)
  | popc (d a : Reg)
  | bfx (d a : Reg) (lsb lenM1 : BitVec 6)
  | bfi (d a : Reg) (lsb lenM1 : BitVec 6)
  | seq (d a b : Reg)
  | sne (d a b : Reg)
  | sel (d a b c : Reg)
  -- scalar float (R58, R59)
  | fadd (d a b : Reg)
  | fsub (d a b : Reg)
  | fmul (d a b : Reg)
  | ffma (d a b c : Reg)
  | fdiv (d a b : Reg)
  | fsqrt (d a : Reg)
  | fmin (d a b : Reg)
  | fmax (d a b : Reg)
  | fcmp (cond : Cond) (d a b : Reg)
  | fcvt (kind : CvtKind) (rtz : Bool) (d a : Reg)
  | fcls (d a : Reg)
  -- control (R60)
  | beq (a b : Reg) (off : BitVec 32)
  | bne (a b : Reg) (off : BitVec 32)
  | blt (a b : Reg) (off : BitVec 32)
  | bge (a b : Reg) (off : BitVec 32)
  | bltn (a b : Reg) (off : BitVec 32)
  | bgen (a b : Reg) (off : BitVec 32)
  | dbnz (a : Reg) (off : BitVec 32)
  | jmp (off : BitVec 32)
  | call (off : BitVec 32)
  | ret (a : Reg)
  | jt (a : Reg) (tbl : BitVec 10) (label : BitVec 16)
  | callt (a : Reg) (tbl : BitVec 10) (label : BitVec 16)
  | land (label : BitVec 16)
  -- memory (R62, R68, R69)
  | ld (size : LdSize) (cistern : Bool) (acq : Option Scope) (d a : Reg) (imm : BitVec 32)
  | st (size : StSize) (cistern : Bool) (rel : Option Scope) (d a : Reg) (imm : BitVec 32)
  | lds (d a : Reg) (imm : BitVec 32)
  | stf (d a : Reg) (imm : BitVec 32)
  | ldq (f : Fmt) (cistern : Bool) (q : BitVec 4) (a : Reg) (imm : BitVec 32)
  | stq (f : Fmt) (cistern : Bool) (q : BitVec 4) (a : Reg) (imm : BitVec 32)
  | pref (kind : PrefKind) (a : Reg) (imm : BitVec 32)
  | aimp (t : IntFmt) (f : Fmt) (qd qa : BitVec 4) (ga : Reg)
  | aexp (t : IntFmt) (qa qb : BitVec 4) (ga : Reg)
  -- atomics and order (R63, R70)
  | amo (op : AmoOp) (ord : AmoOrd) (d a b : Reg)
  | amoCas (ord : AmoOrd) (d a b c : Reg)
  | fence (scope : Scope)
  | nma (op : NmaOp) (d a : Reg) (imm : BitVec 32)
  | nmf
  -- atoms (R64); a format left out (fmt 0) takes the format of qa
  | aenc (f : Fmt) (qd qa : BitVec 4)
  | adec (qd qa : BitVec 4)
  | aadd (f : Option Fmt) (qd qa qb : BitVec 4)
  | asub (f : Option Fmt) (qd qa qb : BitVec 4)
  | amul (f : Option Fmt) (qd qa qb : BitVec 4)
  | afma (f : Option Fmt) (qd qa qb qc : BitVec 4)
  | adot (ga : Reg) (qa qb : BitVec 4)
  | amap (fn : MapFn) (f : Option Fmt) (qd qa : BitVec 4)
  | amsk (f : Option Fmt) (qd qa : BitVec 4) (ga : Reg)
  | acmp (cond : Cond) (ga : Reg) (qa qb : BitVec 4)
  | ascl (f : Option Fmt) (qd qa : BitVec 4) (ga : Reg)
  | again (ga : Reg) (qa : BitVec 4)
  | aidx (ga : Reg) (qa : BitVec 4)
  | apat (qd qa : BitVec 4)
  | acvt (f : Fmt) (qd qa : BitVec 4)
  | arnd (dist : Dist) (f : Fmt) (qd : BitVec 4) (ga : Reg)
  -- handles and streams (R65)
  | hset (out : Bool) (h : BitVec 6) (a : Reg) (n : BitVec 8) (size : BitVec 20)
  | strm (h : BitVec 6) (a : Reg) (ctx : Option (BitVec 3))
  | waith (a : Reg) (h : BitVec 6) (n : BitVec 8)
  | advh (h : BitVec 6) (n : BitVec 8)
  | wptr (a : Reg) (h : BitVec 6)
  | sbar (a : Reg)
  | stop (h : BitVec 6) (level : BitVec 3)
  | mark (h : BitVec 6)
  | kick (region : BitVec 3)
  -- configuration and graphs (R66)
  | cfgl (a : Reg)
  | cfgs (region : BitVec 3) (plane : BitVec 2)
  | cfgp (region : BitVec 3) (pt pf : BitVec 2)
  | drain (region : BitVec 3)
  | cfgq (d : Reg) (region : BitVec 3)
  | gld (a : Reg)
  | gsw
  | grel (ctx : BitVec 1)
  | gq (d : Reg)
  -- work, barriers, system (R66)
  | dqpush (a : Reg)
  | dqpop (d : Reg)
  | dqsteal (d a : Reg)
  | dqlen (d : Reg)
  | launch (a : Reg)
  | notify (a b : Reg)
  | bara (scope : Scope)
  | barw (scope : Scope)
  | bar (scope : Scope)
  | trap (imm : BitVec 32)
  | eret
  | srd (d : Reg) (sreg : SReg)
  | swr (sreg : SReg) (a : Reg)
  | halt
  | yield
  | nop
  | brk
  | feat (d : Reg) (n : BitVec 8)
  -- steps of a pump that no word carries
  | asyncTrapTaken (c : CoreId)
  | waithResume (c : CoreId)
  | ldsResume (c : CoreId)
  | ldsStillTimeout (c : CoreId)
  | waithStillTimeout (c : CoreId)
  | drainReturn (c : CoreId)
  | cfgsSelect (c : CoreId)
  | barwRelease (c : CoreId)
  | nmfReturn (c : CoreId)
  | nmaLimitRelease (c : CoreId)
  | gldComplete (c : CoreId)
  | haltTakesEffect (c : CoreId)
  | launchResume (c : CoreId)
  | launchStillTimeout (c : CoreId)
  | configLoadComplete (c : CoreId)
  -- steps of the polder, the Weir, the folds and the engines
  | siteFire (c : CoreId) (site : Fin 64)
  | tokenHop (c : CoreId) (hop : Hop)
  | agStreamAccess (c : CoreId) (ag : Fin 8)
  | agReadReturn (c : CoreId) (ag : Fin 8)
  | memorySiteAccess (c : CoreId) (m : Fin 8)
  | regionDrain (c : CoreId) (r : Fin 8)
  | stillWindowExpiry (c : CoreId) (r : Fin 8)
  | clockGate (c : CoreId) (site : Fin 64)
  | siteWake (c : CoreId) (site : Fin 64)
  | sitePowerWake (c : CoreId) (site : Fin 64)
  | frameFetchComplete (c : CoreId) (plane : Fin 4) (site : Fin 64) (how : FetchEnd)
  | weirVector (q : Fin 64)
  | weirRestSwap (q : Fin 64)
  | stationFold (i : Nat)
  | sluiceLine (i : Nat)
  | nmaPerform (i : Nat)
  | writePerform (i : Nat)
  | completionRecordWrite (flow : Nat)
  | checkFailureAbort (c : CoreId) (r : Fin 8) (kind : CheckKind) (element : BitVec 20)
  | recoveryCoalesceExpiry (i : Nat)
  -- steps of the host, the pumphouses and firmware
  | pageRequestVerdict (id : BitVec 32) (fail : Bool)
  | pageRequestTimeout (id : BitVec 32)
  | notifyRegisterWrite (q : Fin 256) (v : Word)
  | queueMap (die : Fin 4)
  | dependencePoll (die : Fin 4) (slot : Fin 16)
  | dispatchDecision (die : Fin 4) (place : List (List CoreId))
  | flowRetire (flow : Nat)
  | preemptRequest (flow : Nat)
  | preemptSaveComplete (flow : Nat)
  | fatalEnd (flow : Nat)
  | hostCausewayAccess (acc : HostAccess)
  | causewayWriteIgnored (off : Nat) (v : Word)
  | ringConsumerWrite (j : Fin 3) (v : Word)
  | createQueue
  | destroyQueue
  | clearErrorState
  | invalidateRange
  | invalidateComplete
  | hostPreempt
  | joinPod
  | placeRing
  | attestationQuote
  | extendRegister
  | setPowerCap
  | bootImage
  | unknownCommand
  | linkTrainingDone
  | firmwareInitDone (defects : List Nat) (failing : Byte)
  | leveeFlitRetry (port : BitVec 16) (failed : Bool)
  | deviceReset
  | thermalThrottle (on : Bool)
  | thermalShutdown
  | illegalInstruction (w : Word)
  | instructionFetch
  | chainFold (i : Nat)
  deriving DecidableEq, Repr

end Sys2Proof
end

