-- ==== Sys2Proof/WellFormed.lean ====
section
/-! DEFINITION. Which pump instructions are well formed: the field ranges of R51, R52, R57 and R60 to R66 that the
types of `Instr` do not already give. A step that no word carries is not a pump instruction. -/

namespace Sys2Proof

/-- The step is one of the 136 pump instructions, which a 64-bit word carries (R49, R56). -/
def Instr.isPump : Instr → Bool
  | .asyncTrapTaken _ => false
  | .waithResume _ => false
  | .ldsResume _ => false
  | .ldsStillTimeout _ => false
  | .waithStillTimeout _ => false
  | .drainReturn _ => false
  | .cfgsSelect _ => false
  | .barwRelease _ => false
  | .nmfReturn _ => false
  | .nmaLimitRelease _ => false
  | .gldComplete _ => false
  | .haltTakesEffect _ => false
  | .launchResume _ => false
  | .launchStillTimeout _ => false
  | .configLoadComplete _ => false
  | .siteFire _ _ => false
  | .tokenHop _ _ => false
  | .agStreamAccess _ _ => false
  | .agReadReturn _ _ => false
  | .memorySiteAccess _ _ => false
  | .regionDrain _ _ => false
  | .stillWindowExpiry _ _ => false
  | .clockGate _ _ => false
  | .siteWake _ _ => false
  | .sitePowerWake _ _ => false
  | .frameFetchComplete _ _ _ _ => false
  | .weirVector _ => false
  | .weirRestSwap _ => false
  | .stationFold _ => false
  | .sluiceLine _ => false
  | .nmaPerform _ => false
  | .writePerform _ => false
  | .completionRecordWrite _ => false
  | .checkFailureAbort _ _ _ _ => false
  | .recoveryCoalesceExpiry _ => false
  | .pageRequestVerdict _ _ => false
  | .pageRequestTimeout _ => false
  | .notifyRegisterWrite _ _ => false
  | .queueMap _ => false
  | .dependencePoll _ _ => false
  | .dispatchDecision _ _ => false
  | .flowRetire _ => false
  | .preemptRequest _ => false
  | .preemptSaveComplete _ => false
  | .fatalEnd _ => false
  | .hostCausewayAccess _ => false
  | .causewayWriteIgnored _ _ => false
  | .ringConsumerWrite _ _ => false
  | .createQueue => false
  | .destroyQueue => false
  | .clearErrorState => false
  | .invalidateRange => false
  | .invalidateComplete => false
  | .hostPreempt => false
  | .joinPod => false
  | .placeRing => false
  | .attestationQuote => false
  | .extendRegister => false
  | .setPowerCap => false
  | .bootImage => false
  | .unknownCommand => false
  | .linkTrainingDone => false
  | .firmwareInitDone _ _ => false
  | .leveeFlitRetry _ _ => false
  | .deviceReset => false
  | .thermalThrottle _ => false
  | .thermalShutdown => false
  | .illegalInstruction _ => false
  | .instructionFetch => false
  | .chainFold _ => false
  | _ => true

/-- `swr` to a read-only register is fault 0x01 (R55). -/
def SReg.writable : SReg → Bool
  | .isa => false
  | .feat0 => false
  | .feat1 => false
  | .feat2 => false
  | .feat3 => false
  | .core => false
  | .flow => false
  | .cycle => false
  | .stall => false
  | .status => true
  | .tvec => true
  | .tcause => true
  | .tval => true
  | .epc => true
  | .fflags => true
  | .seed => true

/-- The coded formats C4 and C16 (R127). -/
def Fmt.coded : Fmt → Bool
  | .c4 => true
  | .c16 => true
  | .o16 => false
  | .o32 => false
  | .oi => false

/-- The format and distribution pairs of `arnd` (R64, R72). -/
def arndFmtOk : Dist → Fmt → Bool
  | .unif, .o16 => true
  | .unif, .o32 => true
  | .bits, .oi => true
  | _, _ => false

/-- A well-formed pump instruction: every range the encoding rows give, beyond the types of the fields. -/
def Instr.wf : Instr → Bool
  -- R52: the word of `add g0, g0, g0` is the reserved all-zero word
  | .add d a b => !(d = .g 0 && a = .g 0 && b = .g 0)
  -- R57: lsb + len at most 64
  | .bfx _ _ lsb lenM1 => lsb.toNat + lenM1.toNat + 1 ≤ 64
  | .bfi _ _ lsb lenM1 => lsb.toNat + lenM1.toNat + 1 ≤ 64
  -- R64: aenc takes formats 1 and 2, arnd its listed pairs
  | .aenc f _ _ => f.coded
  | .arnd dist f _ _ => arndFmtOk dist f
  -- R65: slots 1 to 255, slot size a non-zero multiple of 32, level 1 to 7
  | .hset _ _ _ n size => n ≠ 0 && size ≠ 0 && size.toNat % 32 = 0
  | .waith _ _ n => n ≠ 0
  | .advh _ n => n ≠ 0
  | .stop _ level => level ≠ 0
  -- R55: swr names a writable register
  | .swr sreg _ => sreg.writable
  | i => i.isPump

end Sys2Proof
end

