-- ==== Sys2Proof/Decode.lean ====
section
/-! DEFINITION. Decoding and encoding of pump instruction words, from R49 to R73. The decoder is total on any bytes and
rejects by name; the encoder gives the word of a well-formed instruction. A field the encoding row does not use must
be zero (R51): the decoder reads the fields of the row and then asks that the word be the one these fields encode. -/

namespace Sys2Proof

/-! ### Codes of the operand fields -/

/-- The 7-bit specifier of a register (R53). -/
def Reg.code : Reg → BitVec 7
  | .g i => i.setWidth 7
  | .k i => 64 + i.setWidth 7
  | .last => 72

/-- The register a specifier names; 73 to 127 are reserved (R53). -/
def Reg.ofCode? (c : BitVec 7) : Option Reg :=
  if c < 64 then some (.g (c.setWidth 6))
  else if c < 72 then some (.k (c.setWidth 3))
  else if c = 72 then some .last
  else none

/-- Scope codes of R67. -/
def Scope.code : Scope → BitVec 3
  | .lane => 1
  | .core => 2
  | .quad => 3
  | .die => 4
  | .pkg => 5
  | .pod => 6

/-- The scope of a code; 0 and 7 name none (R67). -/
def Scope.ofCode? : BitVec 3 → Option Scope
  | 1 => some .lane
  | 2 => some .core
  | 3 => some .quad
  | 4 => some .die
  | 5 => some .pkg
  | 6 => some .pod
  | _ => none

/-- The scope field of `ld` and `st`, 0 for unordered (R68). -/
def scopeCode : Option Scope → BitVec 3
  | none => 0
  | some s => s.code

/-- The scope field of `ld` and `st`: 0 unordered, 7 reserved (R67, R68). -/
def scope0? (c : BitVec 3) : Option (Option Scope) :=
  if c = 0 then some none else (Scope.ofCode? c).map some

/-- Format codes of R71. -/
def Fmt.code : Fmt → BitVec 4
  | .c4 => 1
  | .c16 => 2
  | .o16 => 3
  | .o32 => 4
  | .oi => 5

/-- The format of a code; all others are reserved (R71). -/
def Fmt.ofCode? : BitVec 4 → Option Fmt
  | 1 => some .c4
  | 2 => some .c16
  | 3 => some .o16
  | 4 => some .o32
  | 5 => some .oi
  | _ => none

/-- The fmt field of format Q where 0 means the format of qa (R64). -/
def fmtCode0 : Option Fmt → BitVec 8
  | none => 0
  | some f => f.code.setWidth 8

/-- Condition codes of R59 and R72. -/
def Cond.code : Cond → BitVec 2
  | .eq => 0
  | .lt => 1
  | .le => 2
  | .un => 3

/-- Every two-bit code is a condition (R59). -/
def Cond.ofCode : BitVec 2 → Cond
  | 0 => .eq
  | 1 => .lt
  | 2 => .le
  | _ => .un

/-- Conversion codes of R59. -/
def CvtKind.code : CvtKind → BitVec 4
  | .f32s64 => 0
  | .f32n64 => 1
  | .s64f32 => 2
  | .n64f32 => 3
  | .f32s32 => 4
  | .s32f32 => 5
  | .f32f16 => 6
  | .f16f32 => 7
  | .f32bf16 => 8
  | .bf16f32 => 9

/-- The conversion of a code; 0xA to 0xF are reserved (R59). -/
def CvtKind.ofCode? : BitVec 4 → Option CvtKind
  | 0 => some .f32s64
  | 1 => some .f32n64
  | 2 => some .s64f32
  | 3 => some .n64f32
  | 4 => some .f32s32
  | 5 => some .s32f32
  | 6 => some .f32f16
  | 7 => some .f16f32
  | 8 => some .f32bf16
  | 9 => some .bf16f32
  | _ => none

/-- Size codes of a load (R68). -/
def LdSize.code : LdSize → BitVec 3
  | .bz => 0
  | .hz => 1
  | .wz => 2
  | .d => 3
  | .bs => 4
  | .hs => 5
  | .ws => 6

/-- The load size of a code; 7 is reserved (R68). -/
def LdSize.ofCode? : BitVec 3 → Option LdSize
  | 0 => some .bz
  | 1 => some .hz
  | 2 => some .wz
  | 3 => some .d
  | 4 => some .bs
  | 5 => some .hs
  | 6 => some .ws
  | _ => none

/-- Size codes of a store (R68). -/
def StSize.code : StSize → BitVec 3
  | .b => 0
  | .h => 1
  | .w => 2
  | .d => 3

/-- The store size of a code: 0 to 3 only (R68). -/
def StSize.ofCode? : BitVec 3 → Option StSize
  | 0 => some .b
  | 1 => some .h
  | 2 => some .w
  | 3 => some .d
  | _ => none

/-- The m field of R68. -/
def memMod (scope : BitVec 3) (cistern : Bool) (size : BitVec 3) : BitVec 8 :=
  (0#1 ++ scope ++ BitVec.ofBool cistern ++ size : BitVec 8)

/-- Kinds of `pref` (R62). -/
def PrefKind.code : PrefKind → BitVec 2
  | .l2 => 0
  | .xl => 1

/-- Kinds of `pref`; 2 and 3 are reserved (R62). -/
def PrefKind.ofCode? : BitVec 2 → Option PrefKind
  | 0 => some .l2
  | 1 => some .xl
  | _ => none

/-- The t codes of `aimp` and `aexp` (R62). -/
def IntFmt.code : IntFmt → BitVec 2
  | .int8 => 1
  | .int4 => 2

/-- The t field of `aimp` and `aexp` (R62). -/
def IntFmt.ofCode? : BitVec 16 → Option IntFmt
  | 1 => some .int8
  | 2 => some .int4
  | _ => none

/-- Operation codes of `amo` (R70). -/
def AmoOp.code : AmoOp → BitVec 4
  | .add => 0
  | .fadd => 1
  | .and => 2
  | .or => 3
  | .xor => 4
  | .min => 5
  | .max => 6
  | .minn => 7
  | .maxn => 8
  | .swp => 9

/-- Operation codes of `amo`; 0xA is `cas`, a constructor of its own, and 0xB to 0xF are reserved (R70). -/
def AmoOp.ofCode? : BitVec 4 → Option AmoOp
  | 0 => some .add
  | 1 => some .fadd
  | 2 => some .and
  | 3 => some .or
  | 4 => some .xor
  | 5 => some .min
  | 6 => some .max
  | 7 => some .minn
  | 8 => some .maxn
  | 9 => some .swp
  | _ => none

/-- The scope part of an `amo` ordering code, `.core` to `.pod` (R70). -/
def AmoScope.code : AmoScope → BitVec 4
  | .core => 0
  | .quad => 1
  | .die => 2
  | .pkg => 3
  | .pod => 4

/-- Ordering codes of `amo` (R70). -/
def AmoOrd.code : AmoOrd → BitVec 4
  | .relaxed => 0
  | .acq s => 1 + s.code
  | .rel s => 6 + s.code
  | .ar s => 11 + s.code

/-- Every ordering code is assigned (R70). -/
def AmoOrd.ofCode : BitVec 4 → AmoOrd
  | 0 => .relaxed
  | 1 => .acq .core
  | 2 => .acq .quad
  | 3 => .acq .die
  | 4 => .acq .pkg
  | 5 => .acq .pod
  | 6 => .rel .core
  | 7 => .rel .quad
  | 8 => .rel .die
  | 9 => .rel .pkg
  | 10 => .rel .pod
  | 11 => .ar .core
  | 12 => .ar .quad
  | 13 => .ar .die
  | 14 => .ar .pkg
  | _ => .ar .pod

/-- Operation codes of `nma` (R70). -/
def NmaOp.code : NmaOp → BitVec 4
  | .fadd => 0
  | .add => 1
  | .max => 2
  | .min => 3
  | .fmax => 4
  | .fmin => 5

/-- Operation codes of `nma`; 6 to 15 are reserved (R70). -/
def NmaOp.ofCode? : BitVec 4 → Option NmaOp
  | 0 => some .fadd
  | 1 => some .add
  | 2 => some .max
  | 3 => some .min
  | 4 => some .fmax
  | 5 => some .fmin
  | _ => none

/-- Function codes of R72. -/
def MapFn.code : MapFn → BitVec 16
  | .relu => 1
  | .abs => 2
  | .neg => 3
  | .exp2 => 4
  | .log2 => 5
  | .rcp => 6
  | .rsqrt => 7
  | .sqrt => 8

/-- Function codes of R72; all others are reserved. -/
def MapFn.ofCode? : BitVec 16 → Option MapFn
  | 1 => some .relu
  | 2 => some .abs
  | 3 => some .neg
  | 4 => some .exp2
  | 5 => some .log2
  | 6 => some .rcp
  | 7 => some .rsqrt
  | 8 => some .sqrt
  | _ => none

/-- The fn codes of `arnd` (R72). -/
def Dist.code : Dist → BitVec 1
  | .unif => 0
  | .bits => 1

/-- The fn codes of `arnd` (R72). -/
def Dist.ofCode : BitVec 1 → Dist
  | 0 => .unif
  | _ => .bits

/-- System register numbers of R55. -/
def SReg.code : SReg → BitVec 12
  | .isa => 0x000
  | .feat0 => 0x001
  | .feat1 => 0x002
  | .feat2 => 0x003
  | .feat3 => 0x004
  | .core => 0x010
  | .flow => 0x011
  | .status => 0x020
  | .tvec => 0x021
  | .tcause => 0x022
  | .tval => 0x023
  | .epc => 0x024
  | .cycle => 0x030
  | .fflags => 0x031
  | .seed => 0x032
  | .stall => 0x033

/-- System register numbers of R55; all others are reserved. -/
def SReg.ofCode? : BitVec 12 → Option SReg
  | 0x000 => some .isa
  | 0x001 => some .feat0
  | 0x002 => some .feat1
  | 0x003 => some .feat2
  | 0x004 => some .feat3
  | 0x010 => some .core
  | 0x011 => some .flow
  | 0x020 => some .status
  | 0x021 => some .tvec
  | 0x022 => some .tcause
  | 0x023 => some .tval
  | 0x024 => some .epc
  | 0x030 => some .cycle
  | 0x031 => some .fflags
  | 0x032 => some .seed
  | 0x033 => some .stall
  | _ => none

/-- m[3:0] of `strm`: bit 3 set and the context in m[2:0] when one is named (R65). -/
def ctxCode : Option (BitVec 3) → BitVec 8
  | none => 0
  | some c => (1#1 ++ c).setWidth 8

/-- m[3:0] of `strm` (R65). -/
def ctx0 (m : BitVec 4) : Option (BitVec 3) :=
  if m.getLsbD 3 then some (m.setWidth 3) else none

/-! ### The six formats (R50) -/

/-- Format R. -/
def packR (opc : BitVec 8) (d a b c : BitVec 7) (m : BitVec 8) : Word :=
  (opc ++ d ++ a ++ b ++ c ++ m ++ 0#20 : BitVec 64)

/-- Format I. -/
def packI (opc : BitVec 8) (d a : BitVec 7) (m : BitVec 8) (imm : BitVec 32) : Word :=
  (opc ++ d ++ a ++ 0#2 ++ m ++ imm : BitVec 64)

/-- Format B. -/
def packB (opc : BitVec 8) (a b : BitVec 7) (off : BitVec 32) : Word :=
  (opc ++ 0#7 ++ a ++ b ++ 0#3 ++ off : BitVec 64)

/-- Format S. -/
def packS (opc : BitVec 8) (h : BitVec 6) (n : BitVec 8) (a b : BitVec 7) (m : BitVec 8) (imm : BitVec 20) : Word :=
  (opc ++ h ++ n ++ a ++ b ++ m ++ imm : BitVec 64)

/-- Format T. -/
def packT (opc : BitVec 8) (d a : BitVec 7) (tbl : BitVec 10) (label : BitVec 16) : Word :=
  (opc ++ d ++ a ++ tbl ++ label ++ 0#16 : BitVec 64)

/-- Format Q. -/
def packQ (opc : BitVec 8) (qd qa qb qc : BitVec 4) (ga : BitVec 7) (fmt : BitVec 8) (fn : BitVec 16) : Word :=
  (opc ++ qd ++ qa ++ qb ++ qc ++ ga ++ 0#9 ++ fmt ++ fn : BitVec 64)

/-- The major opcode, bits [63:56] of every format (R49). -/
def opcField (w : Word) : BitVec 8 := w.extractLsb' 56 8

/-- imm32 of format I and off32 of format B (R50). -/
def imm32 (w : Word) : BitVec 32 := w.extractLsb' 0 32

/-- fn of format Q (R50). -/
def fnField (w : Word) : BitVec 16 := w.extractLsb' 0 16

/-- qd of format Q (R50). -/
def qdF (w : Word) : BitVec 4 := w.extractLsb' 52 4

/-- qa of format Q (R50). -/
def qaF (w : Word) : BitVec 4 := w.extractLsb' 48 4

/-- qb of format Q (R50). -/
def qbF (w : Word) : BitVec 4 := w.extractLsb' 44 4

/-- h of format S (R50). -/
def hF (w : Word) : BitVec 6 := w.extractLsb' 50 6

/-- n of format S (R50). -/
def nF (w : Word) : BitVec 8 := w.extractLsb' 42 8

/-- The fmt field of format Q where it must name a format (R64). -/
def fmtField? (w : Word) : Option Fmt := Fmt.ofCode? (w.extractLsb' 16 4)

/-- The fmt field of format Q where 0 means the format of qa (R64). -/
def fmt0? (w : Word) : Option (Option Fmt) :=
  if w.extractLsb' 16 4 = 0#4 then some none else (fmtField? w).map some

/-- The word of a pump instruction (R50 to R72). A step that no word carries has none; it is given the reserved
all-zero word of R52. -/
def encode : Instr → Word
  | .add d a b => packR 0x00 d.code a.code b.code 0 0
  | .sub d a b => packR 0x01 d.code a.code b.code 0 0
  | .and d a b => packR 0x02 d.code a.code b.code 0 0
  | .or d a b => packR 0x03 d.code a.code b.code 0 0
  | .xor d a b => packR 0x04 d.code a.code b.code 0 0
  | .andn d a b => packR 0x05 d.code a.code b.code 0 0
  | .shl d a b => packR 0x06 d.code a.code b.code 0 0
  | .shr d a b => packR 0x07 d.code a.code b.code 0 0
  | .sar d a b => packR 0x08 d.code a.code b.code 0 0
  | .rol d a b => packR 0x09 d.code a.code b.code 0 0
  | .min d a b => packR 0x0a d.code a.code b.code 0 0
  | .max d a b => packR 0x0b d.code a.code b.code 0 0
  | .minn d a b => packR 0x0c d.code a.code b.code 0 0
  | .maxn d a b => packR 0x0d d.code a.code b.code 0 0
  | .slt d a b => packR 0x0e d.code a.code b.code 0 0
  | .sltn d a b => packR 0x0f d.code a.code b.code 0 0
  | .addi d a imm => packI 0x10 d.code a.code 0 imm
  | .andi d a imm => packI 0x11 d.code a.code 0 imm
  | .ori d a imm => packI 0x12 d.code a.code 0 imm
  | .xori d a imm => packI 0x13 d.code a.code 0 imm
  | .shli d a n => packI 0x14 d.code a.code 0 (n.setWidth 32)
  | .shri d a n => packI 0x15 d.code a.code 0 (n.setWidth 32)
  | .sari d a n => packI 0x16 d.code a.code 0 (n.setWidth 32)
  | .roli d a n => packI 0x17 d.code a.code 0 (n.setWidth 32)
  | .slti d a imm => packI 0x18 d.code a.code 0 imm
  | .li d imm => packI 0x19 d.code 0 0 imm
  | .lih d imm => packI 0x1a d.code 0 0 imm
  | .movk d imm lane => packI 0x1b d.code 0 (lane.setWidth 8) (imm.setWidth 32)
  | .agen d imm => packI 0x1c d.code 0 0 imm
  | .mov d a => packR 0x1d d.code a.code 0 0 0
  | .mul d a b => packR 0x20 d.code a.code b.code 0 0
  | .mulh d a b => packR 0x21 d.code a.code b.code 0 0
  | .mulhn d a b => packR 0x22 d.code a.code b.code 0 0
  | .div d a b => packR 0x23 d.code a.code b.code 0 0
  | .divn d a b => packR 0x24 d.code a.code b.code 0 0
  | .rem d a b => packR 0x25 d.code a.code b.code 0 0
  | .remn d a b => packR 0x26 d.code a.code b.code 0 0
  | .madd d a b c => packR 0x27 d.code a.code b.code c.code 0
  | .clz d a => packR 0x28 d.code a.code 0 0 0
  | .ctz d a => packR 0x29 d.code a.code 0 0 0
  | .popc d a => packR 0x2a d.code a.code 0 0 0
  | .bfx d a lsb lenM1 => packI 0x2b d.code a.code 0 (lenM1.setWidth 24 ++ lsb.setWidth 8)
  | .bfi d a lsb lenM1 => packI 0x2c d.code a.code 0 (lenM1.setWidth 24 ++ lsb.setWidth 8)
  | .seq d a b => packR 0x2d d.code a.code b.code 0 0
  | .sne d a b => packR 0x2e d.code a.code b.code 0 0
  | .sel d a b c => packR 0x2f d.code a.code b.code c.code 0
  | .fadd d a b => packR 0x30 d.code a.code b.code 0 0
  | .fsub d a b => packR 0x31 d.code a.code b.code 0 0
  | .fmul d a b => packR 0x32 d.code a.code b.code 0 0
  | .ffma d a b c => packR 0x33 d.code a.code b.code c.code 0
  | .fdiv d a b => packR 0x34 d.code a.code b.code 0 0
  | .fsqrt d a => packR 0x35 d.code a.code 0 0 0
  | .fmin d a b => packR 0x36 d.code a.code b.code 0 0
  | .fmax d a b => packR 0x37 d.code a.code b.code 0 0
  | .fcmp cond d a b => packR 0x38 d.code a.code b.code 0 (cond.code.setWidth 8)
  | .fcvt kind rtz d a => packR 0x39 d.code a.code 0 0 ((BitVec.ofBool rtz ++ kind.code).setWidth 8)
  | .fcls d a => packR 0x3a d.code a.code 0 0 0
  | .beq a b off => packB 0x40 a.code b.code off
  | .bne a b off => packB 0x41 a.code b.code off
  | .blt a b off => packB 0x42 a.code b.code off
  | .bge a b off => packB 0x43 a.code b.code off
  | .bltn a b off => packB 0x44 a.code b.code off
  | .bgen a b off => packB 0x45 a.code b.code off
  | .dbnz a off => packB 0x46 a.code 0 off
  | .jmp off => packB 0x47 0 0 off
  | .call off => packB 0x48 0 0 off
  | .ret a => packR 0x49 0 a.code 0 0 0
  | .jt a tbl label => packT 0x4a 0 a.code tbl label
  | .callt a tbl label => packT 0x4b 0 a.code tbl label
  | .land label => packT 0x4c 0 0 0 label
  | .ld size cist acq d a imm => packI 0x50 d.code a.code (memMod (scopeCode acq) cist size.code) imm
  | .st size cist rel d a imm => packI 0x51 d.code a.code (memMod (scopeCode rel) cist size.code) imm
  | .lds d a imm => packI 0x52 d.code a.code (memMod 0 true 3) imm
  | .stf d a imm => packI 0x53 d.code a.code (memMod 0 true 3) imm
  | .ldq f cist q a imm => packI 0x54 (q.setWidth 7) a.code ((BitVec.ofBool cist ++ f.code).setWidth 8) imm
  | .stq f cist q a imm => packI 0x55 (q.setWidth 7) a.code ((BitVec.ofBool cist ++ f.code).setWidth 8) imm
  | .pref kind a imm => packI 0x56 0 a.code (kind.code.setWidth 8) imm
  | .aimp t f qd qa ga => packQ 0x57 qd qa 0 0 ga.code (f.code.setWidth 8) (t.code.setWidth 16)
  | .aexp t qa qb ga => packQ 0x58 0 qa qb 0 ga.code 0 (t.code.setWidth 16)
  | .amo op ord d a b => packR 0x60 d.code a.code b.code 0 (ord.code ++ op.code)
  | .amoCas ord d a b c => packR 0x60 d.code a.code b.code c.code (ord.code ++ 0xA#4)
  | .fence scope => packR 0x61 0 0 0 0 (scope.code.setWidth 8)
  | .nma op d a imm => packI 0x62 d.code a.code (op.code.setWidth 8) imm
  | .nmf => packR 0x63 0 0 0 0 0
  | .aenc f qd qa => packQ 0x70 qd qa 0 0 0 (f.code.setWidth 8) 0
  | .adec qd qa => packQ 0x71 qd qa 0 0 0 0 0
  | .aadd f qd qa qb => packQ 0x72 qd qa qb 0 0 (fmtCode0 f) 0
  | .asub f qd qa qb => packQ 0x73 qd qa qb 0 0 (fmtCode0 f) 0
  | .amul f qd qa qb => packQ 0x74 qd qa qb 0 0 (fmtCode0 f) 0
  | .afma f qd qa qb qc => packQ 0x75 qd qa qb qc 0 (fmtCode0 f) 0
  | .adot ga qa qb => packQ 0x76 0 qa qb 0 ga.code 0 0
  | .amap fn f qd qa => packQ 0x77 qd qa 0 0 0 (fmtCode0 f) fn.code
  | .amsk f qd qa ga => packQ 0x78 qd qa 0 0 ga.code (fmtCode0 f) 0
  | .acmp cond ga qa qb => packQ 0x79 0 qa qb 0 ga.code 0 (cond.code.setWidth 16)
  | .ascl f qd qa ga => packQ 0x7a qd qa 0 0 ga.code (fmtCode0 f) 0
  | .again ga qa => packQ 0x7b 0 qa 0 0 ga.code 0 0
  | .aidx ga qa => packQ 0x7c 0 qa 0 0 ga.code 0 0
  | .apat qd qa => packQ 0x7d qd qa 0 0 0 0 0
  | .acvt f qd qa => packQ 0x7e qd qa 0 0 0 (f.code.setWidth 8) 0
  | .arnd dist f qd ga => packQ 0x7f qd 0 0 0 ga.code (f.code.setWidth 8) (dist.code.setWidth 16)
  | .hset out h a n size => packS 0x80 h n a.code 0 ((BitVec.ofBool out).setWidth 8) size
  | .strm h a ctx => packS 0x81 h 0 a.code 0 (ctxCode ctx) 0
  | .waith a h n => packS 0x82 h n a.code 0 0 0
  | .advh h n => packS 0x83 h n 0 0 0 0
  | .wptr a h => packS 0x84 h 0 a.code 0 0 0
  | .sbar a => packS 0x85 0 0 a.code 0 0 0
  | .stop h level => packS 0x86 h (level.setWidth 8) 0 0 0 0
  | .mark h => packS 0x87 h 0 0 0 0 0
  | .kick region => packS 0x88 0 (region.setWidth 8) 0 0 0 0
  | .cfgl a => packR 0x90 0 a.code 0 0 0
  | .gld a => packR 0x95 0 a.code 0 0 0
  | .cfgs region plane => packI 0x91 0 0 0 ((plane ++ region.setWidth 4).setWidth 32)
  | .cfgp region pt pf => packI 0x92 0 0 0 ((pf ++ (pt ++ region.setWidth 4).setWidth 8).setWidth 32)
  | .drain region => packI 0x93 0 0 0 (region.setWidth 32)
  | .cfgq d region => packI 0x94 d.code 0 0 (region.setWidth 32)
  | .gsw => packR 0x96 0 0 0 0 0
  | .grel ctx => packI 0x97 0 0 0 (ctx.setWidth 32)
  | .gq d => packR 0x98 d.code 0 0 0 0
  | .dqpush a => packR 0xa0 0 a.code 0 0 0
  | .launch a => packR 0xa4 0 a.code 0 0 0
  | .dqpop d => packR 0xa1 d.code 0 0 0 0
  | .dqlen d => packR 0xa3 d.code 0 0 0 0
  | .dqsteal d a => packR 0xa2 d.code a.code 0 0 0
  | .notify a b => packR 0xa5 0 a.code b.code 0 0
  | .bara scope => packR 0xa6 0 0 0 0 (scope.code.setWidth 8)
  | .barw scope => packR 0xa7 0 0 0 0 (scope.code.setWidth 8)
  | .bar scope => packR 0xa8 0 0 0 0 (scope.code.setWidth 8)
  | .trap imm => packI 0xb0 0 0 0 imm
  | .eret => packR 0xb1 0 0 0 0 0
  | .halt => packR 0xb4 0 0 0 0 0
  | .yield => packR 0xb5 0 0 0 0 0
  | .nop => packR 0xb6 0 0 0 0 0
  | .brk => packR 0xb7 0 0 0 0 0
  | .srd d sreg => packI 0xb2 d.code 0 0 (sreg.code.setWidth 32)
  | .swr sreg a => packI 0xb3 0 a.code 0 (sreg.code.setWidth 32)
  | .feat d n => packI 0xb8 d.code 0 0 (n.setWidth 32)
  | _ => 0

/-- The instruction whose fields stand in a word, by its major opcode (R56), the unused bits not yet looked at. -/
def fieldsOf (w : Word) : Option Instr := do
  let rd := Reg.ofCode? (w.extractLsb' 49 7)
  let ra := Reg.ofCode? (w.extractLsb' 42 7)
  let rb := Reg.ofCode? (w.extractLsb' 35 7)
  let rc := Reg.ofCode? (w.extractLsb' 28 7)
  let rg := Reg.ofCode? (w.extractLsb' 33 7)
  let sa := Reg.ofCode? (w.extractLsb' 35 7)
  match opcField w with
  | 0x00#8 => return .add (← rd) (← ra) (← rb)
  | 0x01#8 => return .sub (← rd) (← ra) (← rb)
  | 0x02#8 => return .and (← rd) (← ra) (← rb)
  | 0x03#8 => return .or (← rd) (← ra) (← rb)
  | 0x04#8 => return .xor (← rd) (← ra) (← rb)
  | 0x05#8 => return .andn (← rd) (← ra) (← rb)
  | 0x06#8 => return .shl (← rd) (← ra) (← rb)
  | 0x07#8 => return .shr (← rd) (← ra) (← rb)
  | 0x08#8 => return .sar (← rd) (← ra) (← rb)
  | 0x09#8 => return .rol (← rd) (← ra) (← rb)
  | 0x0a#8 => return .min (← rd) (← ra) (← rb)
  | 0x0b#8 => return .max (← rd) (← ra) (← rb)
  | 0x0c#8 => return .minn (← rd) (← ra) (← rb)
  | 0x0d#8 => return .maxn (← rd) (← ra) (← rb)
  | 0x0e#8 => return .slt (← rd) (← ra) (← rb)
  | 0x0f#8 => return .sltn (← rd) (← ra) (← rb)
  | 0x10#8 => return .addi (← rd) (← ra) (imm32 w)
  | 0x11#8 => return .andi (← rd) (← ra) (imm32 w)
  | 0x12#8 => return .ori (← rd) (← ra) (imm32 w)
  | 0x13#8 => return .xori (← rd) (← ra) (imm32 w)
  | 0x14#8 => return .shli (← rd) (← ra) (w.extractLsb' 0 6)
  | 0x15#8 => return .shri (← rd) (← ra) (w.extractLsb' 0 6)
  | 0x16#8 => return .sari (← rd) (← ra) (w.extractLsb' 0 6)
  | 0x17#8 => return .roli (← rd) (← ra) (w.extractLsb' 0 6)
  | 0x18#8 => return .slti (← rd) (← ra) (imm32 w)
  | 0x19#8 => return .li (← rd) (imm32 w)
  | 0x1a#8 => return .lih (← rd) (imm32 w)
  | 0x1b#8 => return .movk (← rd) (w.extractLsb' 0 16) (w.extractLsb' 32 2)
  | 0x1c#8 => return .agen (← rd) (imm32 w)
  | 0x1d#8 => return .mov (← rd) (← ra)
  | 0x20#8 => return .mul (← rd) (← ra) (← rb)
  | 0x21#8 => return .mulh (← rd) (← ra) (← rb)
  | 0x22#8 => return .mulhn (← rd) (← ra) (← rb)
  | 0x23#8 => return .div (← rd) (← ra) (← rb)
  | 0x24#8 => return .divn (← rd) (← ra) (← rb)
  | 0x25#8 => return .rem (← rd) (← ra) (← rb)
  | 0x26#8 => return .remn (← rd) (← ra) (← rb)
  | 0x27#8 => return .madd (← rd) (← ra) (← rb) (← rc)
  | 0x28#8 => return .clz (← rd) (← ra)
  | 0x29#8 => return .ctz (← rd) (← ra)
  | 0x2a#8 => return .popc (← rd) (← ra)
  | 0x2b#8 => return .bfx (← rd) (← ra) (w.extractLsb' 0 6) (w.extractLsb' 8 6)
  | 0x2c#8 => return .bfi (← rd) (← ra) (w.extractLsb' 0 6) (w.extractLsb' 8 6)
  | 0x2d#8 => return .seq (← rd) (← ra) (← rb)
  | 0x2e#8 => return .sne (← rd) (← ra) (← rb)
  | 0x2f#8 => return .sel (← rd) (← ra) (← rb) (← rc)
  | 0x30#8 => return .fadd (← rd) (← ra) (← rb)
  | 0x31#8 => return .fsub (← rd) (← ra) (← rb)
  | 0x32#8 => return .fmul (← rd) (← ra) (← rb)
  | 0x33#8 => return .ffma (← rd) (← ra) (← rb) (← rc)
  | 0x34#8 => return .fdiv (← rd) (← ra) (← rb)
  | 0x35#8 => return .fsqrt (← rd) (← ra)
  | 0x36#8 => return .fmin (← rd) (← ra) (← rb)
  | 0x37#8 => return .fmax (← rd) (← ra) (← rb)
  | 0x38#8 => return .fcmp (Cond.ofCode (w.extractLsb' 20 2)) (← rd) (← ra) (← rb)
  | 0x39#8 => return .fcvt (← CvtKind.ofCode? (w.extractLsb' 20 4)) (w.getLsbD 24) (← rd) (← ra)
  | 0x3a#8 => return .fcls (← rd) (← ra)
  | 0x40#8 => return .beq (← ra) (← rb) (imm32 w)
  | 0x41#8 => return .bne (← ra) (← rb) (imm32 w)
  | 0x42#8 => return .blt (← ra) (← rb) (imm32 w)
  | 0x43#8 => return .bge (← ra) (← rb) (imm32 w)
  | 0x44#8 => return .bltn (← ra) (← rb) (imm32 w)
  | 0x45#8 => return .bgen (← ra) (← rb) (imm32 w)
  | 0x46#8 => return .dbnz (← ra) (imm32 w)
  | 0x47#8 => return .jmp (imm32 w)
  | 0x48#8 => return .call (imm32 w)
  | 0x49#8 => return .ret (← ra)
  | 0x4a#8 => return .jt (← ra) (w.extractLsb' 32 10) (w.extractLsb' 16 16)
  | 0x4b#8 => return .callt (← ra) (w.extractLsb' 32 10) (w.extractLsb' 16 16)
  | 0x4c#8 => return .land (w.extractLsb' 16 16)
  | 0x50#8 => return .ld (← LdSize.ofCode? (w.extractLsb' 32 3)) (w.getLsbD 35) (← scope0? (w.extractLsb' 36 3)) (← rd) (← ra) (imm32 w)
  | 0x51#8 => return .st (← StSize.ofCode? (w.extractLsb' 32 3)) (w.getLsbD 35) (← scope0? (w.extractLsb' 36 3)) (← rd) (← ra) (imm32 w)
  | 0x52#8 => return .lds (← rd) (← ra) (imm32 w)
  | 0x53#8 => return .stf (← rd) (← ra) (imm32 w)
  | 0x54#8 => return .ldq (← Fmt.ofCode? (w.extractLsb' 32 4)) (w.getLsbD 36) (w.extractLsb' 49 4) (← ra) (imm32 w)
  | 0x55#8 => return .stq (← Fmt.ofCode? (w.extractLsb' 32 4)) (w.getLsbD 36) (w.extractLsb' 49 4) (← ra) (imm32 w)
  | 0x56#8 => return .pref (← PrefKind.ofCode? (w.extractLsb' 32 2)) (← ra) (imm32 w)
  | 0x57#8 => return .aimp (← IntFmt.ofCode? (fnField w)) (← fmtField? w) (qdF w) (qaF w) (← rg)
  | 0x58#8 => return .aexp (← IntFmt.ofCode? (fnField w)) (qaF w) (qbF w) (← rg)
  | 0x60#8 =>
    let op := w.extractLsb' 20 4
    let ord := AmoOrd.ofCode (w.extractLsb' 24 4)
    if op = 0xA#4 then do return .amoCas ord (← rd) (← ra) (← rb) (← rc)
    else do return .amo (← AmoOp.ofCode? op) ord (← rd) (← ra) (← rb)
  | 0x61#8 => return .fence (← Scope.ofCode? (w.extractLsb' 20 3))
  | 0x62#8 => return .nma (← NmaOp.ofCode? (w.extractLsb' 32 4)) (← rd) (← ra) (imm32 w)
  | 0x63#8 => return .nmf
  | 0x70#8 => return .aenc (← fmtField? w) (qdF w) (qaF w)
  | 0x71#8 => return .adec (qdF w) (qaF w)
  | 0x72#8 => return .aadd (← fmt0? w) (qdF w) (qaF w) (qbF w)
  | 0x73#8 => return .asub (← fmt0? w) (qdF w) (qaF w) (qbF w)
  | 0x74#8 => return .amul (← fmt0? w) (qdF w) (qaF w) (qbF w)
  | 0x75#8 => return .afma (← fmt0? w) (qdF w) (qaF w) (qbF w) (w.extractLsb' 40 4)
  | 0x76#8 => return .adot (← rg) (qaF w) (qbF w)
  | 0x77#8 => return .amap (← MapFn.ofCode? (fnField w)) (← fmt0? w) (qdF w) (qaF w)
  | 0x78#8 => return .amsk (← fmt0? w) (qdF w) (qaF w) (← rg)
  | 0x79#8 => return .acmp (Cond.ofCode (w.extractLsb' 0 2)) (← rg) (qaF w) (qbF w)
  | 0x7a#8 => return .ascl (← fmt0? w) (qdF w) (qaF w) (← rg)
  | 0x7b#8 => return .again (← rg) (qaF w)
  | 0x7c#8 => return .aidx (← rg) (qaF w)
  | 0x7d#8 => return .apat (qdF w) (qaF w)
  | 0x7e#8 => return .acvt (← fmtField? w) (qdF w) (qaF w)
  | 0x7f#8 => return .arnd (Dist.ofCode (w.extractLsb' 0 1)) (← fmtField? w) (qdF w) (← rg)
  | 0x80#8 => return .hset (w.getLsbD 20) (hF w) (← sa) (nF w) (w.extractLsb' 0 20)
  | 0x81#8 => return .strm (hF w) (← sa) (ctx0 (w.extractLsb' 20 4))
  | 0x82#8 => return .waith (← sa) (hF w) (nF w)
  | 0x83#8 => return .advh (hF w) (nF w)
  | 0x84#8 => return .wptr (← sa) (hF w)
  | 0x85#8 => return .sbar (← sa)
  | 0x86#8 => return .stop (hF w) (w.extractLsb' 42 3)
  | 0x87#8 => return .mark (hF w)
  | 0x88#8 => return .kick (w.extractLsb' 42 3)
  | 0x90#8 => return .cfgl (← ra)
  | 0x91#8 => return .cfgs (w.extractLsb' 0 3) (w.extractLsb' 4 2)
  | 0x92#8 => return .cfgp (w.extractLsb' 0 3) (w.extractLsb' 4 2) (w.extractLsb' 8 2)
  | 0x93#8 => return .drain (w.extractLsb' 0 3)
  | 0x94#8 => return .cfgq (← rd) (w.extractLsb' 0 3)
  | 0x95#8 => return .gld (← ra)
  | 0x96#8 => return .gsw
  | 0x97#8 => return .grel (w.extractLsb' 0 1)
  | 0x98#8 => return .gq (← rd)
  | 0xa0#8 => return .dqpush (← ra)
  | 0xa1#8 => return .dqpop (← rd)
  | 0xa2#8 => return .dqsteal (← rd) (← ra)
  | 0xa3#8 => return .dqlen (← rd)
  | 0xa4#8 => return .launch (← ra)
  | 0xa5#8 => return .notify (← ra) (← rb)
  | 0xa6#8 => return .bara (← Scope.ofCode? (w.extractLsb' 20 3))
  | 0xa7#8 => return .barw (← Scope.ofCode? (w.extractLsb' 20 3))
  | 0xa8#8 => return .bar (← Scope.ofCode? (w.extractLsb' 20 3))
  | 0xb0#8 => return .trap (imm32 w)
  | 0xb1#8 => return .eret
  | 0xb2#8 => return .srd (← rd) (← SReg.ofCode? (w.extractLsb' 0 12))
  | 0xb3#8 => return .swr (← SReg.ofCode? (w.extractLsb' 0 12)) (← ra)
  | 0xb4#8 => return .halt
  | 0xb5#8 => return .yield
  | 0xb6#8 => return .nop
  | 0xb7#8 => return .brk
  | 0xb8#8 => return .feat (← rd) (w.extractLsb' 0 8)
  | _ => none

/-- Why bytes are no instruction. Each is fault 0x01 of R51, R52 and R56, except too few bytes, which the pump
never meets, since it fetches whole words. -/
inductive Reject where
  | shortBytes
  | zeroWord
  | reservedOpcode (opc : BitVec 8)
  | reservedField (opc : BitVec 8)
  deriving DecidableEq, Repr

/-- The major opcode is assigned in the grid of R56. -/
def opcodeAssigned (opc : BitVec 8) : Bool :=
  let lo := opc.toNat % 16
  match opc.toNat / 16 with
  | 0 => true
  | 1 => lo ≤ 0xD
  | 2 => true
  | 3 => lo ≤ 0xA
  | 4 => lo ≤ 0xC
  | 5 => lo ≤ 8
  | 6 => lo ≤ 3
  | 7 => true
  | 8 => lo ≤ 8
  | 9 => lo ≤ 8
  | 10 => lo ≤ 8
  | 11 => lo ≤ 8
  | _ => false

/-- The decoder of a pump instruction word (R49 to R73): its instruction, or why it is none. -/
def decode (w : Word) : Except Reject Instr :=
  if w = 0 then .error .zeroWord
  else if opcodeAssigned (opcField w) then
    match fieldsOf w with
    | some i => if i.wf && encode i = w then .ok i else .error (.reservedField (opcField w))
    | none => .error (.reservedField (opcField w))
  else .error (.reservedOpcode (opcField w))

/-- A 64-bit word from 8 bytes, the byte at the lowest address holding bits [7:0] (R8, R49). -/
def wordOfBytes (b0 b1 b2 b3 b4 b5 b6 b7 : Byte) : Word :=
  (b7 ++ b6 ++ b5 ++ b4 ++ b3 ++ b2 ++ b1 ++ b0 : BitVec 64)

/-- Decoding of any bytes: the instruction that the first 8 of them hold, with the rest, or why there is none. -/
def decodeBytes : List Byte → Except Reject (Instr × List Byte)
  | b0 :: b1 :: b2 :: b3 :: b4 :: b5 :: b6 :: b7 :: rest =>
    match decode (wordOfBytes b0 b1 b2 b3 b4 b5 b6 b7) with
    | .ok i => .ok (i, rest)
    | .error e => .error e
  | _ => .error .shortBytes

/-- The 8 bytes of a word as memory holds them (R8). -/
def bytesOfWord (w : Word) : List Byte :=
  [w.extractLsb' 0 8, w.extractLsb' 8 8, w.extractLsb' 16 8, w.extractLsb' 24 8,
   w.extractLsb' 32 8, w.extractLsb' 40 8, w.extractLsb' 48 8, w.extractLsb' 56 8]

/-- The instruction this decoder reads from one whose bits are `w`, bit 0 the least significant bit of the word; every
pump instruction has 64 bits, so the bits from `nbits` up are zero. -/
def decodeTableWord (nbits w : Nat) : Option Instr :=
  match decodeBytes (bytesOfWord (BitVec.ofNat 64 (w % 2 ^ nbits))) with
  | .ok (i, _) => some i
  | .error _ => none

end Sys2Proof
end

