-- ==== Sys2Proof/Machine/State.lean ====
section
/-! DEFINITION. The state of a Corsan package as plain data, the ways a step can stop, and the state after reset.
Fields cite the rule that names them. Time is one count of core cycles (`now`); a counter of the manual that runs with
time is kept as the moment it started. -/

namespace Sys2Proof.Machine

open Sys2Proof

/-! ### Memory -/

/-- Memory: the bytes that differ from what an unlisted address reads as, in rising order of address (log 5). -/
abbrev Memory := List Host.Cell

/-- What an unlisted address reads as (DESIGN CHOICE, log 5: the manual states no contents of HBM at reset). -/
def Memory.blank : Byte := 0

/-- The canonical form: addresses strictly rising, and no entry equal to what an unlisted address reads as. -/
def Memory.wf : Memory → Bool
  | [] => true
  | [c] => c.2 ≠ Memory.blank
  | c :: d :: r => c.2 ≠ Memory.blank && c.1 < d.1 && Memory.wf (d :: r)

/-- The agents of the ordering model (R260): the pump of a core, an AG stream by its site, a memory site, the near-memory
updates of a core's pump (R286), the engines that write completion records (R289), the pumphouses and the host. -/
inductive Agent where
  | pump (c : CoreId)
  | ag (c : CoreId) (a : Fin 8)
  | site (c : CoreId) (n : Fin 8)
  | near (c : CoreId)
  | engine
  | house
  | host
  deriving DecidableEq, Repr

/-- A write issued and not yet performed at its point of coherence (R261, R485). -/
structure Pending where
  core : CoreId
  /-- `none`: a store of the pump; `some r`: a write into a line that region `r`'s write bind holds (R273). -/
  bind : Option (Fin 8)
  pa : Nat
  /-- the virtual address that was translated (R437) -/
  va : Word
  bytes : List Byte
  /-- the metadata code the write forces, for a stream with cmp = 0 (R343) -/
  raw : Bool
  /-- who makes the write -/
  by_ : Agent
  /-- the releases that the write carries (R277, R279) -/
  rels : List Nat
  deriving DecidableEq, Repr

/-- Where bytes lie: physical memory, or the cistern of a core. -/
inductive Bank where
  | memory
  | cistern (c : CoreId)
  deriving DecidableEq, Repr

/-- What makes a release reach an acquire (R276 to R280, R413): the write of a word, whose store may still be to issue; the
stores after a fence, and later fences; the wait of the arrival's episode; the pop of the pushed word. -/
inductive Carrier where
  | word (issued : Bool)
  | fence
  | arrival (scope : Scope) (n : BitVec 32)
  | push
  deriving DecidableEq, Repr

/-- A write event: where it lies, and its number. -/
structure Event where
  bank : Bank
  lo : Nat
  n : Nat
  serial : Nat
  deriving DecidableEq, Repr

/-- A release (R276): its number, the core that makes it (`none` for the pumphouses and the host), its scope, and whether an
engine makes it (R289). -/
structure Release where
  id : Nat
  core : Option CoreId
  scope : Scope
  engine : Bool
  kind : Carrier
  /-- the writes at its word, the newest first, and whether each one belongs to its release sequence (R277) -/
  writes : List (Event × Bool)
  /-- the pumps whose plain loads have read from its release sequence (R279) -/
  readers : List CoreId
  deriving DecidableEq, Repr

/-- A part of a write event, within an aligned 8-byte word, that a viewer has not seen yet: its bytes as they were before
(R261, R262, R264, R271; log 7). -/
structure Stale where
  viewer : Agent
  bank : Bank
  lo : Nat
  old : List Byte
  /-- the number of the write -/
  serial : Nat
  /-- the agents whose later accesses it happens before, and since which write: the one that made it, and those that have
  read or acquired it (R278) -/
  known : List (Agent × Nat)
  /-- the numbers of the releases that carry it -/
  via : List Nat
  /-- the line had been copied into the read bind of the viewer's core (R274) -/
  copied : Bool
  deriving DecidableEq, Repr

/-- What the schedule lets a viewer not see yet: the words of a range. -/
structure Lag where
  viewer : Agent
  bank : Bank
  lo : Nat
  hi : Nat
  deriving DecidableEq, Repr

/-- A register whose load may still be on its way (R98, R264). -/
inductive Src where
  | reg (r : Reg)
  | atom (q : BitVec 4)
  deriving DecidableEq, Repr

/-- An `nma` sent and not yet performed (R286, R303). -/
structure NmaOpPending where
  core : CoreId
  op : NmaOp
  pa : Nat
  va : Word
  value : BitVec 32
  deriving DecidableEq, Repr

/-- A present translation that a core's TLB holds (R432, R433). -/
structure TlbEntry where
  space : BitVec 8
  vbase : Nat
  size : Nat
  pbase : Nat
  r : Bool
  w : Bool
  x : Bool
  deriving DecidableEq, Repr

/-- A partial walk that a core holds: the table of a level from which walks of a part of a space go on (R432). -/
structure PartWalk where
  space : BitVec 8
  vbase : Nat
  size : Nat
  table : Nat
  level : Nat
  deriving DecidableEq, Repr

/-- A walk that the schedule lets a core make and cache: its page when `depth` is 0, else the table of that level, in the
place of what the core held for the address (R432, R433; log 9). -/
structure Fill where
  core : CoreId
  va : Word
  depth : Nat
  deriving DecidableEq, Repr

/-! ### The pump -/

/-- An atom register: 128 bits and a format tag (R94). -/
structure QReg where
  val : BitVec 128
  tag : Fmt
  deriving DecidableEq, Repr

/-- A fault or event code of R448. -/
abbrev Code := BitVec 8

/-- What a trap writes into `s.tcause` and `s.tval` (R96, R117, R118). -/
structure Cause where
  code : Code
  fab : Bool
  region : BitVec 3
  tval : Word
  deriving DecidableEq, Repr

/-- A load fault that R322 holds: the plane (or sluice context) it wrote, and the image offset. -/
structure Held where
  code : Code
  sluice : Bool
  plane : BitVec 3
  offset : Word
  deriving DecidableEq, Repr

/-- A configuration load in progress: the block as the `cfgl` read it, header and frames (R292, R321). -/
structure Load where
  /-- image offset of the header -/
  offset : Word
  sluice : Bool
  plane : BitVec 3
  header : Frame
  frames : List Frame
  deriving DecidableEq, Repr

/-- Arrivals and waits of one core at one scope, and the mark of an abandoned `bar` (R319, R464). -/
structure Barrier where
  arrivals : BitVec 32
  waits : BitVec 32
  abandoned : Bool
  deriving DecidableEq, Repr

/-- What the pump of a core is doing (R25, R121, R124, R417). -/
inductive Run where
  /-- no flow -/
  | idle
  | running
  /-- has executed `halt` with its regions drained -/
  | halted
  /-- stopped for a pre-emption -/
  | frozen
  /-- stopped for a fatal end -/
  | fatal
  deriving DecidableEq, Repr

/-- The kinds of a stream descriptor (R309). -/
inductive StreamKind where
  | input
  | output
  | feed
  | take
  deriving DecidableEq, Repr

/-- What a pump has published on an `.out` handle and the stream has not yet read: a slot with its first seq, or a
MARK or STOP (R308, R316). -/
inductive Item where
  | slot (k : Nat) (firstSeq : Nat)
  | mark (seq : Nat)
  | stop (level : BitVec 3)
  deriving DecidableEq, Repr

/-- One counter of a pattern: bound and signed stride (R85, R309). -/
structure Counter where
  bound : Nat
  stride : Int
  deriving DecidableEq, Repr

/-- The fields of a fold record (R248). -/
structure FoldRec where
  station : Bool
  integer : Bool
  head : Bool
  shards : Nat
  first : Nat
  count : Nat
  blk : Nat
  members : List (BitVec 16 × Nat)
  buffer : Word
  deriving DecidableEq, Repr

/-- A stream bound to a handle: its descriptor (R309) and how far it has run (R311, R314). -/
structure Stream where
  kind : StreamKind
  desc : Word
  ag : Fin 8
  region : Fin 8
  fmt : Option Fmt
  cmp : Bool
  record : Bool
  bind : BitVec 2
  int : BitVec 3
  rnd : Nat
  stop : BitVec 3
  cons : Nat
  addr : Word
  counters : List Counter
  ptr2 : Word
  ctx : Option (Fin 8)
  fold : Option FoldRec
  /-- the stream has ended -/
  ended : Bool
  /-- bytes committed (R314) -/
  committed : Nat
  /-- slots of the ring that were filled before the stream started (R306) -/
  origin : Nat
  /-- DATA token index reached in the pattern, as it stood when the stream ended (R467); its AG site or fold element counts
  while it runs -/
  pos : Nat
  /-- DATA tokens of the open round: emitted (kind 1) or held for commit (kinds 2, 4) -/
  round : List (Nat × Frame × Bool)
  /-- releases received by the unfreed slots, the oldest first, of all consumers (R312) -/
  releases : List Nat
  /-- tokens already taken of the slot being read -/
  taken : Nat
  /-- the invalid flag of the stream's fault record, and the sluice flags (R311, R355) -/
  flags : Flags
  /-- the code of a fault that ended it (R450) -/
  fault : Option Code
  /-- the moment it last moved a token (R313) -/
  movedAt : Nat
  deriving DecidableEq, Repr

/-- A handle: a ring of slots in the cistern (R95, R305). -/
structure Handle where
  out : Bool
  base : Nat
  slots : Nat
  size : Nat
  /-- F of R306 -/
  fill : Nat
  /-- P of R306 -/
  free : Nat
  /-- slots the ring's source has freed for refilling (R312) -/
  freed : Nat
  /-- joined consumer of the ring of that handle (R312) -/
  joined : Option (BitVec 6)
  stream : Option Stream
  /-- published and unread items of an `.out` handle -/
  items : List Item
  /-- DATA count of the open round of the pump's publications (R235) -/
  openData : Nat
  /-- per place in the ring, the count of writes when its slot was last filled (R268) -/
  filledAt : List Nat
  deriving DecidableEq, Repr

/-- The registers and hidden state of a pump (R91 to R97, R117 to R124). -/
structure Pump where
  g : Vector Word 64
  k : Vector Word 8
  last : Word
  savedLast : Word
  pc : Word
  q : Vector QReg 16
  ht : Bool
  pht : Bool
  ypend : Bool
  tvec : Word
  tcause : Cause
  epc : Word
  fflags : Flags
  seed : Word
  stallWhy : BitVec 8
  stallCycles : BitVec 32
  flow : BitVec 32
  prio : BitVec 2
  run : Run
  /-- the instruction the pump is blocked in -/
  block : Option Instr
  blockedAt : Nat
  /-- the page request the pump waits on, with the virtual address that needs it (R434) -/
  page : Option (BitVec 32 × Word)
  /-- pending asynchronous traps (R120) -/
  asyncs : List Cause
  /-- peer events that await the next round boundary of the core's regions (R441) -/
  events : List Cause
  held : List Held
  load : Option Load
  bars : Vector Barrier 6
  handles : Vector (Option Handle) 64
  /-- `nma` issued since the last `nmf` (R359) -/
  nmaBatch : Nat
  /-- the trap that was refused, with the `s.epc` it would have written (R121, R447) -/
  fatalBy : Option (Cause × Word)
  /-- the moment the pump last issued an instruction (R391) -/
  issuedAt : Nat
  /-- registers loaded and not yet used, with the number of the first write after the one they hold (R98, R485) -/
  loads : List (Src × Nat)
  deriving DecidableEq, Repr

/-! ### The polder -/

/-- Token types of R148. -/
inductive TokKind where
  | data
  | stop (level : BitVec 3)
  | mark
  | scale
  | abort
  deriving DecidableEq, Repr

/-- A token with its sidebands (R147, R177, R458). The check code of R149 is a function of these fields. -/
structure Token where
  kind : TokKind
  seq : Nat
  payload : Frame
  scale : Byte
  poison : Bool
  deriving DecidableEq, Repr

/-- Why an element last stood still: the cause and ports of R395. -/
structure Stall where
  cause : BitVec 4
  ports : BitVec 4
  since : Nat
  fired : Nat
  deriving DecidableEq, Repr

/-- Whether an element is awake, clock-gated, called by a token that has arrived since, power-gated or waking until a moment
(R396, R397). -/
inductive Gate where
  | awake
  | clock
  | called
  | power
  | waking (until' : Nat)
  deriving DecidableEq, Repr

/-- An exact value: NaN (signalling or quiet), an infinity, or sign, integer and exponent of two. -/
inductive Num where
  | nan (signalling : Bool)
  | inf (neg : Bool)
  | fin (neg : Bool) (m : Nat) (e : Int)
  deriving DecidableEq, Repr

/-- The state of one operator, shared by all kinds: each kind uses the parts its rule names (R181 to R203, R370 to
R382); the others are empty. -/
structure OpState where
  /-- stationary block of a Dot; block of a Turn; FIFO of a Delay -/
  store : List Token
  /-- when each token of a `dly.fifo` arrived -/
  stamps : List Nat
  /-- the open vector of a Dot -/
  vec : List Token
  /-- accumulator tokens read for the vector -/
  held : List Token
  /-- lanes, atoms or tokens not yet packed on the primary and on the secondary output, each with its poison -/
  buf : List (Frame × Bool)
  buf2 : List (Frame × Bool)
  /-- arrivals of the open round, per port rank -/
  arrivals : Vector (List Token) 4
  /-- slots of a Sum, lane by lane -/
  slots : List Num
  /-- phases, positions, counts -/
  n : Vector Nat 6
  /-- pending route bits or index entries, and whether the firing behind each read a poisoned token (R459) -/
  bits : List (BitVec 32)
  bitsBad : List Bool
  /-- the present parameter, or the last token of the round of a `join.pred` -/
  latch : Option Frame
  /-- the range folded so far (R199) -/
  range : BitVec 32 × BitVec 32
  deriving DecidableEq, Repr

/-- A compute site of the running plane: operator input registers, held outputs, operator state (R362, R364). -/
structure Site where
  inReg : Vector (Option Token) 4
  outq : Vector (List Token) 4
  outSeq : Vector Nat 4
  op : OpState
  /-- flags of the open round (R176) -/
  pendFlags : Flags
  poisoned : Bool
  /-- rounds committed per input port since `kick` (R454) -/
  commits : Vector Nat 4
  gate : Gate
  firedAt : Nat
  stall : Stall
  deriving DecidableEq, Repr

/-- A memory site of the running plane (R329 to R332). -/
structure MemSite where
  /-- the token at its input from the W link of site n.0 -/
  inReg : Option Token
  /-- tokens it holds for that link -/
  outq : List Token
  /-- held tokens of the open round, or the FIFO of `mem.fifo` -/
  hold : List Token
  /-- next slot index, passes done, DATA of the open round, permits left -/
  pos : Nat
  passes : Nat
  roundData : Nat
  credit : Int
  finished : Bool
  pendFlags : Flags
  commits : Nat
  stall : Stall
  deriving DecidableEq, Repr

/-- What an AG site runs: a frame of a region's plane, or a stream of a handle (R311, R333). -/
inductive AgUse where
  | free
  | frame (region : Fin 8)
  | stream (h : BitVec 6)
  deriving DecidableEq, Repr

/-- An AG site (R333 to R337, R455). -/
structure AgSite where
  use : AgUse
  /-- the token at its input from the E link of site n.7 -/
  inReg : Option Token
  /-- tokens it holds for that link or for the Weir -/
  outq : List Token
  /-- reads issued and not yet returned, and the rows a scattering sink holds: pattern index, address, `none` for a
  zero token or a dropped row, and whether the index token was poisoned -/
  reads : List (Nat × Option Word × Bool)
  /-- held tokens of the open round of a sink -/
  hold : List Token
  pos : Nat
  sub : Nat
  /-- index entries of `ag.gath` and `ag.scat` still to serve, and whether their token was poisoned -/
  pendIdx : List (Option Word × Bool)
  /-- units or element codes not yet packed by an INT transform (R348, R349) -/
  part : List (Frame × Bool)
  roundData : Nat
  credit : Int
  ended : Bool
  finished : Bool
  pendFlags : Flags
  /-- lines whose partial write was dropped, to be told at the next MARK (R345) -/
  dropped : List Nat
  /-- retained: the tokens it has sent since the cut, the index tokens it has taken since then, and how many tokens of
  a replay have had their effect already (R239, R454, R455) -/
  sent : List Token
  taken : Nat
  again : Nat
  page : Option (BitVec 32 × Word)
  commits : Nat
  stall : Stall
  deriving DecidableEq, Repr

/-- The elements of a core as they stood at the last commit of an element that may be joined with them: where a replay
starts (R237, R240, R453; log 10). -/
structure Cut where
  sites : Vector Site 64
  links : Vector (List Token) 256
  mems : Vector MemSite 8
  ags : Vector AgSite 8
  handles : Vector (Option Handle) 64
  preds : Vector Bool 8
  deriving DecidableEq, Repr

/-- A stall record that waits on a page request, with the fault that it precedes (R394). -/
structure DueStill where
  code : Code
  record : List Byte
  page : Option (BitVec 32)
  deriving DecidableEq, Repr

/-- A region of a core (R320 to R327, R391 to R393). -/
structure Region where
  sel : Option (Fin 4)
  run : Bool
  stray : Bool
  armed : Option (Fin 4 × Fin 4)
  pred : Bool
  flags : Flags
  seed : Word
  /-- the moment of the last progress or of the kick (R391) -/
  movedAt : Nat
  /-- since when the count of still cycles pauses, and the pauses since the last progress, first moment and end (R391) -/
  pausedAt : Option Nat
  pauses : List (Nat × Nat)
  /-- aborts since the last commit, and the commits of the region at the last abort (R456) -/
  aborts : Nat
  abortAt : Nat
  /-- since when a pre-emption has been requested: sources stop at their next round boundary (R26, R417) -/
  stopping : Option Nat
  /-- frozen for pre-emption -/
  frozen : Bool
  /-- the page request that an armed swap at its drain waits on (R324, R434) -/
  page : Option (BitVec 32)
  /-- the fault of R392 whose stall record waits (R394) -/
  due : Option DueStill
  /-- stall counters of the switches at sites without a compute frame, for this region's links (R423) -/
  switches : Vector Stall 64
  /-- the sinks and memory sites that its runs have started (R268) -/
  agents : List Agent
  /-- the fault that made it stray in its open round, which an abort of that round discards (R457) -/
  fault : Option Cause
  deriving DecidableEq, Repr

/-- A plane of a core: the frames of its last load (R78, R321). -/
structure Plane where
  frames : List Frame
  /-- image offset of the block header -/
  offset : Word
  /-- sites whose frame is still being written or fetched (R398) -/
  absent : List (Fin 64)
  /-- the page request a fetch of a site's frame waits on (R398, R434) -/
  page : Option (BitVec 32 × Fin 64)
  /-- a storage error has made the plane unusable (R461) -/
  bad : Bool
  deriving DecidableEq, Repr

/-- An address range bound to an L1 bank, as ranges of physical line numbers, first and after the last, with the
virtual address of the first (R272 to R274, R438). -/
structure Bind where
  owner : AgUse
  ag : Fin 8
  write : Bool
  ranges : List (Nat × Nat × Word)
  /-- lines that a read bind has copied into the bank (R274) -/
  copied : List Nat
  deriving DecidableEq, Repr

/-- The polder of a core. -/
structure Fabric where
  planes : Vector Plane 4
  regions : Vector Region 8
  sites : Vector Site 64
  /-- incoming-link buffers, index 4 × site + direction (R84, R364) -/
  links : Vector (List Token) 256
  mems : Vector MemSite 8
  ags : Vector AgSite 8
  binds : List Bind
  /-- commits, starts of regions and ends of feeds so far: with each the cut is taken anew -/
  commits : Nat
  /-- commits of elements of regions so far: their round boundaries (R441) -/
  rounds : Nat
  cut : Option Cut
  deriving DecidableEq, Repr

/-! ### Cores -/

/-- The launch state of a core: what the pumphouse loads beside the registers (R39, R75, R402, R410). -/
structure Launch where
  space : BitVec 8
  queue : Nat
  image : Word
  codeLo : Nat
  codeHi : Nat
  tables : Word
  tableCount : Nat
  /-- group rank, and the cores of the group in rank order -/
  rank : Nat
  group : List CoreId
  diag : Word
  window : Nat
  spill : Word
  spillWords : Nat
  sites : Nat
  cluster : Option (Fin 32)
  slot : Fin 8
  /-- completion ring: ring core, cistern offset, record count; `nma` batch records (R357, R402) -/
  ring : Option (CoreId × Nat × Nat)
  batches : Bool
  deriving DecidableEq, Repr

/-- An error in a storage unit of a core (R451). -/
inductive Flaw where
  /-- one that corrects itself: the kind and address of its record (R462) -/
  | corrected (kind : Byte) (what : Word)
  /-- an uncorrectable one of pump state: registers or handles (R446) -/
  | pumpState
  /-- an uncorrectable one of a token that AG site `ag` retains (R455, R461) -/
  | retained (ag : Fin 8) (n : Nat)
  deriving DecidableEq, Repr

/-- One core. -/
structure Core where
  pump : Pump
  fab : Fabric
  launch : Launch
  /-- the cistern by offset, in the canonical form of memory (R271, log 6) -/
  cistern : Memory
  /-- the full-empty bits that are full, by word number, rising (R270) -/
  full : List Nat
  /-- which agent set a bit full, and the count of writes then (R268, R270) -/
  setBy : List (Nat × Agent × Nat)
  /-- poisoned cistern words (R461) -/
  bad : List Nat
  /-- storage errors not yet met, by word number (R461, log 11) -/
  latent : List Nat
  /-- hardware part of the deque, oldest first, and the count of spilled words (R411) -/
  deque : List Word
  spilled : Nat
  /-- the releases of the pushes of its words, spilled ones too, the oldest first (R413) -/
  pushes : List Nat
  /-- words of the logical deque, the oldest being 0, with an uncorrectable error: not met yet, or poisoned (R451, R461) -/
  dequeBad : List (Nat × Bool)
  /-- other storage errors that have not been met (R451) -/
  flaws : List Flaw
  tlb : List TlbEntry
  walks : List PartWalk
  /-- the moment of the core's reset (R28) -/
  resetAt : Nat
  /-- the last moment at which a region ran, a stream was active or a window was open (R298) -/
  activeAt : Nat
  deriving DecidableEq, Repr

/-! ### Weirs, sluice arrays, folds -/

/-- A loaded graph (R212 to R214), its header as it was read. -/
structure Graph where
  header : List Byte
  nodes : List Word
  inMap : List (BitVec 16)
  outMap : List (BitVec 32)
  nl : Nat
  nout : Nat
  ins : BitVec 4
  ocore : Fin 4
  lvl : BitVec 3
  deriving DecidableEq, Repr

/-- A Weir's pipeline as it stood at the last commit of the domain (R453, R454). -/
structure WeirCut where
  openVec : List Frame
  received : Bool
  ended : Bool
  inReg : Vector (Option Token) 4
  outq : List Token
  outSeq : Nat
  pendFlags : Flags
  poisoned : Bool
  deriving DecidableEq, Repr

/-- The Weir of a quad (R217 to R224, R226 to R228). -/
structure Weir where
  ctx : Vector (Option Graph) 2
  active : Fin 2
  swap : Bool
  release : Bool
  /-- tokens of the open vector, in arrival order -/
  openVec : List Frame
  /-- the active context has received a token since it became active, and the last token it forwarded was a STOP of
  level lvl or higher (R218) -/
  received : Bool
  ended : Bool
  /-- input registers, one per core of the quad -/
  inReg : Vector (Option Token) 4
  outq : List Token
  outSeq : Nat
  /-- flags of the open round, and the sticky flags (R209) -/
  pendFlags : Flags
  flags : Flags
  poisoned : Bool
  /-- rounds committed (R456), and where a replay starts (R453) -/
  commits : Nat
  cut : Option WeirCut
  stall : Stall
  deriving DecidableEq, Repr

/-- A sluice context, the same in every controller of the package: owner flow, frames, image offset (R352). -/
structure SluiceCtx where
  owner : BitVec 32
  frames : List Frame
  offset : Word
  deriving DecidableEq, Repr

/-- A line that waits to pass a sluice context (R354): the AG it belongs to and its tokens by address. -/
structure SluiceJob where
  core : CoreId
  ag : Fin 8
  ctx : Fin 8
  write : Bool
  /-- physical addresses and payloads of the tokens in address order -/
  tokens : List (Nat × Frame × Bool)
  /-- reads that the line serves, in order: pattern index, byte offset in the line, poison of the index (R336) -/
  index : List (Nat × Nat × Bool)
  raw : Bool
  /-- how often the line has been aborted (R457) -/
  aborts : Nat
  deriving DecidableEq, Repr

/-- A fold element at a die-bridge or Levee port (R246, R247). -/
structure Fold where
  /-- the stream that feeds it -/
  core : CoreId
  h : BitVec 6
  rec_ : FoldRec
  /-- where its results go: the stream's pattern, and the index reached -/
  addr : Word
  counters : List Counter
  raw : Bool
  pos : Nat
  /-- station: its entry of the member table (R248), once that is known (log 30) -/
  member : Option Nat
  /-- physical address of the first token of the stream's pattern, which says what ports the stream crosses (R246, R283) -/
  pa : Nat
  /-- the die at whose port it lies (R246) -/
  die : Nat
  /-- partial tokens of the open round -/
  pend : List (Nat × Frame × Bool)
  /-- committed partial tokens not yet folded -/
  parts : List Frame
  /-- chain: tokens of the running value received from the previous member -/
  running : List Frame
  /-- tokens of a folded block that still have a bridge to cross, and whose element they go to: `none` for the sink -/
  outs : List Frame
  next : Option (CoreId × BitVec 6)
  /-- flags held for the stream -/
  flags : Flags
  /-- rounds committed (R454) -/
  rounds : Nat
  deriving DecidableEq, Repr

/-- The window of a channel that crosses a bridge or Levee port: credits and the receiver's buffer (R366). -/
structure Crossing where
  port : BitVec 16
  /-- 0: from the stream to its fold element; k: the k-th bridge that what the element sends crosses (R18, R283) -/
  leg : Nat
  capacity : Nat
  credits : Nat
  buffer : List Token
  /-- the fold element the tokens go to, or come from -/
  fold : Nat
  /-- the moment a token or a credit last crossed (R391) -/
  movedAt : Nat
  deriving DecidableEq, Repr

/-! ### Queues, flows and pumphouses -/

/-- A user queue (R399, R428, R439). -/
structure Queue where
  num : Fin 256
  space : BitVec 8
  base : Word
  log2n : Nat
  doorbell : Word
  head : Word
  code : Code
  err : Bool
  /-- the head record has been rejected (R406, R475) -/
  rejected : Bool
  /-- the doorbell word is still to be written 0, for its page was absent at creation (R475) -/
  fresh : Bool
  cluster : Option (Fin 32)
  slot : Fin 8
  /-- notifies that wait on a page request, in order (R401) -/
  waiting : List Word
  page : Option (BitVec 32)
  deriving DecidableEq, Repr

/-- A launch record as read (R402). -/
structure Record where
  image : Word
  args : Word
  completion : Word
  value : Word
  seed : Word
  save : Word
  diag : Word
  spill : Word
  spillWords : Nat
  nq : Nat
  nc : Nat
  span : Nat
  prio : Nat
  still : Nat
  ring : Bool
  batches : Bool
  sites : Nat
  deps : List (Word × Word)
  ringOffset : Nat
  ringCount : Nat
  ringCore : Nat
  deriving DecidableEq, Repr

/-- The life of a flow (R25, R417, R446). -/
inductive FlowState where
  | running
  | freezing
  | saved
  | retired
  | ended
  deriving DecidableEq, Repr

/-- What a pre-emption keeps of a core beside the save area (log 16): the element states, whose layout the manual does
not give, with the lines before a sluice context and the fold elements of its streams. -/
structure Kept where
  core : Core
  jobs : List SluiceJob
  folds : List (Fold × List Crossing)
  /-- events 0x28 raised while the flow is saved (R441) -/
  events : List Cause
  deriving DecidableEq, Repr

/-- A completion record that is due (R358, R359). -/
structure DueRecord where
  kind : Byte
  status : Byte
  code : Code
  flags : Flags
  amount : Word
  core : CoreId
  handle : BitVec 6
  addr : Word
  /-- whose writes it reports, and the count of writes when it became due (R289) -/
  by_ : Agent
  upTo : Nat
  deriving DecidableEq, Repr

/-- The fatal end of a group under way, its peers told (R446, R447): code, record, and the rank whose slot takes it. -/
structure Fate where
  code : Code
  record : List Byte
  rank : Nat
  deriving DecidableEq, Repr

/-- A flow that has been dispatched (R25, R39, R402, R417). -/
structure Flow where
  num : BitVec 32
  queue : Fin 256
  space : BitVec 8
  rec_ : Record
  cores : List CoreId
  state : FlowState
  /-- dispatch order, for the choice of victims (R416) -/
  order : Nat
  /-- the order of the first dispatch: the flows of one cluster are dispatched under one number (R439) -/
  born : Nat
  kept : List Kept
  keptWeirs : List Weir
  keptSluice : List (Fin 8 × SluiceCtx)
  fate : Option Fate
  /-- completion ring: next record number and the records that wait (R359) -/
  ringNext : Nat
  due : List DueRecord
  /-- the completion write waits on a page request -/
  page : Option (BitVec 32)
  cluster : Option (Fin 32)
  slot : Fin 8
  /-- peers of its cluster that were lost (R441) -/
  lost : List (Fin 8)
  /-- the queue that dispatched it has been destroyed (R414, R475) -/
  orphan : Bool
  deriving DecidableEq, Repr

/-- A mapped slot of a pumphouse (R403 to R405). -/
structure Slot where
  queue : Fin 256
  base : Nat
  effective : Nat
  passes : Nat
  /-- the dependences of the head have been seen met (R404) -/
  ready : Bool
  page : Option (BitVec 32)
  deriving DecidableEq, Repr

/-- The pumphouse of a die (R403, R405). -/
structure House where
  slots : Vector (Option Slot) 16
  /-- last(L): the slot last dispatched at level L -/
  lastAt : Vector (Fin 16) 4
  lastMapped : Fin 256
  deriving DecidableEq, Repr

/-- An outstanding page request (R434, R435). -/
structure PageReq where
  id : BitVec 32
  va : Word
  access : BitVec 3
  requester : Byte
  space : BitVec 8
  flow : BitVec 32
  core : Option CoreId
  postedAt : Nat
  deriving DecidableEq, Repr

/-! ### Host, firmware, integrity -/

/-- A ring of the host: page requests, host events, recovery records (R473, R476). -/
structure Ring where
  base : Option Nat
  log2n : Nat
  producer : Nat
  consumer : Nat
  /-- seq of the last record (rings 1 and 2) -/
  seq : BitVec 32
  /-- records that wait in firmware -/
  waiting : List (List Byte)
  deriving DecidableEq, Repr

/-- The mailbox (R473, R475). -/
structure Mailbox where
  command : List Byte
  busy : Bool
  overrun : Bool
  result : Byte
  deriving DecidableEq, Repr

/-- An invalidation in progress: space, first address, end (R437). -/
structure Invalidation where
  space : BitVec 8
  lo : Nat
  hi : Nat
  deriving DecidableEq, Repr

/-- Events of severity 0 that one unit has not yet reported (R463). -/
structure Coalesced where
  kind : Byte
  where_ : Word
  core : BitVec 16
  space : BitVec 16
  flow : BitVec 32
  count : Nat
  since : Nat
  deriving DecidableEq, Repr

/-- The act of an agenda entry: the pump of a core, or an event. -/
inductive Act where
  | pump (c : CoreId)
  | event (i : Instr)
  deriving DecidableEq, Repr

/-- An agenda entry (log 1): which agent moves next, how many cycles later, what viewers do not see yet (log 7), how many
cycles of a pump's turn wait for a register (R98; log 2), and what cores cache before it (log 9). -/
structure Turn where
  dt : Nat
  act : Act
  lag : List Lag := []
  lock : Nat := 0
  fills : List Fill := []
  deriving DecidableEq, Repr

/-- A whole package, with what the host and firmware hold of it. -/
structure State where
  part : Part
  /-- cycles since power-up (R9, R28) -/
  now : Nat
  /-- the schedule, the model's own (log 1): what moves next, and else the pump of `cur` -/
  agenda : List Turn
  cur : CoreId
  /-- the model's own counter of free values (log 2) -/
  tick : Nat
  /-- the lag of the present turn, the writes not yet seen by some viewer, and the count of writes (log 7) -/
  lag : List Lag
  stale : List Stale
  serial : Nat
  /-- the writes since the oldest one not seen by some viewer, and the releases that carry such writes (log 7) -/
  recent : List Event
  releases : List Release
  cores : Vector Core 256
  weirs : Vector Weir 64
  mem : Memory
  /-- metadata codes by line number, those that are not 0, rising (R339) -/
  codes : List (Nat × BitVec 4)
  /-- lines whose metadata holds an uncorrectable error not yet met (R345, log 11) -/
  badMeta : List Nat
  /-- lines whose HBM data holds an uncorrectable error not yet met (R346, R451, log 11) -/
  badData : List Nat
  /-- lines with an on-die storage error, in L1 or L2, not yet met (R461, log 11) -/
  badCache : List Nat
  /-- lines an `nma` has made raw, until a whole-line write (R344) -/
  rawByNma : List Nat
  pending : List Pending
  nmas : List NmaOpPending
  sluice : Vector (Option SluiceCtx) 8
  jobs : List SluiceJob
  folds : List Fold
  crossings : List Crossing
  /-- root tables of the address spaces (R428) -/
  spaces : List (BitVec 8 × Nat)
  queues : List Queue
  flows : List Flow
  nextFlow : BitVec 32
  nextOrder : Nat
  houses : Vector House 4
  /-- unusable cores, and usable compute sites where fewer than 64 (R407) -/
  badCores : List CoreId
  siteCount : List (CoreId × Nat)
  requests : List PageReq
  nextRequest : BitVec 32
  rings : Vector Ring 3
  mailbox : Mailbox
  /-- what the last host read returned, as bytes -/
  hostRead : List Byte
  stage : Byte
  bootErr : Byte
  attest : Vector (List Byte) 8
  /-- package number, pod id and Levee port mask of the pod (R29, R475) -/
  pkg : BitVec 6
  pod : Option (Word × BitVec 16)
  linksDown : List (BitVec 16)
  invalidation : Option Invalidation
  coalesced : List Coalesced
  powerCap : Nat
  throttled : Bool
  shut : Bool
  deriving DecidableEq, Repr

/-- How a run can stop with a fault of the model. -/
inductive Fault where
  /-- Raised by the host's access of physical memory outside the package and outside host memory (R471), which the
  manual gives no effect. Safe: the machine stops where the hardware may go on. -/
  | noSuchAddress (pa : Nat)
  deriving DecidableEq, Repr

/-- How a run can stop for want of a meaning. -/
inductive Refusal where
  /-- Raised by the dispatch of an instruction that has no meaning yet. Safe: nothing is claimed of it. -/
  | notModelled (mnemonic : String)
  deriving DecidableEq, Repr

/-! ### Reset -/

/-- A barrier count at reset (R442). -/
def Barrier.reset : Barrier := { arrivals := 0, waits := 0, abandoned := false }

/-- No cause: `s.tcause` and `s.tval` read zero (R96). -/
def Cause.none : Cause := { code := 0, fab := false, region := 0, tval := 0 }

/-- An atom register at reset: tag O32, value zero (R94). -/
def QReg.reset : QReg := { val := 0, tag := .o32 }

/-- A pump at reset. The system, atom and handle registers read as R94 to R96 say; g, k, `last`, saved-last and the
pc read zero (DESIGN CHOICE, log 4). -/
def Pump.reset : Pump :=
  { g := Vector.replicate 64 0
    k := Vector.replicate 8 0
    last := 0
    savedLast := 0
    pc := 0
    q := Vector.replicate 16 QReg.reset
    ht := false
    pht := false
    ypend := false
    tvec := 0
    tcause := Cause.none
    epc := 0
    fflags := 0
    seed := 0
    stallWhy := 0
    stallCycles := 0
    flow := 0
    prio := 0
    run := .idle
    block := none
    blockedAt := 0
    page := none
    asyncs := []
    events := []
    held := []
    load := none
    bars := Vector.replicate 6 Barrier.reset
    handles := Vector.replicate 64 none
    nmaBatch := 0
    fatalBy := none
    issuedAt := 0
    loads := [] }

/-- A stall counter at `kick` (R395). -/
def Stall.reset : Stall := { cause := 0, ports := 0, since := 0, fired := 0 }

/-- An operator without state. -/
def OpState.reset : OpState :=
  { store := [], stamps := [], vec := [], held := [], buf := [], buf2 := [], arrivals := Vector.replicate 4 [], slots := [], bitsBad := [],
    n := Vector.replicate 6 0, bits := [], latch := none, range := (0, 0) }

/-- A compute site at `kick`. -/
def Site.reset : Site :=
  { inReg := Vector.replicate 4 none, outq := Vector.replicate 4 [], outSeq := Vector.replicate 4 0,
    op := OpState.reset, pendFlags := 0, poisoned := false,
    commits := Vector.replicate 4 0, gate := .power, firedAt := 0, stall := Stall.reset }

/-- A memory site at `kick`. -/
def MemSite.reset : MemSite :=
  { inReg := none, outq := [], hold := [], pos := 0, passes := 0, roundData := 0, credit := 0, finished := false,
    pendFlags := 0, commits := 0, stall := Stall.reset }

/-- An AG site that runs nothing. -/
def AgSite.reset : AgSite :=
  { use := .free, inReg := none, outq := [], reads := [], hold := [], pos := 0, sub := 0, pendIdx := [],
    part := [], roundData := 0, credit := 0, ended := false, finished := false, pendFlags := 0, dropped := [], sent := [],
    taken := 0, again := 0, page := none, commits := 0, stall := Stall.reset }

/-- A region at flow entry: no plane selected, idle (R320). -/
def Region.reset : Region :=
  { sel := none, run := false, stray := false, armed := none, pred := false, flags := 0, seed := 0, movedAt := 0,
    pausedAt := none, pauses := [], aborts := 0, abortAt := 0, stopping := none, frozen := false, page := none, due := none,
    switches := Vector.replicate 64 Stall.reset, agents := [], fault := none }

/-- A plane without frames. -/
def Plane.reset : Plane := { frames := [], offset := 0, absent := [], page := none, bad := false }

/-- A polder at flow entry. -/
def Fabric.reset : Fabric :=
  { planes := Vector.replicate 4 Plane.reset
    regions := Vector.replicate 8 Region.reset
    sites := Vector.replicate 64 Site.reset
    links := Vector.replicate 256 []
    mems := Vector.replicate 8 MemSite.reset
    ags := Vector.replicate 8 AgSite.reset
    binds := []
    commits := 0
    rounds := 0
    cut := none }

/-- No launch. -/
def Launch.reset : Launch :=
  { space := 0, queue := 0, image := 0, codeLo := 0, codeHi := 0, tables := 0, tableCount := 0, rank := 0, group := [],
    diag := 0, window := 65536, spill := 0, spillWords := 0, sites := 64, cluster := none, slot := 0, ring := none,
    batches := false }

/-- A core at reset (R442, R478; log 6). -/
def Core.reset : Core :=
  { pump := Pump.reset, fab := Fabric.reset, launch := Launch.reset, cistern := [], full := [], setBy := [], bad := [], latent := [],
    deque := [], spilled := 0, pushes := [], dequeBad := [], flaws := [], tlb := [], walks := [], resetAt := 0, activeAt := 0 }

/-- A Weir at flow entry: both contexts empty, context 0 active (R217). -/
def Weir.reset : Weir :=
  { ctx := Vector.replicate 2 none, active := 0, swap := false, release := false, openVec := [], received := false, ended := false,
    inReg := Vector.replicate 4 none, outq := [], outSeq := 0, pendFlags := 0, flags := 0, poisoned := false,
    commits := 0, cut := none, stall := Stall.reset }

/-- A pumphouse with every slot free. -/
def House.reset : House :=
  { slots := Vector.replicate 16 none, lastAt := Vector.replicate 4 15, lastMapped := 255 }

/-- A ring that has not been placed (R476). -/
def Ring.reset : Ring := { base := none, log2n := 0, producer := 0, consumer := 0, seq := 0, waiting := [] }

/-- The mailbox at reset. -/
def Mailbox.reset : Mailbox :=
  { command := List.replicate 64 0, busy := false, overrun := false, result := 0 }

/-- The package at device reset (R478, R479): every unit cleared, firmware, queues, rings, pods and address spaces
absent, attestation registers zero, boot stage 0. The part is JX3-4 (DESIGN CHOICE, log 14). -/
def State.reset : State :=
  { part := .jx34
    now := 0
    agenda := []
    cur := 0
    tick := 0
    lag := []
    stale := []
    serial := 0
    recent := []
    releases := []
    cores := Vector.replicate 256 Core.reset
    weirs := Vector.replicate 64 Weir.reset
    mem := []
    codes := []
    badMeta := []
    badData := []
    badCache := []
    rawByNma := []
    pending := []
    nmas := []
    sluice := Vector.replicate 8 none
    jobs := []
    folds := []
    crossings := []
    spaces := []
    queues := []
    flows := []
    nextFlow := 1
    nextOrder := 0
    houses := Vector.replicate 4 House.reset
    badCores := []
    siteCount := []
    requests := []
    nextRequest := 1
    rings := Vector.replicate 3 Ring.reset
    mailbox := Mailbox.reset
    hostRead := []
    stage := 0
    bootErr := 0
    attest := Vector.replicate 8 (List.replicate 48 0)
    pkg := 0
    pod := none
    linksDown := []
    invalidation := none
    coalesced := []
    powerCap := Part.watts .jx34
    throttled := false
    shut := false }

end Sys2Proof.Machine
end

