-- ==== Sys2Proof/Machine/Ops.lean ====
section
/-! DEFINITION. The named operations of the machine: bytes, registers, traps and the return from one, physical memory
with its metadata, translation and page requests, cistern and windows. -/

namespace Sys2Proof.Machine

open Sys2Proof

/-- What a meaning answers. -/
abbrev Out := Host.Outcome State Fault Refusal

/-! ### Bytes and vectors -/

/-- The number that bytes hold, the lowest address least significant (R8). -/
def leNat : List Byte → Nat
  | [] => 0
  | b :: r => b.toNat + 256 * leNat r

/-- The low `n` bytes of a number, least significant first (R8). -/
def toLE : Nat → Nat → List Byte
  | 0, _ => []
  | n + 1, v => BitVec.ofNat 8 (v % 256) :: toLE n (v / 256)

/-- A 64-bit word from its bytes. -/
def leWord (bs : List Byte) : Word := BitVec.ofNat 64 (leNat bs)

/-- A frame from its 32 bytes. -/
def leFrame (bs : List Byte) : Frame := BitVec.ofNat 256 (leNat bs)

/-- The field of `n` bytes at offset `o` of a structure in memory. -/
def fieldAt (bs : List Byte) (o n : Nat) : Nat := leNat ((bs.drop o).take n)

/-- Bits `[lo + n - 1 : lo]` of a frame. -/
def bits (f : Frame) (lo n : Nat) : Nat := (f.toNat >>> lo) % 2 ^ n

/-- `n` bits read as two's complement. -/
def signed (n v : Nat) : Int := if v < 2 ^ (n - 1) then v else (v : Int) - 2 ^ n

/-- A list cut into parts of `n`, the last one shorter where it does not divide. -/
def chunks {α : Type} (n : Nat) (v : List α) : List (List α) :=
  (List.range ((v.length + n - 1) / n)).map fun i => (v.drop (n * i)).take n

/-- A vector changed at one index. -/
def setAt {α : Type} {n : Nat} (v : Vector α n) (i : Fin n) (a : α) : Vector α n := v.set i.val a i.isLt

/-- A vector mapped, through its list. -/
def mapVec {α β : Type} {n : Nat} (f : α → β) (v : Vector α n) : Vector β n :=
  ⟨(v.toList.map f).toArray, by simp⟩

/-- Insert into a rising list without repeats. -/
def insertUp : List Nat → Nat → List Nat
  | [], a => [a]
  | b :: r, a => if a < b then a :: b :: r else if a = b then b :: r else b :: insertUp r a

/-- All indices below `n`, rising. -/
def fins (n : Nat) : List (Fin n) := List.finRange n

/-- Mask of a virtual address: 56 bits (R114, R429). -/
def va56 (a : Word) : Word := a &&& 0x00FF_FFFF_FFFF_FFFF

/-- SEXT(imm32, 32) of R103. -/
def sext32 (imm : BitVec 32) : Word := imm.signExtend 64

/-- ZEXT(imm32, 32) of R103. -/
def zext32 (imm : BitVec 32) : Word := imm.setWidth 64

/-! ### Cores and registers -/

/-- The core of a number. -/
def State.core (s : State) (c : CoreId) : Core := s.cores[c]

/-- Replace one core. -/
def State.setCore (s : State) (c : CoreId) (k : Core) : State := { s with cores := setAt s.cores c k }

/-- Change one core. -/
def State.modCore (s : State) (c : CoreId) (f : Core → Core) : State := s.setCore c (f (s.core c))

/-- The pump of a core. -/
def State.pump (s : State) (c : CoreId) : Pump := (s.core c).pump

/-- Change the pump of a core. -/
def State.modPump (s : State) (c : CoreId) (f : Pump → Pump) : State :=
  s.modCore c fun k => { k with pump := f k.pump }

/-- The launch state of a core. -/
def State.launch (s : State) (c : CoreId) : Launch := (s.core c).launch

/-- Change the polder of a core. -/
def State.modFab (s : State) (c : CoreId) (f : Fabric → Fabric) : State :=
  s.modCore c fun k => { k with fab := f k.fab }

/-- The value a specifier reads: g0 reads zero (R53, R91). -/
def Pump.read (p : Pump) : Reg → Word
  | .g i => if i = 0 then 0 else p.g[i.toFin]
  | .k i => p.k[i.toFin]
  | .last => p.last

/-- Write a register: a write of g0 is discarded (R53, R91). -/
def Pump.write (p : Pump) (r : Reg) (v : Word) : Pump :=
  match r with
  | .g i => if i = 0 then p else { p with g := setAt p.g i.toFin v }
  | .k i => { p with k := setAt p.k i.toFin v }
  | .last => { p with last := v }

/-- Write a result through a specifier: the destination and `last` (R92). -/
def Pump.result (p : Pump) (d : Reg) (v : Word) : Pump := { p.write d v with last := v }

/-- The link register lk is g62 (R91). -/
def linkReg : Reg := .g 62

/-- Go on at the next instruction. -/
def Pump.advance (p : Pump) : Pump := { p with pc := p.pc + 8 }

/-- A meaning that only writes a result through `d` and goes on. -/
def State.giveResult (s : State) (c : CoreId) (d : Reg) (v : Word) : State :=
  s.modPump c fun p => (p.result d v).advance

/-- A meaning that only goes on. -/
def State.goOn (s : State) (c : CoreId) : State := s.modPump c Pump.advance

/-- `s.status` as a word (R96). -/
def Pump.status (p : Pump) : Word :=
  (0#61 ++ BitVec.ofBool p.ypend ++ BitVec.ofBool p.pht ++ BitVec.ofBool p.ht : BitVec 64)

/-- `s.tcause` as a word (R96). -/
def Cause.word (c : Cause) : Word :=
  (0#52 ++ BitVec.ofBool c.fab ++ c.region ++ c.code : BitVec 64)

/-- `s.cycle`: cycles of the core since its reset, which came a free number of cycles before that of the package in the
model (R28, R96; log 89). -/
def State.cycleOf (s : State) (c : CoreId) : Word := BitVec.ofNat 64 (s.now - (s.core c).resetAt + Config.resetSkew c.val)

/-- `s.core`: package number and package core number (R96). -/
def State.coreWord (s : State) (c : CoreId) : Word :=
  (0#50 ++ s.pkg ++ BitVec.ofNat 8 c.val : BitVec 64)

/-- `s.flow` as a word (R96). -/
def Pump.flowWord (p : Pump) : Word := (0#30 ++ p.prio ++ p.flow : BitVec 64)

/-- `s.stall` as a word (R96). -/
def Pump.stallWord (p : Pump) : Word := (0#24 ++ p.stallWhy ++ p.stallCycles : BitVec 64)

/-- Cycles added to a saturating 32-bit counter (R96, R395). -/
def satAdd (a : BitVec 32) (n : Nat) : BitVec 32 := BitVec.ofNat 32 (min (a.toNat + n) 0xFFFF_FFFF)

/-! ### Traps -/

/-- A storage error that a read meets for the first time (R346, R451, R461): a cistern word, a line in L1 or L2, the HBM
data or the metadata of a line, a word of a deque. -/
inductive Damage where
  | word (c : CoreId) (w : Nat)
  | cache (l : Nat)
  | line (l : Nat)
  | metadata (l : Nat)
  | deque (c : CoreId) (n : Nat)
  deriving DecidableEq, Repr

/-- Why an instruction does not complete now. -/
inductive Stop where
  /-- a trap; `after` when `s.epc` is the next instruction (R117) -/
  | trap (c : Cause) (after : Bool)
  /-- a page without an entry: address and access bits of R435 (R434) -/
  | page (va : Word) (access : BitVec 3)
  /-- a storage error met, and the fault it raises (R346, R461) -/
  | damage (d : Damage) (code : Code) (ea : Word)
  /-- a wait, with the cause it records in `s.stall`, `none` where why stays as it was (R96) -/
  | wait (why : Option (BitVec 8))
  deriving DecidableEq, Repr

/-- A precise fault of a pump instruction (R117). -/
def fault (code : Code) (tval : Word) : Stop :=
  .trap { code := code, fab := false, region := 0, tval := tval } false

/-- The pump cannot take a trap (R121). -/
def Pump.refuses (p : Pump) : Bool := p.ht || p.tvec = 0

/-- TAKING A TRAP (R117, R121): `s.tcause`, `s.tval`, `s.epc` (56 bits, log 18), saved-last, the status and the pc.
While ht = 1, or while `s.tvec` is 0, the pump stops for a fatal end and keeps the refused trap (R121). -/
def Pump.takeTrap (p : Pump) (cause : Cause) (epc : Word) : Pump :=
  if p.refuses then
    { p with run := .fatal, fatalBy := some (cause, va56 epc), block := none, page := none }
  else
    { p with
      tcause := cause
      epc := va56 epc
      savedLast := p.last
      pht := p.ht
      ht := true
      pc := p.tvec
      block := none
      page := none }

/-- THE RETURN FROM A TRAP (R119), its two checks made. -/
def Pump.returnFromTrap (p : Pump) : Pump :=
  { p with last := p.savedLast, ht := p.pht, pht := false, pc := p.epc }

/-- Add to `s.stall` the cycles since the pump blocked, and unblock it (R96). -/
def Pump.unblock (p : Pump) (now : Nat) : Pump :=
  if p.block.isSome || p.page.isSome then
    { p with stallCycles := satAdd p.stallCycles (now - p.blockedAt), block := none, page := none }
  else p

/-- The flow that a core serves. -/
def State.flowOf (s : State) (c : CoreId) : Option Flow :=
  s.flows.find? (·.num = (s.pump c).flow)

/-- A core of a group that ends fatally: its pump stops and its regions freeze (R446). -/
def Core.haltAll (k : Core) : Core :=
  { k with
    pump := if k.pump.run = .running || k.pump.run = .frozen then
        { k.pump with run := .frozen, ypend := false, block := none, page := none } else k.pump
    fab := { k.fab with regions := mapVec (fun x => { x with frozen := true }) k.fab.regions } }

/-- Some cores of a group that ends fatally stop. -/
def State.haltCores (s : State) (cs : List CoreId) : State := cs.foldl (fun s d => s.modCore d Core.haltAll) s

/-- With a pump that has stopped for a fatal end, every pump and region of its group stops (R446). -/
def State.haltGroup (s : State) (c : CoreId) : State :=
  match s.flowOf c with
  | some f => s.haltCores f.cores
  | none => s

/-- Take a trap on core `c`; one that is refused stops its group (R121, R446). -/
def State.takeTrap (s : State) (c : CoreId) (cause : Cause) (epc : Word) : State :=
  let t := s.modPump c fun p => (p.unblock s.now).takeTrap cause epc
  if (s.pump c).refuses then t.haltGroup c else t

/-- The pending asynchronous trap that is taken first: the lowest code, the oldest of it (R120). -/
def firstCause : List Cause → Option Cause
  | [] => none
  | x :: r => match firstCause r with
    | none => some x
    | some y => if y.code.ult x.code then some y else some x

/-- A list without the first entry equal to `x`. -/
def dropFirst {α : Type} [DecidableEq α] (x : α) : List α → List α
  | [] => []
  | y :: r => if y = x then r else y :: dropFirst x r

/-- TAKING AN ASYNCHRONOUS TRAP (R120): the first of those that are pending, at an instruction. -/
def State.takeAsync (s : State) (c : CoreId) (cause : Cause) (epc : Word) : State :=
  (s.modPump c fun q => { q with asyncs := dropFirst cause q.asyncs }).takeTrap c cause epc

/-- A fault of the instruction at `epc`: an asynchronous trap that is pending at this boundary is taken first, and the
instruction is issued again after it (R449). -/
def State.takeFault (s : State) (c : CoreId) (cause : Cause) (epc : Word) : State :=
  match firstCause (s.pump c).asyncs with
  | some x => if (s.pump c).ht then s.takeTrap c cause epc else s.takeAsync c x epc
  | none => s.takeTrap c cause epc

/-- Add a pending asynchronous trap to a pump (R120). -/
def State.postAsync (s : State) (c : CoreId) (cause : Cause) : State :=
  s.modPump c fun p => { p with asyncs := p.asyncs ++ [cause] }

/-! ### Physical memory -/

/-- The byte at an address. -/
def Memory.get : Memory → Nat → Byte
  | [], _ => Memory.blank
  | c :: r, a => if c.1 = a then c.2 else Memory.get r a

/-- Write one byte, keeping the canonical form. -/
def Memory.set : Memory → Nat → Byte → Memory
  | [], a, b => if b = Memory.blank then [] else [(a, b)]
  | c :: r, a, b =>
    if a < c.1 then (if b = Memory.blank then c :: r else (a, b) :: c :: r)
    else if a = c.1 then (if b = Memory.blank then r else (a, b) :: r)
    else c :: Memory.set r a b

/-- The `n` bytes from an address. -/
def Memory.read (m : Memory) (a : Nat) : Nat → List Byte
  | 0 => []
  | n + 1 => m.get a :: Memory.read m (a + 1) n

/-- Write bytes from an address. -/
def Memory.write (m : Memory) (a : Nat) : List Byte → Memory
  | [] => m
  | b :: r => Memory.write (m.set a b) (a + 1) r

/-- The number of a 256-byte line (R338). -/
def lineOf (pa : Nat) : Nat := pa / 256

/-- The metadata code of a line: 0 unless listed (R339). -/
def codeOf : List (Nat × BitVec 4) → Nat → BitVec 4
  | [], _ => 0
  | c :: r, l => if c.1 = l then c.2 else codeOf r l

/-- Set the metadata code of a line, rising and without zeros. -/
def setCode : List (Nat × BitVec 4) → Nat → BitVec 4 → List (Nat × BitVec 4)
  | [], l, k => if k = 0 then [] else [(l, k)]
  | c :: r, l, k =>
    if l < c.1 then (if k = 0 then c :: r else (l, k) :: c :: r)
    else if l = c.1 then (if k = 0 then r else (l, k) :: r)
    else c :: setCode r l k

/-- Poison (R339). -/
def poisonCode : BitVec 4 := 0xF

/-- The code of a line with `nz` bytes that are not zero, or of a line written raw (R339, R343). -/
def lineCode (raw : Bool) (nz : Nat) : BitVec 4 :=
  if raw then 8 else if nz = 0 then 0 else if nz ≤ 192 then BitVec.ofNat 4 (1 + (nz + 31) / 32) else 8

/-- Bytes of a line that are not zero. -/
def Memory.nonZero (m : Memory) (line : Nat) : Nat :=
  (m.read (line * 256) 256).countP (· ≠ 0)

/-- Codes 0x1 and 0x9 to 0xE count as an uncorrectable metadata error (R339). -/
def codeBroken (k : BitVec 4) : Bool := k = 1 || (9 ≤ k && k ≠ poisonCode)

/-- A read of the line meets poison, or an uncorrectable metadata error, which first makes it poison (R346). -/
def State.linePoisoned (s : State) (line : Nat) : Bool :=
  let k := codeOf s.codes line
  k = poisonCode || codeBroken k || s.badMeta.contains line || s.badData.contains line || s.badCache.contains line

/-- The kind of recovery record that the error of a line makes when it is met (R462), 0 for a line that is poisoned already. -/
def State.lineError (s : State) (line : Nat) : Byte :=
  let k := codeOf s.codes line
  if k = poisonCode then 0
  else if codeBroken k || s.badMeta.contains line then 1
  else if s.badData.contains line then 2
  else if s.badCache.contains line then 3
  else 0

/-- A line is poisoned: its error has been met (R345, R346, R461). -/
def State.poisonLine (s : State) (line : Nat) : State :=
  { s with
    codes := setCode s.codes line poisonCode
    badMeta := s.badMeta.filter (· ≠ line)
    badData := s.badData.filter (· ≠ line)
    badCache := s.badCache.filter (· ≠ line) }

/-! ### What a viewer has not seen yet (R262 to R264, R271, R274, R485; log 7) -/

/-- Two byte ranges overlap. -/
def overlaps (a n b m : Nat) : Bool := a < b + m && b < a + n

/-- Two cores lie in one instance of a scope (R16, R275); a pod is one package here (log 13). -/
def sameInstance (scope : Scope) (c d : CoreId) : Bool :=
  match scope with
  | .lane => c = d
  | .core => c = d
  | .quad => c.val / 4 = d.val / 4
  | .die => c.val / 64 = d.val / 64
  | .pkg => true
  | .pod => true

/-- Two agents, by their cores, lie in one instance of a scope: the pumphouses and the host in those of the package (R275). -/
def sameAgents (scope : Scope) (x y : Option CoreId) : Bool :=
  match x, y with
  | some c, some d => sameInstance scope c d
  | _, _ => scope = .pkg || scope = .pod

/-- The core of an agent. -/
def Agent.core? : Agent → Option CoreId
  | .pump c => some c
  | .ag c _ => some c
  | .site c _ => some c
  | .near c => some c
  | .engine => none
  | .house => none
  | .host => none

/-- An event touches a range of a bank. -/
def Event.touches (e : Event) (b : Bank) (lo n : Nat) : Bool := e.bank = b && overlaps e.lo e.n lo n

/-- An entry touches a range of a bank. -/
def Stale.touches (e : Stale) (b : Bank) (lo n : Nat) : Bool := e.bank = b && overlaps e.lo e.old.length lo n

/-- The entries, the newest first, that a test selects, without those that one seen already follows in coherence order:
a viewer that sees a write sees the older ones of its bytes (R261, R262). -/
def keepStale (sel : Stale → Bool) : List Stale → List Stale → List Stale
  | [], _ => []
  | e :: r, seen =>
    if sel e && !(seen.any fun x => x.viewer = e.viewer && e.touches x.bank x.lo x.old.length) then e :: keepStale sel r seen
    else keepStale sel r (e :: seen)

/-- Releases that carry no entry, and writes older than every entry, are forgotten: they order nothing. -/
def State.tidy (s : State) : State :=
  { s with
    recent := s.recent.filter fun w => s.stale.any fun e => e.serial ≤ w.serial
    releases := s.releases.filter fun r => s.stale.any fun e => e.via.contains r.id }

/-- Keep the entries that a test selects. -/
def State.keepLag (s : State) (sel : Stale → Bool) : State := { s with stale := keepStale sel s.stale [] }.tidy

/-- A lag names an entry. -/
def Lag.names (l : Lag) (e : Stale) : Bool := l.viewer = e.viewer && e.touches l.bank l.lo (l.hi - l.lo)

/-- The bytes of a bank. -/
def State.bankBytes (s : State) (b : Bank) (lo n : Nat) : List Byte :=
  match b with
  | .memory => s.mem.read lo n
  | .cistern c => (s.core c).cistern.read lo n

/-- The viewer's core has copied the line of an address into a read bind (R274). -/
def State.copiedLine (s : State) (v : Agent) (pa : Nat) : Bool :=
  match v.core? with
  | some c => (s.core c).fab.binds.any fun b => !b.write && b.copied.contains (lineOf pa)
  | none => false

/-- A viewer may go on without a write. A read that issues after a write of memory has been performed returns it (R485), so
only the loads of a pump, which may issue early (R264), the reads of a record (R400) and a copied line (R274) can; the
order of accesses to a cistern is left open (R271). -/
def State.mayLag (s : State) (v : Agent) (b : Bank) (lo : Nat) : Bool :=
  match b, v with
  | .memory, .pump _ => true
  | .memory, .house => true
  | .memory, _ => s.copiedLine v lo
  | .cistern _, .house => false
  | .cistern _, .host => false
  | .cistern _, _ => true

/-- The parts of a range within aligned 8-byte words (R261). -/
def wordParts (lo n : Nat) : List (Nat × Nat) :=
  if n = 0 then []
  else (List.range ((lo + n - 1) / 8 - lo / 8 + 1)).map fun i =>
    let a := max lo (8 * (lo / 8 + i))
    (a, min (lo + n) (8 * (lo / 8 + i) + 8) - a)

/-- A release after the write of an event: one that carries the write counts it; at a word it has written, an `amo`
belongs to its release sequence and another write does not (R277). -/
def Release.written (r : Release) (e : Event) (rels : List Nat) (rmw : Bool) : Release :=
  if rels.contains r.id then { r with writes := (e, true) :: r.writes }
  else if r.writes.any fun w => w.1.touches e.bank e.lo e.n then { r with writes := (e, rmw) :: r.writes }
  else r

/-- A write event takes place in a bank: the viewers that lag behind it keep the bytes as they were, the others see it.
An agent sees its own writes (R263); `bound` is the core whose write bind held the line, all of whose agents have seen the
write (R273). `rmw` says that an `amo` makes it, and `rels` are the releases it carries. -/
def State.noteWrite (s : State) (b : Bank) (lo n : Nat) (by_ : Agent) (rmw : Bool := false) (rels : List Nat := [])
    (bound : Option CoreId := none) : State :=
  let own (v : Agent) : Bool := v = by_ || (bound.isSome && v.core? = bound)
  let parts := (wordParts lo n).map fun w =>
    (w, ((s.lag.filter fun l => l.bank = b && overlaps l.lo (l.hi - l.lo) w.1 w.2 && !own l.viewer &&
      s.mayLag l.viewer b w.1).map (·.viewer)).dedup)
  let fresh := (parts.map fun q => q.2.map fun v =>
    { viewer := v, bank := b, lo := q.1.1, old := s.bankBytes b q.1.1 q.1.2, serial := s.serial, known := [(by_, s.serial)], via := [],
      copied := b = .memory && s.copiedLine v q.1.1 : Stale }).flatten
  let misses (e : Stale) : Bool := fresh.any fun x => x.viewer = e.viewer && x.touches e.bank e.lo e.old.length
  let w : Event := { bank := b, lo := lo, n := n, serial := s.serial }
  State.tidy { s with
    stale := fresh ++ keepStale (fun e => misses e || !e.touches b lo n) s.stale []
    recent := w :: s.recent
    releases := s.releases.map fun (r : Release) => r.written w rels rmw
    serial := s.serial + 1 }

/-- The byte that a viewer still sees at an address, where it has not seen the newest write: that of the oldest such
write. -/
def State.staleByte (s : State) (v : Agent) (b : Bank) (a : Nat) : Option Byte :=
  s.stale.reverse.findSome? fun e => if e.viewer = v && e.bank = b && e.lo ≤ a then e.old[a - e.lo]? else none

/-- A turn begins (log 7): an entry of the pump that moves, or of a site, a stream or a pumphouse in an event, stays
only where the turn's lag names it. -/
def State.beginLag (s : State) (pump : Option CoreId) (lag : List Lag) : State :=
  { s with lag := lag }.keepLag fun e =>
    let concerned : Bool := match e.viewer, pump with
      | .pump c, some d => c = d
      | .pump _, none => false
      | _, some _ => false
      | _, none => true
    !concerned || lag.any fun l => l.names e

/-- An agent has not yet seen a part, within a range, of write number `k`. -/
def State.misses (s : State) (v : Agent) (k : Nat) (b : Bank) (lo n : Nat) : Bool :=
  s.stale.any fun e => e.viewer = v && e.serial = k && e.touches b lo n

/-- Whether the value of a range that an agent sees comes from the release sequence of a release: the newest write there
that it has seen belongs to it (R277). -/
def State.inSequence (s : State) (v : Agent) (b : Bank) (lo n : Nat) (r : Release) : Bool :=
  ((r.writes.find? fun w => w.1.touches b lo n && !s.misses v w.1.serial b lo n).map (·.2)).getD false

/-- What happens before an agent's next accesses (R278): it sees the writes that a test selects, and its later releases
carry them. A value copied into a read bind stays (R274). -/
def State.learn (s : State) (v : Agent) (sel : Stale → Bool) : State :=
  let note (e : Stale) : Stale :=
    if sel e && !e.known.any (·.1 = v) then { e with known := (v, s.serial) :: e.known } else e
  { s with stale := s.stale.map note }.keepLag fun e => e.viewer ≠ v || e.copied || !sel e

/-- An agent knows the write of an entry, since before write number `k`. -/
def Stale.knownBy (e : Stale) (v : Agent) (k : Nat) : Bool := e.known.any fun q => q.1 = v && q.2 ≤ k

/-- What happens before an access of agent `u` before write number `k` happens before the next accesses of `v` (R267, R268). -/
def State.passOn (s : State) (u v : Agent) (k : Nat := s.serial) : State := s.learn v fun e => e.knownBy u k

/-- A read by an agent: it knows the writes of what it returns (R278, rule 3), and from what release sequences a plain load
of a pump has read (R279). -/
def State.noteRead (s : State) (v : Agent) (b : Bank) (lo n : Nat) : State :=
  let hit (e : Stale) : Bool := e.touches b lo n && e.viewer ≠ v && !s.misses v e.serial b e.lo e.old.length
  { s with
    stale := s.stale.map fun e => if hit e && !e.known.any (·.1 = v) then { e with known := (v, s.serial) :: e.known } else e
    releases := s.releases.map fun r => match v with
      | .pump c =>
        if !r.readers.contains c && s.inSequence v b lo n r then { r with readers := c :: r.readers } else r
      | _ => r }

/-- A release that carries the entries a test selects. -/
def State.addRelease (s : State) (core : Option CoreId) (scope : Scope) (engine : Bool) (kind : Carrier) (sel : Stale → Bool) :
    State :=
  if s.stale.any sel then
    { s with
      stale := s.stale.map fun e => if sel e then { e with via := s.serial :: e.via } else e
      releases := { id := s.serial, core := core, scope := scope, engine := engine, kind := kind, writes := [], readers := [] } ::
        s.releases
      serial := s.serial + 1 }
  else s

/-- A release of core `c` at a scope carries every write that its pump knows (R277, R278); `.lane` reaches no other agent
(R17). -/
def State.markRelease (s : State) (c : CoreId) (scope : Scope) (kind : Carrier) : State :=
  if scope = .lane then s else s.addRelease (some c) scope false kind fun e => e.known.any (·.1 = .pump c)

/-- The releases that the next store of core `c` carries: that of its own order, and those of the fences before it (R279). -/
def State.carries (s : State) (c : CoreId) : List Nat :=
  (s.releases.filter fun r => r.core = some c && (r.kind = .fence || r.kind = .word false)).map (·.id)

/-- Its release is the write of that store. -/
def State.issued (s : State) (c : CoreId) : State :=
  { s with releases := s.releases.map fun r =>
      if r.core = some c && r.kind = .word false then { r with kind := .word true } else r }

/-- The releases that an acquire of an agent synchronizes with, of those that a test selects (R277). -/
def State.acquireWhere (s : State) (v : Agent) (scope : Scope) (sel : Release → Bool) : State :=
  let ids := (s.releases.filter fun r =>
    sel r && sameAgents r.scope r.core v.core? && sameAgents scope v.core? r.core).map (·.id)
  s.learn v fun e => e.via.any ids.contains

/-- An acquire of an agent at a scope, by a read of a range (R277). -/
def State.acquireAt (s : State) (v : Agent) (scope : Scope) (b : Bank) (lo n : Nat) : State :=
  s.acquireWhere v scope (s.inSequence v b lo n)

/-- An acquire of the pump of core `c` at a word, where its access leads to one. -/
def State.acquire (s : State) (c : CoreId) (scope : Scope) (at_ : Option (Bank × Nat × Nat)) : State :=
  match at_ with
  | some (b, lo, n) => s.acquireAt (.pump c) scope b lo n
  | none => s

/-- What a fence of core `c` acquires (R279): the fences before it, and the releases that its plain loads have read from. -/
def State.acquireFence (s : State) (c : CoreId) (scope : Scope) : State :=
  s.acquireWhere (.pump c) scope fun r => r.kind = .fence || r.readers.contains c

/-- The pump of core `c` issues its next load from now on: it sees every write of memory that has been performed (R485). -/
def State.caughtUp (s : State) (c : CoreId) : State := s.keepLag fun e => e.viewer ≠ .pump c || e.copied || e.bank ≠ .memory

/-- An agent sees the newest write of a range. -/
def State.seeNewest (s : State) (v : Agent) (b : Bank) (lo n : Nat) : State :=
  s.keepLag fun e => e.viewer ≠ v || !e.touches b lo n

/-- An agent reads the newest write of a range, as an update does (R281, R331). -/
def State.readNewest (s : State) (v : Agent) (b : Bank) (lo n : Nat) : State := (s.seeNewest v b lo n).noteRead v b lo n

/-- Nothing is left of what the agents of a core have not seen or know, nor of its fences. -/
def State.clearLag (s : State) (c : CoreId) : State :=
  State.tidy { s with
    stale := (s.stale.filter fun e => e.viewer.core? ≠ some c && e.bank ≠ .cistern c).map fun e =>
      { e with known := e.known.filter fun q => q.1.core? ≠ some c }
    releases := s.releases.filter fun r => !(r.core = some c && r.kind = .fence) }

/-- Writes that the agents of a core know are seen by all, so that a flow that goes on on other cores loses no order
(R293; log 7). -/
def State.shareKnown (s : State) (c : CoreId) : State := s.keepLag fun e => !e.known.any fun q => q.1.core? = some c

/-- An access through a read bind of core `c` copies the line (R274). -/
def State.copyLine (s : State) (c : CoreId) (pa : Nat) : State :=
  s.modFab c fun f => { f with binds := f.binds.map fun b =>
    if !b.write && (b.ranges.any fun r => r.1 ≤ lineOf pa && lineOf pa < r.2.1) && !b.copied.contains (lineOf pa) then
      { b with copied := b.copied ++ [lineOf pa] } else b }

/-- The copies of read binds of core `c` that have gone are dropped (R274): its pump's loads go on as others do, and its
other agents read memory. -/
def State.dropCopies (s : State) (c : CoreId) : State :=
  let end_ (e : Stale) : Stale :=
    if e.copied && e.viewer.core? = some c && !s.copiedLine e.viewer e.lo then { e with copied := false } else e
  { s with stale := s.stale.map end_ }.keepLag fun e =>
    e.copied || e.viewer.core? ≠ some c || s.mayLag e.viewer e.bank e.lo

/-! ### Lines (R338 to R346) -/

/-- What a write makes of its line (R342, R345): a whole line replaces line, metadata and poison; a partial write
merges, or, on a line whose metadata is poison or uncorrectable, is dropped. Answers the state and, when it was dropped,
the line address and whether the line becomes poison now. Memory outside HBM has no metadata (R339). -/
def State.mergeLine (s : State) (pa : Nat) (bytes : List Byte) (raw : Bool) (by_ : Agent) (rmw : Bool := false)
    (rels : List Nat := []) (bound : Option CoreId := none) : State × Option (Nat × Byte) :=
  let line := lineOf pa
  let whole := pa % 256 = 0 && bytes.length = 256
  if !whole && s.linePoisoned line then (s.poisonLine line, some (line * 256, s.lineError line))
  else
    let s := s.noteWrite .memory pa bytes.length by_ rmw rels bound
    let m := s.mem.write pa bytes
    let code := if 2 ^ 46 ≤ pa then 0 else lineCode (raw || (!whole && s.rawByNma.contains line)) (m.nonZero line)
    ({ s with
       mem := m
       codes := setCode s.codes line code
       badMeta := s.badMeta.filter (· ≠ line)
       badData := s.badData.filter (· ≠ line)
       badCache := s.badCache.filter (· ≠ line)
       rawByNma := if whole then s.rawByNma.filter (· ≠ line) else s.rawByNma }, none)

/-! ### Records of firmware -/

/-- The 32 bytes of a recovery record (R462). -/
def recoveryBytes (seq : BitVec 32) (kind severity : Byte) (code : Code) (what : Word) (core space : BitVec 16)
    (flow : BitVec 32) (count : Nat) : List Byte :=
  toLE 4 seq.toNat ++ [kind, severity, code, 0] ++ toLE 8 what.toNat ++ toLE 2 core.toNat ++ toLE 2 space.toNat ++
    toLE 4 flow.toNat ++ toLE 4 count ++ toLE 4 0

/-- The record of a line that a partial write has found uncorrectable (R345) waits in its ring. -/
def State.queueDrop (s : State) (line : Nat) (kind : Byte) : State :=
  let r := s.rings[(2 : Fin 3)]
  let w := r.waiting ++ [recoveryBytes (r.seq + 1) kind 1 0x22 (BitVec.ofNat 64 line) 0xFFFF 0xFFFF 0 1]
  { s with rings := setAt s.rings 2 { r with seq := r.seq + 1, waiting := w } }

/-- The next record `w` of ring `j`, at base `b`, is written, and `ws` wait on (R476). A ring in HBM follows the rules of its
lines (R339, R342, R345). -/
def State.ringWrite (s : State) (j : Fin 3) (b : Nat) (w : List Byte) (ws : List (List Byte)) : State :=
  let r := s.rings[j]
  let q := s.mergeLine (b + 32 * (r.producer % 2 ^ r.log2n)) w false .engine
  let t := { q.1 with rings := setAt q.1.rings j { r with producer := r.producer + 1, waiting := ws } }
  match q.2 with
  | some (line, kind) => if kind = 0 then t else t.queueDrop line kind
  | none => t

/-- Write the records that wait in ring `j` while it has room (R476). -/
def drainRing : Nat → State → Fin 3 → State
  | 0, s, _ => s
  | n + 1, s, j =>
    let r := s.rings[j]
    match r.base, r.waiting with
    | some b, w :: ws =>
      if r.producer - r.consumer < 2 ^ r.log2n then drainRing n (s.ringWrite j b w ws) j else s
    | _, _ => s

/-- Let ring `j` write what it can. -/
def State.flushRing (s : State) (j : Fin 3) : State := drainRing s.rings[j].waiting.length s j

/-- A record of 32 bytes handed to ring `j` (R476). -/
def State.postRecord (s : State) (j : Fin 3) (bytes : List Byte) : State :=
  let r := s.rings[j]
  { s with rings := setAt s.rings j { r with waiting := r.waiting ++ [bytes] } }.flushRing j

/-- A host-event record (R476). -/
def State.hostEvent (s : State) (kind : Byte) (code : Code) (queue : BitVec 16) (flow : BitVec 32) (extra : Word) :
    State :=
  let r := s.rings[(1 : Fin 3)]
  let seq := r.seq + 1
  { s with rings := setAt s.rings 1 { r with seq := seq } }.postRecord 1
    (toLE 4 seq.toNat ++ [kind, code] ++ toLE 2 queue.toNat ++ toLE 4 flow.toNat ++ toLE 4 0 ++
      toLE 8 extra.toNat ++ toLE 8 0)

/-- A recovery record (R462). A full ring drops a record of severity 0 and raises the host notice of kind 4 (R463). -/
def State.recovery (s : State) (kind severity : Byte) (code : Code) (what : Word) (core space : BitVec 16)
    (flow : BitVec 32) (count : Nat) : State :=
  let r := s.rings[(2 : Fin 3)]
  let full := r.base.isSome && (2 ^ r.log2n ≤ r.producer - r.consumer)
  let s := if full then s.hostEvent 4 0 0xFFFF 0 0 else s
  if full && severity = 0 then s
  else
    let seq := r.seq + 1
    { s with rings := setAt s.rings 2 { r with seq := seq } }.postRecord 2
      (recoveryBytes seq kind severity code what core space flow count)

/-- An event of severity 0 of one unit (R463): a record at once, unless the unit wrote one less than 2^20 cycles ago. -/
def State.coalesce (s : State) (kind : Byte) (what : Word) (core space : BitVec 16) (flow : BitVec 32) : State :=
  match s.coalesced.findIdx? fun x => x.kind = kind && x.where_ = what && x.core = core with
  | none =>
    let x : Coalesced := { kind := kind, where_ := what, core := core, space := space, flow := flow, count := 0, since := s.now }
    { s with coalesced := s.coalesced ++ [x] }.recovery kind 0 0 what core space flow 1
  | some i =>
    let set (f : Coalesced → Coalesced) : State := { s with coalesced := s.coalesced.modify i f }
    match s.coalesced[i]? with
    | none => s
    | some x =>
      if 2 ^ 20 ≤ s.now - x.since then
        (set fun y => { y with count := 0, since := s.now }).recovery kind 0 0 what core space flow (x.count + 1)
      else set fun y => { y with count := y.count + 1 }

/-! ### Performing writes -/

/-- A write reaches its point of coherence (R342, R345, R346). Answers the state and the line address when it was
dropped. -/
def State.perform (s : State) (pa : Nat) (bytes : List Byte) (raw : Bool) (by_ : Agent) (rmw : Bool := false)
    (rels : List Nat := []) (bound : Option CoreId := none) : State × Option Nat :=
  match s.mergeLine pa bytes raw by_ rmw rels bound with
  | (t, none) => (t, none)
  | (t, some (line, kind)) =>
    (if kind = 0 then t else t.recovery kind 1 0x22 (BitVec.ofNat 64 line) 0xFFFF 0xFFFF 0 1, some line)

/-- The fault 0x22 of a dropped partial write of a pump (R345). -/
def poison22 (line : Nat) : Cause := { code := 0x22, fab := true, region := 0, tval := BitVec.ofNat 64 line }

/-- Perform one pending write; a dropped one tells its core with fault 0x22 (R345): a pump store as an asynchronous
trap of region 0, a bound line with its region. -/
def State.performPending (s : State) (w : Pending) : State :=
  match s.perform w.pa w.bytes w.raw w.by_ false w.rels (w.bind.map fun _ => w.core) with
  | (s', none) => s'
  | (s', some line) =>
    let cause := poison22 line
    let cause := match w.bind with
      | some r => { cause with region := BitVec.ofNat 3 r.val }
      | none => cause
    s'.postAsync w.core cause

/-- Perform those pending writes that a test selects, in order, and keep the others. -/
def performAll (sel : Pending → Bool) : List Pending → State → State
  | [], s => s
  | w :: r, s =>
    if sel w then performAll sel r (s.performPending w)
    else performAll sel r { s with pending := s.pending ++ [w] }

/-- Perform the pending writes that a test selects. -/
def State.performWhere (s : State) (sel : Pending → Bool) : State :=
  performAll sel s.pending { s with pending := [] }

/-- All earlier stores of a pump are performed: what a release or a fence of it waits for (R276, R279). -/
def State.release (s : State) (c : CoreId) : State :=
  s.performWhere fun w => w.core = c && w.bind.isNone

/-- A release of core `c` at a scope: its earlier stores are performed, and what its pump knows goes with the word it writes
next, or with another carrier (R276 to R278). -/
def State.releaseAt (s : State) (c : CoreId) (scope : Scope) (kind : Carrier := .word false) : State :=
  if scope = .lane then s else (s.release c).markRelease c scope kind

/-- A fence of core `c` (R279): an acquire and a release at its scope, after which the pump issues further loads (R485);
nothing at `.lane` (R17). -/
def State.fenceAt (s : State) (c : CoreId) (scope : Scope) : State :=
  if scope = .lane then s else ((s.acquireFence c scope).releaseAt c scope .fence).caughtUp c

/-- The byte of a write at an address. -/
def Pending.byteAt (w : Pending) (pa : Nat) : Option Byte :=
  if w.pa ≤ pa then w.bytes[pa - w.pa]? else none

/-- The byte that the pump of core `c` sees: its own writes in program order, else the newest performed value that it
does not lag behind (R262, R263, R273; log 7). -/
def State.viewByte (s : State) (c : CoreId) (pa : Nat) : Byte :=
  match (s.pending.reverse.filter (·.core = c)).findSome? (·.byteAt pa) with
  | some b => b
  | none => (s.staleByte (.pump c) .memory pa).getD (s.mem.get pa)

/-- The `n` bytes that core `c` sees from an address. -/
def State.view (s : State) (c : CoreId) (pa : Nat) : Nat → List Byte
  | 0 => []
  | n + 1 => s.viewByte c pa :: State.view s c (pa + 1) n

/-- A bind holds a line (R272). -/
def Bind.holds (b : Bind) (line : Nat) : Bool := b.ranges.any fun r => r.1 ≤ line && line < r.2.1

/-- The region of the write bind of core `c` that holds the line: 0 for the bind of a handle's stream (R272, R273,
R450). -/
def State.writeBind (s : State) (c : CoreId) (pa : Nat) : Option (Fin 8) :=
  ((s.core c).fab.binds.find? fun b => b.write && b.holds (lineOf pa)).map fun b =>
    match b.owner with
    | .frame r => r
    | .stream _ => 0
    | .free => 0

/-- The virtual address of a line that a write bind of core `c` holds (R438). -/
def State.boundVa (s : State) (c : CoreId) (pa : Nat) : Option Word :=
  (s.core c).fab.binds.findSome? fun b => if !b.write then none else
    (b.ranges.find? fun r => r.1 ≤ lineOf pa && lineOf pa < r.2.1).map fun r => r.2.2 + BitVec.ofNat 64 (pa - 256 * r.1)

/-- A store of core `c` is issued: it waits to be performed (R485), in a bound line until the writeback (R273). -/
def State.issueWrite (s : State) (c : CoreId) (pa : Nat) (bytes : List Byte) (raw : Bool := false) (va : Word := 0)
    (by_ : Agent := .pump c) : State :=
  { s with pending := s.pending ++
      [{ core := c, bind := s.writeBind c pa, pa := pa, va := (s.boundVa c pa).getD va, bytes := bytes, raw := raw, by_ := by_,
         rels := if by_ = .pump c then s.carries c else [] }] }

/-! ### Translation -/

/-- The package of a number can be reached: this one, or one of its pod (R29, R471; log 92). -/
def State.reachable (s : State) (pkg : Nat) : Bool :=
  pkg = s.pkg.toNat || match s.pod with
    | some (id, _) => Config.podHolds id pkg
    | none => false

/-- A physical address that a leaf or the host may name: host memory, or HBM of a package of the pod (R471; log 13, 92). -/
def State.physOk (s : State) (pa : Nat) : Bool :=
  pa < 2 ^ 47 && (2 ^ 46 ≤ pa || (s.reachable (pa / 2 ^ 40) && pa % 2 ^ 40 < s.part.hbmEnd))

/-- What a walk finds (R430): a page, no entry, or a malformed one. -/
inductive Walk where
  | page (e : TlbEntry)
  | absent
  | malformed
  deriving DecidableEq, Repr

/-- What an entry of a table says (R430). -/
inductive Entry where
  | end_ (w : Walk)
  | table (pa : Nat)
  deriving DecidableEq, Repr

/-- The address bits below the index of a level (R429). -/
def levelShift (lv : Nat) : Nat := if lv = 0 then 39 else if lv = 1 then 30 else if lv = 2 then 21 else 16

/-- The entry of an address in a table of level `lv` (R429, R430). -/
def State.tableEntry (s : State) (space : BitVec 8) (va table lv : Nat) : Entry :=
  let size := 2 ^ levelShift lv
  let count := if lv = 0 then 131072 else if lv = 3 then 32 else 512
  let e := leNat (s.mem.read (table + 8 * (va / size % count)) 8)
  let r := e / 4 % 2 = 1
  let w := e / 8 % 2 = 1
  let x := e / 16 % 2 = 1
  let addr := e / 256 % 2 ^ 44 * 256
  if e % 2 = 0 then .end_ .absent
  else if e / 32 % 8 ≠ 0 || e / 2 ^ 52 ≠ 0 then .end_ .malformed
  else if e / 2 % 2 = 1 then
    if lv = 0 || addr % size ≠ 0 || (w && !r) || !s.physOk addr || !s.physOk (addr + size - 1) then .end_ .malformed
    else .end_ (.page { space := space, vbase := va / size * size, size := size, pbase := addr, r := r, w := w, x := x })
  else
    let align := if lv = 2 then 256 else 4096
    if lv = 3 || r || w || x || addr % align ≠ 0 || !s.physOk addr then .end_ .malformed else .table addr

/-- The walk from a table at level `lv` (0 the root), the tables below it counted by `fuel` (R429, R430). -/
def State.walkFrom (s : State) (space : BitVec 8) (va : Nat) (table : Nat) : Nat → Nat → Walk
  | 0, _ => .malformed
  | fuel + 1, lv => match s.tableEntry space va table lv with
    | .end_ w => w
    | .table a => State.walkFrom s space va a fuel (lv + 1)

/-- The table that a walk reaches `n` levels below one of level `lv`. -/
def State.tableBelow (s : State) (space : BitVec 8) (va : Nat) (table : Nat) : Nat → Nat → Option Nat
  | 0, _ => some table
  | n + 1, lv => match s.tableEntry space va table lv with
    | .end_ _ => none
    | .table a => State.tableBelow s space va a n (lv + 1)

/-- The walk of a virtual address below 2^56 in a space (R428, R429). A space without a root maps nothing. -/
def State.walk (s : State) (space : BitVec 8) (va : Nat) : Walk :=
  match s.spaces.find? (·.1 = space) with
  | some (_, root) => s.walkFrom space va root 4 0
  | none => .absent

/-- The table nearest to an address' entry from which a walk of core `c` can go on, with its level, of levels below `n`: a
cached partial walk, else the root (R432). -/
def State.walkStart (s : State) (c : CoreId) (va n : Nat) : Option (Nat × Nat) :=
  let space := (s.launch c).space
  let held := (s.core c).walks.filter fun w => w.space = space && w.level < n && w.vbase ≤ va && va < w.vbase + w.size
  match held.foldl (fun (m : Option PartWalk) w => match m with
    | none => some w
    | some v => if v.level < w.level then some w else some v) none with
  | some w => some (w.table, w.level)
  | none => (s.spaces.find? (·.1 = space)).map fun q => (q.2, 0)

/-- The walk of core `c` (R429, R432). -/
def State.walkFor (s : State) (c : CoreId) (va : Nat) : Walk :=
  match s.walkStart c va 4 with
  | some (table, lv) => s.walkFrom (s.launch c).space va table (4 - lv) lv
  | none => .absent

/-- A core makes a walk and caches what it finds, in the place of what it held (R432; log 9). Absent entries are never
cached. -/
def State.fill (s : State) (f : Fill) : State :=
  let c := f.core
  let space := (s.launch c).space
  let va := f.va.toNat
  if 2 ^ 56 ≤ va || 3 < f.depth then s
  else if f.depth = 0 then
    let others := (s.core c).tlb.filter fun e => !(e.space = space && e.vbase ≤ va && va < e.vbase + e.size)
    let found := match s.walkFor c va with
      | .page e => [e]
      | _ => []
    s.modCore c fun k => { k with tlb := others ++ found }
  else
    let size := 2 ^ levelShift (f.depth - 1)
    let base := va / size * size
    let others := (s.core c).walks.filter fun w => !(w.space = space && w.level = f.depth && w.vbase = base)
    let found := ((s.walkStart c va f.depth).bind fun q => s.tableBelow space va q.1 (f.depth - q.2) q.2).map fun t =>
      ({ space := space, vbase := base, size := size, table := t, level := f.depth } : PartWalk)
    s.modCore c fun k => { k with walks := others ++ found.toList }

/-- The permissions of R431 an access needs. -/
structure Need where
  r : Bool
  w : Bool
  x : Bool
  deriving DecidableEq, Repr

/-- A read. -/
def Need.rd : Need := { r := true, w := false, x := false }

/-- A write. -/
def Need.wr : Need := { r := false, w := true, x := false }

/-- A read-modify-write. -/
def Need.rw : Need := { r := true, w := true, x := false }

/-- An instruction fetch. -/
def Need.fetch : Need := { r := false, w := false, x := true }

/-- The access bits of a page request (R435). -/
def Need.access (n : Need) : BitVec 3 := BitVec.ofBool n.x ++ BitVec.ofBool n.w ++ BitVec.ofBool n.r

/-- What translating an address finds. -/
inductive Trans where
  | at (pa : Nat)
  | absent
  | forbidden
  deriving DecidableEq, Repr

/-- A page that permits the access (R431). -/
def TlbEntry.allows (e : TlbEntry) (n : Need) : Bool := (!n.r || e.r) && (!n.w || e.w) && (!n.x || e.x)

/-- What a walk makes of an access (R431). -/
def Walk.trans (w : Walk) (va : Word) (n : Need) : Trans :=
  match w with
  | .page e => if e.allows n then .at (e.pbase + (va.toNat - e.vbase)) else .forbidden
  | .absent => .absent
  | .malformed => .forbidden

/-- Translation in a space without a cache: what the pumphouse and firmware use (R428 to R431). -/
def State.translateIn (s : State) (space : BitVec 8) (va : Word) (n : Need) : Trans :=
  if va.toNat ≥ 2 ^ 56 then .forbidden else (s.walk space va.toNat).trans va n

/-- Translation for core `c` (R429 to R433): the TLB first (log 9); the code section of the flow's image is
execute-only (R116, R295; log 8). -/
def State.translate (s : State) (c : CoreId) (va : Word) (n : Need) : Trans :=
  let l := s.launch c
  if va.toNat ≥ 2 ^ 56 then .forbidden
  else if (n.r || n.w) && l.codeLo ≤ va.toNat && va.toNat < l.codeHi then .forbidden
  else
    match (s.core c).tlb.find? (fun e => e.space = l.space && e.vbase ≤ va.toNat && va.toNat < e.vbase + e.size) with
    | some e => (Walk.page e).trans va n
    | none => (s.walkFor c va.toNat).trans va n

/-- Translation of a pump access, as the stop it raises (R295, R431, R434). -/
def State.paOf (s : State) (c : CoreId) (va : Word) (n : Need) : Except Stop Nat :=
  match s.translate c va n with
  | .at pa => .ok pa
  | .absent => .error (.page va n.access)
  | .forbidden => .error (fault 0x04 va)

/-- Post a page request unless one for the same page and space is outstanding; answers its id (R434, R435). Firmware
writes its record into ring 0 and tells the host with event kind 3 (R476). -/
def State.postPage (s : State) (va : Word) (access : BitVec 3) (requester : Byte) (space : BitVec 8) (flow : BitVec 32)
    (core : Option CoreId) : State × BitVec 32 :=
  let page : Word := va56 va &&& 0xFFFF_FFFF_FFFF_0000
  match s.requests.find? (fun r => r.va = page && r.space = space) with
  | some r => (s, r.id)
  | none =>
    let id := s.nextRequest
    let coreNum := match core with
      | some c => c.val
      | none => 0xFFFF
    let bytes := toLE 8 page.toNat ++ [access.setWidth 8, requester] ++ toLE 2 space.toNat ++ toLE 4 flow.toNat ++
      toLE 2 coreNum ++ toLE 2 0 ++ toLE 4 id.toNat ++ toLE 8 0
    let req : PageReq := { id := id, va := page, access := access, requester := requester, space := space, flow := flow,
                           core := core, postedAt := s.now }
    let s := { s with requests := s.requests ++ [req], nextRequest := id + 1 }
    ((s.postRecord 0 bytes).hostEvent 3 0 0xFFFF flow 0, id)

/-! ### How an instruction that does not complete leaves the pump -/

/-- Block the pump in an instruction (R96, R120): the cause is recorded, and the moment unless it waits already. -/
def Pump.blockIn (p : Pump) (now : Nat) (i : Instr) (why : Option (BitVec 8)) : Pump :=
  { p with
    block := some i
    blockedAt := if p.block.isSome then p.blockedAt else now
    stallWhy := why.getD p.stallWhy }

/-- A storage error is met (R346, R461): the word or line becomes poisoned and a recovery record of severity 1 is
written, whose core is that of an on-die unit (R462). -/
def State.meet (s : State) (core : BitVec 16) (space : BitVec 16) (flow : BitVec 32) (code : Code) : Damage → State
  | .word c w =>
    (s.modCore c fun k => { k with bad := insertUp k.bad w, latent := k.latent.filter (· ≠ w) }).recovery 3 1 code
      (BitVec.ofNat 64 (8 * w)) core space flow 1
  | .cache l => (s.poisonLine l).recovery 3 1 code (BitVec.ofNat 64 (256 * l)) core space flow 1
  | .line l => (s.poisonLine l).recovery 2 1 code (BitVec.ofNat 64 (256 * l)) 0xFFFF space flow 1
  | .metadata l => (s.poisonLine l).recovery 1 1 code (BitVec.ofNat 64 (256 * l)) 0xFFFF space flow 1
  | .deque c n =>
    (s.modCore c fun k => { k with dequeBad := k.dequeBad.map fun q => if q.1 = n then (n, true) else q }).recovery 3 1 code
      (BitVec.ofNat 64 (8 * n)) core space flow 1

/-- A storage error met by the pump of core `c`. -/
def State.meetAt (s : State) (c : CoreId) (code : Code) (d : Damage) : State :=
  s.meet (BitVec.ofNat 16 c.val) ((s.launch c).space.setWidth 16) (s.pump c).flow code d

/-- Who asks for the page an instruction waits on (R435): the deque engine for the core that owns the deque (R411), the
pumphouse for what a `launch` needs beside its record (R401, R414), else the pump. -/
def State.asker (s : State) (c : CoreId) (va : Word) : Instr → Byte × Option CoreId
  | .dqpush _ => (6, some c)
  | .dqpop _ => (6, some c)
  | .dqsteal _ a => (6, some (Fin.ofNat 256 ((s.pump c).read a).toNat))
  | .launch a => if (va - (s.pump c).read a).toNat < 256 then (0, some c) else (8, none)
  | _ => (0, some c)

/-- The pump of core `c` stops in instruction `i`: a trap, a page request, or a wait. -/
def State.stop (s : State) (c : CoreId) (i : Instr) : Stop → State
  | .trap cause true => s.takeTrap c cause ((s.pump c).pc + 8)
  | .trap cause false => s.takeFault c cause (s.pump c).pc
  | .page va access =>
    let (s', id) := s.postPage va access (s.asker c va i).1 (s.launch c).space (s.pump c).flow (s.asker c va i).2
    (s'.caughtUp c).modPump c fun p => { p.blockIn s.now i none with page := some (id, va) }
  | .wait why => (s.caughtUp c).modPump c fun p => p.blockIn s.now i why
  | .damage d code ea =>
    let s' := s.meetAt c code d
    s'.takeFault c { code := code, fab := false, region := 0, tval := ea } (s.pump c).pc

/-- The outcome of an instruction of core `c`: its own effect, or the stop it met. -/
def State.outcome (s : State) (c : CoreId) (i : Instr) (r : Except Stop State) : Out :=
  match r with
  | .ok t => .next t
  | .error e => .next (s.stop c i e)

/-- A blocked instruction is tried again: what it does when it can complete or must trap; while it must wait, nothing
changes but that the pump's next loads issue later (R485). -/
def State.retry (s : State) (c : CoreId) (i : Instr) (try_ : State → Except Stop State) : State :=
  let s' := s.modPump c fun p => p.unblock s.now
  match try_ s' with
  | .ok t => t
  | .error (.wait _) => s.caughtUp c
  | .error e => s'.stop c i e

/-! ### Virtual memory accesses of a pump -/

/-- What a pump read of a line meets (R346, R461): poison, an error of its metadata or HBM data, an on-die error. -/
def State.lineStop (s : State) (pa : Nat) (ea : Word) : Option Stop :=
  let l := lineOf pa
  let k := codeOf s.codes l
  if k = poisonCode then some (fault 0x21 ea)
  else if codeBroken k || s.badMeta.contains l then some (.damage (.metadata l) 0x21 ea)
  else if s.badData.contains l then some (.damage (.line l) 0x21 ea)
  else if s.badCache.contains l then some (.damage (.cache l) 0x20 ea)
  else none

/-- Go on unless something stops. -/
def guardStop : Option Stop → Except Stop Unit
  | some e => .error e
  | none => .ok ()

/-- One aligned read of `n` bytes by the pump of core `c` (R295, R296, R346); 16 bytes are two events (R261),
as each word is seen by itself. -/
def State.loadV (s : State) (c : CoreId) (ea : Word) (n : Nat) (need : Need := .rd) : Except Stop (List Byte) := do
  if ea.toNat % n ≠ 0 then throw (fault 0x02 ea)
  let pa ← s.paOf c ea need
  guardStop (s.lineStop pa ea)
  return s.view c pa n

/-- A read of `n` 8-byte words that a pump makes as relaxed loads, any of which may fault at its own address (R309,
R414, R221). -/
def State.loadWords (s : State) (c : CoreId) (ea : Word) : Nat → Except Stop (List Byte)
  | 0 => .ok []
  | n + 1 => do
    let w ← s.loadV c ea 8
    let r ← State.loadWords s c (ea + 8) n
    return w ++ r

/-! ### The cistern and its windows -/

/-- Bytes of a core's cistern. -/
def Core.cisternRead (k : Core) (o n : Nat) : List Byte := k.cistern.read o n

/-- The numbers of the 8-byte words that a range touches. -/
def wordsOf (o n : Nat) : List Nat :=
  if n = 0 then [] else (List.range ((o + n - 1) / 8 - o / 8 + 1)).map (· + o / 8)

/-- Write bytes into a cistern; a write that covers a whole word clears its poison (R461). -/
def Core.cisternWrite (k : Core) (o : Nat) (bytes : List Byte) : Core :=
  let covered := (wordsOf o bytes.length).filter fun w => o ≤ 8 * w && 8 * w + 8 ≤ o + bytes.length
  { k with
    cistern := k.cistern.write o bytes
    bad := k.bad.filter fun w => !covered.contains w
    latent := k.latent.filter fun w => !covered.contains w }

/-- Set the full-empty bits of the words a range touches (R270, R329), by an agent whose write is older than write number
`serial` (R268). -/
def Core.setFull (k : Core) (o n : Nat) (by_ : Agent) (serial : Nat) : Core :=
  let ws := wordsOf o n
  { k with
    full := ws.foldl insertUp k.full
    setBy := ws.map (·, by_, serial) ++ k.setBy.filter fun q => !ws.contains q.1 }

/-- Where a cistern-space address leads (R295, R440). -/
inductive CisternPlace where
  | here (c : CoreId) (o : Nat)
  /-- a window of a lost slot (R441) -/
  | lost
  | closed
  deriving DecidableEq, Repr

/-- A cistern-space address: the own cistern, or a window of the cluster (R295, R440, R441). -/
def State.cisternPlace (s : State) (c : CoreId) (ea : Word) : CisternPlace :=
  let e := ea.toNat
  if e < 2 ^ 21 then .here c e
  else if e / 2 ^ 40 ≠ 0 || e / 2 ^ 39 % 2 ≠ 1 || e / 2 ^ 29 % 128 ≠ 0 then .closed
  else
    let slot := e / 2 ^ 36 % 8
    let rank := e / 2 ^ 21 % 256
    match s.flowOf c with
    | none => .closed
    | some f =>
      if f.lost.any (·.val = slot) then .lost
      else
        match s.flows.find? (fun g => (g.num = f.num || (f.cluster.isSome && g.cluster = f.cluster && g.born = f.born)) &&
            g.slot.val = slot && (g.state = .running || g.state = .retired)) with
        | none => .closed
        | some g =>
          match g.cores[rank]? with
          | some k => .here k (e % 2 ^ 21)
          | none => .closed

/-- What a pump read of cistern words of core `c` meets: poison, or a storage error not met before (R461). -/
def State.cisternStop (s : State) (c : CoreId) (o n : Nat) (ea : Word) : Option Stop :=
  let k := s.core c
  if (wordsOf o n).any k.bad.contains then some (fault 0x21 ea)
  else ((wordsOf o n).find? k.latent.contains).map fun w => .damage (.word c w) 0x20 ea

end Sys2Proof.Machine
end

