-- ==== Sys2Proof/Machine/Flags.lean ====
section
/-! DEFINITION. The six sticky flags of R96 and every way a computation sets them. -/

namespace Sys2Proof.Machine

open Sys2Proof

/-- Saturation. -/
def fSat : Flags := 0x20

/-- Invalid operation. -/
def fNv : Flags := 0x10

/-- Division by zero. -/
def fDz : Flags := 0x08

/-- Overflow. -/
def fOf : Flags := 0x04

/-- Underflow. -/
def fUf : Flags := 0x02

/-- Inexact. -/
def fNx : Flags := 0x01

/-- A flag that is set when a condition holds. -/
def flagIf (b : Bool) (f : Flags) : Flags := if b then f else 0

/-- The union of many flag sets. -/
def orFlags (fs : List Flags) : Flags := fs.foldl (· ||| ·) 0

/-- OR flags into `s.fflags` (R111). -/
def Pump.raise (p : Pump) (f : Flags) : Pump := { p with fflags := p.fflags ||| f }

/-- A result with flags: written through `d`, the flags ORed in, and the pump goes on (R105, R111). -/
def State.giveFloat (s : State) (c : CoreId) (d : Reg) (r : Nat × Flags) : State :=
  s.modPump c fun p => ((p.result d (BitVec.ofNat 64 r.1)).raise r.2).advance

end Sys2Proof.Machine
end

