-- ==== Sys2Proof/Machine/Float.lean ====
section
/-! DEFINITION. Binary floating point, computed exactly and rounded once: FP32, FP16 and BF16 codes as exact numbers,
rounding with its flags, and the scalar operations of R105 to R110. -/

namespace Sys2Proof.Machine

open Sys2Proof

/-- Number of bits of a number, 0 for 0. -/
def bitLen (m : Nat) : Nat := if m = 0 then 0 else Nat.log2 m + 1

/-- A binary interchange format: precision, smallest normal exponent, exponent field width. -/
structure FloatFmt where
  p : Nat
  ebits : Nat
  deriving DecidableEq, Repr

/-- Bias of the exponent field, which is the largest exponent. -/
def FloatFmt.bias (f : FloatFmt) : Int := 2 ^ (f.ebits - 1) - 1

/-- Exponent of the smallest normal number. -/
def FloatFmt.emin (f : FloatFmt) : Int := 1 - f.bias

/-- Sign bit position. -/
def FloatFmt.signBit (f : FloatFmt) : Nat := f.p - 1 + f.ebits

/-- FP32. -/
def f32 : FloatFmt := { p := 24, ebits := 8 }

/-- FP16. -/
def f16 : FloatFmt := { p := 11, ebits := 5 }

/-- BF16, the lanes of O16. -/
def bf16 : FloatFmt := { p := 8, ebits := 8 }

/-- The value of a code. -/
def Num.ofCode (f : FloatFmt) (n : Nat) : Num :=
  let neg := n / 2 ^ f.signBit % 2 = 1
  let ex := n / 2 ^ (f.p - 1) % 2 ^ f.ebits
  let fr := n % 2 ^ (f.p - 1)
  if ex = 2 ^ f.ebits - 1 then
    if fr = 0 then .inf neg else .nan (fr < 2 ^ (f.p - 2))
  else if ex = 0 then .fin neg fr (f.emin - (f.p - 1))
  else .fin neg (fr + 2 ^ (f.p - 1)) ((ex : Int) - f.bias - (f.p - 1))

/-- The canonical quiet NaN (R105, R110). -/
def FloatFmt.nanCode (f : FloatFmt) : Nat := (2 ^ f.ebits - 1) * 2 ^ (f.p - 1) + 2 ^ (f.p - 2)

/-- An infinity. -/
def FloatFmt.infCode (f : FloatFmt) (neg : Bool) : Nat :=
  (2 ^ f.ebits - 1) * 2 ^ (f.p - 1) + if neg then 2 ^ f.signBit else 0

/-- The largest finite code of a sign. -/
def FloatFmt.maxCode (f : FloatFmt) (neg : Bool) : Nat := f.infCode neg - 1

/-- A zero of a sign. -/
def FloatFmt.zeroCode (f : FloatFmt) (neg : Bool) : Nat := if neg then 2 ^ f.signBit else 0

/-- Drop `shift` low bits of `m`, rounding to nearest even or toward zero; `sticky` says that something below counts.
Answers the rounded value and whether it is inexact. -/
def roundShift (rtz : Bool) (m : Nat) (shift : Nat) (sticky : Bool) : Nat × Bool :=
  let kept := m / 2 ^ shift
  let rem := m % 2 ^ shift
  let up :=
    if rtz then false
    else if shift = 0 then false
    else 2 ^ (shift - 1) < rem || (rem = 2 ^ (shift - 1) && (sticky || kept % 2 = 1))
  (kept + (if up then 1 else 0), rem ≠ 0 || sticky)

/-- Round `(-1)^neg · (m + s) · 2^e`, with `0 < s < 1` when `sticky` and `s = 0` otherwise, to a code of the format,
with the flags of, uf (tiny after rounding and inexact) and nx (R105, R106, R110). With `sticky`, `m` has at least
p + 2 bits, so that the part left out lies below the bit that decides. -/
def roundTo (f : FloatFmt) (rtz : Bool) (neg : Bool) (m0 : Nat) (e0 : Int) (sticky : Bool) : Nat × Flags :=
  if m0 = 0 && !sticky then (f.zeroCode neg, 0)
  else
    let m := m0 * 2 ^ (f.p + 2)
    let e := e0 - (f.p + 2)
    let top : Int := e + bitLen m - 1
    let q := max (top - (f.p - 1)) (f.emin - (f.p - 1))
    let (kept, inexact) := roundShift rtz m (q - e).toNat sticky
    -- the same rounding with an unbounded exponent, for tininess
    let qu := top - (f.p - 1)
    let (ku, _) := roundShift rtz m (qu - e).toNat sticky
    let tiny := qu + bitLen ku - 1 < f.emin
    if f.bias < q + bitLen kept - 1 then
      ((if rtz then f.maxCode neg else f.infCode neg), fOf ||| fNx)
    else
      let field : Nat := (q - (f.emin - (f.p - 1))).toNat
      (kept + field * 2 ^ (f.p - 1) + f.zeroCode neg, flagIf (tiny && inexact) fUf ||| flagIf inexact fNx)

/-- A NaN operand gives the canonical NaN, and nv when it is signalling. -/
def nanOf (f : FloatFmt) (sig : Bool) : Nat × Flags := (f.nanCode, flagIf sig fNv)

/-- A value rounded into a format. -/
def Num.round (f : FloatFmt) (rtz : Bool) : Num → Nat × Flags
  | .nan sig => nanOf f sig
  | .inf neg => (f.infCode neg, 0)
  | .fin neg m e => roundTo f rtz neg m e false

/-- Invalid operation: the canonical NaN and nv. -/
def invalid (f : FloatFmt) : Nat × Flags := (f.nanCode, fNv)

/-- The signed integer `(-1)^neg · m`. -/
def signInt (neg : Bool) (m : Nat) : Int := if neg then -(m : Int) else m

/-- The exact sum of two finite values as integer and exponent. -/
def sumExact (n1 : Bool) (m1 : Nat) (e1 : Int) (n2 : Bool) (m2 : Nat) (e2 : Int) : Int × Int :=
  let e := min e1 e2
  (signInt n1 m1 * 2 ^ (e1 - e).toNat + signInt n2 m2 * 2 ^ (e2 - e).toNat, e)

/-- Any operand is a signalling NaN. -/
def Num.sig : Num → Bool
  | .nan s => s
  | _ => false

/-- Is a NaN. -/
def Num.isNan : Num → Bool
  | .nan _ => true
  | _ => false

/-- The negative of a value. -/
def Num.neg : Num → Num
  | .nan s => .nan s
  | .inf n => .inf (!n)
  | .fin n m e => .fin (!n) m e

/-- RNE(a + b) (R106): an exact zero sum is +0, except that (−0) + (−0) is −0. -/
def addNum (f : FloatFmt) (a b : Num) : Nat × Flags :=
  match a, b with
  | .nan _, _ => nanOf f (a.sig || b.sig)
  | _, .nan _ => nanOf f (a.sig || b.sig)
  | .inf n1, .inf n2 => if n1 = n2 then (f.infCode n1, 0) else invalid f
  | .inf n, .fin _ _ _ => (f.infCode n, 0)
  | .fin _ _ _, .inf n => (f.infCode n, 0)
  | .fin n1 m1 e1, .fin n2 m2 e2 =>
    let (s, e) := sumExact n1 m1 e1 n2 m2 e2
    if s = 0 then (f.zeroCode (n1 && n2), 0)
    else roundTo f false (s < 0) s.natAbs e false

/-- The exact product. -/
def mulExact : Num → Num → Option Num
  | .nan s, b => some (.nan (s || b.sig))
  | a, .nan s => some (.nan (s || a.sig))
  | .inf n1, .inf n2 => some (.inf (n1 != n2))
  | .inf n1, .fin n2 m _ => if m = 0 then none else some (.inf (n1 != n2))
  | .fin n1 m _, .inf n2 => if m = 0 then none else some (.inf (n1 != n2))
  | .fin n1 m1 e1, .fin n2 m2 e2 => some (.fin (n1 != n2) (m1 * m2) (e1 + e2))

/-- RNE(a × b) (R106): 0 × ∞ is invalid. -/
def mulNum (f : FloatFmt) (a b : Num) : Nat × Flags :=
  match mulExact a b with
  | none => invalid f
  | some v => v.round f false

/-- RNE(a × b + c) with one rounding (R106): 0 × ∞ + c is invalid even when c is a quiet NaN. -/
def fmaNum (f : FloatFmt) (a b c : Num) : Nat × Flags :=
  match mulExact a b with
  | none => invalid f
  | some v => addNum f v c

/-- RNE(a / b) (R106). -/
def divNum (f : FloatFmt) (a b : Num) : Nat × Flags :=
  match a, b with
  | .nan _, _ => nanOf f (a.sig || b.sig)
  | _, .nan _ => nanOf f (a.sig || b.sig)
  | .inf _, .inf _ => invalid f
  | .inf n1, .fin n2 _ _ => (f.infCode (n1 != n2), 0)
  | .fin n1 _ _, .inf n2 => (f.zeroCode (n1 != n2), 0)
  | .fin n1 m1 e1, .fin n2 m2 e2 =>
    if m2 = 0 then (if m1 = 0 then invalid f else (f.infCode (n1 != n2), fDz))
    else
      let k := f.p + 3 + bitLen m2
      let num := m1 * 2 ^ k
      roundTo f false (n1 != n2) (num / m2) (e1 - e2 - k) (num % m2 ≠ 0)

/-- Floor of the square root, one bit at a time from bit `k - 1`. -/
def isqrtFrom (n : Nat) : Nat → Nat → Nat
  | 0, r => r
  | k + 1, r => if (r + 2 ^ k) * (r + 2 ^ k) ≤ n then isqrtFrom n k (r + 2 ^ k) else isqrtFrom n k r

/-- Floor of the square root. -/
def isqrt (n : Nat) : Nat := isqrtFrom n (bitLen n / 2 + 1) 0

/-- RNE(√a) (R106): √(−0) = −0, a negative operand is invalid. -/
def sqrtNum (f : FloatFmt) (a : Num) : Nat × Flags :=
  match a with
  | .nan s => nanOf f s
  | .inf neg => if neg then invalid f else (f.infCode false, 0)
  | .fin neg m e =>
    if m = 0 then (f.zeroCode neg, 0)
    else if neg then invalid f
    else
      let m' := if e % 2 = 0 then m else 2 * m
      let e' := if e % 2 = 0 then e else e - 1
      let n := m' * 2 ^ (2 * (f.p + 2))
      let r := isqrt n
      roundTo f false false r (e' / 2 - (f.p + 2)) (r * r ≠ n)

/-- Order of two values that are no NaN: −0 below +0. -/
def Num.ltTotal (a b : Num) : Bool :=
  let key : Num → Int × Bool × Nat := fun v => match v with
    | .nan _ => (0, false, 0)
    | .inf n => (if n then -1 else 1, n, 0)
    | .fin n m _ => (0, n, m)
  match a, b with
  | .inf n1, _ => n1 && (key b ≠ key a)
  | _, .inf n2 => !n2
  | .fin n1 m1 e1, .fin n2 m2 e2 =>
    let e := min e1 e2
    let x := signInt n1 m1 * 2 ^ (e1 - e).toNat
    let y := signInt n2 m2 * 2 ^ (e2 - e).toNat
    x < y || (x = y && m1 = 0 && n1 && !n2)
  | _, _ => false

/-- Numerical order of two values that are no NaN: −0 equals +0. -/
def Num.lt (a b : Num) : Bool :=
  match a, b with
  | .fin _ 0 _, .fin _ 0 _ => false
  | _, _ => a.ltTotal b

/-- Numerical equality of two values that are no NaN. -/
def Num.eq (a b : Num) : Bool := !a.lt b && !b.lt a

/-- The code of the smaller (or larger) of two codes (R107). -/
def minMax (f : FloatFmt) (larger : Bool) (x y : Nat) : Nat × Flags :=
  let a := Num.ofCode f x
  let b := Num.ofCode f y
  let fl := flagIf (a.sig || b.sig) fNv
  if a.isNan && b.isNan then (f.nanCode, fl)
  else if a.isNan then (y, fl)
  else if b.isNan then (x, fl)
  else if larger then (if a.ltTotal b then (y, fl) else (x, fl))
  else (if b.ltTotal a then (y, fl) else (x, fl))

/-- The comparison of `fcmp` (R108). -/
def compare (cond : Cond) (a b : Num) : Bool × Flags :=
  let un := a.isNan || b.isNan
  let sig := a.sig || b.sig
  match cond with
  | .eq => (!un && a.eq b, flagIf sig fNv)
  | .lt => (!un && a.lt b, flagIf un fNv)
  | .le => (!un && !b.lt a, flagIf un fNv)
  | .un => (un, flagIf sig fNv)

/-- The class bit of `fcls` (R109). -/
def classOf (f : FloatFmt) (n : Nat) : Nat :=
  let sub := n / 2 ^ (f.p - 1) % 2 ^ f.ebits = 0
  match Num.ofCode f n with
  | .inf neg => if neg then 0 else 7
  | .nan s => if s then 8 else 9
  | .fin neg m _ =>
    if m = 0 then (if neg then 3 else 4)
    else if sub then (if neg then 2 else 5)
    else if neg then 1 else 6

/-- Round a finite value to an integer; says whether that is inexact. -/
def toInteger (rtz neg : Bool) (m : Nat) (e : Int) : Int × Bool :=
  if 0 ≤ e then (signInt neg (m * 2 ^ e.toNat), false)
  else
    let (k, inexact) := roundShift rtz m (-e).toNat false
    (signInt neg k, inexact)

/-- FP to integer with the range of the target (R110): out of range gives the nearest end and nv only. -/
def toIntRange (rtz : Bool) (lo hi : Int) : Num → Int × Flags
  | .nan _ => (0, fNv)
  | .inf neg => (if neg then lo else hi, fNv)
  | .fin neg m e =>
    let (v, inexact) := toInteger rtz neg m e
    if v < lo then (lo, fNv)
    else if hi < v then (hi, fNv)
    else (v, flagIf inexact fNx)

/-- An integer rounded into a format. -/
def ofInteger (f : FloatFmt) (rtz : Bool) (v : Int) : Nat × Flags := roundTo f rtz (v < 0) v.natAbs 0 false

/-- `fcvt` (R110) on the value of its source register: the 64-bit result and its flags. -/
def convert (kind : CvtKind) (rtz : Bool) (a : Word) : Nat × Flags :=
  let w := a.toNat % 2 ^ 32
  let h := a.toNat % 2 ^ 16
  let int (n : Nat) (r : Int × Flags) : Nat × Flags := ((r.1 % (2 ^ n : Int)).toNat, r.2)
  match kind with
  | .f32s64 => ofInteger f32 rtz a.toInt
  | .f32n64 => ofInteger f32 rtz a.toNat
  | .s64f32 => int 64 (toIntRange rtz (-2 ^ 63) (2 ^ 63 - 1) (Num.ofCode f32 w))
  | .n64f32 => int 64 (toIntRange rtz 0 (2 ^ 64 - 1) (Num.ofCode f32 w))
  | .f32s32 => ofInteger f32 rtz (BitVec.ofNat 32 w).toInt
  | .s32f32 => int 64 (toIntRange rtz (-2 ^ 31) (2 ^ 31 - 1) (Num.ofCode f32 w))
  | .f32f16 => (Num.ofCode f16 h).round f32 rtz
  | .f16f32 => (Num.ofCode f32 w).round f16 rtz
  | .f32bf16 => (Num.ofCode bf16 h).round f32 rtz
  | .bf16f32 => (Num.ofCode f32 w).round bf16 rtz

end Sys2Proof.Machine
end

