-- ==== Sys2Proof/Machine/Atoms.lean ====
section
/-! DEFINITION. Atoms: the enumeration of patterns, decoding, the encoding search, the product of two atoms, the lane
functions, import and export of INT elements, calibration and random words (R127 to R145, R151 to R159, R163, R169). -/

namespace Sys2Proof.Machine

open Sys2Proof

/-! ### Scaling -/

/-- A value times 2^e, exact. -/
def Num.scale (e : Int) : Num → Num
  | .fin n m e' => .fin n m (e' + e)
  | v => v

/-! ### Patterns (R133, R134) -/

/-- V(n, k): the number of n-lane tuples of absolute sum k (R133). -/
def countV (n k : Nat) : Nat :=
  match n, k with
  | 0, 0 => 1
  | 0, _ + 1 => 0
  | _, 0 => 1
  | 1, _ => 2
  | 2, k => 4 * k
  | 3, k => 4 * k * k + 2
  | _, k => (8 * k * k * k + 16 * k) / 3

/-- The integers from −k to k. -/
def lanesUpTo (k : Nat) : List Int := (List.range (2 * k + 1)).map fun (i : Nat) => (i : Int) - k

/-- RANK (R134): the lanes still to come, with `k` pulses left. -/
def rankFrom (k : Nat) : List Int → Nat
  | [] => 0
  | p :: r =>
    let below := (lanesUpTo k).filter (· < p)
    (below.map fun v => countV r.length (k - v.natAbs)).sum + rankFrom (k - p.natAbs) r

/-- RANK(p, K) (R134). -/
def rank (k : Nat) (p : List Int) : Nat := rankFrom k p

/-- The lane whose range of indices holds `i`, and the index inside that range (R134). -/
def unrankLane (n k : Nat) : List Int → Nat → Int × Nat
  | [], i => (0, i)
  | v :: r, i =>
    let c := countV n (k - v.natAbs)
    if i < c then (v, i) else unrankLane n k r (i - c)

/-- UNRANK with `n` lanes and `k` pulses left (R134). -/
def unrankFrom : Nat → Nat → Nat → List Int
  | 0, _, _ => []
  | n + 1, k, i =>
    let (v, j) := unrankLane n k (lanesUpTo k) i
    v :: unrankFrom n (k - v.natAbs) j

/-- UNRANK(i, K) (R134). -/
def unrank (k i : Nat) : List Int := unrankFrom 4 k i

/-! ### Fields of a coded atom (R127, R128) -/

/-- Pulse sum of a coded format. -/
def pulses (f : Fmt) : Nat := if f = .c16 then 16 else 4

/-- Number of valid indices (R133). -/
def validIdx (f : Fmt) : Nat := if f = .c16 then 11008 else 192

/-- The index field of a coded atom. -/
def idxOf (f : Fmt) (a : Nat) : Nat := if f = .c16 then a / 2 ^ 18 % 2 ^ 14 else a / 2 ^ 8 % 2 ^ 8

/-- The gain code of a coded atom. -/
def gainOf (f : Fmt) (a : Nat) : Nat := if f = .c16 then a % 2 ^ 16 else a % 2 ^ 8

/-- Mantissa bits of a gain code. -/
def gainBits (f : Fmt) : Nat := if f = .c16 then 8 else 3

/-- Exponent of the smallest gain (R128). -/
def gainMin (f : Fmt) : Int := if f = .c16 then -142 else -17

/-- GAIN(gc) as integer and exponent of two (R128). -/
def gainValue (f : Fmt) (gc : Nat) : Nat × Int :=
  let mb := gainBits f
  let e := gc / 2 ^ mb
  let m := gc % 2 ^ mb
  if e = 0 then (m, gainMin f) else (m + 2 ^ mb, gainMin f + e - 1)

/-- The largest gain code. -/
def gainMax (f : Fmt) : Nat := if f = .c16 then 0xFFFF else 0xFF

/-- The canonical NaN of a coded format (R131). -/
def nanAtom (f : Fmt) : Nat := if f = .c16 then 0xFFFC_FFFF else 0xFFFF

/-- A coded atom from index and gain code. -/
def codedAtom (f : Fmt) (idx gc : Nat) : Nat := if f = .c16 then idx * 2 ^ 18 + gc else idx * 2 ^ 8 + gc

/-- What the checks of DECODE find in a coded atom with block scale `s` (R130). -/
inductive Coded where
  | nan (invalid : Bool)
  /-- valid index, whatever the gain code -/
  | ok (p : List Int) (gc : Nat)
  deriving DecidableEq, Repr

/-- The checks of DECODE (R130). -/
def checkCoded (f : Fmt) (a : Nat) (s : Int) : Coded :=
  let idx := idxOf f a
  let gc := gainOf f a
  if f = .c16 then
    if a / 2 ^ 16 % 4 = 0 && idx = 0x3FFF && gc = 0xFFFF then .nan false
    else if a / 2 ^ 16 % 4 ≠ 0 || 11008 ≤ idx then .nan true
    else .ok (unrank 16 idx) gc
  else
    if idx = 0xFF && gc = 0xFF then .nan false
    else if 192 ≤ idx then .nan true
    else if 110 ≤ s then .nan true
    else .ok (unrank 4 idx) gc

/-- Positive zero. -/
def Num.zero : Num := .fin false 0 0

/-- An integer as an exact value. -/
def Num.int (v : Int) : Num := .fin (v < 0) v.natAbs 0

/-- Four quiet NaN lanes. -/
def nan4 : List Num := [.nan false, .nan false, .nan false, .nan false]

/-- DECODE(a, s) (R129, R130): the lanes and the invalid flag. -/
def decodeAtom (f : Fmt) (a : Nat) (s : Int) : List Num × Flags :=
  match checkCoded f a s with
  | .nan inv => (nan4, flagIf inv fNv)
  | .ok p gc =>
    let (m, e) := gainValue f gc
    (p.map fun v => if gc = 0 || v = 0 then Num.zero else .fin (v < 0) (m * v.natAbs) (e + s), 0)

/-- Lane `i` of an open atom as its code (R140). -/
def openLane (f : Fmt) (a i : Nat) : Nat :=
  if f = .o16 then a / 2 ^ (16 * i) % 2 ^ 16 else a / 2 ^ (32 * i) % 2 ^ 32

/-- An INT32 code as an integer. -/
def intLane (n : Nat) : Int := (BitVec.ofNat 32 n).toInt

/-- LANES(q) (R151). -/
def lanes (f : Fmt) (a : Nat) (s : Int := 0) : List Num × Flags :=
  match f with
  | .c4 => decodeAtom .c4 a s
  | .c16 => decodeAtom .c16 a 0
  | .o16 => ((List.range 4).map fun i => Num.ofCode bf16 (openLane .o16 a i), 0)
  | .o32 => ((List.range 4).map fun i => Num.ofCode f32 (openLane .o32 a i), 0)
  | .oi => ((List.range 4).map fun i => Num.int (intLane (openLane .oi a i)), 0)

/-! ### Exact lane results and STORE (R152) -/

/-- An exact lane result: a value, or a real number that is no dyadic fraction, given by its leading bits, of which
`m` has at least 70, and something below them. -/
inductive Lane where
  | num (v : Num)
  | near (neg : Bool) (m : Nat) (e : Int)
  deriving DecidableEq, Repr

/-- Round a lane once into a binary format. -/
def Lane.round (f : FloatFmt) : Lane → Nat × Flags
  | .num v => v.round f false
  | .near neg m e => roundTo f false neg m e true

/-- Round a lane to INT32 with saturation (R152). -/
def Lane.toInt32 : Lane → Nat × Flags
  | .num v =>
    let (n, fl) := toIntRange false (-2 ^ 31) (2 ^ 31 - 1) v
    ((n % 2 ^ 32).toNat, fl)
  | .near neg m e =>
    let k := if 0 ≤ e then m * 2 ^ e.toNat else (roundShift false m (-e).toNat true).1
    let n := signInt neg k
    if n < -2 ^ 31 then (2 ^ 31, fNv)
    else if 2 ^ 31 - 1 < n then (2 ^ 31 - 1, fNv)
    else ((n % 2 ^ 32).toNat, fNx)

/-! ### The encoding search (R154, R155) -/

/-- Round a positive rational `n / d · 2^e` to a gain code, the exponent range open upward (R154). -/
def gainRne (f : Fmt) (n d : Nat) (e : Int) : Nat :=
  let mb := gainBits f
  let guess : Int := (bitLen n : Int) - bitLen d
  -- floor(log2(n / d))
  let low : Bool := if 0 ≤ guess then n < d * 2 ^ guess.toNat else n * 2 ^ (-guess).toNat < d
  let lg := if low then guess - 1 else guess
  let q := max (lg + e - mb) (gainMin f)
  let sh := q - e
  let num := if sh < 0 then n * 2 ^ (-sh).toNat else n
  let den := if sh < 0 then d else d * 2 ^ sh.toNat
  let kept := num / den
  let rem := num % den
  let kept := if den < 2 * rem || (2 * rem = den && kept % 2 = 1) then kept + 1 else kept
  kept + (q - gainMin f).toNat * 2 ^ mb

/-- The lane with the largest remainder among those not chosen, the lowest index on a tie (R154). -/
def largestRem (rm : List Nat) (chosen : List Bool) : Nat :=
  let best := (rm.zip chosen).foldl (fun b p => if p.2 then b else max b p.1) 0
  ((rm.zip chosen).findIdx? fun p => !p.2 && p.1 = best).getD 0

/-- Hand out the remaining pulses (R154). -/
def handOut (rm : List Nat) : Nat → List Nat → List Bool → List Nat
  | 0, fl, _ => fl
  | n + 1, fl, ch =>
    let j := largestRem rm ch
    handOut rm n (fl.set j (fl.getD j 0 + 1)) (ch.set j true)

/-- Numerical equality of lane lists (R155). -/
def sameLanes (a b : List Num) : Bool := (a.zip b).all fun p => p.1.eq p.2

/-- Sign of a value as −1, 0 or 1. -/
def Num.sign : Num → Int
  | .nan _ => 0
  | .inf n => if n then -1 else 1
  | .fin n m _ => if m = 0 then 0 else if n then -1 else 1

/-- ENCODE(x, f) (R154, R155): the atom and the flags. -/
def encodeAtom (f : Fmt) (x : List Num) : Nat × Flags :=
  if x.any Num.isNan then (nanAtom f, flagIf (x.any Num.sig) fNv)
  else
    let isInf : Num → Bool := fun v => match v with
      | .inf _ => true
      | _ => false
    let sat0 := x.any isInf
    let y := if sat0 then x.map fun v => if isInf v then Num.int v.sign else Num.zero else x
    if y.all (·.sign = 0) then (0, 0)
    else
      let k := pulses f
      let e := y.foldl (fun m v => match v with
        | .fin _ n e => if n = 0 then m else min m e
        | _ => m) (1000 : Int)
      let a := y.map fun v => match v with
        | .fin _ n e' => if n = 0 then 0 else n * 2 ^ (e' - e).toNat
        | _ => 0
      let s := a.sum
      let fl := a.map fun v => k * v / s
      let rm := a.map fun v => k * v % s
      let fl := handOut rm (k - fl.sum) fl (a.map fun _ => false)
      let p := (fl.zip y).map fun q => q.2.sign * (q.1 : Int)
      let n := ((fl.zip a).map fun q => q.1 * q.2).sum
      let d := (fl.map fun q => q * q).sum
      let gc := if sat0 then gainMax f else gainRne f n d e
      let sat := sat0 || gainMax f < gc
      let gc := min gc (gainMax f)
      if gc = 0 then (0, fUf ||| fNx)
      else
        let r := codedAtom f (rank k p) gc
        (r, flagIf sat fSat ||| flagIf (!sameLanes (decodeAtom f r 0).1 x) fNx)

/-- Lanes packed from lane 0 upward, `w` bits each. -/
def packLanes (w : Nat) : List Nat → Nat
  | [] => 0
  | v :: r => v + 2 ^ w * packLanes w r

/-- STORE(v, f) (R152): the atom and the flags. -/
def storeAtom (f : Fmt) (v : List Lane) : Nat × Flags :=
  match f with
  | .o32 =>
    let r := v.map (Lane.round f32)
    (packLanes 32 (r.map (·.1)), orFlags (r.map (·.2)))
  | .o16 =>
    let r := v.map (Lane.round bf16)
    (packLanes 16 (r.map (·.1)), orFlags (r.map (·.2)))
  | .oi =>
    let r := v.map Lane.toInt32
    (packLanes 32 (r.map (·.1)), orFlags (r.map (·.2)))
  | .c4 | .c16 =>
    let r := v.map (Lane.round f32)
    let (a, fl) := encodeAtom f (r.map fun p => Num.ofCode f32 p.1)
    (a, orFlags (r.map (·.2)) ||| fl)

/-- STORE of exact values. -/
def storeNums (f : Fmt) (v : List Num) : Nat × Flags := storeAtom f (v.map .num)

/-! ### Exact lane arithmetic (R153) -/

/-- An exact sum: opposite infinities are invalid; an exact zero is +0 unless both are −0 (R153). -/
def addLane (a b : Num) : Num × Flags :=
  match a, b with
  | .nan s, _ => (.nan (s || b.sig), 0)
  | _, .nan s => (.nan (s || a.sig), 0)
  | .inf n1, .inf n2 => if n1 = n2 then (.inf n1, 0) else (.nan false, fNv)
  | .inf n, _ => (.inf n, 0)
  | _, .inf n => (.inf n, 0)
  | .fin n1 m1 e1, .fin n2 m2 e2 =>
    let (s, e) := sumExact n1 m1 e1 n2 m2 e2
    if s = 0 then (.fin (n1 && n2) 0 0, 0) else (.fin (s < 0) s.natAbs e, 0)

/-- An exact product: 0 × ∞ is invalid (R153). -/
def mulLane (a b : Num) : Num × Flags :=
  match mulExact a b with
  | some v => (v, 0)
  | none => (.nan false, fNv)

/-- a × b + c with no rounding; 0 × ∞ + c is invalid (R106, R162). -/
def fmaLane (a b c : Num) : Num × Flags :=
  match mulExact a b with
  | none => (.nan false, fNv)
  | some v => addLane v c

/-- The exact sum of many values: an exact zero is +0, and opposite infinities are invalid, beside a NaN too (R157,
R182). -/
def sumNums (vs : List Num) : Num × Flags :=
  let both := vs.contains (.inf false) && vs.contains (.inf true)
  if vs.any Num.isNan then (.nan false, flagIf (both || vs.any Num.sig) fNv)
  else if both then (.nan false, fNv)
  else if vs.contains (.inf false) then (.inf false, 0)
  else if vs.contains (.inf true) then (.inf true, 0)
  else
    let (v, fl) := vs.foldl (fun acc v => let (r, f) := addLane acc.1 v; (r, acc.2 ||| f)) (Num.zero, 0)
    match v with
    | .fin _ 0 _ => (Num.zero, fl)
    | w => (w, fl)

/-! ### DOT (R157, R158) -/

/-- An atom of a format as DOT sees it. -/
inductive DotArg where
  | nan (invalid : Bool)
  | coded (p : List Int) (m : Nat) (e : Int) (zeroGain : Bool)
  | open_ (v : List Num)
  deriving DecidableEq, Repr

/-- An operand of DOT, the block scale of a coded one entering its gain (R157). -/
def dotArg (f : Fmt) (a : Nat) (s : Int) : DotArg :=
  if f.coded then
    match checkCoded f a s with
    | .nan inv => .nan inv
    | .ok p gc => let (m, e) := gainValue f gc; .coded p m (e + if f = .c4 then s else 0) (gc = 0)
  else .open_ (lanes f a).1

/-- t of the coded and open row: Σ over the lanes with a pulse, exact, then RNE to FP32 (R157). -/
def pulseSum (p : List Int) (v : List Num) : Nat × Flags :=
  let terms := (p.zip v).filterMap fun q => if q.1 = 0 then none else some (mulLane (Num.int q.1) q.2).1
  let (t, fl) := sumNums terms
  let (c, fr) := t.round f32 false
  (c, fl ||| fr)

/-- A gain applied to t (R157, steps 4 to 6). -/
def gainTimes (m : Nat) (e : Int) (zeroGain : Bool) (t : Nat × Flags) : Nat × Flags :=
  match Num.ofCode f32 t.1 with
  | .nan _ => (f32.nanCode, t.2)
  | .inf neg => if zeroGain then (f32.nanCode, t.2 ||| fNv) else (f32.infCode neg, t.2)
  | .fin neg tm te =>
    if zeroGain || tm = 0 then (0, t.2)
    else
      let (c, fl) := roundTo f32 false neg (m * tm) (e + te) false
      (c, t.2 ||| fl)

/-- DOT(u, v) (R157): an FP32 code and the flags. -/
def dotAtoms (u v : DotArg) : Nat × Flags :=
  match u, v with
  | .nan i, .nan j => (f32.nanCode, flagIf (i || j) fNv)
  | .nan i, _ => (f32.nanCode, flagIf i fNv)
  | _, .nan j => (f32.nanCode, flagIf j fNv)
  | .coded p m e z, .open_ w => gainTimes m e z (pulseSum p w)
  | .open_ w, .coded p m e z => gainTimes m e z (pulseSum p w)
  | .coded p m e z, .coded p' m' e' z' =>
    let t : Int := ((p.zip p').map fun q => q.1 * q.2).sum
    if z || z' || t = 0 then (0, 0) else roundTo f32 false (t < 0) (m * m' * t.natAbs) (e + e') false
  | .open_ a, .open_ b =>
    let terms := (a.zip b).map fun q => mulLane q.1 q.2
    let (t, fl) := sumNums (terms.map (·.1))
    let (c, fr) := t.round f32 false
    (c, orFlags (terms.map (·.2)) ||| flagIf ((a ++ b).any Num.sig) fNv ||| fl ||| fr)

/-! ### The lane functions (R163) -/

/-- Fractional bits of the fixed-point evaluation of exp2 and log2 (log 20). -/
def fixBits : Nat := 320

/-- Bits kept of a result that is no dyadic fraction. -/
def keepBits : Nat := 96

/-- Σ z^(2i+1)/(2i+1), `n` terms, in fixed point: `t` is z^(2i+1), `z2` is z². -/
def atanhFrom (z2 : Nat) : Nat → Nat → Nat → Nat
  | 0, _, _ => 0
  | n + 1, i, t => t / (2 * i + 1) + atanhFrom z2 n (i + 1) (t * z2 / 2 ^ fixBits)

/-- ln(a / b) in fixed point for 1 ≤ a / b ≤ 2. -/
def lnFix (a b : Nat) : Nat :=
  let z := (a - b) * 2 ^ fixBits / (a + b)
  2 * atanhFrom (z * z / 2 ^ fixBits) 110 0 z

/-- Σ x^i / i!, `n` terms, in fixed point. -/
def expFrom (x : Nat) : Nat → Nat → Nat → Nat
  | 0, _, _ => 0
  | n + 1, i, t => t + expFrom x n (i + 1) (t * x / 2 ^ fixBits / (i + 1))

/-- The leading `keepBits` bits of a positive fixed-point number, as integer and exponent. -/
def leading (neg : Bool) (v : Nat) : Lane :=
  let sh := bitLen v - keepBits
  .near neg (v / 2 ^ sh) ((sh : Int) - fixBits)

/-- 2^v (R163), for v = ±m·2^e. Beyond ±1000 the result rounds as 2^±1000 does in every format. -/
def exp2Lane (neg : Bool) (m : Nat) (e : Int) : Lane :=
  if m = 0 then .num (.fin false 1 0)
  else if 10 < e + bitLen m then .num (.fin false 1 (if neg then -1000 else 1000))
  else
    -- v as a number of 2^-fixBits; every FP32 value is exact there
    let x : Int := signInt neg (m * 2 ^ (e + fixBits).toNat)
    let n := x / 2 ^ fixBits
    let f := (x % 2 ^ fixBits).toNat
    if f = 0 then .num (.fin false 1 n)
    else
      let y := expFrom (f * lnFix 2 1 / 2 ^ fixBits) 90 0 (2 ^ fixBits)
      match leading false y with
      | .near s a b => .near s a (b + n)
      | l => l

/-- log2 v for v = m·2^e above 0 (R163). -/
def log2Lane (m : Nat) (e : Int) : Lane :=
  let top := bitLen m - 1
  let n := e + top
  if m = 2 ^ top then .num (Num.int n)
  else
    let y : Int := n * 2 ^ fixBits + lnFix m (2 ^ top) * 2 ^ fixBits / lnFix 2 1
    leading (y < 0) y.natAbs

/-- An exact quotient `n / d · 2^e` of positive numbers. -/
def quotLane (neg : Bool) (n d : Nat) (e : Int) : Lane :=
  let k := keepBits + bitLen d
  let q := n * 2 ^ k / d
  if n * 2 ^ k % d = 0 then .num (.fin neg q (e - k)) else .near neg q (e - k)

/-- √(m·2^e). -/
def sqrtLane (m : Nat) (e : Int) : Lane :=
  let m' := if e % 2 = 0 then m else 2 * m
  let e' := if e % 2 = 0 then e else e - 1
  let n := m' * 2 ^ (2 * keepBits)
  let r := isqrt n
  if r * r = n then .num (.fin false r (e' / 2 - keepBits)) else .near false r (e' / 2 - keepBits)

/-- 1/√(m·2^e). -/
def rsqrtLane (m : Nat) (e : Int) : Lane :=
  let m' := if e % 2 = 0 then m else 2 * m
  let e' := if e % 2 = 0 then e else e - 1
  let k := keepBits + bitLen m'
  let r := isqrt (2 ^ (2 * k) / m')
  if r * r * m' = 2 ^ (2 * k) then .num (.fin false r (-(e' / 2) - k)) else .near false r (-(e' / 2) - k)

/-- A function of R163 on one lane of the FP32 domain: the exact result and the flags it sets itself. -/
def mapLane (fn : MapFn) (v : Num) : Lane × Flags :=
  match fn, v with
  | _, .nan s => (.num (.nan s), 0)
  | .relu, v => (.num (if v.sign = 1 then v else Num.zero), 0)
  | .abs, .inf _ => (.num (.inf false), 0)
  | .abs, .fin _ m e => (.num (.fin false m e), 0)
  | .neg, v => (.num v.neg, 0)
  | .exp2, .inf neg => (.num (if neg then Num.zero else .inf false), 0)
  | .exp2, .fin neg m e => (exp2Lane neg m e, 0)
  | .log2, .inf neg => if neg then (.num (.nan false), fNv) else (.num (.inf false), 0)
  | .log2, .fin neg m e =>
    if m = 0 then (.num (.inf true), fDz) else if neg then (.num (.nan false), fNv) else (log2Lane m e, 0)
  | .rcp, .inf neg => (.num (.fin neg 0 0), 0)
  | .rcp, .fin neg m e => if m = 0 then (.num (.inf neg), fDz) else (quotLane neg 1 m (-e), 0)
  | .rsqrt, .inf neg => if neg then (.num (.nan false), fNv) else (.num Num.zero, 0)
  | .rsqrt, .fin neg m e =>
    if m = 0 then (.num (.inf neg), fDz) else if neg then (.num (.nan false), fNv) else (rsqrtLane m e, 0)
  | .sqrt, .inf neg => if neg then (.num (.nan false), fNv) else (.num (.inf false), 0)
  | .sqrt, .fin neg m e =>
    if m = 0 then (.num v, 0) else if neg then (.num (.nan false), fNv) else (sqrtLane m e, 0)

/-- The functions that have an integer form (R163). -/
def mapFnInt (fn : MapFn) : Bool := fn = .relu || fn = .abs || fn = .neg

/-- relu, abs and neg on an INT32 lane (R163). -/
def mapIntLane (fn : MapFn) (v : BitVec 32) : BitVec 32 :=
  match fn with
  | .relu => if v.slt 0 then 0 else v
  | .abs => if v.slt 0 then -v else v
  | .neg => -v
  | _ => v

/-! ### INT elements and their group records (R142 to R145, R159) -/

/-- A group record by its fields, or faulty (R143, R144): scale and zero point. -/
def recordFaulty (int4 : Bool) (r : Nat) : Bool :=
  let zp := (BitVec.ofNat 8 (r / 2 ^ 16)).toInt
  (match Num.ofCode f16 (r % 2 ^ 16) with
    | .nan _ => true
    | .inf _ => true
    | .fin _ _ _ => false) ||
  r / 2 ^ 24 % 256 ≠ 0 || (int4 && (zp < -8 || 7 < zp))

/-- Import of an element: scale × (q − z), exact (R144); a faulty record gives a NaN. A product of zero is +0, as R198 and
R201 have it of q = z; under a zero scale the sign is the model's choice (log 84). -/
def importLane (int4 : Bool) (r : Nat) (q : Int) : Num :=
  if recordFaulty int4 r then .nan false
  else
    let z := (BitVec.ofNat 8 (r / 2 ^ 16)).toInt
    match (mulLane (Num.ofCode f16 (r % 2 ^ 16)) (Num.int (q - z))).1 with
    | .fin _ 0 _ => Num.zero
    | v => v

/-- Round a rational `n / d` to an integer, ties to even. -/
def rneRat (n : Int) (d : Nat) : Int :=
  let q := n / d
  let r := n % d
  if (d : Int) < 2 * r || (2 * r = d && q % 2 = 1) then q + 1 else q

/-- Two exponents brought together: `a·2^ea / (b·2^eb)` as a fraction. -/
def ratio (a : Int) (ea : Int) (b : Nat) (eb : Int) : Int × Nat :=
  if eb ≤ ea then (a * 2 ^ (ea - eb).toNat, b) else (a, b * 2 ^ (eb - ea).toNat)

/-- Export of a lane value (R145): the code as a signed integer and the flags. -/
def exportLane (int4 : Bool) (r : Nat) (v : Num) : Int × Flags :=
  let z := (BitVec.ofNat 8 (r / 2 ^ 16)).toInt
  let lo : Int := if int4 then -8 else -128
  let hi : Int := if int4 then 7 else 127
  match Num.ofCode f16 (r % 2 ^ 16) with
  | .fin sn sm se =>
    if recordFaulty int4 r || sm = 0 then (z, fNv)
    else match v with
      | .nan _ => (z, fNv)
      | .inf neg => (if neg != sn then lo else hi, fSat)
      | .fin neg m e =>
        let (n, d) := ratio (signInt (neg != sn) m) e sm se
        let q := rneRat n d + z
        if hi < q then (hi, fSat) else if q < lo then (lo, fSat) else (q, 0)
  | _ => (z, fNv)

/-- The element code of an exported integer: a byte, or its low four bits (R145). -/
def elementCode (int4 : Bool) (v : Int) : Nat := (v % (if int4 then 16 else 256)).toNat

/-- An element's integer from its code (R142). -/
def elementInt (int4 : Bool) (n : Nat) : Int := if int4 then signed 4 (n % 16) else signed 8 (n % 256)

/-- The exact value of an FP32 code as integer and exponent, 0 for what is no number. -/
def Num.parts : Num → Int × Int
  | .fin n m e => (signInt n m, e)
  | _ => (0, 0)

/-- CALIB(mn, mx, t) (R159) on FP32 codes: the record and the flags. R199 leaves forming the record to the program, from
the fold that Quant emits, and no step of the model writes one (log 84). -/
def calib (int4 : Bool) (mn mx : Nat) : Nat × Flags :=
  let qmin : Int := if int4 then -8 else -128
  let qmax : Int := if int4 then 7 else 127
  let a := Num.ofCode f32 mn
  let b := Num.ofCode f32 mx
  let finite : Num → Bool := fun v => match v with
    | .fin _ _ _ => true
    | _ => false
  if !finite a || !finite b then (0x7E00, fNv)
  else
    let (lo, hi) := if b.lt a then (b, a) else (a, b)
    let fix (sc : Nat) : Nat × Flags :=
      if sc = 0 then (1, 0) else if sc = f16.infCode false then (0x7BFF, fSat) else (sc, 0)
    let div (n : Nat) (e : Int) (d : Nat) : Nat :=
      -- RNE of n·2^e / d into FP16
      let k := f16.p + 3 + bitLen d
      (roundTo f16 false false (n * 2 ^ k / d) (e - k) (n * 2 ^ k % d ≠ 0)).1
    if a.eq b then
      let (m, e) := a.parts
      if m = 0 then (0x3C00, 0) else fix (div m.natAbs e qmax.toNat)
    else
      let lo := if lo.sign = 1 then Num.zero else lo
      let hi := if hi.sign = -1 then Num.zero else hi
      let (s, e) := (addLane hi lo.neg).1.parts
      let (sc, fl) := fix (div s.natAbs e (qmax - qmin).toNat)
      let (sm, se) := (Num.ofCode f16 sc).parts
      let (ln, le) := lo.parts
      let (n, d) := ratio ln le sm.natAbs se
      let z := rneRat (qmin * d - n) d
      let z := max qmin (min qmax z)
      ((z % 256).toNat * 2 ^ 16 + sc, fl)

/-! ### Random words (R169) -/

/-- One Philox round on the counter words. -/
def philoxRound (c0 c1 c2 c3 k0 k1 : BitVec 32) : BitVec 32 × BitVec 32 × BitVec 32 × BitVec 32 :=
  let p0 : Word := 0xD2511F53#64 * c0.setWidth 64
  let p1 : Word := 0xCD9E8D57#64 * c2.setWidth 64
  (p1.extractLsb' 32 32 ^^^ c1 ^^^ k0, p1.setWidth 32, p0.extractLsb' 32 32 ^^^ c3 ^^^ k1, p0.setWidth 32)

/-- `n` Philox rounds, the key stepped before each but the first. -/
def philox : Nat → BitVec 32 → BitVec 32 → BitVec 32 → BitVec 32 → BitVec 32 → BitVec 32 → BitVec 32
  | 0, c0, _, _, _, _, _ => c0
  | n + 1, c0, c1, c2, c3, k0, k1 =>
    let (d0, d1, d2, d3) := philoxRound c0 c1 c2 c3 k0 k1
    philox n d0 d1 d2 d3 (k0 + 0x9E3779B9#32) (k1 + 0xBB67AE85#32)

/-- RANDW(seed, e) (R169). -/
def randw (seed : Word) (e : Nat) : BitVec 32 :=
  philox 10 (BitVec.ofNat 32 e) (BitVec.ofNat 32 (e / 2 ^ 32)) (BitVec.ofNat 32 (e / 2 ^ 64)) (BitVec.ofNat 32 (e / 2 ^ 96))
    (seed.setWidth 32) (seed.extractLsb' 32 32)

/-- A uniform lane of `arnd` or `map.rand` in O32 or O16 (R169). -/
def uniformLane (f : Fmt) (u : BitVec 32) : Nat :=
  if f = .o16 then (roundTo bf16 false false (u.toNat / 2 ^ 24) (-8) false).1
  else (roundTo f32 false false (u.toNat / 2 ^ 8) (-24) false).1

end Sys2Proof.Machine
end

