-- ==== Sys2Proof/Machine/Operands.lean ====
section
/-! DEFINITION. The operand forms: effective addresses, branch targets, fields of system registers, and the loads and
stores of every space, size and extension. -/

namespace Sys2Proof.Machine

open Sys2Proof

/-! ### Addresses -/

/-- The effective address a + SEXT(imm32, 32) of R62 and R294. -/
def Pump.ea (p : Pump) (a : Reg) (imm : BitVec 32) : Word := p.read a + sext32 imm

/-- The target of format B: the address of the instruction plus 8 × SEXT(off32, 32) (R60). -/
def Pump.target (p : Pump) (off : BitVec 32) : Word := p.pc + 8 * sext32 off

/-- An address lies in the code section of the flow's image (R75, R116). -/
def Launch.inCode (l : Launch) (a : Word) : Bool := l.codeLo ≤ a.toNat && a.toNat < l.codeHi

/-- Fetch a word without its faults: what the landing check of R115 reads. -/
def State.fetchWord (s : State) (c : CoreId) (a : Word) : Except Stop Word := do
  let pa ← s.paOf c a .fetch
  guardStop (s.lineStop pa a)
  return leWord (s.view c pa 8)

/-- A word of a jump-table record; the pump reads it by the launch state, not by the permissions of a load (R74,
R75), so the execute-only rule of the code section does not reach it. -/
def State.tableWord (s : State) (c : CoreId) (a : Word) : Except Stop Word := do
  match s.translateIn (s.launch c).space a .rd with
  | .at pa =>
    guardStop (s.lineStop pa a)
    return leWord (s.view c pa 8)
  | .absent => throw (.page a Need.rd.access)
  | .forbidden => throw (fault 0x04 a)

/-! ### Sizes and extensions -/

end Sys2Proof.Machine

namespace Sys2Proof

open Machine

/-- Bytes of a load (R68). -/
def LdSize.bytes : LdSize → Nat
  | .bz => 1
  | .hz => 2
  | .wz => 4
  | .d => 8
  | .bs => 1
  | .hs => 2
  | .ws => 4

/-- The extension of a load (R296). -/
def LdSize.extend : LdSize → Nat → Word
  | .bz, v => BitVec.ofNat 64 v
  | .hz, v => BitVec.ofNat 64 v
  | .wz, v => BitVec.ofNat 64 v
  | .d, v => BitVec.ofNat 64 v
  | .bs, v => (BitVec.ofNat 8 v).signExtend 64
  | .hs, v => (BitVec.ofNat 16 v).signExtend 64
  | .ws, v => (BitVec.ofNat 32 v).signExtend 64

/-- Bytes of a store (R68). -/
def StSize.bytes : StSize → Nat
  | .b => 1
  | .h => 2
  | .w => 4
  | .d => 8

/-- Bytes of an atom (R94, R127, R294). -/
def Fmt.bytes : Fmt → Nat
  | .c4 => 2
  | .c16 => 4
  | .o16 => 8
  | .o32 => 16
  | .oi => 16

end Sys2Proof

namespace Sys2Proof.Machine

open Sys2Proof

/-! ### Loads and stores of either space -/

/-- Where a window or cistern access of `n` bytes acts (R295, R440, R441). -/
def State.cisternAt (s : State) (c : CoreId) (ea : Word) (n : Nat) : Except Stop (CoreId × Nat) := do
  if ea.toNat % n ≠ 0 then throw (fault 0x02 ea)
  match s.cisternPlace c ea with
  | .here k o => return (k, o)
  | .lost => throw (fault 0x28 ea)
  | .closed => throw (fault 0x04 ea)

/-- The bytes that the pump of core `c` sees in the cistern of core `k` (R264, R271; log 7). -/
def State.viewCistern (s : State) (c k : CoreId) (o n : Nat) : List Byte :=
  ((s.core k).cisternRead o n).zipIdx.map fun q => (s.staleByte (.pump c) (.cistern k) (o + q.2)).getD q.1

/-- One aligned read of `n` bytes from the cistern space (R295, R296, R461); 16 bytes are two events (R261),
as each word is seen by itself. -/
def State.loadC (s : State) (c : CoreId) (ea : Word) (n : Nat) : Except Stop (List Byte) := do
  let (k, o) ← s.cisternAt c ea n
  guardStop (s.cisternStop k o n ea)
  return s.viewCistern c k o n

/-- A partial write of a poisoned cistern word is dropped and told as fault 0x22 (R345, R461), also when it is the first to
meet the error. -/
def State.cisternDrops (s : State) (k : CoreId) (o n : Nat) : Bool :=
  (wordsOf o n).any fun w =>
    ((s.core k).bad.contains w || (s.core k).latent.contains w) && !(o ≤ 8 * w && 8 * w + 8 ≤ o + n)

/-- Write bytes into the cistern of `k` on behalf of the pump of core `c`, as one event. -/
def State.putCistern (s : State) (c k : CoreId) (o : Nat) (bytes : List Byte) : State :=
  if s.cisternDrops k o bytes.length then
    (((wordsOf o bytes.length).filter (s.core k).latent.contains).foldl (fun t w => t.meetAt c 0x22 (.word k w)) s).postAsync c
      (poison22 (o / 8 * 8))
  else (s.noteWrite (.cistern k) o bytes.length (.pump c) false (s.carries c)).modCore k fun core => core.cisternWrite o bytes

/-- One aligned write to the cistern space: a write to a lost slot is dropped (R441), and 16 bytes are two events (R261). -/
def State.storeC (s : State) (c : CoreId) (ea : Word) (bytes : List Byte) : Except Stop State := do
  if ea.toNat % bytes.length ≠ 0 then throw (fault 0x02 ea)
  match s.cisternPlace c ea with
  | .here k o =>
    return if bytes.length = 16 then (s.putCistern c k o (bytes.take 8)).putCistern c k (o + 8) (bytes.drop 8)
      else s.putCistern c k o bytes
  | .lost => return s
  | .closed => throw (fault 0x04 ea)

/-- One aligned write to virtual memory (R295, R296): the 16-byte forms are two 8-byte events (R261, R299). -/
def State.storeV (s : State) (c : CoreId) (ea : Word) (bytes : List Byte) : Except Stop State := do
  if ea.toNat % bytes.length ≠ 0 then throw (fault 0x02 ea)
  let pa ← s.paOf c ea .wr
  if bytes.length = 16 then
    return (s.issueWrite c pa (bytes.take 8) false ea).issueWrite c (pa + 8) (bytes.drop 8) false (ea + 8)
  else return s.issueWrite c pa bytes false ea

/-- A read of either space. -/
def State.load (s : State) (c : CoreId) (cistern : Bool) (ea : Word) (n : Nat) : Except Stop (List Byte) :=
  if cistern then s.loadC c ea n else s.loadV c ea n

/-- A write of either space. -/
def State.store (s : State) (c : CoreId) (cistern : Bool) (ea : Word) (bytes : List Byte) : Except Stop State :=
  if cistern then s.storeC c ea bytes else s.storeV c ea bytes

/-- What a read of `n` bytes by the pump of core `c` leaves: it knows the writes it has read (R278), and one through a read
bind of the core copies the line into its bank (R272, R274). -/
def State.readThrough (s : State) (c : CoreId) (cistern : Bool) (ea : Word) (n : Nat) : State :=
  if cistern then match s.cisternPlace c ea with
    | .here k o => s.noteRead (.pump c) (.cistern k) o n
    | _ => s
  else match s.translate c ea .rd with
    | .at pa => (s.noteRead (.pump c) .memory pa n).copyLine c pa
    | _ => s

/-! ### System registers (R55, R96, R123) -/

/-- The value `srd` reads. -/
def State.readSReg (s : State) (c : CoreId) (r : SReg) : Word :=
  let p := s.pump c
  match r with
  | .isa => 0x030300
  | .feat0 => s.part.feat0
  | .feat1 => 0
  | .feat2 => 0
  | .feat3 => 0
  | .core => s.coreWord c
  | .flow => p.flowWord
  | .status => p.status
  | .tvec => p.tvec
  | .tcause => p.tcause.word
  | .tval => p.tcause.tval
  | .epc => p.epc
  | .cycle => s.cycleOf c
  | .fflags => p.fflags.setWidth 64
  | .seed => p.seed
  | .stall => p.stallWord

end Sys2Proof.Machine

namespace Sys2Proof

open Machine

/-- The bits of a system register that a written value must leave zero (R96, R123). -/
def SReg.reserved : SReg → Word
  | .status => 0xFFFF_FFFF_FFFF_FFF8
  | .tvec => 0xFF00_0000_0000_0007
  | .tcause => 0xFFFF_FFFF_FFFF_F000
  | .epc => 0xFF00_0000_0000_0000
  | .fflags => 0xFFFF_FFFF_FFFF_FFC0
  | _ => 0

end Sys2Proof

namespace Sys2Proof.Machine

open Sys2Proof

/-- Write a writable system register field by field: `ypend` stays (R123). A read-only one is left as it is; the
decoder rejects such a write (R55). -/
def Pump.writeSReg (p : Pump) (r : SReg) (v : Word) : Pump :=
  match r with
  | .status => { p with ht := v.getLsbD 0, pht := v.getLsbD 1 }
  | .tvec => { p with tvec := v }
  | .tcause => { p with tcause := { p.tcause with code := v.setWidth 8, region := v.extractLsb' 8 3, fab := v.getLsbD 11 } }
  | .tval => { p with tcause := { p.tcause with tval := v } }
  | .epc => { p with epc := v }
  | .fflags => { p with fflags := v.setWidth 6 }
  | .seed => { p with seed := v }
  | .isa => p
  | .feat0 => p
  | .feat1 => p
  | .feat2 => p
  | .feat3 => p
  | .core => p
  | .flow => p
  | .cycle => p
  | .stall => p

/-- The word of the instruction at the pc: `s.tval` of fault 0x01 (R118). -/
def illegal (i : Instr) : Stop := fault 0x01 (encode i)

end Sys2Proof.Machine

namespace Sys2Proof

open Machine

/-- Feature bit `n` of the part (R96, R126, R470). -/
def Part.feature (p : Part) (n : Nat) : Bool := n < 64 && p.feat0.getLsbD n

end Sys2Proof

namespace Sys2Proof.Machine

open Sys2Proof

end Sys2Proof.Machine
end

