-- ==== Sys2Proof/Machine/Frames.lean ====
section
/-! DEFINITION. The fields of configuration frames and block headers (R78 to R86) and of the patterns they give. -/

namespace Sys2Proof.Machine

open Sys2Proof

/-- Layout of a frame (R78). -/
def layoutOf (f : Frame) : Nat := bits f 252 4

/-- Plane or context of a frame (R78). -/
def planeOf (f : Frame) : Nat := bits f 248 4

/-- Site address, or frame count of a header (R78). -/
def siteOf (f : Frame) : Nat := bits f 232 16

/-- A format code of a frame field: 0 untyped (R71, R83, R86). -/
def fmtOf (n : Nat) : Option Fmt := Fmt.ofCode? (BitVec.ofNat 4 n)

/-- A direction by its code 0 to 3 in the order N, E, S, W. -/
def dirOf (n : Nat) : Dir :=
  match n with
  | 0 => .n
  | 1 => .e
  | 2 => .s
  | _ => .w

/-- Number of a direction in the order N, E, S, W. -/
def dirNum : Dir → Fin 4
  | .n => 0
  | .e => 1
  | .s => 2
  | .w => 3

/-- The directions of a port mask: bit 3 N, bit 2 E, bit 1 S, bit 0 W (R81). -/
def maskDirs (m : Nat) : List (Fin 4) :=
  (fins 4).filter fun d => m / 2 ^ (3 - d.val) % 2 = 1

/-! ### Compute frames (R81) -/

/-- A compute frame by its fields. -/
structure CompCfg where
  site : Fin 64
  kind : Nat
  mode : Nat
  region : Fin 8
  /-- the read steps before the first end, as ports -/
  order : List (Fin 4)
  outA : Nat
  outB : Nat
  fmtA : Nat
  fmtB : Nat
  fmtO : Nat
  raw : Frame
  deriving DecidableEq, Repr

/-- The eight read steps of a compute frame (R81). -/
def stepsOf (f : Frame) : List Nat := (List.range 8).map fun i => bits f (192 + 3 * i) 3

/-- The fields of a compute frame. -/
def CompCfg.of (f : Frame) : CompCfg :=
  { site := Fin.ofNat 64 (siteOf f)
    kind := bits f 228 4
    mode := bits f 224 4
    region := Fin.ofNat 8 (bits f 221 3)
    order := ((stepsOf f).takeWhile (· ≠ 0)).map fun n => Fin.ofNat 4 (n - 1)
    outA := bits f 188 4
    outB := bits f 184 4
    fmtA := bits f 180 4
    fmtB := bits f 176 4
    fmtO := bits f 172 4
    raw := f }

/-- Bits `[lo + n - 1 : lo]` of the payload's param field. -/
def CompCfg.param (k : CompCfg) (lo n : Nat) : Nat := bits k.raw lo n

/-! ### Memory frames (R83) -/

/-- A memory frame by its fields. -/
structure MemCfg where
  site : Fin 8
  mode : Nat
  op : Nat
  region : Fin 8
  base : Nat
  /-- number of token slots -/
  len : Nat
  expect : Nat
  fmt : Nat
  /-- number of passes -/
  passes : Nat
  raw : Frame
  deriving DecidableEq, Repr

/-- The fields of a memory frame. -/
def MemCfg.of (f : Frame) : MemCfg :=
  { site := Fin.ofNat 8 (siteOf f)
    mode := bits f 228 4
    op := bits f 224 4
    region := Fin.ofNat 8 (bits f 221 3)
    base := bits f 208 13
    len := bits f 195 13 + 1
    expect := bits f 179 16
    fmt := bits f 175 4
    passes := bits f 159 16 + 1
    raw := f }

/-! ### Switch frames (R84) -/

/-- Source code of the outgoing link in direction `d`. -/
def lnkSrc (f : Frame) (d : Fin 4) : Nat := bits f (229 - 3 * d.val) 3

/-- Source code of the operator's input port `d`. -/
def opdSrc (f : Frame) (d : Fin 4) : Nat := bits f (217 - 3 * d.val) 3

/-- Buffer size of the incoming link from `d` in tokens (R84). -/
def depOf (f : Frame) (d : Fin 4) : Nat := 4 * 2 ^ bits f (206 - 2 * d.val) 2

/-- Region of the outgoing link in direction `d`. -/
def rgnOf (f : Frame) (d : Fin 4) : Nat := bits f (197 - 3 * d.val) 3

/-- The neighbour of a site in a direction, `none` at the edge of the array. -/
def neighbour (site : Fin 64) (d : Fin 4) : Option (Fin 64) :=
  let row := site.val / 8
  let col := site.val % 8
  match d with
  | 0 => if row = 0 then none else some (Fin.ofNat 64 (site.val - 8))
  | 1 => if col = 7 then none else some (Fin.ofNat 64 (site.val + 1))
  | 2 => if row = 7 then none else some (Fin.ofNat 64 (site.val + 8))
  | _ => if col = 0 then none else some (Fin.ofNat 64 (site.val - 1))

/-- The opposite direction. -/
def opposite (d : Fin 4) : Fin 4 := Fin.ofNat 4 (d.val + 2)

/-- What stands at the other end of a site's link in a direction (R84). -/
inductive FarEnd where
  | site (i : Fin 64)
  | mem (m : Fin 8)
  | ag (a : Fin 8)
  | nothing
  deriving DecidableEq, Repr

/-- The W links of sites n.0 attach to memory site n, the E links of sites n.7 to AG site n (R84). -/
def farEnd (site : Fin 64) (d : Fin 4) : FarEnd :=
  match neighbour site d with
  | some i => .site i
  | none =>
    if d = 3 then .mem (Fin.ofNat 8 (site.val / 8))
    else if d = 1 then .ag (Fin.ofNat 8 (site.val / 8))
    else .nothing

/-! ### AG frames and stream patterns (R85, R86) -/

/-- What an AG site runs, whether a frame or a stream descriptor gives it. -/
structure AgCfg where
  /-- its site -/
  site : Fin 8
  mode : Nat
  region : Fin 8
  addr : Word
  counters : List Counter
  cmp : Bool
  int : Nat
  ptr2 : Word
  use2 : Nat
  fmt : Nat
  rnd : Nat
  stop : Nat
  ctx : Option (Fin 8)
  bind : Nat
  weir : Bool
  mparam : Frame
  deriving DecidableEq, Repr

/-- The fields of the two parts of an AG frame. -/
def AgCfg.of (p0 p1 : Frame) : AgCfg :=
  { site := Fin.ofNat 8 (siteOf p0)
    mode := bits p0 228 4
    region := Fin.ofNat 8 (bits p0 225 3)
    addr := BitVec.ofNat 64 (bits p0 168 56)
    counters := [0, 1, 2, 3].map fun j =>
      { bound := bits p0 (152 - 40 * j) 16 + 1, stride := signed 24 (bits p0 (128 - 40 * j) 24) }
    cmp := bits p1 231 1 = 1
    int := bits p1 227 4
    ptr2 := BitVec.ofNat 64 (bits p1 171 56)
    use2 := bits p1 169 2
    fmt := bits p1 165 4
    rnd := bits p1 154 11
    stop := bits p1 151 3
    ctx := if bits p1 150 1 = 1 then some (Fin.ofNat 8 (bits p1 147 3)) else none
    bind := bits p1 145 2
    weir := bits p1 144 1 = 1
    mparam := p1 }

/-- A stream's descriptor in the same form (R309, R311). -/
def Stream.cfg (t : Stream) : AgCfg :=
  { site := t.ag
    mode := match t.kind with
      | .input => 0
      | .output => 1
      | .feed => 0
      | .take => 1
    region := t.region
    addr := t.addr
    counters := t.counters
    cmp := t.cmp
    int := t.int.toNat
    ptr2 := t.ptr2 &&& 0x00FF_FFFF_FFFF_FFC0
    use2 := t.ptr2.toNat % 4
    fmt := match t.fmt with
      | some f => f.code.toNat
      | none => 0
    rnd := t.rnd
    stop := t.stop.toNat
    ctx := t.ctx
    bind := t.bind.toNat
    weir := false
    mparam := 0 }

/-- Number of tokens of a pattern: the product of the bounds (R85). -/
def patternLen (cs : List Counter) : Nat := cs.foldl (fun n c => n * c.bound) 1

/-- Counter values of pattern index `k`, counter 0 fastest (R85). -/
def counterValues : List Counter → Nat → List Nat
  | [], _ => []
  | c :: r, k => k % c.bound :: counterValues r (k / c.bound)

/-- Σ i_j × s_j of pattern index `k` (R85). -/
def patternOffset (cs : List Counter) (k : Nat) : Int :=
  ((counterValues cs k).zip cs).foldl (fun a p => a + p.1 * p.2.stride) 0

/-- Address of pattern index `k` (R85). -/
def AgCfg.address (g : AgCfg) (k : Nat) : Word := g.addr + BitVec.ofInt 64 (patternOffset g.counters k)

/-- Lowest and highest token address offset that the counters reach (R272). -/
def reach (cs : List Counter) : Int × Int :=
  cs.foldl (fun r c =>
    let far : Int := (c.bound - 1 : Nat) * c.stride
    (r.1 + min 0 far, r.2 + max 0 far)) (0, 0)

/-! ### The frames of a plane -/

/-- The compute frame of a site in a plane. -/
def Plane.comp? (p : Plane) (site : Fin 64) : Option CompCfg :=
  (p.frames.find? fun f => layoutOf f = 1 && siteOf f = site.val).map CompCfg.of

/-- The switch frame of a site in a plane. -/
def Plane.switch? (p : Plane) (site : Fin 64) : Option Frame :=
  p.frames.find? fun f => layoutOf f = 3 && siteOf f = site.val

/-- The memory frame of a memory site in a plane. -/
def Plane.mem? (p : Plane) (m : Fin 8) : Option MemCfg :=
  (p.frames.find? fun f => layoutOf f = 2 && siteOf f = m.val).map MemCfg.of

/-- The two AG frames of an AG site in a plane. -/
def Plane.ag? (p : Plane) (a : Fin 8) : Option AgCfg := do
  let p0 ← p.frames.find? fun f => layoutOf f = 4 && siteOf f = a.val
  let p1 ← p.frames.find? fun f => layoutOf f = 4 && siteOf f = 256 + a.val
  return AgCfg.of p0 p1

/-- All compute frames of a plane. -/
def Plane.comps (p : Plane) : List CompCfg := (p.frames.filter fun f => layoutOf f = 1).map CompCfg.of

/-- The plane a region has selected. -/
def Fabric.planeOf (f : Fabric) (r : Fin 8) : Option Plane :=
  (f.regions[r].sel).map fun p => f.planes[p]

/-- The route-bit or index port of a compute frame that has one: Steer, Compact, Merge (R370, R372, R374). -/
def CompCfg.rport (k : CompCfg) : Option (Fin 4) :=
  if k.kind = 7 || k.kind = 8 || k.kind = 9 then
    let n := k.param 169 3
    if 1 ≤ n && n ≤ 4 then some (Fin.ofNat 4 (n - 1)) else none
  else none

/-- The output ports a compute frame writes (R84, R365). -/
def CompCfg.outPorts (k : CompCfg) : List (Fin 4) :=
  (fins 4).filter fun d =>
    (maskDirs k.outA).contains d || (maskDirs k.outB).contains d || k.rport = some d

/-- The AG site has a frame in the plane. -/
def Plane.hasAg (p : Plane) (a : Fin 8) : Bool := (p.ag? a).isSome

end Sys2Proof.Machine
end

