-- ==== Sys2Proof/Machine/Elements.lean ====
section
/-! DEFINITION. What the operators of compute sites share: tokens and their atoms, packing, the result of one firing,
and the tokens a port discards (R146, R172 to R177, R484). -/

namespace Sys2Proof.Machine

open Sys2Proof

/-! ### Tokens, atoms and lanes (R146) -/

/-- Bits of one atom. -/
def atomBits (f : Fmt) : Nat := 8 * f.bytes

/-- Atoms of a token. -/
def atomsPer (f : Fmt) : Nat := 256 / atomBits f

/-- Lanes of a token. -/
def lanesPer (f : Fmt) : Nat := 4 * atomsPer f

/-- The atoms of a payload, in ascending order. -/
def atomsOf (f : Fmt) (p : Frame) : List Nat := (List.range (atomsPer f)).map fun k => bits p (atomBits f * k) (atomBits f)

/-- LANES of every atom of a payload, with block scale `s` (R151). -/
def tokenLanes (f : Fmt) (p : Frame) (s : Int := 0) : List Num × Flags :=
  let r := (atomsOf f p).map fun a => lanes f a s
  ((r.map (·.1)).flatten, orFlags (r.map (·.2)))

/-- The INT32 lanes of a payload. -/
def tokenInts (p : Frame) : List (BitVec 32) := (List.range 8).map fun i => p.extractLsb' (32 * i) 32

/-- The 256 bits that numbers of `w` bits fill. -/
def packFrame (w : Nat) (v : List Nat) : Frame := BitVec.ofNat 256 (packLanes w v)

/-- A scale byte as a signed exponent (R136). -/
def scaleInt (b : Byte) : Int := b.toInt

/-- A DATA token; its seq is set where it leaves the site (R175). -/
def dataTok (p : Frame) (scale : Byte) (poison : Bool) : Token :=
  { kind := .data, seq := 0, payload := p, scale := scale, poison := poison }

/-- A token without payload. -/
def plainTok (k : TokKind) : Token := { kind := k, seq := 0, payload := 0, scale := 0, poison := false }

/-- The unit in which results are packed: an atom of a coded format, a lane of an open one. -/
def unitBits : Fmt → Nat
  | .c4 => 16
  | .c16 => 32
  | .o16 => 16
  | .o32 => 32
  | .oi => 32

/-- Units of a token. -/
def unitsPer (f : Fmt) : Nat := 256 / unitBits f

/-- A token of packed units; it is poisoned when a unit is (R459). -/
def packUnits (f : Fmt) (sc : Byte) (us : List (Frame × Bool)) : Token :=
  dataTok (packFrame (unitBits f) (us.map (·.1.toNat))) sc (us.any (·.2))

/-- The whole tokens at the head of a buffer of units, and what stays. -/
def fullTokens (f : Fmt) (sc : Byte) : Nat → List (Frame × Bool) → List Token × List (Frame × Bool)
  | 0, b => ([], b)
  | n + 1, b =>
    if unitsPer f ≤ b.length then
      let (ts, r) := fullTokens f sc n (b.drop (unitsPer f))
      (packUnits f sc (b.take (unitsPer f)) :: ts, r)
    else ([], b)

/-- A partial token completed with zeros, if there is one. -/
def partTokens (f : Fmt) (sc : Byte) (b : List (Frame × Bool)) : List Token :=
  if b.isEmpty then [] else [packUnits f sc b]

/-- One lane stored into an open format (R152). -/
def storeLane (f : Fmt) (l : Lane) : Nat × Flags :=
  match f with
  | .o16 => l.round bf16
  | .oi => l.toInt32
  | .o32 => l.round f32
  | .c4 => l.round f32
  | .c16 => l.round f32

/-- Lanes stored as units of format `f`: codes of an open format, or one atom for each four (R152). -/
def storeUnits (f : Fmt) (poison : Bool) (v : List Num) : List (Frame × Bool) × Flags :=
  if f.coded then
    let r := (chunks 4 v).map fun x => storeNums f x
    (r.map fun a => (BitVec.ofNat 256 a.1, poison), orFlags (r.map (·.2)))
  else
    let r := v.map fun x => storeLane f (.num x)
    (r.map fun a => (BitVec.ofNat 256 a.1, poison), orFlags (r.map (·.2)))

/-- FP32 addition on codes (R106). -/
def add32 (x y : Nat) : Nat × Flags := addNum f32 (Num.ofCode f32 x) (Num.ofCode f32 y)

/-- FP32 addition of values, the result as a value. -/
def addNums (x y : Num) : Num × Flags :=
  let (c, fl) := addNum f32 x y
  (Num.ofCode f32 c, fl)

/-- The smaller or larger of two exact values by R107. -/
def pickNum (larger : Bool) (a b : Num) : Num × Flags :=
  let fl := flagIf (a.sig || b.sig) fNv
  if a.isNan && b.isNan then (.nan false, fl)
  else if a.isNan then (b, fl)
  else if b.isNan then (a, fl)
  else if larger then (if a.ltTotal b then (b, fl) else (a, fl))
  else (if b.ltTotal a then (b, fl) else (a, fl))

/-- A predicate test (R370, R382): 0 not zero, 1 above +0 as FP32, 2 above 0 as INT32. -/
def predTest (t : Nat) (p : Frame) : Bool :=
  let w : BitVec 32 := p.extractLsb' 0 32
  match t with
  | 0 => w ≠ 0
  | 1 => (Num.ofCode f32 w.toNat).sign = 1
  | _ => (0 : BitVec 32).slt w

/-! ### One firing -/

/-- Where an output token goes: the ports of out_a, of out_b, or rport. -/
inductive Sel where
  | a
  | b
  | r
  deriving DecidableEq, Repr

/-- What one firing does. -/
structure Fired where
  reads : List (Fin 4)
  op : OpState
  outs : List (Sel × Token)
  flags : Flags
  /-- the round commits: its flags become sticky (R176) -/
  commit : Bool
  /-- a poisoned token was received -/
  mark : Bool
  /-- the region's predicate bit (R382) -/
  pred : Option Bool
  deriving DecidableEq, Repr

/-- A firing that reads ports and changes the operator's state. -/
def Fired.of (reads : List (Fin 4)) (op : OpState) : Fired :=
  { reads := reads, op := op, outs := [], flags := 0, commit := false, mark := false, pred := none }

/-- What the operator of a site can do now: wait for input ports, raise a fault, or fire. -/
inductive Firing where
  | wait (cause : Nat) (ports : List (Fin 4))
  | fault (code : Code)
  | fire (f : Fired)
  deriving DecidableEq, Repr

/-- The same token to out_a and, where the kind has a second result, to out_b. -/
def toBoth (two : Bool) (t : Token) : List (Sel × Token) := if two then [(.a, t), (.b, t)] else [(.a, t)]

/-- Tokens to out_a. -/
def toA (ts : List Token) : List (Sel × Token) := ts.map fun t => (.a, t)

/-- The heads of ports, or those that miss a token. -/
def headsOf (inp : Vector (Option Token) 4) (ps : List (Fin 4)) : Except (List (Fin 4)) (List Token) :=
  let missing := ps.filter fun p => (inp[p]).isNone
  if missing.isEmpty then .ok (ps.filterMap fun p => inp[p]) else .error missing

/-- Tokens of one class (R174). -/
def oneClass : List Token → Bool
  | [] => true
  | t :: r => r.all fun u => u.kind = t.kind

/-- Port of step `i` of a read order. -/
def CompCfg.port (k : CompCfg) (i : Nat) : Fin 4 := k.order.getD i 0

/-- The ports of a read order, each once, by rank (R172); one that two steps name stands at the first, the model's choice
(log 84). -/
def CompCfg.ports (k : CompCfg) : List (Fin 4) := k.order.reverse.dedup.reverse

/-- A port given by its code 1 to 4 (R179). -/
def portOf (n : Nat) : Fin 4 := Fin.ofNat 4 (n - 1)

/-- First operand format of a typed frame. -/
def CompCfg.fa (k : CompCfg) : Fmt := (fmtOf k.fmtA).getD .o32

/-- Second operand format. -/
def CompCfg.fb (k : CompCfg) : Fmt := (fmtOf k.fmtB).getD .o32

/-- Result format. -/
def CompCfg.fo (k : CompCfg) : Fmt := (fmtOf k.fmtO).getD .o32

/-! ### The fields of the kinds -/

/-- Rows of a Dot (R179). -/
def CompCfg.dotRows (k : CompCfg) : Nat := 8 * (k.param 170 2 + 1)

/-- Columns of a Dot: nr / 4 in `dot.rec` (R179, R186). -/
def CompCfg.dotCols (k : CompCfg) : Nat := if k.mode = 5 then k.dotRows / 4 else 8 * (k.param 164 6 + 1)

/-- Port of the stationary operand. -/
def CompCfg.wport (k : CompCfg) : Fin 4 := portOf (k.param 161 3)

/-- Port of the streamed operand. -/
def CompCfg.xport (k : CompCfg) : Fin 4 := portOf (k.param 158 3)

/-- Port of the accumulator input, if any. -/
def CompCfg.aport? (k : CompCfg) : Option (Fin 4) := if k.param 155 3 = 0 then none else some (portOf (k.param 155 3))

/-! ### Tokens a port discards on arrival (R173, R174, R184, R371, R380, R484) -/

/-- A SCALE token discarded: the invalid flag. -/
def dropScale (t : Token) : Option Flags := if t.kind = .scale then some fNv else none

/-- A MARK or SCALE discarded. -/
def dropMark (t : Token) : Option Flags := if t.kind = .mark then some 0 else dropScale t

/-- Everything but DATA discarded. -/
def dropNonData (t : Token) : Option Flags :=
  match t.kind with
  | .data => none
  | .scale => some fNv
  | _ => some 0

/-- The token is a STOP. -/
def Token.isStop (t : Token) : Bool :=
  match t.kind with
  | .stop _ => true
  | _ => false

/-- The flags with which port `p` of a site in operator state `op` discards token `t` as it arrives, `none` where it keeps
it. A Dot in its load phase reads a STOP of wport (R426). -/
def CompCfg.drops (k : CompCfg) (op : OpState) (p : Fin 4) (t : Token) : Option Flags :=
  match k.kind with
  | 1 =>
    if p = k.wport then
      (if (t.kind = .scale && k.param 150 2 = 2) || (t.isStop && op.n[(0 : Fin 6)] = 0) then none else dropNonData t)
    else if p = k.xport then (if k.param 148 2 = 2 then none else dropScale t)
    else dropNonData t
  | 3 => if p = k.port 0 then none else dropNonData t
  | 4 => if p = k.port 0 then dropScale t else dropNonData t
  | 5 => if p = k.port 0 then (if k.mode = 0 && k.param 170 2 = 2 then none else dropScale t) else dropNonData t
  | 7 => if p = k.port 0 then none else if k.mode = 1 then dropNonData t else dropScale t
  | 10 => if k.mode = 0 then none else if p = k.port 0 then dropMark t else dropNonData t
  | 11 => dropMark t
  | _ => dropScale t

/-- A stateful element, whose round poison marks (R237, R459); R380 makes a `dly.rec` one. -/
def CompCfg.stateful (k : CompCfg) : Bool :=
  k.kind = 1 || (k.kind = 2 && k.mode ≠ 4) || (k.kind = 4 && k.param 168 1 = 1) || (k.kind = 10 && k.mode = 1) || k.kind = 12

end Sys2Proof.Machine
end

