-- ==== Sys2Proof/Machine/ArithSites.lean ====
section
/-! DEFINITION. The arithmetic kinds of compute site: Dot, Sum, Map, Quant, Expand, Fly (R179 to R203, R426). -/

namespace Sys2Proof.Machine

open Sys2Proof

/-! ### Dot (R179 to R186, R426) -/

/-- TREE8 (R182) on FP32 codes, with the flags of its additions. -/
def tree8 (t : List Nat) : Nat × Flags :=
  let at' (i : Nat) := t.getD i 0
  let (a, f1) := add32 (at' 0) (at' 1)
  let (b, f2) := add32 (at' 2) (at' 3)
  let (c, f3) := add32 (at' 4) (at' 5)
  let (d, f4) := add32 (at' 6) (at' 7)
  let (e, f5) := add32 a b
  let (f, f6) := add32 c d
  let (g, f7) := add32 e f
  (g, orFlags [f1, f2, f3, f4, f5, f6, f7])

/-- ACC (R182): the running value over groups of eight products, missing ones +0. -/
def accGroups : Nat → List Nat → Nat × Flags → Nat × Flags
  | 0, _, acc => acc
  | n + 1, t, acc =>
    let (g, fg) := tree8 (t.take 8)
    let (v, fv) := add32 acc.1 g
    accGroups n (t.drop 8) (v, acc.2 ||| fg ||| fv)

/-- One row: the products of its atoms with the vector, then ACC from `a0`. -/
def dotRow (nc : Nat) (a0 : Nat) (row vec : List DotArg) : Nat × Flags :=
  let p := (row.zip vec).map fun q => dotAtoms q.1 q.2
  accGroups ((nc + 7) / 8) (p.map (·.1)) (a0, orFlags (p.map (·.2)))

/-- The atoms of tokens as DOT sees them, each with the scale that its token carries (R184). -/
def dotArgs (f : Fmt) (ts : List Token) : List DotArg :=
  (ts.map fun t => (atomsOf f t.payload).map fun a => dotArg f a (if f = .c4 then scaleInt t.scale else 0)).flatten

/-- A list completed to `n` entries. -/
def padTo {α : Type} (n : Nat) (z : α) (l : List α) : List α := l ++ List.replicate (n - l.length) z

/-- The scale a token brings for its atoms: none, its sideband, or the latched SCALE (R184). -/
def scaleFor (field : Nat) (t : Token) (latched : Nat) : Byte :=
  match field with
  | 0 => 0
  | 1 => t.scale
  | _ => BitVec.ofNat 8 latched

/-- The results of one vector as nr / 8 O32 tokens (R181, R182). -/
def dotVector (k : CompCfg) (op : OpState) (poison : Bool) : List Token × Flags :=
  let nr := k.dotRows
  let nc := k.dotCols
  let w := padTo (nr * nc) (dotArg k.fa 0 0) (dotArgs k.fa op.store)
  let x := (dotArgs k.fb op.vec).take nc
  let acc := (op.held.map fun t => (List.range 8).map fun i => bits t.payload (32 * i) 32).flatten
  let rows := (List.range nr).map fun r => dotRow nc (acc.getD r 0) ((w.drop (r * nc)).take nc) x
  let bad := poison || (op.store ++ op.vec ++ op.held).any (·.poison)
  let toks := (List.range (nr / 8)).map fun i =>
    dataTok (packFrame 32 (((rows.drop (8 * i)).take 8).map (·.1))) 0 bad
  (toks, orFlags (rows.map (·.2)))

/-- The vector is emitted and closed. -/
def dotEmit (k : CompCfg) (reads : List (Fin 4)) (op : OpState) (poison mark : Bool) : Firing :=
  let (ts, fl) := dotVector k op poison
  .fire { Fired.of reads { op with vec := [], held := [], n := setAt op.n 1 0 } with
    outs := (ts.map (toBoth (k.mode = 5))).flatten
    flags := fl
    mark := mark }

/-- A Dot site (R181). A STOP on wport after part of a block completes the block with +0 atoms (R426). `n 0` is the phase (0
load), `n 1` says that a STOP has completed the open vector, `n 2` and `n 3` hold the latched scales. -/
def fireDot (k : CompCfg) (poison : Bool) (inp : Vector (Option Token) 4) (op : OpState) : Firing :=
  if op.n[(0 : Fin 6)] = 0 then
    match inp[k.wport] with
    | none => .wait 1 [k.wport]
    | some t =>
      match t.kind with
      | .scale => .fire (Fired.of [k.wport] { op with n := setAt op.n 2 (bits t.payload 0 8) })
      | .stop _ =>
        .fire (Fired.of [k.wport] (if op.store.isEmpty then op else { op with n := setAt op.n 0 1 }))
      | .data =>
        let st := op.store ++ [{ t with scale := scaleFor (k.param 150 2) t op.n[(2 : Fin 6)] }]
        let full := k.dotRows * k.dotCols ≤ st.length * atomsPer k.fa
        .fire { Fired.of [k.wport] { op with store := st, n := setAt op.n 0 (if full then 1 else 0) } with
          mark := t.poison }
      | .mark => .fire (Fired.of [k.wport] op)
      | .abort => .fire (Fired.of [k.wport] op)
  else if op.n[(1 : Fin 6)] = 1 || k.dotCols ≤ op.vec.length * atomsPer k.fb then
    match k.aport? with
    | none => dotEmit k [] op poison false
    | some a =>
      match inp[a] with
      | none => .wait 1 [a]
      | some t =>
        if t.kind ≠ .data then .fault 0x11
        else
          let op' := { op with held := op.held ++ [t] }
          if op'.held.length < k.dotRows / 8 then .fire { Fired.of [a] op' with mark := t.poison }
          else dotEmit k [a] op' (poison || t.poison) t.poison
  else
    match inp[k.xport] with
    | none => .wait 1 [k.xport]
    | some t =>
      match t.kind with
      | .scale => .fire (Fired.of [k.xport] { op with n := setAt op.n 3 (bits t.payload 0 8) })
      | .mark =>
        .fire { Fired.of [k.xport] op with outs := toBoth (k.mode = 5) (plainTok .mark), commit := true }
      | .data =>
        let op' := { op with vec := op.vec ++ [{ t with scale := scaleFor (k.param 148 2) t op.n[(3 : Fin 6)] }] }
        if k.aport?.isNone && k.dotCols ≤ op'.vec.length * atomsPer k.fb then
          dotEmit k [k.xport] op' (poison || t.poison) t.poison
        else .fire { Fired.of [k.xport] op' with mark := t.poison }
      | .stop lv =>
        if !op.vec.isEmpty then
          if k.aport?.isNone then dotEmit k [] op poison false
          else .fire (Fired.of [] { op with n := setAt op.n 1 1 })
        else
          let op' := if k.param 152 3 ≤ lv.toNat then { op with store := [], n := setAt op.n 0 0 } else op
          .fire { Fired.of [k.xport] op' with outs := toBoth (k.mode = 5) (plainTok (.stop lv)), commit := true }
      | .abort => .fire (Fired.of [k.xport] op)

/-! ### Sum (R187 to R191) -/

/-- Slots of a Sum. -/
def CompCfg.sumWidth (k : CompCfg) : Nat := k.param 166 6 + 1

/-- The integer domain of a Sum (R187). -/
def CompCfg.sumInt (k : CompCfg) : Bool := k.fa = .oi && k.fo = .oi

/-- The initial value of a slot (R188). -/
def CompCfg.sumInit (k : CompCfg) : Num :=
  match k.mode with
  | 1 => if k.sumInt then Num.int (-2 ^ 31) else .inf true
  | 2 => if k.sumInt then Num.int (2 ^ 31 - 1) else .inf false
  | _ => Num.zero

/-- The slots, lane by lane; none written yet means all initial. -/
def CompCfg.sumSlots (k : CompCfg) (op : OpState) : List Num :=
  if op.slots.isEmpty then List.replicate (k.sumWidth * lanesPer k.fa) k.sumInit else op.slots

/-- The lanes of a token as a Sum takes them. -/
def CompCfg.sumLanes (k : CompCfg) (t : Token) : List Num :=
  if k.sumInt then (tokenInts t.payload).map fun v => Num.int v.toInt else (tokenLanes k.fa t.payload).1

/-- An integer value wrapped modulo 2^32. -/
def Num.wrap32 (v : Num) : Num :=
  match v with
  | .fin n m e => Num.int (BitVec.ofInt 32 (signInt n m * 2 ^ e.toNat)).toInt
  | w => w

/-- OP of R188 on one lane. -/
def CompCfg.sumOp (k : CompCfg) (s v : Num) : Num × Flags :=
  match k.mode with
  | 1 => pickNum true s v
  | 2 => pickNum false s v
  | _ => if k.sumInt then ((addLane s v).1.wrap32, 0) else addNums s v

/-- The values stored as output units (R152). -/
def CompCfg.sumStore (k : CompCfg) (poison : Bool) (v : List Num) : List (Frame × Bool) × Flags := storeUnits k.fo poison v

/-- One token applied to its slot, for the port rank `p` (R188). -/
def CompCfg.sumApply (k : CompCfg) (poison : Bool) (p : Fin 4) (acc : OpState × Flags) (t : Token) : OpState × Flags :=
  let op := acc.1
  let pi : Fin 6 := Fin.ofNat 6 p.val
  let L := lanesPer k.fa
  let slot := op.n[pi] % k.sumWidth
  let ss := k.sumSlots op
  let r := (((ss.drop (slot * L)).take L).zip (k.sumLanes t)).map fun q => k.sumOp q.1 q.2
  let lane := r.map (·.1)
  let op' := { op with slots := ss.take (slot * L) ++ lane ++ ss.drop (slot * L + L), n := setAt op.n pi (op.n[pi] + 1) }
  let fl := acc.2 ||| orFlags (r.map (·.2))
  if k.mode = 3 then
    let (us, fs) := k.sumStore poison lane
    ({ op' with buf := op'.buf ++ us }, fl ||| fs)
  else (op', fl)

/-- COMMIT (R188, R189): the arrivals by port rank and, within one, by seq. -/
def CompCfg.sumCommit (k : CompCfg) (poison : Bool) (op : OpState) : OpState × Flags :=
  let r := (fins 4).foldl (fun acc p => (op.arrivals[p]).foldl (k.sumApply poison p) acc) (op, (0 : Flags))
  ({ r.1 with arrivals := Vector.replicate 4 [] }, r.2)

/-- An accumulating Sum (R188). `n 0` to `n 3` count the ports' tokens in the segment. -/
def fireSum (k : CompCfg) (poison : Bool) (inp : Vector (Option Token) 4) (op : OpState) : Firing :=
  match headsOf inp k.ports with
  | .error m => .wait 1 m
  | .ok ts =>
    if !oneClass ts then .fault 0x11
    else
      let bad := poison || (fins 4).any fun p => (op.arrivals[p]).any (·.poison)
      match (ts.headD (plainTok .mark)).kind with
      | .data =>
        let arr := ts.zipIdx.foldl (fun (v : Vector (List Token) 4) q =>
          let i : Fin 4 := Fin.ofNat 4 q.2
          setAt v i (v[i] ++ [q.1])) op.arrivals
        .fire { Fired.of k.ports { op with arrivals := arr } with mark := ts.any (·.poison) }
      | .mark =>
        let (op', fl) := k.sumCommit bad op
        let (out, rest) := fullTokens k.fo 0 op'.buf.length op'.buf
        .fire { Fired.of k.ports { op' with buf := rest } with
          outs := toA (out ++ [plainTok .mark]), flags := fl, commit := true }
      | .stop lv =>
        let (op1, fl1) := k.sumCommit bad op
        let closes := k.param 163 3 ≤ lv.toNat
        let (us, fl2) := if closes && k.mode ≠ 3 then k.sumStore bad (k.sumSlots op1) else ([], 0)
        let op2 := if closes then { op1 with slots := [], n := Vector.replicate 6 0 } else op1
        let (out, rest) := fullTokens k.fo 0 (op1.buf ++ us).length (op1.buf ++ us)
        .fire { Fired.of k.ports { op2 with buf := [] } with
          outs := toA (out ++ partTokens k.fo 0 rest ++ [plainTok (.stop lv)]), flags := fl1 ||| fl2, commit := true }
      | .scale => .fire { Fired.of k.ports op with flags := fNv }
      | .abort => .fire (Fired.of k.ports op)

/-- F of R190 on one lane: the terms added in rank order, each addition rounded. -/
def redLane (int : Bool) : List Num → Num × Flags
  | [] => (Num.zero, 0)
  | a :: r => r.foldl (fun acc v =>
      if int then ((addLane acc.1 v).1.wrap32, 0)
      else let (x, f) := addNums acc.1 v; (x, acc.2 ||| f)) (a, (0 : Flags))

/-- The i-th entries of lists. -/
def column {α : Type} (ls : List (List α)) (i : Nat) : List α := ls.filterMap fun l => l[i]?

/-- `sum.red` (R190): one term for each step of the read order. -/
def fireRed (k : CompCfg) (inp : Vector (Option Token) 4) (op : OpState) : Firing :=
  match headsOf inp k.order with
  | .error m => .wait 1 m
  | .ok ts =>
    if !oneClass ts then .fault 0x11
    else
      match (ts.headD (plainTok .mark)).kind with
      | .data =>
        let cols := ts.map k.sumLanes
        let r := (List.range (lanesPer k.fa)).map fun i => redLane k.sumInt (column cols i)
        let (us, fs) := k.sumStore (ts.any (·.poison)) (r.map (·.1))
        let (out, rest) := fullTokens k.fo 0 (op.buf ++ us).length (op.buf ++ us)
        .fire { Fired.of k.ports { op with buf := rest } with outs := toA out, flags := orFlags (r.map (·.2)) ||| fs }
      | .mark => .fire { Fired.of k.ports op with outs := toA [plainTok .mark], commit := true }
      | .stop lv =>
        .fire { Fired.of k.ports { op with buf := [] } with
          outs := toA (partTokens k.fo 0 op.buf ++ [plainTok (.stop lv)]), commit := true }
      | .scale => .fire { Fired.of k.ports op with flags := fNv }
      | .abort => .fire (Fired.of k.ports op)

/-! ### Map (R192 to R195) -/

/-- The function of a code of R72. -/
def mapFnOf (n : Nat) : MapFn :=
  match n with
  | 1 => .relu
  | 2 => .abs
  | 3 => .neg
  | 4 => .exp2
  | 5 => .log2
  | 6 => .rcp
  | 7 => .rsqrt
  | _ => .sqrt

/-- The condition of a code of R192. -/
def condOf (n : Nat) : Cond :=
  match n with
  | 0 => .eq
  | 1 => .lt
  | 2 => .le
  | _ => .un

/-- Lanes of the FP32 domain stored atom by atom into format `f`: a whole payload and its flags. -/
def storePayload (f : Fmt) (v : List Lane) : Frame × Flags :=
  let r := (chunks 4 v).map fun x => storeAtom f x
  (packFrame (atomBits f) (r.map (·.1)), orFlags (r.map (·.2)))

/-- `map.fn`, as `amap` (R163, R193). -/
def mapFnToken (k : CompCfg) (p : Frame) : Frame × Flags :=
  let fn := mapFnOf (k.param 156 16)
  if k.fa = .oi && mapFnInt fn then (packFrame 32 ((tokenInts p).map fun v => (mapIntLane fn v).toNat), 0)
  else
    let (x, fx) := tokenLanes k.fa p
    let v := x.map (mapLane fn)
    let (r, fr) := storePayload k.fo (v.map (·.1))
    (r, fx ||| orFlags (v.map (·.2)) ||| fr)

/-- `map.aff` (R193): X × M + C, one rounding. -/
def mapAffToken (k : CompCfg) (ts : List Token) : Frame × Flags :=
  let pay (i : Nat) : Frame := (ts.getD i (plainTok .mark)).payload
  if k.fa = .oi then
    let x := tokenInts (pay 0)
    let m := if 1 < ts.length then tokenInts (pay 1) else List.replicate 8 (BitVec.ofNat 32 (k.param 120 32))
    let c := if 2 < ts.length then tokenInts (pay 2) else List.replicate 8 (BitVec.ofNat 32 (k.param 88 32))
    (packFrame 32 (((x.zip m).zip c).map fun q => (q.1.1 * q.1.2 + q.2).toNat), 0)
  else
    let n := lanesPer k.fa
    let (x, fx) := tokenLanes k.fa (pay 0)
    let (m, fm) := if 1 < ts.length then tokenLanes k.fa (pay 1)
      else (List.replicate n (Num.ofCode f32 (k.param 120 32)), 0)
    let (c, fc) := if 2 < ts.length then tokenLanes k.fa (pay 2)
      else (List.replicate n (Num.ofCode f32 (k.param 88 32)), 0)
    let v := ((x.zip m).zip c).map fun q => fmaLane q.1.1 q.1.2 q.2
    let (r, fr) := storePayload k.fo (v.map fun q => .num q.1)
    (r, fx ||| fm ||| fc ||| orFlags (v.map (·.2)) ||| fr)

/-- `map.cmp` (R193): a lane whose condition holds is copied, another is zero. -/
def mapCmpToken (k : CompCfg) (ts : List Token) : Frame × Flags :=
  let pay (i : Nat) : Frame := (ts.getD i (plainTok .mark)).payload
  let n := lanesPer k.fa
  let (x, fx) := tokenLanes k.fa (pay 0)
  let (m, fm) := if 1 < ts.length then tokenLanes k.fa (pay 1)
    else (List.replicate n (if k.fa = .oi then Num.int (intLane (k.param 120 32)) else Num.ofCode f32 (k.param 120 32)), 0)
  let r := (x.zip m).map fun q => compare (condOf (k.param 154 2)) q.1 q.2
  let fl := fx ||| fm ||| orFlags (r.map (·.2))
  if k.fa.coded then
    let (p, fp) := storePayload k.fo ((x.zip r).map fun q => .num (if q.2.1 then q.1 else Num.zero))
    (p, fl ||| fp)
  else
    let w := unitBits k.fa
    (packFrame w (r.zipIdx.map fun q => if q.1.1 then bits (pay 0) (w * q.2) w else 0), fl)

/-- `map.rand` (R195): one token from the element index of an index token. -/
def mapRandToken (k : CompCfg) (seed : Word) (p : Frame) : Frame × Flags :=
  let e := bits p 0 64
  let fl := flagIf (bits p 64 192 ≠ 0) fNv
  let u := (List.range (lanesPer k.fo)).map fun i => randw seed (e + i)
  if k.param 152 2 = 1 then (packFrame 32 (u.map BitVec.toNat), fl)
  else (packFrame (unitBits k.fo) (u.map (uniformLane k.fo)), fl)

/-- A Map site (R173, R193, R194), a token for each step of the read order: MARK, STOP and SCALE pass in position; a SCALE of
`map.rand` too. -/
def fireMap (k : CompCfg) (seed : Word) (inp : Vector (Option Token) 4) (op : OpState) : Firing :=
  let p0 := k.port 0
  match inp[p0] with
  | none => .wait 1 [p0]
  | some t =>
    match t.kind with
    | .mark => .fire { Fired.of [p0] op with outs := toA [plainTok .mark], commit := true }
    | .stop lv => .fire { Fired.of [p0] op with outs := toA [plainTok (.stop lv)], commit := true }
    | .scale => .fire { Fired.of [p0] op with outs := toA [{ t with seq := 0 }] }
    | .abort => .fire (Fired.of [p0] op)
    | .data =>
      match headsOf inp k.order with
      | .error m => .wait 1 m
      | .ok ts =>
        let (r, fl) := match k.mode with
          | 0 => mapFnToken k t.payload
          | 1 => mapAffToken k ts
          | 2 => mapCmpToken k ts
          | _ => mapRandToken k seed t.payload
        .fire { Fired.of k.ports op with outs := toA [dataTok r t.scale (ts.any (·.poison))], flags := fl }

/-! ### Quant (R196 to R199) -/

/-- The present parameter is faulty (R197). -/
def quantFaulty (k : CompCfg) (p : Frame) : Bool :=
  if k.mode = 0 then bits p 8 248 ≠ 0 || 110 ≤ scaleInt (BitVec.ofNat 8 (bits p 0 8))
  else bits p 32 224 ≠ 0 || recordFaulty (k.mode = 3) (bits p 0 32)

/-- One atom or lane group converted (R198): output units with flags. -/
def quantToken (k : CompCfg) (par : Frame) (t : Token) : List (Frame × Bool) × Flags :=
  let (x, _) := tokenLanes k.fa t.payload
  if k.mode = 0 then
    if quantFaulty k par then ((chunks 4 x).map fun _ => (BitVec.ofNat 256 (nanAtom .c4), t.poison), fNv)
    else
      let s := scaleInt (BitVec.ofNat 8 (bits par 0 8))
      let r := (chunks 4 x).map fun a => encodeAtom .c4 (a.map (Num.scale (-s)))
      (r.map fun a => (BitVec.ofNat 256 a.1, t.poison), orFlags (r.map (·.2)))
  else if k.mode = 1 then
    let r := (chunks 4 x).map fun a => encodeAtom .c16 a
    (r.map fun a => (BitVec.ofNat 256 a.1, t.poison), orFlags (r.map (·.2)))
  else
    let i4 := k.mode = 3
    let rc := bits par 0 32
    if quantFaulty k par then (x.map fun _ => (0, t.poison), fNv)
    else
      let r := x.map fun v =>
        let (q, fq) := exportLane i4 rc v
        let (c, fc) := storeLane k.fo (.num (importLane i4 rc q))
        (c, fq ||| fc)
      (r.map fun a => (BitVec.ofNat 256 a.1, t.poison), orFlags (r.map (·.2)))

/-- FP32 code of a magnitude. -/
def magCode (v : Num) : BitVec 32 :=
  match v with
  | .nan _ => 0
  | .inf _ => BitVec.ofNat 32 (f32.infCode false)
  | .fin _ m e => BitVec.ofNat 32 (roundTo f32 false false m e false).1

/-- The larger of two codes of values that are not negative. -/
def maxCode (a b : BitVec 32) : BitVec 32 := if a.ult b then b else a

/-- The range of a token folded in (R199): a NaN lane is left out and sets invalid. -/
def quantRange (k : CompCfg) (acc : BitVec 32 × BitVec 32) (t : Token) : (BitVec 32 × BitVec 32) × Flags :=
  let (x, _) := tokenLanes k.fa t.payload
  let r := x.foldl (fun (a : BitVec 32 × BitVec 32) v =>
    if v.isNan then a
    else if k.mode ≤ 1 then (maxCode a.1 (magCode v), a.2)
    else if v.sign = 1 then (maxCode a.1 (magCode v), a.2)
    else if v.sign = -1 then (a.1, maxCode a.2 (magCode v))
    else a) acc
  (r, flagIf (x.any Num.isNan) fNv)

/-- The fold token of a round that held DATA (R199). -/
def quantFold (k : CompCfg) (poison : Bool) (op : OpState) : List (Sel × Token) :=
  if k.param 168 1 = 1 && op.n[(0 : Fin 6)] ≠ 0 then
    [(.b, dataTok (packFrame 32 [op.range.1.toNat, op.range.2.toNat]) 0 poison)]
  else []

/-- The sideband of a Quant's output (R198). -/
def quantScale (k : CompCfg) (op : OpState) : Byte :=
  match k.mode, op.latch with
  | 0, some p => BitVec.ofNat 8 (bits p 0 8)
  | _, _ => 0

/-- A Quant site (R196 to R199). `n 0` counts the round's DATA; `n 1` says that the parameter token was poisoned. -/
def fireQuant (k : CompCfg) (poison : Bool) (inp : Vector (Option Token) 4) (op : OpState) : Firing :=
  let p0 := k.port 0
  let obs := k.param 168 1 = 1
  let closed (o : OpState) : OpState := { o with n := setAt o.n 0 0, range := (0, 0) }
  match inp[p0] with
  | none => .wait 1 [p0]
  | some t =>
    match t.kind with
    | .mark =>
      .fire { Fired.of [p0] (closed op) with
        outs := quantFold k poison op ++ toBoth obs (plainTok .mark), commit := true }
    | .stop lv =>
      let op' := closed { op with buf := [], latch := if k.param 169 3 ≤ lv.toNat then none else op.latch }
      .fire { Fired.of [p0] op' with
        outs := toA (partTokens k.fo (quantScale k op) op.buf) ++ quantFold k poison op ++ toBoth obs (plainTok (.stop lv))
        commit := true }
    | .scale => .fire { Fired.of [p0] op with flags := fNv }
    | .abort => .fire (Fired.of [p0] op)
    | .data =>
      let go (reads : List (Fin 4)) (par : Frame) (parPoison : Bool) (op : OpState) : Firing :=
        let t := { t with poison := t.poison || parPoison || (obs && poison) }
        let (us, fl) := quantToken k par t
        let (rg, fr) := if obs then quantRange k op.range t else (op.range, 0)
        let (out, rest) := fullTokens k.fo (quantScale k op) (op.buf ++ us).length (op.buf ++ us)
        .fire { Fired.of reads { op with buf := rest, range := rg, n := setAt op.n 0 (op.n[(0 : Fin 6)] + 1) } with
          outs := toA out, flags := fl ||| fr, mark := t.poison }
      if k.mode = 1 then go [p0] 0 false op
      else match op.latch with
        | some p => go [p0] p (op.n[(1 : Fin 6)] = 1) op
        | none =>
          match inp[k.port 1] with
          | none => .wait 1 [k.port 1]
          | some u =>
            go [p0, k.port 1] u.payload u.poison
              { op with latch := some u.payload, n := setAt op.n 1 (if u.poison then 1 else 0) }

/-! ### Expand (R200, R201) -/

/-- Group size of an Expand (R200). -/
def CompCfg.group (k : CompCfg) : Nat := 32 * 2 ^ k.param 168 2

/-- Element `i` of a raw token (R142). -/
def rawElement (int4 : Bool) (p : Frame) (i : Nat) : Int :=
  if int4 then elementInt true (bits p (4 * i) 4) else elementInt false (bits p (8 * i) 8)

/-- The group's elements with a STOP in it, completed as +0 (R201), as output units. -/
def expandPad (k : CompCfg) (op : OpState) : List (Frame × Bool) :=
  if op.latch.isNone then []
  else (storeUnits k.fo false (List.replicate (k.group - op.n[(0 : Fin 6)]) Num.zero)).1

/-- An Expand site (R201). In the integer modes `n 0` counts the group's elements, `n 1` those used of the token at
the port, `n 2` says that the record was poisoned; in `xpd.dec`, `n 3` holds the latched scale. -/
def fireExpand (k : CompCfg) (inp : Vector (Option Token) 4) (op : OpState) : Firing :=
  let p0 := k.port 0
  let int := k.mode = 1 || k.mode = 2
  let i4 := k.mode = 2
  match inp[p0] with
  | none => .wait 1 [p0]
  | some t =>
    match t.kind with
    | .mark => .fire { Fired.of [p0] op with outs := toA [plainTok .mark], commit := true }
    | .stop lv =>
      let b := op.buf ++ (if int then expandPad k op else [])
      let (out, rest) := fullTokens k.fo 0 b.length b
      .fire { Fired.of [p0] { op with buf := [], latch := none, n := setAt (setAt op.n 0 0) 1 0 } with
        outs := toA (out ++ partTokens k.fo 0 rest ++ [plainTok (.stop lv)]), commit := true }
    | .scale => .fire (Fired.of [p0] { op with n := setAt op.n 3 (bits t.payload 0 8) })
    | .abort => .fire (Fired.of [p0] op)
    | .data =>
      if int then
        match op.latch with
        | none =>
          match inp[k.port 1] with
          | none => .wait 1 [k.port 1]
          | some u =>
            .fire (Fired.of [k.port 1]
              { op with latch := some u.payload, n := setAt (setAt op.n 0 0) 2 (if u.poison then 1 else 0) })
        | some par =>
          let per := if i4 then 64 else 32
          let used := op.n[(1 : Fin 6)]
          let m := min (per - used) (k.group - op.n[(0 : Fin 6)])
          let rc := bits par 0 32
          let v := (List.range m).map fun i => importLane i4 rc (rawElement i4 t.payload (used + i))
          let (us, fl) := storeUnits k.fo (t.poison || op.n[(2 : Fin 6)] = 1) v
          let (out, rest) := fullTokens k.fo 0 (op.buf ++ us).length (op.buf ++ us)
          let pos := op.n[(0 : Fin 6)] + m
          let ends := pos = k.group
          let op' := { op with
            buf := rest
            latch := if ends then none else some par
            n := setAt (setAt op.n 0 (if ends then 0 else pos)) 1 (if used + m = per then 0 else used + m) }
          .fire { Fired.of (if used + m = per then [p0] else []) op' with
            outs := toA out, flags := fl ||| flagIf (recordFaulty i4 rc) fNv }
      else if k.mode = 3 && k.fmtA = k.fmtO then .fire { Fired.of [p0] op with outs := toA [dataTok t.payload 0 t.poison] }
      else
        let s := if k.mode = 0 then scaleInt (scaleFor (k.param 170 2) t op.n[(3 : Fin 6)]) else 0
        let (v, fv) := tokenLanes k.fa t.payload s
        let (us, fl) := storeUnits k.fo t.poison v
        let (out, rest) := fullTokens k.fo 0 (op.buf ++ us).length (op.buf ++ us)
        .fire { Fired.of [p0] { op with buf := rest } with outs := toA out, flags := fv ||| fl }

/-! ### Fly (R202, R203) -/

/-- Stages of a Fly. -/
def CompCfg.stages (k : CompCfg) : Nat := k.param 169 3

/-- One stage at distance `d` (R203). -/
def flyStage (d : Nat) (x : List Nat) : List Nat × Flags :=
  let r := (List.range x.length).map fun j =>
    if j / d % 2 = 0 then add32 (x.getD j 0) (x.getD (j + d) 0)
    else addNum f32 (Num.ofCode f32 (x.getD (j - d) 0)) (Num.ofCode f32 (x.getD j 0)).neg
  (r.map (·.1), orFlags (r.map (·.2)))

/-- The stages from distance `d` on. -/
def flyStages : Nat → Nat → List Nat → List Nat × Flags
  | 0, _, x => (x, 0)
  | n + 1, d, x =>
    let (y, f) := flyStage d x
    let (z, g) := flyStages n (2 * d) y
    (z, f ||| g)

/-- FLY of one block of FP32 codes (R203): output codes in fmt_o and flags. -/
def flyBlock (k : CompCfg) (x : List Nat) : List Nat × Flags :=
  let x := if k.mode = 1 then
      x.zipIdx.map fun q => if k.param (33 + q.2) 1 = 1 then (q.1 + 2 ^ 31) % 2 ^ 32 else q.1
    else x
  let (y, f) := flyStages k.stages 1 x
  let r := y.map fun c => storeLane k.fo (.num (Num.scale (signed 8 (k.param 161 8)) (Num.ofCode f32 c)))
  (r.map (·.1), f ||| orFlags (r.map (·.2)))

/-- All whole blocks of a buffer of lanes: output units, what stays, flags. -/
def flyBlocks (k : CompCfg) : Nat → List (Frame × Bool) → List (Frame × Bool) × List (Frame × Bool) × Flags
  | 0, b => ([], b, 0)
  | n + 1, b =>
    let N := 2 ^ k.stages
    if N ≤ b.length then
      let blk := b.take N
      let (y, f) := flyBlock k (blk.map (·.1.toNat))
      let bad := blk.any (·.2)
      let (us, rest, g) := flyBlocks k n (b.drop N)
      ((y.map fun c => (BitVec.ofNat 256 c, bad)) ++ us, rest, f ||| g)
    else ([], b, 0)

/-- A Fly site (R203): `buf2` holds the lanes of the open block as FP32 codes. -/
def fireFly (k : CompCfg) (inp : Vector (Option Token) 4) (op : OpState) : Firing :=
  let p0 := k.port 0
  match inp[p0] with
  | none => .wait 1 [p0]
  | some t =>
    match t.kind with
    | .mark => .fire { Fired.of [p0] op with outs := toA [plainTok .mark], commit := true }
    | .stop lv =>
      let N := 2 ^ k.stages
      let b := if op.buf2.isEmpty then [] else padTo N (0, false) op.buf2
      let (us, _, fl) := flyBlocks k 1 b
      let (out, rest) := fullTokens k.fo 0 (op.buf ++ us).length (op.buf ++ us)
      .fire { Fired.of [p0] { op with buf := [], buf2 := [] } with
        outs := toA (out ++ partTokens k.fo 0 rest ++ [plainTok (.stop lv)]), flags := fl, commit := true }
    | .scale => .fire { Fired.of [p0] op with flags := fNv }
    | .abort => .fire (Fired.of [p0] op)
    | .data =>
      let (x, _) := tokenLanes k.fa t.payload
      let r := x.map fun v => v.round f32 false
      let b := op.buf2 ++ r.map fun c => (BitVec.ofNat 256 c.1, t.poison)
      let (us, rest2, fl) := flyBlocks k b.length b
      let (out, rest) := fullTokens k.fo 0 (op.buf ++ us).length (op.buf ++ us)
      .fire { Fired.of [p0] { op with buf := rest, buf2 := rest2 } with
        outs := toA out, flags := fl ||| orFlags (r.map (·.2)) }

end Sys2Proof.Machine
end

