-- ==== Sys2Proof/Machine/ControlSites.lean ====
section
/-! DEFINITION. The control kinds of compute site: Steer, Compact, Merge, Delay, Turn, Join (R370 to R382), and which
kind a site's frame names. -/

namespace Sys2Proof.Machine

open Sys2Proof

/-! ### Route tokens (R371) -/

/-- Route bits that one token holds. -/
def routeRoom : Nat := 248

/-- A route token of pending bits; it is poisoned when a token behind one of them was (R459). -/
def routeTok (bs : List (BitVec 32)) (bad : Bool) : Token :=
  dataTok (BitVec.ofNat 256 (bs.length * 2 ^ routeRoom + packLanes 1 (bs.map BitVec.toNat))) 0 bad

/-- The pending bits as a route token, if there are any. -/
def routeOuts (op : OpState) : List (Sel × Token) :=
  if op.bits.isEmpty then [] else [(.r, routeTok op.bits (op.bitsBad.any id))]

/-- `n` pending bits or entries leave. -/
def OpState.dropBits (op : OpState) (n : Nat) : OpState := { op with bits := op.bits.drop n, bitsBad := op.bitsBad.drop n }

/-- Bits or entries come in, with the poison of what they were made from. -/
def OpState.addBits (op : OpState) (bs : List (BitVec 32)) (bad : Bool) : OpState :=
  { op with bits := op.bits ++ bs, bitsBad := op.bitsBad ++ bs.map fun _ => bad }

/-- Pending bits leave on rport when it has space. -/
def routeFiring (op : OpState) : Firing := .fire { Fired.of [] (op.dropBits op.bits.length) with outs := routeOuts op }

/-- The route bits of a token, none when it is malformed (R375). -/
def routeBits (p : Frame) : Option (List (BitVec 32)) :=
  let n := bits p 248 8
  if n = 0 || routeRoom < n || bits p n (routeRoom - n) ≠ 0 then none
  else some ((List.range n).map fun i => BitVec.ofNat 32 (bits p i 1))

/-! ### Steer (R370, R371) -/

/-- A control token on both arms and, where there is a rport, behind the pending bits there. -/
def steerAll (k : CompCfg) (op : OpState) (t : Token) : List (Sel × Token) :=
  [(.a, t), (.b, t)] ++ (if k.rport.isSome then routeOuts op ++ [(.r, t)] else [])

/-- A DATA token routed by a predicate, with its route bit. -/
def steerData (k : CompCfg) (reads : List (Fin 4)) (op : OpState) (t : Token) (yes : Bool) : Firing :=
  let op' := if k.rport.isSome then op.addBits [if yes then 0 else 1] t.poison else op.dropBits op.bits.length
  .fire { Fired.of reads op' with outs := [(if yes then .a else .b, t)] }

/-- A Steer (R371). In `steer.stop`, `n 0` is 0 before the predicate of the segment, else 1 for true and 2 for false. -/
def fireSteer (k : CompCfg) (rfree : Bool) (inp : Vector (Option Token) 4) (op : OpState) : Firing :=
  let p0 := k.port 0
  let p1 := k.port 1
  let test := predTest (k.param 167 2)
  if !op.bits.isEmpty && rfree then routeFiring op
  else match inp[p0] with
  | none => .wait 1 [p0]
  | some t =>
    match t.kind with
    | .scale => .fire { Fired.of [p0] op with outs := toBoth true t }
    | .abort => .fire (Fired.of [p0] op)
    | .data =>
      if routeRoom ≤ op.bits.length then .wait 2 k.rport.toList
      else if k.mode = 1 && op.n[(0 : Fin 6)] ≠ 0 then steerData k [p0] op t (op.n[(0 : Fin 6)] = 1)
      else
        match inp[p1] with
        | none => .wait 1 [p1]
        | some u =>
          if u.kind ≠ .data then .fault 0x11
          else if u.poison then .fault 0x21
          else
            let yes := test u.payload
            let op' := if k.mode = 1 then { op with n := setAt op.n 0 (if yes then 1 else 2) } else op
            steerData k [p0, p1] op' t yes
    | .mark => closing t p0 p1
    | .stop _ => closing t p0 p1
where
  /-- A MARK or STOP, which in `steer.pred` stands on both ports. -/
  closing (t : Token) (p0 p1 : Fin 4) : Firing :=
    let ends := match t.kind with
      | .stop lv => k.param 164 3 ≤ lv.toNat
      | _ => false
    let op' := { op.dropBits op.bits.length with n := if k.mode = 1 && ends then setAt op.n 0 0 else op.n }
    if k.mode = 1 then
      .fire { Fired.of [p0] op' with outs := steerAll k op (plainTok t.kind), commit := true }
    else match inp[p1] with
      | none => .wait 1 [p1]
      | some u =>
        if u.kind = t.kind then
          .fire { Fired.of [p0, p1] op' with outs := steerAll k op (plainTok t.kind), commit := true }
        else .fault 0x11

/-! ### Compact (R372, R373) -/

/-- An index entry. -/
def indexEntry (kind : Nat) (idx : Nat) : BitVec 32 := BitVec.ofNat 32 (kind * 2 ^ 30 + idx % 2 ^ 30)

/-- An index token of at most eight entries, filled with entries of kind 3. -/
def indexTok (es : List (BitVec 32)) (bad : Bool) : Token :=
  dataTok (packFrame 32 ((padTo 8 (indexEntry 3 0) es).map BitVec.toNat)) 0 bad

/-- All entries as index tokens, each with the poison of its own (R459). -/
def indexToks (es : List (BitVec 32)) (bad : List Bool) : List Token :=
  (chunks 8 es).zipIdx.map fun q => indexTok q.1 (((bad.drop (8 * q.2)).take 8).any id)

/-- A token of whole atoms, completed with zero atoms. -/
def packAtoms (f : Fmt) (as : List (Frame × Bool)) : Token :=
  dataTok (packFrame (atomBits f) (as.map (·.1.toNat))) 0 (as.any (·.2))

/-- The whole token at the head of a buffer of atoms, if there is one, and what stays. -/
def denseFull (f : Fmt) (b : List (Frame × Bool)) : List Token × List (Frame × Bool) :=
  if atomsPer f ≤ b.length then ([packAtoms f (b.take (atomsPer f))], b.drop (atomsPer f)) else ([], b)

/-- A partial token completed, if there is one. -/
def densePart (f : Fmt) (b : List (Frame × Bool)) : List Token := if b.isEmpty then [] else [packAtoms f b]

/-- A Compact (R373). `n 0` is the record index; `buf` and `buf2` hold the atoms of the two arms. -/
def fireCompact (k : CompCfg) (rfree : Bool) (inp : Vector (Option Token) 4) (op : OpState) : Firing :=
  let p0 := k.port 0
  let p1 := k.port 1
  if !op.bits.isEmpty && rfree then
    .fire { Fired.of [] (op.dropBits 8) with outs := [(.r, indexTok (op.bits.take 8) ((op.bitsBad.take 8).any id))] }
  else match headsOf inp [p0, p1] with
  | .error m => .wait 1 m
  | .ok ts =>
    let t := ts.headD (plainTok .mark)
    let u := (ts.drop 1).headD (plainTok .mark)
    if !oneClass ts then .fault 0x11
    else match t.kind with
      | .data =>
        if u.poison then .fault 0x21
        else if 8 ≤ op.bits.length then .wait 2 k.rport.toList
        else if k.mode = 1 then
          let yes := predTest (k.param 167 2) u.payload
          let e := indexEntry (if yes then 0 else 1) op.n[(0 : Fin 6)]
          .fire { Fired.of [p0, p1] { op.addBits [e] t.poison with n := setAt op.n 0 (op.n[(0 : Fin 6)] + 1) } with
            outs := [(if yes then .a else .b, t)] }
        else
          let per := atomsPer k.fa
          let recs := (atomsOf k.fa t.payload).zipIdx.map fun q => (q.1, q.2, decide (bits u.payload q.2 1 = 1))
          let es := recs.map fun r => indexEntry (if r.2.2 then 0 else 1) (op.n[(0 : Fin 6)] + r.2.1)
          let pick (yes : Bool) := (recs.filter fun r => r.2.2 = yes).map fun r => (BitVec.ofNat 256 r.1, t.poison)
          let (oa, ra) := denseFull k.fa (op.buf ++ pick true)
          let (ob, rb) := denseFull k.fa (op.buf2 ++ pick false)
          let op' := { op.addBits es t.poison with buf := ra, buf2 := rb, n := setAt op.n 0 (op.n[(0 : Fin 6)] + per) }
          .fire { Fired.of [p0, p1] op' with
            outs := toA oa ++ ob.map fun x => (.b, x)
            flags := flagIf (bits u.payload per (256 - per) ≠ 0) fNv }
      | .mark =>
        .fire { Fired.of [p0, p1] (op.dropBits op.bits.length) with
          outs := toBoth true (plainTok .mark) ++ (indexToks op.bits op.bitsBad ++ [plainTok .mark]).map fun x => (.r, x)
          commit := true }
      | .stop lv =>
        let es := op.bits ++ [indexEntry 2 op.n[(0 : Fin 6)]]
        let stop := plainTok (.stop lv)
        .fire { Fired.of [p0, p1] { op.dropBits op.bits.length with buf := [], buf2 := [], n := setAt op.n 0 0 } with
          outs := toA (densePart k.fa op.buf ++ [stop]) ++ (densePart k.fa op.buf2 ++ [stop]).map (fun x => (.b, x)) ++
            (indexToks es op.bitsBad ++ [stop]).map fun x => (.r, x)
          commit := true }
      | .scale => .fire { Fired.of [p0, p1] op with flags := fNv }
      | .abort => .fire (Fired.of [p0, p1] op)

/-! ### Merge (R374 to R377) -/

/-- Tokens of one class at the read ports are read and one is sent (R375). -/
def mergeClass (ps : List (Fin 4)) (inp : Vector (Option Token) 4) (op : OpState) (outs : Token → List (Sel × Token)) :
    Firing :=
  match headsOf inp ps with
  | .error m => .wait 1 m
  | .ok ts =>
    if oneClass ts then
      .fire { Fired.of ps op with outs := outs (plainTok (ts.headD (plainTok .mark)).kind), commit := true }
    else .fault 0x11

/-- `mrg.route` (R375). -/
def fireRoute (k : CompCfg) (inp : Vector (Option Token) 4) (op : OpState) : Firing :=
  match op.bits with
  | b :: r =>
    let arm := k.port (if b = 0 then 1 else 2)
    match inp[arm] with
    | none => .wait 3 [arm]
    | some t => if t.kind = .data then .fire { Fired.of [arm] { op with bits := r } with outs := [(.a, t)] } else .fault 0x11
  | [] =>
    match inp[k.port 0] with
    | none => .wait 1 [k.port 0]
    | some t =>
      if t.kind = .data then
        if t.poison then .fault 0x21
        else match routeBits t.payload with
          | none => .fault 0x11
          | some bs => .fire (Fired.of [k.port 0] { op with bits := bs })
      else mergeClass [k.port 0, k.port 1, k.port 2] inp op fun x => [(.a, x)]

/-- One record sent on the output of a `mrg.idx`: a whole token, or an atom packed with those before it. -/
def idxEmit (k : CompCfg) (token : Bool) (f : Fired) (t : Token) (a : Frame) (poison : Bool) : Firing :=
  if token then .fire { f with outs := [(.a, { t with poison := poison })] }
  else
    let (out, rest) := denseFull k.fa (f.op.buf ++ [(a, poison)])
    .fire { f with op := { f.op with buf := rest }, outs := toA out }

/-- A zero record at position pos: pos moves on. -/
def idxZero (k : CompCfg) (op : OpState) : Firing :=
  idxEmit k (k.param 168 1 = 1) (Fired.of [] { op with n := setAt op.n 0 (op.n[(0 : Fin 6)] + 1) }) (dataTok 0 0 false) 0 false

/-- The next record of an arm taken: `keep` gives the firing that follows from its atom and token. -/
def idxTake (k : CompCfg) (second : Bool) (inp : Vector (Option Token) 4) (op : OpState)
    (use : Fired → Token → Frame → Firing) : Firing :=
  let arm := k.port (if second then 2 else 1)
  let at' : Fin 6 := if second then 2 else 1
  match inp[arm] with
  | none => .wait 3 [arm]
  | some t =>
    if t.kind ≠ .data then .fault 0x11
    else if k.param 168 1 = 1 then use (Fired.of [arm] op) t 0
    else
      let i := op.n[at']
      let last := atomsPer k.fa ≤ i + 1
      let a := BitVec.ofNat 256 ((atomsOf k.fa t.payload).getD i 0)
      use (Fired.of (if last then [arm] else []) { op with n := setAt op.n at' (if last then 0 else i + 1) }) t a

/-- The STOP that ends a segment: what is left of the arms' tokens is discarded first (R376). -/
def idxStop (k : CompCfg) (inp : Vector (Option Token) 4) (op : OpState) (flags : Flags) : Firing :=
  if op.n[(1 : Fin 6)] ≠ 0 then .fire (Fired.of [k.port 1] { op with n := setAt op.n 1 0 })
  else if op.n[(2 : Fin 6)] ≠ 0 then .fire (Fired.of [k.port 2] { op with n := setAt op.n 2 0 })
  else match headsOf inp k.ports with
    | .error m => .wait 1 m
    | .ok ts =>
      match (ts.headD (plainTok .mark)).kind with
      | .stop lv =>
        if oneClass ts then
          .fire { Fired.of k.ports { op with bits := op.bits.drop 1, buf := [], n := setAt op.n 0 0 } with
            outs := toA (densePart k.fa op.buf ++ [plainTok (.stop lv)]), flags := flags, commit := true }
        else .fault 0x11
      | _ => .fault 0x11

/-- A MARK of a `mrg.idx` (R375, R376): an arm whose MARK has been passed already does not read one. -/
def idxMark (k : CompCfg) (inp : Vector (Option Token) 4) (op : OpState) : Firing :=
  let passed (i : Nat) : Nat := op.n[Fin.ofNat 6 (i + 2)]
  let steps := List.range k.order.length
  let reads := (steps.filter fun i => i = 0 || passed i = 0).map k.port
  let n := (steps.filter fun i => i ≠ 0 && passed i ≠ 0).foldl (fun v i =>
    let x : Fin 6 := Fin.ofNat 6 (i + 2)
    setAt v x (v[x] - 1)) op.n
  mergeClass reads inp { op with n := n } fun x => [(.a, x)]

/-- An entry calls for an atom of an arm whose head is a MARK: the dense token that holds the atom follows (R373), and the
MARK is passed, so that the records of the segment are still delivered in order (R386; log 85). -/
def idxPass (k : CompCfg) (second : Bool) (inp : Vector (Option Token) 4) (op : OpState) : Option Firing :=
  let arm := k.port (if second then 2 else 1)
  let x : Fin 6 := if second then 4 else 3
  match inp[arm] with
  | some t =>
    if t.kind = .mark && k.param 168 1 = 0 then some (.fire (Fired.of [arm] { op with n := setAt op.n x (op.n[x] + 1) }))
    else none
  | none => none

/-- `mrg.idx` (R376). `n 0` is pos; `n 1` and `n 2` count the atoms taken of the arms' tokens, `n 3` and `n 4` the MARKs
passed on the arms. A record of an arm that the frame does not name is a zero record (log 28). -/
def fireIdx (k : CompCfg) (inp : Vector (Option Token) 4) (op : OpState) : Firing :=
  let token := k.param 168 1 = 1
  let pos := op.n[(0 : Fin 6)]
  match op.bits with
  | e :: r =>
    let kind := e.toNat / 2 ^ 30
    let idx := e.toNat % 2 ^ 30
    if kind = 3 then .fire (Fired.of [] { op with bits := r })
    else if kind = 2 then
      if pos < idx then idxZero k op else idxStop k inp op (flagIf (idx < pos) fNv)
    else if pos < idx then idxZero k op
    else if kind = 1 && k.order.length < 3 then
      if idx < pos then .fire { Fired.of [] { op with bits := r } with flags := fNv }
      else idxZero k { op with bits := r }
    else (idxPass k (kind = 1) inp op).getD <| idxTake k (kind = 1) inp { op with bits := r } fun f t a =>
      if idx < pos then .fire { f with flags := fNv }
      else idxEmit k token { f with op := { f.op with n := setAt f.op.n 0 (pos + 1) } } t a t.poison
  | [] =>
    match inp[k.port 0] with
    | none => .wait 1 [k.port 0]
    | some t =>
      match t.kind with
      | .data =>
        if t.poison then .fault 0x21
        else .fire (Fired.of [k.port 0] { op with bits := tokenInts t.payload })
      | .stop _ => idxStop k inp op 0
      | _ => idxMark k inp op

/-- `mrg.ord` (R377). A route bit comes of both keys that were compared, and of their poison (R459); the token keeps its own
bit (R458). -/
def fireOrd (k : CompCfg) (rfree : Bool) (inp : Vector (Option Token) 4) (op : OpState) : Firing :=
  let pa := k.port 0
  let pb := k.port 1
  let key (t : Token) : Nat := bits t.payload 0 64
  let send (p : Fin 4) (t : Token) (b : BitVec 32) (bad : Bool) : Firing :=
    if routeRoom ≤ op.bits.length then .wait 2 k.rport.toList
    else
      .fire { Fired.of [p] (if k.rport.isSome then op.addBits [b] bad else op.dropBits op.bits.length) with outs := [(.a, t)] }
  if !op.bits.isEmpty && rfree then routeFiring op
  else match inp[pa], inp[pb] with
    | some t, some u =>
      if t.kind = .data && u.kind = .data then 
        (let bad := t.poison || u.poison
        if key u < key t then send pb u 1 bad else send pa t 0 bad)
      else if t.kind = .data then send pa t 0 t.poison
      else if u.kind = .data then send pb u 1 u.poison
      else mergeClass [pa, pb] inp (op.dropBits op.bits.length) fun x =>
        [(.a, x)] ++ (if k.rport.isSome then routeOuts op ++ [(.r, x)] else [])
    | none, none => .wait 1 [pa, pb]
    | none, some _ => .wait 1 [pa]
    | some _, none => .wait 1 [pb]

/-! ### Delay (R378 to R380) -/

/-- `dly.fifo` (R379): a token that has waited its cycles leaves, else one enters while there is room. -/
def fireFifo (k : CompCfg) (now : Nat) (afree : Bool) (inp : Vector (Option Token) 4) (op : OpState) : Firing :=
  let p0 := k.port 0
  let depth := k.param 163 9 + 1
  let lat := k.param 153 10
  let ready := match op.stamps with
    | w :: _ => w + lat ≤ now
    | [] => false
  let leave : Firing :=
    .fire { Fired.of [] { op with store := op.store.drop 1, stamps := op.stamps.drop 1 } with
      outs := toA (op.store.take 1)
      commit := match op.store with
        | t :: _ => t.kind ≠ .data
        | [] => false }
  if ready && afree then leave
  else match inp[p0] with
    | some t =>
      if op.store.length < depth then
        .fire (Fired.of [p0] { op with store := op.store ++ [t], stamps := op.stamps ++ [now] })
      else if ready then leave else .wait 2 (maskDirs k.outA)
    | none => if ready then leave else .wait 1 [p0]

/-- Vectors of a round of a `dly.rec`. -/
def CompCfg.recRound (k : CompCfg) : Nat := k.param 138 10 + 1

/-- The token of a vector passes; at the vector's end a MARK follows when the round is full. -/
def recPass (k : CompCfg) (p : Fin 4) (op : OpState) (t : Token) (next : OpState → OpState) : Firing :=
  let nv := k.param 151 2 + 1
  let i := op.n[(1 : Fin 6)] + 1
  if i < nv then .fire { Fired.of [p] { op with n := setAt op.n 1 i } with outs := [(.a, t)], mark := t.poison }
  else
    let v := op.n[(3 : Fin 6)] + 1
    let full := k.recRound ≤ v
    let op' := { op with n := setAt (setAt op.n 1 0) 3 (if full then 0 else v) }
    .fire { Fired.of [p] (next op') with
      outs := [(.a, t)] ++ (if full then [(.a, plainTok .mark)] else []), commit := full, mark := t.poison }

/-- `dly.rec` (R380). `n 0` is the phase: 0 header, 1 preload, 2 feedback, 3 last vector, 4 end, 5 the Dot's STOP;
`n 1` counts the tokens of the vector, `n 2` is t, `n 3` the vectors of the round, `n 4` is T. -/
def fireRec (k : CompCfg) (inp : Vector (Option Token) 4) (op : OpState) : Firing :=
  let p0 := k.port 0
  let p1 := k.port 1
  let nv := k.param 151 2 + 1
  let phase (n : Nat) (o : OpState) : OpState := { o with n := setAt o.n 0 n }
  let on (p : Fin 4) (use : Token → Firing) : Firing :=
    match inp[p] with
    | none => .wait 1 [p]
    | some t => use t
  let after (o : OpState) : OpState :=
    let t := o.n[(2 : Fin 6)] + 1
    phase (if t < o.n[(4 : Fin 6)] then 2 else 3) { o with n := setAt o.n 2 t }
  match op.n[(0 : Fin 6)] with
  | 0 => on p1 fun t =>
    let T := bits t.payload 0 32
    .fire { Fired.of [p1] (phase 1 { op with n := setAt (setAt (setAt op.n 1 0) 2 0) 4 (max T 1) }) with
      flags := flagIf (T = 0) fNv, mark := t.poison }
  | 1 => on p1 fun t => recPass k p1 op t after
  | 2 => on p0 fun t => if t.kind = .data then recPass k p0 op t after else .fault 0x11
  | 3 => on p0 fun t =>
    if t.kind ≠ .data then .fault 0x11
    else
      let i := op.n[(1 : Fin 6)] + 1
      .fire { Fired.of [p0] (if i < nv then { op with n := setAt op.n 1 i } else phase 4 { op with n := setAt op.n 1 0 }) with
        mark := t.poison }
  | 4 =>
    .fire { Fired.of [] (phase 5 { op with n := setAt op.n 3 0 }) with
      outs := toA ((if op.n[(3 : Fin 6)] = 0 then [] else [plainTok .mark]) ++
        [plainTok (.stop (BitVec.ofNat 3 (k.param 148 3)))])
      commit := true }
  | _ => on p0 fun t =>
    match t.kind with
    | .stop _ => .fire (Fired.of [p0] (phase 0 op))
    | _ => .fault 0x11

/-! ### Turn (R381) -/

/-- The tokens of a block in the order (j, i) (R381). -/
def turned (n : Nat) (ts : List Token) : List Token :=
  ((List.range n).map fun j => (List.range n).map fun i => ts.getD (i * n + j) (dataTok 0 0 false)).flatten

/-- `turn.blk` (R381): while it emits a block it reads nothing. -/
def fireTurn (k : CompCfg) (busy : Bool) (inp : Vector (Option Token) 4) (op : OpState) : Firing :=
  let p0 := k.port 0
  let n := k.param 167 5 + 1
  if busy then .wait 2 (maskDirs k.outA)
  else match inp[p0] with
  | none => .wait 1 [p0]
  | some t =>
    match t.kind with
    | .data =>
      let b := op.store ++ [t]
      if n * n ≤ b.length then
        .fire { Fired.of [p0] { op with store := [] } with outs := toA (turned n b ++ [plainTok .mark]), commit := true }
      else .fire (Fired.of [p0] { op with store := b })
    | .stop lv =>
      let blk := if op.store.isEmpty then [] else turned n op.store ++ [plainTok .mark]
      .fire { Fired.of [p0] { op with store := [] } with outs := toA (blk ++ [plainTok (.stop lv)]), commit := true }
    | _ => .fire (Fired.of [p0] op)

/-! ### Join (R382) -/

/-- `join.all` (R382): `n p` counts the DATA tokens of port `p` in the round. -/
def fireJoinAll (k : CompCfg) (inp : Vector (Option Token) 4) (op : OpState) : Firing :=
  let isData (p : Fin 4) : Bool := match inp[p] with
    | some t => t.kind = .data
    | none => false
  let dataPorts := k.ports.filter isData
  if !dataPorts.isEmpty then
    if dataPorts.any (fun p => match inp[p] with
        | some t => t.poison
        | none => false) then .fault 0x21
    else .fire (Fired.of dataPorts
      { op with n := dataPorts.foldl (fun v p => let i : Fin 6 := Fin.ofNat 6 p.val; setAt v i (v[i] + 1)) op.n })
  else match headsOf inp k.ports with
    | .error m => .wait 1 m
    | .ok ts =>
      if !oneClass ts then .fault 0x11
      else
        let counts := k.ports.map fun p => op.n[Fin.ofNat 6 p.val]
        let least := counts.foldl min (counts.headD 0)
        .fire { Fired.of k.ports { op with n := Vector.replicate 6 0 } with
          outs := toA (List.replicate least (dataTok 0 0 false) ++ [plainTok (ts.headD (plainTok .mark)).kind])
          flags := flagIf (counts.any (· ≠ least)) fNv
          commit := true }

/-- `join.pred` (R382): the last DATA token of the round gives the region's predicate at the commit. -/
def fireJoinPred (k : CompCfg) (inp : Vector (Option Token) 4) (op : OpState) : Firing :=
  let p0 := k.port 0
  match inp[p0] with
  | none => .wait 1 [p0]
  | some t =>
    match t.kind with
    | .data => .fire { Fired.of [p0] { op with latch := some t.payload } with outs := toA [t], mark := t.poison }
    | .scale => .fire { Fired.of [p0] op with flags := fNv }
    | .abort => .fire (Fired.of [p0] op)
    | _ =>
      .fire { Fired.of [p0] { op with latch := none } with
        outs := toA [plainTok t.kind]
        commit := true
        pred := op.latch.map (predTest (k.param 170 2)) }

/-! ### The operator of a site -/

/-- What a firing sees of its site beside the operands: the region's seed, the time, whether the outputs have space,
whether a firing before it still has outputs to send, the mark of R459. -/
structure FireEnv where
  seed : Word
  now : Nat
  afree : Bool
  rfree : Bool
  busy : Bool
  poison : Bool
  deriving DecidableEq, Repr

/-- What the operator of a site can do (R79, R81): one case for each kind. -/
def fireOp (k : CompCfg) (e : FireEnv) (inp : Vector (Option Token) 4) (op : OpState) : Firing :=
  match k.kind with
  | 1 => fireDot k e.poison inp op
  | 2 => if k.mode = 4 then fireRed k inp op else fireSum k e.poison inp op
  | 3 => fireMap k e.seed inp op
  | 4 => fireQuant k e.poison inp op
  | 5 => fireExpand k inp op
  | 6 => fireFly k inp op
  | 7 => fireSteer k e.rfree inp op
  | 8 =>
    match k.mode with
    | 0 => fireRoute k inp op
    | 1 => fireIdx k inp op
    | _ => fireOrd k e.rfree inp op
  | 9 => fireCompact k e.rfree inp op
  | 10 => if k.mode = 0 then fireFifo k e.now e.afree inp op else fireRec k inp op
  | 11 => fireTurn k e.busy inp op
  | 12 => if k.mode = 0 then fireJoinAll k inp op else fireJoinPred k inp op
  | _ => .wait 1 []

end Sys2Proof.Machine
end

