-- ==== Sys2Proof/Machine/Handles.lean ====
section
/-! DEFINITION. Handles and the streams behind them (R305 to R318), with L1 binds (R272, R438). -/

namespace Sys2Proof.Machine

open Sys2Proof

/-! ### Handles of a core -/

/-- The handle of a number. -/
def Pump.handle (p : Pump) (h : BitVec 6) : Option Handle := p.handles[h.toFin]

/-- Replace a handle. -/
def Pump.setHandle (p : Pump) (h : BitVec 6) (x : Option Handle) : Pump := { p with handles := setAt p.handles h.toFin x }

/-- Change a handle that is set. -/
def State.modHandle (s : State) (c : CoreId) (h : BitVec 6) (f : Handle → Handle) : State :=
  s.modPump c fun p => p.setHandle h ((p.handle h).map f)

/-- Change the stream of a handle. -/
def State.modStream (s : State) (c : CoreId) (h : BitVec 6) (f : Stream → Stream) : State :=
  s.modHandle c h fun x => { x with stream := x.stream.map f }

/-- The stream of a handle. -/
def Pump.streamOf (p : Pump) (h : BitVec 6) : Option Stream := (p.handle h).bind (·.stream)

/-- The handle whose ring this handle uses: the source's for a joined one (R312). -/
def Pump.ring (p : Pump) (h : BitVec 6) : Option Handle :=
  match p.handle h with
  | some x =>
    match x.joined with
    | some r => p.handle r
    | none => some x
  | none => none

/-- F of a handle: shared by joined consumers (R306, R312). -/
def Pump.fillOf (p : Pump) (h : BitVec 6) : Nat :=
  match p.ring h with
  | some r => r.fill
  | none => 0

/-- A stream has been bound to the handle, its own or its ring's (R307, R312). -/
def Pump.bound (p : Pump) (h : BitVec 6) : Bool :=
  match p.handle h with
  | some x => x.stream.isSome || x.joined.isSome
  | none => false

/-- The stream that fills or drains the ring of a handle. -/
def Pump.ringStream (p : Pump) (h : BitVec 6) : Option Stream := (p.ring h).bind (·.stream)

/-- An unended stream. -/
def liveStream (t : Option Stream) : Bool :=
  match t with
  | some x => !x.ended
  | none => false

/-- Cistern offset of slot `k` (R306). -/
def Handle.slotAt (x : Handle) (k : Nat) : Nat := x.base + k % x.slots * x.size

/-! ### hset (R305, R312) -/

/-- The ring that a new input handle joins: an `.in` handle of equal base, count and size that holds a live stream of
kind 1 or 4 (R312). -/
def Pump.joinable (p : Pump) (h : BitVec 6) (base n size : Nat) : Option (BitVec 6) :=
  ((fins 64).map fun i => BitVec.ofNat 6 i.val).find? fun r =>
    r ≠ h &&
      match p.handle r with
      | some x => !x.out && x.base = base && x.slots = n && x.size = size && x.joined.isNone && liveStream x.stream
      | none => false

/-- Joined handles of a ring that is set anew keep what the ring gave them (R312). -/
def Pump.unjoin (p : Pump) (h : BitVec 6) : Pump :=
  { p with handles := mapVec (fun o => o.map fun x =>
      if x.joined = some h then
        { x with joined := none, fill := p.fillOf h, stream := if x.stream.isSome then x.stream else p.streamOf h }
      else x) p.handles }

/-- `hset` (R305). -/
def State.hsetTry (s : State) (c : CoreId) (out : Bool) (h : BitVec 6) (a : Reg) (n : BitVec 8) (size : BitVec 20) :
    Except Stop State := do
  let p := s.pump c
  let v := p.read a
  if v.toNat % 32 ≠ 0 then throw (fault 0x02 v)
  if 0x20_0000 < v.toNat + n.toNat * size.toNat then throw (fault 0x04 v)
  if liveStream (p.streamOf h) then throw (illegal (.hset out h a n size))
  let j := if out then none else p.joinable h v.toNat n.toNat size.toNat
  let start := match j with
    | some r => match p.handle r with
      | some x => x.freed
      | none => 0
    | none => 0
  let x : Handle :=
    { out := out, base := v.toNat, slots := n.toNat, size := size.toNat, fill := 0, free := start, freed := 0, joined := j,
      stream := none, items := [], openData := 0, filledAt := List.replicate n.toNat 0 }
  return s.modPump c fun p => ((p.unjoin h).setHandle h (some x)).advance

/-- `hset` (R305). -/
def execHset (out : Bool) (h : BitVec 6) (a : Reg) (n : BitVec 8) (size : BitVec 20) (s : State) : Out :=
  s.outcome s.cur (.hset out h a n size) (s.hsetTry s.cur out h a n size)

/-! ### waith and advh (R307, R308) -/

/-- The stream that fills the ring of a handle, as an agent (R260). -/
def Pump.ringAgent (p : Pump) (c : CoreId) (h : BitVec 6) : Option Agent := (p.ringStream h).map fun t => .ag c t.ag

/-- A pump acquires what an agent did before write number `k`, if there is one (R268). -/
def State.acquireFrom (s : State) (c : CoreId) (u : Option Agent) (k : Nat) : State :=
  match u with
  | some u => s.passOn u (.pump c) k
  | none => s

/-- The count of writes when the last of the `n` slots from slot `k` on was filled (R268). -/
def Handle.filledSince (x : Handle) (k n : Nat) : Nat :=
  if n = 0 then 0 else x.filledAt.getD ((k + n - 1) % max 1 x.slots) 0

/-- `waith` (R268, R307): the address of the slots to work on, or all ones at the end of an input stream. A handle whose
stream a fault has ended gives the end value in either direction (R450). -/
def State.waithTry (s : State) (c : CoreId) (a : Reg) (h : BitVec 6) (n : BitVec 8) : Except Stop State := do
  let p := s.pump c
  match p.handle h with
  | none => throw (illegal (.waith a h n))
  | some x =>
    if !p.bound h || x.slots < n.toNat then throw (illegal (.waith a h n))
    let faulted := match p.ringStream h with
      | some t => t.fault.isSome
      | none => false
    if !x.out then
      if n.toNat ≤ p.fillOf h - x.free then
        let k := ((p.ring h).map fun y => y.filledSince x.free n.toNat).getD 0
        return (s.acquireFrom c (p.ringAgent c h) k).giveResult c a (BitVec.ofNat 64 (x.slotAt x.free))
      else if liveStream (p.ringStream h) then throw (.wait (some 1))
      else return (s.acquireFrom c (p.ringAgent c h) s.serial).giveResult c a (BitVec.allOnes 64)
    else
      if n.toNat ≤ x.slots - (x.fill - x.free) then
        return s.giveResult c a (BitVec.ofNat 64 (x.slotAt x.fill))
      else if faulted then return s.giveResult c a (BitVec.allOnes 64)
      else throw (.wait (some 1))

/-- `waith` (R307). -/
def execWaith (a : Reg) (h : BitVec 6) (n : BitVec 8) (s : State) : Out :=
  s.outcome s.cur (.waith a h n) (s.waithTry s.cur a h n)

/-- Add a release to entry `i` of the counts of the unfreed slots (R312). -/
def addRelease : List Nat → Nat → List Nat
  | [], 0 => [1]
  | [], i + 1 => 0 :: addRelease [] i
  | x :: r, 0 => (x + 1) :: r
  | x :: r, i + 1 => x :: addRelease r i

/-- Slots at the head that have received `cons` releases are freed, in order (R312). -/
def freeHead (cons : Nat) : List Nat → Nat × List Nat
  | [] => (0, [])
  | x :: r => if cons ≤ x then let (k, q) := freeHead cons r; (k + 1, q) else (0, x :: r)

/-- Give one release to slot `k` of a ring (R312). -/
def Handle.giveRelease (x : Handle) (k : Nat) : Handle :=
  match x.stream with
  | none => x
  | some t =>
    if k < x.freed then x
    else
      let (m, q) := freeHead t.cons (addRelease t.releases (k - x.freed))
      { x with freed := x.freed + m, stream := some { t with releases := q } }

/-- The handle that holds the ring's source: the joined one's ring, else itself. -/
def Pump.ringOf (p : Pump) (h : BitVec 6) : BitVec 6 :=
  match p.handle h with
  | some x => x.joined.getD h
  | none => h

/-- Release the slots from `k` on, `n` of them, through handle `h`: each counts for the ring, and P moves (R308, R312). -/
def State.releaseSlots (s : State) (c : CoreId) (h : BitVec 6) (k n : Nat) : State :=
  let r := (s.pump c).ringOf h
  let t := (List.range n).foldl (fun t i => t.modHandle c r fun x => x.giveRelease (k + i)) s
  t.modHandle c h fun x => { x with free := x.free + n }

/-- The items of `n` slots published from slot `k` with first seq `q`, `per` tokens each (R308). -/
def publish (k q per : Nat) : Nat → List Item
  | 0 => []
  | n + 1 => .slot k q :: publish (k + 1) (q + per) per n

/-- `advh` (R308). -/
def State.advhTry (s : State) (c : CoreId) (h : BitVec 6) (n : BitVec 8) : Except Stop State := do
  let p := s.pump c
  match p.handle h with
  | none => throw (illegal (.advh h n))
  | some x =>
    if !p.bound h then throw (illegal (.advh h n))
    let t := s.release c
    let t := match p.ringStream h with
      | some y => t.passOn (.pump c) (.ag c y.ag) t.serial
      | none => t
    if !x.out then
      if p.fillOf h - x.free < n.toNat then throw (illegal (.advh h n))
      return (t.releaseSlots c h x.free n.toNat).goOn c
    else
      if x.slots - (x.fill - x.free) < n.toNat then throw (illegal (.advh h n))
      let tokens := n.toNat * (x.size / 32)
      if 1024 < x.openData + tokens then throw (fault 0x10 (h.setWidth 64))
      return (t.modHandle c h fun x =>
        { x with
          items := x.items ++ publish x.fill x.openData (x.size / 32) n.toNat
          fill := x.fill + n.toNat
          openData := x.openData + tokens }).goOn c

/-- `advh` (R308). -/
def execAdvh (h : BitVec 6) (n : BitVec 8) (s : State) : Out := s.outcome s.cur (.advh h n) (s.advhTry s.cur h n)

/-! ### The stream descriptor (R309, R310) -/

/-- A fold record breaks R248: the checks of its 64 bytes and member table. The first local shard is the number of a shard,
from 0 to S − 1 (log 70), and the buffer size is looked at for a station only: R248 does not say that it is zero for a
chain. -/
def foldBad (bs tbl : List Byte) : Bool :=
  let kind := fieldAt bs 0 1
  let fmt := fieldAt bs 1 1
  let head := fieldAt bs 2 1
  let sc := fieldAt bs 4 4
  let a := fieldAt bs 8 4
  let cnt := fieldAt bs 12 4
  let blk := fieldAt bs 16 4
  let mem := fieldAt bs 20 4
  let buf := fieldAt bs 24 8
  let size := fieldAt bs 32 8
  let counts := (List.range mem).map fun i => fieldAt tbl (8 * i) 4
  let zeros := (List.range mem).all fun i => fieldAt tbl (8 * i + 4) 2 = 0
  (kind ≠ 1 && kind ≠ 2) || (fmt ≠ 4 && fmt ≠ 5) || fieldAt bs 3 1 ≠ 0 || fieldAt bs 0x28 24 ≠ 0 ||
    sc = 0 || 65536 < sc || blk = 0 || 65536 < blk ||
    (if kind = 1 then 1 < head || sc ≤ a || sc < cnt || sc < a + cnt || mem ≠ 0 || buf ≠ 0
     else head ≠ 0 || a ≠ 0 || cnt ≠ 0 || mem = 0 || 64 < mem || buf % 64 ≠ 0 || 2 ^ 56 ≤ buf || size < sc * blk * 32 ||
      !zeros || counts.sum ≠ sc)

/-- A fold record by its fields (R248). -/
def FoldRec.of (bs tbl : List Byte) : FoldRec :=
  { station := fieldAt bs 0 1 = 2
    integer := fieldAt bs 1 1 = 5
    head := fieldAt bs 2 1 = 1
    shards := fieldAt bs 4 4
    first := fieldAt bs 8 4
    count := fieldAt bs 12 4
    blk := fieldAt bs 16 4
    members := (List.range (min (fieldAt bs 20 4) 64)).map fun i =>
      (BitVec.ofNat 16 (fieldAt tbl (8 * i + 6) 2), fieldAt tbl (8 * i) 4)
    buffer := BitVec.ofNat 64 (fieldAt bs 24 8) }

/-- Read a fold record and its member table as relaxed loads. -/
def State.readFold (s : State) (c : CoreId) (a : Word) : Except Stop FoldRec := do
  let bs ← s.loadWords c a 8
  let mem := if fieldAt bs 0 1 = 2 then min (fieldAt bs 20 4) 64 else 0
  let tbl ← s.loadWords c (a + 64) mem
  if foldBad bs tbl then throw (fault 0x10 a)
  return FoldRec.of bs tbl

/-- Kind of a stream by its code (R309). -/
def streamKind? (n : Nat) : Option StreamKind :=
  match n with
  | 1 => some .input
  | 2 => some .output
  | 3 => some .feed
  | 4 => some .take
  | _ => none

/-- Counter `j` of a descriptor, its zero bits not looked at (R309). -/
def descCounter (bs : List Byte) (j : Nat) : Counter :=
  let w := fieldAt bs (0x10 + 8 * j) 8
  { bound := w % 2 ^ 16 + 1, stride := signed 24 (w / 2 ^ 16 % 2 ^ 24) }

/-- The output tokens of one element token of an INT transform, as a ratio out/in (R348): `none` where fmt is no
format. -/
def intRatio (int : Nat) (fmt : Nat) : Option (Nat × Nat) :=
  let eight := int ≤ 3
  match fmtOf fmt with
  | some .o32 => some (if eight then 4 else 8, 1)
  | some .oi => some (if eight then 4 else 8, 1)
  | some .o16 => some (if eight then 2 else 4, 1)
  | some .c16 => some (if eight then 1 else 2, 1)
  | some .c4 => some (1, if eight then 2 else 1)
  | none => none

/-- A descriptor breaks the field rules of R309 and R310, R86, R139 and R348. -/
def descBad (bs : List Byte) (out joined : Bool) (ctx : Option (BitVec 3)) (hasRing : Bool) : Bool :=
  let b1 := fieldAt bs 1 1
  let fmt := fieldAt bs 2 1
  let b3 := fieldAt bs 3 1
  let int := b3 / 16 % 8
  let bind := b3 / 4 % 4
  let rec_ := b3 / 2 % 2
  let rnd := fieldAt bs 4 2
  let stop := fieldAt bs 6 1
  let cons := fieldAt bs 7 1
  let addr := fieldAt bs 8 8
  let ptr2 := fieldAt bs 0x30 8
  let use2 := ptr2 % 4
  let fold := fieldAt bs 0x38 8
  let cw := (List.range 4).map fun j => fieldAt bs (0x10 + 8 * j) 8
  let memory := match streamKind? (fieldAt bs 0 1) with
    | some .input => true
    | some .output => true
    | _ => false
  match streamKind? (fieldAt bs 0 1) with
  | none => true
  | some k =>
    64 ≤ b1 || 5 < fmt || 128 ≤ b3 || 6 < int || bind = 3 || stop = 0 || 7 < stop ||
    (memory && (8 ≤ b1 || addr % 32 ≠ 0 || 2 ^ 56 ≤ addr || cw.any (fun w => 2 ^ 40 ≤ w || w / 2 ^ 16 % 32 ≠ 0) ||
      use2 = 1 || use2 = 3 || ptr2 / 4 % 16 ≠ 0 || 2 ^ 56 ≤ ptr2 || (use2 = 0 && ptr2 ≠ 0) || (use2 = 2 && int = 0) ||
      (use2 = 2 && (reach ((List.range 4).map (descCounter bs))).1 < 0) ||
      (int ≠ 0 && ((intRatio int fmt).isNone ||
        (k = .input && fmt = 1 && int ≤ 3 && patternLen ((List.range 4).map (descCounter bs)) % 2 = 1))))) ||
    (!memory && (bind ≠ 0 || int ≠ 0 || addr ≠ 0 || cw.any (· ≠ 0) || ptr2 ≠ 0 || ctx.isSome)) ||
    (rec_ = 1 && !hasRing) ||
    (match k with
     | .input => rnd < 16 || 1024 < rnd || cons = 0 || 16 < cons || fold ≠ 0 || out || joined
     | .output => rnd ≠ 0 || cons ≠ 0 || fold % 64 ≠ 0 || (!out && !joined)
     | .feed => rnd ≠ 0 || cons ≠ 0 || fold ≠ 0 || (!out && !joined)
     | .take => rnd ≠ 0 || cons = 0 || 16 < cons || fold ≠ 0 || out || joined)

/-- A stream by its descriptor, just bound (R309, R311). -/
def Stream.of (bs : List Byte) (desc : Word) (kind : StreamKind) (ctx : Option (BitVec 3)) (fold : Option FoldRec)
    (now : Nat) : Stream :=
  let b3 := fieldAt bs 3 1
  { kind := kind
    desc := desc
    ag := Fin.ofNat 8 (fieldAt bs 1 1)
    region := Fin.ofNat 8 (fieldAt bs 1 1 / 8)
    fmt := fmtOf (fieldAt bs 2 1)
    cmp := b3 % 2 = 1
    record := b3 / 2 % 2 = 1
    bind := BitVec.ofNat 2 (b3 / 4)
    int := BitVec.ofNat 3 (b3 / 16)
    rnd := fieldAt bs 4 2
    stop := BitVec.ofNat 3 (fieldAt bs 6 1)
    cons := fieldAt bs 7 1
    addr := BitVec.ofNat 64 (fieldAt bs 8 8)
    counters := (List.range 4).map (descCounter bs)
    ptr2 := BitVec.ofNat 64 (fieldAt bs 0x30 8)
    ctx := ctx.map BitVec.toFin
    fold := fold
    ended := false
    committed := 0
    origin := 0
    pos := 0
    round := []
    releases := []
    taken := 0
    flags := 0
    fault := none
    movedAt := now }

/-- A plane joins AG site `a` to the array. -/
def Plane.agLinked (p : Plane) (a : Fin 8) : Bool :=
  match p.switch? (Fin.ofNat 64 (8 * a.val + 7)) with
  | none => false
  | some f => lnkSrc f 1 ≠ 0 || (fins 4).any fun d => lnkSrc f d = 2 || opdSrc f d = 2

/-- A plane gives the links between AG site `a` and the array to another region than `r` (R310, R425). -/
def Plane.agLinksElsewhere (p : Plane) (a r : Fin 8) : Bool :=
  let site : Fin 64 := Fin.ofNat 64 (8 * a.val + 7)
  match p.switch? site with
  | none => false
  | some f =>
    (lnkSrc f 1 ≠ 0 && rgnOf f 1 ≠ r.val) ||
    (fins 4).any (fun d => lnkSrc f d = 2 && rgnOf f d ≠ r.val) ||
    ((fins 4).any (fun d => opdSrc f d = 2) &&
      match p.comp? site with
      | some k => k.region ≠ r
      | none => false)

/-! ### Binds (R272, R438) -/

/-- The 64 KiB pages of a range of virtual addresses. -/
def pagesOf (lo hi : Nat) : List Nat :=
  (List.range (hi / 65536 - lo / 65536 + 1)).map fun i => (lo / 65536 + i) * 65536

/-- The lines of a range of virtual addresses, page by page: every page translated first (R438). -/
def State.lineRanges (s : State) (c : CoreId) (lo hi : Nat) (n : Need) : List Nat → Except Stop (List (Nat × Nat × Word))
  | [] => .ok []
  | p :: r => do
    let a := max p lo
    let b := min (p + 65536) hi
    let pa ← s.paOf c (BitVec.ofNat 64 a) n
    let rest ← State.lineRanges s c lo hi n r
    return (pa / 256, (pa + (b - a) + 255) / 256, BitVec.ofNat 64 a) :: rest

/-- The bind an AG's configuration asks for, if any (R272). -/
def State.bindFor (s : State) (c : CoreId) (owner : AgUse) (ag : Fin 8) (g : AgCfg) : Except Stop (Option Bind) := do
  if g.bind = 0 then return none
  let (lo, hi) := reach g.counters
  let first := ((g.addr + BitVec.ofInt 64 lo).toNat) / 256 * 256
  let stop := ((g.addr + BitVec.ofInt 64 hi).toNat + 32 + 255) / 256 * 256
  let write := g.bind = 2
  let rs ← s.lineRanges c first stop (if write then .wr else .rd) (pagesOf first (stop - 1))
  return some { owner := owner, ag := ag, write := write, ranges := rs, copied := [] }

/-- The lowest virtual address of a new bind that conflicts with a live one (R272). -/
def Bind.conflict (b o : Bind) : Option Word :=
  if !b.write && !o.write then none
  else
    let hits := b.ranges.filterMap fun r =>
      let starts := o.ranges.filterMap fun q =>
        if r.1 < q.2.1 && q.1 < r.2.1 then some (r.2.2 + BitVec.ofNat 64 (256 * (max r.1 q.1 - r.1))) else none
      starts.foldl (fun m w => match m with
        | none => some w
        | some v => some (if w.ult v then w else v)) none
    hits.foldl (fun m w => match m with
      | none => some w
      | some v => some (if w.ult v then w else v)) none

/-- The live binds of the device: those of its cores, and those that a pre-empted flow keeps (R272, R438). -/
def State.liveBinds (s : State) : List Bind :=
  ((fins 256).map fun c => (s.core c).fab.binds).flatten ++
    (s.flows.map fun f => (f.kept.map fun k => k.core.fab.binds).flatten).flatten

/-- The lowest conflicting address of a bind over every flow of the device (R272, R438). -/
def State.bindConflict (s : State) (b : Bind) : Option Word :=
  s.liveBinds.foldl (fun m o =>
    match m, b.conflict o with
    | none, x => x
    | some v, some w => some (if w.ult v then w else v)
    | some v, none => some v) none

/-! ### strm (R309 to R311) -/

/-- The flow of a core has a completion ring (R357). -/
def State.hasRing (s : State) (c : CoreId) : Bool := (s.launch c).ring.isSome

/-- A held load fault of sluice context `ctx` is raised by a `strm` that names it (R322, R352). -/
def Pump.heldSluice (p : Pump) (ctx : Option (BitVec 3)) : Option Held :=
  match ctx with
  | some x => p.held.find? fun e => e.sluice && e.plane = x
  | none => none

/-- The address of token `n` of an `ag.conv`, none where the window leaves the image (R335). -/
def AgCfg.convAddress (g : AgCfg) (n : Nat) : Option Word :=
  let q (lo k : Nat) : Nat := bits g.mparam lo k
  match counterValues g.counters n with
  | [i0, m, o, b] =>
    let w := q 128 16 + 1
    let h := q 112 16 + 1
    let kw := q 108 4 + 1
    let ow := q 64 16 + 1
    let x : Int := (o % ow * (q 100 4 + 1) + m % kw : Nat) - (q 88 8 : Nat)
    let y : Int := (o / ow * (q 96 4 + 1) + m / kw : Nat) - (q 80 8 : Nat)
    let s0 : Int := match g.counters with
      | c :: _ => c.stride
      | [] => 0
    if 0 ≤ x && x < w && 0 ≤ y && y < h then
      some (g.addr + BitVec.ofInt 64 (((b * h : Nat) + y) * w + x) * BitVec.ofNat 64 (q 40 24) +
        BitVec.ofInt 64 ((i0 : Nat) * s0))
    else none
  | _ => none

/-- What token `n` of a source reads. -/
def AgCfg.readAt (g : AgCfg) (n : Nat) : Option Word := if g.mode = 2 then g.convAddress n else some (g.address n)

/-- Tokens of a row (R336). -/
def AgCfg.rowTokens (g : AgCfg) : Nat := bits g.mparam 104 16 + 1

/-- The address of token `i` of a row. -/
def rowAt (row : Option Word) (i : Nat) : Option Word := row.map fun a => a + BitVec.ofNat 64 (32 * i)

/-- The addresses of tokens that a pattern holds (R353): those of the counters or of the windows of an `ag.conv`, or every
row of an `ag.gath` or `ag.scat`. -/
def AgCfg.tokenAt (g : AgCfg) (n : Nat) : Option Word :=
  if g.mode = 3 || g.mode = 4 then
    rowAt (some (g.addr + BitVec.ofNat 64 (n / g.rowTokens * bits g.mparam 120 24))) (n % g.rowTokens)
  else g.readAt n

/-- How many there are. -/
def AgCfg.tokenCount (g : AgCfg) : Nat :=
  if g.mode = 3 || g.mode = 4 then bits g.mparam 72 32 * g.rowTokens else patternLen g.counters

/-- The 64 KiB pages that hold them, rising. -/
def AgCfg.pages (g : AgCfg) : List Nat :=
  (List.range g.tokenCount).foldl (fun acc n => match g.tokenAt n with
    | some a => insertUp acc (a.toNat / 65536 * 65536)
    | none => acc) []

/-- Every page that holds an address of the pattern lies in memory homed in this package, as far as it has an entry
(R353). -/
def State.homedHere (s : State) (c : CoreId) (g : AgCfg) : Bool :=
  g.mode = 5 || g.pages.all fun a =>
    match s.translate c (BitVec.ofNat 64 a) { r := false, w := false, x := false } with
    | .at pa => pa < 2 ^ 46 && pa / 2 ^ 40 = s.pkg.toNat
    | _ => true

/-- A sluice context holds a configuration of the flow (R353). -/
def State.sluiceMine (s : State) (c : CoreId) (ctx : Fin 8) : Bool :=
  match s.sluice[ctx] with
  | some x => x.owner = (s.pump c).flow
  | none => false

/-- The AG site an operation finds in use (R310). -/
def State.agBusy (s : State) (c : CoreId) (ag : Fin 8) : Bool := (s.core c).fab.ags[ag].use ≠ .free

/-- Drop a held fault when it is raised (R322). -/
def Pump.dropHeld (p : Pump) (h : Held) : Pump := { p with held := p.held.filter (· ≠ h) }

/-- `strm` (R309 to R311): the checks in the order of R310, then the stream starts on its AG site, as a release. The
counts F and P go on from where they stand, and a ring's next slot is slot F (R306). -/
def State.strmTry (s : State) (c : CoreId) (h : BitVec 6) (a : Reg) (ctx : Option (BitVec 3)) : Except Stop State := do
  let p := s.pump c
  let i : Instr := .strm h a ctx
  if ctx.isSome && !s.part.hasSluice then throw (fault 0x12 (encode i))
  if ctx.isSome && p.load.isSome then throw (.wait (some 7))
  match p.handle h with
  | none => throw (illegal i)
  | some x =>
    if liveStream x.stream then throw (illegal i)
    let v := p.read a
    if v.toNat % 64 ≠ 0 then throw (fault 0x02 v)
    let bs ← s.loadWords c v 8
    let b3 := fieldAt bs 3 1
    if (b3 % 2 = 1 && !s.part.feature 11) || (b3 / 16 % 8 ≠ 0 && !s.part.feature 3) then throw (fault 0x12 (encode i))
    if descBad bs x.out x.joined.isSome ctx (s.hasRing c) then throw (fault 0x10 v)
    let kind := (streamKind? (fieldAt bs 0 1)).getD .input
    let t := Stream.of bs v kind ctx none s.now
    if s.agBusy c t.ag then throw (fault 0x10 v)
    let toRegion := match kind with
      | .feed => true
      | .take => true
      | _ => false
    let inPlane := ((s.core c).fab.planeOf t.region).any (·.hasAg t.ag)
    let elsewhere := (fins 8).any fun r => ((s.core c).fab.planeOf r).any (·.agLinksElsewhere t.ag t.region)
    if toRegion && (inPlane || elsewhere) then throw (fault 0x10 v)
    match ctx with
    | some k => if !s.sluiceMine c k.toFin || !s.homedHere c t.cfg then throw (fault 0x10 v)
    | none => pure ()
    let fa := fieldAt bs 0x38 8
    let fold ← if fa = 0 then pure none else (s.readFold c (BitVec.ofNat 64 fa)).map some
    let b ← s.bindFor c (.stream h) t.ag t.cfg
    match b.bind s.bindConflict with
    | some w => throw (fault 0x1B w)
    | none => pure ()
    let s := s.release c
    let r := (s.passOn (.pump c) (.ag c t.ag) s.serial).modFab c fun f =>
      { f with
        binds := f.binds ++ b.toList
        ags := setAt f.ags t.ag { AgSite.reset with use := .stream h, stall := { Stall.reset with since := s.now } } }
    let counts := match x.stream with
      | some old => old.releases
      | none => []
    return (r.modHandle c h fun x =>
      { x with stream := some { t with fold := fold, releases := counts, origin := x.fill } }).goOn c

/-- An instruction that meets a held load fault raises it and drops it (R322, R352); an asynchronous trap that is pending
comes first, and the fault stays held (R449). -/
def State.raiseHeld (s : State) (c : CoreId) (h : Held) : State :=
  let cause : Cause := { code := h.code, fab := false, region := 0, tval := h.offset }
  if !(s.pump c).ht && !(s.pump c).asyncs.isEmpty then s.takeFault c cause (s.pump c).pc
  else (s.modPump c fun p => p.dropHeld h).takeTrap c cause (s.pump c).pc

/-- `strm` (R309). -/
def execStrm (h : BitVec 6) (a : Reg) (ctx : Option (BitVec 3)) (s : State) : Out :=
  match (s.pump s.cur).heldSluice ctx with
  | some e => .next (s.raiseHeld s.cur e)
  | none => s.outcome s.cur (.strm h a ctx) (s.strmTry s.cur h a ctx)

/-! ### wptr, sbar, mark, stop (R314 to R316) -/

/-- `wptr` (R314). -/
def execWptr (a : Reg) (h : BitVec 6) (s : State) : Out :=
  let p := s.pump s.cur
  s.outcome s.cur (.wptr a h) do
    if !p.bound h then throw (illegal (.wptr a h))
    let t := match p.streamOf h with
      | some t => some t
      | none => p.ringStream h
    return (s.acquireFrom s.cur (t.map fun t => .ag s.cur t.ag) s.serial).giveResult s.cur a (BitVec.ofNat 64 (match t with
      | some t => t.committed
      | none => 0))

/-- A stream of core `c` has issued accesses that are not performed: reads that have not returned, lines before a sluice
context, fold results on their way to memory (R269). -/
def State.outstanding (s : State) (c : CoreId) (h : BitVec 6) (t : Stream) : Bool :=
  !t.ended &&
    (!(s.core c).fab.ags[t.ag].reads.isEmpty || (s.jobs.any fun j => j.core = c && j.ag = t.ag) ||
      s.folds.zipIdx.any fun q => q.1.core = c && q.1.h = h && q.1.next.isNone &&
        (!q.1.outs.isEmpty || s.crossings.any fun x => x.fold = q.2 && x.leg ≠ 0 && !x.buffer.isEmpty))

/-- The fold element of a stream, if it has one. -/
def State.foldOf (s : State) (c : CoreId) (h : BitVec 6) : Option Nat := s.folds.findIdx? fun f => f.core = c && f.h = h

/-- Partial tokens of one block that a fold element gathers itself: its local shards, or its entry of the station's table
(R246, R247). -/
def Fold.need (f : Fold) : Nat :=
  (if f.rec_.station then ((f.member.bind fun m => f.rec_.members[m]?).map (·.2)).getD 0 else f.rec_.count) * f.rec_.blk

/-- Tokens of fold element `i` wait in its windows: those of a leg that a test selects. -/
def State.legHolds (s : State) (i : Nat) (sel : Crossing → Bool) : Bool :=
  s.crossings.any fun x => x.fold = i && sel x && !x.buffer.isEmpty

/-- The fold element of a stream has closed rounds to perform: a MARK or STOP in its window, a whole block of partials
not yet folded, results not yet written or passed on, a value to forward (R246, R247, R318). -/
def State.foldBusy (s : State) (c : CoreId) (h : BitVec 6) : Bool :=
  match s.foldOf c h with
  | none => false
  | some i =>
    match s.folds[i]? with
    | none => false
    | some f =>
      (s.crossings.any fun x => x.fold = i && x.leg = 0 && x.buffer.any fun t => match t.kind with
        | .mark => true
        | .stop _ => true
        | _ => false) ||
      (f.need ≠ 0 && f.need ≤ f.parts.length) || !f.outs.isEmpty || s.legHolds i (·.leg ≠ 0) ||
      (f.need = 0 && !f.rec_.station && !f.running.isEmpty)

/-- The open round of a fold stream holds DATA that has left the ring. -/
def State.foldOpen (s : State) (c : CoreId) (h : BitVec 6) : Bool :=
  match s.foldOf c h with
  | none => false
  | some i => s.legHolds i (·.leg = 0) || match s.folds[i]? with
    | some f => !f.pend.isEmpty
    | none => false

/-- `sbar` (R269, R315): the pump's earlier accesses are performed, and it goes on when the streams that `a` names have
performed each access they have issued. A bit that names an unset handle or an ended stream is ignored. -/
def execSbar (a : Reg) (s : State) : Out :=
  let p := s.pump s.cur
  let named := (fins 64).filter fun h => (p.read a).toNat / 2 ^ h.val % 2 = 1
  let t := (named.filterMap fun h => p.streamOf (BitVec.ofNat 6 h.val)).foldl (fun t x =>
    (t.passOn (.ag s.cur x.ag) (.pump s.cur) t.serial).passOn (.pump s.cur) (.ag s.cur x.ag) t.serial) (s.release s.cur)
  let busy := named.any fun h => match p.streamOf (BitVec.ofNat 6 h.val) with
    | some x => s.outstanding s.cur (BitVec.ofNat 6 h.val) x
    | none => false
  if busy then .next (t.stop s.cur (.sbar a) (.wait none)) else .next (t.goOn s.cur)

/-- The handle of a `mark` or `stop`: set, `.out`, with a stream that has not ended (R316). -/
def Pump.markable (p : Pump) (h : BitVec 6) : Bool :=
  match p.handle h with
  | some x => x.out && liveStream x.stream
  | none => false

/-- Close the open round with a MARK whose seq is its DATA count (R316). -/
def Handle.closeRound (x : Handle) : Handle :=
  if x.openData = 0 then x else { x with items := x.items ++ [.mark x.openData], openData := 0 }

/-- `mark` (R316). -/
def execMark (h : BitVec 6) (s : State) : Out :=
  s.outcome s.cur (.mark h)
    (if (s.pump s.cur).markable h then .ok ((s.modHandle s.cur h Handle.closeRound).goOn s.cur)
     else .error (illegal (.mark h)))

/-- `stop` does what `mark` does and then places a STOP (R316). -/
def execStop (h : BitVec 6) (level : BitVec 3) (s : State) : Out :=
  s.outcome s.cur (.stop h level)
    (if (s.pump s.cur).markable h then
      .ok ((s.modHandle s.cur h fun x =>
        let y := x.closeRound
        { y with items := y.items ++ [.stop level] }).goOn s.cur)
     else .error (illegal (.stop h level)))

end Sys2Proof.Machine
end

