-- ==== Sys2Proof/Machine/Polder.lean ====
section
/-! DEFINITION. The polder of a core: which region owns what, channels and space, firings, fabric faults, gating and
stall counters (R84, R320, R362 to R365, R395 to R398, R449). -/

namespace Sys2Proof.Machine

open Sys2Proof

/-! ### Owners (R84, R320) -/

/-- Index of the incoming-link buffer of a site from a direction. -/
def linkIx (i : Fin 64) (d : Fin 4) : Fin 256 := Fin.ofNat 256 (4 * i.val + d.val)

/-- The region runs and its elements move: neither stray nor frozen, nor with a fault that waits (R393, R394, R417). -/
def Region.moves (r : Region) : Bool := r.run && !r.stray && !r.frozen && r.due.isNone

/-- The plane a running region has selected. -/
def Fabric.runPlane (f : Fabric) (r : Fin 8) : Option Plane := if f.regions[r].run then f.planeOf r else none

/-- The AG sites with a frame of region `r` in plane `p`. -/
def Plane.agsOf (p : Plane) (r : Fin 8) : List (Fin 8 × AgCfg) :=
  (fins 8).filterMap fun a => (p.ag? a).bind fun g => if g.region = r then some (a, g) else none

/-- The memory sites with a frame of region `r` in plane `p`. -/
def Plane.memsOf (p : Plane) (r : Fin 8) : List MemCfg :=
  (fins 8).filterMap fun m => (p.mem? m).bind fun g => if g.region = r then some g else none

/-- The compute frames of region `r` in plane `p`. -/
def Plane.compsOf (p : Plane) (r : Fin 8) : List CompCfg := p.comps.filter fun c => c.region = r

/-- The stream that runs on an AG site. -/
def Core.agStream (k : Core) (a : Fin 8) : Option (BitVec 6 × Stream) :=
  match k.fab.ags[a].use with
  | .stream h => (k.pump.streamOf h).map fun t => (h, t)
  | _ => none

/-- A feed or take stream on AG site `a` bound to region `r` (R311, R425). -/
def Core.boundTo (k : Core) (a r : Fin 8) (kind : StreamKind) : Bool :=
  match k.agStream a with
  | some (_, t) => t.kind = kind && t.region = r && !t.ended
  | none => false

/-- A memory site mode that sends tokens into the fabric (R330). -/
def MemCfg.sends (m : MemCfg) : Bool := m.mode = 0 || m.mode = 3 || m.mode = 4

/-- An AG mode that sends tokens (R333). -/
def AgCfg.sends (g : AgCfg) : Bool := g.mode = 0 || g.mode = 2 || g.mode = 3 || g.mode = 5

/-- The switch of site `i` passes its incoming link from `d` on to region `r`: to an outgoing link of the region, or to
the operator of a compute frame of the region (R84). -/
def Plane.passes (p : Plane) (i : Fin 64) (d : Fin 4) (r : Fin 8) : Bool :=
  match p.switch? i with
  | none => false
  | some w =>
    (fins 4).any (fun e => lnkSrc w e = d.val + 1 && rgnOf w e = r.val) ||
      ((fins 4).any (fun q => opdSrc w q = d.val + 1) &&
        match p.comp? i with
        | some c => c.region = r
        | none => false)

/-- Region `r`, with plane `p`, feeds the incoming link of site `i` from direction `d` (R84, R320). The link of an AG
site that a feed stream drives belongs to the region that takes it, before and after the stream has ended. -/
def Core.feeds (k : Core) (r : Fin 8) (p : Plane) (i : Fin 64) (d : Fin 4) : Bool :=
  match farEnd i d with
  | .site j =>
    match p.switch? j with
    | some w => lnkSrc w (opposite d) ≠ 0 && rgnOf w (opposite d) = r.val
    | none => false
  | .mem m =>
    match p.mem? m with
    | some c => c.region = r && c.sends
    | none => false
  | .ag a =>
    (match p.ag? a with
      | some g => g.region = r && g.sends && !g.weir
      | none => false) || ((p.ag? a).isNone && p.passes i d r)
  | .nothing => false

/-- The running region that owns an incoming-link buffer, with its plane. -/
def Core.bufOwner (k : Core) (i : Fin 64) (d : Fin 4) : Option (Fin 8 × Plane) :=
  (fins 8).findSome? fun r =>
    match k.fab.runPlane r with
    | some p => if k.feeds r p i d then some (r, p) else none
    | none => none

/-- The running region whose plane holds a compute frame of its own at a site. `kick` makes no check of shared sites, so two
idle regions whose planes share one can both be started: the model gives the site to the lower region (R323, R328; log
86). -/
def Core.siteOwner (k : Core) (i : Fin 64) : Option (Fin 8 × Plane × CompCfg) :=
  (fins 8).findSome? fun r =>
    match k.fab.runPlane r with
    | some p => (p.comp? i).bind fun c => if c.region = r then some (r, p, c) else none
    | none => none

/-- The same for a memory site. -/
def Core.memOwner (k : Core) (m : Fin 8) : Option (Fin 8 × Plane × MemCfg) :=
  (fins 8).findSome? fun r =>
    match k.fab.runPlane r with
    | some p => (p.mem? m).bind fun c => if c.region = r then some (r, p, c) else none
    | none => none

/-- The same for an AG site. -/
def Core.agOwner (k : Core) (a : Fin 8) : Option (Fin 8 × Plane × AgCfg) :=
  (fins 8).findSome? fun r =>
    match k.fab.runPlane r with
    | some p => (p.ag? a).bind fun c => if c.region = r then some (r, p, c) else none
    | none => none

/-! ### Channels (R363, R364) -/

/-- Where a switch puts a token. -/
inductive Dst where
  | link (i : Fin 64) (d : Fin 4)
  | opd (i : Fin 64) (p : Fin 4)
  | mem (m : Fin 8)
  | ag (a : Fin 8)
  deriving DecidableEq, Repr

/-- The far end of the outgoing link of a site. -/
def farDst (i : Fin 64) (d : Fin 4) : Option Dst :=
  match farEnd i d with
  | .site j => some (.link j (opposite d))
  | .mem m => some (.mem m)
  | .ag a => some (.ag a)
  | .nothing => none

/-- The destinations that a switch gives an incoming link, source code `src` (R84). -/
def Plane.dsts (p : Plane) (i : Fin 64) (src : Nat) : List Dst :=
  match p.switch? i with
  | none => []
  | some w =>
    ((fins 4).filter fun d => lnkSrc w d = src).filterMap (farDst i) ++
      ((fins 4).filter fun q => opdSrc w q = src).map (.opd i)

/-- A destination can take one token (R363); a finished sink takes none (R369), while a finished source still takes its
permits (R383). -/
def Core.room (k : Core) (p : Plane) : Dst → Bool
  | .link i d =>
    match p.switch? i with
    | some w => k.fab.links[linkIx i d].length < depOf w d
    | none => true
  | .opd i q => (k.fab.sites[i].inReg[q]).isNone
  | .mem m => (k.fab.mems[m].inReg).isNone && (!k.fab.mems[m].finished || (p.mem? m).any (·.sends))
  | .ag a => (k.fab.ags[a].inReg).isNone && (!k.fab.ags[a].finished || (p.ag? a).any (·.sends))

/-- Change a compute site. -/
def Core.modSite (k : Core) (i : Fin 64) (f : Site → Site) : Core :=
  { k with fab := { k.fab with sites := setAt k.fab.sites i (f k.fab.sites[i]) } }

/-- Change a memory site. -/
def Core.modMem (k : Core) (m : Fin 8) (f : MemSite → MemSite) : Core :=
  { k with fab := { k.fab with mems := setAt k.fab.mems m (f k.fab.mems[m]) } }

/-- Change an AG site. -/
def Core.modAg (k : Core) (a : Fin 8) (f : AgSite → AgSite) : Core :=
  { k with fab := { k.fab with ags := setAt k.fab.ags a (f k.fab.ags[a]) } }

/-- Change a region. -/
def Core.modRegion (k : Core) (r : Fin 8) (f : Region → Region) : Core :=
  { k with fab := { k.fab with regions := setAt k.fab.regions r (f k.fab.regions[r]) } }

/-- Change an incoming-link buffer. -/
def Core.modLink (k : Core) (i : Fin 64) (d : Fin 4) (f : List Token → List Token) : Core :=
  { k with fab := { k.fab with links := setAt k.fab.links (linkIx i d) (f k.fab.links[linkIx i d]) } }

/-- Place a token. A token that the port's kind discards on arrival goes no further (R174, R484). -/
def Core.put (k : Core) (p : Plane) (t : Token) : Dst → Core
  | .link i d => k.modLink i d (· ++ [t])
  | .opd i q =>
    -- the arrival calls a clock-gated site (R396)
    let k := k.modSite i fun s => if s.gate = .clock then { s with gate := .called } else s
    match (p.comp? i).bind fun c => c.drops k.fab.sites[i].op q t with
    | some fl => k.modSite i fun s => { s with pendFlags := s.pendFlags ||| fl }
    | none => k.modSite i fun s => { s with inReg := setAt s.inReg q (some t) }
  | .mem m => k.modMem m fun s => { s with inReg := some t }
  | .ag a => k.modAg a fun s => { s with inReg := some t }

/-- Place a token in all destinations of a multicast in one event (R363). -/
def Core.putAll (k : Core) (p : Plane) (t : Token) (ds : List Dst) : Core := ds.foldl (fun k d => k.put p t d) k

/-- Progress of a region at this moment (R391). -/
def Core.progress (k : Core) (r : Fin 8) (now : Nat) : Core :=
  { k.modRegion r fun x => { x with movedAt := now } with activeAt := now }

/-! ### Faults of the fabric (R120, R449) -/

/-- The site identifier of R365. -/
def siteId (layout addr : Nat) : Word := BitVec.ofNat 64 (layout * 2 ^ 16 + addr)

/-- The cause of a fabric fault (R119). -/
def fabCause (code : Code) (r : Fin 8) (tval : Word) : Cause :=
  { code := code, fab := true, region := BitVec.ofNat 3 r.val, tval := tval }

/-- Post a fabric fault to the pump that owns the region. -/
def Core.post (k : Core) (code : Code) (r : Fin 8) (tval : Word) : Core :=
  { k with pump := { k.pump with asyncs := k.pump.asyncs ++ [fabCause code r tval] } }

/-- A fabric fault of a region: it enters the stray state; a region that is stray already raises no further one
(R393, R449). -/
def Core.fabFault (k : Core) (code : Code) (r : Fin 8) (tval : Word) : Core :=
  if k.fab.regions[r].stray || k.fab.regions[r].due.isSome then k
  else (k.modRegion r fun x => { x with stray := true, fault := some (fabCause code r tval) }).post code r tval

/-! ### A site fires (R362, R363, R174 to R176) -/

/-- An element fires at a moment: a firing that reads nothing does not count (R395). -/
def Stall.fire (s : Stall) (now : Nat) (counts : Bool := true) : Stall :=
  { cause := 0, ports := 0, since := now, fired := s.fired + if counts then 1 else 0 }

/-- The ports an output goes to. -/
def CompCfg.selPorts (c : CompCfg) : Sel → List (Fin 4)
  | .a => maskDirs c.outA
  | .b => maskDirs c.outB
  | .r => c.rport.toList

/-- Output port `d` of site `i` can take a first token: it holds no further outputs, and its link has space. -/
def Core.outFree (k : Core) (p : Plane) (i : Fin 64) (d : Fin 4) : Bool :=
  k.fab.sites[i].outq[d].isEmpty &&
    match farDst i d with
    | some x => k.room p x
    | none => false

/-- What the operator sees beside its operands. -/
def Core.fireEnv (k : Core) (r : Fin 8) (p : Plane) (c : CompCfg) (now : Nat) : FireEnv :=
  let s := k.fab.sites[c.site]
  { seed := k.fab.regions[r].seed
    now := now
    afree := (c.selPorts .a).all (k.outFree p c.site)
    rfree := (c.selPorts .r).all (k.outFree p c.site)
    busy := (fins 4).any fun d => !s.outq[d].isEmpty
    poison := s.poisoned }

/-- What the site's operator can do now. -/
def Core.firing (k : Core) (r : Fin 8) (p : Plane) (c : CompCfg) (now : Nat) : Firing :=
  let s := k.fab.sites[c.site]
  fireOp c (k.fireEnv r p c now) s.inReg s.op

/-- The ports a firing writes. -/
def Fired.ports (f : Fired) (c : CompCfg) : List (Fin 4) := ((f.outs.map fun o => c.selPorts o.1).flatten).dedup

/-- Number a token that leaves on port `d`, and queue it (R175). R148 counts DATA from 0 to 1,023 and a MARK from 1 to 1,024,
and does not say what a longer round has, as an Expand can make it: the model counts on, and the word of the token keeps the
low twelve bits (log 86). -/
def Site.send (s : Site) (d : Fin 4) (t : Token) : Site :=
  let n := s.outSeq[d]
  let (seq, n') := match t.kind with
    | .data => (n, n + 1)
    | .mark => (n, 0)
    | .stop _ => (0, 0)
    | .scale => (0, n)
    | .abort => (0, n)
  { s with outq := setAt s.outq d (s.outq[d] ++ [{ t with seq := seq }]), outSeq := setAt s.outSeq d n' }

/-- The outputs of a firing queued on their ports; those of a stateful element carry its mark (R459). -/
def Site.emit (s : Site) (c : CompCfg) (mark : Bool) (outs : List (Sel × Token)) : Site :=
  outs.foldl (fun s o =>
    let t := if o.2.kind = .data then { o.2 with poison := o.2.poison || mark } else o.2
    (c.selPorts o.1).foldl (fun s d => s.send d t) s) s

/-- The first held output of a port goes to its link, which has space. -/
def Core.sendOut (k : Core) (p : Plane) (i : Fin 64) (d : Fin 4) : Core :=
  match k.fab.sites[i].outq[d], farDst i d with
  | t :: r, some x => if k.room p x then (k.modSite i fun s => { s with outq := setAt s.outq d r }).put p t x else k
  | _, _ => k

/-- A firing applied: operands leave the input registers, the state changes, the outputs are queued and the first of
each port leaves; at a commit the flags become sticky (R176). -/
def Core.applyFiring (k : Core) (r : Fin 8) (p : Plane) (c : CompCfg) (f : Fired) (now : Nat) : Core :=
  let s := k.fab.sites[c.site]
  let marked := s.poisoned || f.mark
  let s := { s with
    inReg := f.reads.foldl (fun v q => setAt v q none) s.inReg
    op := f.op
    firedAt := now
    stall := s.stall.fire now (!f.reads.isEmpty) }
  let s := s.emit c (c.stateful && marked) f.outs
  let fl := s.pendFlags ||| f.flags
  let s := if f.commit then
      { s with pendFlags := 0, poisoned := false
               commits := f.reads.foldl (fun v q => setAt v q (v[q] + 1)) s.commits }
    else { s with pendFlags := fl, poisoned := marked }
  let k := k.modSite c.site fun _ => s
  let k := if f.commit then { k with fab := { k.fab with commits := k.fab.commits + 1, rounds := k.fab.rounds + 1 } } else k
  let k := k.modRegion r fun x =>
    { x with flags := if f.commit then x.flags ||| fl else x.flags, pred := f.pred.getD x.pred }
  ((f.ports c).foldl (fun k d => k.sendOut p c.site d) k).progress r now

/-- The element's frame is resident and its plane usable (R398, R461). -/
def Plane.resident (p : Plane) (i : Fin 64) : Bool := !p.absent.contains i && !p.bad

/-- SITE_FIRE on core `k`: the site fires once if it can (R362); a stateful element that reaches the commit of a
marked round raises fault 0x21 instead (R460). -/
def Core.fireSite (k : Core) (i : Fin 64) (now : Nat) : Core :=
  match k.siteOwner i with
  | none => k
  | some (r, p, c) =>
    if !k.fab.regions[r].moves || k.fab.sites[i].gate ≠ .awake || !p.resident i then k
    else match k.firing r p c now with
      | .wait _ _ => k
      | .fault code => k.fabFault code r (siteId 1 i.val)
      | .fire f =>
        if !(f.ports c).all (k.outFree p i) then k
        else if f.commit && c.stateful && (k.fab.sites[i].poisoned || f.mark) then k.fabFault 0x21 r (siteId 1 i.val)
        else k.applyFiring r p c f now

/-! ### Tokens move (R364) -/

/-- The switch of a site routes its incoming link from `d` to an outgoing link of region `r` (R320). -/
def Plane.forwards (p : Plane) (r : Fin 8) (i : Fin 64) (d : Fin 4) : Bool :=
  match p.switch? i with
  | some w => (fins 4).any fun e => lnkSrc w e = d.val + 1 && rgnOf w e = r.val
  | none => false

/-- A switch has forwarded a token of region `r` from `d` (R320, R423). -/
def Core.forwarded (k : Core) (r : Fin 8) (p : Plane) (i : Fin 64) (d : Fin 4) (now : Nat) : Core :=
  if p.forwards r i d then
    k.modRegion r fun x => { x with switches := setAt x.switches i (x.switches[i].fire now) }
  else k

/-- The head of an incoming-link buffer moves to every destination its switch gives it. -/
def Core.hopLink (k : Core) (i : Fin 64) (d : Fin 4) (now : Nat) : Core :=
  match k.bufOwner i d, k.fab.links[linkIx i d] with
  | some (r, p), t :: rest =>
    let ds := p.dsts i (d.val + 1)
    if k.fab.regions[r].moves && p.resident i && !ds.isEmpty && ds.all (k.room p) then
      (((k.modLink i d fun _ => rest).putAll p t ds).forwarded r p i d now).progress r now
    else k
  | _, _ => k

/-- A further output of a site leaves on its port (R363). -/
def Core.hopOut (k : Core) (i : Fin 64) (d : Fin 4) (now : Nat) : Core :=
  match k.siteOwner i with
  | some (r, p, _) =>
    if k.fab.regions[r].moves && !k.fab.sites[i].outq[d].isEmpty &&
        (match farDst i d with
          | some x => k.room p x
          | none => false) then
      (k.sendOut p i d).progress r now
    else k
  | none => k

/-! ### Gating (R396, R397) -/

/-- A clock-gated site wakes: a token has arrived, or it could fire with what it holds, now that its outputs have space
or time has passed (log 86). -/
def Core.wakesFor (k : Core) (i : Fin 64) (now : Nat) : Bool :=
  match k.fab.sites[i].gate, k.siteOwner i with
  | .called, _ => true
  | .clock, some (r, p, c) =>
    (match k.firing r p c now with
      | .fire f => (f.ports c).all (k.outFree p i)
      | .fault _ => true
      | .wait _ _ => false)
  | _, _ => false

/-- CLOCK_GATE: a compute site of a running region that has not fired for 64 cycles (R396). -/
def Core.gateClock (k : Core) (i : Fin 64) (now : Nat) : Core :=
  match k.siteOwner i with
  | some _ =>
    if k.fab.sites[i].gate = .awake && 64 ≤ now - k.fab.sites[i].firedAt then k.modSite i fun s => { s with gate := .clock }
    else k
  | none => k

/-- SITE_WAKE: a clock-gated site at which a token has arrived (R396). Its 64 cycles start anew, and the wake is no progress
of its region (R391; log 86). -/
def Core.wakeClock (k : Core) (i : Fin 64) (now : Nat) : Core :=
  if k.wakesFor i now then k.modSite i fun s => { s with gate := .awake, firedAt := now } else k

/-- SITE_POWER_WAKE: a power-gated site that a load has begun to wake (R397). -/
def Core.wakePower (k : Core) (i : Fin 64) (now : Nat) : Core :=
  match k.fab.sites[i].gate with
  | .waking _ => k.modSite i fun s => { s with gate := .awake, firedAt := now }
  | _ => k

/-- Every compute site of a region in a plane is awake (R397). -/
def Fabric.awakeIn (f : Fabric) (r : Fin 8) (p : Plane) : Bool :=
  (p.comps.filter fun c => c.region = r).all fun c => match f.sites[c.site].gate with
    | .power => false
    | .waking _ => false
    | _ => true

/-! ### Stall counters (R395) -/

/-- A mask of ports, N highest. -/
def portMask (ps : List (Fin 4)) : BitVec 4 := ps.foldl (fun m d => m ||| BitVec.ofNat 4 (2 ^ (3 - d.val))) 0

/-- The condition that holds a compute site (R395): cause and ports; 0 for one that can fire. -/
def Core.siteCause (k : Core) (r : Fin 8) (p : Plane) (c : CompCfg) (now : Nat) : BitVec 4 × BitVec 4 :=
  let s := k.fab.sites[c.site]
  if !p.resident c.site then (5, 0)
  else if k.wakesFor c.site now then (6, 0)
  else match k.firing r p c now with
    | .wait n ps => (BitVec.ofNat 4 n, portMask ps)
    | .fault _ => (0, 0)
    | .fire f =>
      let full := (f.ports c).filter fun d => !k.outFree p c.site d
      if full.isEmpty then (0, 0) else (2, portMask full)

/-- A stall counter brought up to date: a new cause starts its cycles (R395). -/
def Stall.see (s : Stall) (cause ports : BitVec 4) (now : Nat) : Stall :=
  if s.cause = cause then { s with ports := ports } else { s with cause := cause, ports := ports, since := now }

/-- The condition that holds the switch of a site without a compute frame of region `r`, for the links of that region
(R320, R423). -/
def Core.switchCause (k : Core) (r : Fin 8) (p : Plane) (i : Fin 64) : BitVec 4 × BitVec 4 :=
  match p.switch? i with
  | none => (0, 0)
  | some w =>
    let ins := (fins 4).filter fun d => k.feeds r p i d && p.forwards r i d
    let waits := ins.filter fun d => !(k.fab.links[linkIx i d]).isEmpty
    let lacks (e : Fin 4) : Bool := rgnOf w e = r.val && waits.any (fun d => lnkSrc w e = d.val + 1) && match farDst i e with
      | some x => !k.room p x
      | none => false
    let full := (fins 4).filter lacks
    if !p.resident i then (5, 0)
    else if !full.isEmpty then (2, portMask full) else if waits.isEmpty then (1, portMask ins) else (0, 0)

/-- The condition that holds a memory site; its link enters the fabric eastward (R423). -/
def Core.memCause (k : Core) (p : Plane) (m : MemCfg) : BitVec 4 × BitVec 4 :=
  let s := k.fab.mems[m.site]
  let site : Fin 64 := Fin.ofNat 64 (8 * m.site.val)
  let full := !k.room p (.link site 3)
  if s.finished && s.outq.isEmpty then (8, 0)
  else if m.sends && (!s.outq.isEmpty || m.mode = 0 || (m.mode = 3 && !s.hold.isEmpty)) && full then (2, 4)
  else if m.mode = 0 && s.credit ≤ 0 then (7, 0)
  else if m.mode ≠ 0 && s.inReg.isNone && s.outq.isEmpty then (1, 4)
  else if m.mode = 5 && s.inReg.isSome then (4, 0)
  else (0, 0)

/-- The condition that holds an AG site; its link enters the fabric westward, and with end = 1 its output is the core's
input of the Weir, which has space or not (R395, R423). -/
def Core.agCause (k : Core) (p : Plane) (a : Fin 8) (g : AgCfg) (weirFree : Bool) : BitVec 4 × BitVec 4 :=
  let s := k.fab.ags[a]
  let site : Fin 64 := Fin.ofNat 64 (8 * a.val + 7)
  if s.finished && s.outq.isEmpty && s.reads.isEmpty then (8, 0)
  else if s.page.isSome then (4, 0)
  else if g.sends && !s.outq.isEmpty && !(if g.weir then weirFree else k.room p (.link site 1)) then (2, 1)
  else if !s.reads.isEmpty && s.outq.isEmpty then (4, 0)
  else if g.sends && s.credit ≤ 0 && g.mode = 0 then (7, 0)
  else if (!g.sends || (g.mode = 3 && s.pendIdx.isEmpty && s.outq.isEmpty)) && s.inReg.isNone then (1, 1)
  else (0, 0)

/-- A compute site of region `r` in plane `p`. -/
def Plane.ownSite (p : Plane) (r : Fin 8) (i : Fin 64) : Bool :=
  match p.comp? i with
  | some c => c.region = r
  | none => false

/-- Every stall counter of the running regions brought up to date. -/
def Core.seeCauses (k : Core) (weirFree : Bool) (now : Nat) : Core :=
  (fins 8).foldl (fun k r =>
    match k.fab.runPlane r with
    | none => k
    | some p =>
      let k := (p.compsOf r).foldl (fun k c =>
        let (a, b) := k.siteCause r p c now
        k.modSite c.site fun s => { s with stall := s.stall.see a b now }) k
      let k := k.modRegion r fun x =>
        { x with switches := Vector.ofFn fun i : Fin 64 =>
            if !p.ownSite r i && (p.switch? i).isSome then
              let (a, b) := k.switchCause r p i
              x.switches[i].see a b now
            else x.switches[i] }
      let k := (p.memsOf r).foldl (fun k c =>
        let (a, b) := k.memCause p c
        k.modMem c.site fun s => { s with stall := s.stall.see a b now }) k
      (p.agsOf r).foldl (fun k q =>
        let (x, y) := k.agCause p q.1 q.2 weirFree
        k.modAg q.1 fun s => { s with stall := s.stall.see x y now }) k) k

/-! ### Pauses of the quiescence count (R391) -/

/-- A load of a plane is in progress. -/
def Pump.loading (p : Pump) (n : Fin 4) : Bool :=
  match p.load with
  | some l => !l.sluice && l.plane.toNat = n.val
  | none => false

/-- The count of still cycles pauses (R391): a page request, a fetch or load, a wake, a pre-emption. -/
def Core.pauses (k : Core) (r : Fin 8) (p : Plane) (now : Nat) : Bool :=
  let x := k.fab.regions[r]
  x.frozen || x.stopping.isSome || x.page.isSome || p.page.isSome || !p.absent.isEmpty ||
    (p.agsOf r).any (fun a => (k.fab.ags[a.1].page).isSome) ||
    (match x.sel with
      | some n => k.pump.loading n
      | none => false) ||
    (p.compsOf r).any fun c => match k.fab.sites[c.site].gate with
      | .waking _ => true
      | .power => true
      | _ => k.wakesFor c.site now

/-- A pause begins or ends; those before the last progress are of no more use. -/
def Region.seePause (x : Region) (on : Bool) (now : Nat) : Region :=
  match on, x.pausedAt with
  | true, none => { x with pausedAt := some now }
  | false, some t => { x with pausedAt := none, pauses := (x.pauses.filter fun q => x.movedAt < q.2) ++ [(t, now)] }
  | _, _ => x

/-- Still cycles between two moments: those of no pause (R391). -/
def Region.stillFor (x : Region) (from' now : Nat) : Nat :=
  let paused := (x.pauses ++ (x.pausedAt.map fun t => (t, now)).toList).foldl (fun n q => n + (min q.2 now - max q.1 from')) 0
  now - from' - paused

/-- The stall counters and pauses of a core's running regions brought up to date. -/
def Core.seeStalls (k : Core) (weirFree : Bool) (now : Nat) : Core :=
  (fins 8).foldl (fun k r => match k.fab.runPlane r with
    | some p => k.modRegion r fun x => x.seePause (k.pauses r p now) now
    | none => k) (k.seeCauses weirFree now)

/-! ### The Weir of a quad, and its stall counter (R395) -/

/-- The Weir of a core. -/
def weirOf (c : CoreId) : Fin 64 := Fin.ofNat 64 (c.val / 4)

/-- Core `i` of a quad. -/
def coreOf (q : Fin 64) (i : Nat) : CoreId := Fin.ofNat 256 (4 * q.val + i)

/-- The active graph. -/
def Weir.graph (w : Weir) : Option Graph := w.ctx[w.active]

/-- Streams that feed a graph, as cores of the quad in ascending order (R226). -/
def Graph.feeders (g : Graph) : List (Fin 4) := (fins 4).filter fun i => g.ins.toNat / 2 ^ i.val % 2 = 1

/-- The running region of a core's output AG (R209, R225). R225 lets a plane hold one such AG, so two running regions
may each hold one: the model takes that of the lowest AG site (log 86). -/
def Core.weirSink (k : Core) : Option (Fin 8) :=
  (fins 8).findSome? fun a => (k.agOwner a).bind fun o => if o.2.2.weir && !o.2.2.sends then some o.1 else none

/-- The running region of a core's AG site that feeds its Weir. Two running regions on different planes may each hold one:
the model takes that of the lowest AG site, and both place their tokens at the one input (R226; log 86). -/
def Core.weirSource (k : Core) : Option (Fin 8) :=
  (fins 8).findSome? fun a => (k.agOwner a).bind fun o => if o.2.2.weir && o.2.2.sends then some o.1 else none

/-- Change a Weir. -/
def State.modWeir (s : State) (q : Fin 64) (f : Weir → Weir) : State := { s with weirs := setAt s.weirs q (f s.weirs[q]) }

/-- The Weir's input of a core can take a token. -/
def State.weirFree (s : State) (c : CoreId) : Bool := (s.weirs[weirOf c].inReg[Fin.ofNat 4 c.val]).isNone

/-- The core and region to which a Weir belongs (R230): those of the output AG, else those of the lowest core that feeds the
graph; a Weir that has neither receives no token. -/
def State.weirHome (s : State) (q : Fin 64) (g : Graph) : Option (CoreId × Fin 8) :=
  let c := coreOf q g.ocore.val
  match (s.core c).weirSink with
  | some r => some (c, r)
  | none => g.feeders.findSome? fun i => ((s.core (coreOf q i.val)).weirSource).map (coreOf q i.val, ·)

/-- The first output leaves: the last token forwarded decides whether the context rests (R218). -/
def Weir.forward (w : Weir) (t : Token) (rest : List Token) : Weir :=
  { w with
    outq := rest
    ended := match t.kind, w.graph with
      | .stop lv, some g => !lv.ult g.lvl
      | _, _ => false }

/-- The condition that holds a Weir (R395): cause, and for cause 1 the cores of the quad whose token is awaited. -/
def Weir.cause (w : Weir) : BitVec 4 × BitVec 4 :=
  match w.graph with
  | none => (5, 0)
  | some g =>
    let lacks := g.feeders.filter fun i => (w.inReg[i]).isNone
    if !w.outq.isEmpty then (2, 0)
    else if lacks.isEmpty then (0, 0)
    else (1, lacks.foldl (fun m i => m ||| BitVec.ofNat 4 (2 ^ i.val)) 0)

/-- The stall counter of a Weir brought up to date. -/
def State.seeWeir (s : State) (q : Fin 64) : State :=
  s.modWeir q fun w => { w with stall := w.stall.see w.cause.1 w.cause.2 s.now }

/-! ### Where a replay starts (R237, R239, R240, R453, R454; log 10) -/

/-- One more commit, or another event with which the cut of the quad is taken anew. -/
def Core.bump (k : Core) : Core := { k with fab := { k.fab with commits := k.fab.commits + 1 } }

/-- One more commit of an element of a region: a round boundary of it (R441). -/
def Core.bumpRound (k : Core) : Core :=
  { k with fab := { k.fab with commits := k.fab.commits + 1, rounds := k.fab.rounds + 1 } }

/-- The elements of a core as they stand become its cut; nothing sent before it need be sent again. -/
def Core.takeCut (k : Core) : Core :=
  if (fins 8).all fun r => !k.fab.regions[r].run then { k with fab := { k.fab with cut := none } }
  else
    let ags := mapVec (fun x : AgSite => { x with sent := [], taken := 0 }) k.fab.ags
    { k with fab :=
      { k.fab with
        ags := ags
        cut := some { sites := k.fab.sites, links := k.fab.links, mems := k.fab.mems, ags := ags, handles := k.pump.handles,
                      preds := mapVec (fun x : Region => x.pred) k.fab.regions } } }

/-- The pipeline of a Weir as it stands becomes its cut. -/
def Weir.takeCut (w : Weir) : Weir :=
  { w with cut := some { openVec := w.openVec, received := w.received, ended := w.ended, inReg := w.inReg, outq := w.outq,
                         outSeq := w.outSeq, pendFlags := w.pendFlags, poisoned := w.poisoned } }

/-- The cores of a quad and their Weir take their cut at one moment. -/
def State.cutQuad (s : State) (q : Fin 64) : State :=
  ((List.range 4).foldl (fun s i => s.modCore (coreOf q i) Core.takeCut) s).modWeir q Weir.takeCut

/-- Peer events that waited for a round boundary can be taken (R441). -/
def Core.boundary (k : Core) : Core :=
  { k with pump := { k.pump with asyncs := k.pump.asyncs ++ k.pump.events, events := [] } }

/-- What follows an event of core `c` that led from `s` to `t`: a round boundary of a region lets peer events in, after a commit
the cut of the quad is taken anew, and the
stall counters go on. -/
def State.after (s : State) (c : CoreId) (t : State) : State :=
  let q := weirOf c
  let own := (t.core c).fab.commits ≠ (s.core c).fab.commits
  let t := if (t.core c).fab.rounds ≠ (s.core c).fab.rounds then t.modCore c Core.boundary else t
  let t := if own || (t.weirs[q]).commits ≠ (s.weirs[q]).commits then t.cutQuad q else t
  (t.modCore c fun k => k.seeStalls (t.weirFree c) t.now).seeWeir q

/-- An event of the polder of core `c`. -/
def State.fabEvent (s : State) (c : CoreId) (f : Core → Core) : State := if s.shut then s else s.after c (s.modCore c f)

/-! ### The events -/

/-- SITE_FIRE (R362). -/
def execSiteFire (c : CoreId) (site : Fin 64) (s : State) : Out := .next (s.fabEvent c fun k => k.fireSite site s.now)

/-- CLOCK_GATE (R396). -/
def execClockGate (c : CoreId) (site : Fin 64) (s : State) : Out := .next (s.fabEvent c fun k => k.gateClock site s.now)

/-- SITE_WAKE (R396). -/
def execSiteWake (c : CoreId) (site : Fin 64) (s : State) : Out := .next (s.fabEvent c fun k => k.wakeClock site s.now)

/-- SITE_POWER_WAKE (R397). -/
def execSitePowerWake (c : CoreId) (site : Fin 64) (s : State) : Out :=
  .next (s.fabEvent c fun k => k.wakePower site s.now)

end Sys2Proof.Machine
end

