-- ==== Sys2Proof/Machine/MemSites.lean ====
section
/-! DEFINITION. Rounds of sources (R235), memory sites and their modes (R329 to R332, R383), and the hops of tokens. -/

namespace Sys2Proof.Machine

open Sys2Proof

/-! ### Rounds of a source (R235) -/

/-- What a source has emitted and not yet sent, with its open round. -/
structure Rounds where
  outq : List Token
  data : Nat
  pend : Flags
  /-- flags of rounds closed meanwhile -/
  done : Flags
  deriving DecidableEq, Repr

/-- A MARK closes the open round, unless it is empty. -/
def Rounds.close (x : Rounds) : Rounds :=
  if x.data = 0 then x
  else
    { x with outq := x.outq ++ [{ plainTok .mark with seq := x.data }], data := 0, done := x.done ||| x.pend, pend := 0 }

/-- A DATA token; the round closes at `n` tokens. -/
def Rounds.add (x : Rounds) (n : Nat) (t : Token) : Rounds :=
  let y := { x with outq := x.outq ++ [{ t with seq := x.data }], data := x.data + 1 }
  if n ≤ y.data then y.close else y

/-- A STOP, after a MARK where the round is open. -/
def Rounds.stop (x : Rounds) (lv : BitVec 3) : Rounds :=
  let y := x.close
  { y with outq := y.outq ++ [plainTok (.stop lv)], done := y.done ||| y.pend, pend := 0 }

/-- Flags that become sticky in a region (R176). -/
def Core.sticky (k : Core) (r : Fin 8) (f : Flags) : Core := k.modRegion r fun x => { x with flags := x.flags ||| f }

/-! ### Reads and writes of the cistern by sites and streams -/

/-- The NaN atoms, or all-ones bytes, of a poisoned read (R346). -/
def nanPayload (f : Option Fmt) : Frame :=
  match f with
  | some .c4 => packFrame 16 (List.replicate 16 0xFFFF)
  | some .c16 => packFrame 32 (List.replicate 8 0xFFFC_FFFF)
  | some .o16 => packFrame 16 (List.replicate 16 0x7FC0)
  | some .o32 => packFrame 32 (List.replicate 8 0x7FC0_0000)
  | some .oi => BitVec.allOnes 256
  | none => BitVec.allOnes 256

/-- The `n` bytes that an agent of core `c` sees from an offset of the core's cistern: the newest ones that it does not lag
behind (R262, R271; log 7). -/
def State.fabRead (s : State) (c : CoreId) (v : Agent) (o : Nat) : Nat → List Byte
  | 0 => []
  | n + 1 =>
    (s.staleByte v (.cistern c) o).getD ((s.core c).cistern.get o) :: State.fabRead s c v (o + 1) n

/-- A read of one token slot by a source, an agent of the core: a poisoned word, or a storage error that becomes one, gives
a poisoned token (R458, R461). The agent knows the writes it has read (R278). -/
def State.slotRead (s : State) (c : CoreId) (v : Agent) (o : Nat) (f : Option Fmt) : State × Frame × Bool :=
  let ws := wordsOf o 32
  let t := (ws.filter (s.core c).latent.contains).foldl (fun t w => t.meetAt c 0 (.word c w)) s
  if ws.any (t.core c).bad.contains then (t, nanPayload f, true)
  else (t.noteRead v (.cistern c) o 32, leFrame (s.fabRead c v o 32), false)

/-- One token written into the cistern by an agent; the words become full (R270, R329). -/
def Core.slotWrite (k : Core) (o : Nat) (p : Frame) (by_ : Agent) (serial : Nat) : Core :=
  (k.cisternWrite o (toLE 32 p.toNat)).setFull o 32 by_ serial

/-- The same as one event of a site or stream of the core (R261, R271). -/
def State.slotPut (s : State) (c : CoreId) (by_ : Agent) (o : Nat) (p : Frame) : State :=
  (s.noteWrite (.cistern c) o 32 by_).modCore c fun k => k.slotWrite o p by_ (s.serial + 1)

/-! ### Memory sites (R329 to R332) -/

/-- Cistern offset of token slot base + (i mod (len + 1)) of a memory site (R83, R330). -/
def MemCfg.slotAt (m : MemCfg) (i : Nat) : Nat := m.site.val * 0x4_0000 + 32 * (m.base + i % m.len)

/-- The compute site n.0 of memory site n. -/
def memLink (m : Fin 8) : Fin 64 := Fin.ofNat 64 (8 * m.val)

/-- The compute site n.7 of AG site n. -/
def agLink (a : Fin 8) : Fin 64 := Fin.ofNat 64 (8 * a.val + 7)

/-- The link into memory site `m` is fed by a route: its tokens are permits of a `mem.rd` (R383). -/
def Plane.permitMem (p : Plane) (m : Fin 8) : Bool :=
  match p.switch? (memLink m) with
  | some w => lnkSrc w 3 ≠ 0
  | none => false

/-- The same for the link into AG site `a`. -/
def Plane.permitAg (p : Plane) (a : Fin 8) : Bool :=
  match p.switch? (agLink a) with
  | some w => lnkSrc w 1 ≠ 0
  | none => false

/-- OP of a `mem.rmw` on one lane (R331). -/
def rmwLane (m : MemCfg) (x y : Nat) : Nat × Flags :=
  let a := BitVec.ofNat 32 x
  let b := BitVec.ofNat 32 y
  match m.op with
  | 0 => ((a + b).toNat, 0)
  | 1 => add32 x y
  | 2 => if fmtOf m.fmt = some .oi then ((if a.slt b then b else a).toNat, 0) else minMax f32 true x y
  | _ => if fmtOf m.fmt = some .oi then ((if b.slt a then b else a).toNat, 0) else minMax f32 false x y

/-- OP of a `mem.rmw` on a slot and a token. -/
def rmwToken (m : MemCfg) (slot p : Frame) : Frame × Flags :=
  let r := ((tokenInts slot).zip (tokenInts p)).map fun q => rmwLane m q.1.toNat q.2.toNat
  (packFrame 32 (r.map (·.1)), orFlags (r.map (·.2)))

/-- The phase counter of R332 after `c` tokens: phase, remaining count, whether the phase word was set full. -/
def phaseStep (expect : Nat) : Nat → Nat → Nat → Nat → Bool → Nat × Nat × Bool
  | 0, _, w0, w1, full => (w0, w1, full)
  | fuel + 1, c, w0, w1, full =>
    if c = 0 then (w0, w1, full)
    else
      let d := min c w1
      if w1 - d = 0 then phaseStep expect fuel (c - d) (w0 + 1) expect true
      else phaseStep expect fuel (c - d) w0 (w1 - d) full

/-- The commit of a memory sink's round (R238, R330 to R332): the writes in seq order. -/
def State.memWrites (s : State) (c : CoreId) (m : MemCfg) (pos : Nat) (ts : List Token) : State × Flags :=
  let me : Agent := .site c m.site
  -- a word of the site: each write sets the bit of its word (R329)
  let put (o v : Nat) (t : State) : State :=
    (t.noteWrite (.cistern c) o 8 me).modCore c fun k => (k.cisternWrite o (toLE 8 v)).setFull o 8 me (t.serial + 1)
  match m.mode with
  | 6 =>
    let o := m.slotAt 0
    let w0 := leNat ((s.core c).cisternRead o 8)
    let w1 := leNat ((s.core c).cisternRead (o + 8) 8)
    let (a, b, full) := phaseStep m.expect (ts.length + 1) ts.length w0 w1 false
    -- word 1 is written by every count, word 0 by a new phase
    let t := if ts.isEmpty then s else put (o + 8) b (s.readNewest me (.cistern c) o 16)
    (if full then put o a t else t, 0)
  | 2 =>
    ts.zipIdx.foldl (fun acc q =>
      let o := m.slotAt (pos + q.2)
      let (v, f) := rmwToken m (leFrame ((acc.1.core c).cisternRead o 32)) q.1.payload
      ((acc.1.readNewest me (.cistern c) o 32).slotPut c me o v, acc.2 ||| f)) (s, (0 : Flags))
  | _ =>
    ts.zipIdx.foldl (fun acc q =>
      (acc.1.slotPut c me (m.slotAt (pos + q.2)) q.1.payload,
       acc.2 ||| flagIf (m.len ≤ pos + q.2) fNv)) (s, (0 : Flags))

/-- The words that a `mem.rmw` commit reads hold an error. -/
def State.rmwBad (s : State) (c : CoreId) (m : MemCfg) (pos n : Nat) : Bool :=
  m.mode = 2 && (List.range n).any fun i =>
    (wordsOf (m.slotAt (pos + i)) 32).any fun w => (s.core c).bad.contains w || (s.core c).latent.contains w

/-- Errors that the commit is the first to meet (R461). -/
def State.rmwMeets (s : State) (c : CoreId) (m : MemCfg) (pos n : Nat) : State :=
  if m.mode ≠ 2 then s
  else ((((List.range n).map fun i => wordsOf (m.slotAt (pos + i)) 32).flatten.dedup).filter (s.core c).latent.contains).foldl
    (fun t w => t.meetAt c 0x21 (.word c w)) s

/-- The words a `mem.sync` commit writes are all empty (R330). -/
def Core.syncReady (k : Core) (m : MemCfg) (pos n : Nat) : Bool :=
  m.mode ≠ 5 || (List.range n).all fun i => (wordsOf (m.slotAt (pos + i)) 32).all fun w => !k.full.contains w

/-- A memory sink commits its round and does `after` (R237, R238, R460); `none` while a `mem.sync` must wait. -/
def State.memCommit (s : State) (c : CoreId) (r : Fin 8) (m : MemCfg) (after : MemSite → MemSite) : State :=
  let x := (s.core c).fab.mems[m.site]
  if x.hold.any (·.poison) || s.rmwBad c m x.pos x.hold.length then
    (s.rmwMeets c m x.pos x.hold.length).modCore c fun k => k.fabFault 0x21 r (siteId 2 m.site.val)
  else if !(s.core c).syncReady m x.pos x.hold.length then s
  else
    let (t, f) := s.memWrites c m x.pos x.hold
    t.modCore c fun k =>
      ((k.bumpRound.sticky r (x.pendFlags ||| f)).modMem m.site fun y =>
        after { y with inReg := none, pos := y.pos + y.hold.length, hold := [], pendFlags := 0, commits := y.commits + 1,
                       stall := y.stall.fire s.now }).progress r s.now

/-- A memory sink takes the token at its input (R329). -/
def State.memSink (s : State) (c : CoreId) (r : Fin 8) (m : MemCfg) : State :=
  let x := (s.core c).fab.mems[m.site]
  match x.inReg with
  | none => s
  | some t =>
    let take (f : MemSite → MemSite) : State :=
      s.modCore c fun k =>
        (k.modMem m.site fun y =>
          f { y with inReg := none, stall := y.stall.fire s.now }).progress r s.now
    match t.kind with
    | .data => take fun y => { y with hold := y.hold ++ [t] }
    | .scale => take fun y => { y with pendFlags := y.pendFlags ||| fNv }
    | .abort => take id
    | .mark => s.memCommit c r m id
    | .stop _ =>
      s.memCommit c r m fun y => { y with pos := 0, passes := y.passes + 1, finished := m.passes ≤ y.passes + 1 }

/-- The source fields of a memory site as rounds. -/
def MemSite.rounds (x : MemSite) : Rounds := { outq := x.outq, data := x.roundData, pend := x.pendFlags, done := 0 }

/-- A memory source after it has emitted. -/
def Core.memEmit (k : Core) (r : Fin 8) (m : Fin 8) (x : Rounds) (now : Nat) : Core :=
  ((k.sticky r x.done).modMem m fun y =>
    { y with outq := x.outq, roundData := x.data, pendFlags := x.pend, stall := y.stall.fire now }).progress r now

/-- A source starts no round while a pre-emption of its region is requested (R26, R417). -/
def Core.stopsRound (k : Core) (r : Fin 8) (t : Token) : Bool :=
  (k.fab.regions[r].stopping).isSome && t.kind = .data && t.seq = 0

/-- `mem.rd` reads its next slot (R330): STOP1 after every pass. A SCALE among its permits is invalid (R383, R484). -/
def State.memRead (s : State) (c : CoreId) (r : Fin 8) (p : Plane) (m : MemCfg) : State :=
  let x := (s.core c).fab.mems[m.site]
  let permit := p.permitMem m.site
  match x.inReg, permit with
  | some t, true =>
    s.modCore c fun k =>
      (k.modMem m.site fun y =>
        { y with
          inReg := none
          credit := y.credit + (if t.kind = .data then 1 else 0)
          pendFlags := y.pendFlags ||| flagIf (t.kind = .scale) fNv }).progress r s.now
  | _, _ =>
    if x.finished || !x.outq.isEmpty || (permit && x.credit < 1) ||
        (x.roundData = 0 && ((s.core c).fab.regions[r].stopping).isSome) then s
    else
      let (t, v, bad) := s.slotRead c (.site c m.site) (m.slotAt x.pos) (fmtOf m.fmt)
      let ds := x.rounds.add 1024 (dataTok v 0 bad)
      let last := m.len ≤ x.pos + 1
      let ds := if last then ds.stop 1 else ds
      t.modCore c fun k =>
        (k.memEmit r m.site ds s.now).modMem m.site fun y =>
          { y with
            credit := if permit then y.credit - 1 else y.credit
            pos := if last then 0 else y.pos + 1
            passes := if last then y.passes + 1 else y.passes
            finished := last && m.passes ≤ y.passes + 1 }

/-- `mem.tab` serves an index token (R330). -/
def State.memTab (s : State) (c : CoreId) (r : Fin 8) (m : MemCfg) : State :=
  let x := (s.core c).fab.mems[m.site]
  match x.inReg with
  | none => s
  | some t =>
    if !x.outq.isEmpty then s
    else
      let emit (s : State) (d : Rounds) : State :=
        s.modCore c fun k => (k.memEmit r m.site d s.now).modMem m.site fun y => { y with inReg := none }
      match t.kind with
      | .data =>
        let i := bits t.payload 0 13
        if m.len ≤ i || bits t.payload 13 243 ≠ 0 then
          emit s ({ x.rounds with pend := x.pendFlags ||| fNv }.add 1024 (dataTok 0 0 t.poison))
        else
          let (s', v, bad) := s.slotRead c (.site c m.site) (m.slotAt i) (fmtOf m.fmt)
          emit s' (x.rounds.add 1024 (dataTok v 0 (bad || t.poison)))
      | .stop lv => emit s (x.rounds.stop lv)
      | .scale => emit s { x.rounds with pend := x.pendFlags ||| fNv }
      | .mark => emit s x.rounds
      | .abort => emit s x.rounds

/-- `mem.fifo` takes a token into its slots (R330): the payload lies in the slot meanwhile. -/
def State.memFifo (s : State) (c : CoreId) (r : Fin 8) (m : MemCfg) : State :=
  let x := (s.core c).fab.mems[m.site]
  match x.inReg with
  | some t =>
    if x.hold.length < m.len then
      (s.slotPut c (.site c m.site) (m.slotAt x.pos) t.payload).modCore c fun k =>
        (k.modMem m.site fun y =>
          { y with inReg := none, hold := y.hold ++ [t], pos := y.pos + 1, stall := y.stall.fire s.now }).progress r s.now
    else s
  | none => s

/-- The next token a memory site sends: what it holds for the link, or the head of its FIFO as its slot holds it, poisoned
where the slot is (R458, R461). -/
def State.memHead (s : State) (c : CoreId) (m : MemCfg) : Option (State × Token) :=
  let x := (s.core c).fab.mems[m.site]
  if m.mode = 3 then
    match x.hold with
    | t :: _ =>
      if t.kind ≠ .data then some (s, t)
      else
        let (u, v, bad) := s.slotRead c (.site c m.site) (m.slotAt (x.pos - x.hold.length)) (fmtOf m.fmt)
        some (u, { t with payload := v, poison := t.poison || bad })
    | [] => none
  else (x.outq.head?).map fun t => (s, t)

/-- The head leaves for the W link of site n.0. -/
def State.memSend (s : State) (c : CoreId) (r : Fin 8) (p : Plane) (m : MemCfg) (t : Token) : State :=
  s.modCore c fun k =>
    ((k.modMem m.site fun y =>
      if m.mode = 3 then { y with hold := y.hold.drop 1 } else { y with outq := y.outq.drop 1 }).put p t
        (.link (memLink m.site) 3)).progress r s.now

/-- MEMORY_SITE_ACCESS: the next access of the site's mode, or the sending of a token it holds (R329, R330). -/
def State.memAccess (s : State) (c : CoreId) (i : Fin 8) : State :=
  match (s.core c).memOwner i with
  | none => s
  | some (r, p, m) =>
    if !(s.core c).fab.regions[r].moves || p.bad then s
    else
      match (if (s.core c).room p (.link (memLink i) 3) then s.memHead c m else none) with
      | some (u, t) => if m.mode = 4 && (s.core c).stopsRound r t then s else u.memSend c r p m t
      | none =>
        match m.mode with
        | 0 => s.memRead c r p m
        | 3 => s.memFifo c r m
        | 4 => s.memTab c r m
        | _ => s.memSink c r m

/-- MEMORY_SITE_ACCESS (R330). -/
def execMemorySiteAccess (c : CoreId) (m : Fin 8) (s : State) : Out :=
  .next (if s.shut then s else s.after c (s.memAccess c m))

end Sys2Proof.Machine
end

