-- ==== Sys2Proof/Machine/SluiceArray.lean ====
section
/-! DEFINITION. The array of a sluice context (R350, R354, R355): one line through its frames. -/

namespace Sys2Proof.Machine

open Sys2Proof

/-- A frame with another site address. -/
def Frame.atSite (f : Frame) (site : Nat) : Frame :=
  f - (BitVec.ofNat 256 (siteOf f) <<< 232) + (BitVec.ofNat 256 site <<< 232)

/-- Site address of a sluice frame on the array of a core: row and column of two bits each (R80, R350). -/
def sluiceSite (n : Nat) : Nat := 8 * (n / 4 % 4) + n % 4

/-- The frame that stands for the controller's input at the W link of site 0.0 (R350). -/
def inputFrame : Frame := BitVec.ofNat 256 (2 * 2 ^ 252)

/-- A polder that holds a context on its first rows, running as region 0. R195 takes the seed of a `map.rand` from the kick
of a region, which a context does not have: the model draws with seed 0 (R257, R351, R354; log 86). -/
def sluicePolder (frames : List Frame) : Core :=
  let p : Plane := { Plane.reset with frames := inputFrame :: frames.map fun f => Frame.atSite f (sluiceSite (siteOf f)) }
  let fab := Fabric.reset
  { Core.reset with fab :=
      { fab with
        planes := setAt fab.planes 0 p
        regions := setAt fab.regions 0 { Region.reset with sel := some 0, run := true }
        sites := mapVec (fun s => { s with gate := .awake }) fab.sites } }

/-- The sites of a sluice array. -/
def sluiceSites : List (Fin 64) := (List.range 16).map fun n => Fin.ofNat 64 (sluiceSite n)

/-- One cycle of the array: tokens move, sites fire. -/
def sluiceCycle (k : Core) (now : Nat) : Core :=
  sluiceSites.foldl (fun k i =>
    let k := (fins 4).foldl (fun k d => (k.hopLink i d now).hopOut i d now) k
    k.fireSite i now) k

/-- What has left by the E link of site 0.3 (R350). -/
def sluiceOut (k : Core) : List Token := k.fab.links[linkIx 4 3]

/-- The array runs until the line's STOP has left, a fault has stopped it, or nothing more can come. -/
def sluiceRun : Nat → Nat → List Token → Core → Core
  | 0, _, _, k => k
  | n + 1, now, inp, k =>
    if k.fab.regions[(0 : Fin 8)].stray || (sluiceOut k).any (fun t => match t.kind with
        | .stop _ => true
        | _ => false) then k
    else
      let p := k.fab.planes[(0 : Fin 4)]
      match inp with
      | t :: r =>
        if k.room p (.link 0 3) then sluiceRun n (now + 1) r (sluiceCycle (k.put p t (.link 0 3)) now)
        else sluiceRun n (now + 1) inp (sluiceCycle k now)
      | [] => sluiceRun n (now + 1) [] (sluiceCycle k now)

/-- What a context makes of the tokens of a line: tokens, flags, and the code of a fault (R354, R355). -/
structure SluiceResult where
  tokens : List (Frame × Bool)
  flags : Flags
  fault : Option Code
  deriving DecidableEq, Repr

/-- Cycles after which a context gives no further token: the longest delays of its sixteen sites. -/
def sluiceCycles : Nat := 20480

/-- A line passes a context as one round: its tokens, a MARK, a STOP1 (R354). -/
def sluicePass (frames : List Frame) (toks : List (Frame × Bool)) : SluiceResult :=
  let inp := (toks.zipIdx.map fun q => { dataTok q.1.1 0 q.1.2 with seq := q.2 }) ++
    [{ plainTok .mark with seq := toks.length }, plainTok (.stop 1)]
  let k := sluiceRun sluiceCycles 0 inp (sluicePolder frames)
  let out := (sluiceOut k).filter fun t => t.kind = .data
  { tokens := out.map fun t => (t.payload, t.poison)
    flags := k.fab.regions[(0 : Fin 8)].flags ||| flagIf (out.length ≠ toks.length) fNv
    fault := (k.pump.asyncs.head?).map (·.code) }

end Sys2Proof.Machine
end

