-- ==== Sys2Proof/Machine/Memory.lean ====
section
/-! DEFINITION. Loads, stores, prefetches, atomics, fences and near-memory updates of the pump (R294 to R304). -/

namespace Sys2Proof.Machine

open Sys2Proof

/-! ### Loads and stores (R294 to R300) -/

/-- The word that an access of core `c` names, where its address leads (R277). -/
def State.wordPlace (s : State) (c : CoreId) (cistern : Bool) (ea : Word) (n : Nat) : Option (Bank × Nat × Nat) :=
  if cistern then match s.cisternPlace c ea with
    | .here k o => some (.cistern k, o, n)
    | _ => none
  else match s.translate c ea .rd with
    | .at pa => some (.memory, pa, n)
    | _ => none

/-- `ld` (R296); with an order it is an acquire at its scope (R276, R277). -/
def execLd (size : LdSize) (cistern : Bool) (acq : Option Scope) (d a : Reg) (imm : BitVec 32) (s : State) : Out :=
  s.outcome s.cur (.ld size cistern acq d a imm) do
    let ea := (s.pump s.cur).ea a imm
    let bs ← s.load s.cur cistern ea size.bytes
    let t := s.readThrough s.cur cistern ea size.bytes
    let t := match acq with
      | some scope => t.acquire s.cur scope (s.wordPlace s.cur cistern ea size.bytes)
      | none => t
    return t.giveResult s.cur d (size.extend (leNat bs))

/-- `st` (R296). As a release at its scope, the pump's earlier stores are performed first (R276, R277). -/
def execSt (size : StSize) (cistern : Bool) (rel : Option Scope) (d a : Reg) (imm : BitVec 32) (s : State) : Out :=
  s.outcome s.cur (.st size cistern rel d a imm) do
    let p := s.pump s.cur
    let ea := p.ea a imm
    let t := match rel with
      | some scope => s.releaseAt s.cur scope
      | none => s
    let t ← t.store s.cur cistern ea (toLE size.bytes (p.read d).toNat)
    return (t.issued s.cur).goOn s.cur

/-- Clear a full-empty bit: the word is emptied (R297). -/
def Core.setEmpty (k : Core) (w : Nat) : Core :=
  { k with full := k.full.filter (· ≠ w), setBy := k.setBy.filter (·.1 ≠ w) }

/-- What the `lds` of core `c` that finds word `o` of core `k` full acquires: the write that set the bit, with what its agent
did before, where that is an agent of the core (R268) or an engine (R289), and the releases at `.core` (R276); and it reads
the newest write. -/
def State.acquireFull (s : State) (c k : CoreId) (o : Nat) : State :=
  let t := match (s.core k).setBy.find? (·.1 = o / 8) with
    | some (_, u, n) => if u.core? = some c then s.passOn u (.pump c) n else s
    | none => s
  let t := t.acquireWhere (.pump c) .pod fun r => r.engine && t.inSequence (.pump c) (.cistern k) o 8 r
  (t.seeNewest (.pump c) (.cistern k) o 8).acquireAt (.pump c) .core (.cistern k) o 8

/-- `lds`: wait until the word is full, then read it and set it empty in one event, as an acquire (R268, R297). -/
def State.ldsTry (s : State) (c : CoreId) (d a : Reg) (imm : BitVec 32) : Except Stop State := do
  let ea := (s.pump c).ea a imm
  let (k, o) ← s.cisternAt c ea 8
  if !(s.core k).full.contains (o / 8) then throw (.wait (some 2))
  guardStop (s.cisternStop k o 8 ea)
  let v := leWord ((s.core k).cisternRead o 8)
  return ((s.acquireFull c k o).modCore k fun x => x.setEmpty (o / 8)).giveResult c d v

/-- `lds` (R297). -/
def execLds (d a : Reg) (imm : BitVec 32) (s : State) : Out :=
  s.outcome s.cur (.lds d a imm) (s.ldsTry s.cur d a imm)

/-- `stf`: write the word and set it full in one event; a release at `.core` (R276, R297). A word of a lost slot is
dropped (R441). -/
def execStf (d a : Reg) (imm : BitVec 32) (s : State) : Out :=
  s.outcome s.cur (.stf d a imm) do
    let p := s.pump s.cur
    let ea := p.ea a imm
    if ea.toNat % 8 ≠ 0 then throw (fault 0x02 ea)
    let t := s.releaseAt s.cur .core
    match s.cisternPlace s.cur ea with
    | .here k o =>
      return (((t.putCistern s.cur k o (toLE 8 (p.read d).toNat)).issued s.cur).modCore k fun x =>
        x.setFull o 8 (.pump s.cur) t.serial).goOn s.cur
    | .lost => return (t.issued s.cur).goOn s.cur
    | .closed => throw (fault 0x04 ea)

/-- `ldq`: the bytes of the format, zeros above them, and the tag (R299). -/
def execLdq (f : Fmt) (cistern : Bool) (q : BitVec 4) (a : Reg) (imm : BitVec 32) (s : State) : Out :=
  s.outcome s.cur (.ldq f cistern q a imm) do
    let ea := (s.pump s.cur).ea a imm
    let bs ← s.load s.cur cistern ea f.bytes
    return (s.readThrough s.cur cistern ea f.bytes).modPump s.cur fun p =>
      { p with q := setAt p.q q.toFin { val := BitVec.ofNat 128 (leNat bs), tag := f } }.advance

/-- `stq`: the low bytes of q, whatever its tag holds (R299). -/
def execStq (f : Fmt) (cistern : Bool) (q : BitVec 4) (a : Reg) (imm : BitVec 32) (s : State) : Out :=
  s.outcome s.cur (.stq f cistern q a imm) do
    let p := s.pump s.cur
    let t ← s.store s.cur cistern (p.ea a imm) (toLE f.bytes p.q[q.toFin].val.toNat)
    return t.goOn s.cur

/-- `pref`: an event of no kind (R300). `pref.xl` brings a present translation into the core's TLB; `pref.l2` moves a
line towards a cache, which no value shows. -/
def execPref (kind : PrefKind) (a : Reg) (imm : BitVec 32) (s : State) : Out :=
  let ea := (s.pump s.cur).ea a imm
  let t := s.goOn s.cur
  match kind with
  | .l2 => .next t
  | .xl =>
    if ea.toNat ≥ 2 ^ 56 then .next t
    else match s.walkFor s.cur ea.toNat with
      | .page e => .next (t.modCore s.cur fun k => if k.tlb.contains e then k else { k with tlb := k.tlb ++ [e] })
      | _ => .next t

/-! ### Atomics (R301) -/

end Sys2Proof.Machine

namespace Sys2Proof

open Machine

/-- The word size of an `amo` (R301). -/
def AmoOp.bytes : AmoOp → Nat
  | .fadd => 4
  | _ => 8

end Sys2Proof

namespace Sys2Proof.Machine

open Sys2Proof

/-- FP32 addition on codes, without flags (R301, R303). -/
def faddCode (x y : Nat) : Nat := (addNum f32 (Num.ofCode f32 x) (Num.ofCode f32 y)).1

end Sys2Proof.Machine

namespace Sys2Proof

open Machine

/-- The new value of an `amo` (R301). -/
def AmoOp.apply (op : AmoOp) (old b : Word) : Word :=
  match op with
  | .add => old + b
  | .fadd => BitVec.ofNat 64 (faddCode (old.toNat % 2 ^ 32) (b.toNat % 2 ^ 32))
  | .and => old &&& b
  | .or => old ||| b
  | .xor => old ^^^ b
  | .min => if old.slt b then old else b
  | .max => if old.slt b then b else old
  | .minn => if old.ult b then old else b
  | .maxn => if old.ult b then b else old
  | .swp => b

end Sys2Proof

namespace Sys2Proof.Machine

open Sys2Proof

/-- The write of a read-modify-write at `pa` by core `c`: in the L1 bank of its own write bind, else at the point of
coherence, after its own earlier writes to those bytes (R262, R281, R282, R301). -/
def State.rmwWrite (s : State) (c : CoreId) (pa : Nat) (bytes : List Byte) : State :=
  match s.writeBind c pa with
  | some _ => s.issueWrite c pa bytes
  | none =>
    let t := s.performWhere fun w => w.core = c && overlaps w.pa w.bytes.length pa bytes.length
    match t.perform pa bytes false (.pump c) true (t.carries c) with
    | (t', none) => t'
    | (t', some line) => t'.postAsync c (poison22 line)

/-- The scope that an `amo` ordering carries. -/
def amoScope : AmoScope → Scope
  | .core => .core
  | .quad => .quad
  | .die => .die
  | .pkg => .pkg
  | .pod => .pod

/-- The order has an acquire part, at its scope (R70, R276). -/
def acquires : AmoOrd → Option Scope
  | .relaxed => none
  | .acq scope => some (amoScope scope)
  | .rel _ => none
  | .ar scope => some (amoScope scope)

/-- The scope of its release part. -/
def releaseScope : AmoOrd → Option Scope
  | .relaxed => none
  | .acq _ => none
  | .rel scope => some (amoScope scope)
  | .ar scope => some (amoScope scope)

/-- One `amo`, which sees the newest write of its bytes (R281): `new` gives the value to write, `none` where a failed `cas`
only reads; its release part then has no effect. What its acquire part orders its release part carries (R276, R301). -/
def State.amo (s : State) (c : CoreId) (d a : Reg) (size : Nat) (ord : AmoOrd) (new : Word → Option Word) :
    Except Stop State := do
  let ea := (s.pump c).read a
  if ea.toNat % size ≠ 0 then throw (fault 0x02 ea)
  let pa ← s.paOf c ea .rw
  guardStop (s.lineStop pa ea)
  let s := (s.seeNewest (.pump c) .memory pa size).noteRead (.pump c) .memory pa size
  let old := leWord (s.view c pa size)
  let t := match acquires ord with
    | some scope => s.acquireAt (.pump c) scope .memory pa size
    | none => s
  let t := match new old with
    | none => t
    | some v =>
      ((match releaseScope ord with
        | some scope => t.releaseAt c scope
        | none => t).rmwWrite c pa (toLE size v.toNat)).issued c
  return t.giveResult c d old

/-- `amo` (R301). -/
def execAmo (op : AmoOp) (ord : AmoOrd) (d a b : Reg) (s : State) : Out :=
  s.outcome s.cur (.amo op ord d a b)
    (s.amo s.cur d a op.bytes ord fun old => some (op.apply old ((s.pump s.cur).read b)))

/-- `amo.cas` (R301). -/
def execAmoCas (ord : AmoOrd) (d a b c : Reg) (s : State) : Out :=
  s.outcome s.cur (.amoCas ord d a b c)
    (s.amo s.cur d a 8 ord fun old =>
      if old = (s.pump s.cur).read b then some ((s.pump s.cur).read c) else none)

/-- `fence` (R279, R302): the pump goes on when its earlier stores are performed. -/
def execFence (scope : Scope) (s : State) : Out := .next ((s.fenceAt s.cur scope).goOn s.cur)

/-! ### Near-memory updates (R303, R304, R356) -/

end Sys2Proof.Machine

namespace Sys2Proof

open Machine

/-- The new value of an `nma` (R303). -/
def NmaOp.apply (op : NmaOp) (old v : BitVec 32) : BitVec 32 :=
  match op with
  | .fadd => BitVec.ofNat 32 (faddCode old.toNat v.toNat)
  | .add => old + v
  | .max => if old.slt v then v else old
  | .min => if old.slt v then old else v
  | .fmax => BitVec.ofNat 32 (minMax f32 true old.toNat v.toNat).1
  | .fmin => BitVec.ofNat 32 (minMax f32 false old.toNat v.toNat).1

end Sys2Proof

namespace Sys2Proof.Machine

open Sys2Proof

/-- The `nma` of core `c` not yet performed. -/
def State.nmaCount (s : State) (c : CoreId) : Nat := s.nmas.countP (·.core = c)

/-- The flow of core `c` holds 256 completion records that wait (R359). -/
def State.recordsFull (s : State) (c : CoreId) : Bool :=
  match s.flowOf c with
  | some f => 256 ≤ f.due.length
  | none => false

/-- `nma`: checked at issue, sent without a return; the 257th waits (R303), and so does one behind 256 waiting
completion records (R359). -/
def State.nmaTry (s : State) (c : CoreId) (op : NmaOp) (d a : Reg) (imm : BitVec 32) : Except Stop State := do
  let p := s.pump c
  let ea := p.ea a imm
  if !s.part.feature 18 then throw (fault 0x12 (encode (.nma op d a imm)))
  if ea.toNat % 4 ≠ 0 then throw (fault 0x02 ea)
  let pa ← s.paOf c ea .rw
  if 256 ≤ s.nmaCount c || s.recordsFull c then throw (.wait (some 5))
  let n : NmaOpPending := { core := c, op := op, pa := pa, va := ea, value := (p.read d).setWidth 32 }
  let t := { s with nmas := s.nmas ++ [n] }
  return (t.modPump c fun p => { p with nmaBatch := p.nmaBatch + 1 }).goOn c

/-- `nma` (R303). -/
def execNma (op : NmaOp) (d a : Reg) (imm : BitVec 32) (s : State) : Out :=
  s.outcome s.cur (.nma op d a imm) (s.nmaTry s.cur op d a imm)

/-- A completion record becomes due; it takes its number in this order (R359). -/
def State.addDue (s : State) (flow : BitVec 32) (r : DueRecord) : State :=
  { s with flows := s.flows.map fun f => if f.num = flow then { f with due := f.due ++ [r] } else f }

/-- `nmf` waits until every earlier `nma` of the pump is performed (R287, R304); it closes the batch, which writes one
record when the launch enables batch records and the batch is not empty, and waits while 256 records wait (R359). -/
def State.nmfTry (s : State) (c : CoreId) : Except Stop State := do
  if s.nmaCount c ≠ 0 then throw (.wait (some 5))
  let p := s.pump c
  let l := s.launch c
  let record := l.batches && p.nmaBatch ≠ 0
  if record && s.recordsFull c then throw (.wait (some 5))
  let t := if record then
      s.addDue p.flow { kind := 2, status := 0, code := 0, flags := 0, amount := BitVec.ofNat 64 p.nmaBatch, core := c,
                        handle := 0, addr := p.pc, by_ := .near c, upTo := s.serial }
    else s
  return ((t.passOn (.near c) (.pump c)).modPump c fun p => { p with nmaBatch := 0 }).goOn c

/-- `nmf` (R304). -/
def execNmf (s : State) : Out := s.outcome s.cur .nmf (s.nmfTry s.cur)

end Sys2Proof.Machine
end

