-- ==== Sys2Proof/Machine/Queues.lean ====
section
/-! DEFINITION. User queues, their doorbells, and the accesses the pumphouse and the engines make (R399 to R401,
R406, R410, R434 to R436). -/

namespace Sys2Proof.Machine

open Sys2Proof

/-- The created queue of a number. -/
def State.queue? (s : State) (q : Nat) : Option Queue := s.queues.find? (·.num.val = q)

/-- Change a queue. -/
def State.modQueue (s : State) (q : Nat) (f : Queue → Queue) : State :=
  { s with queues := s.queues.map fun x => if x.num.val = q then f x else x }

/-- The flow of a number. -/
def State.flow? (s : State) (n : BitVec 32) : Option Flow := s.flows.find? (·.num = n)

/-- Change a flow. -/
def State.modFlow (s : State) (n : BitVec 32) (f : Flow → Flow) : State :=
  { s with flows := s.flows.map fun x => if x.num = n then f x else x }

/-- The mapped slot of a pumphouse. -/
def State.slotAt (s : State) (d : Fin 4) (i : Fin 16) : Option Slot := (s.houses[d]).slots[i]

/-- Change a pumphouse. -/
def State.modHouse (s : State) (d : Fin 4) (f : House → House) : State := { s with houses := setAt s.houses d (f s.houses[d]) }

/-- Change a mapped slot. -/
def State.modSlot (s : State) (d : Fin 4) (i : Fin 16) (f : Slot → Option Slot) : State :=
  s.modHouse d fun h => { h with slots := setAt h.slots i (h.slots[i].bind f) }

/-- The die and slot a queue is mapped in. -/
def State.mappedAt (s : State) (q : Nat) : Option (Fin 4 × Fin 16) :=
  (fins 4).findSome? fun d => ((fins 16).find? fun i => match s.slotAt d i with
    | some x => x.queue.val = q
    | none => false).map fun i => (d, i)

/-- The pre-empted flows of a queue number, the earliest first. -/
def State.saved (s : State) (q : Nat) : List Flow := s.flows.filter fun f => f.queue.val = q && f.state = .saved

/-- The queue of a number is in the error state. -/
def State.queueErr (s : State) (q : Nat) : Bool := (s.queue? q).any (·.err)

/-- The pre-empted flows that a slot of a queue number holds: in the error state of the queue, those of the destroyed queue that
had the number before it, whose slot stays mapped until they are placed (R403, R475). -/
def State.waitingFlows (s : State) (q : Nat) : List Flow :=
  if s.queueErr q then (s.saved q).filter (·.orphan) else s.saved q

/-- A queue in the error state is unmapped at once, but for flows of a destroyed queue of its number (R403). -/
def State.unmap (s : State) (q : Nat) : State :=
  match s.mappedAt q with
  | some (d, i) =>
    s.modSlot d i fun x => if (s.waitingFlows q).isEmpty then none else some { x with ready := false, page := none }
  | none => s

/-- A queue enters the error state: the code in its status, and a host event of kind 1 (R399, R406, R476). -/
def State.queueError (s : State) (q : Nat) (code : Code) (flow : BitVec 32) : State :=
  (s.modQueue q fun x => { x with code := code, err := true }).hostEvent 1 code (BitVec.ofNat 16 q) flow 0

/-- A write by an agent, performed at once; one of a pump that is dropped for poison tells it (R345). -/
def State.engineWrite (s : State) (by_ : Agent) (pa : Nat) (bytes : List Byte) (rels : List Nat := []) : State :=
  match s.perform pa bytes false by_ false rels, by_ with
  | (t, some line), .pump k => t.postAsync k (poison22 line)
  | (t, _), _ => t

/-- A release at `.pod` by an agent, which the pumphouses acquire with the notify register or doorbell word it writes (R414,
R415, R474). -/
def State.toHouses (s : State) (by_ : Agent) : State := s.passOn by_ .house s.serial

/-- Write bytes line by line, as events of at most a line each. -/
def State.engineWriteAll (s : State) (c : Agent) (pa : Nat) (bytes : List Byte) : Nat → State
  | 0 => s
  | fuel + 1 =>
    if bytes.isEmpty then s
    else
      let n := 256 - pa % 256
      State.engineWriteAll (s.engineWrite c pa (bytes.take n)) c (pa + n) (bytes.drop n) fuel

/-- The doorbell word of a queue, or how its translation fails (R401). -/
def State.doorbell (s : State) (q : Queue) : Trans := s.translateIn q.space q.doorbell .rw

/-- The value of a doorbell word at its physical address. -/
def State.wordAt (s : State) (pa : Nat) : Word := leWord (s.mem.read pa 8)

/-- The doorbell of a queue at its physical address: 0 until its first write (R475). -/
def State.bellAt (s : State) (q : Queue) (pa : Nat) : Word := if q.fresh then 0 else s.wordAt pa

/-- doorbell ← max(doorbell, b) as one read-modify-write event (R401). -/
def State.raiseDoorbell (s : State) (q : Queue) (pa : Nat) (b : Word) : State :=
  let old := s.bellAt q pa
  let t := if q.fresh || old.ult b then s.engineWrite .house pa (toLE 8 (if old.ult b then b else old).toNat) else s
  t.modQueue q.num.val fun x => { x with fresh := false }

/-- A write of the notify register of queue `q` (R401): it waits behind earlier ones on a page request; a page that
forbids it puts the queue into the error state with code 0x04. -/
def State.notifyQueue (s : State) (q : Queue) (b : Word) : State :=
  if q.page.isSome then s.modQueue q.num.val fun x => { x with waiting := x.waiting ++ [b] }
  else match s.doorbell q with
    | .at pa => s.raiseDoorbell q pa b
    | .absent =>
      let (t, id) := s.postPage q.doorbell Need.rw.access 8 q.space 0 none
      t.modQueue q.num.val fun x => { x with waiting := x.waiting ++ [b], page := some id }
    | .forbidden => (s.queueError q.num.val 0x04 0).unmap q.num.val

/-- Virtual address of record `k` (R399). -/
def Queue.recordAt (q : Queue) (k : Nat) : Word := q.base + BitVec.ofNat 64 (256 * (k % 2 ^ q.log2n))

/-- The `n` bytes that the pumphouses see from a physical address: each event the newest write they do not lag behind (R400;
log 7). -/
def State.houseBytes (s : State) (pa : Nat) : Nat → List Byte
  | 0 => []
  | n + 1 => (s.staleByte .house .memory pa).getD (s.mem.get pa) :: State.houseBytes s (pa + 1) n

/-- A physical read by the pumphouse at a virtual address of a space, page by page (64 KB, R429). -/
def State.readPages (s : State) (space : BitVec 8) : Nat → Word → Nat → Option (List Byte)
  | 0, _, _ => some []
  | fuel + 1, va, n =>
    if n = 0 then some []
    else match s.translateIn space va .rd with
      | .at pa =>
        let m := min n (65536 - va.toNat % 65536)
        (State.readPages s space fuel (va + BitVec.ofNat 64 m) (n - m)).map (s.houseBytes pa m ++ ·)
      | _ => none

/-- `n` bytes at a virtual address of a space. -/
def State.readIn (s : State) (space : BitVec 8) (va : Word) (n : Nat) : Option (List Byte) :=
  s.readPages space (n / 65536 + 2) va n

end Sys2Proof.Machine
end

