-- ==== Sys2Proof/Machine/System.lean ====
section
/-! DEFINITION. The system instructions (R117 to R126) and the end of a pump's part of a flow (R124, R318). -/

namespace Sys2Proof.Machine

open Sys2Proof

/-- `trap` takes trap 0x08; `s.epc` is the next instruction (R117, R123). -/
def execTrap (imm : BitVec 32) (s : State) : Out :=
  .next (s.stop s.cur (.trap imm)
    (.trap { code := 0x08, fab := false, region := 0, tval := zext32 imm } true))

/-- `brk` takes trap 0x07 with `s.tval` 0 (R117, R123). -/
def execBrk (s : State) : Out :=
  .next (s.stop s.cur .brk (.trap { code := 0x07, fab := false, region := 0, tval := 0 } true))

/-- `eret` (R119). -/
def execEret (s : State) : Out :=
  let p := s.pump s.cur
  s.outcome s.cur .eret
    (if !p.ht then .error (illegal .eret)
     else if p.epc.toNat % 8 ≠ 0 then .error (fault 0x02 p.epc)
     else .ok (s.modPump s.cur Pump.returnFromTrap))

/-- `srd` (R55, R123). -/
def execSrd (d : Reg) (sreg : SReg) (s : State) : Out := .next (s.giveResult s.cur d (s.readSReg s.cur sreg))

/-- `swr`: a non-zero reserved bit is fault 0x01 and leaves the register (R123). -/
def execSwr (sreg : SReg) (a : Reg) (s : State) : Out :=
  let v := (s.pump s.cur).read a
  s.outcome s.cur (.swr sreg a)
    (if v &&& sreg.reserved ≠ 0 then .error (illegal (.swr sreg a))
     else .ok (s.modPump s.cur fun p => (p.writeSReg sreg v).advance))

/-- `nop` (R123). -/
def execNop (s : State) : Out := .next (s.goOn s.cur)

/-- `yield`: with ypend = 1 the pump stops after it (R125). -/
def execYield (s : State) : Out :=
  .next (s.modPump s.cur fun p =>
    let q := p.advance
    if q.ypend then { q with run := .frozen } else q)

/-- `feat` (R123, R126). -/
def execFeat (d : Reg) (n : BitVec 8) (s : State) : Out :=
  .next (s.giveResult s.cur d (if s.part.feature n.toNat then 1 else 0))

/-! ### halt (R124, R318) -/

/-- A region of the core still runs, or stands in the stray state (R124, R393). -/
def Fabric.anyRunning (f : Fabric) : Bool := (fins 8).any fun r => f.regions[r].run

/-- A kind 2 stream still has rounds to perform that a published MARK or STOP has closed (R318). -/
def Handle.closing (x : Handle) : Bool :=
  match x.stream with
  | some t => t.kind = .output && !t.ended && x.items.any fun i => match i with
      | .slot _ _ => false
      | .mark _ => true
      | .stop _ => true
  | none => false

/-- The record of a stream with rec = 1 that has ended, when `serial` writes have been made (R289, R358, R359). -/
def Stream.due (t : Stream) (c : CoreId) (h : BitVec 6) (serial : Nat) : DueRecord :=
  { kind := 1
    status := if t.fault.isSome then 1 else 0
    code := t.fault.getD 0
    flags := t.flags
    amount := BitVec.ofNat 64 t.committed
    core := c
    handle := h
    addr := t.desc
    by_ := .ag c t.ag
    upTo := serial }

/-- Filled slots of a ring whose stream has ended: the last one counts although only part was written (R306, R311). -/
def Handle.finalFill (x : Handle) (t : Stream) : Nat :=
  if t.kind = .input || t.kind = .take then t.origin + (t.committed + x.size - 1) / x.size else x.fill

/-- The fold element of an ended stream is gone, with its window (R248, R366). -/
def State.dropFold (s : State) (c : CoreId) (h : BitVec 6) : State :=
  match s.folds.findIdx? fun f => f.core = c && f.h = h with
  | none => s
  | some i =>
    { s with
      folds := s.folds.eraseIdx i
      crossings := (s.crossings.filter fun x => x.fold ≠ i).map fun x => if i < x.fold then { x with fold := x.fold - 1 } else x }

/-- The pattern position of a stream, the token index reached (R467). -/
def State.patternPos (s : State) (c : CoreId) (h : BitVec 6) (t : Stream) : Nat :=
  if t.ended then t.pos
  else match s.folds.find? fun f => f.core = c && f.h = h with
    | some f => f.pos
    | none => if t.kind = .input || t.kind = .output then (s.core c).fab.ags[t.ag].pos else 0

/-- A stream ends: its AG site and its binds are free, its record is due (R311, R359). -/
def State.endStream (s : State) (c : CoreId) (h : BitVec 6) : State :=
  match (s.pump c).streamOf h with
  | none => s
  | some t =>
    if t.ended then s
    else
      let u := (s.modHandle c h fun x => { x with fill := x.finalFill t, stream := some { t with ended := true, pos := s.patternPos c h t } }).modFab
        c fun f =>
        { f with
          ags := setAt f.ags t.ag AgSite.reset
          binds := f.binds.filter fun b => b.owner ≠ .stream h }
      let u := u.performWhere fun w => w.core = c && w.bind.isSome && (u.writeBind c w.pa).isNone
      let u := (u.modCore c fun k => { k with activeAt := s.now }).dropFold c h
      let u := u.dropCopies c
      if t.record then u.addDue (s.pump c).flow (t.due c h u.serial) else u

/-- A stream that a `halt` ends: the tokens of its open round are discarded, and for kind 2 the invalid flag is set
when that round held DATA (R318). -/
def State.haltStream (s : State) (c : CoreId) (h : BitVec 6) : State :=
  match (s.pump c).handle h with
  | none => s
  | some x =>
    match x.stream with
    | none => s
    | some t =>
      if t.ended then s
      else
        let held := t.kind = .output && (x.openData ≠ 0 || !t.round.isEmpty || !(s.core c).fab.ags[t.ag].hold.isEmpty ||
          s.foldOpen c h)
        (s.modStream c h fun y => { y with round := [], flags := y.flags ||| flagIf held fNv }).endStream c h

/-- `halt` takes effect: its streams end and the pump executes nothing further (R124, R318). -/
def State.haltNow (s : State) (c : CoreId) : State :=
  let t := (fins 64).foldl (fun t h => t.haltStream c (BitVec.ofNat 6 h.val)) s
  t.modPump c fun p => { p with run := .halted, block := none }

/-- A stream of handle `h` still has closed rounds to perform before a `halt` takes effect: published ones, lines before
a sluice context, rounds at its fold element (R318). -/
def State.halting (s : State) (c : CoreId) (h : BitVec 6) : Bool :=
  match (s.pump c).handle h with
  | some x => x.closing || match x.stream with
    | some t => t.kind = .output && !t.ended && ((s.jobs.any fun j => j.core = c && j.ag = t.ag) || s.foldBusy c h)
    | none => false
  | none => false

/-- Ending every stream that a `halt` ends would make more than 256 completion records of the flow wait (R359). -/
def State.haltHeld (s : State) (c : CoreId) : Bool :=
  let n := (fins 64).countP fun h => match ((s.pump c).handles[h]).bind (·.stream) with
    | some t => !t.ended && t.record
    | none => false
  n ≠ 0 && match s.flowOf c with
    | some f => 256 < f.due.length + n
    | none => false

/-- `halt` as an attempt: it waits for a load in progress (R322), for the regions it kicked to drain (R124), for the
rounds that its kind 2 streams must still perform (R318), and for room for their records (R359). R96 names no cause for
the waits of R124, R318 and R359: the cycles count in `s.stall`, and its cause stays as it was (log 86). -/
def State.haltTry (s : State) (c : CoreId) : Except Stop State :=
  let k := s.core c
  if k.pump.load.isSome then .error (.wait (some 7))
  else if k.fab.anyRunning || (fins 64).any (fun h => s.halting c (BitVec.ofNat 6 h.val)) || s.haltHeld c then
    .error (.wait none)
  else .ok (s.haltNow c)

/-- A held load fault is raised by the first later `cfgl` or `halt` (R322). -/
def Pump.heldAny (p : Pump) : Option Held := p.held.head?

/-- `halt` (R124). -/
def execHalt (s : State) : Out :=
  match (s.pump s.cur).load, (s.pump s.cur).heldAny with
  | none, some e => .next (s.raiseHeld s.cur e)
  | _, _ => s.outcome s.cur .halt (s.haltTry s.cur)

end Sys2Proof.Machine
end

