-- ==== Sys2Proof/Machine/Edge.lean ====
section
/-! DEFINITION. The memory edge of the AG sites: reads and writes of streams, the transforms of R347 to R349, page
requests and faults of streams (R431, R434, R436, R450), and the ports that their accesses cross (R18, R283). -/

namespace Sys2Proof.Machine

open Sys2Proof

/-! ### Ports of a package (R18, R283, R472) -/

/-- Index of the die bridge that traffic from die `d` to die `e` crosses first (R283, R472). -/
def firstBridge (d e : Nat) : Nat :=
  match d, e with
  | 0, 2 => 2
  | 0, _ => 0
  | 1, 3 => 3
  | 1, _ => 0
  | 2, 3 => 1
  | 2, _ => 2
  | 3, 2 => 1
  | _, _ => 3

/-- The die at the other end of a bridge (R18, R472). -/
def bridgeFar (d b : Nat) : Nat :=
  match b with
  | 0 => 1 - d
  | 1 => 5 - d
  | 2 => 2 - d
  | _ => 4 - d

/-- The bridges that traffic from die `d` to die `e` crosses: two between dies 0 and 3 and between dies 1 and 2 (R18). -/
def diePath (d e : Nat) : List Nat :=
  if d = e then []
  else
    let b := firstBridge d e
    let f := bridgeFar d b
    if f = e then [b] else [b, firstBridge f e]

/-- Home die of a physical address (R471). -/
def homeDie (pa : Nat) : Nat := pa % 2 ^ 40 / 0x10_0000_0000 / 3

/-- Identifier of a die bridge of this package (R472). -/
def State.bridgePort (s : State) (b : Nat) : BitVec 16 := BitVec.ofNat 16 (0x2000 + s.pkg.toNat * 64 + b)

/-- The Levee port that traffic for another package takes: the lowest of the pod's ports (R29; log 30). -/
def State.leveePort (s : State) : BitVec 16 :=
  let mask : BitVec 16 := match s.pod with
    | some (_, m) => m
    | none => 0
  BitVec.ofNat 16 (0x1000 + s.pkg.toNat * 64 + ((List.range 16).find? fun i => mask.getLsbD i).getD 0)

/-- The ports that traffic from a die of this package to a physical address crosses (R18, R283): a Levee port to another
package of the pod, else the bridges to the home die. Host memory lies behind the Causeway link. -/
def State.portsTo (s : State) (d pa : Nat) : List (BitVec 16) :=
  if 2 ^ 46 ≤ pa then []
  else if pa / 2 ^ 40 ≠ s.pkg.toNat then [s.leveePort]
  else (diePath d (homeDie pa)).map s.bridgePort

/-- The first of them; of an address on the die itself, bridge 0 of the package (log 30). -/
def State.firstPort (s : State) (d pa : Nat) : BitVec 16 := (s.portsTo d pa).headD (s.bridgePort 0)

/-- A port that carries traffic: its link is up, and a Levee port lies inside the pod (R29, R477). -/
def State.portUp (s : State) (port : BitVec 16) : Bool :=
  !s.linksDown.contains port &&
    (port.toNat / 0x1000 ≠ 1 || match s.pod with
      | some (_, m) => m.getLsbD (port.toNat % 64)
      | none => false)

/-- Every port on the way from core `c` to a physical address carries traffic. -/
def State.wayUp (s : State) (c : CoreId) (pa : Nat) : Bool := (s.portsTo (c.val / 64) pa).all s.portUp

/-! ### Reads -/

/-- Why an access of an AG does not complete: no entry, or a page that forbids it. -/
inductive AgStop where
  | page (va : Word) (access : BitVec 3)
  | forbid (va : Word)
  deriving DecidableEq, Repr

/-- Translation of an AG's access (R431). -/
def State.agPa (s : State) (c : CoreId) (va : Word) (n : Need) : Except AgStop Nat :=
  match s.translate c va n with
  | .at pa => .ok pa
  | .absent => .error (.page va n.access)
  | .forbidden => .error (.forbid va)

/-- The byte that AG `a` of core `c` sees: a write held in the core's own bound lines, a copy in its read bind, and else the
newest performed value (R262, R266, R273, R274, R485; log 7). -/
def State.agByte (s : State) (c : CoreId) (a : Fin 8) (pa : Nat) : Byte :=
  match (s.pending.reverse.filter fun w => w.core = c && w.bind.isSome).findSome? (·.byteAt pa) with
  | some b => b
  | none => (s.staleByte (.ag c a) .memory pa).getD (s.mem.get pa)

/-- The `n` bytes an AG sees from an address. -/
def State.agBytes (s : State) (c : CoreId) (a : Fin 8) (pa : Nat) : Nat → List Byte
  | 0 => []
  | n + 1 => s.agByte c a pa :: State.agBytes s c a (pa + 1) n

/-- A read of a line by an AG meets poison or an error, which it reports and turns into poison (R346, R461). -/
def State.meetLine (s : State) (c : CoreId) (pa : Nat) : State × Bool :=
  match s.lineStop pa 0 with
  | none => (s, false)
  | some (.damage d _ _) => (s.meetAt c 0 d, true)
  | some _ => (s, true)

/-- A read of `n` bytes of one line by AG `a`: state, bytes, poison. A read bind copies the line (R274). -/
def State.agRead (s : State) (c : CoreId) (a : Fin 8) (va : Word) (n : Nat) : Except AgStop (State × List Byte × Bool) := do
  let pa ← s.agPa c va .rd
  let (t, bad) := s.meetLine c pa
  return ((t.noteRead (.ag c a) .memory pa n).copyLine c pa, s.agBytes c a pa n, bad)

/-! ### The transforms of a read (R347, R348) -/

/-- Whether the INT transform is INT4, and its group size (R86, R142). -/
def AgCfg.int4 (g : AgCfg) : Bool := 4 ≤ g.int

/-- Group size of the INT transform. -/
def AgCfg.group (g : AgCfg) : Nat := 32 * 2 ^ ((g.int - 1) % 3)

/-- Elements of one element token. -/
def AgCfg.perToken (g : AgCfg) : Nat := if g.int4 then 64 else 32

/-- Number of the first element of the token at an address (R348). -/
def AgCfg.element (g : AgCfg) (va : Word) : Nat := (va - g.addr).toNat * (if g.int4 then 2 else 1)

/-- The format of the stream's tokens. -/
def AgCfg.format (g : AgCfg) : Option Fmt := fmtOf g.fmt

/-- The group records of `n` groups from group `q` on: state, words, poison. -/
def State.groupRecords (s : State) (c : CoreId) (g : AgCfg) (q : Nat) : Nat → Except AgStop (State × List Nat × Bool)
  | 0 => .ok (s, [], false)
  | n + 1 => do
    let (t, bs, bad) ← s.agRead c g.site (g.ptr2 + BitVec.ofNat 64 (4 * q)) 4
    let (u, r, bad') ← State.groupRecords t c g (q + 1) n
    return (u, leNat bs :: r, bad || bad')

/-- The groups an element token touches: first, and how many. -/
def AgCfg.groups (g : AgCfg) (va : Word) : Nat × Nat :=
  let e := g.element va
  let q := e / g.group
  (q, (e + g.perToken - 1) / g.group - q + 1)

/-- One atom, or lane of an open format, of a poisoned read (R346). -/
def nanUnit : Fmt → Nat
  | .c4 => 0xFFFF
  | .c16 => 0xFFFC_FFFF
  | .o16 => 0x7FC0
  | .o32 => 0x7FC0_0000
  | .oi => 0xFFFF_FFFF

/-- The output units that an element token gives where no element of it is imported: `u` in each of them (R335, R336,
R346, R348). -/
def AgCfg.plainUnits (g : AgCfg) (f : Fmt) (u : Nat) (bad : Bool) : List (Frame × Bool) :=
  List.replicate (if f.coded then g.perToken / 4 else g.perToken) (BitVec.ofNat 256 u, bad)

/-- Import of an element token (R348): output units and flags. -/
def importUnits (g : AgCfg) (f : Fmt) (va : Word) (p : Frame) (recs : List Nat) (bad : Bool) :
    List (Frame × Bool) × Flags :=
  let e := g.element va
  let q := e / g.group
  let of (i : Nat) : Nat := recs.getD ((e + i) / g.group - q) 0
  let v := (List.range g.perToken).map fun i => importLane g.int4 (of i) (rawElement g.int4 p i)
  let (us, fl) := storeUnits f bad v
  (us, fl ||| flagIf (recs.any (recordFaulty g.int4)) fNv)

/-- The scale sideband of a token at an address (R137, use2 = 1). R137 wants `addr` to be a multiple of 64 there and names
no outcome where it is not: the model counts the 64-byte blocks from `addr` (log 86). -/
def State.scaleOf (s : State) (c : CoreId) (g : AgCfg) (va : Word) : Except AgStop (State × Byte × Bool) :=
  if g.use2 = 1 && g.int = 0 then do
    let (t, bs, bad) ← s.agRead c g.site (g.ptr2 + BitVec.ofNat 64 ((va - g.addr).toNat / 64)) 1
    return (t, bs.headD 0, bad)
  else .ok (s, 0, false)

/-! ### The AG site as a source of rounds -/

/-- The source fields of an AG site as rounds. -/
def AgSite.rounds (x : AgSite) : Rounds := { outq := x.outq, data := x.roundData, pend := x.pendFlags, done := 0 }

/-- An AG site with the rounds changed. -/
def AgSite.setRounds (x : AgSite) (d : Rounds) : AgSite :=
  { x with outq := d.outq, roundData := d.data, pendFlags := d.pend }

/-- Tokens added to the open round of a source. -/
def Rounds.addAll (x : Rounds) (n : Nat) (ts : List Token) : Rounds := ts.foldl (fun x t => x.add n t) x

/-- One token of a line, wherever it came from, through the later stages (R347): INT import, scale tile, rounds. The spec
does not say what becomes of half a C4 token at the STOP of a batch element: the model keeps it for the next element (log
87). A token without an address is a zero token: an outside coordinate of `ag.conv` or a row that does not exist (R335, R336);
through an INT import it gives zero atoms (log 87). A poisoned line, record or scale byte makes NaN atoms of the stream's
format (R346), and `idxBad`, the poison of an index token, only sets the bit (R459). -/
def State.tokenInto (s : State) (c : CoreId) (g : AgCfg) (x : AgSite) (a : Option Word) (p : Frame) (bad idxBad : Bool) :
    Except AgStop (State × AgSite × Rounds) := do
  match g.int, g.format with
  | 0, _ =>
    let (s, sc, scBad) ← match a with
      | some va => s.scaleOf c g va
      | none => .ok (s, 0, false)
    let v := if bad || scBad then nanPayload g.format else p
    return (s, x, x.rounds.add g.rnd (dataTok v sc (bad || scBad || idxBad)))
  | _, none => return (s, x, x.rounds)
  | _, some f =>
    let (s, us, fl) ← match a with
      | none => .ok (s, g.plainUnits f 0 idxBad, (0 : Flags))
      | some va => (do
          let (q, n) := g.groups va
          let (s, recs, recBad) ← s.groupRecords c g q n
          if bad || recBad then return (s, g.plainUnits f (nanUnit f) true, 0)
          else
            let (us, fl) := importUnits g f va p recs idxBad
            return (s, us, fl) : Except AgStop (State × List (Frame × Bool) × Flags))
    let (ts, rest) := fullTokens f 0 (x.part ++ us).length (x.part ++ us)
    return (s, { x with part := rest }, { x.rounds with pend := x.pendFlags ||| fl }.addAll g.rnd ts)

/-- A read returns (R347): the token of a line, or a zero token, into rounds. -/
def State.readInto (s : State) (c : CoreId) (g : AgCfg) (x : AgSite) (va : Option Word) (idxBad : Bool) :
    Except AgStop (State × AgSite × Rounds) := do
  match va with
  | none => s.tokenInto c g x none 0 false idxBad
  | some a =>
    let (s, bs, bad) ← s.agRead c g.site a 32
    s.tokenInto c g x (some a) (leFrame bs) bad idxBad

/-! ### Writes of a commit (R238, R342, R343, R349) -/

/-- A token to write: virtual address, payload, scale byte, and whether a group record of its export was poisoned. -/
structure Store where
  va : Word
  payload : Frame
  scale : Byte
  poison : Bool
  deriving DecidableEq, Repr

/-- Element codes of the lanes of an input token, exported from element `e0` of the stream's elements (R349). -/
def State.exportCodes (s : State) (c : CoreId) (g : AgCfg) (e0 : Nat) (v : List Num) :
    Except AgStop (State × List (Frame × Bool) × Flags) := do
  let q := e0 / g.group
  let n := if v.isEmpty then 0 else (e0 + v.length - 1) / g.group - q + 1
  let (s, recs, bad) ← s.groupRecords c g q n
  let r := v.zipIdx.map fun p => exportLane g.int4 (recs.getD ((e0 + p.2) / g.group - q) 0) p.1
  return (s, r.map fun p => (BitVec.ofNat 256 (elementCode g.int4 p.1), bad), orFlags (r.map (·.2)))

/-- The element tokens of a sink's open round, by number: the address of one, `none` past the end (R311, R333, R336). -/
def AgCfg.sinkAt (g : AgCfg) (x : AgSite) (n : Nat) : Option Word :=
  if g.mode = 4 then (x.reads[n]?).bind (·.2.1)
  else if n < patternLen g.counters then some (g.address n) else none

/-- The output tokens of a round through INT export: stores, what stays, position, flags. What passes the end is dropped
and sets invalid (R311, R333, R349); `at_` gives the addresses, and `gap` says that the rest of a token belongs to no row
(R336). -/
def State.exportRound (s : State) (c : CoreId) (g : AgCfg) (f : Fmt) (gap : Bool) (at_ : Nat → Option Word) :
    List Token → Nat → List (Frame × Bool) → Flags →
      Except AgStop (State × List Store × Nat × List (Frame × Bool) × Flags)
  | [], pos, part, fl => .ok (s, [], pos, part, fl)
  | t :: r, pos, part, fl => do
    match at_ pos with
    | none => State.exportRound s c g f gap at_ r pos part (fl ||| fNv)
    | some va =>
      let (v, fv) := tokenLanes f t.payload
      let w := if g.int4 then 4 else 8
      let fit := v.take (g.perToken - part.length)
      let (s, c1, f1) ← s.exportCodes c g (g.element va + part.length) fit
      let all := part ++ c1
      let fl := fl ||| fv ||| f1
      if all.length < g.perToken then State.exportRound s c g f gap at_ r pos all fl
      else
        let st : Store := { va := va, payload := packFrame w (all.map (·.1.toNat)), scale := 0, poison := all.any (·.2) }
        -- a C4 token fills two INT8 tokens
        let (s, more, pos', part', fl) ← match at_ (pos + 1) with
          | none =>
            let more := fit.length < v.length
            .ok (s, [], if more && gap then pos + 2 else pos + 1, [], fl ||| flagIf more fNv)
          | some vb => (do
              let (s, c2, f2) ← s.exportCodes c g (g.element vb) (v.drop fit.length)
              if c2.length < g.perToken then return (s, [], pos + 1, c2, fl ||| f2)
              else
                let sb : Store := { va := vb, payload := packFrame w (c2.map (·.1.toNat)), scale := 0, poison := c2.any (·.2) }
                return (s, [sb], pos + 2, [], fl ||| f2) :
              Except AgStop (State × List Store × Nat × List (Frame × Bool) × Flags))
        let (s, sts, pos', part', fl) ← State.exportRound s c g f gap at_ r pos' part' fl
        return (s, st :: more ++ sts, pos', part', fl)

/-- The stores of a round without a transform: token k to the k-th address. -/
def plainRound (at_ : Nat → Option Word) : List Token → Nat → Flags → List Store × Nat × Flags
  | [], pos, fl => ([], pos, fl)
  | t :: r, pos, fl =>
    match at_ pos with
    | none => plainRound at_ r pos (fl ||| fNv)
    | some va =>
      let (a, b, c) := plainRound at_ r (pos + 1) fl
      ({ va := va, payload := t.payload, scale := t.scale, poison := t.poison } :: a, b, c)

/-- Stores with their physical addresses, every page translated before a byte is written. -/
def State.placeStores (s : State) (c : CoreId) : List Store → Except AgStop (List (Nat × Store))
  | [] => .ok []
  | x :: r => do
    let pa ← s.agPa c x.va .wr
    let q ← State.placeStores s c r
    return (pa, x) :: q

/-- The scale bytes of a round: the sideband of the token that begins each 64-byte block (R137, R177). -/
def State.placeScales (s : State) (c : CoreId) (g : AgCfg) : List Store → Except AgStop (List (Nat × Byte))
  | [] => .ok []
  | x :: r => do
    let q ← State.placeScales s c g r
    if g.use2 = 1 && g.int = 0 && (x.va - g.addr).toNat % 64 = 0 then
      let pa ← s.agPa c (g.ptr2 + BitVec.ofNat 64 ((x.va - g.addr).toNat / 64)) .wr
      return (pa, x.scale) :: q
    else return q

/-- The write events of a commit: a line whose eight tokens are all written is one event, every other token one of
its own (R342). -/
def lineWrites (ws : List (Nat × Frame)) : List (Nat × List Byte) :=
  let lines := (ws.map fun w => lineOf w.1).dedup
  (lines.map fun l =>
    let mine := ws.filter fun w => lineOf w.1 = l
    let slot (i : Nat) := (mine.reverse.find? fun w => w.1 = 256 * l + 32 * i).map (·.2)
    if (List.range 8).all fun i => (slot i).isSome then
      [(256 * l, ((List.range 8).map fun i => toLE 32 ((slot i).getD 0).toNat).flatten)]
    else mine.map fun w => (w.1, toLE 32 w.2.toNat)).flatten

/-- The aligned 8-byte words of the write of a token, rising (R261). -/
def wordWrites (w : Nat × List Byte) : List (Nat × List Byte) :=
  (List.range 4).map fun i => (w.1 + 8 * i, (w.2.drop (8 * i)).take 8)

/-- The write events of a sink's commit: whole lines (R342), and the other tokens, word by word through an INT export (R261,
R349). -/
def sinkWrites (int : Bool) (ws : List (Nat × Frame)) : List (Nat × List Byte) :=
  ((lineWrites ws).map fun w => if int && w.2.length = 32 then wordWrites w else [w]).flatten

/-- A partial write into a line in compressed form (R339) goes word by word too (R261). -/
def State.wordEvents (s : State) (w : Nat × List Byte) : List (Nat × List Byte) :=
  let k := codeOf s.codes (lineOf w.1)
  if w.2.length = 32 && 2 ≤ k && k ≤ 7 then wordWrites w else [w]

/-- One write event of a stream (R273, R342, R345): into a line its core's write bind holds, else performed; answers
the line when it was dropped. -/
def State.streamWrite (s : State) (c : CoreId) (a : Fin 8) (pa : Nat) (bytes : List Byte) (raw : Bool) : State × Option Nat :=
  match s.writeBind c pa with
  | some _ => (s.issueWrite c pa bytes false 0 (.ag c a), none)
  | none => s.perform pa bytes raw (.ag c a)

/-- Write events in order, with the lines that were dropped. -/
def State.streamEvents (s : State) (c : CoreId) (a : Fin 8) (raw : Bool) : List (Nat × List Byte) → State × List Nat
  | [] => (s, [])
  | w :: r =>
    let (t, d) := s.streamWrite c a w.1 w.2 raw
    let (u, ds) := State.streamEvents t c a raw r
    (u, d.toList ++ ds)

/-- All writes of a commit, each as the events it is when it comes, with the lines that were dropped: a line once for each
write (R345). -/
def State.streamWrites (s : State) (c : CoreId) (a : Fin 8) (raw : Bool) : List (Nat × List Byte) → State × List Nat
  | [] => (s, [])
  | w :: r =>
    let (t, d) := s.streamEvents c a raw (s.wordEvents w)
    let (u, ds) := State.streamWrites t c a raw r
    (u, d.dedup ++ ds)

/-! ### What runs on an AG site -/

/-- The owner of an AG site that runs: its region or its stream, and its configuration. -/
inductive AgRun where
  | frame (r : Fin 8) (p : Plane)
  | stream (h : BitVec 6) (t : Stream)
  deriving DecidableEq, Repr

/-- What runs on AG site `a`. -/
def Core.agRun (k : Core) (a : Fin 8) : Option (AgRun × AgCfg) :=
  match k.fab.ags[a].use with
  | .free => none
  | .frame r =>
    (k.fab.runPlane r).bind fun p =>
      (p.ag? a).bind fun g => if g.region = r then some (.frame r p, g) else none
  | .stream h => (k.pump.streamOf h).bind fun t => if t.ended then none else some (.stream h t, t.cfg)

/-- The group of the core ends fatally (R446); a pump that has stopped for a pre-emption only has ypend set. -/
def Pump.stopped (p : Pump) : Bool := p.run = .fatal || (p.run = .frozen && !p.ypend)

/-- The run may move: its region is neither stray nor frozen; a stream moves until the group ends, one of a region while
the region is neither stray nor frozen. -/
def Core.agMoves (k : Core) : AgRun → Bool
  | .frame r p => k.fab.regions[r].moves && !p.bad
  | .stream _ t =>
    !k.pump.stopped &&
      (if t.kind = .feed || t.kind = .take then !k.fab.regions[t.region].stray && !k.fab.regions[t.region].frozen else true)

/-- A stream moved tokens (R313). -/
def State.touch (s : State) (c : CoreId) : AgRun → State
  | .frame r _ => s.modCore c fun k => k.progress r s.now
  | .stream h _ =>
    (s.modStream c h fun t => { t with movedAt := s.now }).modCore c fun k => { k with activeAt := s.now }

/-- Flags that become sticky at a commit: in the region, or in the stream's record (R176, R311). -/
def State.agSticky (s : State) (c : CoreId) (f : Flags) : AgRun → State
  | .frame r _ => s.modCore c fun k => k.sticky r f
  | .stream h _ => s.modStream c h fun t => { t with flags := t.flags ||| f }

/-- Bytes a commit adds to the count of `wptr` (R314). -/
def State.addCommitted (s : State) (c : CoreId) (n : Nat) : AgRun → State
  | .frame _ _ => s
  | .stream h _ => s.modStream c h fun t => { t with committed := t.committed + n }

/-- Lines of AG site `a` that have not passed their sluice context yet. -/
def State.jobsOf (s : State) (c : CoreId) (a : Fin 8) : Bool := s.jobs.any fun j => j.core = c && j.ag = a

/-- The writes of a run on AG site `a` go through an INT export (R349). -/
def AgRun.int (run : AgRun) (a : Fin 8) : Bool :=
  match run with
  | .frame _ p => ((p.ag? a).map (·.int)).getD 0 ≠ 0
  | .stream _ t => t.int ≠ 0

/-- A committed line passes its context and is written (R354, R355): state, and the code of a fault of the context or of
the poison it made. -/
def State.passWrite (s : State) (j : SluiceJob) (run : AgRun) (int : Bool) (x : SluiceCtx) : State × Option Code :=
  let res := sluicePass x.frames (j.tokens.map (·.2))
  if res.fault.isSome then (s, res.fault)
  else if (res.tokens.take j.tokens.length).any (·.2) then (s, some 0x21)
  else
    let ws := (j.tokens.zip res.tokens).map fun q => (q.1.1, q.2.1)
    let (t, dropped) := s.streamWrites j.core j.ag j.raw (sinkWrites int ws)
    (((t.agSticky j.core res.flags run).addCommitted j.core (32 * j.tokens.length) run).modCore j.core fun k =>
      k.modAg j.ag fun y => { y with dropped := y.dropped ++ dropped }, none)

/-- Lines of rounds that a run has committed are written (R318, R352, R449, R485). -/
def State.flushWrites (s : State) (c : CoreId) (a : Fin 8) (run : AgRun) : State :=
  let t := s.jobs.foldl (fun t j =>
    if j.core = c && j.ag = a && j.write then
      match s.sluice[j.ctx] with
      | some x => (t.passWrite j run (run.int a) x).1
      | none => t
    else t) s
  { t with jobs := s.jobs.filter fun j => !(j.core = c && j.ag = a && j.write) }

/-- They are before it ends; its reads are given up. -/
def State.flushJobs (s : State) (c : CoreId) (a : Fin 8) (run : AgRun) : State :=
  let t := s.flushWrites c a run
  { t with jobs := t.jobs.filter fun j => !(j.core = c && j.ag = a) }

/-- An ended stream must wait while 256 completion records of the flow wait (R359). -/
def State.endHeld (s : State) (c : CoreId) (t : Stream) : Bool := t.record && s.recordsFull c

/-- A fault of what runs on an AG site: the region turns stray, or the stream ends, its committed rounds written (R449,
R450); an end that its record holds waits, and the access meets the fault again (R359). -/
def State.agFault (s : State) (c : CoreId) (a : Fin 8) (code : Code) (tval : Word) (run : AgRun) : State :=
  match run with
  | .frame r _ => s.modCore c fun k => (k.fabFault code r tval).modAg a fun x => { x with page := none }
  | .stream h t =>
    if s.endHeld c t then s.modCore c fun k => k.modAg a fun x => { x with page := none }
    else
      let u := (s.flushJobs c a run).modStream c h fun t => { t with fault := some code, round := [] }
      (u.endStream c h).modCore c fun k => k.post code 0 tval

/-- The pump is told of the lines whose partial writes were dropped, each with fault 0x22 (R345): the run of a region
goes on, and a stream of a handle ends (R449, R450). -/
def State.tellDropped (s : State) (c : CoreId) (a : Fin 8) (run : AgRun) : State :=
  let ls := (s.core c).fab.ags[a].dropped
  match run, ls with
  | _, [] => s
  | .frame r _, _ =>
    s.modCore c fun k =>
      let k := k.modAg a fun x => { x with dropped := [] }
      if k.fab.regions[r].stray then k else ls.foldl (fun k l => k.post 0x22 r (BitVec.ofNat 64 l)) k
  | .stream _ _, l :: more =>
    let t := s.agFault c a 0x22 (BitVec.ofNat 64 l) run
    if ((t.core c).fab.ags[a].dropped).isEmpty then
      t.modCore c fun k => more.foldl (fun k m => k.post 0x22 0 (BitVec.ofNat 64 m)) k
    else t

/-- An access of an AG that does not complete: a page request, or the fault 0x04 (R431, R434). -/
def State.agStop (s : State) (c : CoreId) (a : Fin 8) (run : AgRun) : AgStop → State
  | .page va access =>
    let (t, id) := s.postPage va access 4 (s.launch c).space (s.pump c).flow (some c)
    t.modCore c fun k => k.modAg a fun x => { x with page := some (id, va) }
  | .forbid va => s.agFault c a 0x04 va run

/-! ### The commit of a memory sink -/

/-- What a round writes: the stores in seq order, the position after it, what an INT export keeps, flags. The rows of
an `ag.scat` stand in `reads`, counted from 0. -/
def State.roundStores (s : State) (c : CoreId) (g : AgCfg) (x : AgSite) :
    Except AgStop (State × List Store × Nat × List (Frame × Bool) × Flags) :=
  let pos := if g.mode = 4 then 0 else x.pos
  match g.int, g.format with
  | 0, _ =>
    let (st, pos, fl) := plainRound (g.sinkAt x) x.hold pos 0
    .ok (s, st, pos, [], fl)
  | _, some f => s.exportRound c g f (g.mode = 4) (g.sinkAt x) x.hold pos x.part 0
  | _, none => .ok (s, [], pos, [], 0)

/-- The tokens of a round by line, in address order, as jobs for a sluice context (R354). -/
def sluiceJobs (c : CoreId) (a : Fin 8) (ctx : Fin 8) (raw : Bool) (ws : List (Nat × Frame)) : List SluiceJob :=
  ((ws.map fun w => lineOf w.1).dedup).map fun l =>
    { core := c, ag := a, ctx := ctx, write := true, raw := raw, index := [], aborts := 0
      tokens := (List.range 8).filterMap fun i =>
        ((ws.reverse.find? fun w => w.1 = 256 * l + 32 * i).map fun w => (w.1, w.2, false)) }

/-- A memory sink commits its round and does `after` (R237, R238, R460): `ag.out`, `ag.scat`, or a `strm` of kind 2. The
write events of the round stand in one step; another core sees part of it where it lags behind (log 7). `wptr` counts a
line that a sluice context still has to pass when it is written (R268, R314). -/
def State.agCommit (s : State) (c : CoreId) (a : Fin 8) (run : AgRun) (g : AgCfg) (after : AgSite → AgSite) : State :=
  let x := (s.core c).fab.ags[a]
  if !x.dropped.isEmpty then s.tellDropped c a run
  else if x.hold.any (·.poison) || (g.mode = 4 && x.reads.any (·.2.2)) then s.agFault c a 0x21 (siteId 4 a.val) run
  else
    match (do
      let (t, st, pos, part, fl) ← s.roundStores c g x
      let ws ← t.placeStores c st
      let sc ← t.placeScales c g st
      return (t, ws, sc, pos, part, fl) :
        Except AgStop (State × List (Nat × Store) × List (Nat × Byte) × Nat × List (Frame × Bool) × Flags)) with
    | .error e => s.agStop c a run e
    | .ok (t, ws, sc, pos, part, fl) =>
      -- a poisoned group record poisons what is exported with it: it never reaches memory
      if ws.any (·.2.poison) then t.agFault c a 0x21 (siteId 4 a.val) run
      -- the round waits for a port on its way that is down
      else if (ws.map (·.1) ++ sc.map (·.1)).any fun pa => !t.wayUp c pa then s
      else
        let pw := ws.map fun w => (w.1, w.2.payload)
        let (t, dropped) := match g.ctx with
          | some ctx => ({ t with jobs := t.jobs ++ sluiceJobs c a ctx (!g.cmp) pw }, [])
          | none => t.streamWrites c a (!g.cmp) (sinkWrites (g.int ≠ 0) pw)
        let (t, dropped') := t.streamWrites c a (!g.cmp) (sc.map fun q => (q.1, [q.2]))
        let t := (t.agSticky c (x.pendFlags ||| fl) run).addCommitted c (if g.ctx.isSome then 0 else 32 * ws.length) run
        let t := t.modCore c fun k => (match run with
          | .frame _ _ => k.bumpRound
          | .stream _ _ => k.bump).modAg a fun y =>
          after { y with
            hold := []
            reads := if g.mode = 4 then y.reads.drop pos else []
            pos := if g.mode = 4 then y.pos else pos
            part := part
            pendFlags := 0
            dropped := dropped ++ dropped'
            page := none
            commits := y.commits + 1 }
        let t := t.touch c run
        -- after the last round no further MARK comes
        if (t.core c).fab.ags[a].finished then t.tellDropped c a run else t

end Sys2Proof.Machine
end

