-- ==== Sys2Proof/Machine/AgSites.lean ====
section
/-! DEFINITION. AG sites: the sources and sinks of R333 to R337, and the streams of handles that run on them (R311 to
R313). -/

namespace Sys2Proof.Machine

open Sys2Proof

/-! ### Patterns of sources (R334, R335, R337) -/

/-- The element index of token `n` of an `ag.idx` (R337). -/
def AgCfg.elementIndex (g : AgCfg) (n : Nat) : Word :=
  let t := [60, 40, 20, 0].map fun lo => signed 20 (bits g.mparam lo 20)
  let sum := ((counterValues g.counters n).zip t).foldl (fun (a : Int) p => a + p.1 * p.2) 0
  BitVec.ofNat 64 (bits g.mparam 80 64) + BitVec.ofInt 64 sum

/-- The stop level as a field of a token. -/
def AgCfg.level (g : AgCfg) : BitVec 3 := BitVec.ofNat 3 g.stop

/-- After the last output of pattern index `n`: the end of the pattern, or of a batch element of `ag.conv` (R333,
R335). Answers the rounds and whether the pattern has ended. -/
def AgCfg.after (g : AgCfg) (n : Nat) (d : Rounds) : Rounds × Bool :=
  if g.mode = 3 then (d, false)
  else if patternLen g.counters ≤ n + 1 then (d.stop g.level, true)
  else if g.mode = 2 && (n + 1) % patternLen (g.counters.take 3) = 0 then (d.stop (g.level - 1), false)
  else (d, false)

/-- Index entries of a token (R336): rows by address, `none` for a row that does not exist; an empty entry gives
nothing. R336 names no outcome for a 64-bit layout with one entry whose bits above [63:0] are not zero: the model sets
invalid and serves the entry (log 69). -/
def AgCfg.indexEntries (g : AgCfg) (t : Token) : List (Option Word × Bool) × Flags :=
  let iw := bits g.mparam 70 2
  let (w, n) := if iw = 0 then (32, 8) else if iw = 1 then (64, 4) else (64, 1)
  let es := ((List.range n).map fun i => bits t.payload (w * i) w).filter (· ≠ 2 ^ w - 1)
  let rows := bits g.mparam 72 32
  (es.map fun e => (if e < rows then some (g.addr + BitVec.ofNat 64 (e * bits g.mparam 120 24)) else none, t.poison),
   flagIf (es.any (rows ≤ ·)) fNv ||| flagIf (iw = 2 && bits t.payload 64 192 ≠ 0) fNv)

/-! ### Issuing reads -/

/-- Accesses a source keeps in flight. -/
def readsInFlight : Nat := 16

/-- An AG site changed, as one access of its run. -/
def State.agStep (s : State) (c : CoreId) (a : Fin 8) (run : AgRun) (f : AgSite → AgSite) : State :=
  (s.modCore c fun k => k.modAg a f).touch c run

/-- A token that the site sends to the fabric or takes from it counts as a firing (R395). -/
def AgSite.fire (x : AgSite) (now : Nat) : AgSite := { x with stall := x.stall.fire now }

/-- An AG site changed as it sends or takes a token. -/
def State.agFire (s : State) (c : CoreId) (a : Fin 8) (run : AgRun) (f : AgSite → AgSite) : State :=
  s.agStep c a run fun x => (f x).fire s.now

/-- A source issues its next read, or emits its next index token (R333 to R337). -/
def State.agIssue (s : State) (c : CoreId) (a : Fin 8) (run : AgRun) (g : AgCfg) : State :=
  let x := (s.core c).fab.ags[a]
  if readsInFlight ≤ x.reads.length || 4 * readsInFlight ≤ x.outq.length then s
  else if g.mode = 3 then
    match x.pendIdx with
    | [] => s
    | (row, bad) :: r =>
      s.agStep c a run fun y =>
        let last := g.rowTokens ≤ y.sub + 1
        { y with
          reads := y.reads ++ [(0, rowAt row y.sub, bad)]
          sub := if last then 0 else y.sub + 1
          pendIdx := if last then r else y.pendIdx }
  else if patternLen g.counters ≤ x.pos then s
  else if g.mode = 5 then
    let (d, ends) := g.after x.pos (x.rounds.add g.rnd (dataTok ((g.elementIndex x.pos).setWidth 256) 0 false))
    (s.agStep c a run fun y => { y.setRounds d with pos := y.pos + 1, ended := ends }).agSticky c d.done run
  else s.agStep c a run fun y => { y with reads := y.reads ++ [(y.pos, g.readAt y.pos, false)], pos := y.pos + 1 }

/-- AG_READ_RETURN without a sluice context: the oldest read returns. -/
def State.agReturnPlain (s : State) (c : CoreId) (a : Fin 8) (run : AgRun) (g : AgCfg) : State :=
  let x := (s.core c).fab.ags[a]
  match x.reads with
  | [] => s
  | (n, va, bad) :: r =>
    match s.readInto c g x va bad with
    | .error e => s.agStop c a run e
    | .ok (t, x', d) =>
      let (d, ends) := g.after n d
      (t.agStep c a run fun _ => { x'.setRounds d with reads := r, ended := x'.ended || ends }).agSticky c d.done run

/-- AG_READ_RETURN through a sluice context (R354): the line of the oldest read, with the reads behind it that the same
line serves, waits to pass the context. -/
def State.agReturnSluice (s : State) (c : CoreId) (a : Fin 8) (run : AgRun) (ctx : Fin 8) (g : AgCfg) : State :=
  let x := (s.core c).fab.ags[a]
  if s.jobs.any fun j => j.core = c && j.ag = a && !j.write then s
  else match x.reads with
    | [] => s
    | (_, none, _) :: _ => s.agReturnPlain c a run g
    | (n, some va, bad) :: r =>
      match s.agPa c va .rd with
      | .error e => s.agStop c a run e
      | .ok pa =>
        let line := lineOf pa
        let same (q : Nat × Option Word × Bool) : Bool := match q.2.1 with
          | some v => match s.agPa c v .rd with
            | .ok p => lineOf p = line
            | .error _ => false
          | none => false
        let mine := (n, some va, bad) :: r.takeWhile same
        let (t, poisoned) := s.meetLine c pa
        let toks := (List.range 8).map fun i =>
          (256 * line + 32 * i,
           if poisoned then nanPayload g.format else leFrame (t.agBytes c a (256 * line + 32 * i) 32), poisoned)
        let job : SluiceJob :=
          { core := c, ag := a, ctx := ctx, write := false, raw := false, tokens := toks
            index := mine.map fun q => (q.1, (q.2.1.getD 0).toNat, q.2.2), aborts := 0 }
        let t := (t.noteRead (.ag c a) .memory (256 * line) 256).copyLine c pa
        { t with jobs := t.jobs ++ [job] }.agStep c a run fun y => { y with reads := y.reads.drop mine.length }

/-! ### Sending -/

/-- The head of what a source holds for the fabric or the Weir, if it may leave now (R363, R383). -/
def State.agSendable (s : State) (c : CoreId) (a : Fin 8) (p : Plane) (g : AgCfg) : Option Token :=
  let x := (s.core c).fab.ags[a]
  match x.outq with
  | [] => none
  | t :: _ =>
    let permit := g.mode = 0 && !g.weir && p.permitAg a
    if permit && t.kind = .data && x.credit < 1 then none
    else if g.weir then
      (if s.weirFree c then some t else none)
    else if (s.core c).room p (.link (agLink a) 1) then some t else none

/-- It leaves; the site retains it until the next commit of the domain (R239). -/
def State.agSend (s : State) (c : CoreId) (a : Fin 8) (run : AgRun) (p : Plane) (g : AgCfg) (t : Token) : State :=
  let permit := g.mode = 0 && !g.weir && p.permitAg a
  let s := s.agFire c a run fun y =>
    { y with
      outq := y.outq.drop 1
      sent := y.sent ++ [t]
      credit := if permit && t.kind = .data then y.credit - 1 else y.credit
      finished := y.ended && y.reads.isEmpty && y.outq.length ≤ 1 }
  if g.weir then
    let q : Fin 64 := Fin.ofNat 64 (c.val / 4)
    let w := s.weirs[q]
    { s with weirs := setAt s.weirs q { w with inReg := setAt w.inReg (Fin.ofNat 4 c.val) (some t) } }
  else s.modCore c fun k => k.put p t (.link (agLink a) 1)

/-! ### Frames of a region -/

/-- A source of a region takes a permit or an index token (R336, R383); a SCALE is invalid there (R484). An index token
that a replay brings again has had its effect (R454). -/
def State.agTake (s : State) (c : CoreId) (a : Fin 8) (run : AgRun) (g : AgCfg) (t : Token) : Option State :=
  let x := (s.core c).fab.ags[a]
  let took (y : AgSite) : AgSite := { y with inReg := none, taken := y.taken + 1 }
  if g.mode = 3 && 0 < x.again then some (s.agFire c a run fun y => { took y with again := y.again - 1 })
  else if g.mode = 3 then
    match t.kind with
    | .data =>
      if x.pendIdx.isEmpty then
        let (es, fl) := g.indexEntries t
        some (s.agFire c a run fun y => { took y with pendIdx := es, pendFlags := y.pendFlags ||| fl })
      else none
    | .stop lv =>
      if x.pendIdx.isEmpty && x.reads.isEmpty && !s.jobsOf c a then
        let d := x.rounds.stop lv
        some ((s.agFire c a run fun y => took (y.setRounds d)).agSticky c d.done run)
      else none
    | .scale => some (s.agFire c a run fun y => { took y with pendFlags := y.pendFlags ||| fNv })
    | _ => some (s.agFire c a run took)
  else
    some (s.agFire c a run fun y =>
      { y with
        inReg := none
        credit := y.credit + (if t.kind = .data then 1 else 0)
        pendFlags := y.pendFlags ||| flagIf (t.kind = .scale) fNv })

/-- A source frame: it sends, takes what stands at its input, or issues its next access. -/
def State.agSource (s : State) (c : CoreId) (a : Fin 8) (run : AgRun) (p : Plane) (g : AgCfg) : State :=
  let ready : Option Token := match run with
    | .frame r _ => (s.agSendable c a p g).filter fun t => !(s.core c).stopsRound r t
    | .stream _ _ => s.agSendable c a p g
  match ready with
  | some t => s.agSend c a run p g t
  | none =>
    match ((s.core c).fab.ags[a].inReg).bind fun t => s.agTake c a run g t with
    | some t => t
    | none => s.agIssue c a run g

/-- Input tokens of a row of an `ag.scat`, through an INT export as many as the table of R348 gives (R349), and the element
tokens that these make: a row that ends inside an input token has one more, which is dropped. -/
def AgCfg.rowInputs (g : AgCfg) : Nat × Nat :=
  match (if g.int = 0 then some (1, 1) else intRatio g.int g.fmt) with
  | some (out, inp) =>
    let n := (g.rowTokens * out + inp - 1) / inp
    (n, n * inp / out)
  | none => (g.rowTokens, g.rowTokens)

/-- A DATA token at a scattering sink (R336): an index token, or the next token of a row, whose first one notes the
addresses of the row. -/
def AgSite.scatter (x : AgSite) (g : AgCfg) (t : Token) : AgSite :=
  match x.pendIdx with
  | [] =>
    let (es, fl) := g.indexEntries t
    { x with pendIdx := es, pendFlags := x.pendFlags ||| fl }
  | (row, bad) :: r =>
    let last := g.rowInputs.1 ≤ x.sub + 1
    let y := { x with sub := if last then 0 else x.sub + 1, pendIdx := if last then r else x.pendIdx }
    match row with
    | none => y
    | some _ =>
      { y with
        hold := y.hold ++ [t]
        reads :=
          if x.sub = 0 then
            y.reads ++ (List.range g.rowInputs.2).map fun i => (0, if i < g.rowTokens then rowAt row i else none, bad)
          else y.reads }

/-- A sink frame takes the token at its input (R333, R334, R336). -/
def State.agSink (s : State) (c : CoreId) (a : Fin 8) (run : AgRun) (g : AgCfg) : State :=
  match (s.core c).fab.ags[a].inReg with
  | none => s
  | some t =>
    match t.kind with
    | .data =>
      s.agFire c a run fun y =>
        let y := { y with inReg := none }
        if g.mode = 4 then y.scatter g t else { y with hold := y.hold ++ [t] }
    | .scale => s.agFire c a run fun y => { y with inReg := none, pendFlags := y.pendFlags ||| fNv }
    | .abort => s.agFire c a run fun y => { y with inReg := none }
    | .mark => s.agCommit c a run g fun y => AgSite.fire { y with inReg := none } s.now
    | .stop lv => s.agCommit c a run g fun y => AgSite.fire { y with inReg := none, finished := g.stop ≤ lv.toNat } s.now

/-- A sink drained from the Weir takes the head of what the Weir holds for the output core (R225, R228). -/
def State.agFromWeir (s : State) (c : CoreId) (a : Fin 8) (run : AgRun) : State :=
  let q : Fin 64 := Fin.ofNat 64 (c.val / 4)
  let w := s.weirs[q]
  let mine := match w.ctx[w.active] with
    | some g => g.ocore.val = c.val % 4
    | none => false
  let x := (s.core c).fab.ags[a]
  match w.outq with
  | t :: r =>
    if mine && x.inReg.isNone && !x.finished then
      { s with weirs := setAt s.weirs q { w.forward t r with stall := w.stall.fire s.now false } }.agStep c a run fun y =>
        { y with inReg := some t }
    else s
  | [] => s

/-! ### Rings (R306, R311 to R313) -/

/-- Tokens of a slot. -/
def Handle.per (x : Handle) : Nat := x.size / 32

/-- Tokens of the ring filled so far, those of its earlier streams by whole slots (R306). -/
def Handle.filled (x : Handle) (t : Stream) : Nat := t.origin * x.per + t.committed / 32

/-- Tokens the ring can still take: every slot the source has not filled or has freed (R312). -/
def Handle.roomTokens (x : Handle) (t : Stream) : Nat := (x.freed + x.slots) * x.per - x.filled t

/-- The oldest `m` tokens of the open round are committed into the ring from slot F on (R238, R306), each one event
(R261); a poisoned one poisons its words (log 29). Each slot keeps the count of writes of its last token (R268). -/
def State.ringCommit (s : State) (c : CoreId) (h : BitVec 6) (m : Nat) : State :=
  match (s.pump c).handle h with
  | none => s
  | some x =>
    match x.stream with
    | none => s
    | some t =>
      let n0 := x.filled t
      let s := (t.round.take m).zipIdx.foldl (fun s q =>
        let i := n0 + q.2
        let o := x.slotAt (i / x.per) + 32 * (i % x.per)
        let u := (s.slotPut c (.ag c t.ag) o q.1.2.1).modCore c fun k =>
          if q.1.2.2 then { k with bad := (wordsOf o 32).foldl insertUp k.bad } else k
        u.modHandle c h fun y => { y with filledAt := y.filledAt.set (i / x.per % x.slots) u.serial }) s
      let n := min m t.round.length
      (s.modCore c (if t.kind = .take then Core.bumpRound else Core.bump)).modHandle c h fun y =>
        { y with
          fill := (n0 + n) / x.per
          stream := some { t with committed := t.committed + 32 * n, round := t.round.drop m, movedAt := s.now } }

/-- A DATA token of a ring's stream joins the open round while the ring has room for it. A round that fills the whole
free ring is committed as far as it fits, once no slot is left to release: the example of R313 fills the only slot of a
ring with the first token of a round of two (log 28). -/
def State.ringData (s : State) (c : CoreId) (h : BitVec 6) (x : Handle) (t : Stream) (tok : Token) : Option State :=
  if t.round.length < x.roomTokens t then
    some (s.modStream c h fun y => { y with round := y.round ++ [(tok.seq, tok.payload, tok.poison)], movedAt := s.now })
  else if x.fill ≤ x.freed && !t.round.isEmpty then some (s.ringCommit c h t.round.length)
  else none

/-- A `strm` of kind 1: tokens go to the ring, the pattern's STOP ends it (R311). -/
def State.ringIn (s : State) (c : CoreId) (a : Fin 8) (run : AgRun) (h : BitVec 6) (x : Handle) (t : Stream) (g : AgCfg) :
    State :=
  let y := (s.core c).fab.ags[a]
  match y.outq with
  | [] => s.agIssue c a run g
  | tok :: _ =>
    let pop (s : State) : State := s.agStep c a run fun z => { z with outq := z.outq.drop 1 }
    match tok.kind with
    | .data =>
      match s.ringData c h x t tok with
      | some u => if t.round.length < x.roomTokens t then pop u else u
      | none => s.agIssue c a run g
    | .mark => pop (s.ringCommit c h t.round.length)
    | .stop _ => if s.endHeld c t then s else s.endStream c h
    | _ => pop s

/-- A `strm` of kind 4: the region's tokens go to the ring, and a MARK or STOP commits them (R238, R311). A token for which the
ring has no room waits at the site. -/
def State.ringTake (s : State) (c : CoreId) (a : Fin 8) (run : AgRun) (h : BitVec 6) (x : Handle) (t : Stream) : State :=
  match (s.core c).fab.ags[a].inReg with
  | none => s
  | some tok =>
    let pop (s : State) : State := s.agStep c a run fun z => { z with inReg := none }
    let bad := t.round.any fun q => q.2.2
    match tok.kind with
    | .data =>
      if t.round.length < x.roomTokens t then
        pop (s.modStream c h fun y => { y with round := y.round ++ [(tok.seq, tok.payload, tok.poison)] })
      else s
    | .scale => pop (s.modStream c h fun y => { y with flags := y.flags ||| fNv })
    | .abort => pop s
    | .mark => if bad then s.agFault c a 0x21 (siteId 4 a.val) run else pop (s.ringCommit c h t.round.length)
    | .stop lv =>
      if bad then s.agFault c a 0x21 (siteId 4 a.val) run
      else if lv.ult t.stop then pop (s.ringCommit c h t.round.length)
      else if s.endHeld c t then s
      else ((pop (s.ringCommit c h t.round.length)).endStream c h).modCore c Core.bump

/-! ### Streams that read a ring (kinds 2 and 3) -/

/-- Tokens the stream takes of slot `k`: all, or those committed of the last slot of an ended ring. -/
def Pump.slotTokens (p : Pump) (h : BitVec 6) (x : Handle) (k : Nat) : Nat :=
  match x.joined, p.ringStream h with
  | some _, some t => min x.per (x.filled t - k * x.per)
  | _, _ => x.per

/-- A joined handle publishes the filled slots of its ring one by one, each as a round, and a STOP when the ring's
stream has ended (R312; log 22). A round holds at most 1,024 tokens, and its MARK their number (R148): a longer slot makes
several. -/
def State.joinItems (s : State) (c : CoreId) (h : BitVec 6) : State :=
  let p := s.pump c
  match p.handle h with
  | none => s
  | some x =>
    match x.joined, x.stream with
    | some _, some t =>
      if !x.items.isEmpty then s
      else if x.free < p.fillOf h then
        s.modHandle c h fun y =>
          { y with items := [.slot x.free 0, .mark (min 1024 (p.slotTokens h x x.free - t.taken))] }
      else if liveStream (p.ringStream h) then s
      else s.modHandle c h fun y => { y with items := [.stop t.stop] }
    | _, _ => s

/-- The stream takes the next token of slot `k`; with the last one the slot is read (R306, R312). -/
def State.slotToken (s : State) (c : CoreId) (h : BitVec 6) (x : Handle) (t : Stream) (k firstSeq : Nat) : State × Token :=
  let (s, v, bad) := s.slotRead c (.ag c t.ag) (x.slotAt k + 32 * t.taken) t.fmt
  let tok := { dataTok v 0 bad with seq := firstSeq + t.taken % 1024 }
  let last := (s.pump c).slotTokens h x k ≤ t.taken + 1
  let s := s.modHandle c h fun y =>
    { y with
      items := if last || (x.joined.isSome && (t.taken + 1) % 1024 = 0) then y.items.drop 1 else y.items
      free := if last && y.joined.isNone then y.free + 1 else y.free
      stream := y.stream.map fun z => { z with taken := if last then 0 else z.taken + 1, movedAt := s.now } }
  (if last && x.joined.isSome then s.releaseSlots c h k 1 else s, tok)

/-- The published item at the head is done. -/
def State.itemDone (s : State) (c : CoreId) (h : BitVec 6) : State :=
  s.modHandle c h fun y => { y with items := y.items.drop 1, stream := y.stream.map fun t => { t with movedAt := s.now } }

/-- A `strm` of kind 2 into memory: tokens are held to the MARK or STOP that commits them (R311). -/
def State.ringOut (s : State) (c : CoreId) (a : Fin 8) (run : AgRun) (h : BitVec 6) (x : Handle) (t : Stream) (g : AgCfg) :
    State :=
  match x.items with
  | [] => s
  | .slot k q :: _ =>
    let (u, tok) := s.slotToken c h x t k q
    u.agStep c a run fun y => { y with hold := y.hold ++ [tok] }
  | .mark _ :: _ => if (s.core c).fab.ags[a].hold.isEmpty then s.itemDone c h else s.agCommit c a run g id
  | .stop lv :: _ =>
    if !(s.core c).fab.ags[a].hold.isEmpty then s.agCommit c a run g id
    else if lv.ult t.stop then s.itemDone c h
    else if s.jobsOf c a || s.endHeld c t then s
    else if !((s.core c).fab.ags[a].dropped).isEmpty then s.tellDropped c a run
    else (s.itemDone c h).endStream c h

/-- A `strm` of kind 3: tokens go to its region through the E port of site n.7; it ends when the STOP is forwarded
(R311), which waits with its end while no further record can wait (R359). -/
def State.ringFeed (s : State) (c : CoreId) (a : Fin 8) (run : AgRun) (h : BitVec 6) (x : Handle) (t : Stream) (g : AgCfg) :
    State :=
  let y := (s.core c).fab.ags[a]
  match y.outq, (s.core c).fab.runPlane t.region with
  | tok :: _, some p =>
    let last : Bool := match tok.kind with
      | .stop lv => !lv.ult t.stop
      | _ => false
    if !(s.core c).fab.regions[t.region].moves || (last && s.endHeld c t) then s
    else match (s.agSendable c a p { g with mode := 1 }).filter fun t' => !(s.core c).stopsRound t.region t' with
      | none => s
      | some _ =>
        let u := s.agSend c a run p { g with mode := 1 } tok
        let u := u.modCore c fun k => k.progress t.region s.now
        match tok.kind with
        | .data =>
          -- a token that a replay sends again is counted once
          if 0 < y.again then u.modCore c fun k => k.modAg a fun z => { z with again := z.again - 1 }
          else u.modStream c h fun z => { z with committed := z.committed + 32 }
        | _ => if last then (u.endStream c h).modCore c Core.bump else u
  | _ :: _, none => s
  | [], _ =>
    let put (s : State) (tok : Token) : State := s.agStep c a run fun z => { z with outq := z.outq ++ [tok] }
    match x.items with
    | [] => s
    | .slot k q :: _ =>
      let (u, tok) := s.slotToken c h x t k q
      put u tok
    | .mark q :: _ => put (s.itemDone c h) { plainTok .mark with seq := q }
    | .stop lv :: _ => put (s.itemDone c h) (plainTok (.stop lv))

/-! ### The two events -/

/-- The oldest read of an AG site cannot return: a port on its way is down (R283, R477). -/
def State.readHeld (s : State) (c : CoreId) (a : Fin 8) : Bool :=
  match (s.core c).fab.ags[a].reads with
  | (_, some va, _) :: _ => match s.agPa c va .rd with
    | .ok pa => !s.wayUp c pa
    | .error _ => false
  | _ => false

/-- AG_READ_RETURN (R347): the line data of the oldest read of AG site `a`. -/
def State.agReturn (s : State) (c : CoreId) (a : Fin 8) : State :=
  let k := s.core c
  match k.agRun a with
  | none => s
  | some (run, g) =>
    if !k.agMoves run || !g.sends || k.fab.ags[a].page.isSome || s.readHeld c a then s
    else match g.ctx with
      | some ctx => s.agReturnSluice c a run ctx g
      | none => s.agReturnPlain c a run g

/-- AG_READ_RETURN. -/
def execAgReadReturn (c : CoreId) (ag : Fin 8) (s : State) : Out :=
  .next (if s.shut then s else s.after c (s.agReturn c ag))

end Sys2Proof.Machine
end

