-- ==== Sys2Proof/Machine/AtomInsns.lean ====
section
/-! DEFINITION. The atom instructions (R160 to R171). -/

namespace Sys2Proof.Machine

open Sys2Proof

/-! ### Operands and results -/

/-- The value of an atom register as a number. -/
def Pump.atom (p : Pump) (q : BitVec 4) : Nat := p.q[q.toFin].val.toNat

/-- The tag of an atom register. -/
def Pump.tag (p : Pump) (q : BitVec 4) : Fmt := p.q[q.toFin].tag

/-- LANES of an atom register, block scale 0 (R151). -/
def Pump.lanesOf (p : Pump) (q : BitVec 4) : List Num × Flags := lanes (p.tag q) (p.atom q)

/-- INT32 lanes of an atom register. -/
def Pump.intLanes (p : Pump) (q : BitVec 4) : List (BitVec 32) :=
  (List.range 4).map fun i => BitVec.ofNat 32 (openLane .oi (p.atom q) i)

/-- Write an atom register: the atom, zeros above it, and the tag (R94, R160). -/
def Pump.setAtom (p : Pump) (q : BitVec 4) (f : Fmt) (v : Nat) : Pump :=
  { p with q := setAt p.q q.toFin { val := BitVec.ofNat 128 v, tag := f } }

/-- A result in an atom register with its flags, and on to the next instruction; `last` stays (R160). -/
def State.giveAtom (s : State) (c : CoreId) (q : BitVec 4) (f : Fmt) (r : Nat × Flags) : State :=
  s.modPump c fun p => ((p.setAtom q f r.1).raise r.2).advance

/-- The result format: fmt 0 is the format of qa (R160). -/
def Pump.fmtOr (p : Pump) (f : Option Fmt) (qa : BitVec 4) : Fmt := f.getD (p.tag qa)

/-- The integer domain (R153). -/
def Pump.intDomain (p : Pump) (f : Fmt) (qs : List (BitVec 4)) : Bool := f = .oi && qs.all fun q => p.tag q = .oi

/-- INT32 lanes as an atom. -/
def intAtom (v : List (BitVec 32)) : Nat := packLanes 32 (v.map BitVec.toNat)

/-- Two-operand lane arithmetic (R153, R162). -/
def State.lanewise (s : State) (f : Option Fmt) (qd qa qb : BitVec 4) (int : BitVec 32 → BitVec 32 → BitVec 32)
    (num : Num → Num → Num × Flags) : State :=
  let p := s.pump s.cur
  let F := p.fmtOr f qa
  if p.intDomain F [qa, qb] then
    s.giveAtom s.cur qd F (intAtom (((p.intLanes qa).zip (p.intLanes qb)).map fun x => int x.1 x.2), 0)
  else
    let (a, fa) := p.lanesOf qa
    let (b, fb) := p.lanesOf qb
    let v := (a.zip b).map fun x => num x.1 x.2
    let (r, fr) := storeNums F (v.map (·.1))
    s.giveAtom s.cur qd F (r, fa ||| fb ||| orFlags (v.map (·.2)) ||| fr)

/-! ### Conversions (R161) -/

/-- `acvt.f` and `aenc.f` (R161). -/
def State.convertAtom (s : State) (f : Fmt) (qd qa : BitVec 4) : State :=
  let p := s.pump s.cur
  if f = .oi && p.tag qa = .oi then s.giveAtom s.cur qd .oi (p.atom qa, 0)
  else
    let (v, fl) := p.lanesOf qa
    let (r, fr) := storeNums f v
    s.giveAtom s.cur qd f (r, fl ||| fr)

/-- `aenc.f` (R161). -/
def execAenc (f : Fmt) (qd qa : BitVec 4) (s : State) : Out := .next (s.convertAtom f qd qa)

/-- `adec` stores into O32 (R161). -/
def execAdec (qd qa : BitVec 4) (s : State) : Out := .next (s.convertAtom .o32 qd qa)

/-- `acvt.f` (R161). -/
def execAcvt (f : Fmt) (qd qa : BitVec 4) (s : State) : Out := .next (s.convertAtom f qd qa)

/-! ### Lane arithmetic (R162) -/

/-- `aadd` (R162). -/
def execAadd (f : Option Fmt) (qd qa qb : BitVec 4) (s : State) : Out :=
  .next (s.lanewise f qd qa qb (· + ·) addLane)

/-- `asub` (R162). -/
def execAsub (f : Option Fmt) (qd qa qb : BitVec 4) (s : State) : Out :=
  .next (s.lanewise f qd qa qb (· - ·) fun a b => addLane a b.neg)

/-- `amul` (R162). -/
def execAmul (f : Option Fmt) (qd qa qb : BitVec 4) (s : State) : Out :=
  .next (s.lanewise f qd qa qb (· * ·) mulLane)

/-- `afma` rounds a × b + c once (R162). -/
def execAfma (f : Option Fmt) (qd qa qb qc : BitVec 4) (s : State) : Out :=
  let p := s.pump s.cur
  let F := p.fmtOr f qa
  if p.intDomain F [qa, qb, qc] then
    let v := (((p.intLanes qa).zip (p.intLanes qb)).zip (p.intLanes qc)).map fun x => x.1.1 * x.1.2 + x.2
    .next (s.giveAtom s.cur qd F (intAtom v, 0))
  else
    let (a, fa) := p.lanesOf qa
    let (b, fb) := p.lanesOf qb
    let (c, fc) := p.lanesOf qc
    let v := ((a.zip b).zip c).map fun x => fmaLane x.1.1 x.1.2 x.2
    let (r, fr) := storeNums F (v.map (·.1))
    .next (s.giveAtom s.cur qd F (r, fa ||| fb ||| fc ||| orFlags (v.map (·.2)) ||| fr))

/-- `adot`: DOT with both block scales 0, as FP32 (R166). -/
def execAdot (ga : Reg) (qa qb : BitVec 4) (s : State) : Out :=
  let p := s.pump s.cur
  .next (s.giveFloat s.cur ga (dotAtoms (dotArg (p.tag qa) (p.atom qa) 0) (dotArg (p.tag qb) (p.atom qb) 0)))

/-- `amap` (R163). -/
def execAmap (fn : MapFn) (f : Option Fmt) (qd qa : BitVec 4) (s : State) : Out :=
  let p := s.pump s.cur
  let F := p.fmtOr f qa
  if p.intDomain F [qa] && mapFnInt fn then
    .next (s.giveAtom s.cur qd F (intAtom ((p.intLanes qa).map (mapIntLane fn)), 0))
  else
    let (a, fa) := p.lanesOf qa
    let v := a.map (mapLane fn)
    let (r, fr) := storeAtom F (v.map (·.1))
    .next (s.giveAtom s.cur qd F (r, fa ||| orFlags (v.map (·.2)) ||| fr))

/-- `amsk` (R164). -/
def execAmsk (f : Option Fmt) (qd qa : BitVec 4) (ga : Reg) (s : State) : Out :=
  let p := s.pump s.cur
  let F := p.fmtOr f qa
  let m := p.read ga
  if p.intDomain F [qa] then
    let v := (p.intLanes qa).zipIdx.map fun x => if m.getLsbD x.2 then 0 else x.1
    .next (s.giveAtom s.cur qd F (intAtom v, 0))
  else
    let (a, fa) := p.lanesOf qa
    let v := a.zipIdx.map fun x => if m.getLsbD x.2 then Num.zero else x.1
    let (r, fr) := storeNums F v
    .next (s.giveAtom s.cur qd F (r, fa ||| fr))

/-- `acmp` writes a lane mask (R165); two OI operands compare as signed integers, which the exact values do. -/
def execAcmp (cond : Cond) (ga : Reg) (qa qb : BitVec 4) (s : State) : Out :=
  let p := s.pump s.cur
  let (a, fa) := p.lanesOf qa
  let (b, fb) := p.lanesOf qb
  let v := (a.zip b).map fun x => compare cond x.1 x.2
  let mask := packLanes 1 (v.map fun r => if r.1 then 1 else 0)
  .next (s.giveFloat s.cur ga (mask, fa ||| fb ||| orFlags (v.map (·.2))))

/-- `ascl` (R167): an exponent beyond ±1000 stores what ±1000 stores, since every lane lies within 2^±400. -/
def execAscl (f : Option Fmt) (qd qa : BitVec 4) (ga : Reg) (s : State) : Out :=
  let p := s.pump s.cur
  let F := p.fmtOr f qa
  let e := max (-1000) (min 1000 (p.read ga).toInt)
  let (a, fa) := p.lanesOf qa
  let (r, fr) := storeNums F (a.map (Num.scale e))
  .next (s.giveAtom s.cur qd F (r, fa ||| fr))

/-! ### Fields of a coded atom (R168) -/

/-- `again` (R168). -/
def execAgain (ga : Reg) (qa : BitVec 4) (s : State) : Out :=
  let p := s.pump s.cur
  let f := p.tag qa
  if f.coded then
    let (m, e) := gainValue f (gainOf f (p.atom qa))
    .next (s.giveFloat s.cur ga ((roundTo f32 false false m e false).1, 0))
  else .next (s.giveFloat s.cur ga (0x7FC0_0000, fNv))

/-- `aidx` (R168). -/
def execAidx (ga : Reg) (qa : BitVec 4) (s : State) : Out :=
  let p := s.pump s.cur
  let f := p.tag qa
  if f.coded then .next (s.giveFloat s.cur ga (idxOf f (p.atom qa), 0))
  else .next (s.giveFloat s.cur ga (0xFFFF_FFFF_FFFF_FFFF, fNv))

/-- `apat` (R168). -/
def execApat (qd qa : BitVec 4) (s : State) : Out :=
  let p := s.pump s.cur
  let f := p.tag qa
  if f.coded && idxOf f (p.atom qa) < validIdx f then
    let v := (unrank (pulses f) (idxOf f (p.atom qa))).map (BitVec.ofInt 32)
    .next (s.giveAtom s.cur qd .oi (intAtom v, 0))
  else .next (s.giveAtom s.cur qd .oi (0, fNv))

/-! ### Random words (R169) -/

/-- `arnd` (R169). -/
def execArnd (dist : Dist) (f : Fmt) (qd : BitVec 4) (ga : Reg) (s : State) : Out :=
  let p := s.pump s.cur
  let u := (List.range 4).map fun i => randw p.seed ((p.read ga).toNat + i)
  let r := match dist with
    | .unif => packLanes (if f = .o16 then 16 else 32) (u.map (uniformLane f))
    | .bits => packLanes 32 (u.map BitVec.toNat)
  .next (s.giveAtom s.cur qd f (r, 0))

/-! ### Import and export (R170, R171) -/

/-- Bytes of four elements. -/
def elementBytes (int4 : Bool) : Nat := if int4 then 2 else 4

/-- The four element integers of an access (R142). -/
def elementsOf (int4 : Bool) (n : Nat) : List Int :=
  (List.range 4).map fun i => elementInt int4 (n / 2 ^ ((if int4 then 4 else 8) * i))

/-- `aimp` (R170): a load, which copies the line of a read bind (R274). -/
def execAimp (t : IntFmt) (f : Fmt) (qd qa : BitVec 4) (ga : Reg) (s : State) : Out :=
  let p := s.pump s.cur
  let i4 := t = .int4
  s.outcome s.cur (.aimp t f qd qa ga) do
    let bs ← s.loadV s.cur (p.read ga) (elementBytes i4)
    let rc := p.atom qa % 2 ^ 32
    let (r, fr) := storeNums f ((elementsOf i4 (leNat bs)).map (importLane i4 rc))
    return (s.readThrough s.cur false (p.read ga) (elementBytes i4)).giveAtom s.cur qd f (r, flagIf (recordFaulty i4 rc) fNv ||| fr)

/-- `aexp` (R170). -/
def execAexp (t : IntFmt) (qa qb : BitVec 4) (ga : Reg) (s : State) : Out :=
  let p := s.pump s.cur
  let i4 := t = .int4
  let (v, fl) := p.lanesOf qa
  let x := v.map (exportLane i4 (p.atom qb % 2 ^ 32))
  let code := packLanes (if i4 then 4 else 8) (x.map fun q => elementCode i4 q.1)
  s.outcome s.cur (.aexp t qa qb ga) do
    let r ← s.storeV s.cur (p.read ga) (toLE (elementBytes i4) code)
    return (r.modPump s.cur fun p => p.raise (fl ||| orFlags (x.map (·.2)))).goOn s.cur

end Sys2Proof.Machine
end

