-- ==== Sys2Proof/Machine/Barriers.lean ====
section
/-! DEFINITION. Barriers (R280, R319). -/

namespace Sys2Proof.Machine

open Sys2Proof

/-- The count of a scope among the six of a core. -/
def scopeIndex : Scope → Fin 6
  | .lane => 0
  | .core => 1
  | .quad => 2
  | .die => 3
  | .pkg => 4
  | .pod => 5

/-- The members of a barrier of core `c`: the cores of its group in its instance of the scope (R280). -/
def State.members (s : State) (c : CoreId) (scope : Scope) : List CoreId :=
  (s.launch c).group.filter fun d => sameInstance scope c d

/-- The counts of a core at a scope. -/
def State.bar (s : State) (c : CoreId) (scope : Scope) : Barrier := (s.pump c).bars[scopeIndex scope]

/-- Change the counts of a core at a scope. -/
def State.modBar (s : State) (c : CoreId) (scope : Scope) (f : Barrier → Barrier) : State :=
  s.modPump c fun p => { p with bars := setAt p.bars (scopeIndex scope) (f p.bars[scopeIndex scope]) }

/-- A member has made the arrival of the episode that core `c` waits for. -/
def State.arrived (s : State) (c : CoreId) (scope : Scope) (m : CoreId) : Bool :=
  (s.bar m scope).arrivals - (s.bar c scope).arrivals < 0x8000_0000

/-- This core's last arrival has not been waited for (R319). -/
def Barrier.open_ (b : Barrier) : Bool := b.arrivals ≠ b.waits

/-- One arrival (R319). -/
def Barrier.arrive (b : Barrier) : Barrier := { b with arrivals := b.arrivals + 1 }

/-- One wait done (R319). -/
def Barrier.finish (b : Barrier) : Barrier := { b with waits := b.arrivals, abandoned := false }

/-- What the wait of core `c` acquires: the arrivals of the members in its episode and earlier ones (R280). At `.lane`, whose
only member is the core, there is nothing (R17). -/
def State.acquireArrivals (s : State) (c : CoreId) (scope : Scope) : State :=
  let mine := (s.bar c scope).arrivals
  s.acquireWhere (.pump c) scope fun r => match r.kind, r.core with
    | .arrival sc n, some m => sc = scope && (s.members c scope).contains m && mine - n < 0x8000_0000
    | _, _ => false

/-- The wait of `barw` and `bar`, the arrival made: it ends when every member has arrived; a halted member that has
not raises fault 0x19 once all the others have (R319). What the members have seen is seen after it (R280); `.lane` orders
nothing, as its fence (R17, R279). -/
def State.barWait (s : State) (c : CoreId) (scope : Scope) : Except Stop State := do
  let missing := (s.members c scope).filter fun m => m ≠ c && !s.arrived c scope m
  match missing with
  | [] => return ((s.acquireArrivals c scope).modBar c scope Barrier.finish).goOn c
  | m :: r =>
    if (m :: r).all fun d => (s.pump d).run = .halted then throw (fault 0x19 (s.coreWord m))
    else throw (.wait (some 4))

/-- What an arrival orders: a release of its episode (R276, R280), and nothing at `.lane` (R17). -/
def State.arriveFence (s : State) (c : CoreId) (scope : Scope) : State :=
  s.releaseAt c scope (.arrival scope ((s.bar c scope).arrivals + 1))

/-- `bara` (R319). -/
def execBara (scope : Scope) (s : State) : Out :=
  s.outcome s.cur (.bara scope)
    (if (s.bar s.cur scope).open_ then .error (illegal (.bara scope))
     else .ok (((s.arriveFence s.cur scope).modBar s.cur scope Barrier.arrive).goOn s.cur))

/-- `barw` as an attempt (R319). -/
def State.barwTry (s : State) (c : CoreId) (scope : Scope) : Except Stop State :=
  if (s.bar c scope).open_ then s.barWait c scope else .error (illegal (.barw scope))

/-- `barw` (R319). -/
def execBarw (scope : Scope) (s : State) : Out := s.outcome s.cur (.barw scope) (s.barwTry s.cur scope)

/-- A `bar` whose wait ends in a trap, or is abandoned, keeps its arrival and is marked (R319). -/
def State.markBar (s : State) (c : CoreId) (scope : Scope) : State :=
  s.modBar c scope fun b => { b with abandoned := b.open_ }

/-- `bar` arrives, unless it is the reissue of an abandoned one, and waits (R319). -/
def execBar (scope : Scope) (s : State) : Out :=
  let b := s.bar s.cur scope
  if b.open_ && !b.abandoned then s.outcome s.cur (.bar scope) (.error (illegal (.bar scope)))
  else
    let t := if b.abandoned then s.modBar s.cur scope fun x => { x with abandoned := false }
      else (s.arriveFence s.cur scope).modBar s.cur scope Barrier.arrive
    match t.barWait s.cur scope with
    | .ok u => .next u
    | .error (.wait why) => .next (t.stop s.cur (.bar scope) (.wait why))
    | .error e => .next ((t.markBar s.cur scope).stop s.cur (.bar scope) e)

end Sys2Proof.Machine
end

