-- ==== Sys2Proof/Machine/Issue.lean ====
section
/-! DEFINITION. What the issue of a pump instruction waits for (R98), and what its later loads can then no longer miss (R264,
R485; log 7). -/

namespace Sys2Proof

open Machine

/-- The registers that an instruction reads. -/
def Instr.uses : Instr → List Src
  | .add _ a b => [.reg a, .reg b]
  | .sub _ a b => [.reg a, .reg b]
  | .and _ a b => [.reg a, .reg b]
  | .or _ a b => [.reg a, .reg b]
  | .xor _ a b => [.reg a, .reg b]
  | .andn _ a b => [.reg a, .reg b]
  | .shl _ a b => [.reg a, .reg b]
  | .shr _ a b => [.reg a, .reg b]
  | .sar _ a b => [.reg a, .reg b]
  | .rol _ a b => [.reg a, .reg b]
  | .min _ a b => [.reg a, .reg b]
  | .max _ a b => [.reg a, .reg b]
  | .minn _ a b => [.reg a, .reg b]
  | .maxn _ a b => [.reg a, .reg b]
  | .slt _ a b => [.reg a, .reg b]
  | .sltn _ a b => [.reg a, .reg b]
  | .addi _ a _ => [.reg a]
  | .andi _ a _ => [.reg a]
  | .ori _ a _ => [.reg a]
  | .xori _ a _ => [.reg a]
  | .shli _ a _ => [.reg a]
  | .shri _ a _ => [.reg a]
  | .sari _ a _ => [.reg a]
  | .roli _ a _ => [.reg a]
  | .slti _ a _ => [.reg a]
  | .lih d _ => [.reg d]
  | .movk d _ _ => [.reg d]
  | .mov _ a => [.reg a]
  | .mul _ a b => [.reg a, .reg b]
  | .mulh _ a b => [.reg a, .reg b]
  | .mulhn _ a b => [.reg a, .reg b]
  | .div _ a b => [.reg a, .reg b]
  | .divn _ a b => [.reg a, .reg b]
  | .rem _ a b => [.reg a, .reg b]
  | .remn _ a b => [.reg a, .reg b]
  | .madd _ a b c => [.reg a, .reg b, .reg c]
  | .clz _ a => [.reg a]
  | .ctz _ a => [.reg a]
  | .popc _ a => [.reg a]
  | .bfx _ a _ _ => [.reg a]
  | .bfi d a _ _ => [.reg d, .reg a]
  | .seq _ a b => [.reg a, .reg b]
  | .sne _ a b => [.reg a, .reg b]
  | .sel _ a b c => [.reg a, .reg b, .reg c]
  | .fadd _ a b => [.reg a, .reg b]
  | .fsub _ a b => [.reg a, .reg b]
  | .fmul _ a b => [.reg a, .reg b]
  | .ffma _ a b c => [.reg a, .reg b, .reg c]
  | .fdiv _ a b => [.reg a, .reg b]
  | .fsqrt _ a => [.reg a]
  | .fmin _ a b => [.reg a, .reg b]
  | .fmax _ a b => [.reg a, .reg b]
  | .fcmp _ _ a b => [.reg a, .reg b]
  | .fcvt _ _ _ a => [.reg a]
  | .fcls _ a => [.reg a]
  | .beq a b _ => [.reg a, .reg b]
  | .bne a b _ => [.reg a, .reg b]
  | .blt a b _ => [.reg a, .reg b]
  | .bge a b _ => [.reg a, .reg b]
  | .bltn a b _ => [.reg a, .reg b]
  | .bgen a b _ => [.reg a, .reg b]
  | .dbnz a _ => [.reg a]
  | .ret a => [.reg a]
  | .jt a _ _ => [.reg a]
  | .callt a _ _ => [.reg a]
  | .ld _ _ _ _ a _ => [.reg a]
  | .st _ _ _ d a _ => [.reg d, .reg a]
  | .lds _ a _ => [.reg a]
  | .stf d a _ => [.reg d, .reg a]
  | .ldq _ _ _ a _ => [.reg a]
  | .stq _ _ q a _ => [.atom q, .reg a]
  | .pref _ a _ => [.reg a]
  | .aimp _ _ _ qa ga => [.atom qa, .reg ga]
  | .aexp _ qa qb ga => [.atom qa, .atom qb, .reg ga]
  | .amo _ _ _ a b => [.reg a, .reg b]
  | .amoCas _ _ a b c => [.reg a, .reg b, .reg c]
  | .nma _ d a _ => [.reg d, .reg a]
  | .aenc _ _ qa => [.atom qa]
  | .adec _ qa => [.atom qa]
  | .aadd _ _ qa qb => [.atom qa, .atom qb]
  | .asub _ _ qa qb => [.atom qa, .atom qb]
  | .amul _ _ qa qb => [.atom qa, .atom qb]
  | .afma _ _ qa qb qc => [.atom qa, .atom qb, .atom qc]
  | .adot _ qa qb => [.atom qa, .atom qb]
  | .amap _ _ _ qa => [.atom qa]
  | .amsk _ _ qa ga => [.atom qa, .reg ga]
  | .acmp _ _ qa qb => [.atom qa, .atom qb]
  | .ascl _ _ qa ga => [.atom qa, .reg ga]
  | .again _ qa => [.atom qa]
  | .aidx _ qa => [.atom qa]
  | .apat _ qa => [.atom qa]
  | .acvt _ _ qa => [.atom qa]
  | .arnd _ _ _ ga => [.reg ga]
  | .hset _ _ a _ _ => [.reg a]
  | .strm _ a _ => [.reg a]
  | .sbar a => [.reg a]
  | .cfgl a => [.reg a]
  | .gld a => [.reg a]
  | .dqpush a => [.reg a]
  | .dqsteal _ a => [.reg a]
  | .launch a => [.reg a]
  | .notify a b => [.reg a, .reg b]
  | .swr _ a => [.reg a]
  | _ => []

/-- An instruction that completes when it is issued with what stands at that moment: it reads a system register, or takes
what an engine, an atomic update or a full word gives. What follows is issued later. -/
def Instr.dates : Instr → Bool
  | .srd _ _ => true
  | .lds _ _ _ => true
  | .amo _ _ _ _ _ => true
  | .amoCas _ _ _ _ _ => true
  | .waith _ _ _ => true
  | .wptr _ _ => true
  | .dqpop _ => true
  | .dqsteal _ _ => true
  | .dqlen _ => true
  | .cfgq _ _ => true
  | .gq _ => true
  | _ => false

end Sys2Proof

namespace Sys2Proof.Machine

open Sys2Proof

/-- Where a load of core `c` reads, and what it loads (R296, R299, R170). -/
def State.loadOf (s : State) (c : CoreId) : Instr → Option (List Src × Option (Bank × Nat × Nat))
  | .ld size cis _ d a imm => some ([.reg d, .reg .last], s.wordPlace c cis ((s.pump c).ea a imm) size.bytes)
  | .ldq f cis q a imm => some ([.atom q], s.wordPlace c cis ((s.pump c).ea a imm) f.bytes)
  | .aimp t _ qd _ ga => some ([.atom qd], s.wordPlace c false ((s.pump c).read ga) (elementBytes (t = .int4)))
  | _ => none

/-- The number of the first write after the newest one that core `c` sees in a range. -/
def State.seenUpTo (s : State) (c : CoreId) (b : Bank) (lo n : Nat) : Nat :=
  ((s.recent.find? fun w => w.touches b lo n && !s.misses (.pump c) w.serial b lo n).map (·.serial + 1)).getD 0

/-- The issue of an instruction: it waits for the registers it reads (R98), so that its pump's later loads, issued after it,
return no value older than the writes performed when those were loaded (R485). A load then stands for its register. -/
def State.issue (s : State) (c : CoreId) (i : Instr) : State :=
  if s.stale.isEmpty then s
  else
    let p := s.pump c
    let k := (p.loads.filter fun q => i.uses.contains q.1).foldl (fun m q => max m q.2) 0
    let t := s.keepLag fun e => e.viewer ≠ .pump c || e.copied || e.bank ≠ .memory || !(e.serial < k || i.dates)
    let loads := match t.loadOf c i with
      | some (ds, some (b, lo, n)) => ds.map (·, t.seenUpTo c b lo n)
      | _ => []
    t.modPump c fun p => { p with loads := loads ++ p.loads.filter fun q => !loads.any (·.1 = q.1) }

end Sys2Proof.Machine
end

