-- ==== Sys2Proof/Machine/Fetch.lean ====
section
/-! DEFINITION. Fetching an instruction (R116, R431), and which instruction or event a pump's turn runs. -/

namespace Sys2Proof.Machine

open Sys2Proof

/-- The word at the pc: outside the code section, fault 0x04 at that address (R116). -/
def State.fetchTry (s : State) (c : CoreId) : Except Stop Word :=
  let p := s.pump c
  if (s.launch c).inCode p.pc then s.fetchWord c p.pc else .error (fault 0x04 p.pc)

/-- A fetch that does not complete: a page request records cause 8 (R434), a fault is taken at the pc (R116). -/
def State.fetchStop (s : State) (c : CoreId) : Stop → State
  | .page va access =>
    let (t, id) := s.postPage va access 0 (s.launch c).space (s.pump c).flow (some c)
    t.modPump c fun p => { p with page := some (id, va), blockedAt := s.now, stallWhy := 8 }
  | .trap cause after => s.stop c .nop (.trap cause after)
  | .damage d code ea => s.stop c .nop (.damage d code ea)
  | .wait why => s.stop c .nop (.wait why)

/-- INSTRUCTION_FETCH (R116, R431): what a fetch that cannot give an instruction does. A fetch that can give one
changes nothing by itself. -/
def execInstructionFetch (s : State) : Out :=
  match s.fetchTry s.cur with
  | .ok _ => .next s
  | .error e => .next (s.fetchStop s.cur e)

/-- ILLEGAL_INSTRUCTION: fault 0x01 with the word in `s.tval` (R51, R52, R56, R73, R117, R118). -/
def execIllegalInstruction (w : Word) (s : State) : Out := .next (s.stop s.cur .nop (fault 0x01 w))

/-- The waits that an asynchronous trap or a pre-emption abandons (R120, R417). -/
def Pump.abandonable (p : Pump) : Bool :=
  match p.block with
  | none => true
  | some i =>
    match i with
    | .waith _ _ _ => true
    | .lds _ _ _ => true
    | .drain _ => true
    | .cfgs _ _ => true
    | .cfgl _ => true
    | .cfgp _ _ _ => true
    | .kick _ => true
    | .halt => true
    | .barw _ => true
    | .bar _ => true
    | .nmf => true
    | .nma _ _ _ _ => true
    | .launch _ => true
    | .gld _ => true
    | _ => false

/-- The event that completes a blocked instruction; an instruction without one of its own is issued again. -/
def resumeOf (c : CoreId) (i : Instr) : Instr :=
  match i with
  | .waith _ _ _ => .waithResume c
  | .lds _ _ _ => .ldsResume c
  | .drain _ => .drainReturn c
  | .cfgs _ _ => .cfgsSelect c
  | .barw _ => .barwRelease c
  | .bar _ => .barwRelease c
  | .nmf => .nmfReturn c
  | .nma _ _ _ _ => .nmaLimitRelease c
  | .gld _ => .gldComplete c
  | .halt => .haltTakesEffect c
  | .launch _ => .launchResume c
  | i => i

/-- A turn of a pump: nothing to run, or what runs, in which state. -/
inductive Next where
  | rest
  | run (i : Instr) (s : State)
  deriving DecidableEq, Repr

/-- A page request leaves the pump free to take a trap: it waits in a fetch, in the read phase of a `gld`, or in a
`launch` (R120). -/
def Pump.pageFree (p : Pump) : Bool :=
  p.page.isNone || match p.block with
    | none => true
    | some (.gld _) => true
    | some (.launch _) => true
    | some _ => false

/-- An asynchronous trap is pending and can be taken (R120, R121). -/
def Pump.asyncReady (p : Pump) : Bool := !p.ht && !p.asyncs.isEmpty && p.abandonable && p.pageFree

/-- What the turn of pump `c` runs (R98, R114, R116, R120): an asynchronous trap first, then the end of a wait, else
the instruction at the pc. A pump that has completed its instruction while a pre-emption waits issues no more (R417). -/
def State.turn (s : State) (c : CoreId) : Next :=
  let p := s.pump c
  if s.shut || p.run ≠ .running || (p.ypend && p.block.isNone) then .rest
  else if p.asyncReady then .run (.asyncTrapTaken c) s
  else if p.page.isSome then .rest
  else match p.block with
    | some i =>
      let r := resumeOf c i
      if r = i then .run i (s.modPump c fun p => p.unblock s.now) else .run r s
    | none =>
      let s := s.modPump c fun p => { p with issuedAt := s.now }
      match s.fetchTry c with
      | .error _ => .run .instructionFetch s
      | .ok w =>
        match decode w with
        | .ok i => .run i (s.issue c i)
        | .error _ => .run (.illegalInstruction w) s

/-- The events of pumps, regions, their engines and the pumphouses, which a shutdown stops: what stays is the host, firmware,
and the writes on their way (R483). -/
def stopsShut : Instr → Bool
  | .asyncTrapTaken _ => true
  | .waithResume _ => true
  | .ldsResume _ => true
  | .ldsStillTimeout _ => true
  | .waithStillTimeout _ => true
  | .drainReturn _ => true
  | .cfgsSelect _ => true
  | .barwRelease _ => true
  | .nmfReturn _ => true
  | .nmaLimitRelease _ => true
  | .gldComplete _ => true
  | .haltTakesEffect _ => true
  | .launchResume _ => true
  | .launchStillTimeout _ => true
  | .configLoadComplete _ => true
  | .siteFire _ _ => true
  | .tokenHop _ _ => true
  | .agStreamAccess _ _ => true
  | .agReadReturn _ _ => true
  | .memorySiteAccess _ _ => true
  | .regionDrain _ _ => true
  | .stillWindowExpiry _ _ => true
  | .clockGate _ _ => true
  | .siteWake _ _ => true
  | .sitePowerWake _ _ => true
  | .frameFetchComplete _ _ _ _ => true
  | .weirVector _ => true
  | .weirRestSwap _ => true
  | .stationFold _ => true
  | .chainFold _ => true
  | .sluiceLine _ => true
  | .completionRecordWrite _ => true
  | .checkFailureAbort _ _ _ _ => true
  | .pageRequestVerdict _ _ => true
  | .pageRequestTimeout _ => true
  | .queueMap _ => true
  | .dependencePoll _ _ => true
  | .dispatchDecision _ _ => true
  | .flowRetire _ => true
  | .preemptRequest _ => true
  | .preemptSaveComplete _ => true
  | .fatalEnd _ => true
  | _ => false

/-- An event of the schedule can happen: it is no instruction of a pump, and no shutdown has stopped it (R483). -/
def State.happens (s : State) (i : Instr) : Bool := !i.isPump && !(s.shut && stopsShut i)

/-- Let time pass (R9, R28; log 2). -/
def State.elapse (s : State) (dt : Nat) : State := { s with now := s.now + dt }

/-- The turn of pump `c` runs a graph instruction. -/
def State.onGraph (s : State) (c : CoreId) : Bool :=
  match { s with cur := c }.turn c with
  | .run (.gld _) _ => true
  | .run (.gldComplete _) _ => true
  | .run .gsw _ => true
  | .run (.grel _) _ => true
  | .run (.gq _) _ => true
  | _ => false

/-- Two turns of one cycle that have an order of their own, and whether the second comes first: graph instructions of one
quad go in ascending core number (R24), and of two claims on cores the one of the lower die goes first (R407). -/
def State.before (s : State) (t x : Turn) : Bool :=
  match t.act, x.act with
  | .pump c, .pump d => c.val / 4 = d.val / 4 && d.val < c.val && s.onGraph c && s.onGraph d
  | .event (.dispatchDecision a _), .event (.dispatchDecision b _) => b.val < a.val
  | _, _ => false

/-- The turn that is taken of those of the cycle of the turn at the head: one that its order puts before all others that
come before the head (R24, R407). -/
def State.pick (s : State) (t : Turn) (r : List Turn) : Turn × List Turn :=
  let first := ((r.takeWhile (·.dt = 0)).filter (s.before t)).foldl (fun (m : Option Turn) x => match m with
    | some y => if s.before y x then some x else m
    | none => some x) none
  match first with
  | some x => ({ x with dt := t.dt }, { t with dt := 0 } :: r.erase x)
  | none => (t, r)

/-- A storage error of a core is met (R451, R461, R462): a corrected one is reported, one that makes pump state unusable ends
the group, and a retained token becomes poisoned. -/
def State.meetFlaw (s : State) (c : CoreId) (f : Flaw) : State :=
  let core := BitVec.ofNat 16 c.val
  let space := (s.launch c).space.setWidth 16
  let flow := (s.pump c).flow
  match f with
  | .corrected kind what => s.coalesce kind what core space flow
  | .pumpState =>
    if (s.pump c).run = .fatal || (s.pump c).run = .idle then s
    else
      ((s.modPump c fun p => { p with run := .fatal, fatalBy := none, block := none, page := none }).haltGroup c).recovery 8 2 0x20
        0 core space flow 1
  | .retained a n =>
    match (s.core c).fab.ags[a].sent[n]? with
    | some t =>
      if t.kind ≠ .data then s
      else
        let f := ((s.core c).agRun a).bind fun x => x.2.format
        (s.modCore c fun k => k.modAg a fun x =>
          { x with sent := x.sent.modify n fun t => { t with poison := true, payload := nanPayload f } }).recovery 3 1 0
          (siteId 4 a.val) core space flow 1
    | none => s

/-- All those of a core. -/
def State.meetFlaws (s : State) (c : CoreId) : State :=
  if (s.core c).flaws.isEmpty then s
  else (s.core c).flaws.foldl (fun t f => t.meetFlaw c f) (s.modCore c fun k => { k with flaws := [] })

/-- A peer event that waits for a round boundary is taken at the instruction boundary once no region runs any more (R441). -/
def Core.tellLate (k : Core) : Core :=
  if k.pump.events.isEmpty || (fins 8).any fun r => k.fab.regions[r].run && !k.fab.regions[r].stray then k
  else { k with pump := { k.pump with asyncs := k.pump.asyncs ++ k.pump.events, events := [] } }

/-- A pump that can issue has waited for a register (R98, R412): the cycles count with cause 6 (R96). -/
def State.interlock (s : State) (c : CoreId) (n : Nat) : State :=
  let p := s.pump c
  if n = 0 || p.run ≠ .running || p.block.isSome || p.page.isSome then s
  else s.modPump c fun p => { p with stallWhy := 6, stallCycles := satAdd p.stallCycles n }

/-- What precedes the turn of a pump or an event: the time that has passed, what is cached and seen meanwhile, what the pump
meets. -/
def State.begin (s : State) (t : Turn) : State :=
  let s := t.fills.foldl State.fill (s.elapse t.dt)
  match t.act with
  | .pump c => (((s.beginLag (some c) t.lag).meetFlaws c).modCore c Core.tellLate).interlock c t.lock
  | .event _ => (fins 256).foldl State.meetFlaws (s.beginLag none t.lag)

/-- The state and the pump or event of the next step (log 1, log 2): the head of the agenda, else the pump of `cur`
after a free number of cycles. -/
def State.nextAct (s : State) : State × Act :=
  match s.agenda with
  | t :: r =>
    let q := s.pick t r
    ({ s with agenda := q.2 }.begin q.1, q.1.act)
  | [] =>
    ({ s with tick := s.tick + 1 }.begin { dt := Config.elapsed s.tick, act := .pump s.cur }, .pump s.cur)

end Sys2Proof.Machine
end

