-- ==== Sys2Proof/Machine/Folds.lean ====
section
/-! DEFINITION. Folds at die-bridge and Levee ports, with the windows of what crosses them (R18, R244 to R249, R283, R366,
R367), AG_STREAM_ACCESS and TOKEN_HOP. -/

namespace Sys2Proof.Machine

open Sys2Proof

/-! ### Windows (R366, R367) -/

/-- The entries of a station's table for a port, those with shards (R248). -/
def FoldRec.entriesOf (r : FoldRec) (port : BitVec 16) : List Nat :=
  (List.range r.members.length).filter fun m => r.members.getD m (0, 0) |> fun q => q.1 = port && q.2 ≠ 0

/-- Receiver's buffer of a crossing (R366, R367): at a station the partials of one block, as many as every entry of the port
has while the stream's own is not known. -/
def windowOf (port : BitVec 16) (r : FoldRec) (member : Option Nat) : Nat :=
  if r.station then
    (match member with
      | some m => (r.members.getD m (0, 1)).2
      | none => (r.entriesOf port).foldl (fun n m => min n (r.members.getD m (0, 1)).2) r.shards) * r.blk
  else if port.toNat / 0x1000 = 1 then 256 else 64

/-! ### Fold elements -/

/-- Two station elements gather at one station: they name the same buffer and table (R247). -/
def FoldRec.sameStation (a b : FoldRec) : Bool := a.station && a = b

/-- The port of fold element `i`. -/
def State.foldPort (s : State) (i : Nat) : BitVec 16 :=
  match s.crossings.find? fun x => x.fold = i && x.leg = 0 with
  | some x => x.port
  | none => 0

/-- The kind 2 streams with a fold record in the address space of core `c` that have not ended, by core and handle. -/
def State.foldStreams (s : State) (c : CoreId) : List (CoreId × BitVec 6 × Stream × FoldRec) :=
  (((fins 256).filter fun d => (s.pump d).run ≠ .idle && (s.launch d).space = (s.launch c).space).map fun d =>
    (fins 64).filterMap fun h => (((s.pump d).handles[h]).bind (·.stream)).bind fun t =>
      t.fold.bind fun r => if t.kind = .output && !t.ended then some (d, BitVec.ofNat 6 h.val, t, r) else none).flatten

/-- The entry of a station's table for a stream that crosses a port. Entries that name one port go to the elements of that
port by core and handle, once there are as many elements as entries: R248 gives no order for them, and this one knows no
arrival (R249; log 30). -/
def State.memberOf (s : State) (c : CoreId) (h : BitVec 6) (r : FoldRec) (port : BitVec 16) : Option Nat :=
  match r.entriesOf port with
  | [] => some r.members.length
  | [m] => some m
  | ms =>
    let them := (s.folds.zipIdx.filter fun q => q.1.rec_.sameStation r && s.foldPort q.2 = port).map fun q =>
      q.1.core.val * 64 + q.1.h.toNat
    if them.length < ms.length then none
    else some (ms.getD (them.countP (· < c.val * 64 + h.toNat)) r.members.length)

/-- The die of the element at the first port on the way from a die to an address: that at the bridge's far end (R246). -/
def State.elementDie (s : State) (d pa : Nat) : Nat :=
  match s.portsTo d pa with
  | p :: _ => if p.toNat / 0x1000 = 2 then bridgeFar d (p.toNat % 64) else d
  | [] => d

/-- Tokens of a chain's blocks that have passed its elements beside a member without shards: where the member is late, the
blocks before it have gone by (log 70). -/
def State.passed (s : State) (c : CoreId) (r : FoldRec) : Nat :=
  if r.station || r.count ≠ 0 || r.head then 0
  else s.folds.foldl (fun n g =>
    let o := g.rec_
    if !o.station && (s.launch g.core).space = (s.launch c).space && o.shards = r.shards && o.blk = r.blk && o.integer = r.integer &&
        (o.first = r.first || o.first + o.count = r.first) then max n g.pos else n) 0

/-- The fold element of a stream and its window, made with its first token; `pa` is where the stream's pattern begins. -/
def State.makeFold (s : State) (c : CoreId) (h : BitVec 6) (t : Stream) (r : FoldRec) (pa : Nat) : State :=
  match s.foldOf c h with
  | some _ => s
  | none =>
    let d := c.val / 64
    let port := s.firstPort d pa
    let m : Option Nat := match r.entriesOf port with
      | [] => some r.members.length
      | [m] => some m
      | _ => none
    let n := windowOf port r m
    let f : Fold :=
      { core := c, h := h, rec_ := r, addr := t.addr, counters := t.counters, raw := !t.cmp, pos := s.passed c r, member := m,
        pa := pa, die := s.elementDie d pa
        pend := [], parts := [], running := [], outs := [], next := none, flags := 0, rounds := 0 }
    { s with
      folds := s.folds ++ [f]
      crossings := s.crossings ++
        [{ port := port, leg := 0, capacity := n, credits := n, buffer := [], fold := s.folds.length, movedAt := s.now }] }

/-- Change fold element `i`. -/
def State.modFold (s : State) (i : Nat) (f : Fold → Fold) : State :=
  { s with folds := s.folds.zipIdx.map fun q => if q.2 = i then f q.1 else q.1 }

/-- Change the crossing of fold element `i` at a leg: something crosses it now. -/
def State.modCrossing (s : State) (i leg : Nat) (f : Crossing → Crossing) : State :=
  { s with crossings := s.crossings.map fun x => if x.fold = i && x.leg = leg then { f x with movedAt := s.now } else x }

/-- The crossing of fold element `i` at a leg. -/
def State.crossing (s : State) (i leg : Nat) : Option Crossing := s.crossings.find? fun x => x.fold = i && x.leg = leg

/-- A token enters a window, which must hold a credit (R366). At a station the window counts partials, and a MARK, STOP
or SCALE needs none (R367). -/
def State.crossToken (s : State) (i leg : Nat) (t : Token) : Option State :=
  match s.crossing i leg, s.folds[i]? with
  | some x, some f =>
    let free := f.rec_.station && leg = 0 && t.kind ≠ .data
    if (!free && x.credits = 0) || !s.portUp x.port then none
    else some (s.modCrossing i leg fun x =>
      { x with credits := if free then x.credits else x.credits - 1, buffer := x.buffer ++ [t] })
  | _, _ => none

/-- A member without shards has nothing of its own to wait for: its stream ends when the blocks of its pattern have
passed, which a head begins (log 70). -/
def Fold.waits (f : Fold) : Bool := f.rec_.count = 0 && !f.rec_.station && f.pos < patternLen f.counters

/-- A `strm` of kind 2 whose descriptor names a fold record: its tokens pass the window to the element (R311). The last
STOP commits what the element still holds, and the stream ends when its results are written (R237, R238). -/
def State.ringFold (s : State) (c : CoreId) (a : Fin 8) (run : AgRun) (h : BitVec 6) (x : Handle) (t : Stream)
    (r : FoldRec) : State :=
  -- the stream's port is known once its first address has a page
  let made : Except AgStop State := if (s.foldOf c h).isSome then .ok s else (s.agPa c t.addr .wr).map (s.makeFold c h t r)
  match made with
  | .error e => s.agStop c a run e
  | .ok s =>
  match s.foldOf c h, x.items with
  | some i, .slot k q :: _ =>
    let (u, tok) := s.slotToken c h x t k q
    (u.crossToken i 0 tok).getD s
  | some i, .mark q :: _ => ((s.crossToken i 0 { plainTok .mark with seq := q }).map fun u => u.itemDone c h).getD s
  | some i, .stop lv :: _ =>
    if lv.ult t.stop then ((s.crossToken i 0 (plainTok (.stop lv))).map fun u => u.itemDone c h).getD s
    else match s.folds[i]? with
      | none => s
      | some f =>
        if s.legHolds i (·.leg = 0) then s
        else if !f.pend.isEmpty then (s.crossToken i 0 (plainTok (.stop lv))).getD s
        else if s.foldBusy c h || f.waits || s.endHeld c t then s
        else if !((s.core c).fab.ags[a].dropped).isEmpty then s.tellDropped c a run
        else (s.itemDone c h).agStep c a run id |>.endStream c h
  | _, _ => s

/-- The stream of a fold element, with its AG site. -/
def State.foldStream (s : State) (f : Fold) : Option (Fin 8 × AgRun) :=
  ((s.pump f.core).streamOf f.h).bind fun t => if t.ended then none else some (t.ag, .stream f.h t)

/-! ### Writes of a fold (R247, R311) -/

/-- Tokens written at addresses, as one commit, every page translated first: state, dropped lines. -/
def State.foldStores (s : State) (f : Fold) (raw : Bool) (st : List Store) : Except AgStop (State × List Nat) := do
  let ws ← s.placeStores f.core st
  let a := (((s.pump f.core).streamOf f.h).map (·.ag)).getD 0
  return s.streamWrites f.core a raw (sinkWrites false (ws.map fun w => (w.1, w.2.payload)))

/-- Results written to the addresses of the stream's pattern; those past its end are dropped (R311). -/
def State.foldWrite (s : State) (f : Fold) (ts : List Frame) : Except AgStop (State × List Nat × Flags) := do
  let n := patternLen f.counters
  let st := ts.zipIdx.filterMap fun q =>
    if f.pos + q.2 < n then
      some ({ va := f.addr + BitVec.ofInt 64 (patternOffset f.counters (f.pos + q.2)), payload := q.1, scale := 0, poison := false } : Store)
    else none
  let (t, dropped) ← s.foldStores f f.raw st
  return (t, dropped, flagIf (n < f.pos + ts.length) fNv)

/-- Shards of the table that stand before an entry (R248). -/
def FoldRec.before (r : FoldRec) (m : Nat) : Nat := ((r.members.take m).map (·.2)).sum

/-- Station: the partials of a round written into the buffer, each at the position of its shard (R237, R247): token `n`
of a member's block lies behind the shards of the members before it. The spec does not say whether these writes follow the
cmp of the stream: the model makes them as those of a stream with cmp = 1 (R343; log 30). -/
def State.bufferWrite (s : State) (f : Fold) (ts : List Frame) : Except AgStop (State × List Nat) :=
  s.foldStores f false (ts.zipIdx.map fun q =>
    { va := f.rec_.buffer +
        BitVec.ofNat 64 (32 * (f.rec_.before (f.member.getD 0) * f.rec_.blk + (f.parts.length + q.2) % max 1 f.need))
      payload := q.1, scale := 0, poison := false })

/-- What a write or a fold leaves with the stream of an element: flags, bytes committed, lines that were dropped. -/
def State.foldDone (s : State) (f : Fold) (a : Fin 8) (run : AgRun) (fl : Flags) (n : Nat) (dropped : List Nat) : State :=
  let s := (s.agSticky f.core (f.flags ||| fl) run).addCommitted f.core (32 * n) run
  (s.modStream f.core f.h fun y => { y with movedAt := s.now }).modCore f.core fun k =>
    k.modAg a fun x => { x with page := none, dropped := x.dropped ++ dropped }

/-- The entry of a station's element, found once it can be known; its window has then its full size (R367). -/
def State.findEntry (s : State) (i : Nat) (f : Fold) : State :=
  match f.member, s.memberOf f.core f.h f.rec_ (s.foldPort i) with
  | none, some m =>
    let n := windowOf (s.foldPort i) f.rec_ (some m)
    (s.modFold i fun g => { g with member := some m }).modCrossing i 0 fun x =>
      { x with capacity := n, credits := x.credits + (n - x.capacity) }
  | _, _ => s

/-- The element commits a round at its MARK or STOP (R237, R460): a poisoned partial is fault 0x21, and a station writes
its buffer. -/
def State.foldCommit (s : State) (i : Nat) (f : Fold) : State :=
  match s.foldStream f with
  | none => s
  | some (a, run) =>
    if f.rec_.station && f.member.isNone then s
    else
    let ts := f.pend.map (·.2.1)
    let done (t : State) : State := t.modFold i fun g => { g with parts := g.parts ++ ts, pend := [], rounds := g.rounds + 1 }
    if !((s.core f.core).fab.ags[a].dropped).isEmpty then s.tellDropped f.core a run
    else if f.pend.any fun q => q.2.2 then s.agFault f.core a 0x21 (siteId 4 a.val) run
    else if f.rec_.station && !ts.isEmpty then
      match s.bufferWrite f ts with
      | .error e => s.agStop f.core a run e
      | .ok (t, dropped) => (done t).foldDone { f with flags := 0 } a run 0 0 dropped
    else done s

/-! ### The folding itself (R244 to R247) -/

/-- One lane added: RNE in FP32, or modulo 2^32 (R244). -/
def foldLane (int : Bool) (x y : Nat) : Nat × Flags :=
  if int then ((BitVec.ofNat 32 (x + y)).toNat, 0) else add32 x y

/-- acc + P_k over the tokens of a block, lane by lane. -/
def foldAdd (int : Bool) (acc p : List Frame) : List Frame × Flags :=
  let r := (acc.zip p).map fun q =>
    let l := ((tokenInts q.1).zip (tokenInts q.2)).map fun x => foldLane int x.1.toNat x.2.toNat
    (packFrame 32 (l.map (·.1)), orFlags (l.map (·.2)))
  (r.map (·.1), orFlags (r.map (·.2)))

/-- The partials of `n` shards added in shard order to the running value (R244 to R246). -/
def foldShards (int : Bool) (blk : Nat) : Nat → List Frame → List Frame → List Frame × Flags
  | 0, acc, _ => (acc, 0)
  | n + 1, acc, ps =>
    let (a, f) := foldAdd int acc (ps.take blk)
    let (b, g) := foldShards int blk n a (ps.drop blk)
    (b, f ||| g)

/-- Where the blocks of a chain's element go (R246). -/
inductive ChainNext where
  /-- its own sink: it is the last member -/
  | sink
  | member (c : CoreId) (h : BitVec 6)
  /-- no stream of the next member is bound yet -/
  | absent
  deriving DecidableEq, Repr

/-- The place of a member in its chain: by first shard, one without shards before the one that has them, then by core
and handle (log 70). -/
def chainKey (r : FoldRec) (c : CoreId) (h : BitVec 6) : Nat :=
  ((r.first * 2 + if r.count = 0 then 0 else 1) * 256 + c.val) * 64 + h.toNat

/-- The next member of a chain: the first one behind it whose shards follow its own. A member whose shards reach S is the
last. -/
def State.chainNext (s : State) (f : Fold) : ChainNext :=
  let r := f.rec_
  if r.first + r.count = r.shards then .sink
  else
    let later := (s.foldStreams f.core).filter fun q =>
      let g := q.2.2.2
      !g.station && !g.head && g.shards = r.shards && g.blk = r.blk && g.integer = r.integer &&
        g.first = r.first + r.count && (r.head || chainKey r f.core f.h < chainKey g q.1 q.2.1)
    match later.foldl (fun m q => match m with
        | none => some q
        | some b => if chainKey q.2.2.2 q.1 q.2.1 < chainKey b.2.2.2 b.1 b.2.1 then some q else some b) none with
    | some q => .member q.1 q.2.1
    | none => .absent

/-- The bridges that what an element sends to its address crosses: those of the stream's way behind the element (R18,
R283). -/
def State.legsToSink (s : State) (f : Fold) : List (BitVec 16) := (s.portsTo (f.core.val / 64) f.pa).drop 1

/-- The element lies at a Levee port. -/
def State.onLevee (s : State) (f : Fold) : Bool := (s.firstPort (f.core.val / 64) f.pa).toNat / 0x1000 = 1

/-- The bridges between two elements (R18, R246); elements at a Levee port lie at one place. -/
def State.legsTo (s : State) (f g : Fold) : List (BitVec 16) :=
  if s.onLevee f || s.onLevee g then [] else (diePath f.die g.die).map s.bridgePort

/-- An element's block starts over its bridges: one window for each, and the tokens to send (R366). -/
def State.sendBlock (s : State) (i : Nat) (ports : List (BitVec 16)) (next : Option (CoreId × BitVec 6)) (v : List Frame)
    (fl : Flags) : State :=
  let legs : List Crossing := ports.zipIdx.map fun q =>
    { port := q.1, leg := q.2 + 1, capacity := 64, credits := 64, buffer := [], fold := i, movedAt := s.now }
  let s := if (s.crossing i 1).isSome then s else { s with crossings := s.crossings ++ legs }
  s.modFold i fun g => { g with outs := v, next := next, flags := g.flags ||| fl }

/-- The windows behind an element are empty. -/
def State.legsClear (s : State) (i : Nat) : Bool := !s.legHolds i (·.leg ≠ 0)

/-- The windows behind an element go, before it sends another way. -/
def State.dropLegs (s : State) (i : Nat) : State :=
  { s with crossings := s.crossings.filter fun x => x.fold ≠ i || x.leg = 0 }

/-- A member further on can use a block now: it has its partials, or passes the value on to one that has. A head without
shards sends +0 then (R246, R248). -/
def State.chainWants (s : State) : Nat → Nat → Bool
  | 0, _ => false
  | n + 1, j =>
    match s.folds[j]? with
    | none => false
    | some g =>
      g.running.isEmpty && s.legsClear j && g.outs.isEmpty &&
        if g.need ≠ 0 then g.need ≤ g.parts.length
        else match s.chainNext g with
          | .member c h => (s.foldOf c h).any fun m => State.chainWants s n m
          | _ => false

/-- The element has what its next block takes: its partials, and the running value unless it is the head. -/
def State.chainReady (s : State) (i : Nat) (f : Fold) (next : ChainNext) : Bool :=
  f.need ≤ f.parts.length &&
    if !f.rec_.head then f.rec_.blk ≤ f.running.length
    else f.need ≠ 0 || s.legsClear i && match next with
      | .member c h => (s.foldOf c h).any fun j => s.chainWants 64 j
      | _ => false

/-- Element `j` has room for tokens of a running value: it takes one block at a time. -/
def State.takesRun (s : State) (j blk : Nat) : Bool :=
  match s.folds[j]? with
  | some g => g.running.length < blk
  | none => false

/-- One block of a chain's element (R246): the running value, or +0 at the head, with its partials added in order; it
goes to the sink or to the next member's element, at once where no bridge lies between. -/
def State.chainBlock (s : State) (i : Nat) (f : Fold) (a : Fin 8) (run : AgRun) (next : ChainNext) : State :=
  let r := f.rec_
  let acc := if r.head then List.replicate r.blk 0 else f.running.take r.blk
  let (v, fl) := foldShards r.integer r.blk r.count acc f.parts
  let took (s : State) (p : Nat) (keep : Flags) : State := s.modFold i fun g =>
    { g with parts := g.parts.drop f.need, running := if r.head then g.running else g.running.drop r.blk, flags := keep, pos := p }
  match next with
  | .absent => s
  | .sink =>
    match s.legsToSink f with
    | [] =>
      match s.foldWrite f v with
      | .error e => s.agStop f.core a run e
      | .ok (t, dropped, fo) => (took t (f.pos + r.blk) 0).foldDone f a run (fl ||| fo) r.blk dropped
    | ports => (if f.next.isSome then took (s.dropLegs i) f.pos f.flags else took s f.pos f.flags).sendBlock i ports none v fl
  | .member c h =>
    match s.foldOf c h with
    | none => s
    | some j =>
      match ((s.folds[j]?).map (s.legsTo f)).getD [] with
      | [] =>
        if s.takesRun j r.blk then
          ((took s (f.pos + r.blk) 0).modFold j fun g => { g with running := g.running ++ v }).foldDone f a run fl 0 []
        else s
      | ports =>
        ((if f.next ≠ some (c, h) then took (s.dropLegs i) (f.pos + r.blk) 0 else took s (f.pos + r.blk) 0).sendBlock i ports
          (some (c, h)) v 0).foldDone f a run fl 0 []

/-- CHAIN_FOLD (R246): the element sends a token of a folded block on, or folds its next block. A station sends its results
likewise (R247). -/
def State.chainFold (s : State) (i : Nat) : State :=
  match s.folds[i]? with
  | none => s
  | some f =>
    match s.foldStream f with
    | none => s
    | some (a, run) =>
      if ((s.core f.core).fab.ags[a].page).isSome then s
      else match f.outs with
        | t :: rest =>
          match s.crossToken i 1 { dataTok t 0 false with seq := 0 } with
          | some u => u.modFold i fun g => { g with outs := rest }
          | none => s
        | [] =>
          if f.rec_.station then s
          else
          let next := s.chainNext f
          let same := match next with
            | .member c h => f.next = some (c, h)
            | _ => f.next.isNone
          if s.chainReady i f next && (same || s.legsClear i) then s.chainBlock i f a run next else s

/-- CHAIN_FOLD. -/
def execChainFold (i : Nat) (s : State) : Out := .next (if s.shut then s else s.chainFold i)

/-- A token at the far end of a bridge behind an element goes over the next one, into the next member's element, which
takes one block at a time, or to its address (R246, R311). -/
def State.hopLeg (s : State) (x : Crossing) (f : Fold) (t : Token) (rest : List Token) : State :=
  let left (s : State) : State := s.modCrossing x.fold x.leg fun y => { y with buffer := rest, credits := y.credits + 1 }
  if (s.crossing x.fold (x.leg + 1)).isSome then ((s.crossToken x.fold (x.leg + 1) t).map left).getD s
  else match f.next with
    | some (c, h) =>
      match s.foldOf c h with
      | none => s
      | some j =>
        if s.takesRun j f.rec_.blk then
          (left s).modFold j fun g => { g with running := g.running ++ [t.payload] }
        else s
    | none =>
      match s.foldStream f with
      | none => s
      | some (a, run) =>
        if ((s.core f.core).fab.ags[a].page).isSome then s
        else match s.foldWrite f [t.payload] with
          | .error e => s.agStop f.core a run e
          | .ok (u, dropped, fo) =>
            ((left u).modFold x.fold fun g => { g with pos := g.pos + 1, flags := 0 }).foldDone f a run fo 1 dropped

/-- A token leaves a window's buffer, and the credit returns (R366): for its fold element, or on behind it. A partial at
a station keeps its place in the window until its block is folded (R367). A MARK or STOP commits the round (R237). -/
def State.hopCrossing (s : State) (n : Nat) : State :=
  match s.crossings[n]? with
  | none => s
  | some x =>
    match x.buffer, s.folds[x.fold]? with
    | t :: rest, some f =>
      if !s.portUp x.port then s
      else if x.leg ≠ 0 then s.hopLeg x f t rest
      else
        let held := f.rec_.station
        let left (s : State) : State :=
          (s.modCrossing x.fold 0 fun y => { y with buffer := rest, credits := if held then y.credits else y.credits + 1 }).modStream
            f.core f.h fun y => { y with movedAt := s.now }
        match t.kind with
        | .data => (left s).modFold x.fold fun f => { f with pend := f.pend ++ [(t.seq, t.payload, t.poison)] }
        | .scale => (left s).modFold x.fold fun f => { f with flags := f.flags ||| fNv }
        | .abort => left s
        | _ =>
          let s := s.findEntry x.fold f
          let u := s.foldCommit x.fold ((s.folds[x.fold]?).getD f)
          -- the token leaves with the commit it makes
          if (u.folds[x.fold]?).map (·.rounds) = some (f.rounds + 1) then left u else u
    | _, _ => s

/-- The elements of the members of a station, in table order (R247). -/
def State.stationMembers (s : State) (r : FoldRec) : List (Option Nat) :=
  (List.range r.members.length).map fun m => s.folds.findIdx? fun f => f.rec_.sameStation r && f.member = some m

/-- The entry whose stream receives the results of a station: the first one that hosts shards (log 30). -/
def FoldRec.receiver (r : FoldRec) : Nat := r.members.findIdx (·.2 ≠ 0)

/-- Every member's partials of the next block have arrived (R247). -/
def State.stationFull (s : State) (r : FoldRec) : Bool :=
  (s.stationMembers r).zipIdx.all fun q => match q.1.bind fun j => s.folds[j]? with
    | some g => g.need ≤ g.parts.length
    | none => (r.members.getD q.2 (0, 0)).2 = 0

/-- STATION_FOLD (R247): all S partials of a block have arrived, and the result goes out. The spec names no stream whose
pattern receives it: the model takes that of the first entry that hosts shards (log 30). -/
def State.stationFold (s : State) (i : Nat) : State :=
  match s.folds[i]? with
  | none => s
  | some f =>
    let r := f.rec_
    let ms := s.stationMembers r
    match s.foldStream f with
    | none => s
    | some (a, run) =>
      if !r.station || !s.stationFull r || f.member ≠ some r.receiver || !f.outs.isEmpty ||
          ((s.core f.core).fab.ags[a].page).isSome then s
      else
        let ps := (ms.map fun q => match q.bind fun j => s.folds[j]? with
          | some g => g.parts.take g.need
          | none => []).flatten
        let (v, fl) := foldShards r.integer r.blk r.shards (List.replicate r.blk 0) ps
        let took (t : State) (keep : Flags) : State := ms.foldl (fun t q => match q with
          | some j =>
            let n := ((t.folds[j]?).map Fold.need).getD 0
            (t.modFold j fun g => { g with parts := g.parts.drop n, flags := if j = i then keep else g.flags }).modCrossing j 0
              fun x => { x with credits := x.credits + n }
          | none => t) t
        match s.legsToSink f with
        | [] =>
          match s.foldWrite f v with
          | .error e => s.agStop f.core a run e
          | .ok (t, dropped, fo) =>
            ((took t 0).modFold i fun g => { g with pos := g.pos + r.blk }).foldDone f a run (fl ||| fo) r.blk dropped
        | ports => (took s f.flags).sendBlock i ports none v fl

/-- STATION_FOLD. -/
def execStationFold (i : Nat) (s : State) : Out := .next (if s.shut then s else s.stationFold i)

/-! ### AG_STREAM_ACCESS and TOKEN_HOP -/

/-- AG_STREAM_ACCESS: the next access or token of AG site `a` (R311, R333). -/
def State.agAccess (s : State) (c : CoreId) (a : Fin 8) : State :=
  let k := s.core c
  match k.agRun a with
  | none => s
  | some (run, g) =>
    if !k.agMoves run || k.fab.ags[a].page.isSome then s
    else match run with
      | .frame _ p =>
        if g.sends then s.agSource c a run p g
        else if g.weir && k.fab.ags[a].inReg.isNone then s.agFromWeir c a run
        else s.agSink c a run g
      | .stream h _ =>
        let s := s.joinItems c h
        match (s.pump c).handle h with
        | none => s
        | some x =>
          match x.stream with
          | none => s
          | some t =>
            match t.kind, t.fold with
            | .input, _ => s.ringIn c a run h x t g
            | .take, _ => s.ringTake c a run h x t
            | .feed, _ => s.ringFeed c a run h x t g
            | .output, some r => s.ringFold c a run h x t r
            | .output, none => s.ringOut c a run h x t g

/-- AG_STREAM_ACCESS. -/
def execAgStreamAccess (c : CoreId) (ag : Fin 8) (s : State) : Out :=
  .next (if s.shut then s else s.after c (s.agAccess c ag))

/-- TOKEN_HOP (R363, R364, R366). -/
def execTokenHop (c : CoreId) (hop : Hop) (s : State) : Out :=
  match hop with
  | .link site dir => .next (s.fabEvent c fun k => k.hopLink site (dirNum dir) s.now)
  | .out site port => .next (s.fabEvent c fun k => k.hopOut site (dirNum port) s.now)
  | .crossing i => .next (if s.shut then s else s.hopCrossing i)

end Sys2Proof.Machine
end

