-- ==== Sys2Proof/Machine/Weirs.lean ====
section
/-! DEFINITION. The Weir: evaluation of its active graph (R204 to R209, R226 to R230), and `gld`, `gsw`, `grel`, `gq`
(R89, R90, R212 to R224, R409). -/

namespace Sys2Proof.Machine

open Sys2Proof

/-! ### Node words (R89) -/

/-- The fields of a node word. -/
structure NodeWord where
  op : Nat
  w : Nat
  neg : Bool
  sa : Nat
  sb : Nat
  a : Nat
  b : Nat
  zero : Nat
  deriving DecidableEq, Repr

/-- A node word by its fields. -/
def NodeWord.of (v : Word) : NodeWord :=
  let q (lo n : Nat) : Nat := (v.extractLsb' lo n).toNat
  { op := q 60 4, w := q 54 6, neg := q 53 1 = 1, sa := q 48 5, sb := q 43 5, a := q 28 15, b := q 13 15, zero := q 0 13 }

/-! ### Evaluation (R204 to R208) -/

/-- floor(log2 |x|) of a non-zero finite value. -/
def Num.exponent : Num → Option Int
  | .fin _ m e => if m = 0 then none else some ((bitLen m : Int) - 1 + e)
  | _ => none

/-- E_b of a block (R205). -/
def blockExponent (xs : List Num) : Int :=
  (xs.filterMap Num.exponent).foldl (fun (a : Option Int) e => match a with
    | none => some e
    | some b => some (max b e)) none |>.getD 0

/-- q of one lane: RNE(x · 2^(14 − E)), and whether it was inexact (R205). -/
def alignLane (E : Int) : Num → Int × Bool
  | .fin neg m e =>
    let sh := e + 14 - E
    if 0 ≤ sh then (signInt neg (m * 2 ^ sh.toNat), false)
    else
      let d := 2 ^ (-sh).toNat
      (rneRat (signInt neg m) d, m % d ≠ 0)
  | _ => (0, false)

/-- ALIGN of every block of a vector (R205): the integers, the exponents, whether any lane was inexact. -/
def alignVector (xs : List Num) : List Int × List Int × Bool :=
  let r := (chunks 32 xs).map fun b =>
    let E := blockExponent b
    (b.map (alignLane E), E)
  let q := (r.map (·.1)).flatten
  (q.map (·.1), r.map (·.2), q.any (·.2))

/-- The value of a node from those before it (R89, R207). -/
def nodeValue (slot : Nat → Int) (vals : Array Int) (n : NodeWord) : Int :=
  let a := vals.getD n.a 0
  let b := vals.getD n.b 0
  match n.op with
  | 1 => slot n.a
  | 2 => a + b
  | 3 => a - b
  | 4 => if n.neg then a * 2 ^ n.sa - b * 2 ^ n.sb else a * 2 ^ n.sa + b * 2 ^ n.sb
  | _ => a

/-- The block of a node (R213). -/
def nodeBlock (slot : Nat → Nat) (blks : Array Nat) (n : NodeWord) : Nat := if n.op = 1 then slot n.a else blks.getD n.a 0

/-- Values of all nodes, and the blocks. -/
def Graph.run (g : Graph) (q : List Int) : Array Int × Array Nat :=
  let qs := q.toArray
  let im := g.inMap.toArray
  (g.nodes.map NodeWord.of).foldl (fun acc n =>
    (acc.1.push (nodeValue (fun k => qs.getD (im.getD k 0).toNat 0) acc.1 n),
     acc.2.push (nodeBlock (fun k => (im.getD k 0).toNat / 32) acc.2 n))) (#[], #[])

/-- An exact sum of terms V · 2^e as sign, integer and exponent. -/
def sumTerms (ts : List (Int × Int)) : Int × Int :=
  let lo := ts.foldl (fun (a : Int) t => min a t.2) 0
  (ts.foldl (fun (a : Int) t => a + t.1 * 2 ^ (t.2 - lo).toNat) 0, lo)

/-- RNE to FP32 of the exact sum of an output lane (R208). -/
def outLane (ts : List (Int × Int)) : Nat × Flags :=
  let (v, e) := sumTerms ts
  if v = 0 then (0, 0) else (Num.fin (v < 0) v.natAbs e).round f32 false

/-- One vector through a graph (R204 to R208): output codes and flags. -/
def Graph.evaluate (g : Graph) (lanes : List Num) : List Nat × Flags :=
  if lanes.any fun v => match v with
    | .fin _ _ _ => false
    | _ => true then (List.replicate g.nout 0x7FC0_0000, fNv)
  else
    let (q, es, inexact) := alignVector lanes
    let exps := es.toArray
    let (vals, blks) := g.run q
    let om := g.outMap.toArray
    -- each output slot's wout, as lane and exact term
    let terms := (g.nodes.zipIdx.filterMap fun p =>
      let n := NodeWord.of p.1
      if n.op = 5 then
        let e := om.getD n.b 0
        some ((e.extractLsb' 0 12).toNat,
          (vals.getD p.2 0, exps.getD (blks.getD p.2 0) 0 - 14 + (e.extractLsb' 20 12).toInt))
      else none)
    let r := (List.range g.nout).map fun l => outLane ((terms.filter fun t => t.1 = l).map (·.2))
    (r.map (·.1), orFlags (r.map (·.2)) ||| flagIf inexact fNx)

/-- The lanes of a vector from its tokens, step by step in feeder order (R226); missing ones are +0 (R227). -/
def Graph.vector (g : Graph) (toks : List Frame) : List Num :=
  let ns := g.feeders.length
  let lanesOf (k : Nat) : List Num :=
    ((List.range (g.nl / (16 * ns))).map fun j =>
      let p := toks.getD (j * ns + k) 0
      (List.range 16).map fun i => Num.ofCode bf16 (bits p (16 * i) 16)).flatten
  ((List.range ns).map lanesOf).flatten

/-! ### The Weir at work (R217, R218, R226 to R230) -/

/-- The active context is at rest (R218). -/
def Weir.atRest (w : Weir) : Bool :=
  w.graph.isNone || (w.openVec.isEmpty && w.outq.isEmpty && (!w.received || w.ended))

/-- The other context. -/
def Weir.shadow (w : Weir) : Fin 2 := Fin.ofNat 2 (w.active.val + 1)

/-- At rest a pending swap takes effect, and then a pending release of the context that was active (R222, R223). -/
def Weir.settle (w : Weir) : Weir :=
  if !w.atRest || !(w.swap || w.release) then w
  else
    let was := w.active
    let w := { w with received := false, ended := false }
    let w := if w.swap then { w with active := w.shadow, swap := false } else w
    if w.release then { w with ctx := setAt w.ctx was none, release := false } else w

/-- A Weir settles: what waited for its rest takes effect, and a replay never goes back behind that. -/
def State.settleWeir (s : State) (q : Fin 64) : State :=
  let w := s.weirs[q]
  if w.atRest && (w.swap || w.release) then (s.modWeir q Weir.settle).cutQuad q else s

/-- Output tokens with their seq (R175, R227). -/
def Weir.send (w : Weir) (t : Token) : Weir :=
  match t.kind with
  | .data => { w with outq := w.outq ++ [{ t with seq := w.outSeq }], outSeq := w.outSeq + 1 }
  | .mark => { w with outq := w.outq ++ [{ t with seq := w.outSeq }], outSeq := 0 }
  | _ => { w with outq := w.outq ++ [t], outSeq := 0 }

/-- The open vector evaluated and its outputs queued (R204, R228): a firing of the Weir (R395). -/
def Weir.emitVector (w : Weir) (g : Graph) (now : Nat) : Weir :=
  let (v, fl) := g.evaluate (g.vector w.openVec)
  let toks := (chunks 8 v).map fun c => dataTok (packFrame 32 c) 0 w.poisoned
  let w := toks.foldl Weir.send w
  { w with openVec := [], pendFlags := w.pendFlags ||| fl, stall := w.stall.fire now }

/-- The round commits: flags become sticky in the Weir and in the region of the output AG (R209). -/
def State.weirCommit (s : State) (q : Fin 64) (g : Graph) (c : CoreId) (r : Fin 8) (w : Weir) (t : Token) : State :=
  if w.poisoned then s.modCore c fun k => k.fabFault 0x21 r (siteId 5 0)
  else
    let w' := { w.send t with flags := w.flags ||| w.pendFlags, pendFlags := 0, poisoned := false, commits := w.commits + 1,
                               stall := w.stall.fire s.now false,
                               inReg := g.feeders.foldl (fun v i => setAt v i none) w.inReg }
    (s.modWeir q fun _ => w').modCore c fun k =>
      (if c = coreOf q g.ocore.val && k.weirSink = some r then k.sticky r w.pendFlags else k).progress r s.now

/-- One step of a Weir (R226, R227): a token of every feeding stream is read; a complete vector is evaluated. -/
def State.weirStep (s : State) (q : Fin 64) : State :=
  let s := s.settleWeir q
  let w := s.weirs[q]
  match w.graph with
  | none => s
  | some g =>
    match s.weirHome q g with
    | none => s
    | some (c, r) =>
    let rg := (s.core c).fab.regions[r]
    let scale := (fins 4).filter fun i => match w.inReg[i] with
      | some t => t.kind = .scale
      | none => false
    if !rg.moves || !w.outq.isEmpty then s
    else if !scale.isEmpty then
      s.modWeir q fun w =>
        { w with inReg := scale.foldl (fun v i => setAt v i none) w.inReg, pendFlags := w.pendFlags ||| fNv,
                 received := true, stall := w.stall.fire s.now false }
    else if (fins 4).any fun i => !g.feeders.contains i && (w.inReg[i]).isSome then
      s.modCore c fun k => k.fabFault 0x11 r (siteId 5 0)
    else match headsOf w.inReg g.feeders with
      | .error _ => s
      | .ok ts =>
        if !oneClass ts then s.modCore c fun k => k.fabFault 0x11 r (siteId 5 0)
        else match (ts.headD (plainTok .mark)).kind with
          | .data =>
            let w := { w with
              openVec := w.openVec ++ ts.map (·.payload)
              received := true
              stall := w.stall.fire s.now false
              poisoned := w.poisoned || ts.any (·.poison)
              inReg := g.feeders.foldl (fun v i => setAt v i none) w.inReg }
            let w := if g.nl / 16 ≤ w.openVec.length then w.emitVector g s.now else w
            (s.modWeir q fun _ => w).modCore c fun k => k.progress r s.now
          | .mark => s.weirCommit q g c r { w with received := true } (plainTok .mark)
          | .stop lv =>
            let w := if w.openVec.isEmpty then w else w.emitVector g s.now
            s.weirCommit q g c r { w with received := true } (plainTok (.stop lv))
          | .scale => s
          | .abort => s

/-- WEIR_VECTOR (R208). -/
def execWeirVector (q : Fin 64) (s : State) : Out := .next (if s.shut then s else s.after (coreOf q 0) (s.weirStep q))

/-- WEIR_REST_SWAP (R222, R223). -/
def execWeirRestSwap (q : Fin 64) (s : State) : Out := .next (s.settleWeir q)

/-! ### The graph instructions (R219 to R224, R409) -/

/-- The checks of all four: a part without Weirs (R73), a group that does not hold the quad (R409). -/
def State.weirMine (s : State) (c : CoreId) (i : Instr) : Except Stop Unit := do
  if !s.part.hasWeir then throw (fault 0x12 (encode i))
  if !((List.range 4).all fun j => (s.launch c).group.contains (coreOf (weirOf c) j)) then throw (fault 0x04 0)

/-- Nodes of the active context. -/
def Weir.activeNodes (w : Weir) : Nat :=
  match w.graph with
  | some g => g.nodes.length
  | none => 0

/-- What `gq` answers (R220). -/
def Weir.freeNodes (w : Weir) : Nat := if (w.ctx[w.shadow]).isSome then 0 else 32768 - w.activeNodes

/-- `gq` (R220). -/
def execGq (d : Reg) (s : State) : Out :=
  s.outcome s.cur (.gq d) do
    s.weirMine s.cur (.gq d)
    let t := s.settleWeir (weirOf s.cur)
    return t.giveResult s.cur d (BitVec.ofNat 64 (t.weirs[weirOf s.cur]).freeNodes)

/-- `gsw` (R222). -/
def execGsw (s : State) : Out :=
  s.outcome s.cur .gsw do
    s.weirMine s.cur .gsw
    let q := weirOf s.cur
    let t := ((s.settleWeir q).modWeir q fun w =>
      if (w.ctx[w.shadow]).isNone || w.swap then w else { w with swap := true }).settleWeir q
    return t.goOn s.cur

/-- `grel` (R223). -/
def execGrel (ctx : BitVec 1) (s : State) : Out :=
  s.outcome s.cur (.grel ctx) do
    s.weirMine s.cur (.grel ctx)
    let q := weirOf s.cur
    let t := ((s.settleWeir q).modWeir q fun w =>
      let i : Fin 2 := ctx.toFin
      if (w.ctx[i]).isNone then w
      else if i = w.active then { w with release := true }
      else { w with ctx := setAt w.ctx i none, swap := false }).settleWeir q
    return t.goOn s.cur

/-! ### gld (R90, R212 to R215, R221) -/

/-- The header breaks R212 (check 1 of R215). -/
def graphHeaderBad (bs : List Byte) : Bool :=
  let f (o n : Nat) : Nat := fieldAt bs o n
  let n := f 8 4
  let ni := f 0xC 2
  let ne := f 0xE 2
  let nl := f 0x10 2
  let nout := f 0x12 2
  let ins := f 0x14 1
  let ns := (List.range 4).countP fun i => ins / 2 ^ i % 2 = 1
  f 0 4 ≠ 0x5752_4A58 || f 4 2 ≠ 0x0300 || f 6 2 ≠ 0 || n = 0 || 32768 < n || ni = 0 || 8192 < ni || nl < ni ||
    ne = 0 || 16384 < ne || nl = 0 || 8192 < nl || nl % 32 ≠ 0 || nout = 0 || 4096 < nout || nout % 8 ≠ 0 ||
    16 ≤ ins || (ns ≠ 1 && ns ≠ 2 && ns ≠ 4) || 4 ≤ f 0x15 1 || f 0x16 1 = 0 || 7 < f 0x16 1 || f 0x17 1 ≠ 0 ||
    f 0x18 8 % 8 ≠ 0 || f 0x20 8 % 2 ≠ 0 || f 0x28 8 % 4 ≠ 0 || f 0x30 16 ≠ 0 || nl / 16 % ns ≠ 0

/-- What the check of node words has seen: op, width and block of each node, and the output slots named. -/
structure NodeSeen where
  nodes : Array (Nat × Nat × Nat)
  outs : List Nat
  deriving DecidableEq, Repr

/-- The fault of a node word, if it breaks R90 or R213. The spec gives no order of the checks of one word: one that breaks
a check of 0x10 and one of 0x14 raises 0x10 (log 86). -/
def nodeFault (inMap : List (BitVec 16)) (ne : Nat) (sn : NodeSeen) (n : NodeWord) : Option Code :=
  let i := sn.nodes.size
  let a := sn.nodes.getD n.a (0, 0, 0)
  let b := sn.nodes.getD n.b (0, 0, 0)
  let plain := !n.neg && n.sa = 0 && n.sb = 0
  let opnd (k : Nat) (x : Nat × Nat × Nat) : Bool := k < i && x.1 ≠ 5
  match n.op with
  | 1 =>
    if n.zero ≠ 0 || !plain || n.b ≠ 0 || inMap.length ≤ n.a then some 0x10
    else if n.w ≠ 16 then some 0x14 else none
  | 5 =>
    if n.zero ≠ 0 || !plain || n.w ≠ 0 || !opnd n.a a || ne ≤ n.b || sn.outs.contains n.b then some 0x10 else none
  | 2 | 3 | 4 =>
    if n.zero ≠ 0 || (n.op ≠ 4 && !plain) || !opnd n.a a || !opnd n.b b || a.2.2 ≠ b.2.2 then some 0x10
    else if n.w = 0 || 48 < n.w || n.w < max (a.2.1 + n.sa) (b.2.1 + n.sb) + 1 then some 0x14 else none
  | _ => some 0x10

/-- The first failing node word: its index and code. -/
def nodesFault (inMap : List (BitVec 16)) (ne : Nat) : List Word → NodeSeen → Except (Nat × Code) NodeSeen
  | [], sn => .ok sn
  | v :: r, sn =>
    let n := NodeWord.of v
    match nodeFault inMap ne sn n with
    | some code => .error (sn.nodes.size, code)
    | none =>
      let blk := if n.op = 1 then (inMap.getD n.a 0).toNat / 32 else (sn.nodes.getD n.a (0, 0, 0)).2.2
      nodesFault inMap ne r
        { nodes := sn.nodes.push (n.op, n.w, blk), outs := if n.op = 5 then n.b :: sn.outs else sn.outs }

/-- The first entry of a graph that breaks R215, in its order: the part it lies in (0 nodes, 1 input map, 2 output map),
its index there and the code. -/
def Graph.fault (g : Graph) : Option (Nat × Nat × Code) :=
  match g.inMap.findIdx? (fun l => g.nl ≤ l.toNat) with
  | some i => some (1, i, 0x10)
  | none =>
    match g.outMap.findIdx? (fun e => (e.extractLsb' 12 8).toNat ≠ 0 || g.nout ≤ (e.extractLsb' 0 12).toNat) with
    | some i => some (2, i, 0x10)
    | none =>
      match nodesFault g.inMap g.outMap.length g.nodes { nodes := #[], outs := [] } with
      | .error (i, code) => some (0, i, code)
      | .ok sn => ((List.range g.outMap.length).find? (fun e => !sn.outs.contains e)).map fun e => (2, e, 0x10)

/-- The graph of a header and the bytes of its nodes and maps. -/
def Graph.of (h nd im om : List Byte) : Graph :=
  let f (o n : Nat) : Nat := fieldAt h o n
  { header := h
    nodes := (chunks 8 nd).map leWord
    inMap := (chunks 2 im).map fun b => BitVec.ofNat 16 (leNat b)
    outMap := (chunks 4 om).map fun b => BitVec.ofNat 32 (leNat b)
    nl := f 0x10 2
    nout := f 0x12 2
    ins := BitVec.ofNat 4 (f 0x14 1)
    ocore := Fin.ofNat 4 (f 0x15 1)
    lvl := BitVec.ofNat 3 (f 0x16 1) }

/-- Bytes of the node list, the input map and the output map that a header gives. -/
def graphSizes (h : List Byte) : Nat × Nat × Nat := (8 * fieldAt h 8 4, 2 * fieldAt h 0xC 2, 4 * fieldAt h 0xE 2)

/-- A read of `n` bytes of an image as relaxed loads of the 8-byte words that hold them (R233). A fault of the first
word is one at the first byte that is read (R221). -/
def State.loadImage (s : State) (c : CoreId) (a : Word) (n : Nat) : Except Stop (List Byte) := do
  let lo := a.toNat / 8 * 8
  let skip := a.toNat - lo
  match s.loadWords c (BitVec.ofNat 64 lo) ((skip + n + 7) / 8) with
  | .error (.page va access) => throw (.page (if va.ult a then a else va) access)
  | .error (.trap cause after) =>
    throw (.trap (if cause.code = 0x04 && cause.tval.ult a then { cause with tval := a } else cause) after)
  | .error e => throw e
  | .ok ws => return (ws.drop skip).take n

/-- `gld`: the whole read phase with its checks, then the write phase (R215, R221). The spec does not order the fault of a
group that lacks the quad (R409) and that of a misaligned `a`: the former comes first here (log 86). -/
def State.gldTry (s : State) (c : CoreId) (a : Reg) : Except Stop State := do
  s.weirMine c (.gld a)
  let v := (s.pump c).read a
  if v.toNat % 64 ≠ 0 then throw (fault 0x02 v)
  let h ← s.loadWords c v 8
  if graphHeaderBad h then throw (fault 0x10 0)
  let f (o : Nat) : Nat := fieldAt h o 8
  let (nd, im, om) := graphSizes h
  let im ← s.loadImage c (v + BitVec.ofNat 64 (f 0x20)) im
  let om ← s.loadImage c (v + BitVec.ofNat 64 (f 0x28)) om
  let nd ← s.loadImage c (v + BitVec.ofNat 64 (f 0x18)) nd
  let g := Graph.of h nd im om
  match g.fault with
  | some (0, i, code) => throw (fault code (BitVec.ofNat 64 (f 0x18 + 8 * i)))
  | some (1, i, code) => throw (fault code (BitVec.ofNat 64 (f 0x20 + 2 * i)))
  | some (_, i, code) => throw (fault code (BitVec.ofNat 64 (f 0x28 + 4 * i)))
  | none => pure ()
  let n := g.nodes.length
  let t := s.settleWeir (weirOf c)
  let w := t.weirs[weirOf c]
  if w.freeNodes < n then throw (fault 0x13 (BitVec.ofNat 64 (n * 2 ^ 16 + w.freeNodes)))
  let t := t.modWeir (weirOf c) fun w => { w with ctx := setAt w.ctx w.shadow (some g) }
  return (t.modPump c fun p => { p with stallWhy := 7 }).goOn c

/-- `gld` (R221). -/
def execGld (a : Reg) (s : State) : Out := s.outcome s.cur (.gld a) (s.gldTry s.cur a)

end Sys2Proof.Machine
end

