-- ==== Sys2Proof/Machine/Sluices.lean ====
section
/-! DEFINITION. SLUICE_LINE: a line of a stream passes its context (R350 to R355). -/

namespace Sys2Proof.Machine

open Sys2Proof

/-- A job leaves the list. -/
def State.dropJob (s : State) (i : Nat) : State := { s with jobs := s.jobs.eraseIdx i }

/-- The kept tokens of a read line enter the AG's later stages one by one (R347, R354): `out` is what the context made
of the line, and each entry names a pattern index, the address and the poison of its index token (R336). -/
def State.sluiceRead (s : State) (c : CoreId) (a : Fin 8) (run : AgRun) (g : AgCfg) (out : List (Frame × Bool)) :
    List (Nat × Nat × Bool) → Except AgStop State
  | [] => .ok s
  | (n, va, idxBad) :: r => do
    let (p, bad) := out.getD (va % 256 / 32) (0, false)
    let x := (s.core c).fab.ags[a]
    let (t, x', d) ← s.tokenInto c g x (some (BitVec.ofNat 64 va)) p bad idxBad
    let (d, ends) := g.after n d
    let t := (t.agStep c a run fun _ => { x'.setRounds d with ended := x'.ended || ends }).agSticky c d.done run
    State.sluiceRead t c a run g out r

/-- SLUICE_LINE (R354): the oldest line of its stream passes the context. A committed line passes also when its region
has turned stray meanwhile (R449, R485). -/
def State.sluiceLine (s : State) (i : Nat) : State :=
  match s.jobs[i]? with
  | none => s
  | some j =>
    let k := s.core j.core
    match k.agRun j.ag, s.sluice[j.ctx] with
    | none, _ => s.dropJob i
    | some _, none => s
    | some (run, g), some x =>
      let later := (s.jobs.take i).any fun o => o.core = j.core && o.ag = j.ag
      if later || (!j.write && !k.agMoves run) || k.fab.ags[j.ag].page.isSome then s
      else if j.write then
        match (s.dropJob i).passWrite j run (g.int ≠ 0) x with
        | (t, none) =>
          let t := t.touch j.core run
          if (t.core j.core).fab.ags[j.ag].finished then t.tellDropped j.core j.ag run else t
        | (_, some code) => s.agFault j.core j.ag code (siteId 4 j.ag.val) run
      else
        let res := sluicePass x.frames (j.tokens.map (·.2))
        match res.fault with
        | some code => s.agFault j.core j.ag code (siteId 4 j.ag.val) run
        | none =>
          match s.sluiceRead j.core j.ag run g res.tokens j.index with
          | .error e => s.agStop j.core j.ag run e
          | .ok t => ((t.agSticky j.core res.flags run).touch j.core run).dropJob i

/-- SLUICE_LINE. -/
def execSluiceLine (i : Nat) (s : State) : Out := .next (if s.shut then s else s.sluiceLine i)

end Sys2Proof.Machine
end

