-- ==== Sys2Proof/Machine/FrameChecks.lean ====
section
/-! DEFINITION. What the loader checks of a configuration block (R78 to R88, R172, R179 to R202, R225, R330 to R351,
R365, R370 to R385, R408, R425, R469). A check answers the failing frames by their index in the block, with the code. -/

namespace Sys2Proof.Machine

open Sys2Proof

/-- A failing frame and the code of its fault. -/
abbrev Fail := Nat × Code

/-- The first failing frame (R88). -/
def firstFail (fs : List Fail) : Option Fail :=
  fs.foldl (fun m f => match m with
    | none => some f
    | some g => some (if f.1 < g.1 then f else g)) none

/-! ### Geometry -/

/-- What stands at the other end of a link, in a polder or in a sluice array: there the controller's input stands
before the W link of site 0.0 and its output behind the E link of site 0.3 (R84, R350). -/
def farIn (sl : Bool) (i : Fin 64) (d : Fin 4) : FarEnd :=
  if !sl then farEnd i d
  else match farEnd i d with
    | .site j => if j.val / 8 < 4 && j.val % 8 < 4 then .site j else if i = 3 && d = 1 then .ag 0 else .nothing
    | .mem _ => if i = 0 then .mem 0 else .nothing
    | .ag _ => .nothing
    | .nothing => .nothing

/-- What stands at the other end of an incoming link: nothing sends into the E link of site 0.3 of a sluice array. -/
def farSource (sl : Bool) (i : Fin 64) (d : Fin 4) : FarEnd := if sl && i = 3 && d = 1 then .nothing else farIn sl i d

/-! ### Fields of one frame -/

/-- Open formats as codes (R71). -/
def openCode (n : Nat) : Bool := n = 3 || n = 4 || n = 5

/-- The float formats O16 and O32 as codes. -/
def floatCode (n : Nat) : Bool := n = 3 || n = 4

/-- The coded formats as codes. -/
def codedCode (n : Nat) : Bool := n = 1 || n = 2

/-- Lanes of a token by the format code. -/
def lanesOf (n : Nat) : Nat :=
  match n with
  | 1 => 64
  | 2 => 32
  | 3 => 16
  | _ => 8

/-- Bytes of an atom by the format code. -/
def atomBytes (n : Nat) : Nat :=
  match fmtOf n with
  | some f => f.bytes
  | none => 32

/-- Atoms of a token by the format code. -/
def atomsOfCode (n : Nat) : Nat := 32 / atomBytes n

/-- The highest mode code of a kind (R82), none for a reserved kind. -/
def lastMode (kind : Nat) : Option Nat :=
  match kind with
  | 1 => some 5
  | 2 => some 4
  | 3 => some 3
  | 4 => some 3
  | 5 => some 3
  | 6 => some 1
  | 7 => some 1
  | 8 => some 2
  | 9 => some 1
  | 10 => some 1
  | 11 => some 0
  | 12 => some 1
  | _ => none

/-- The formats of a Dot mode (R180). -/
def dotFormats (mode fa fb : Nat) : Bool :=
  match mode with
  | 0 => fa = 1 && floatCode fb
  | 1 => fa = 2 && floatCode fb
  | 2 => codedCode fa && codedCode fb
  | 3 => floatCode fa && floatCode fb
  | 4 => fa = 1 && floatCode fb
  | _ => (fa = 1 || fa = 2 || fa = 4) && fb = 4

/-- Rows of a Dot's block (R179). -/
def CompCfg.rowsN (k : CompCfg) : Nat := 8 * (k.param 170 2 + 1)

/-- Atoms of a row: nr/4 in `dot.rec` (R179, R186). -/
def CompCfg.colsN (k : CompCfg) : Nat := if k.mode = 5 then k.rowsN / 4 else 8 * (k.param 164 6 + 1)

/-- A port field of a param table: a code 1 to 4, as a port. -/
def portCode? (n : Nat) : Option (Fin 4) := if 1 ≤ n && n ≤ 4 then some (Fin.ofNat 4 (n - 1)) else none

/-- Parameters, steps, formats and outputs of a Dot (R179, R180, R186). -/
def CompCfg.dotOk (k : CompCfg) : Bool :=
  let wp := k.param 161 3
  let xp := k.param 158 3
  let ap := k.param 155 3
  let ports := if ap = 0 then [wp, xp] else [wp, xp, ap]
  let sw := k.param 150 2
  let sx := k.param 148 2
  let okPorts := (ports.all fun n => 1 ≤ n && n ≤ 4) && (ports.dedup.length = ports.length)
  okPorts && k.order = (ports.filterMap portCode?) && 1 ≤ k.param 152 3 && sw < 3 && sx < 3 && k.param 0 148 = 0 &&
    dotFormats k.mode k.fmtA k.fmtB && k.fmtO = 4 && k.outA ≠ 0 && (sw = 0 || k.fmtA = 1) && (sx = 0 || k.fmtB = 1) &&
    (if k.mode = 5 then k.param 164 6 = 0 && ap ≠ 0 && k.outB ≠ 0 else k.outB = 0) &&
    k.rowsN * k.colsN * atomBytes k.fmtA ≤ 16384

/-- Only out_a is written. -/
def CompCfg.oneOut (k : CompCfg) : Bool := k.outA ≠ 0 && k.outB = 0

/-- The same of a Sum (R187). -/
def CompCfg.sumOk (k : CompCfg) : Bool :=
  openCode k.fmtA && openCode k.fmtO && k.fmtB = 0 && k.oneOut && k.param 0 163 = 0 &&
    (if k.mode = 4 then 2 ≤ k.order.length && k.order.length ≤ 4 && k.param 166 6 = 0 && k.param 163 3 = 0
     else 1 ≤ k.order.length && k.order.length ≤ 4 && 1 ≤ k.param 163 3 &&
       k.sumWidth * lanesOf k.fmtA % lanesOf k.fmtO = 0)

/-- The same of a Map (R192, R193, R195). -/
def CompCfg.mapOk (k : CompCfg) : Bool :=
  let fn := k.param 156 16
  let cond := k.param 154 2
  let dist := k.param 152 2
  let n := k.order.length
  k.oneOut && k.param 0 88 = 0 &&
    (if k.mode = 3 then
       n = 1 && fn = 0 && cond = 0 && k.fmtA = 0 && k.fmtB = 0 &&
         ((dist = 0 && floatCode k.fmtO) || (dist = 1 && k.fmtO = 5))
     else
       dist = 0 && 1 ≤ k.fmtA && k.fmtO = k.fmtA && (k.fmtB = 0 || k.fmtB = k.fmtA) &&
         (match k.mode with
          | 0 => n = 1 && 1 ≤ fn && fn ≤ 8 && cond = 0
          | 1 => n ≤ 3 && fn = 0 && cond = 0
          | _ => n ≤ 2 && fn = 0))

/-- The same of a Quant (R196). -/
def CompCfg.quantOk (k : CompCfg) : Bool :=
  floatCode k.fmtA && k.fmtB = 0 && k.outA ≠ 0 && 1 ≤ k.param 169 3 && k.param 0 168 = 0 &&
    ((k.param 168 1 = 1) == (k.outB ≠ 0)) && k.order.length = (if k.mode = 1 then 1 else 2) &&
    k.fmtO = (match k.mode with
      | 0 => 1
      | 1 => 2
      | _ => k.fmtA)

/-- The same of an Expand (R200, R201). -/
def CompCfg.expandOk (k : CompCfg) : Bool :=
  let sc := k.param 170 2
  let grp := k.param 168 2
  k.oneOut && k.fmtB = 0 && k.param 0 168 = 0 &&
    (match k.mode with
     | 0 => k.order.length = 1 && codedCode k.fmtA && floatCode k.fmtO && sc < 3 && (sc = 0 || k.fmtA = 1) && grp = 0
     | 3 => k.order.length = 1 && openCode k.fmtA && openCode k.fmtO && sc = 0 && grp = 0
     | _ => k.order.length = 2 && k.fmtA = 0 && 1 ≤ k.fmtO && k.fmtO ≤ 4 && sc = 0 && grp < 3)

/-- The same of a Fly (R202). -/
def CompCfg.flyOk (k : CompCfg) : Bool :=
  let n := k.param 169 3
  let sign := k.param 33 128
  1 ≤ n && k.order.length = 1 && floatCode k.fmtA && floatCode k.fmtO && k.fmtB = 0 && k.oneOut && sign < 2 ^ 2 ^ n &&
    (k.mode = 1 || sign = 0) && k.param 0 33 = 0

/-- An optional port field does not name a port of out_a or out_b. -/
def CompCfg.rportApart (k : CompCfg) : Bool :=
  k.param 169 3 ≤ 4 &&
    match k.rport with
    | some d => !(maskDirs k.outA).contains d && !(maskDirs k.outB).contains d
    | none => true

/-- The same of a Steer (R370). -/
def CompCfg.steerOk (k : CompCfg) : Bool :=
  k.order.length = 2 && k.fmtB = 0 && k.fmtO = k.fmtA && k.outA ≠ 0 && k.outB ≠ 0 && k.rportApart && k.param 167 2 < 3 &&
    (if k.mode = 0 then k.param 164 3 = 0 else 1 ≤ k.param 164 3) && k.param 0 132 = 0

/-- The same of a Merge (R71, R374): its arms have a format, since R374 lets only the route and index ports be untyped. -/
def CompCfg.mergeOk (k : CompCfg) : Bool :=
  let n := k.order.length
  1 ≤ k.fmtA && k.fmtA = k.fmtB && k.fmtO = k.fmtA && k.oneOut && k.rportApart && k.param 0 168 = 0 &&
    (match k.mode with
     | 0 => n = 3 && k.param 168 4 = 0
     | 1 => (n = 2 || n = 3) && k.param 169 3 = 0
     | _ => n = 2 && k.param 168 1 = 0)

/-- The same of a Compact (R372). -/
def CompCfg.compactOk (k : CompCfg) : Bool :=
  k.order.length = 2 && k.fmtB = 0 && k.fmtO = k.fmtA && k.outA ≠ 0 && k.rport.isSome && k.rportApart &&
    (if k.mode = 0 then k.param 167 2 = 0 && k.fmtA ≠ 0 else k.param 167 2 < 3) && k.param 0 135 = 0

/-- The same of a Delay (R71, R378 to R380). -/
def CompCfg.delayOk (k : CompCfg) : Bool :=
  1 ≤ k.fmtA && k.fmtO = k.fmtA && k.oneOut && k.param 0 138 = 0 &&
    (if k.mode = 0 then k.order.length = 1 && k.fmtB = 0 && k.param 138 15 = 0
     else k.order.length = 2 && (k.fmtB = 0 || k.fmtB = k.fmtA) && k.param 153 19 = 0 && 1 ≤ k.param 148 3 &&
       (k.param 138 10 + 1) * (k.param 151 2 + 1) ≤ 1024)

/-- The same of a Turn (R71, R381). -/
def CompCfg.turnOk (k : CompCfg) : Bool :=
  1 ≤ k.fmtA && k.order.length = 1 && k.fmtB = 0 && k.fmtO = k.fmtA && k.oneOut && k.param 0 167 = 0

/-- The same of a Join (R382). -/
def CompCfg.joinOk (k : CompCfg) : Bool :=
  k.fmtB = 0 && k.outB = 0 && k.param 0 170 = 0 &&
    (if k.mode = 0 then 2 ≤ k.order.length && k.fmtO = 0 && k.outA ≠ 0 && k.param 170 2 = 0
     else k.order.length = 1 && k.fmtO = k.fmtA && k.param 170 2 < 3)

/-- The rule of the frame's kind (R172). -/
def CompCfg.kindOk (k : CompCfg) : Bool :=
  match k.kind with
  | 1 => k.dotOk
  | 2 => k.sumOk
  | 3 => k.mapOk
  | 4 => k.quantOk
  | 5 => k.expandOk
  | 6 => k.flyOk
  | 7 => k.steerOk
  | 8 => k.mergeOk
  | 9 => k.compactOk
  | 10 => k.delayOk
  | 11 => k.turnOk
  | 12 => k.joinOk
  | _ => false

/-- Kinds allowed in a sluice array (R81, R351). -/
def sluiceKind (k : CompCfg) : Bool :=
  (k.kind = 2 || k.kind = 3 || k.kind = 4 || k.kind = 5 || k.kind = 6 || k.kind = 9 || k.kind = 10 || k.kind = 12) &&
    k.region = 0 && !(k.kind = 4 && k.param 168 1 = 1)

/-- The read order of R81: some step, none after the first end, no reserved code. -/
def orderOk (f : Frame) : Bool :=
  let st := stepsOf f
  let n := (st.takeWhile (· ≠ 0)).length
  n ≠ 0 && (st.drop n).all (· = 0) && st.all (· ≤ 4)

/-- A compute frame keeps R81 and R82 and the rules of its kind. -/
def compFrameOk (sl : Bool) (f : Frame) : Bool :=
  let k := CompCfg.of f
  (match lastMode k.kind with
    | some m => k.mode ≤ m
    | none => false) && bits f 216 5 = 0 && orderOk f &&
    ((maskDirs k.outA).all fun d => !(maskDirs k.outB).contains d) && k.fmtA ≤ 5 && k.fmtB ≤ 5 && k.fmtO ≤ 5 && k.kindOk &&
    (!sl || sluiceKind k)

/-- A memory frame keeps R83, R331 and R332. -/
def memFrameOk (f : Frame) : Bool :=
  let m := MemCfg.of f
  m.mode ≤ 6 && m.op ≤ 3 && (m.mode = 2 || m.op = 0) && m.fmt ≤ 5 && bits f 0 159 = 0 && m.base + m.len ≤ 8192 &&
    ((m.mode = 6) == (m.expect ≠ 0)) && (m.mode ≠ 6 || m.len = 1) &&
    (m.mode ≠ 2 ||
      (match m.op with
       | 0 => m.fmt = 5
       | 1 => m.fmt = 4
       | _ => m.fmt = 4 || m.fmt = 5))

/-- A switch frame keeps the field rules of R84. -/
def switchFrameOk (sl : Bool) (site : Fin 64) (f : Frame) : Bool :=
  bits f 0 188 = 0 && (fins 4).all fun d =>
    let l := lnkSrc f d
    let o := opdSrc f d
    let attached (n : Nat) : Bool := match portCode? n with
      | some e => farSource sl site e ≠ .nothing
      | none => true
    l ≤ 5 && o ≤ 4 && l ≠ d.val + 1 && attached l && attached o && (l ≠ 0 || rgnOf f d = 0) && (!sl || rgnOf f d = 0)

/-- Part 0 of an AG frame keeps R85, and the counter rules of R335 to R337. -/
def agPart0Ok (f : Frame) : Bool :=
  let g := AgCfg.of f 0
  g.mode ≤ 5 && bits f 224 1 = 0 && bits f 168 5 = 0 && bits f 0 8 = 0 && g.counters.all (fun c => c.stride % 32 = 0) &&
    (match g.mode with
     | 2 => (g.counters.drop 1).all fun c => c.stride = 0
     | 3 => g.counters.all fun c => c.bound = 1 && c.stride = 0
     | 4 => g.counters.all fun c => c.bound = 1 && c.stride = 0
     | 5 => g.addr = 0 && g.counters.all fun c => c.stride = 0
     | _ => true)

/-- Part 1 of an AG frame keeps the field rules of R86. -/
def agPart1Ok (f : Frame) : Bool :=
  let g := AgCfg.of 0 f
  let rnd := g.rnd
  16 ≤ rnd && rnd ≤ 1024 && 1 ≤ g.stop && g.int ≤ 6 && g.use2 ≤ 2 && g.fmt ≤ 5 && g.bind ≤ 2 && g.ptr2.toNat % 64 = 0 &&
    (g.use2 ≠ 0 || g.ptr2 = 0) && (g.use2 ≠ 1 || g.int = 0) && (g.use2 ≠ 2 || g.int ≠ 0) &&
    (bits f 150 1 = 1 || bits f 147 3 = 0)

/-- The geometry of an `ag.conv` (R335). -/
def AgCfg.convOk (g : AgCfg) : Bool :=
  let q (lo k : Nat) : Nat := bits g.mparam lo k
  let bound (j : Nat) : Nat := match g.counters[j]? with
    | some c => c.bound
    | none => 1
  let pp := q 40 24
  pp ≠ 0 && pp % 32 = 0 && q 0 40 = 0 && bound 0 * 32 ≤ pp && bound 1 = (q 108 4 + 1) * (q 104 4 + 1) &&
    bound 2 % (q 64 16 + 1) = 0 && (bound 3 = 1 || 2 ≤ g.stop)

/-- The table of `ag.gath` and `ag.scat` (R336). -/
def AgCfg.rowsOk (g : AgCfg) : Bool :=
  bits g.mparam 120 24 ≠ 0 && bits g.mparam 120 24 % 32 = 0 && bits g.mparam 70 2 ≠ 3 && bits g.mparam 0 70 = 0

/-- The tokens of a source's pattern are even in number where C4 comes from INT8 (R348). The counters of an `ag.gath` all
have bound 1, so that the model counts the tokens of a row there (log 69). -/
def AgCfg.evenOk (g : AgCfg) : Bool :=
  !g.sends || g.fmt ≠ 1 || 4 ≤ g.int || (if g.mode = 3 then g.rowTokens else patternLen g.counters) % 2 = 0

/-- The mode parameters of part 1, once both parts are at hand (R225, R334 to R337, R348). -/
def AgCfg.modeOk (g : AgCfg) : Bool :=
  (match g.mode with
   | 2 => g.convOk
   | 3 => g.rowsOk
   | 4 => g.rowsOk
   | 5 => true
   | _ => bits g.mparam 0 144 = 0) &&
  (!g.weir || (g.mode = 0 && g.fmt = 3) || (g.mode = 1 && (g.fmt = 4 || g.fmt = 0))) &&
  (g.int = 0 || ((intRatio g.int g.fmt).isSome && g.evenOk))

/-- The lowest address that the counters of a frame with a tile or records reach (R139). -/
def AgCfg.lowestOk (g : AgCfg) : Bool := g.use2 = 0 || 0 ≤ (reach g.counters).1

/-- The units an AG frame needs stand on the part (R86). -/
def AgCfg.missingUnit (part : Part) (g : AgCfg) : Bool := (g.ctx.isSome && !part.hasSluice) || (g.weir && !part.hasWeir)

/-- The site address of a frame keeps R80. -/
def siteOk (sl : Bool) (f : Frame) : Bool :=
  let n := siteOf f
  match layoutOf f with
  | 1 => if sl then n < 16 else n < 64
  | 2 => n < 8
  | 3 => if sl then n < 16 else n < 64
  | _ => n < 8 || (256 ≤ n && n < 264)

/-- The checks of one frame by itself (R78 to R87). -/
def frameOk (sl : Bool) (plane : Nat) (f : Frame) : Bool :=
  let l := layoutOf f
  planeOf f = plane && siteOk sl f &&
    (match l with
     | 1 => compFrameOk sl f
     | 2 => !sl && memFrameOk f
     | 3 => switchFrameOk sl (Fin.ofNat 64 (if sl then sluiceSite (siteOf f) else siteOf f)) f
     | 4 => !sl && (if siteOf f < 8 then agPart0Ok f else agPart1Ok f)
     | _ => false)

/-- Two frames address one site, part and layout (R88). -/
def sameSlot (f g : Frame) : Bool := layoutOf f = layoutOf g && siteOf f = siteOf g

/-- The index of a frame in its block, by layout and site. -/
def frameIx (fs : List Frame) (layout site : Nat) : Nat :=
  (fs.findIdx? fun f => layoutOf f = layout && siteOf f = site).getD 0

/-- What both parts of an AG frame break together, by its frame (R86, R88, R139, R335 to R337). -/
def agFails (part : Part) (fs : List Frame) : List Fail :=
  ((List.range 8).map fun n =>
    let find (site : Nat) : Option Frame := fs.find? fun f => layoutOf f = 4 && siteOf f = site
    match find n, find (256 + n) with
    | none, none => []
    | some _, none => [(frameIx fs 4 n, (0x10 : Code))]
    | none, some _ => [(frameIx fs 4 (256 + n), 0x10)]
    | some p0, some p1 =>
      let g := AgCfg.of p0 p1
      (if g.lowestOk then [] else [(frameIx fs 4 n, 0x10)]) ++
        (if !g.modeOk then [(frameIx fs 4 (256 + n), 0x10)]
         else if g.missingUnit part then [(frameIx fs 4 (256 + n), 0x12)] else [])).flatten

/-- The first pass: every frame by itself, frames that share a slot, and the two parts of each AG site. -/
def fieldFails (part : Part) (sl : Bool) (plane : Nat) (fs : List Frame) : List Fail :=
  (fs.zipIdx.filterMap fun q =>
    if !frameOk sl plane q.1 || (fs.take q.2).any (sameSlot q.1) then some (q.2, (0x10 : Code)) else none) ++
  (if sl then [] else agFails part fs)

/-! ### Checks across the frames of a plane -/

/-- What a switch of the plane does with an incoming link. -/
def Plane.takes (p : Plane) (i : Fin 64) (d : Fin 4) : Bool :=
  match p.switch? i with
  | some w => (fins 4).any fun e => lnkSrc w e = d.val + 1 || opdSrc w e = d.val + 1
  | none => false

/-- The region of the element that feeds an incoming link, where it has a frame in the plane (R84). -/
def Plane.feedRegion (p : Plane) (sl : Bool) (i : Fin 64) (d : Fin 4) : Option Nat :=
  match farSource sl i d with
  | .site j => (p.switch? j).bind fun w => if lnkSrc w (opposite d) = 0 then none else some (rgnOf w (opposite d))
  | .mem m => if sl then none else (p.mem? m).map fun c => c.region.val
  | .ag a => (p.ag? a).map fun g => g.region.val
  | .nothing => none

/-- A compute frame against its switch (R81, R84, R88, R365). -/
def Plane.compFits (p : Plane) (k : CompCfg) : Bool :=
  match p.switch? k.site with
  | none => false
  | some w => k.order.all (fun q => opdSrc w q ≠ 0) && k.outPorts.all fun d => lnkSrc w d = 5

/-- A switch frame against the rest of the plane (R84, R365, R425). -/
def Plane.switchFits (p : Plane) (sl : Bool) (i : Fin 64) (w : Frame) : Bool :=
  let c := p.comp? i
  let ordered (q : Fin 4) : Bool := match c with
    | some k => k.order.contains q
    | none => false
  (fins 4).all (fun q => opdSrc w q = 0 || ordered q) &&
  (fins 4).all (fun d =>
    let src := lnkSrc w d
    src = 0 ||
      ((if src = 5 then
          (match c with
           | some k => rgnOf w d = k.region.val && k.outPorts.contains d
           | none => false)
        else match (portCode? src).bind (p.feedRegion sl i) with
          | some r => r = rgnOf w d
          | none => true) &&
       (match farIn sl i d with
        | .site j => p.takes j (opposite d)
        | .mem _ => !sl
        | .ag _ => true
        | .nothing => false))) &&
  (sl || i.val % 8 ≠ 7 || p.hasAg (Fin.ofNat 8 (i.val / 8)) ||
    (((fins 4).filter fun d => lnkSrc w d = 2).map (rgnOf w) ++ (if lnkSrc w 1 = 0 then [] else [rgnOf w 1]) ++
      (if (fins 4).any fun q => opdSrc w q = 2 then (c.map fun k => k.region.val).toList else [])).dedup.length ≤ 1)

/-- A second `ag.in` or `ag.out` frame with end = 1 in the plane (R225). -/
def Plane.weirTwice (p : Plane) (fs : List Frame) : List Fail :=
  (fins 8).filterMap fun a =>
    match p.ag? a with
    | some g =>
      let earlier := (fins 8).any fun b => match p.ag? b with
        | some o => o.weir && o.mode = g.mode && frameIx fs 4 (256 + b.val) < frameIx fs 4 (256 + a.val)
        | none => false
      if g.weir && earlier then some (frameIx fs 4 (256 + a.val), (0x10 : Code)) else none
    | none => none

/-! ### Nets: where an output port leads (R46, R364) -/

/-- The buffers a net crosses and the ports, memory and AG sites it ends at. -/
structure Net where
  bufs : List (Fin 64 × Fin 4)
  ends : List Dst
  deriving DecidableEq, Repr

/-- Follow the destinations of a net. -/
def Plane.walkNet (p : Plane) : Nat → List Dst → Net → Net
  | 0, _, n => n
  | _ + 1, [], n => n
  | fuel + 1, .link i d :: r, n =>
    if n.bufs.contains (i, d) || (p.switch? i).isNone then Plane.walkNet p fuel r n
    else Plane.walkNet p fuel (r ++ p.dsts i (d.val + 1)) { n with bufs := n.bufs ++ [(i, d)] }
  | fuel + 1, x :: r, n => Plane.walkNet p fuel r { n with ends := n.ends ++ [x] }

/-- The net of an output port of a site. -/
def Plane.portNet (p : Plane) (i : Fin 64) (d : Fin 4) : Net := p.walkNet 4096 (farDst i d).toList { bufs := [], ends := [] }

/-- The ends of the channels that a destination leads to, each with the capacity of its path: the buffers of the incoming
links that it crosses, and one token in the input register (R364). -/
def Plane.channels (p : Plane) : Nat → List (Fin 64 × Fin 4) → Nat → Dst → List (Dst × Nat)
  | 0, _, _, _ => []
  | fuel + 1, crossed, cap, .link i d =>
    match p.switch? i with
    | none => []
    | some w =>
      if crossed.contains (i, d) then []
      else ((p.dsts i (d.val + 1)).map (Plane.channels p fuel (crossed ++ [(i, d)]) (cap + depOf w d))).flatten
  | _ + 1, _, cap, e => [(e, cap + 1)]

/-- The channels from output ports of a site. -/
def Plane.portChannels (p : Plane) (i : Fin 64) (ds : List (Fin 4)) : List (Dst × Nat) :=
  ((ds.filterMap (farDst i)).map (p.channels 257 [] 0)).flatten

/-- out_b of a sluice site leaves the array (R351). -/
def Plane.leavesArray (p : Plane) (k : CompCfg) : Bool :=
  (maskDirs k.outB).any fun d =>
    (k.site = 3 && d = 1) || (p.portNet k.site d).bufs.any fun q => (p.dsts q.1 (q.2.val + 1)).contains (.link 4 3)

/-- The route from out_b of a `dot.rec` reaches its xport through exactly one site in `dly.rec` mode (R186). -/
def Plane.recFits (p : Plane) (k : CompCfg) : Bool :=
  if k.kind ≠ 1 || k.mode ≠ 5 then true
  else
    let reached := ((maskDirs k.outB).map fun d => (p.portNet k.site d).ends).flatten
    let loops := reached.filter fun e => match e with
      | .opd i q =>
        (match p.comp? i with
         | some d =>
           d.kind = 10 && d.mode = 1 && d.order.head? = some q &&
             (maskDirs d.outA).any fun o => (p.portNet i o).ends.any fun x => match x, k.order[1]? with
               | .opd j y, some xp => j = k.site && y = xp
               | _, _ => false
         | none => false)
      | _ => false
    loops.length = 1

/-! ### Diamonds (R384, R385) -/

/-- A ratio of tokens read to tokens emitted, none where it depends on the data. -/
abbrev Ratio := Option (Nat × Nat)

/-- Hold of a site in tokens (none: unbounded), whether it is record-preserving, and its token ratio (R384, R389). R389 gives
a `dly.rec` no hold: the model takes it as unbounded (log 86). -/
def CompCfg.holdOf (k : CompCfg) : Option Nat × Bool × Ratio :=
  let li := lanesOf k.fmtA
  let lo := lanesOf k.fmtO
  match k.kind with
  | 1 =>
    let per := atomsOfCode k.fmtB
    let h := (k.colsN + per - 1) / per
    (some h, false, some (h * 8, k.rowsN))
  | 2 =>
    if k.mode < 3 then (none, false, none)
    else if li = lo then (some 1, true, some (1, 1))
    else if k.mode = 3 then (none, false, none)
    else (some 1, false, some (lo, li))
  | 3 => (some 1, true, some (1, 1))
  | 4 =>
    if 2 ≤ k.mode then (some 1, true, some (1, 1)) else (some (lo / li), false, some (lo, li))
  | 5 =>
    if k.mode = 3 && li = lo then (some 1, true, some (1, 1))
    else
      let inp := if k.mode = 1 then 32 else if k.mode = 2 then 64 else li
      (some 1, false, some (lo, inp))
  | 6 =>
    let n := 2 ^ k.param 169 3
    if n ≤ li && li = lo then (some 1, true, some (1, 1)) else (some ((n + li - 1) / li), false, some (lo, li))
  | 10 => if k.mode = 0 then (some 1, true, some (1, 1)) else (none, false, none)
  | 11 => (some ((k.param 167 5 + 1) ^ 2), false, some (1, 1))
  | 12 => if k.mode = 1 then (some 1, true, some (1, 1)) else (none, false, none)
  | _ => (none, false, none)

/-- A path of an arm, or all its paths: the elements on it, the ports of the Merge it reaches, its capacity, its hold as a
fraction (none: unbounded), and whether every site on it is record-preserving. -/
structure Arm where
  seen : List Dst
  hit : List (Fin 4)
  cap : Nat
  hold : Option (Nat × Nat)
  keeps : Bool
  deriving DecidableEq, Repr

/-- A hold grown by `h` tokens under a product of ratios. -/
def Arm.grow (a : Arm) (h : Option Nat) (keeps : Bool) (rho : Ratio) : Arm :=
  { a with
    keeps := a.keeps && keeps
    hold := match a.hold, h, rho with
      | some (x, y), some n, some (u, v) => some (x * v + n * u * y, y * v)
      | _, _, _ => none }

/-- The product of two ratios. -/
def mulRatio (a b : Ratio) : Ratio :=
  match a, b with
  | some (x, y), some (u, v) => some (x * u, y * v)
  | _, _ => none

/-- An element on an arm: the path with its hold and its FIFO, its ratio, and the destinations that it sends to. R384 and
R389 give an `ag.gath` no hold: the model takes it as unbounded (log 86). -/
def Plane.armElement (p : Plane) (a : Arm) (rho : Ratio) : Dst → Arm × Ratio × List Dst
  | .opd i _ =>
    match p.comp? i with
    | none => (a, rho, [])
    | some k =>
      let (h, keeps, ratio) := k.holdOf
      let a := a.grow h keeps rho
      let a := if k.kind = 10 && k.mode = 0 then { a with cap := a.cap + k.param 163 9 + 1 } else a
      (a, mulRatio rho ratio, (maskDirs k.outA ++ maskDirs k.outB).filterMap (farDst i))
  | .mem m =>
    match p.mem? m with
    | none => (a, rho, [])
    | some c =>
      if c.mode = 3 then ({ a with cap := a.cap + c.len }.grow (some 1) true rho, rho, [.link (memLink m) 3])
      else if c.mode = 4 then (a.grow (some 1) false rho, rho, [.link (memLink m) 3])
      else (a, rho, [])
  | .ag g =>
    match p.ag? g with
    | none => (a, rho, [])
    | some c => if c.mode = 3 then (a.grow none false rho, none, [.link (agLink g) 1]) else (a, rho, [])
  | .link _ _ => (a, rho, [])

/-- Two destinations are one element. -/
def Dst.same : Dst → Dst → Bool
  | .opd i _, .opd j _ => i = j
  | x, y => x = y

/-- The paths of an arm that reach the Merge: what leads elsewhere is no part of the arm. -/
def Plane.armPaths (p : Plane) (merge : Fin 64) : Nat → Arm → Ratio → List (Dst × Nat) → List Arm
  | 0, _, _, _ => []
  | fuel + 1, a, rho, cs =>
    (cs.map fun c =>
      let a := { a with cap := a.cap + c.2 }
      match c.1 with
      | .opd i q =>
        if i = merge then [{ a with hit := [q] }]
        else if a.seen.any c.1.same then []
        else
          let (b, r, ds) := p.armElement { a with seen := a.seen ++ [c.1] } rho c.1
          Plane.armPaths p merge fuel b r ((ds.map (p.channels 257 [] 0)).flatten)
      | e =>
        if a.seen.any e.same then []
        else
          let (b, r, ds) := p.armElement { a with seen := a.seen ++ [e] } rho e
          Plane.armPaths p merge fuel b r ((ds.map (p.channels 257 [] 0)).flatten)).flatten

/-- The larger of two holds. -/
def maxHold : Option (Nat × Nat) → Option (Nat × Nat) → Option (Nat × Nat)
  | some (x, y), some (u, v) => some (if x * v ≤ u * y then (u, v) else (x, y))
  | _, _ => none

/-- An arm of a splitter. One that forks and meets again holds as much as its largest path, and has the capacity of its
smallest (R384, R385; log 86). -/
def Plane.arm (p : Plane) (i merge : Fin 64) (ports : List (Fin 4)) : Arm :=
  let start : Arm := { seen := [], hit := [], cap := 0, hold := some (0, 1), keeps := true }
  match p.armPaths merge 80 start (some (1, 1)) (p.portChannels i ports) with
  | [] => start
  | x :: r => r.foldl (fun a b =>
      { seen := a.seen ++ b.seen, hit := a.hit ++ b.hit, cap := min a.cap b.cap, hold := maxHold a.hold b.hold,
        keeps := a.keeps && b.keeps }) x

/-- H of an arm rounded up (R384). -/
def Arm.need (a : Arm) : Option Nat := a.hold.map fun q => (q.1 + q.2 - 1) / q.2

/-- Case 5 of R385 for one arm: its declared hold, the other arm if there is one, the route or index channel's records. -/
def Arm.short (a : Arm) (declared : Nat) (other : Option Arm) (records : Nat) : Bool :=
  if a.keeps then false
  else match a.need with
    | none =>
      declared = 0 || records < declared ||
        (match other with
         | some o => o.cap < declared
         | none => false)
    | some n =>
      let h := max n declared
      records < h ||
        (match other with
         | some o => o.cap < h
         | none => false)

/-- A splitter breaks R385. -/
def Plane.diamondBad (p : Plane) (s : CompCfg) : Bool :=
  let compact := s.kind = 9
  match s.rport with
  | none => false
  | some d =>
    if s.kind ≠ 7 && !compact then false
    else
      let merges := (p.portChannels s.site [d]).filterMap fun c => match c.1 with
        | .opd i q =>
          (p.comp? i).bind fun m =>
            if m.kind = 8 && m.mode = (if compact then 1 else 0) && m.region = s.region && m.order.head? = some q then some (m, c.2)
            else none
        | _ => none
      match merges with
      | [] => true
      | (m, cap) :: _ =>
        let a := p.arm s.site m.site (maskDirs s.outA)
        let b := p.arm s.site m.site (maskDirs s.outB)
        let hasB := s.outB ≠ 0
        let step (n : Nat) : List (Fin 4) := (m.order[n]?).toList
        let meet := a.seen.any fun x => b.seen.any x.same
        let records := cap * (if compact then 8 else 248)
        let ha := if compact then s.param 151 16 else s.param 148 16
        let hb := if compact then s.param 135 16 else s.param 132 16
        a.hit.dedup ≠ step 1 || (hasB && (b.hit.dedup ≠ step 2 || meet)) || (hasB && m.order.length < 3) ||
          (compact && !hasB && 3 ≤ m.order.length) || (compact && m.param 168 1 ≠ s.mode) ||
          a.short ha (if hasB then some b else none) records || (hasB && b.short hb (some a) records)

/-! ### The size of the element state (R468, R469) -/

/-- Bytes of the state of a compute site (R468). -/
def CompCfg.stateBytes (k : CompCfg) : Nat :=
  match k.kind with
  | 1 => k.rowsN * k.colsN * atomBytes k.fmtA + k.colsN * atomBytes k.fmtB + 64
  | 2 => if k.mode = 4 then 64 else k.sumWidth * 32 + 64
  | 4 => 128
  | 8 => 128
  | 9 => 128
  | 10 => if k.mode = 0 then (k.param 163 9 + 1) * 32 + 64 else 64
  | 11 => (k.param 167 5 + 1) ^ 2 * 32 + 64
  | _ => 64

/-- The sum of R469 over planes. -/
def stateBytesOf (ps : List Plane) : Nat :=
  let largest (f : Plane → Nat) : Nat := ps.foldl (fun n p => max n (f p)) 0
  ((fins 64).map fun i => largest fun p => match p.comp? i with
    | some k => k.stateBytes
    | none => 0).sum +
  ((fins 8).map fun m => largest fun p => match p.mem? m with
    | some _ => 64
    | none => 0).sum +
  ((fins 8).map fun a => largest fun p => match p.ag? a with
    | some g => 64 + if g.sends then 2 * g.rnd * 32 + 64 else 0
    | none => 0).sum

/-! ### A block -/

/-- The frames of a block as a plane; those of a sluice context at the sites of the model's array. -/
def blockPlane (sl : Bool) (offset : Word) (fs : List Frame) : Plane :=
  { Plane.reset with
    frames := if sl then fs.map fun f => Frame.atSite f (sluiceSite (siteOf f)) else fs
    offset := offset }

/-- The second pass: every frame against the others (R84, R88, R186, R225, R351, R365, R385, R408, R425). -/
def planeFails (sl : Bool) (limit : Nat) (fs : List Frame) : List Fail :=
  let p := blockPlane sl 0 fs
  let comps := (p.frames.zipIdx.filter fun q => layoutOf q.1 = 1).map fun q => (CompCfg.of q.1, q.2)
  (comps.filterMap fun q =>
    if !p.compFits q.1 || !p.recFits q.1 || (sl && p.leavesArray q.1) then some (q.2, (0x10 : Code))
    else if !sl && p.diamondBad q.1 then some (q.2, 0x15) else none) ++
  ((p.frames.zipIdx.filter fun q => layoutOf q.1 = 3).filterMap fun q =>
    if p.switchFits sl (Fin.ofNat 64 (siteOf q.1)) q.1 then none else some (q.2, (0x10 : Code))) ++
  p.weirTwice fs ++
  (if sl then [] else (comps.drop limit).map fun q => (q.2, (0x10 : Code)))

/-- A header breaks R79. -/
def headerBad (h : Frame) : Bool :=
  let kind := bits h 228 4
  layoutOf h ≠ 0 || siteOf h = 0 || (kind ≠ 1 && kind ≠ 2) || bits h 0 228 ≠ 0 ||
    (if kind = 1 then 3 < planeOf h else 7 < planeOf h)

/-- The image offset of frame `i` of a block. -/
def frameOffset (header : Word) (i : Nat) : Word := header + BitVec.ofNat 64 (32 * (i + 1))

/-- The fault of a block and the image offset of its first failing frame, none where the block passes (R88, R322).
`others` are the other planes of the core, `room` the limit of R469, `limit` the sites of R408. -/
def blockFault (part : Part) (l : Load) (limit room : Nat) (others : List Plane) : Option (Code × Word) :=
  let name (f : Fail) : Code × Word := (f.2, frameOffset l.offset f.1)
  if headerBad l.header then some (0x10, l.offset)
  else match firstFail (fieldFails part l.sluice (planeOf l.header) l.frames ++ planeFails l.sluice limit l.frames) with
    | some f => some (name f)
    | none =>
      if !l.sluice && room < stateBytesOf (blockPlane false l.offset l.frames :: others) then some (0x10, l.offset)
      else none

end Sys2Proof.Machine
end

