-- ==== Sys2Proof/Machine/Regions.lean ====
section
/-! DEFINITION. Regions and planes: loads, selection, start, drain, the quiescence tree, configuration fetches
(R320 to R328, R391 to R398, R461). -/

namespace Sys2Proof.Machine

open Sys2Proof

/-! ### Held load faults and loads in progress (R321, R322) -/

/-- A held load fault of a plane. -/
def Pump.heldPlane (p : Pump) (n : Fin 4) : Option Held := p.held.find? fun e => !e.sluice && e.plane.toNat = n.val

/-- A running region has the plane selected (R321). -/
def Fabric.planeRuns (f : Fabric) (n : Fin 4) : Bool := (fins 8).any fun r => f.regions[r].run && f.regions[r].sel = some n

/-- A stream of the package that names a sluice context has not ended (R352). -/
def State.ctxInUse (s : State) (ctx : Fin 8) : Bool :=
  (fins 256).any fun c => (fins 8).any fun a =>
    match (s.core c).agRun a with
    | some (_, g) => g.ctx = some ctx
    | none => false

/-- The image offset of an address (R321). -/
def State.imageOffset (s : State) (c : CoreId) (a : Word) : Word := a - (s.launch c).image

/-- A core of another flow loads a sluice context now (R352; log 86). -/
def State.ctxLoading (s : State) (c : CoreId) (ctx : Fin 8) : Bool :=
  (fins 256).any fun d => (s.pump d).flow ≠ (s.pump c).flow && match (s.pump d).load with
    | some l => l.sluice && planeOf l.header = ctx.val
    | none => false

/-- The checks that `cfgl` makes of its header at once (R321, R352). -/
def State.headerStop (s : State) (c : CoreId) (h : Frame) (off : Word) : Option Stop :=
  if bits h 228 4 = 2 then
    if !s.part.hasSluice then some (fault 0x12 off)
    else if 8 ≤ planeOf h then none
    else
      let ctx : Fin 8 := Fin.ofNat 8 (planeOf h)
      let other := match s.sluice[ctx] with
        | some x => x.owner ≠ (s.pump c).flow
        | none => false
      if other || s.ctxLoading c ctx || s.ctxInUse ctx then some (fault 0x10 off) else none
  else if planeOf h < 4 && (s.core c).fab.planeRuns (Fin.ofNat 4 (planeOf h)) then some (fault 0x10 off)
  else none

/-- `cfgl` (R321): it waits for an earlier load, reads the block by R292, and goes on while the block is checked. -/
def State.cfglTry (s : State) (c : CoreId) (a : Reg) : Except Stop State := do
  let p := s.pump c
  let v := p.read a
  if p.load.isSome then throw (.wait (some 7))
  if v.toNat % 32 ≠ 0 then throw (fault 0x02 v)
  let hb ← s.loadWords c v 4
  let h := leFrame hb
  let off := s.imageOffset c v
  guardStop (s.headerStop c h off)
  let bs ← s.loadWords c (v + 32) (4 * siteOf h)
  let l : Load := { offset := off, sluice := bits h 228 4 = 2, plane := BitVec.ofNat 3 (planeOf h), header := h,
                    frames := (chunks 32 bs).map leFrame }
  return (s.modPump c fun p => { p with load := some l }).goOn c

/-- `cfgl` (R321); the first later one raises a held fault (R322). -/
def execCfgl (a : Reg) (s : State) : Out :=
  match (s.pump s.cur).load, (s.pump s.cur).heldAny with
  | none, some e => .next (s.raiseHeld s.cur e)
  | _, _ => s.outcome s.cur (.cfgl a) (s.cfglTry s.cur a)

/-- The limit of R469 for a core: less for the rank that saves a Weir. -/
def State.elementRoom (s : State) (c : CoreId) : Nat :=
  let nq := match s.flowOf c with
    | some f => f.rec_.nq
    | none => 0
  if nq ≠ 0 && (s.launch c).rank % 4 = 3 then 1252 * 1024 else 1972 * 1024

/-- The fault of the load that a core has in progress (R88, R322). -/
def State.loadFault (s : State) (c : CoreId) (l : Load) : Option (Code × Word) :=
  let others := ((fins 4).filter fun n => n.val ≠ l.plane.toNat).map fun n => (s.core c).fab.planes[n]
  blockFault s.part l (s.launch c).sites (s.elementRoom c) others

/-- A site holds a frame in some plane (R397). -/
def Fabric.hasFrame (f : Fabric) (i : Fin 64) : Bool :=
  (fins 4).any fun n => f.planes[n].frames.any fun w => (layoutOf w = 1 || layoutOf w = 3) && siteOf w = i.val

/-- Power gating follows the planes (R397): a site with its first frame starts waking, one without any is gated. -/
def Fabric.gatePower (f : Fabric) (now : Nat) : Fabric :=
  (fins 64).foldl (fun f i =>
    let x := f.sites[i]
    if f.hasFrame i then
      if x.gate = .power then { f with sites := setAt f.sites i { x with gate := .waking (now + 1024) } } else f
    else { f with sites := setAt f.sites i { x with gate := .power } }) f

/-- The frames of a load written into their plane, with the sites that are still absent (R321, R398). -/
def Fabric.writePlane (f : Fabric) (l : Load) (absent : List (Fin 64)) (now : Nat) : Fabric :=
  let n : Fin 4 := Fin.ofNat 4 l.plane.toNat
  { f with planes := setAt f.planes n { frames := l.frames, offset := l.offset, absent := absent, page := none, bad := false } }.gatePower now

/-- The load ends with its fault held (R322). -/
def Pump.holdLoad (p : Pump) (l : Load) (e : Code × Word) : Pump :=
  { p with load := none, held := p.held ++ [{ code := e.1, sluice := l.sluice, plane := l.plane, offset := e.2 }] }

/-- CONFIG_LOAD_COMPLETE (R88, R321, R322, R352): the block is checked, then written whole, or its fault is held. A load
whose frames are in effect already since a swap only becomes resident (R398). -/
def State.loadDone (s : State) (c : CoreId) : State :=
  match (s.pump c).load with
  | none => s
  | some l =>
    let n : Fin 4 := Fin.ofNat 4 l.plane.toNat
    if !l.sluice && planeOf l.header < 4 && (s.core c).fab.planeRuns n then
      (s.modFab c fun f => { f with planes := setAt f.planes n { f.planes[n] with absent := [] } }).modPump c fun p =>
        { p with load := none }
    else
      match s.loadFault c l with
      | some e => s.modPump c fun p => p.holdLoad l e
      | none =>
        let s := s.modPump c fun p => { p with load := none }
        if l.sluice then
          let x : SluiceCtx := { owner := (s.pump c).flow, frames := l.frames, offset := l.offset }
          { s with sluice := setAt s.sluice (Fin.ofNat 8 l.plane.toNat) (some x) }
        else s.modFab c fun f => f.writePlane l [] s.now

/-- The stall counters and pauses of core `c` go on. -/
def State.seen (s : State) (c : CoreId) : State := s.modCore c fun k => k.seeStalls (s.weirFree c) s.now

/-- CONFIG_LOAD_COMPLETE. -/
def execConfigLoadComplete (c : CoreId) (s : State) : Out := .next ((s.loadDone c).seen c)

/-! ### cfgs and cfgp (R323, R324) -/

/-- The plane gives a site, memory site or AG site to region `r`: an AG site without a frame belongs to the region of its
links (R425). -/
def Plane.gives (p : Plane) (r : Fin 8) : Dst → Bool
  | .opd i _ => match p.comp? i with
    | some k => k.region = r
    | none => false
  | .mem m => match p.mem? m with
    | some k => k.region = r
    | none => false
  | .ag a => match p.ag? a with
    | some g => g.region = r
    | none => p.agLinked a && !p.agLinksElsewhere a r
  | .link i d => match p.switch? i with
    | some w => lnkSrc w d ≠ 0 && rgnOf w d = r.val
    | none => false

/-- All elements of a core in the order of R394, then its outgoing links. -/
def allElements : List Dst :=
  (fins 64).map (fun i => Dst.opd i 0) ++ (fins 8).map Dst.mem ++ (fins 8).map Dst.ag ++
    ((fins 64).map fun i => (fins 4).map fun d => Dst.link i d).flatten

/-- The site address of R80 that a conflict names. -/
def Dst.address : Dst → Nat
  | .opd i _ => i.val
  | .mem m => m.val
  | .ag a => a.val
  | .link i _ => i.val

/-- The first element that plane `p` gives region `r` and that belongs to another running region (R323). -/
def Fabric.conflict (f : Fabric) (r : Fin 8) (p : Plane) : Option Dst :=
  allElements.find? fun e => p.gives r e && (fins 8).any fun q =>
    q ≠ r && match f.runPlane q with
      | some o => o.gives q e
      | none => false

/-- `cfgs` as an attempt (R323, R397). R322 counts a wait for a load of the plane with cause 7 and R323 every wait of a
`cfgs` with cause 3: the model gives cause 3 (log 86). -/
def State.cfgsTry (s : State) (c : CoreId) (region : BitVec 3) (plane : BitVec 2) : Except Stop State := do
  let r : Fin 8 := region.toFin
  let n : Fin 4 := plane.toFin
  let k := s.core c
  if k.fab.regions[r].run || k.pump.loading n then throw (.wait (some 3))
  match k.fab.conflict r k.fab.planes[n] with
  | some e => throw (fault 0x10 (BitVec.ofNat 64 e.address))
  | none => pure ()
  if !k.fab.awakeIn r k.fab.planes[n] then throw (.wait (some 3))
  return (s.modCore c fun k => k.modRegion r fun x => { x with sel := some n, armed := none }).goOn c

/-- `cfgs` (R323); one that names a plane with a held load fault raises it (R322). -/
def execCfgs (region : BitVec 3) (plane : BitVec 2) (s : State) : Out :=
  match (s.pump s.cur).heldPlane plane.toFin with
  | some e => .next (s.raiseHeld s.cur e)
  | none => s.outcome s.cur (.cfgs region plane) (s.cfgsTry s.cur region plane)

/-- CFGS_SELECT: the blocked `cfgs` selects its plane, or raises what it meets (R322, R323). -/
def execCfgsSelect (c : CoreId) (s : State) : Out :=
  .next (match (s.pump c).block with
    | some (.cfgs region plane) =>
      match (s.pump c).heldPlane plane.toFin with
      | some e => s.raiseHeld c e
      | none => s.retry c (.cfgs region plane) fun t => t.cfgsTry c region plane
    | _ => s)

/-- `cfgp` (R324). -/
def execCfgp (region : BitVec 3) (pt pf : BitVec 2) (s : State) : Out :=
  let p := s.pump s.cur
  match (p.heldPlane pt.toFin).or (p.heldPlane pf.toFin) with
  | some e => .next (s.raiseHeld s.cur e)
  | none =>
    s.outcome s.cur (.cfgp region pt pf)
      (if p.loading pt.toFin || p.loading pf.toFin then .error (.wait (some 7))
       else if !(s.core s.cur).fab.regions[region.toFin].run then .error (fault 0x10 (region.setWidth 64))
       else .ok ((s.modCore s.cur fun k => k.modRegion region.toFin fun x =>
         { x with armed := some (pt.toFin, pf.toFin) }).goOn s.cur))

/-- The status word of a region (R327). -/
def State.regionWord (s : State) (c : CoreId) (r : Fin 8) : Word :=
  let k := s.core c
  let x := k.fab.regions[r]
  let lpend := match x.sel with
    | some n => k.pump.loading n
    | none => false
  let plane : BitVec 2 := match x.sel with
    | some n => BitVec.ofNat 2 n.val
    | none => 0
  (0#18 ++ x.flags ++ 0#32 ++ BitVec.ofBool x.sel.isSome ++ BitVec.ofBool x.armed.isSome ++ BitVec.ofBool x.stray ++
    BitVec.ofBool x.pred ++ BitVec.ofBool lpend ++ BitVec.ofBool x.run ++ plane : BitVec 64)

/-- `cfgq` (R327). -/
def execCfgq (d : Reg) (region : BitVec 3) (s : State) : Out :=
  .next (s.giveResult s.cur d (s.regionWord s.cur region.toFin))

/-! ### Starting a region (R326, R332, R383) -/

/-- The binds that starting region `r` on plane `p` asks for (R272, R438). -/
def State.regionBinds (s : State) (c : CoreId) (r : Fin 8) : List (Fin 8 × AgCfg) → Except Stop (List Bind)
  | [] => .ok []
  | (a, g) :: rest => do
    let b ← s.bindFor c (.frame r) a g
    let bs ← State.regionBinds s c r rest
    return b.toList ++ bs

/-- The lowest address at which one of the binds conflicts with a live one or with each other (R272). -/
def State.bindsConflict (s : State) : List Bind → Option Word
  | [] => none
  | b :: rest =>
    let own := rest.foldl (fun (m : Option Word) o => match m, b.conflict o with
      | none, x => x
      | some v, some w => some (if w.ult v then w else v)
      | some v, none => some v) none
    [s.bindConflict b, own, State.bindsConflict s rest].foldl (fun m x => match m, x with
      | none, y => y
      | some v, some w => some (if w.ult v then w else v)
      | some v, none => some v) none

/-- An AG site of the plane is in use by a stream, or lacks its sluice context (R310, R353). -/
def State.agsUnready (s : State) (c : CoreId) (ags : List (Fin 8 × AgCfg)) : Bool :=
  ags.any fun q =>
    s.agBusy c q.1 || match q.2.ctx with
      | some ctx => !s.sluiceMine c ctx || !s.homedHere c q.2
      | none => false

/-- The elements of a region at its start (R326): empty channels, operators at their initial state, sources with their
credit, `mem.phase` words set, AG sites taken. -/
def Core.startElements (k : Core) (r : Fin 8) (p : Plane) (now : Nat) : Core :=
  let fresh : Stall := { Stall.reset with since := now }
  let links := (fins 64).foldl (fun k i => (fins 4).foldl (fun k d =>
    if k.feeds r p i d then k.modLink i d fun _ => [] else k) k) k
  let sites := (p.compsOf r).foldl (fun k c =>
    k.modSite c.site fun _ => { Site.reset with gate := .awake, firedAt := now, stall := fresh }) links
  let mems := (p.memsOf r).foldl (fun k m =>
    let k := k.modMem m.site fun _ => { MemSite.reset with credit := 2048, stall := fresh }
    if m.mode = 6 then
      let o := m.slotAt 0
      let k := (k.cisternWrite o (toLE 8 0 ++ toLE 8 m.expect)).setFull (o + 8) 8 .engine 0
      { k with full := k.full.filter (· ≠ o / 8) }
    else k) sites
  (p.agsOf r).foldl (fun k q =>
    k.modAg q.1 fun _ => { AgSite.reset with use := .frame r, credit := 2 * q.2.rnd, stall := fresh }) mems

/-- The streams and memory sites of a region. -/
def Plane.agents (p : Plane) (c : CoreId) (r : Fin 8) : List Agent :=
  ((p.memsOf r).map fun m => .site c m.site) ++ (p.agsOf r).map fun a => .ag c a.1

/-- Those that commit writes. -/
def Plane.sinks (p : Plane) (c : CoreId) (r : Fin 8) : List Agent :=
  ((p.memsOf r).map fun m => .site c m.site) ++ ((p.agsOf r).filter fun a => !a.2.sends).map fun a => .ag c a.1

/-- What some agents did happens before the next accesses of others (R267, R268). -/
def State.orderAll (s : State) (us vs : List Agent) : State := vs.foldl (fun t v => us.foldl (fun t u => t.passOn u v) t) s

/-- The region starts on plane `n` with its binds (R324, R326); its stall counters are zero, and that of the Weir whose
output AG it holds (R395). A replay never goes back behind a start. What the elements of the plane that it has left did happens
before (R266). -/
def State.startRegion (s : State) (c : CoreId) (r : Fin 8) (n : Fin 4) (bs : List Bind) (clear : Bool) : State :=
  let old := (((s.core c).fab.planeOf r).map (·.agents c r)).getD []
  let t := s.orderAll old ((s.core c).fab.planes[n].agents c r)
  let t := t.modCore c fun k =>
    let p := k.fab.planes[n]
    let k := k.startElements r p s.now
    let k := k.modRegion r fun x =>
      { x with
        sel := some n
        run := true
        stray := false
        armed := none
        pred := false
        flags := if clear then 0 else x.flags
        seed := k.pump.seed
        movedAt := s.now
        pausedAt := none
        pauses := []
        aborts := 0
        abortAt := 0
        page := none
        due := none
        fault := none
        switches := Vector.replicate 64 { Stall.reset with since := s.now }
        agents := (x.agents ++ p.sinks c r).dedup }
    { k with fab := { k.fab with binds := k.fab.binds ++ bs }, activeAt := s.now }
  let t := if (t.core c).weirSink = some r then t.modWeir (weirOf c) fun w => { w with stall := { Stall.reset with since := s.now } }
    else t
  (t.cutQuad (weirOf c)).seen c

/-- `kick` as an attempt (R326): a release at `.core` (R267). -/
def State.kickTry (s : State) (c : CoreId) (region : BitVec 3) : Except Stop State := do
  let r : Fin 8 := region.toFin
  let k := s.core c
  let n64 : Word := region.setWidth 64
  match k.fab.regions[r].sel with
  | none => throw (fault 0x10 n64)
  | some n =>
    if k.pump.loading n then throw (.wait (some 7))
    let p := k.fab.planes[n]
    if k.fab.regions[r].run || p.bad || s.agsUnready c (p.agsOf r) then throw (fault 0x10 n64)
    let bs ← s.regionBinds c r (p.agsOf r)
    match s.bindsConflict bs with
    | some w => throw (fault 0x1B w)
    | none => return (((s.release c).orderAll [.pump c] (p.agents c r)).startRegion c r n bs true).goOn c

/-- `kick` (R326); of a plane with a held load fault it raises it (R322). -/
def execKick (region : BitVec 3) (s : State) : Out :=
  let p := s.pump s.cur
  match ((s.core s.cur).fab.regions[region.toFin].sel).bind fun n => if p.loading n then none else p.heldPlane n with
  | some e => .next (s.raiseHeld s.cur e)
  | none => s.outcome s.cur (.kick region) (s.kickTry s.cur region)

/-! ### What a region holds (R391, R392) -/

/-- A channel's first buffer of region `r` that holds a token, as a field of the stall record (R394). -/
def Core.heldChannel (k : Core) (r : Fin 8) (p : Plane) : Option Nat :=
  let links := ((fins 64).map fun i => (fins 4).map fun d => (i, d)).flatten
  match links.find? fun q => k.feeds r p q.1 q.2 && !(k.fab.links[linkIx q.1 q.2]).isEmpty with
  | some (i, d) => some (1 * 2 ^ 12 + d.val * 2 ^ 10 + i.val)
  | none =>
    match (p.compsOf r).findSome? fun c => ((fins 4).find? fun q => (k.fab.sites[c.site].inReg[q]).isSome).map fun q =>
        1 * 2 ^ 12 + q.val * 2 ^ 10 + c.site.val with
    | some x => some x
    | none =>
      match (p.memsOf r).find? fun m => (k.fab.mems[m.site].inReg).isSome with
      | some m => some (2 * 2 ^ 12 + 3 * 2 ^ 10 + m.site.val)
      | none =>
        match (p.agsOf r).find? fun a => (k.fab.ags[a.1].inReg).isSome with
        | some a => some (4 * 2 ^ 12 + 1 * 2 ^ 10 + a.1.val)
        | none => none

/-- The buffers of a compute site hold a token: further outputs, partial tokens, FIFO or block, open round (R392). -/
def CompCfg.holds (c : CompCfg) (x : Site) : Bool :=
  (fins 4).any (fun d => !x.outq[d].isEmpty) || !x.op.vec.isEmpty || !x.op.held.isEmpty || !x.op.buf.isEmpty ||
    !x.op.buf2.isEmpty || !x.op.bits.isEmpty || (fins 4).any (fun d => !x.op.arrivals[d].isEmpty) ||
    (c.kind ≠ 1 && !x.op.store.isEmpty)

/-- The buffers of a memory site hold a token. -/
def MemSite.holds (x : MemSite) : Bool := !x.outq.isEmpty || !x.hold.isEmpty

/-- The buffers of an AG site hold a token. -/
def AgSite.holds (x : AgSite) : Bool := !x.outq.isEmpty || !x.hold.isEmpty || !x.pendIdx.isEmpty

/-- The Weir of the quad belongs to the region (R230). -/
def State.weirHomeOf (s : State) (c : CoreId) (r : Fin 8) : Bool :=
  match (s.weirs[weirOf c]).graph with
  | some g => s.weirHome (weirOf c) g = some (c, r)
  | none => false

/-- The region's Weir, with tokens in its pipeline (R230, R392). -/
def State.weirHolds (s : State) (c : CoreId) (r : Fin 8) : Bool :=
  let w := s.weirs[weirOf c]
  s.weirHomeOf c r && (!w.openVec.isEmpty || !w.outq.isEmpty || (fins 4).any fun i => (w.inReg[i]).isSome)

/-- A token is held somewhere in the region. -/
def State.regionHolds (s : State) (c : CoreId) (r : Fin 8) (p : Plane) : Bool :=
  let k := s.core c
  (k.heldChannel r p).isSome || (p.compsOf r).any (fun x => x.holds k.fab.sites[x.site]) ||
    (p.memsOf r).any (fun m => (k.fab.mems[m.site]).holds) || (p.agsOf r).any (fun a => (k.fab.ags[a.1]).holds) ||
    s.weirHolds c r

/-- Every sink of the region has finished (R369). -/
def Core.sinksDone (k : Core) (r : Fin 8) (p : Plane) : Bool :=
  (p.memsOf r).all (fun m => m.sends || k.fab.mems[m.site].finished) &&
    (p.agsOf r).all (fun a => a.2.sends || k.fab.ags[a.1].finished)

/-- Every source of the region has ended its pattern: `mem.fifo`, `mem.tab` and `ag.gath` have none of their own. -/
def Core.sourcesDone (k : Core) (r : Fin 8) (p : Plane) : Bool :=
  (p.memsOf r).all (fun m => m.mode ≠ 0 || k.fab.mems[m.site].finished) &&
    (p.agsOf r).all (fun a => !a.2.sends || a.2.mode = 3 || k.fab.ags[a.1].ended)

/-- Feed and take streams bound to the region have ended (R311, R425). -/
def Pump.streamsDone (p : Pump) (r : Fin 8) : Bool :=
  (fins 64).all fun h => match (p.handles[h]).bind (·.stream) with
    | some t => t.ended || t.region ≠ r || (t.kind ≠ .feed && t.kind ≠ .take)
    | none => true

/-- No access of the region is outstanding. -/
def State.accessesDone (s : State) (c : CoreId) (r : Fin 8) (p : Plane) : Bool :=
  (p.agsOf r).all fun a =>
    (s.core c).fab.ags[a.1].reads.isEmpty && !(s.jobs.any fun j => j.core = c && j.ag = a.1)

/-- The region drains now (R392). -/
def State.drains (s : State) (c : CoreId) (r : Fin 8) (p : Plane) : Bool :=
  let k := s.core c
  k.sinksDone r p && k.sourcesDone r p && k.pump.streamsDone r && s.accessesDone c r p && !s.regionHolds c r p

/-! ### The end of a region (R320, R324, R325, R393) -/

/-- The region's binds go: the writes they held are performed, and copies dropped (R273, R274). -/
def State.dropBinds (s : State) (c : CoreId) (r : Fin 8) : State :=
  let t := s.modFab c fun f => { f with binds := f.binds.filter fun b => b.owner ≠ .frame r }
  (t.performWhere fun w => w.core = c && w.bind.isSome && (t.writeBind c w.pa).isNone).dropCopies c

/-- The AG sites of the region are free. -/
def Core.freeAgs (k : Core) (r : Fin 8) : Core :=
  (fins 8).foldl (fun k a => if k.fab.ags[a].use = .frame r then k.modAg a fun _ => AgSite.reset else k) k

/-- The region becomes idle; where it was the last one that ran, peer events need wait for no boundary (R441). -/
def State.idleRegion (s : State) (c : CoreId) (r : Fin 8) : State :=
  let t := (s.dropBinds c r).modCore c fun k =>
    let k := { (k.freeAgs r).modRegion r fun x =>
        { x with run := false, stray := false, armed := none, movedAt := s.now, pausedAt := none, pauses := [], page := none } with
      activeAt := s.now }
    if k.fab.anyRunning then k else k.boundary
  t.cutQuad (weirOf c)

/-- The plane that an armed swap selects (R324). -/
def Region.swapPlane (x : Region) : Option (Fin 4) := x.armed.map fun q => if x.pred then q.1 else q.2

/-- A region whose swap cannot start takes the fault and is stray on the plane (R398, R449; log 31). -/
def State.swapFault (s : State) (c : CoreId) (r : Fin 8) (n : Fin 4) (code : Code) (tval : Word) : State :=
  (s.idleRegion c r).modCore c fun k => (k.modRegion r fun x => { x with sel := some n, run := true }).fabFault code r tval

/-- A swap at drain starts the region on a plane as if kicked, its flag word kept (R324, R397, R398). It waits while
sites wake or a page of a bind is absent; what a `kick` would raise at once is a fabric fault here, and the region turns
stray on that plane: on its old one where an element of the new one belongs to another region (log 31). -/
def State.swapTo (s : State) (c : CoreId) (r : Fin 8) (n : Fin 4) : State :=
  let t := s.idleRegion c r
  let fail (code : Code) (tval : Word) : State := s.swapFault c r n code tval
  let start (t : State) (p : Plane) : State :=
    if !(t.core c).fab.awakeIn r p then s
    else match (t.core c).fab.conflict r p with
      | some e => s.swapFault c r (((s.core c).fab.regions[r].sel).getD n) 0x10 (BitVec.ofNat 64 e.address)
      | none =>
        if p.bad || t.agsUnready c (p.agsOf r) then fail 0x10 (BitVec.ofNat 64 r.val)
        else match t.regionBinds c r (p.agsOf r) with
          | .error (.page va access) =>
            let (u, id) := s.postPage va access 4 (s.launch c).space (s.pump c).flow (some c)
            (u.modCore c fun k => k.modRegion r fun x => { x with page := some id }).seen c
          | .error (.trap cause _) => fail cause.code cause.tval
          | .error _ => fail 0x10 (BitVec.ofNat 64 r.val)
          | .ok bs =>
            match t.bindsConflict bs with
            | some w => fail 0x1B w
            | none => t.startRegion c r n bs false
  match (s.pump c).load with
  | some l =>
    if l.sluice || l.plane.toNat ≠ n.val then start t (t.core c).fab.planes[n]
    else match t.loadFault c l with
      | some e =>
        ((t.startRegion c r n [] false).modPump c fun p => { p with load := none }).modCore c fun k => k.fabFault 0x10 r e.2
      | none =>
        let sites := ((l.frames.filter fun f => layoutOf f = 1 || layoutOf f = 3).map fun f => (Fin.ofNat 64 (siteOf f) : Fin 64)).dedup
        let u := t.modFab c fun f => f.writePlane l sites s.now
        start u (u.core c).fab.planes[n]
  | none => start t (t.core c).fab.planes[n]

/-- REGION_DRAIN (R320, R324, R392). -/
def State.regionDrain (s : State) (c : CoreId) (r : Fin 8) : State :=
  let k := s.core c
  match k.fab.runPlane r with
  | none => s
  | some p =>
    if !k.fab.regions[r].moves || (k.fab.regions[r].page).isSome || !s.drains c r p then s
    else match k.fab.regions[r].swapPlane with
      | none => s.idleRegion c r
      | some n => s.swapTo c r n

/-- REGION_DRAIN. -/
def execRegionDrain (c : CoreId) (r : Fin 8) (s : State) : Out := .next (if s.shut then s else s.regionDrain c r)

/-- Everything a region holds is discarded (R325, R393). -/
def Core.discard (k : Core) (r : Fin 8) (p : Plane) : Core :=
  let k := (fins 64).foldl (fun k i => (fins 4).foldl (fun k d =>
    if k.feeds r p i d then k.modLink i d fun _ => [] else k) k) k
  let k := (p.compsOf r).foldl (fun k c => k.modSite c.site fun x => { Site.reset with gate := x.gate, firedAt := x.firedAt }) k
  let k := (p.memsOf r).foldl (fun k m => k.modMem m.site fun _ => MemSite.reset) k
  (fins 8).foldl (fun k a => if k.boundTo a r .take then k.modAg a fun x => { x with inReg := none } else k) k

/-- The Weir's tokens of a region are discarded: its pipeline where the Weir belongs to the region, and else what the region's
own `ag.in` has placed before it. What it has received and forwarded decides its rest as before (R218). -/
def State.discardWeir (s : State) (c : CoreId) (r : Fin 8) (p : Plane) : State :=
  let s := if s.weirHomeOf c r then s.modWeir (weirOf c) fun w =>
      { w with openVec := [], outq := [], outSeq := 0, inReg := Vector.replicate 4 none, pendFlags := 0, poisoned := false }
    else s
  if (p.agsOf r).any (fun a => a.2.weir && a.2.sends) then
    s.modWeir (weirOf c) fun w => { w with inReg := setAt w.inReg (Fin.ofNat 4 c.val) none }
  else s

/-- `drain` of a stray region: what it holds is discarded, and it is idle on its selected plane (R325, R393). -/
def State.drainStray (s : State) (c : CoreId) (r : Fin 8) : State :=
  match (s.core c).fab.planeOf r with
  | none => s.idleRegion c r
  | some p =>
    -- lines of rounds that have committed are still written (R485)
    let t := (p.agsOf r).foldl (fun t a => if (t.core c).fab.ags[a.1].use = .frame r then t.flushJobs c a.1 (.frame r p) else t) s
    ((t.discardWeir c r p).modCore c fun k => k.discard r p).idleRegion c r

/-- `drain` as an attempt (R325): an acquire of what the region has committed (R268). -/
def State.drainTry (s : State) (c : CoreId) (region : BitVec 3) : Except Stop State :=
  let r : Fin 8 := region.toFin
  let x := (s.core c).fab.regions[r]
  if x.stray then .ok (((s.drainStray c r).orderAll x.agents [.pump c]).goOn c)
  else if x.run || x.armed.isSome then .error (.wait (some 3))
  else .ok ((s.orderAll x.agents [.pump c]).goOn c)

/-- `drain` (R325). -/
def execDrain (region : BitVec 3) (s : State) : Out := s.outcome s.cur (.drain region) (s.drainTry s.cur region)

/-- DRAIN_RETURN: the blocked `drain` returns (R325). -/
def execDrainReturn (c : CoreId) (s : State) : Out :=
  .next (match (s.pump c).block with
    | some (.drain region) => s.retry c (.drain region) fun t => t.drainTry c region
    | _ => s)

/-! ### Neighbours of a region (R391) -/

/-- A channel or permit of region `q` reaches region `r` of the same core. -/
def Core.reaches (k : Core) (q r : Fin 8) : Bool :=
  q ≠ r && match k.fab.runPlane r with
    | none => false
    | some p =>
      (p.compsOf r).any (fun c => match p.switch? c.site with
        | some w => c.order.any fun o => match opdSrc w o with
          | 0 => false
          | n + 1 => (match k.bufOwner c.site (Fin.ofNat 4 n) with
            | some (x, _) => x = q
            | none => false)
        | none => false) ||
      match k.fab.runPlane q with
      | none => false
      | some o =>
        (p.memsOf r).any (fun m => o.gives q (.link (memLink m.site) 3)) ||
          (p.agsOf r).any (fun a => o.gives q (.link (agLink a.1) 1))

/-- A channel or permit of one running region reaches another: in one core, or over the Weir of their quad into the region
of its output AG (R209, R391). -/
def State.reaches (s : State) (x y : CoreId × Fin 8) : Bool :=
  (x.1 = y.1 && (s.core x.1).reaches x.2 y.2) ||
    (x ≠ y && weirOf x.1 = weirOf y.1 && match (s.weirs[weirOf y.1]).graph with
      | some g => coreOf (weirOf y.1) g.ocore.val = y.1 && (s.core y.1).weirSink = some y.2 &&
          g.feeders.any (fun i => coreOf (weirOf y.1) i.val = x.1) && (s.core x.1).weirSource = some x.2
      | none => false)

/-- The running regions of the cores of a quad. -/
def State.quadRegions (s : State) (c : CoreId) : List (CoreId × Fin 8) :=
  ((List.range 4).map fun i =>
    let d := coreOf (weirOf c) i
    ((fins 8).filter fun r => (s.core d).fab.regions[r].run).map fun r => (d, r)).flatten

/-- The region whose take stream fills the ring that a fold's stream sends on (R311, R312). -/
def State.foldRegion (s : State) (f : Fold) : Option (CoreId × Fin 8) :=
  ((((s.pump f.core).handle f.h).bind (·.joined)).bind fun h => (s.pump f.core).streamOf h).bind fun t =>
    if t.kind = .take && !t.ended then some (f.core, t.region) else none

/-- The windows of a fold element: of its partials, and of what it sends on. -/
def State.windowsOf (s : State) (i : Nat) : List Crossing := s.crossings.filter fun x => x.fold = i

/-! ### Stillness (R391 to R395) -/

/-- An event on core `c` moves region `r`, or makes it stray. -/
def State.movesBy (s t : State) (c : CoreId) (r : Fin 8) : Bool :=
  let a := (s.core c).fab.regions[r]
  let b := (t.core c).fab.regions[r]
  a.movedAt ≠ b.movedAt || a.stray ≠ b.stray

/-- Some element of the region can move now: a firing, a hop, an access, a return, a wake, the Weir, a line. -/
def State.canMove (s : State) (c : CoreId) (r : Fin 8) (p : Plane) : Bool :=
  let via (f : Core → Core) : Bool := s.movesBy (s.modCore c f) c r
  let links := ((fins 64).map fun i => (fins 4).map fun d => (i, d)).flatten
  (p.compsOf r).any (fun x => via fun k => k.fireSite x.site s.now) ||
  links.any (fun q => ((s.core c).feeds r p q.1 q.2 && via (fun k => k.hopLink q.1 q.2 s.now)) ||
    via (fun k => k.hopOut q.1 q.2 s.now)) ||
  (p.memsOf r).any (fun m => s.movesBy (s.memAccess c m.site) c r) ||
  (p.agsOf r).any (fun a => s.movesBy (s.agAccess c a.1) c r || !(s.core c).fab.ags[a.1].reads.isEmpty ||
    s.jobs.any fun j => j.core = c && j.ag = a.1) ||
  ((s.core c).weirSink = some r && s.weirs[weirOf c] ≠ (s.weirStep (weirOf c)).weirs[weirOf c])

/-- A token or credit can cross one of the region's windows now. -/
def State.canCross (s : State) (c : CoreId) (r : Fin 8) : Bool :=
  s.crossings.zipIdx.any fun q => ((s.folds[q.1.fold]?).bind s.foldRegion) = some (c, r) &&
    ((s.hopCrossing q.2).crossings[q.2]?).map (·.buffer.length) ≠ some q.1.buffer.length

/-- The last moment at which a window of the region's folds was crossed (R391). -/
def State.crossedAt (s : State) (c : CoreId) (r : Fin 8) : Nat :=
  s.crossings.foldl (fun m x => if ((s.folds[x.fold]?).bind s.foldRegion) = some (c, r) then max m x.movedAt else m) 0

/-- The stream of an element receives the results of its station: its region is the receiving one (R247; log 30). -/
def Fold.receives (f : Fold) : Bool := f.rec_.station && f.member = some f.rec_.receiver

/-- A station's window of the region is exhausted: that wait is no stillness of the region (R367), but for the receiving one
(R247). -/
def State.windowFull (s : State) (c : CoreId) (r : Fin 8) : Bool :=
  s.folds.zipIdx.any fun q => q.1.rec_.station && !q.1.receives && s.foldRegion q.1 = some (c, r) &&
    (s.crossing q.2 0).any fun x => x.credits = 0

/-- The port of the station whose receiving region this is, where partials wait for another member (R247). -/
def State.stationAwaited (s : State) (c : CoreId) (r : Fin 8) : Option (BitVec 16) :=
  (s.folds.zipIdx.find? fun q => q.1.receives && s.foldRegion q.1 = some (c, r) && !s.stationFull q.1.rec_ &&
    s.folds.any fun g => g.rec_.sameStation q.1.rec_ && !g.parts.isEmpty).map fun q => s.foldPort q.2

/-- The last moment at which an outside supplier of the region was active (R391): its pump, another region, a window;
`none` while one is active. -/
def State.supplied (s : State) (c : CoreId) (r : Fin 8) : Option Nat :=
  let k := s.core c
  let feeds := (fins 64).any fun h => match (k.pump.handles[h]).bind (·.stream) with
    | some t => !t.ended && t.kind = .feed && t.region = r
    | none => false
  let pump : Option Nat :=
    if !feeds then some 0
    else if k.pump.run = .running && k.pump.block.isNone && k.pump.page.isNone then none
    else some k.pump.issuedAt
  let first : Option Nat := if s.canCross c r then none else pump.map fun n => max n (s.crossedAt c r)
  (s.quadRegions c).foldl (fun m q =>
    match m with
    | none => none
    | some n =>
      if s.reaches q (c, r) then
        match (s.core q.1).fab.runPlane q.2 with
        | some o =>
          let x := (s.core q.1).fab.regions[q.2]
          if x.moves && s.canMove q.1 q.2 o then none else some (max n x.movedAt)
        | none => some n
      else some n) first

/-- The fault of a region that is still and has not drained (R392); the receiving region of a station whose member never
delivers is starved (R247). -/
def State.stillCode (s : State) (c : CoreId) (r : Fin 8) (p : Plane) : Option Code :=
  let k := s.core c
  if (s.stationAwaited c r).isSome then some 0x19
  else if !k.sinksDone r p then some (if s.regionHolds c r p then 0x18 else 0x19)
  else if s.regionHolds c r p || !k.sourcesDone r p || !k.pump.streamsDone r then some 0x1A
  else none

/-- The region has been still for W cycles and has not drained: the fault it raises (R391, R392). -/
def State.stillFault (s : State) (c : CoreId) (r : Fin 8) : Option (Code × Plane) :=
  let k := s.core c
  match k.fab.runPlane r with
  | none => none
  | some p =>
    let x := k.fab.regions[r]
    if !x.moves || k.pauses r p s.now || s.canMove c r p || s.drains c r p || s.windowFull c r then none
    else match s.supplied c r with
      | none => none
      | some t =>
        if x.stillFor (max t x.movedAt) s.now < (s.launch c).window then none
        else (s.stillCode c r p).map fun code => (code, p)

/-- An entry of the stall record (R395): layout, site, cause, ports, cycles; fired, held. -/
def stallEntry (layout site : Nat) (x : Stall) (held now : Nat) : List Byte :=
  toLE 8 (layout * 2 ^ 60 + site * 2 ^ 44 + x.cause.toNat * 2 ^ 40 + x.ports.toNat * 2 ^ 36 + min (now - x.since) 0xFFFF_FFFF) ++
    toLE 8 (min x.fired 0xFFFF_FFFF * 2 ^ 32 + min held 0xFF_FFFF)

/-- Occupancy of the incoming links of a site that belong to the region, six bits each (R395, R423). -/
def Core.occupancy (k : Core) (r : Fin 8) (p : Plane) (i : Fin 64) : Nat :=
  (fins 4).foldl (fun n d => n * 64 + if k.feeds r p i d then (k.fab.links[linkIx i d]).length % 64 else 0) 0

/-- The entries of the stall record of a region (R394, R395, R423). -/
def State.stallEntries (s : State) (c : CoreId) (r : Fin 8) (p : Plane) : List (List Byte) :=
  let k := s.core c
  let comps := (fins 64).filterMap fun i =>
    if p.ownSite r i then some (stallEntry 1 i.val k.fab.sites[i].stall (k.occupancy r p i) s.now)
    else if (fins 4).any fun d => p.gives r (.link i d) then
      some (stallEntry 1 i.val k.fab.regions[r].switches[i] (k.occupancy r p i) s.now)
    else none
  let mems := (p.memsOf r).map fun m =>
    let x := k.fab.mems[m.site]
    stallEntry 2 m.site.val x.stall (if m.mode = 3 then x.hold.length else 0) s.now
  let ags := (p.agsOf r).map fun a =>
    let x := k.fab.ags[a.1]
    stallEntry 4 a.1.val x.stall (if a.2.sends then 0 else x.hold.length) s.now
  let w := s.weirs[weirOf c]
  let weir := if k.weirSink = some r && (w.graph.isNone || s.weirHomeOf c r) then
      [stallEntry 5 0 w.stall (w.openVec.length + (fins 4).countP fun i => (w.inReg[i]).isSome) s.now]
    else []
  comps ++ mems ++ ags ++ weir

/-- Address of a core's diagnostic slot (R394). -/
def Launch.slotAddr (l : Launch) : Word := l.diag + BitVec.ofNat 64 (2048 * l.rank)

/-- The stall record (R394). Its channel field is zero but for a 0x1A; R247 wants the station port named with a 0x19, and
gives no field: the model puts it there (log 86). -/
def State.stallRecord (s : State) (c : CoreId) (r : Fin 8) (p : Plane) (code : Code) : List Byte :=
  let k := s.core c
  let es := s.stallEntries c r p
  let sel := match k.fab.regions[r].sel with
    | some n => n.val
    | none => 0
  let chan := if code = 0x1A then (k.heldChannel r p).getD 0
    else if code = 0x19 then ((s.stationAwaited c r).map (·.toNat)).getD 0 else 0
  [code, BitVec.ofNat 8 r.val, BitVec.ofNat 8 sel, 0] ++ toLE 2 es.length ++ toLE 2 chan ++ toLE 8 (s.cycleOf c).toNat ++
    toLE 8 (s.launch c).window ++ toLE 8 0 ++ es.flatten

/-- A fault of R392 that waited for its record is delivered. -/
def State.stillFaults (s : State) (c : CoreId) (r : Fin 8) (code : Code) : State :=
  s.modCore c fun k => (k.modRegion r fun x => { x with due := none }).fabFault code r (s.launch c).slotAddr

/-- The stall record is written, and then the fault delivered (R394): a record that crosses into a second page needs
both. A page without an entry makes both wait, and a page that forbids the write loses the record. -/
def State.stillWrite (s : State) (c : CoreId) (r : Fin 8) (code : Code) (bs : List Byte) : State :=
  let slot := (s.launch c).slotAddr
  let n := min bs.length (65536 - slot.toNat % 65536)
  let next := slot + BitVec.ofNat 64 n
  let wait (va : Word) : State :=
    let (t, id) := s.postPage va Need.wr.access 5 (s.launch c).space (s.pump c).flow (some c)
    (t.modCore c fun k => k.modRegion r fun x => { x with due := some { code := code, record := bs, page := some id } }).seen c
  match s.translate c slot .wr, (if n = bs.length then Trans.at 0 else s.translate c next .wr) with
  | .forbidden, _ => s.stillFaults c r code
  | _, .forbidden => s.stillFaults c r code
  | .absent, _ => wait slot
  | _, .absent => wait next
  | .at pa, .at qa =>
    ((s.engineWriteAll .engine pa (bs.take n) 16).engineWriteAll .engine qa (bs.drop n) 16).stillFaults c r code

/-- STILL_WINDOW_EXPIRY (R392 to R394): the fault of a still region, with its record as the region stands now; one whose
record could not be written before a pre-emption is taken up again. -/
def State.stillExpiry (s : State) (c : CoreId) (r : Fin 8) : State :=
  match ((s.core c).fab.regions[r]).due with
  | some d => if d.page.isSome || !((s.core c).fab.regions[r]).run || ((s.core c).fab.regions[r]).frozen then s
    else s.stillWrite c r d.code d.record
  | none =>
    let s := (s.seen c).seeWeir (weirOf c)
    match s.stillFault c r with
    | none => s
    | some (code, p) => s.stillWrite c r code (s.stallRecord c r p code)

/-- A verdict on the request that a region's stall record waits on (R394). -/
def State.stillVerdict (s : State) (c : CoreId) (r : Fin 8) (id : BitVec 32) (fail : Bool) : State :=
  match ((s.core c).fab.regions[r]).due with
  | some d =>
    if d.page ≠ some id then s
    else if fail then s.stillFaults c r d.code
    else s.stillWrite c r d.code d.record
  | none => s

/-- STILL_WINDOW_EXPIRY. -/
def execStillWindowExpiry (c : CoreId) (r : Fin 8) (s : State) : Out := .next (if s.shut then s else s.stillExpiry c r)

/-! ### Configuration fetches (R398, R436, R461) -/

/-- The running regions of core `c` that plane `n` gives an element to. -/
def Fabric.usersOf (f : Fabric) (n : Fin 4) (e : Dst) : List (Fin 8) :=
  (fins 8).filter fun r => f.regions[r].run && f.regions[r].sel = some n && (f.planes[n]).gives r e

/-- The elements of a compute site, or of its switch: its compute frame, else its outgoing links. -/
def Plane.siteElements (p : Plane) (site : Fin 64) : List Dst :=
  if (p.comp? site).isSome then [.opd site 0] else (fins 4).map fun d => .link site d

/-- Image offset of the frame of a site: its compute frame, else its switch frame. -/
def Plane.frameAt (p : Plane) (site : Fin 64) : Word :=
  frameOffset p.offset (frameIx p.frames (if (p.comp? site).isSome then 1 else 3) site.val)

/-- The running regions that the elements belong to take a fault. -/
def State.faultUsers (s : State) (c : CoreId) (n : Fin 4) (es : List Dst) (code : Code) (tval : Word) : State :=
  ((es.map fun e => (s.core c).fab.usersOf n e).flatten.dedup).foldl (fun t r => t.modCore c fun k => k.fabFault code r tval) s

/-- Change a plane. -/
def State.modPlane (s : State) (c : CoreId) (n : Fin 4) (f : Plane → Plane) : State :=
  s.modFab c fun x => { x with planes := setAt x.planes n (f x.planes[n]) }

/-- A fetch that fails: the regions of the site take fault 0x10 with the image offset of its frame (R398, R436). -/
def State.fetchFail (s : State) (c : CoreId) (n : Fin 4) (site : Fin 64) : State :=
  let p := (s.core c).fab.planes[n]
  s.faultUsers c n (p.siteElements site) 0x10 (p.frameAt site)

/-- An uncorrectable error of frame storage or of the configuration cache behind it: the plane is unusable until it is loaded
again, and the regions of the element take fault 0x20 with its site identifier (R365, R461), which a record of severity 2
precedes (R463). A frame has no physical address: the record names the element (log 11). -/
def State.frameDamage (s : State) (c : CoreId) (n : Fin 4) (es : List Dst) (id : Word) : State :=
  ((s.recovery 3 2 0x20 id (BitVec.ofNat 16 c.val) ((s.launch c).space.setWidth 16) (s.pump c).flow 1).faultUsers c n es 0x20
    id).modPlane c n fun x => { x with bad := true }

/-- The fetch of a site's frame that is not resident, as its walk ends (R398, R431, R434): the frame is resident, a page request
of requester 7 is posted, or the regions of the site take fault 0x10, for a page that forbids the read or a poisoned line. -/
def State.fetchFrame (s : State) (c : CoreId) (n : Fin 4) (site : Fin 64) : State :=
  let p := (s.core c).fab.planes[n]
  let va := (s.launch c).image + p.frameAt site
  match s.translate c va .rd with
  | .at pa => match s.lineStop pa va with
    | none => s.modPlane c n fun x => { x with absent := x.absent.filter (· ≠ site) }
    | some (.damage d _ _) => (s.meetAt c 0x10 d).fetchFail c n site
    | some _ => s.fetchFail c n site
  | .forbidden => s.fetchFail c n site
  | .absent =>
    let (t, id) := s.postPage va Need.rd.access 7 (s.launch c).space (s.pump c).flow (some c)
    t.modPlane c n fun x => { x with page := some (id, site) }

/-- FRAME_FETCH_COMPLETE (R398, R434, R461): a fetch ends as its walk says, or frame storage meets an error. -/
def State.frameFetch (s : State) (c : CoreId) (n : Fin 4) (site : Fin 64) (how : FetchEnd) : State :=
  let p := (s.core c).fab.planes[n]
  let here := (p.switch? site).isSome || (p.comp? site).isSome
  match how with
  | .fetched => if p.absent.contains site && p.page.isNone then s.fetchFrame c n site else s
  | .uncorrectable => if here then s.frameDamage c n (p.siteElements site) (siteId 1 site.val) else s
  | .damagedSwitch =>
    if (p.switch? site).isSome then s.frameDamage c n (.opd site 0 :: (fins 4).map fun d => .link site d) (siteId 1 site.val) else s
  | .damagedMem =>
    let m : Fin 8 := Fin.ofNat 8 site.val
    if (p.mem? m).isSome then s.frameDamage c n [.mem m] (siteId 2 m.val) else s
  | .damagedAg =>
    let a : Fin 8 := Fin.ofNat 8 site.val
    if (p.ag? a).isSome then s.frameDamage c n [.ag a] (siteId 4 a.val) else s

/-- A verdict on the request that a fetch of a plane's frame waits on (R398, R434, R436). -/
def State.fetchVerdict (s : State) (c : CoreId) (n : Fin 4) (id : BitVec 32) (fail : Bool) : State :=
  match ((s.core c).fab.planes[n]).page with
  | some (x, site) =>
    if x ≠ id then s
    else
      let t := s.modPlane c n fun p => { p with page := none }
      if fail then t.fetchFail c n site else t
  | none => s

/-- FRAME_FETCH_COMPLETE. -/
def execFrameFetchComplete (c : CoreId) (plane : Fin 4) (site : Fin 64) (how : FetchEnd) (s : State) : Out :=
  .next ((s.frameFetch c plane site how).seen c)

end Sys2Proof.Machine
end

