-- ==== Sys2Proof/Machine/Tokens.lean ====
section
/-! DEFINITION. The word of a token with its check code, and the stored form of a compressed line (R147 to R149, R338). -/

namespace Sys2Proof.Machine

open Sys2Proof

/-! ### Tokens (R147 to R149) -/

/-- Type code of a token (R148). -/
def TokKind.code : TokKind → BitVec 4
  | .data => 0
  | .stop lv => lv.setWidth 4
  | .mark => 8
  | .scale => 9
  | .abort => 10

/-- The type of a code; codes 0xB to 0xF are reserved (R148). -/
def TokKind.ofCode? (v : BitVec 4) : Option TokKind :=
  if v = 0 then some .data
  else if v.ult 8 then some (.stop (v.setWidth 3))
  else if v = 8 then some .mark
  else if v = 9 then some .scale
  else if v = 10 then some .abort
  else none

/-- One bit into a CRC-8 of generator x^8 + x^2 + x + 1 (R149). -/
def crcBit (c : BitVec 8) (b : Bool) : BitVec 8 := if c.getLsbD 7 = b then c <<< 1 else (c <<< 1) ^^^ 7

/-- The check code of type, seq and payload, the most significant bit first (R149). -/
def crc8 (v : BitVec 272) : BitVec 8 := (List.range 272).foldl (fun c i => crcBit c (v.getLsbD (271 - i))) 0xFF

/-- Type, seq and payload of a token (R147). -/
def Token.body (t : Token) : BitVec 272 := t.kind.code ++ (BitVec.ofNat 12 t.seq ++ t.payload : BitVec 268)

/-- The word in which a token moves: every element that sends it computes its check code (R147, R149, R175, R452). -/
def Token.word (t : Token) : BitVec 280 := crc8 t.body ++ t.body

/-- The payload bits that R148 requires to be zero are zero. -/
def TokKind.payloadOk (k : TokKind) (payload : Frame) : Bool :=
  match k with
  | .data => true
  | .scale => payload.toNat < 256
  | .stop _ => payload = 0
  | .mark => payload = 0
  | .abort => payload = 0

/-- What an element reads from a word: nothing when its check fails, its type is reserved, or a payload bit is not zero that
must be (R149, R452). Scale and poison move beside the word (R177, R458). -/
def Token.ofWord? (w : BitVec 280) (scale : Byte) (poison : Bool) : Option Token :=
  let payload : Frame := w.extractLsb' 0 256
  if w.extractLsb' 272 8 ≠ crc8 (w.extractLsb' 0 272) then none
  else match TokKind.ofCode? (w.extractLsb' 268 4) with
    | none => none
    | some k =>
      if k.payloadOk payload then
        some { kind := k, seq := (w.extractLsb' 256 12).toNat, payload := payload, scale := scale, poison := poison }
      else none

/-! ### Lines (R338) -/

/-- The mask of a line: bit b is 1 when byte b is not zero. -/
def lineMask : List Byte → Nat
  | [] => 0
  | b :: r => (if b = 0 then 0 else 1) + 2 * lineMask r

/-- The stored form of a compressed line: the mask, the bytes that are not zero, zeros up to a whole sector. -/
def packLine (bs : List Byte) : List Byte :=
  let nz := bs.filter (· ≠ 0)
  toLE 32 (lineMask bs) ++ nz ++ List.replicate ((nz.length + 31) / 32 * 32 - nz.length) 0

/-- The bytes of a line of `n` from its mask, bit `i` first, and the bytes that are not zero. -/
def spreadLine (mask : Nat) : Nat → List Byte → Nat → List Byte
  | _, _, 0 => []
  | i, nz, n + 1 =>
    if mask / 2 ^ i % 2 = 1 then nz.headD 0 :: spreadLine mask (i + 1) (nz.drop 1) n else 0 :: spreadLine mask (i + 1) nz n

/-- The line that a stored form gives: its sectors beyond the last are not read. -/
def unpackLine (stored : List Byte) : List Byte := spreadLine (leNat (stored.take 32)) 0 (stored.drop 32) 256

/-- The sectors in which a line is stored with its metadata code: none of a zero line, all eight of a raw one (R339). -/
def storedLine (code : BitVec 4) (bs : List Byte) : List Byte :=
  if code = 0 then [] else if code = 8 then bs else packLine bs

end Sys2Proof.Machine
end

