-- ==== Sys2Proof/Machine/Replay.lean ====
section
/-! DEFINITION. Abort domains and the replay of their open rounds (R239, R240, R436, R453 to R457). -/

namespace Sys2Proof.Machine

open Sys2Proof

/-! ### The abort domain (R453) -/

/-- Fold elements that one element is joined with: those of its station, or of its chain (R246, R247, R453). -/
def Fold.joined (f g : Fold) : Bool :=
  if f.rec_.station then f.rec_.sameStation g.rec_
  else !g.rec_.station && g.rec_.shards = f.rec_.shards && g.rec_.blk = f.rec_.blk && g.rec_.integer = f.rec_.integer

/-- A running region holds an AG site that feeds its Weir or takes from it. -/
def State.onWeir (s : State) (x : CoreId × Fin 8) : Bool :=
  match (s.core x.1).fab.runPlane x.2 with
  | some p => (p.agsOf x.2).any fun a => a.2.weir
  | none => false

/-- Two running regions are joined by a channel or permit, by the Weir of their quad, or by fold elements and their
windows (R453). -/
def State.joinedRegions (s : State) (x y : CoreId × Fin 8) : Bool :=
  s.reaches x y || s.reaches y x || (weirOf x.1 = weirOf y.1 && s.onWeir x && s.onWeir y) ||
    s.folds.any fun f => s.foldRegion f = some x && s.folds.any fun g => s.foldRegion g = some y && f.joined g

/-- The running regions that may be joined with one of core `c`: those of its quad, and of the cores of fold elements. -/
def State.nearRegions (s : State) (c : CoreId) : List (CoreId × Fin 8) :=
  let quads := (weirOf c :: s.folds.map fun f => weirOf f.core).dedup
  (quads.map fun q => s.quadRegions (coreOf q 0)).flatten

/-- One more step of joining. -/
def State.widen (s : State) (all dom : List (CoreId × Fin 8)) : List (CoreId × Fin 8) :=
  dom ++ all.filter fun x => !dom.contains x && dom.any fun y => s.joinedRegions x y

/-- Joining until nothing is added. -/
def State.widenAll (s : State) (all : List (CoreId × Fin 8)) : Nat → List (CoreId × Fin 8) → List (CoreId × Fin 8)
  | 0, dom => dom
  | n + 1, dom =>
    let d := s.widen all dom
    if d.length = dom.length then dom else State.widenAll s all n d

/-- The abort domain of a region (R453). -/
def State.domain (s : State) (c : CoreId) (r : Fin 8) : List (CoreId × Fin 8) :=
  let all := s.nearRegions c
  s.widenAll all all.length [(c, r)]

/-- The abort domain of a region takes fault 0x23 (R453, R456, R477): one fault, and every region of it is stray. -/
def State.domainFault (s : State) (c : CoreId) (r : Fin 8) (tval : Word) : State :=
  if (s.core c).fab.regions[r].stray then s
  else (s.domain c r).foldl (fun t q => t.modCore q.1 fun k => k.modRegion q.2 fun y => { y with stray := true, fault := none })
    (s.modCore c fun k => k.fabFault 0x23 r tval)

/-- Rounds committed by the elements of a region since its start. -/
def Core.commitsOf (k : Core) (r : Fin 8) : Nat :=
  match k.fab.runPlane r with
  | none => 0
  | some p =>
    ((p.compsOf r).map fun c => (k.fab.sites[c.site].commits.toList).sum).sum +
      ((p.memsOf r).map fun m => k.fab.mems[m.site].commits).sum + ((p.agsOf r).map fun a => k.fab.ags[a.1].commits).sum

/-- The Weirs of a domain. -/
def State.domainWeirs (s : State) (dom : List (CoreId × Fin 8)) : List (Fin 64) :=
  ((dom.filter s.onWeir).map fun x => weirOf x.1).dedup

/-- Rounds committed by all elements of a domain: sites, streams that take from it, Weirs, fold elements (R456). -/
def State.domainCommits (s : State) (dom : List (CoreId × Fin 8)) : Nat :=
  (dom.map fun x => (s.core x.1).commitsOf x.2).sum + ((s.domainWeirs dom).map fun q => (s.weirs[q]).commits).sum +
    ((s.folds.filter fun f => match s.foldRegion f with
      | some x => dom.contains x
      | none => false).map (·.rounds)).sum +
    (dom.map fun x => ((fins 8).filterMap fun a => ((s.core x.1).agStream a).bind fun t =>
      if t.2.kind = .take && t.2.region = x.2 then some (t.2.committed / 32) else none).sum).sum

/-! ### The rewind (R239, R453, R454; log 10) -/

/-- A source goes back to where the cut stands: it sends again what it has sent since, and knows how many of the tokens
that it will see or count again have had their effect. -/
def AgSite.rewindSource (x old : AgSite) (seen : Nat) : AgSite :=
  let old := if old.use = x.use then old else AgSite.reset
  { x with
    outq := x.sent ++ x.outq
    inReg := old.inReg
    credit := old.credit
    again := max old.again seen
    sent := []
    taken := 0
    finished := x.finished && x.sent.isEmpty
    page := none }

/-- A sink goes back to its last commit; lines that were dropped stay to be told (R345). -/
def AgSite.rewindSink (x old : AgSite) : AgSite :=
  if old.use = x.use then { old with dropped := x.dropped, stall := x.stall, page := none }
  else { x with inReg := none, hold := [], page := none }

/-- The stream of a handle gives up its open round: that of the cut, or none where it has started since. -/
def rewindHandle (ag : Fin 8) (x old : Option Handle) : Option Handle :=
  let round := match old.bind (·.stream) with
    | some t => if t.ag = ag && !t.ended then t.round else []
    | none => []
  x.map fun y => { y with stream := y.stream.map fun t => { t with round := round } }

/-- A stream of a handle that feeds or takes of region `r` goes back. -/
def Core.rewindStream (k : Core) (r : Fin 8) (cut : Cut) (a : Fin 8) : Core :=
  match k.agStream a with
  | some (h, t) =>
    if t.region ≠ r || t.ended then k
    else match t.kind with
      | .feed => k.modAg a fun x => x.rewindSource cut.ags[a] (x.sent.countP fun t => t.kind = .data)
      | .take =>
        let k := k.modAg a fun x => x.rewindSink cut.ags[a]
        let y := rewindHandle a k.pump.handles[h.toFin] cut.handles[h.toFin]
        { k with pump := { k.pump with handles := setAt k.pump.handles h.toFin y } }
      | .input => k
      | .output => k
  | none => k

/-- The slots of a `mem.fifo` hold again what they held. -/
def Core.refill (k : Core) (m : MemCfg) : Core :=
  let x := k.fab.mems[m.site]
  if m.mode ≠ 3 then k
  else x.hold.zipIdx.foldl (fun k q => k.cisternWrite (m.slotAt (x.pos - x.hold.length + q.2)) (toLE 32 q.1.payload.toNat)) k

/-- The elements of region `r` on plane `p` as the cut has them; what waits to be seen of them, gating and stall counters
stay. -/
def Core.rewindTo (k : Core) (r : Fin 8) (p : Plane) (cut : Cut) : Core :=
  let k := (fins 64).foldl (fun k i => (fins 4).foldl (fun k d =>
    if k.feeds r p i d then k.modLink i d fun _ => cut.links[linkIx i d] else k) k) k
  let k := (p.compsOf r).foldl (fun k c => k.modSite c.site fun x =>
    { cut.sites[c.site] with gate := x.gate, firedAt := x.firedAt, stall := x.stall }) k
  let k := (p.memsOf r).foldl (fun k m =>
    (k.modMem m.site fun x => { cut.mems[m.site] with stall := x.stall }).refill m) k
  let k := (p.agsOf r).foldl (fun k a => k.modAg a.1 fun x =>
    if a.2.sends then x.rewindSource cut.ags[a.1] (if a.2.mode = 3 then x.taken else 0) else x.rewindSink cut.ags[a.1]) k
  let k := (fins 8).foldl (fun k a => k.rewindStream r cut a) k
  k.modRegion r fun x => { x with pred := cut.preds[r] }

/-- A running region goes back to the cut of its core. -/
def Core.rewind (k : Core) (r : Fin 8) : Core :=
  match k.fab.runPlane r, k.fab.cut with
  | some p, some cut => if k.fab.regions[r].stray then k else k.rewindTo r p cut
  | _, _ => k

/-- A Weir goes back to its cut. -/
def Weir.rewind (w : Weir) : Weir :=
  match w.cut with
  | some c =>
    { w with openVec := c.openVec, received := c.received, ended := c.ended, inReg := c.inReg, outq := c.outq,
             outSeq := c.outSeq, pendFlags := c.pendFlags, poisoned := c.poisoned }
  | none => w

/-- The open rounds of a domain are given up and replayed (R239, R453): every element goes back to its cut. -/
def State.rewind (s : State) (dom : List (CoreId × Fin 8)) : State :=
  let t := (s.domainWeirs dom).foldl (fun t q => t.modWeir q Weir.rewind) s
  dom.foldl (fun t x => t.modCore x.1 fun k => k.rewind x.2) t

/-! ### Aborts (R453 to R457) -/

/-- Kind of a recovery record by the check that failed (R462): parity stands with the token it covers. -/
def checkRecord : CheckKind → Byte
  | .token _ => 4
  | .parity _ _ _ => 4
  | .residue _ _ => 5
  | .link _ => 6
  | .line _ => 4

/-- A check of the line of job `i` fails on its way through its sluice context (R457): the controller sends the line
again, and at the fourth abort of one line its stream takes fault 0x23. -/
def State.abortLine (s : State) (i : Nat) : State :=
  match s.jobs[i]? with
  | none => s
  | some j =>
    let what := siteId 4 j.ag.val
    let core := BitVec.ofNat 16 j.core.val
    let space := (s.launch j.core).space.setWidth 16
    let flow := (s.pump j.core).flow
    if j.aborts < 3 then
      { s with jobs := s.jobs.modify i fun x => { x with aborts := x.aborts + 1 } }.coalesce 4 what core space flow
    else
      let t := (s.dropJob i).recovery 7 2 0x23 what core space flow 1
      match (t.core j.core).agRun j.ag with
      | some (run, _) => t.agFault j.core j.ag 0x23 what run
      | none => t

/-- A region whose fault in the open round has not reached its pump yet is as before that fault: an abort of the round wins
over it, and a condition that is real arises again (R449, R457; log 10). -/
def Core.discardFault (k : Core) (r : Fin 8) : Core :=
  let x := k.fab.regions[r]
  match x.fault with
  | some e =>
    if x.run && x.stray && k.pump.asyncs.contains e then
      let k := k.modRegion r fun y => { y with stray := false, fault := none }
      { k with pump := { k.pump with asyncs := k.pump.asyncs.erase e } }
    else k
  | none => k

/-- An abort of the domain of region `r` (R453, R456): its open rounds are replayed, its waits on page requests end, and a
fault of one of those rounds is discarded (R457); the fourth abort without a commit raises fault 0x23 and turns the domain
stray. -/
def State.abort (s : State) (c : CoreId) (r : Fin 8) (kind : CheckKind) (element : BitVec 20) : State :=
  let u := (s.domain c r).foldl (fun t q => t.modCore q.1 fun k => k.discardFault q.2) s
  let x := (u.core c).fab.regions[r]
  if !x.run || x.stray then s
  else
    let s := u
    let dom := s.domain c r
    let total := s.domainCommits dom
    let n := if x.aborts ≠ 0 && x.abortAt = total then x.aborts + 1 else 1
    let what : Word := element.setWidth 64
    let core := BitVec.ofNat 16 c.val
    let space := (s.launch c).space.setWidth 16
    let flow := (s.pump c).flow
    let mark (t : State) : State := dom.foldl (fun t q => t.modCore q.1 fun k => k.modRegion q.2 fun y =>
      { y with aborts := n, abortAt := total, movedAt := s.now, due := none }) t
    if n < 4 then
      let t := mark (s.rewind dom)
      match kind with
      | .link port => t.coalesce 6 (port.setWidth 64) 0xFFFF 0xFFFF 0
      | _ => t.coalesce (checkRecord kind) what core space flow
    else
      ((mark s).recovery 7 2 0x23 what core space flow 1).domainFault c r what

/-- A check fails (R149, R451, R452): the word of a token, the parity bit over its sideband, which the model takes as even
(log 10), the residue modulo 3 of an integer; a link or sluice line reports its own. -/
def checkFails : CheckKind → Bool
  | .token w => (Token.ofWord? w 0 false).isNone
  | .parity scale poison bit => (List.range 8).foldl (fun b i => b ^^ scale.getLsbD i) (poison ^^ bit)
  | .residue v r => v % 3 ≠ (r.toNat : Int)
  | .link _ => true
  | .line _ => true

/-- CHECK_FAILURE_ABORT (R452, R453, R457): a check of a token, sideband, residue or link of a region, or of a sluice line. One
that does not fail changes nothing. -/
def execCheckFailureAbort (c : CoreId) (r : Fin 8) (kind : CheckKind) (element : BitVec 20) (s : State) : Out :=
  .next (if s.shut || !checkFails kind then s else match kind with
    | .line i => s.abortLine i
    | _ => (s.abort c r kind element).seen c)

/-- RECOVERY_COALESCE_EXPIRY (R463): the events a unit has held for 2^20 cycles become one record. -/
def execRecoveryCoalesceExpiry (i : Nat) (s : State) : Out :=
  .next (match s.coalesced[i]? with
    | none => s
    | some x =>
      if s.now - x.since < 2 ^ 20 then s
      else if x.count = 0 then { s with coalesced := s.coalesced.eraseIdx i }
      else
        { s with coalesced := s.coalesced.modify i fun y => { y with count := 0, since := s.now } }.recovery x.kind 0 0
          x.where_ x.core x.space x.flow x.count)

end Sys2Proof.Machine
end

