-- ==== Sys2Proof/Machine/Records.lean ====
section
/-! DEFINITION. Launch records and their checks, the slots of a pumphouse and what stands at their heads (R76, R77, R399 to
R406). -/

namespace Sys2Proof.Machine

open Sys2Proof

/-! ### Launch records (R402) -/

/-- A launch record by its fields. -/
def Record.of (bs : List Byte) : Record :=
  let f (o n : Nat) : Nat := fieldAt bs o n
  let w (o : Nat) : Word := BitVec.ofNat 64 (f o 8)
  { image := w 0x00
    args := w 0x08
    completion := w 0x10
    value := w 0x18
    seed := w 0x20
    save := w 0x28
    diag := w 0x30
    spill := w 0x38
    spillWords := f 0x40 4
    nq := f 0x44 1
    nc := f 0x45 1
    span := f 0x46 1
    prio := f 0x47 1
    still := f 0x48 1
    ring := f 0x49 1 % 2 = 1
    batches := f 0x49 1 / 2 % 2 = 1
    sites := f 0x4A 1
    deps := (List.range (min (f 0x4B 1) 4)).map fun i => (w (0x60 + 16 * i), w (0x68 + 16 * i))
    ringOffset := f 0x4C 4
    ringCount := f 0x50 2
    ringCore := f 0x52 2 }

/-- Cores of the group (R402). -/
def Record.count (r : Record) : Nat := if r.nq = 0 then r.nc else 4 * r.nq

/-- Still window W (R391, R402). -/
def Record.window (r : Record) : Nat := if r.still = 0 then 65536 else 2 ^ r.still

/-- A field out of the range of R402, a misaligned address, or a zero field that is not zero. -/
def recordBad (bs : List Byte) : Bool :=
  let f (o n : Nat) : Nat := fieldAt bs o n
  let r := Record.of bs
  let ndep := f 0x4B 1
  f 0x00 8 % 64 ≠ 0 || f 0x10 8 % 8 ≠ 0 || f 0x28 8 % 64 ≠ 0 || f 0x30 8 % 64 ≠ 0 || f 0x38 8 % 64 ≠ 0 ||
    r.spillWords % 128 ≠ 0 || 1048576 < r.spillWords || (r.spill = 0 && r.spillWords ≠ 0) ||
    64 < r.nq || (if r.nq = 0 then r.nc = 0 || 4 < r.nc else r.nc ≠ 0) || 1 < r.span || 3 < r.prio ||
    (r.still ≠ 0 && (r.still < 12 || 24 < r.still)) || 3 < f 0x49 1 || (r.batches && !r.ring) ||
    r.sites = 0 || 64 < r.sites || 4 < ndep ||
    (if r.ring then r.ringOffset % 32 ≠ 0 || r.ringCount = 0 || 1024 < r.ringCount ||
       2 ^ 21 < r.ringOffset + 32 * (r.ringCount + 1)
     else r.ringOffset ≠ 0 || r.ringCount ≠ 0 || r.ringCore ≠ 0) ||
    f 0x54 12 ≠ 0 || f 0xA0 96 ≠ 0 ||
    (List.range 4).any fun i => f (0x60 + 16 * i) 8 % 8 ≠ 0 || (ndep ≤ i && f (0x60 + 16 * i) 16 ≠ 0)

/-- A shape that the part can never hold (R406). -/
def shapeBad (part : Part) (r : Record) : Bool :=
  (16 < r.nq && r.span = 0) || part.quads < r.nq || (r.nq ≠ 0 && r.nc ≠ 0) || (r.ring && r.count ≤ r.ringCore)

/-- The code with which R76 rejects an image header, if it does. -/
def imageFault (part : Part) (bs : List Byte) : Option Code :=
  let f (o n : Nat) : Nat := fieldAt bs o n
  let entry := f 0x08 8
  let code := f 0x10 8
  let size := f 0x18 8
  if f 0x00 4 ≠ 0x4D49_584A || f 0x04 2 ≠ 0x0300 || f 0x06 2 ≠ 0 || f 0x48 24 ≠ 0 || f 0x80 32 ≠ 0 || entry % 8 ≠ 0 ||
      entry < code || code + size ≤ entry || 1024 < f 0x38 4 then some 0x10
  else if (List.range 256).any fun n => f 0x60 32 / 2 ^ n % 2 = 1 && !part.feature n then some 0x12
  else none

/-- A relocation entry (R77). -/
structure Reloc where
  offset : Nat
  bit : Nat
  width : Nat
  symbol : Nat
  deriving DecidableEq, Repr

/-- A relocation entry by its fields. -/
def Reloc.of (bs : List Byte) : Reloc :=
  { offset := fieldAt bs 0 8, bit := fieldAt bs 8 2, width := fieldAt bs 10 2, symbol := fieldAt bs 16 8 }

/-- Bytes of the unit that contains the field: a word, or a frame, record or header (R77). -/
def Reloc.unit (r : Reloc) : Nat := if r.bit + r.width ≤ 64 then 8 else 32

/-- A relocation that the loader rejects (R77). -/
def Reloc.bad (r : Reloc) : Bool := (r.width ≠ 56 && r.width ≠ 64) || 256 < r.bit + r.width || r.offset % r.unit ≠ 0

/-- A unit with the field replaced by the symbol's virtual address (R77). -/
def Reloc.apply (r : Reloc) (base old : Nat) : Nat :=
  let v := (base + r.symbol) % 2 ^ r.width
  old % 2 ^ r.bit + v * 2 ^ r.bit + old / 2 ^ (r.bit + r.width) * 2 ^ (r.bit + r.width)

/-- Place and length of the relocation table in an image header (R76). -/
def relocTable (hdr : List Byte) : Nat × Nat := (fieldAt hdr 0x40 8, 24 * fieldAt hdr 0x3C 4)

/-! ### Checks that may need a page (R404, R406) -/

/-- What a check of the pumphouse finds: it passes, it needs a page, or the record fails. -/
inductive Check where
  | ok
  | page (va : Word) (access : BitVec 3)
  | reject (code : Code)
  deriving DecidableEq, Repr

/-- The first check that does not pass. -/
def Check.all : List Check → Check
  | [] => .ok
  | .ok :: r => Check.all r
  | c :: _ => c

/-- One address that the pumphouse must use. -/
def State.addrCheck (s : State) (space : BitVec 8) (va : Word) (n : Need) : Check :=
  match s.translateIn space va n with
  | .at _ => .ok
  | .absent => .page va n.access
  | .forbidden => .reject 0x04

/-- An extent of `len` bytes, page by page. -/
def State.extentCheck (s : State) (space : BitVec 8) (va : Word) (len : Nat) (n : Need) : Check :=
  if len = 0 then .ok
  else Check.all ((pagesOf va.toNat (va.toNat + len - 1)).map fun p => s.addrCheck space (BitVec.ofNat 64 (max p va.toNat)) n)

/-- The bytes of an extent that has passed its check. -/
def State.bytesIn (s : State) (space : BitVec 8) (va : Word) (n : Nat) : List Byte := (s.readIn space va n).getD []

/-- The relocations of an image whose table can be read (R77). -/
def State.relocs (s : State) (space : BitVec 8) (image : Word) (hdr : List Byte) : List Reloc :=
  let (o, n) := relocTable hdr
  (chunks 24 (s.bytesIn space (image + BitVec.ofNat 64 o) n)).map Reloc.of

/-- The relocation table and the units it names can be read, and no entry is rejected (R77, R406). -/
def State.relocCheck (s : State) (space : BitVec 8) (image : Word) (hdr : List Byte) : Check :=
  let (o, n) := relocTable hdr
  let table := s.extentCheck space (image + BitVec.ofNat 64 o) n .rd
  if table ≠ .ok then table
  else
    let rs := s.relocs space image hdr
    if rs.any Reloc.bad then .reject 0x10
    else Check.all (rs.map fun r => s.extentCheck space (image + BitVec.ofNat 64 r.offset) r.unit .rd)

/-- The loader writes the symbols' addresses into the image (R47, R77). -/
def State.relocate (s : State) (space : BitVec 8) (image : Word) (hdr : List Byte) : State :=
  (s.relocs space image hdr).foldl (fun t r =>
    match t.translateIn space (image + BitVec.ofNat 64 r.offset) .rd with
    | .at pa => t.engineWrite .house pa (toLE r.unit (r.apply image.toNat (leNat (t.mem.read pa r.unit))))
    | _ => t) s

/-- The checks of R406, in its order. -/
def State.recordCheck (s : State) (space : BitVec 8) (bs : List Byte) : Check :=
  let r := Record.of bs
  if recordBad bs then .reject 0x10
  else
    let areas := Check.all [s.extentCheck space r.save (0x40_0000 * r.count) .rw,
      s.extentCheck space r.diag (2048 * r.count) .rw, s.extentCheck space r.spill (8 * r.spillWords * r.count) .rw]
    if areas ≠ .ok then areas
    else if shapeBad s.part r then .reject 0x10
    else
      let image := s.extentCheck space r.image 160 .rd
      if image ≠ .ok then image
      else match imageFault s.part (s.bytesIn space r.image 160) with
        | some code => .reject code
        | none =>
          Check.all (s.relocCheck space r.image (s.bytesIn space r.image 160) :: (if r.completion = 0 then Check.ok else s.addrCheck space r.completion .wr) ::
            r.deps.map fun d => s.addrCheck space d.1 .rd)

/-! ### Queues and slots (R403) -/

/-- The records pending in a queue: its doorbell word, when it translates, above its head (R399). -/
def State.pendingOf (s : State) (q : Queue) : Nat :=
  match s.doorbell q with
  | .at pa => (s.bellAt q pa).toNat - q.head.toNat
  | _ => 0

/-- The 256 bytes of the head record, or what their read needs. -/
def State.headRecord (s : State) (q : Queue) : Except Check (List Byte) :=
  let va := q.recordAt q.head.toNat
  match s.extentCheck q.space va 256 .rd with
  | .ok => .ok (s.bytesIn q.space va 256)
  | c => .error c

/-- What stands at the head of a queue: a pre-empted flow, a pending record, or nothing (R403). -/
inductive Head where
  | flow (f : Flow)
  | record (bs : List Byte)
  | blocked (c : Check)
  | none
  deriving DecidableEq, Repr

/-- The head of a queue. -/
def State.headOf (s : State) (q : Nat) : Head :=
  match s.waitingFlows q with
  | f :: _ => .flow f
  | [] =>
    match s.queue? q with
    | some x =>
      if x.err || s.pendingOf x = 0 then .none
      else match s.headRecord x with
        | .ok bs => .record bs
        | .error c => .blocked c
    | none => .none

/-- The priority of a head (R405). -/
def Head.prio : Head → Nat
  | .flow f => f.rec_.prio
  | .record bs => min (fieldAt bs 0x47 1) 3
  | .blocked _ => 0
  | .none => 0

/-- Slots whose queue holds nothing, or is in the error state, are freed (R403). -/
def State.unmapStale (s : State) (d : Fin 4) : State :=
  s.modHouse d fun h => { h with slots := mapVec (fun o => o.bind fun x =>
    let pending := match s.queue? x.queue.val with
      | some q => !q.err && s.pendingOf q ≠ 0
      | none => false
    if !pending && (s.waitingFlows x.queue.val).isEmpty then none else some x) h.slots }

/-- The pumphouse reads the doorbell word of a queue, as an acquire at `.pod` (R474). -/
def State.readBell (s : State) (q : Queue) : State :=
  match s.doorbell q with
  | .at pa => (s.readNewest .house .memory pa 8).acquireAt .house .pod .memory pa 8
  | _ => s

/-- The same for the queue of a number, where it is created. -/
def State.readBellOf (s : State) (q : Nat) : State := ((s.queue? q).map s.readBell).getD s

/-- The reads of the pumphouses that this event has made are over: their next ones return the writes performed by now (R485). -/
def State.houseDone (s : State) : State := s.keepLag fun e => e.viewer ≠ .house

/-- The head of a slot has changed: base level and pass count start again (R405). -/
def State.newHead (s : State) (q : Nat) : State :=
  match s.mappedAt q with
  | some (d, i) =>
    let s := s.readBellOf q
    let prio := (s.headOf q).prio
    s.modSlot d i fun x => some { x with base := prio, effective := prio, passes := 0, ready := false, page := none }
  | none => s

/-- A record fails: the queue enters the error state and is unmapped, head stays (R406). -/
def State.rejectRecord (s : State) (q : Nat) (code : Code) : State :=
  ((s.queueError q code 0).modQueue q fun x => { x with rejected := true }).unmap q

/-- Outstanding page requests of a queue's doorbell word, when it has no entry. -/
def State.doorbellPage (s : State) (q : Queue) : State :=
  match s.doorbell q with
  | .absent => (s.postPage q.doorbell Need.rw.access 8 q.space 0 none).1
  | _ => s

/-- Distance of a queue number above the one mapped last, wrapping (R403). -/
def aboveLast (last q : Fin 256) : Nat := (q.val + 255 - last.val) % 256

/-- The numbers of a die's unmapped queues that are created and not in the error state, or of destroyed queues that have
left pre-empted flows (R403, R475). -/
def State.unmapped (s : State) (d : Fin 4) : List (Fin 256) :=
  (fins 256).filter fun q => q.val / 64 = d.val && (s.mappedAt q.val).isNone &&
    match s.queue? q.val with
    | some x => !x.err || !(s.waitingFlows q.val).isEmpty
    | none => !(s.saved q.val).isEmpty

/-- A queue that the pumphouse may map: it has pending records or pre-empted flows (R403). -/
def State.mappable (s : State) (q : Fin 256) : Bool :=
  !(s.waitingFlows q.val).isEmpty || match s.queue? q.val with
    | some x => !x.err && s.pendingOf x ≠ 0
    | none => false

/-- QUEUE_MAP (R403): the queue to map with the highest head priority. -/
def State.queueMap (s : State) (d : Fin 4) : State :=
  let s := s.unmapStale d
  let s := (s.unmapped d).foldl (fun s q => match s.queue? q.val with
    | some x => (s.doorbellPage x).readBell x
    | none => s) s
  let best := ((s.unmapped d).filter s.mappable).foldl (fun (m : Option (Fin 256)) q => match m with
    | none => some q
    | some o =>
      let a := (s.headOf q.val).prio
      let b := (s.headOf o.val).prio
      if b < a || (a = b && aboveLast (s.houses[d]).lastMapped q < aboveLast (s.houses[d]).lastMapped o) then some q
      else some o) none
  match best, (fins 16).find? fun i => (s.slotAt d i).isNone with
  | some q, some i =>
    let prio := (s.headOf q.val).prio
    s.modHouse d fun h =>
      { h with
        slots := setAt h.slots i (some { queue := q, base := prio, effective := prio, passes := 0, ready := false, page := none })
        lastMapped := q }
  | _, _ => s

/-- QUEUE_MAP. -/
def execQueueMap (die : Fin 4) (s : State) : Out := .next (if s.shut then s else (s.queueMap die).houseDone)

/-- The pumphouse posts the request that a slot's head needs (R406). -/
def State.slotPage (s : State) (d : Fin 4) (i : Fin 16) (space : BitVec 8) (va : Word) (access : BitVec 3) : State :=
  let (t, id) := s.postPage va access 8 space 0 none
  t.modSlot d i fun x => some { x with page := some id }

/-- Every dependence of a record is met (R404). -/
def State.depsMet (s : State) (space : BitVec 8) (r : Record) : Bool :=
  r.deps.all fun d => match s.translateIn space d.1 .rd with
    | .at pa => d.2.ule (leWord (s.houseBytes pa 8))
    | _ => false

/-- The reads of the dependences of a record are acquires at `.pod` (R404). -/
def State.readDeps (s : State) (space : BitVec 8) (r : Record) : State :=
  r.deps.foldl (fun t d => match t.translateIn space d.1 .rd with
    | .at pa => (t.noteRead .house .memory pa 8).acquireAt .house .pod .memory pa 8
    | _ => t) s

/-- A head that could not be read before gives its slot its level (R405). -/
def Slot.level (x : Slot) (prio : Nat) : Slot :=
  if x.base = prio then x else { x with base := prio, effective := prio, passes := 0 }

/-- The head of a slot is checked and its dependences are read (R404, R406), those of a pre-empted flow as well. -/
def State.pollSlot (s : State) (d : Fin 4) (i : Fin 16) : State :=
  match s.slotAt d i with
  | none => s
  | some x =>
    if x.page.isSome then s
    else
      let s := s.readBellOf x.queue.val
      match s.headOf x.queue.val, s.queue? x.queue.val with
      | .flow f, _ => (s.readDeps f.space f.rec_).modSlot d i fun y => some { y with ready := y.ready || s.depsMet f.space f.rec_ }
      | .record bs, some q =>
        (match s.recordCheck q.space bs with
          | .ok => (s.readDeps q.space (Record.of bs)).modSlot d i fun y => some
              { y.level (Head.record bs).prio with ready := y.ready || s.depsMet q.space (Record.of bs) }
          | .page va access => s.slotPage d i q.space va access
          | .reject code => s.rejectRecord x.queue.val code)
      | .blocked (.page va access), some q => s.slotPage d i q.space va access
      | .blocked (.reject code), _ => s.rejectRecord x.queue.val code
      | _, _ => s

/-- The slot of a queue re-reads what its head waits for (R404). -/
def State.pollQueue (s : State) (q : Nat) : State :=
  match s.mappedAt q with
  | some (d, i) => (s.pollSlot d i).houseDone
  | none => s

/-- All slots of the package do (R404). -/
def State.pollAll (s : State) : State := ((fins 4).foldl (fun s d => (fins 16).foldl (fun s i => s.pollSlot d i) s) s).houseDone

/-- A write of a notify register (R401), with which its queue's slot re-reads its dependences (R404). -/
def State.notified (s : State) (q : Queue) (b : Word) : State := (s.notifyQueue q b).pollQueue q.num.val

/-- DEPENDENCE_POLL (R404). -/
def execDependencePoll (die : Fin 4) (slot : Fin 16) (s : State) : Out := .next (if s.shut then s else (s.pollSlot die slot).houseDone)

end Sys2Proof.Machine
end

