-- ==== Sys2Proof/Machine/Work.lean ====
section
/-! DEFINITION. The work deque, `launch` and `notify` (R411 to R415). -/

namespace Sys2Proof.Machine

open Sys2Proof

/-! ### The deque (R411 to R413) -/

/-- Words the hardware part holds (R411). -/
def dequeSize : Nat := 256

/-- Virtual address of spilled word `i` of a core (R411). -/
def Launch.spillAt (l : Launch) (i : Nat) : Word := l.spill + BitVec.ofNat 64 (8 * l.spillWords * l.rank + 8 * i)

/-- Where the deque engine of core `k` finds spilled word `i` (R431); the stop is raised by the pump that needs it
(R436). -/
def State.spillPa (s : State) (k : CoreId) (i : Nat) (n : Need) : Except Stop Nat :=
  let a := (s.launch k).spillAt i
  match s.translate k a n with
  | .at pa => .ok pa
  | .absent => .error (.page a n.access)
  | .forbidden => .error (fault 0x04 a)

/-- Read `n` spilled words of core `k` from word `i` on, the oldest first. -/
def State.readSpill (s : State) (k : CoreId) (i : Nat) : Nat → Except Stop (List Word)
  | 0 => .ok []
  | n + 1 => do
    let pa ← s.spillPa k i .rd
    guardStop (s.lineStop pa ((s.launch k).spillAt i))
    let r ← State.readSpill s k (i + 1) n
    return leWord (s.view k pa 8) :: r

/-- Write words to the spill part of core `k` from word `i` on. -/
def State.writeSpill (s : State) (k : CoreId) (i : Nat) : List Word → Except Stop State
  | [] => .ok s
  | w :: r => do
    let pa ← s.spillPa k i .wr
    State.writeSpill (s.engineWrite (.pump k) pa (toLE 8 w.toNat)) k (i + 1) r

/-- Words of the logical deque (R411). -/
def Core.dequeLen (k : Core) : Nat := k.spilled + k.deque.length

/-- `dqpush`: appends at the bottom, spilling the 128 oldest words of a full hardware part, as many as the spill part
has room for (R411, R412; log 25); a release at `.die` (R413). -/
def State.dqpushTry (s : State) (c : CoreId) (a : Reg) : Except Stop State := do
  let v := (s.pump c).read a
  let l := s.launch c
  let k := s.core c
  if v = 0 then return s.goOn c
  if dequeSize + l.spillWords ≤ k.dequeLen then
    throw (fault 0x04 (l.spill + BitVec.ofNat 64 (8 * l.spillWords * (l.rank + 1))))
  let s := s.release c
  let t := (s.markRelease c .die .push).modCore c fun x => { x with pushes := x.pushes ++ [s.serial] }
  if k.deque.length < dequeSize then
    return (t.modCore c fun x => { x with deque := x.deque ++ [v] }).goOn c
  else
    let n := min 128 (l.spillWords - k.spilled)
    let t ← t.writeSpill c k.spilled (k.deque.take n)
    return (t.modCore c fun x =>
      { x with deque := x.deque.drop n ++ [v], spilled := x.spilled + n }).goOn c

/-- `dqpush` (R412). -/
def execDqpush (a : Reg) (s : State) : Out := s.outcome s.cur (.dqpush a) (s.dqpushTry s.cur a)

/-- What a read of word `n` of the logical deque of core `k` meets: poison, or an error not met before (R461). R461 gives
the address for a word of a cistern: a deque has none, and the model gives 0 (log 11). -/
def State.dequeStop (s : State) (k : CoreId) (n : Nat) : Option Stop :=
  match (s.core k).dequeBad.find? (·.1 = n) with
  | some (_, true) => some (fault 0x21 0)
  | some (_, false) => some (.damage (.deque k n) 0x20 0)
  | none => none

/-- Move the newest spilled words back when the hardware part is empty (R411). -/
def State.refill (s : State) (c : CoreId) : Except Stop State := do
  let k := s.core c
  if k.deque.isEmpty && k.spilled ≠ 0 then
    let n := min 128 k.spilled
    let ws ← s.readSpill c (k.spilled - n) n
    return s.modCore c fun x => { x with deque := ws, spilled := x.spilled - n }
  else return s

/-- The acquire at `.die` of a `dqpop` or `dqsteal` synchronizes with the `dqpush` that placed the word (R413). -/
def State.acquirePush (s : State) (c : CoreId) (id : Option Nat) : State :=
  s.acquireWhere (.pump c) .die fun r => r.kind = .push && some r.id = id

/-- `dqpop` (R412): the bottom word, 0 when the deque is empty; with a word it is an acquire at `.die` (R413). -/
def State.dqpopTry (s : State) (c : CoreId) (d : Reg) : Except Stop State := do
  let t ← s.refill c
  let q := (t.core c).deque
  guardStop (if q.isEmpty then none else t.dequeStop c ((t.core c).dequeLen - 1))
  let t := if q.isEmpty then t else t.acquirePush c (t.core c).pushes.getLast?
  return (t.modCore c fun x => { x with deque := q.dropLast, pushes := x.pushes.dropLast }).giveResult c d (q.getLast?.getD 0)

/-- `dqpop` (R412). -/
def execDqpop (d : Reg) (s : State) : Out := s.outcome s.cur (.dqpop d) (s.dqpopTry s.cur d)

/-- Take the top word of core `k`: from the base of the spill part, the others moving down, else from the hardware
part (R411). -/
def State.takeTop (s : State) (k : CoreId) : Except Stop (State × Word) := do
  let x := s.core k
  guardStop (s.dequeStop k 0)
  let moved (y : Core) : Core := { y with pushes := y.pushes.drop 1, dequeBad := y.dequeBad.map fun q => (q.1 - 1, q.2) }
  if x.spilled ≠ 0 then
    let ws ← s.readSpill k 0 x.spilled
    let t ← s.writeSpill k 0 (ws.drop 1)
    return (t.modCore k fun y => { moved y with spilled := y.spilled - 1 }, ws.headD 0)
  else return (s.modCore k fun y => { moved y with deque := y.deque.drop 1 }, x.deque.headD 0)

/-- `dqsteal` (R412): a core outside the issuing core's die or group, or bits above the core number, is fault 0x04. With a word
it is an acquire at `.die` (R413). -/
def State.dqstealTry (s : State) (c : CoreId) (d a : Reg) : Except Stop State := do
  let v := (s.pump c).read a
  let k : CoreId := Fin.ofNat 256 v.toNat
  if 256 ≤ v.toNat || k.val / 64 ≠ c.val / 64 || !(s.launch c).group.contains k then throw (fault 0x04 v)
  let (t, w) ← s.takeTop k
  return (if w = 0 then t else t.acquirePush c (s.core k).pushes.head?).giveResult c d w

/-- `dqsteal` (R412). -/
def execDqsteal (d a : Reg) (s : State) : Out := s.outcome s.cur (.dqsteal d a) (s.dqstealTry s.cur d a)

/-- `dqlen` (R412). -/
def execDqlen (d : Reg) (s : State) : Out :=
  .next (s.giveResult s.cur d (BitVec.ofNat 64 (s.core s.cur).dequeLen))

/-! ### launch and notify (R414, R415) -/

/-- An access of the pumphouse to the queue's own memory, as the stop a `launch` meets. -/
def State.queuePa (s : State) (q : Queue) (a : Word) (n : Need) : Except Stop Nat :=
  match s.translateIn q.space a n with
  | .at pa => .ok pa
  | .absent => .error (.page a n.access)
  | .forbidden => .error (fault 0x04 a)

/-- The queue that dispatched the flow of core `c`, unless it has been destroyed (R414). -/
def State.ownQueue (s : State) (c : CoreId) : Option Queue :=
  match s.flow? (s.pump c).flow with
  | some f => if f.orphan then none else s.queue? f.queue.val
  | none => s.queue? (s.launch c).queue

/-- `launch` (R414): a release at `.pod`; it waits while the queue is full. The pumphouse makes the access of the doorbell
word: without an entry the `launch` waits, as it does behind notifies that wait, and where the access is forbidden the
queue enters the error state and nothing is appended (R401; log 90). -/
def State.launchTry (s : State) (c : CoreId) (a : Reg) : Except Stop State := do
  let v := (s.pump c).read a
  if v.toNat % 64 ≠ 0 then throw (fault 0x02 v)
  match s.ownQueue c with
  | none => throw (fault 0x04 v)
  | some q =>
    if q.page.isSome then throw (.page q.doorbell Need.rw.access)
    match s.doorbell q with
    | .absent => throw (.page q.doorbell Need.rw.access)
    | .forbidden => return (s.notifyQueue q 0).goOn c
    | .at dpa =>
      let tail := s.bellAt q dpa
      if 2 ^ q.log2n ≤ tail.toNat - q.head.toNat then throw (.wait none)
      let bs ← s.loadWords c v 32
      let rpa ← s.queuePa q (q.recordAt tail.toNat) .wr
      let t := ((s.release c).engineWriteAll (.pump c) rpa bs 2).toHouses (.pump c)
      return ((t.raiseDoorbell q dpa (tail + 1)).pollQueue q.num.val).goOn c

/-- `launch` (R414). -/
def execLaunch (a : Reg) (s : State) : Out := s.outcome s.cur (.launch a) (s.launchTry s.cur a)

/-- `notify` (R415, R444): a release at `.pod`; a queue that is not created, or of another space, is fault 0x04. -/
def execNotify (a b : Reg) (s : State) : Out :=
  let v := (s.pump s.cur).read a
  s.outcome s.cur (.notify a b) do
    if 256 ≤ v.toNat then throw (fault 0x04 v)
    match s.queue? v.toNat with
    | none => throw (fault 0x04 v)
    | some q =>
      if q.space ≠ (s.launch s.cur).space then throw (fault 0x04 v)
      return (((s.release s.cur).toHouses (.pump s.cur)).notified q ((s.pump s.cur).read b)).goOn s.cur

end Sys2Proof.Machine
end

