-- ==== Sys2Proof/Machine/PumpEvents.lean ====
section
/-! DEFINITION. The steps of a pump that no word carries: asynchronous traps, the ends of waits, and the still windows
of `lds`, `waith` and `launch` (R120, R280, R287, R297, R298, R303, R307, R313, R318, R414). -/

namespace Sys2Proof.Machine

open Sys2Proof

/-- The blocked instruction is abandoned: a `bar` keeps its arrival and is marked (R319). -/
def State.abandon (s : State) (c : CoreId) : State :=
  match (s.pump c).block with
  | some (.bar scope) => s.markBar c scope
  | _ => s

/-- ASYNC_TRAP_TAKEN (R120): `s.epc` is the abandoned instruction, or the first one not yet executed. -/
def execAsyncTrapTaken (c : CoreId) (s : State) : Out :=
  let p := s.pump c
  .next (match firstCause p.asyncs with
    | none => s
    | some cause =>
      if p.run ≠ .running || !p.asyncReady then s
      else (s.abandon c).takeAsync c cause p.pc)

/-- WAITH_RESUME (R307). -/
def execWaithResume (c : CoreId) (s : State) : Out :=
  .next (match (s.pump c).block with
    | some (.waith a h n) => s.retry c (.waith a h n) fun t => t.waithTry c a h n
    | _ => s)

/-- LDS_RESUME (R297). -/
def execLdsResume (c : CoreId) (s : State) : Out :=
  .next (match (s.pump c).block with
    | some (.lds d a imm) => s.retry c (.lds d a imm) fun t => t.ldsTry c d a imm
    | _ => s)

/-- BARW_RELEASE (R280, R319): a `bar` that ends in fault 0x19 keeps its arrival (log 26). -/
def execBarwRelease (c : CoreId) (s : State) : Out :=
  .next (match (s.pump c).block with
    | some (.barw scope) => s.retry c (.barw scope) fun t => t.barwTry c scope
    | some (.bar scope) =>
      let t := s.modPump c fun p => p.unblock s.now
      match t.barWait c scope with
      | .ok u => u
      | .error (.wait _) => s
      | .error e => (t.markBar c scope).stop c (.bar scope) e
    | _ => s)

/-- NMF_RETURN (R287). -/
def execNmfReturn (c : CoreId) (s : State) : Out :=
  .next (match (s.pump c).block with
    | some .nmf => s.retry c .nmf fun t => t.nmfTry c
    | _ => s)

/-- NMA_LIMIT_RELEASE (R303). -/
def execNmaLimitRelease (c : CoreId) (s : State) : Out :=
  .next (match (s.pump c).block with
    | some (.nma op d a imm) => s.retry c (.nma op d a imm) fun t => t.nmaTry c op d a imm
    | _ => s)

/-- GLD_COMPLETE (R221): a `gld` that waited on a page request (log 23). -/
def execGldComplete (c : CoreId) (s : State) : Out :=
  .next (match (s.pump c).block with
    | some (.gld a) => s.retry c (.gld a) fun t => t.gldTry c a
    | _ => s)

/-- HALT_TAKES_EFFECT (R318, R322, R359): at most 256 completion records wait, so an end that would exceed them waits. -/
def execHaltTakesEffect (c : CoreId) (s : State) : Out :=
  .next (match (s.pump c).block with
    | some .halt =>
      match (s.pump c).load, (s.pump c).heldAny with
      | none, some e => s.raiseHeld c e
      | _, _ => s.retry c .halt fun t => t.haltTry c
    | _ => s)

/-- LAUNCH_RESUME (R414). -/
def execLaunchResume (c : CoreId) (s : State) : Out :=
  .next (match (s.pump c).block with
    | some (.launch a) => s.retry c (.launch a) fun t => t.launchTry c a
    | _ => s)

/-! ### Still windows -/

/-- An attempt that must wait. -/
def mustWait (r : Except Stop State) : Bool :=
  match r with
  | .error (.wait _) => true
  | _ => false

/-- The pump of core `c` is blocked, without a page request, and was not issued again meanwhile. -/
def State.blockedFor (s : State) (c : CoreId) (n : Nat) : Bool :=
  (s.pump c).run = .running && (s.pump c).page.isNone && n ≤ s.now - (s.pump c).blockedAt

/-- A stream of the core's handles is active. -/
def Pump.streaming (p : Pump) : Bool := (fins 64).any fun h => liveStream ((p.handles[h]).bind (·.stream))

/-- A window of a peer group onto the banks of core `k` is open (R298, R440). -/
def State.peerWindow (s : State) (k : CoreId) : Bool :=
  match s.flowOf k with
  | none => false
  | some f => f.cluster.isSome && s.flows.any fun g => g.num ≠ f.num && g.cluster = f.cluster && g.born = f.born && g.state = .running

/-- LDS_STILL_TIMEOUT (R298): W cycles with no region running, no stream active and no window open. -/
def execLdsStillTimeout (c : CoreId) (s : State) : Out :=
  let w := (s.launch c).window
  .next (match (s.pump c).block with
    | some (.lds d a imm) =>
      let ea := (s.pump c).ea a imm
      let bank := match s.cisternPlace c ea with
        | .here k _ => k
        | _ => c
      let quiet := !(s.core c).fab.anyRunning && !(s.pump c).streaming && !s.peerWindow bank &&
        w ≤ s.now - (s.core c).activeAt
      if s.blockedFor c w && quiet && mustWait (s.ldsTry c d a imm) then s.stop c (.lds d a imm) (fault 0x19 ea) else s
    | _ => s)

/-- The stream of a handle has moved no token for `w` cycles (R313). -/
def State.streamStill (s : State) (c : CoreId) (h : BitVec 6) (w : Nat) : Bool :=
  match (s.pump c).streamOf ((s.pump c).ringOf h) with
  | none => true
  | some t => w ≤ s.now - t.movedAt

/-- WAITH_STILL_TIMEOUT (R313). -/
def execWaithStillTimeout (c : CoreId) (s : State) : Out :=
  let w := (s.launch c).window
  .next (match (s.pump c).block with
    | some (.waith a h n) =>
      if s.blockedFor c w && s.streamStill c h w && mustWait (s.waithTry c a h n) then
        s.stop c (.waith a h n) (fault 0x18 (h.setWidth 64))
      else s
    | _ => s)

/-- LAUNCH_STILL_TIMEOUT (R414): nothing is appended. -/
def execLaunchStillTimeout (c : CoreId) (s : State) : Out :=
  .next (match (s.pump c).block with
    | some (.launch a) =>
      if s.blockedFor c (s.launch c).window && mustWait (s.launchTry c a) then
        s.stop c (.launch a) (fault 0x18 ((s.pump c).read a))
      else s
    | _ => s)

end Sys2Proof.Machine
end

