-- ==== Sys2Proof/Machine/House.lean ====
section
/-! DEFINITION. Pumphouses: placement, dispatch of new flows, and what frees cores (R407 to R410, R439, R442). -/

namespace Sys2Proof.Machine

open Sys2Proof

/-! ### Placement (R407) -/

/-- The flow holds its cores: until it is saved, and after its end while its cluster lives (R439). -/
def Flow.holds (f : Flow) : Bool := f.state ≠ .saved

/-- A core of the part that is usable. -/
def State.usable (s : State) (c : CoreId) : Bool := c.val < s.part.cores && !s.badCores.contains c

/-- Usable compute sites of a core (R407). -/
def State.sitesOf (s : State) (c : CoreId) : Nat :=
  match s.siteCount.find? (·.1 = c) with
  | some x => x.2
  | none => 64

/-- A core that a group may take: usable, free, with enough sites. -/
def State.qualifies (s : State) (taken : List CoreId) (r : Record) (c : CoreId) : Bool :=
  s.usable c && !taken.contains c && r.sites ≤ s.sitesOf c && !s.flows.any fun f => f.holds && f.cores.contains c

/-- The cores of a quad that qualify. -/
def State.quadCores (s : State) (taken : List CoreId) (r : Record) (q : Nat) : List CoreId :=
  ((List.range 4).map fun i => coreOf (Fin.ofNat 64 q) i).filter (s.qualifies taken r)

/-- The quads a pumphouse may use: its own die's, or with span 1 the package's. -/
def State.quadsFor (s : State) (r : Record) (d : Fin 4) : List Nat :=
  if r.span = 0 then (List.range 16).map (16 * d.val + ·) else List.range s.part.quads

/-- A placement, if one exists. -/
def State.findPlace (s : State) (taken : List CoreId) (r : Record) (d : Fin 4) : Option (List CoreId) :=
  if r.nq = 0 then
    ((s.quadsFor r d).find? fun q => r.nc ≤ (s.quadCores taken r q).length).map fun q => (s.quadCores taken r q).take r.nc
  else
    let qs := (s.quadsFor r d).filter fun q => (s.quadCores taken r q).length = 4
    if qs.length < r.nq then none
    else some ((qs.take r.nq).map fun q => (List.range 4).map fun i => coreOf (Fin.ofNat 64 q) i).flatten

/-- A list of cores is a placement: rising, all qualifying, of the shape (R407). -/
def State.placeOk (s : State) (taken : List CoreId) (r : Record) (d : Fin 4) (cs : List CoreId) : Bool :=
  let quads := (cs.map fun c => c.val / 4).dedup
  (cs.length = r.count) && ((cs.zip (cs.drop 1)).all fun p => p.1 < p.2) && cs.all (s.qualifies taken r) &&
    quads.all (fun q => (s.quadsFor r d).contains q) && (if r.nq = 0 then quads.length = 1 else quads.length = r.nq)

/-- The placement taken: the one offered when it is one, else the first that exists (R407). -/
def State.choosePlace (s : State) (taken : List CoreId) (r : Record) (d : Fin 4) (offer : Option (List CoreId)) :
    Option (List CoreId) :=
  match offer with
  | some cs => if s.placeOk taken r d cs then some cs else s.findPlace taken r d
  | none => s.findPlace taken r d

/-! ### Freeing cores (R442) -/

/-- A core cleared for another flow: cycle counter, translations and storage stay. -/
def Core.scrub (k : Core) (now : Nat) : Core := { Core.reset with tlb := k.tlb, walks := k.walks, resetAt := k.resetAt, activeAt := now }

/-- The writes of a core under way are performed, then the lines of rounds that its AG sites have committed (R485). -/
def State.flushCore (s : State) (c : CoreId) : State :=
  (fins 8).foldl (fun t a => match (t.core c).agRun a with
    | some (run, _) => t.flushWrites c a run
    | none => t) (s.performWhere fun w => w.core = c)

/-- What a core still has under way is performed or dropped: writes in order, then the work of its AG sites. -/
def State.settleCore (s : State) (c : CoreId) : State :=
  let t := s.flushCore c
  let t := (fins 64).foldl (fun t h => t.dropFold c (BitVec.ofNat 6 h.val)) t
  { t with jobs := t.jobs.filter fun j => j.core ≠ c }

/-- The cores of a flow are scrubbed, and the Weirs of the quads it holds are emptied (R217, R442). -/
def State.scrubCores (s : State) (cs : List CoreId) : State :=
  let t := cs.foldl (fun t c => ((t.settleCore c).clearLag c).modCore c fun k => k.scrub s.now) s
  (cs.map weirOf).dedup.foldl (fun t q =>
    if (List.range 4).all fun i => cs.contains (coreOf q i) then t.modWeir q fun _ => Weir.reset else t) t

/-- Flows first dispatched together as one cluster (R439). -/
def Flow.peer (f g : Flow) : Bool := g.num = f.num || (f.cluster.isSome && g.cluster = f.cluster && g.born = f.born)

/-- A flow that has left its cores for good. -/
def Flow.over (f : Flow) : Bool := f.state = .retired || f.state = .ended

/-- Once every flow of a cluster is over, its cores are scrubbed and given back (R439, R442). -/
def State.closeCluster (s : State) (f : Flow) : State :=
  let all := s.flows.filter f.peer
  if all.all Flow.over then
    let t := all.foldl (fun t g => t.scrubCores g.cores) s
    { t with flows := t.flows.filter fun g => !f.peer g }
  else s

/-- Sluice contexts of a flow are released (R352). -/
def State.releaseSluice (s : State) (n : BitVec 32) : State :=
  { s with sluice := mapVec (fun o => o.bind fun x => if x.owner = n then none else some x) s.sluice }

/-! ### Dispatch (R39, R405, R410) -/

/-- The entry state of a pump (R39, R97, R410). -/
def entryPump (r : Record) (num : BitVec 32) (rank count : Nat) (pc : Word) (now : Nat) : Pump :=
  let p := Pump.reset
  { p with
    g := setAt (setAt (setAt p.g 1 r.args) 2 (BitVec.ofNat 64 rank)) 3 (BitVec.ofNat 64 count)
    pc := pc
    seed := r.seed
    flow := num
    prio := BitVec.ofNat 2 r.prio
    run := .running
    issuedAt := now }

/-- The launch state of a core (R39, R75, R394, R402, R411). -/
def launchOf (r : Record) (hdr : List Byte) (space : BitVec 8) (queue : Fin 256) (cores : List CoreId) (rank : Nat)
    (cluster : Option (Fin 32)) (slot : Fin 8) : Launch :=
  let f (o n : Nat) : Nat := fieldAt hdr o n
  { space := space
    queue := queue.val
    image := r.image
    codeLo := r.image.toNat + f 0x10 8
    codeHi := r.image.toNat + f 0x10 8 + f 0x18 8
    tables := r.image + BitVec.ofNat 64 (f 0x30 8)
    tableCount := f 0x38 4
    rank := rank
    group := cores
    diag := r.diag
    window := r.window
    spill := r.spill
    spillWords := r.spillWords
    sites := r.sites
    cluster := cluster
    slot := slot
    ring := if r.ring then (cores[r.ringCore]?).map fun c => (c, r.ringOffset, r.ringCount) else none
    batches := r.batches }

/-- A record is placed on cores (R410): its flow gets the next number, its cores their entry state, and head moves on. What the
pumphouse has acquired happens before what its pumps do (R404). -/
def State.placeRecord (s : State) (q : Queue) (bs : List Byte) (cores : List CoreId) (order : Nat) : State :=
  let r := Record.of bs
  let hdr := s.bytesIn q.space r.image 160
  let num := s.nextFlow
  let pc := r.image + BitVec.ofNat 64 (fieldAt hdr 0x08 8)
  let f : Flow := { num := num, queue := q.num, space := q.space, rec_ := r, cores := cores, state := .running, order := order,
                    born := order, kept := [], keptWeirs := [], keptSluice := [], fate := none, ringNext := 0, due := [], page := none, cluster := q.cluster, slot := q.slot,
                    lost := [], orphan := false }
  let t := { s.relocate q.space r.image hdr with flows := s.flows ++ [f], nextFlow := num + 1 }
  let t := cores.zipIdx.foldl (fun t x => (t.clearLag x.1).modCore x.1 fun k =>
    { k.scrub s.now with
      pump := entryPump r num x.2 cores.length pc s.now
      launch := launchOf r hdr q.space q.num cores x.2 q.cluster q.slot }) t
  let t := cores.foldl (fun t c => t.passOn .house (.pump c)) t
  (t.modQueue q.num.val fun y => { y with head := y.head + 1 }).newHead q.num.val

end Sys2Proof.Machine
end

