-- ==== Sys2Proof/Machine/Save.lean ====
section
/-! DEFINITION. Pre-emption: what a save writes and what a resume reads back (R234, R317, R417, R418, R443, R464 to
R469). -/

namespace Sys2Proof.Machine

open Sys2Proof

/-! ### The save area as bytes (R464 to R468) -/

/-- Bytes of a core's block. -/
def blockSize : Nat := 0x40_0000

/-- A list cut or filled with zeros to `n` bytes. -/
def fit (n : Nat) (bs : List Byte) : List Byte := bs.take n ++ List.replicate (n - bs.length) 0

/-- Up to `n` bytes of free values from counter `t` on (log 16). -/
def freeBytes (t n : Nat) : List Byte := (List.range n).map fun i => Config.elementByte (t + i)

/-- Pending asynchronous traps in delivery order (R120, R466). -/
def Pump.asyncsByCode (p : Pump) : List Cause := p.asyncs.mergeSort fun a b => a.code.ule b.code

/-- The pump registers (R466), 4,032 bytes from offset 0x40. -/
def Pump.saveBytes (p : Pump) : List Byte :=
  let regs := toLE 8 0 ++ ((p.g.toList.drop 1).map fun v => toLE 8 v.toNat).flatten ++
    (p.k.toList.map fun v => toLE 8 v.toNat).flatten ++ toLE 8 p.last.toNat ++ toLE 8 p.savedLast.toNat
  let sys := ([p.status, p.tvec, p.tcause.word, p.tcause.tval, p.epc, p.fflags.setWidth 64, p.seed, p.stallWord].map fun v =>
    toLE 8 v.toNat).flatten
  let tags := p.q.toList.map fun q => (q.tag.code.setWidth 8 : Byte)
  let atoms := (p.q.toList.map fun q => toLE 16 q.val.toNat).flatten
  let traps := (p.asyncsByCode.take 8).map fun c => toLE 8 c.word.toNat ++ toLE 8 c.tval.toNat
  let held := (p.held.take 4).map fun h => toLE 8 (h.code.toNat + 256 * (h.plane.toNat % 4)) ++ toLE 8 h.offset.toNat
  fit 0x2A0 (regs ++ sys ++ tags) ++ fit 0x20 [] ++ fit 0x100 atoms ++ fit 0x80 traps.flatten ++ fit 0xB80 held.flatten

/-- A handle (R467), 64 bytes, with the pattern position of its stream. -/
def handleBytes (o : Option Handle) (pos : Nat) : List Byte :=
  match o with
  | none => fit 64 []
  | some x =>
    let (bound, ended, desc, committed, rel) := match x.stream with
      | some t => (true, t.ended, t.desc, t.committed, t.releases.headD 0)
      | none => (false, false, (0 : Word), 0, 0)
    let flag (b : Bool) (n : Nat) : Nat := if b then n else 0
    fit 64 (toLE 8 x.base ++ toLE 1 x.slots ++
      toLE 1 (1 + flag x.out 2 + flag x.joined.isSome 4 + flag bound 8 + flag ended 16) ++ toLE 2 0 ++ toLE 4 x.size ++
      toLE 8 x.fill ++ toLE 8 x.free ++ toLE 8 desc.toNat ++ toLE 8 committed ++ toLE 8 pos ++ toLE 1 rel)

/-- The handles of a core (R467). -/
def State.handlesBytes (s : State) (c : CoreId) : List Byte :=
  ((fins 64).map fun h =>
    let x := (s.pump c).handles[h]
    handleBytes x (match x.bind (·.stream) with
      | some t => s.patternPos c (BitVec.ofNat 6 h.val) t
      | none => 0)).flatten

/-- A region (R467), 32 bytes. -/
def State.regionBytes (s : State) (c : CoreId) (r : Fin 8) : List Byte :=
  let armed := match (s.core c).fab.regions[r].armed with
    | some (pt, pf) => pt.val + 256 * pf.val
    | none => 0
  fit 32 (toLE 8 (s.regionWord c r).toNat ++ toLE 8 armed)

/-- The barrier counts of a core, `.lane` to `.pod`, and the marks of abandoned `bar`s, each at the bit of its scope's code,
1 to 6 (R464, R67). -/
def Pump.barrierBytes (p : Pump) : List Byte :=
  (p.bars.toList.map fun b => toLE 4 b.arrivals.toNat ++ toLE 4 b.waits.toNat).flatten ++
    toLE 8 ((fins 6).foldl (fun n i => n + if p.bars[i].abandoned then 2 ^ (i.val + 1) else 0) 0)

/-- Frame slots of a plane: 64 compute, 64 switch, 8 memory, 16 AG (R464). -/
def Plane.saveFrames (p : Plane) : List Frame :=
  let find (l n : Nat) : Frame := (p.frames.find? fun f => layoutOf f = l && siteOf f = n).getD 0
  (List.range 64).map (find 1) ++ (List.range 64).map (find 3) ++ (List.range 8).map (find 2) ++ (List.range 8).map (find 4) ++
    (List.range 8).map fun n => find 4 (256 + n)

/-- Payloads of tokens as bytes, cut or filled with zeros to `n`. -/
def payloadBytes (n : Nat) (ts : List Token) : List Byte := fit n (ts.map fun t => toLE 32 t.payload.toNat).flatten

/-- What the state of a compute site holds first, as far as R468 says it: the stationary block, row-major, and the open vector
of a Dot; the slots of a Sum, each the lanes of one input token; the partial block of a Turn; the tokens of a `dly.fifo`. The
rest of each state has a length and no layout (log 16). -/
def CompCfg.knownState (k : CompCfg) (op : OpState) : List Byte :=
  match k.kind with
  | 1 => payloadBytes (k.dotRows * k.dotCols * atomBytes k.fmtA) op.store ++ payloadBytes (k.dotCols * atomBytes k.fmtB) op.vec
  | 2 =>
    if k.mode = 4 then []
    else
      let us := (storeUnits k.fa false (k.sumSlots op)).1
      payloadBytes (k.sumWidth * 32) (fullTokens k.fa 0 us.length us).1
  | 10 => if k.mode = 0 then payloadBytes ((k.param 163 9 + 1) * 32) op.store else []
  | 11 => payloadBytes ((k.param 167 5 + 1) ^ 2 * 32) op.store
  | _ => []

/-- An entry of the element section (R468): identifier, kind and mode, plane, length of the state, and what it holds first. -/
structure ElementEntry where
  id : Nat
  kindMode : Nat
  plane : Nat
  len : Nat
  known : List Byte
  deriving DecidableEq, Repr

/-- Length of the retained tokens of a source whose rounds have `rnd` tokens (R455, R468). -/
def retainedBytes (rnd : Nat) : Nat := 2 * rnd * 32 + 64

/-- The entry of the tokens that AG site `a` retains. A `strm` of kind 1 or 3 is such a source too (R455); it has no frame, so
its mode and plane are 0, and a kind 3 stream has rounds of at most 1,024 tokens (R235; log 16). -/
def Core.retainedEntry (k : Core) (a : Fin 8) (mode plane rnd : Nat) : ElementEntry :=
  { id := 4 * 2 ^ 16 + a.val, kindMode := mode, plane := plane, len := retainedBytes rnd
    known := payloadBytes (2 * rnd * 32) (k.fab.ags[a].sent.filter (·.kind = .data)) }

/-- The entries of the element section (R468). -/
def Core.elements (k : Core) : List ElementEntry :=
  let planeNo (r : Fin 8) : Nat := match k.fab.regions[r].sel with
    | some n => n.val
    | none => 0
  (fins 64).filterMap (fun i => (k.siteOwner i).map fun o =>
    ({ id := 2 ^ 16 + i.val, kindMode := 16 * o.2.2.kind + o.2.2.mode, plane := planeNo o.1, len := o.2.2.stateBytes
       known := o.2.2.knownState k.fab.sites[i].op } : ElementEntry)) ++
  (fins 8).filterMap (fun m => (k.memOwner m).map fun o =>
    ({ id := 2 * 2 ^ 16 + m.val, kindMode := o.2.2.mode, plane := planeNo o.1, len := 64, known := [] } : ElementEntry)) ++
  (fins 8).filterMap (fun a => (k.agOwner a).map fun o =>
    ({ id := 4 * 2 ^ 16 + a.val, kindMode := o.2.2.mode, plane := planeNo o.1, len := 64, known := [] } : ElementEntry)) ++
  (fins 8).filterMap (fun a => match k.agRun a with
    | some (.frame r _, g) => if g.sends then some (k.retainedEntry a g.mode (planeNo r) g.rnd) else none
    | some (.stream _ t, _) =>
      if t.kind = .input then some (k.retainedEntry a 0 0 t.rnd)
      else if t.kind = .feed then some (k.retainedEntry a 0 0 1024) else none
    | none => none)

/-- The bytes of the entries; what R468 does not lay out are free values (log 16). -/
def entryBytes : List ElementEntry → Nat → List Byte
  | [], _ => []
  | e :: r, t =>
    toLE 4 e.id ++ toLE 1 e.kindMode ++ toLE 1 e.plane ++ toLE 2 0 ++ toLE 4 e.len ++ toLE 4 0 ++
      fit ((e.len + 31) / 32 * 32) (e.known ++ freeBytes t (e.len - e.known.length)) ++ entryBytes r (t + e.len)

/-- Bytes the Weir takes at the head of the element section of rank 4j + 3 (R468). -/
def weirBytes : Nat := 720 * 1024

/-- Bytes filled up with zeros to a multiple of 64. -/
def pad64 (bs : List Byte) : List Byte := fit ((bs.length + 63) / 64 * 64) bs

/-- The node words and maps of a context (R468). -/
def Graph.saveBytes (g : Graph) : List Byte :=
  pad64 (g.nodes.map fun w => toLE 8 w.toNat).flatten ++ pad64 (g.inMap.map fun w => toLE 2 w.toNat).flatten ++
    pad64 (g.outMap.map fun w => toLE 4 w.toNat).flatten

/-- The state of a Weir (R234, R468). The header of an empty context is zero, and the active number and the marks share
one unit of 64 bytes (log 16). -/
def Weir.saveBytes (w : Weir) : List Byte :=
  let hdr (i : Fin 2) : List Byte := match w.ctx[i] with
    | some g => fit 64 g.header
    | none => fit 64 []
  let ctx (i : Fin 2) : List Byte := match w.ctx[i] with
    | some g => g.saveBytes
    | none => []
  let marks := (if w.swap then 1 else 0) + (if w.release then 2 else 0)
  fit weirBytes (hdr 0 ++ hdr 1 ++ pad64 (toLE 1 w.active.val ++ toLE 1 marks) ++ ctx 0 ++ ctx 1)

/-- The contexts of a saved Weir, each with the offsets of its node words and maps in the area. -/
def savedGraphs (bs : List Byte) : List (Option (Graph × Nat × Nat × Nat)) :=
  let one (i at_ : Nat) : Option (Graph × Nat × Nat × Nat) × Nat :=
    let h := (bs.drop (64 * i)).take 64
    if h.all (· = 0) then (none, at_)
    else
      let (nd, im, om) := graphSizes h
      let up (n : Nat) : Nat := (n + 63) / 64 * 64
      let a := at_ + up nd
      let b := a + up im
      let part (o n : Nat) : List Byte := (bs.drop o).take n
      (some (Graph.of h (part at_ nd) (part a im) (part b om), at_, a, b), b + up om)
  let x := one 0 192
  [x.1, (one 1 x.2).1]

/-- A Weir from its saved state, over what the flow kept of its pipeline. -/
def weirOfBytes (bs : List Byte) (old : Weir) : Weir :=
  let gs := (savedGraphs bs).map fun o => o.map (·.1)
  let marks := fieldAt bs 129 1
  { old with
    ctx := Vector.ofFn fun i : Fin 2 => (gs[i.val]?).getD none
    active := Fin.ofNat 2 (fieldAt bs 128 1)
    swap := marks % 2 = 1
    release := marks / 2 % 2 = 1 }

/-- The offset in a saved Weir of the first field that its state does not admit (R443). -/
def weirAreaBad (bs : List Byte) : Option Nat :=
  let hdr (i : Nat) : List Byte := (bs.drop (64 * i)).take 64
  let heads := [0, 1].find? fun i => !(hdr i).all (· = 0) && graphHeaderBad (hdr i)
  match heads with
  | some i => some (64 * i)
  | none =>
    if 1 < fieldAt bs 128 1 then some 128
    else if fieldAt bs 129 63 / 4 ≠ 0 then some 129
    else (savedGraphs bs).findSome? fun o => o.bind fun x => x.1.fault.map fun e => match e with
      | (0, i, _) => x.2.1 + 8 * i
      | (1, i, _) => x.2.2.1 + 2 * i
      | (_, i, _) => x.2.2.2 + 4 * i

/-- Place and size of the sluice contexts in the block of rank 0 (R464). -/
def sluiceArea : Nat := 0x8C00
def sluiceSize : Nat := 1152

/-- The sluice contexts of a flow, which the save writes and releases (R352, R418): each frame by frame, as its block gave
them (log 16). -/
def State.ownSluice (s : State) (n : BitVec 32) : List (Fin 8 × SluiceCtx) :=
  (fins 8).filterMap fun i => (s.sluice[i]).bind fun x => if x.owner = n then some (i, x) else none

/-- Their bytes. -/
def sluiceBytes (own : List (Fin 8 × SluiceCtx)) : List Byte :=
  ((fins 8).map fun i => fit sluiceSize (match own.find? (·.1 = i) with
    | some (_, x) => (x.frames.map fun f => toLE 32 f.toNat).flatten
    | none => [])).flatten

/-- The frames of context `i` in a block. -/
def sluiceFrames (bs : List Byte) (i : Nat) : List Frame :=
  ((chunks 32 ((bs.drop (sluiceArea + sluiceSize * i)).take sluiceSize)).map leFrame).filter (· ≠ 0)

/-- The full-empty bits of a cistern, bit i for word i (R464). -/
def Core.fullBytes (k : Core) : List Byte :=
  (List.range 0x8000).map fun i =>
    BitVec.ofNat 8 ((List.range 8).foldl (fun n j => n + if k.full.contains (8 * i + j) then 2 ^ j else 0) 0)

/-- The block of a core (R464, R465). -/
def State.saveBlock (s : State) (c : CoreId) (weir : Bool) : List Byte :=
  let k := s.core c
  let own := if k.launch.rank = 0 then s.ownSluice k.pump.flow else []
  let p := k.pump
  let es := k.elements
  let elem := (if weir then (s.weirs[weirOf c]).saveBytes else []) ++ entryBytes es s.tick
  let halted := p.run = .halted
  let header := fit 64 (toLE 4 0x5641_534A ++ toLE 2 0x0300 ++ toLE 1 (if halted then 3 else 1) ++ toLE 1 k.launch.rank ++
    toLE 8 p.pc.toNat ++ toLE 4 elem.length ++ toLE 4 es.length)
  let handles := s.handlesBytes c
  let regions := ((fins 8).map (s.regionBytes c)).flatten
  let deque := fit 0x1000 (fit 0x40 (toLE 8 k.deque.length ++ toLE 8 k.spilled) ++
    (k.deque.reverse.map fun w => toLE 8 w.toNat).flatten)
  let frames := ((fins 4).map fun n => (k.fab.planes[n].saveFrames.map fun f => toLE 32 f.toNat).flatten).flatten
  header ++ fit 0xFC0 p.saveBytes ++ fit 0x1000 handles ++ fit 0x100 regions ++ fit 0xF00 p.barrierBytes ++ deque ++
    fit 0x4C00 frames ++ fit 0x2400 (sluiceBytes own) ++ k.fullBytes ++ fit 0x1E_D000 elem ++ k.cistern.read 0 0x20_0000

/-- Bytes written at a virtual address of a space whose pages have been translated, line by line. -/
def State.writeIn (s : State) (space : BitVec 8) (va : Word) (bytes : List Byte) : Nat → State
  | 0 => s
  | fuel + 1 =>
    if bytes.isEmpty then s
    else match s.translateIn space va .wr with
      | .at pa =>
        let n := 256 - va.toNat % 256
        State.writeIn (s.engineWrite .house pa (bytes.take n)) space (va + BitVec.ofNat 64 n) (bytes.drop n) fuel
      | _ => s

/-! ### A fatal end (R446, R447) -/

/-- The fatal record (R447). -/
def fatalRecord (first : Code) (code : Code) (region : Byte) (epc0 epc1 tval : Word) : List Byte :=
  [0xFE, first, code, region] ++ toLE 4 0 ++ toLE 8 epc0.toNat ++ toLE 8 epc1.toNat ++ toLE 8 tval.toNat

/-- A core of a flow whose peer is lost: its pump takes event 0x28, at the first round boundary of its running regions, or
at its next instruction boundary where none runs (R441). -/
def Core.tell (k : Core) (x : Cause) : Core :=
  let runs := (fins 8).any fun r => k.fab.regions[r].run && !k.fab.regions[r].stray
  let p := k.pump
  { k with pump := if runs then { p with events := p.events ++ [x] } else { p with asyncs := p.asyncs ++ [x] } }

/-- The peers of a flow that ends fatally: its slot is lost, and each of their pumps takes event 0x28 (R441). -/
def State.losePeer (s : State) (f : Flow) : State :=
  let gone : Cause := { code := 0x28, fab := true, region := 0, tval := BitVec.ofNat 64 f.slot.val }
  let peers := s.flows.filter fun g => f.peer g && g.num ≠ f.num && !g.over
  peers.foldl (fun s g =>
    let s := s.modFlow g.num fun x =>
      { x with lost := x.lost ++ [f.slot], kept := x.kept.map fun k => { k with events := k.events ++ [gone] } }
    g.cores.foldl (fun s c => s.modCore c fun k => k.tell gone) s) s

/-- The flow's queue enters the error state; of a destroyed queue, whose number may be in use again, only the host is
told (R475). -/
def State.groupError (s : State) (f : Flow) (code : Code) : State :=
  if f.orphan then s.hostEvent 1 code (BitVec.ofNat 16 f.queue.val) f.num 0
  else (s.queueError f.queue.val code f.num).unmap f.queue.val

/-- The windows of a group onto the banks of its peers close: an `lds` that waits there needs its W cycles from now on (R298,
R440). -/
def State.closeWindows (s : State) (f : Flow) : State :=
  let peers := s.flows.filter fun g => f.peer g && g.num ≠ f.num
  (peers.map (·.cores)).flatten.foldl (fun t c => t.modCore c fun k => { k with activeAt := s.now }) s

/-- The group ends, its record written where it can be (R446): committed work is performed, the queue and the host learn
the code, the cores are scrubbed. -/
def State.endFatal (s : State) (f : Flow) (code : Code) : State :=
  let s := f.cores.foldl (fun s c => s.settleCore c) s
  let s := s.groupError f code
  let s := if f.state = .saved then s else s.scrubCores f.cores
  (((s.releaseSluice f.num).modFlow f.num fun x => { x with state := .ended, page := none }).closeWindows f).closeCluster f

/-- The diagnostic slot of rank `n` of a flow (R394). -/
def Flow.slotAddr (f : Flow) (n : Nat) : Word := f.rec_.diag + BitVec.ofNat 64 (2048 * n)

/-- The fatal record of a flow whose fate is known, by the rule of R394: a page request with requester code 5 defers it; a
slot that cannot be written loses the record. -/
def State.recordFate (s : State) (n : BitVec 32) : State :=
  match s.flow? n with
  | none => s
  | some f =>
    match f.fate with
    | none => s
    | some e =>
      let slot := f.slotAddr e.rank
      match s.translateIn f.space slot .wr with
      | .at _ => (s.writeIn f.space slot e.record 2).endFatal f e.code
      | .absent =>
        let (u, id) := s.postPage slot Need.wr.access 5 f.space f.num (f.cores[e.rank]?)
        u.modFlow f.num fun x => { x with page := some id }
      | .forbidden => s.endFatal f e.code

/-- A fatal end begins (R446): the peers are told, then the record is written. -/
def State.doom (s : State) (f : Flow) (e : Fate) : State :=
  ((s.losePeer f).modFlow f.num fun x => { x with fate := some e, page := none }).recordFate f.num

/-- The core of a group that has been stopped by a refused trap (R121), with its rank. -/
def State.fatalCore (s : State) (f : Flow) : Option (CoreId × Nat) :=
  f.cores.zipIdx.find? fun x => (s.pump x.1).run = .fatal

/-- The code and record of a refused trap (R447). -/
def Pump.fatalBytes (p : Pump) : Code × List Byte :=
  match p.fatalBy with
  | some (cause, epc) =>
    (cause.code, fatalRecord (if p.ht then p.tcause.code else 0) cause.code
      (BitVec.ofNat 8 (cause.region.toNat + if cause.fab then 8 else 0)) p.epc epc cause.tval)
  | none => (0x20, fatalRecord 0 0x20 0 p.pc p.pc 0)

/-- FATAL_END (R446): once the group's `nma` are performed; a record that has waited for its page is tried again. -/
def State.fatalEnd (s : State) (n : BitVec 32) : State :=
  match s.flow? n with
  | none => s
  | some f =>
    if f.over || f.page.isSome then s
    else if f.fate.isSome then s.recordFate n
    else match s.fatalCore f with
      | none => s
      | some (c, rank) =>
        if s.nmas.any fun x => f.cores.contains x.core then s
        else s.doom f { code := (s.pump c).fatalBytes.1, record := (s.pump c).fatalBytes.2, rank := rank }

/-- FATAL_END. -/
def execFatalEnd (flow : Nat) (s : State) : Out := .next (s.fatalEnd (BitVec.ofNat 32 flow))

/-! ### Saving (R417, R418) -/

/-- Every pump of the group has halted and every region has drained (R25, R419). -/
def State.groupDone (s : State) (f : Flow) : Bool :=
  f.cores.all fun c => (s.pump c).run = .halted && !(s.core c).fab.anyRunning

/-- A pump at a request of pre-emption: `ypend` is set, a wait of R120 is abandoned, and a page request of its access is
given up; an instruction that cannot be abandoned completes first (R417, R434). -/
def Pump.freeze (p : Pump) (now : Nat) : Pump :=
  let p := { p with ypend := true }
  if p.run ≠ .running || (p.block.isSome && !p.abandonable && p.page.isNone) then p
  else { p.unblock now with run := .frozen }

/-- A pre-emption of a group is requested: its pumps stop, and the sources of its regions go on to their next round
boundary (R26, R417). -/
def State.freeze (s : State) (f : Flow) : State :=
  let s := f.cores.foldl (fun s c =>
    let t := if (s.pump c).abandonable then s.abandon c else s
    (t.modCore c fun k =>
      { k with
        pump := k.pump.freeze s.now
        fab := { k.fab with regions := mapVec (fun x => if x.run then { x with stopping := some s.now } else x) k.fab.regions } }).seen c) s
  s.modFlow f.num fun x => { x with state := .freezing }

/-- A flow that ends fatally. -/
def State.doomed (s : State) (f : Flow) : Bool := f.fate.isSome || (s.fatalCore f).isSome

/-- A pre-emption of a flow, with its cluster (R417, R419, R439): no effect once all have halted and drained, or while
one is in progress, or a fatal end. -/
def State.preempt (s : State) (n : BitVec 32) : State :=
  match s.flow? n with
  | none => s
  | some f =>
    if f.state ≠ .running || s.groupDone f || s.doomed f then s
    else (s.flows.filter fun g => f.peer g && g.state = .running && !s.groupDone g && !s.doomed g).foldl (fun s g => s.freeze g) s

/-- A source stands at a round boundary: it has begun no round, or holds the first token of one (R26). -/
def atRound (outq : List Token) (data : Nat) : Bool :=
  match outq with
  | t :: _ => t.kind = .data && t.seq = 0
  | [] => data = 0

/-- The sources of a region have reached their round boundary. -/
def Core.atRounds (k : Core) (r : Fin 8) (p : Plane) : Bool :=
  (p.memsOf r).all (fun m => (m.mode ≠ 0 && m.mode ≠ 4) || atRound k.fab.mems[m.site].outq k.fab.mems[m.site].roundData) &&
    (p.agsOf r).all (fun a => !a.2.sends || atRound k.fab.ags[a.1].outq k.fab.ags[a.1].roundData) &&
    (fins 8).all fun a => match k.agStream a with
      | some (_, t) => t.kind ≠ .feed || t.region ≠ r || t.ended ||
          atRound k.fab.ags[a].outq (if k.fab.ags[a].sent.isEmpty then 0 else
            if (k.fab.ags[a].sent.getLast?.map (·.kind)) = some .data then 1 else 0)
      | none => true

/-- Cycles within which the pumps and sources of a group stop (R417). -/
def stopBound : Nat := 9600

/-- Steps 2 and 3 of a pre-emption have ended on core `c` (R417): its pump has stopped, and its running regions stand at
a round boundary, unless the bound has passed. -/
def State.stilled (s : State) (c : CoreId) : Bool :=
  let k := s.core c
  (k.pump.run ≠ .running || (k.pump.block.isNone && k.pump.page.isNone)) &&
    (fins 8).all fun r =>
      let x := k.fab.regions[r]
      !x.moves || match k.fab.runPlane r, x.stopping with
        | some p, some t => k.atRounds r p || stopBound ≤ s.now - t
        | _, _ => true

/-- The running regions of a group that are neither stray nor frozen yet. -/
def State.liveRegions (s : State) (f : Flow) : List (CoreId × Fin 8) :=
  (f.cores.map fun c => ((fins 8).filter fun r =>
    let x := (s.core c).fab.regions[r]
    x.run && !x.stray && !x.frozen).map fun r => (c, r)).flatten

/-- A core stands still for its save; page requests of its accesses are given up (R434). -/
def Core.still (k : Core) : Core :=
  { k with
    pump := if k.pump.run = .running then { k.pump with run := .frozen } else k.pump
    fab :=
      { k.fab with
        planes := mapVec (fun x => { x with page := none }) k.fab.planes
        regions := mapVec (fun x => { x with frozen := true, page := none, due := x.due.map fun d => { d with page := none } })
          k.fab.regions
        ags := mapVec (fun x => { x with page := none }) k.fab.ags } }

/-- The regions of a group freeze: every element gives up its open rounds, which the resume replays (R240, R417). -/
def State.stillAll (s : State) (f : Flow) : State :=
  f.cores.foldl (fun s c => (s.modCore c Core.still).seen c) (s.rewind (s.liveRegions f))

/-- The folds of a core's streams with the windows that lead to them. -/
def State.foldsOf (s : State) (c : CoreId) : List (Fold × List Crossing) :=
  s.folds.zipIdx.filterMap fun q => if q.1.core = c then some (q.1, s.crossings.filter (·.fold = q.2)) else none

/-- What a core keeps beside the save area (log 16). -/
def State.keep (s : State) (c : CoreId) : Kept :=
  { core := s.core c, jobs := s.jobs.filter (·.core = c), folds := s.foldsOf c, events := [] }

/-- The logical quads of cores that are whole, as a group takes their Weirs (R409). -/
def wholeQuads (cores : List CoreId) : List (Fin 64) :=
  (cores.map weirOf).dedup.filter fun q => (List.range 4).all fun i => cores.contains (coreOf q i)

/-- The logical quads of a group that hold a Weir (R409, R468). -/
def State.groupWeirs (s : State) (f : Flow) : List (Fin 64) := if s.part.hasWeir then wholeQuads f.cores else []

/-- The first page of the save area that cannot be written, with how. -/
def State.saveStop (s : State) (f : Flow) (n : Need) : Option (Word × Trans) :=
  let lo := f.rec_.save.toNat
  ((pagesOf lo (lo + blockSize * f.rec_.count - 1)).map fun p => BitVec.ofNat 64 (max p lo)).findSome? fun va =>
    match s.translateIn f.space va n with
    | .at _ => none
    | t => some (va, t)

/-- The resume point of rank `n` of a group that is saved or about to be. -/
def State.resumePoint (s : State) (f : Flow) (n : Nat) : Word :=
  match f.kept[n]? with
  | some k => k.core.pump.pc
  | none => match f.cores[n]? with
    | some c => (s.pump c).pc
    | none => 0

/-- A save or resume ends the flow (R443, R447): the record names the resume point and the address. -/
def State.saveFatal (s : State) (f : Flow) (code : Code) (pc va : Word) : State :=
  s.doom f { code := code, record := fatalRecord 0 code 0 pc pc va, rank := (va.toNat - f.rec_.save.toNat) / blockSize }

/-- An access to the save area that fails (R436, R447). -/
def State.accessFatal (s : State) (f : Flow) (code : Code) (va : Word) : State :=
  s.saveFatal f code (s.resumePoint f ((va.toNat - f.rec_.save.toNat) / blockSize)) va

/-- The blocks of a group are written and its cores freed (R417, R442). -/
def State.writeSave (s : State) (f : Flow) : State :=
  let kept := f.cores.map s.keep
  let weirs := (s.groupWeirs f).map fun q => s.weirs[q]
  let t := f.cores.zipIdx.foldl (fun t x =>
    let whole := (s.groupWeirs f).contains (weirOf x.1) && x.2 % 4 = 3
    let bs := t.saveBlock x.1 whole
    let u := { t with tick := t.tick + blockSize }
    u.writeIn f.space (f.rec_.save + BitVec.ofNat 64 (blockSize * x.2)) bs (blockSize / 256 + 1)) s
  let t := t.hostEvent 2 0x30 (BitVec.ofNat 16 f.queue.val) f.num f.rec_.save
  let t := (f.cores.foldl State.shareKnown t).scrubCores f.cores
  let g : Flow :=
    { f with state := .saved, cores := [], kept := kept, keptWeirs := weirs, keptSluice := s.ownSluice f.num, page := none }
  let t := t.releaseSluice f.num
  { t with flows := t.flows.filter (fun x => x.num ≠ f.num) ++ [g] }

/-- PREEMPT_SAVE_COMPLETE (R417): once its pumps and regions stand still, after every `nma` of the group and the writebacks
of its bound lines. -/
def State.saveFlow (s : State) (n : BitVec 32) : State :=
  match s.flow? n with
  | none => s
  | some f =>
    if f.state ≠ .freezing || f.page.isSome || s.doomed f || (s.nmas.any fun x => f.cores.contains x.core) ||
        !f.cores.all s.stilled then s
    else
      let t := f.cores.foldl State.flushCore (s.stillAll f)
      match t.saveStop f .wr with
      | some (va, .absent) =>
        let (u, id) := s.postPage va Need.wr.access 8 f.space f.num none
        u.modFlow f.num fun x => { x with page := some id }
      | some (va, _) => t.accessFatal f 0x04 va
      | none =>
        -- the head of the queue is now this flow, unless an earlier one waits
        let first := (t.saved f.queue.val).isEmpty
        let u := t.writeSave f
        if first then u.newHead f.queue.val else u

/-- PREEMPT_SAVE_COMPLETE. -/
def execPreemptSaveComplete (flow : Nat) (s : State) : Out := .next (s.saveFlow (BitVec.ofNat 32 flow))

/-! ### Resuming (R418, R443) -/

/-- The handle of an entry: what the entry gives, over the stream the flow kept. -/
def handleOf (bs : List Byte) (old : Option Handle) : Option Handle :=
  let f (o n : Nat) : Nat := fieldAt bs o n
  let fl := f 9 1
  if fl % 2 = 0 then none
  else
    let t := if fl / 8 % 2 = 0 then none
      else (old.bind (·.stream)).map fun t =>
        { t with desc := BitVec.ofNat 64 (f 0x20 8), committed := f 0x28 8, pos := f 0x30 8, ended := fl / 16 % 2 = 1,
                 releases := match t.releases with
                   | _ :: r => f 0x38 1 :: r
                   | [] => if f 0x38 1 = 0 then [] else [f 0x38 1] }
    some
      { out := fl / 2 % 2 = 1, base := f 0 8, slots := f 8 1, size := f 12 4, fill := f 0x10 8, free := f 0x18 8,
        freed := match old with
          | some x => x.freed
          | none => 0
        joined := if fl / 4 % 2 = 1 then old.bind (·.joined) else none
        stream := t
        items := match old with
          | some x => x.items
          | none => []
        openData := match old with
          | some x => x.openData
          | none => 0
        filledAt := List.replicate (f 8 1) 0 }

/-- The region of an entry (R327, R467), over what the flow kept. -/
def regionOf (bs : List Byte) (old : Region) : Region :=
  let w : Word := BitVec.ofNat 64 (fieldAt bs 0 8)
  let a := fieldAt bs 8 8
  { old with
    sel := if w.getLsbD 7 then some (Fin.ofNat 4 w.toNat) else none
    run := w.getLsbD 2
    stray := w.getLsbD 5
    pred := w.getLsbD 4
    armed := if w.getLsbD 6 then some (Fin.ofNat 4 a, Fin.ofNat 4 (a / 256)) else none
    flags := w.extractLsb' 40 6
    stopping := none
    frozen := false }

/-- The pump of a block (R465, R466), over what the flow kept. -/
def pumpOf (bs : List Byte) (old : Pump) (now : Nat) : Pump :=
  let w (o : Nat) : Word := BitVec.ofNat 64 (fieldAt bs o 8)
  let cause (v t : Word) : Cause := { code := v.setWidth 8, region := v.extractLsb' 8 3, fab := v.getLsbD 11, tval := t }
  let asyncs := ((List.range 8).map fun i => cause (w (0x400 + 16 * i)) (w (0x408 + 16 * i))).filter (·.code ≠ 0)
  let held := (List.range 4).filterMap fun i =>
    let v := w (0x480 + 16 * i)
    if v = 0 then none
    else
      let sl := match old.held[i]? with
        | some h => h.sluice
        | none => false
      let plane := match old.held[i]? with
        | some h => if h.sluice then h.plane else BitVec.ofNat 3 (v.toNat / 256 % 4)
        | none => BitVec.ofNat 3 (v.toNat / 256 % 4)
      some ({ code := v.setWidth 8, sluice := sl, plane := plane, offset := w (0x488 + 16 * i) } : Held)
  { old with
    g := Vector.ofFn fun i : Fin 64 => if i = 0 then 0 else w (0x40 + 8 * i.val)
    k := Vector.ofFn fun i : Fin 8 => w (0x240 + 8 * i.val)
    last := w 0x280
    savedLast := w 0x288
    ht := (w 0x290).getLsbD 0
    pht := (w 0x290).getLsbD 1
    ypend := false
    tvec := w 0x298
    tcause := cause (w 0x2A0) (w 0x2A8)
    epc := w 0x2B0
    fflags := (w 0x2B8).setWidth 6
    seed := w 0x2C0
    stallCycles := (w 0x2C8).setWidth 32
    stallWhy := (w 0x2C8).extractLsb' 32 8
    q := Vector.ofFn fun i : Fin 16 =>
      { val := BitVec.ofNat 128 (fieldAt bs (0x300 + 16 * i.val) 16)
        tag := (Fmt.ofCode? (BitVec.ofNat 4 (fieldAt bs (0x2D0 + i.val) 1))).getD .o32 }
    pc := w 0x08
    run := if fieldAt bs 0x06 1 / 2 % 2 = 1 then .halted else .running
    block := none
    page := none
    asyncs := asyncs ++ old.asyncsByCode.drop 8
    held := held ++ old.held.drop 4
    bars := Vector.ofFn fun i : Fin 6 =>
      { arrivals := BitVec.ofNat 32 (fieldAt bs (0x2100 + 8 * i.val) 4)
        waits := BitVec.ofNat 32 (fieldAt bs (0x2104 + 8 * i.val) 4)
        abandoned := fieldAt bs 0x2130 8 / 2 ^ (i.val + 1) % 2 = 1 }
    handles := Vector.ofFn fun i : Fin 64 =>
      (handleOf ((bs.drop (0x1000 + 64 * i.val)).take 64) (old.handles[i])).map fun x =>
        { x with stream := x.stream.map fun t => { t with movedAt := now } }
    issuedAt := now }

/-- The frames of plane `n` of a block: those of its slots that are not zero. -/
def planeFrames (bs : List Byte) (n : Nat) : List Frame :=
  ((List.range 152).map fun i => BitVec.ofNat 256 (fieldAt bs (0x4000 + 32 * (152 * n + i)) 32)).filter (· ≠ 0)

/-- The core of a block, over what the flow kept: element states, streams and poison (log 16). Events of lost peers that
came meanwhile wait as they would have (R441). -/
def coreOfBlock (bs : List Byte) (kept target : Core) (events : List Cause) (l : Launch) (now : Nat) : Core :=
  let fab := kept.fab
  let k : Core :=
    { pump := pumpOf bs kept.pump now
      fab :=
        { fab with
          planes := Vector.ofFn fun n : Fin 4 => { fab.planes[n] with frames := planeFrames bs n.val }
          regions := Vector.ofFn fun r : Fin 8 => regionOf ((bs.drop (0x2000 + 32 * r.val)).take 32) fab.regions[r] }
      launch := l
      cistern := Memory.write [] 0 ((bs.drop 0x20_0000).take 0x20_0000)
      full := (List.range 0x40000).filter fun i => fieldAt bs (0xB000 + i / 8) 1 / 2 ^ (i % 8) % 2 = 1
      setBy := []
      bad := kept.bad
      latent := kept.latent
      deque := ((List.range (min (fieldAt bs 0x3000 8) 256)).map fun i => BitVec.ofNat 64 (fieldAt bs (0x3040 + 8 * i) 8)).reverse
      spilled := fieldAt bs 0x3008 8
      pushes := kept.pushes
      dequeBad := kept.dequeBad
      flaws := target.flaws
      tlb := target.tlb
      walks := target.walks
      resetAt := target.resetAt
      activeAt := now }
  let k := (fins 64).foldl (fun k h => match (k.pump.handles[h]).bind (·.stream) with
    | some t => if t.ended || (t.kind ≠ .input && t.kind ≠ .output) then k else k.modAg t.ag fun x => { x with pos := t.pos }
    | none => k) k
  events.foldl (fun k e => k.tell e) k

/-- A code that an asynchronous trap can carry (R448, R450). -/
def asyncCode (n : Nat) : Bool := [0x03, 0x10, 0x11, 0x18, 0x19, 0x1A, 0x1B, 0x20, 0x21, 0x22, 0x23, 0x28].contains n

/-- A code that a held load fault can carry (R88, R322). -/
def heldCode (n : Nat) : Bool := [0x10, 0x12, 0x15].contains n

/-- The slots of a plane in a block that hold a frame (R464). -/
def frameSlots (bs : List Byte) (n : Nat) : List (Nat × Frame) :=
  ((List.range 152).map fun i => (i, BitVec.ofNat 256 (fieldAt bs (0x4000 + 32 * (152 * n + i)) 32))).filter (·.2 ≠ 0)

/-- A frame lies in the slot of another site. -/
def slotWrong (i : Nat) (w : Frame) : Bool :=
  let want := if i < 64 then (1, i) else if i < 128 then (3, i - 64) else if i < 136 then (2, i - 128)
    else if i < 144 then (4, i - 136) else (4, 256 + (i - 144))
  (layoutOf w, siteOf w) ≠ want

/-- The offset of the first frame of plane `n` that fails (R88, R443). -/
def planeBad (part : Part) (bs : List Byte) (limit n : Nat) : Option Nat :=
  let slots := frameSlots bs n
  let place (q : Nat × Frame) : Nat := 0x4000 + 32 * (152 * n + q.1)
  match slots.find? fun q => slotWrong q.1 q.2 with
  | some q => some (place q)
  | none =>
    if slots.isEmpty then none
    else (firstFail (fieldFails part false n (slots.map (·.2)) ++ planeFails false limit (slots.map (·.2)))).map fun e =>
      match slots[e.1]? with
      | some q => place q
      | none => 0x4000 + 32 * 152 * n

/-- The offset of the first frame of a saved sluice context that fails. -/
def sluiceBad (part : Part) (bs : List Byte) (i : Nat) : Option Nat :=
  let fs := sluiceFrames bs i
  (firstFail (fieldFails part true i fs ++ planeFails true 64 fs)).map fun e => sluiceArea + sluiceSize * i + 32 * e.1

/-- The fields of a handle entry that its state does not admit (R65, R305, R306, R467). -/
def handleChecks (f : Nat → Nat → Nat) (o : Nat) : List (Nat × Bool) :=
  let fl := f (o + 9) 1
  let set := fl % 2 = 1
  let size := f (o + 12) 4
  [(o, set && (f o 8 % 32 ≠ 0 || 0x20_0000 < f o 8 + f (o + 8) 1 * size)), (o + 8, set && f (o + 8) 1 = 0), (o + 9, 32 ≤ fl),
   (o + 10, f (o + 10) 2 ≠ 0), (o + 12, set && (size = 0 || size % 32 ≠ 0)),
   (o + 0x10, set && (f (o + 0x10) 8 < f (o + 0x18) 8 ||
     (fl / 2 % 2 = 1 && f (o + 8) 1 < f (o + 0x10) 8 - f (o + 0x18) 8))), (o + 0x39, f (o + 0x39) 7 ≠ 0)]

/-- The length that the state of an entry has (R468): of a site the plane configures, or of the retained tokens of an AG
source. -/
def entryFits (ps : List Plane) (id plane len : Nat) : Bool :=
  let p := ps.getD plane Plane.reset
  match id / 2 ^ 16 with
  | 1 => id % 2 ^ 16 < 64 && (p.comp? (Fin.ofNat 64 id)).any fun k => k.stateBytes = len
  | 2 => id % 2 ^ 16 < 8 && (p.mem? (Fin.ofNat 8 id)).isSome && len = 64
  | 4 => id % 2 ^ 16 < 8 && (len = 64 || (len ≤ retainedBytes 1024 && (len - 64) % 64 = 0 && 64 < len))
  | _ => false

/-- The first field of the element section that its entries do not admit (R443, R468): `n` entries from `o` on, to `last`. -/
def entriesBad (bs : List Byte) (ps : List Plane) (last : Nat) : Nat → Nat → Option Nat
  | 0, o => if o = last then none else some 0x10
  | n + 1, o =>
    let f (i m : Nat) : Nat := fieldAt bs (o + i) m
    let next := o + 16 + (f 8 4 + 31) / 32 * 32
    if last < next then some 0x14
    else if 4 ≤ f 5 1 then some (o + 5)
    else if f 6 2 ≠ 0 then some (o + 6)
    else if f 12 4 ≠ 0 then some (o + 12)
    else if !entryFits ps (f 0 4) (f 5 1) (f 8 4) then some o
    else entriesBad bs ps last n next

/-- The offset of the first field of a block that its register or state does not admit, or of the first frame that fails
R88 (R443). -/
def blockBad (part : Part) (bs : List Byte) (rank limit spill : Nat) (weir : Bool) (ctxs : List Nat) : Option Nat :=
  let f (o n : Nat) : Nat := fieldAt bs o n
  let w (o : Nat) : Word := BitVec.ofNat 64 (f o 8)
  let reserved (o : Nat) (r : SReg) : Nat × Bool := (o, w o &&& r.reserved != 0)
  let head : List (Nat × Bool) :=
    [(0x00, f 0x00 4 ≠ 0x5641_534A), (0x04, f 0x04 2 ≠ 0x0300), (0x06, f 0x06 1 % 2 = 0 || 4 ≤ f 0x06 1),
     (0x07, f 0x07 1 ≠ rank), (0x08, f 0x08 8 % 8 ≠ 0 || 2 ^ 56 ≤ f 0x08 8), (0x10, 0x1E_D000 < f 0x10 4),
     (0x18, f 0x18 40 ≠ 0), (0x40, f 0x40 8 ≠ 0), reserved 0x290 .status, reserved 0x298 .tvec, reserved 0x2A0 .tcause,
     reserved 0x2B0 .epc, reserved 0x2B8 .fflags, (0x2C8, 2 ^ 40 ≤ f 0x2C8 8)]
  let tags := (List.range 16).map fun i => (0x2D0 + i, (f (0x2D0 + i) 1 = 0 || 5 < f (0x2D0 + i) 1 : Bool))
  let traps := (List.range 8).map fun i =>
    let o := 0x400 + 16 * i
    (o, w o &&& SReg.reserved .tcause != 0 || (f o 16 ≠ 0 && !asyncCode (f o 1)))
  let held := (List.range 4).map fun i =>
    let o := 0x480 + 16 * i
    (o, (1024 ≤ f o 8 || (f o 16 ≠ 0 && !heldCode (f o 1)) : Bool))
  let handles := ((List.range 64).map fun i => handleChecks f (0x1000 + 64 * i)).flatten
  let regions := ((List.range 8).map fun i =>
    let o := 0x2000 + 32 * i
    [(o, (f o 8 / 256 % 2 ^ 32 ≠ 0 || f o 8 / 2 ^ 46 ≠ 0 : Bool)),
     (o + 8, (f (o + 8) 8 % 256 / 4 ≠ 0 || f (o + 8) 8 / 2 ^ 10 ≠ 0 : Bool)), (o + 16, (f (o + 16) 16 ≠ 0 : Bool))]).flatten
  let rest : List (Nat × Bool) :=
    [(0x2130, (f 0x2130 8 % 2 ≠ 0 || 128 ≤ f 0x2130 8 : Bool)), (0x2138, f 0x2138 3784 ≠ 0), (0x3000, 256 < f 0x3000 8), (0x3008, spill < f 0x3008 8)]
  let bars := (List.range 6).map fun i =>
    let o := 0x2100 + 8 * i
    (o, (1 < (f o 4 + 2 ^ 32 - f (o + 4) 4) % 2 ^ 32 : Bool))
  let planes := (List.range 4).map fun n => { Plane.reset with frames := planeFrames bs n }
  let elem := 0x1_3000 + if weir then weirBytes else 0
  let words := (List.range (min (f 0x3000 8) 256)).map fun i => (0x3040 + 8 * i, (f (0x3040 + 8 * i) 8 = 0 : Bool))
  let fields := head ++ tags ++ traps ++ held ++ handles ++ regions ++ bars ++ rest ++ words
  let parts : List (Option Nat) :=
    [(fields.find? (·.2)).map (·.1), (List.range 4).findSome? (planeBad part bs limit), ctxs.findSome? (sluiceBad part bs),
     if weir then (weirAreaBad ((bs.drop 0x1_3000).take weirBytes)).map (0x1_3000 + ·) else none,
     entriesBad bs planes (0x1_3000 + f 0x10 4) (f 0x14 4) elem]
  parts.findSome? id

/-- The launch state of a core after a resume: the same flow on its new cores. -/
def Launch.onto (l : Launch) (cores : List CoreId) (ringCore : Nat) : Launch :=
  { l with
    group := cores
    ring := match l.ring, cores[ringCore]? with
      | some (_, o, n), some c => some (c, o, n)
      | _, _ => none }

/-- The core that takes the place of one of the cores a group left. -/
def movedTo (old new : List CoreId) (c : CoreId) : CoreId :=
  match old.findIdx? (· = c) with
  | some i => new.getD i c
  | none => c

/-- The lines and folds of a kept core go on at its new core: an element lies at the first port on the path from there, with
the window that leads to it (R246). -/
def State.regrow (s : State) (k : Kept) (cores : List CoreId) (c : CoreId) : State :=
  let s := { s with jobs := s.jobs ++ k.jobs.map fun j => { j with core := c } }
  k.folds.foldl (fun s q =>
    let port := s.firstPort (c.val / 64) q.1.pa
    let f : Fold :=
      { q.1 with
        core := c
        pos := (((s.pump c).streamOf q.1.h).map (·.pos)).getD q.1.pos
        die := s.elementDie (c.val / 64) q.1.pa
        next := q.1.next.map fun x => (movedTo k.core.launch.group cores x.1, x.2) }
    let windows := q.2.map fun x => { x with fold := s.folds.length, port := if x.leg = 0 then port else x.port }
    { s with folds := s.folds ++ [f], crossings := s.crossings ++ windows }) s

/-- The Weir of the `j`-th quad of a group is in the block of rank 4j + 3 (R468). -/
def State.putWeirs (s : State) (f : Flow) (blocks : List (List Byte)) (cores : List CoreId) : State :=
  ((wholeQuads cores).zip f.keptWeirs).zipIdx.foldl (fun t q =>
    let bs := (blocks.getD (4 * q.2 + 3) []).drop 0x1_3000
    t.modWeir q.1.1 fun _ => weirOfBytes (bs.take weirBytes) q.1.2) s

/-- A flow's sluice contexts are its own again (R352, R418). -/
def State.putSluice (s : State) (f : Flow) (blocks : List (List Byte)) : State :=
  f.keptSluice.foldl (fun t q =>
    let x : SluiceCtx := { q.2 with frames := sluiceFrames (blocks.getD 0 []) q.1.val }
    { t with sluice := setAt t.sluice q.1 (some x) }) s

/-- A saved flow is written back onto cores (R418). -/
def State.writeBack (s : State) (f : Flow) (blocks : List (List Byte)) (cores : List CoreId) (order : Nat) : State :=
  let t := cores.zipIdx.foldl (fun t x =>
    match f.kept[x.2]?, blocks[x.2]? with
    | some k, some bs =>
      (((t.clearLag x.1).modCore x.1 fun target =>
        coreOfBlock bs k.core target k.events (k.core.launch.onto cores f.rec_.ringCore) s.now).regrow k cores x.1).seen x.1
    | _, _ => t) s
  let t := (t.putWeirs f blocks cores).putSluice f blocks
  let t := t.modFlow f.num fun x =>
    { x with state := .running, cores := cores, order := order, kept := [], keptWeirs := [], keptSluice := [], page := none }
  t.newHead f.queue.val

/-- No other flow holds a sluice context that a saved flow takes back (log 16). -/
def State.sluiceFree (s : State) (f : Flow) : Bool := f.keptSluice.all fun q => (s.sluice[q.1]).isNone

/-- A resume on cores (R418, R443): its accesses may need a page or be fatal; a block that fails its checks is fatal, and
its record holds the resume point of the block. -/
def State.resume (s : State) (f : Flow) (cores : List CoreId) (order : Nat) : State :=
  match s.saveStop f .rd with
  | some (va, .absent) =>
    let (u, id) := s.postPage va Need.rd.access 8 f.space f.num none
    u.modFlow f.num fun x => { x with page := some id }
  | some (va, _) => s.accessFatal f 0x04 va
  | none =>
    let blocks := (List.range f.rec_.count).map fun i =>
      s.bytesIn f.space (f.rec_.save + BitVec.ofNat 64 (blockSize * i)) blockSize
    let bad := blocks.zipIdx.findSome? fun b =>
      (blockBad s.part b.1 b.2 f.rec_.sites f.rec_.spillWords (b.2 % 4 = 3 && !f.keptWeirs.isEmpty)
        (if b.2 = 0 then f.keptSluice.map (·.1.val) else [])).map fun o => (b.1, b.2, o)
    match bad with
    | some (bs, rank, o) =>
      s.saveFatal f 0x10 (BitVec.ofNat 64 (fieldAt bs 8 8)) (f.rec_.save + BitVec.ofNat 64 (blockSize * rank + o))
    | none => s.writeBack f blocks cores order

end Sys2Proof.Machine
end

