-- ==== Sys2Proof/Machine/Schedule.lean ====
section
/-! DEFINITION. Dispatch decisions, pre-emption by the pumphouse, retirement, and the host's verdicts on page requests
(R25, R401, R404, R405, R410, R416, R434, R436, R439, R476). -/

namespace Sys2Proof.Machine

open Sys2Proof

/-! ### Runnable slots (R404, R439) -/

/-- A head that waits only for a placement. -/
inductive Ready where
  | flow (f : Flow)
  | record (q : Queue) (bs : List Byte)
  deriving DecidableEq, Repr

/-- The record that shapes the group. -/
def Ready.rec_ : Ready → Record
  | .flow f => f.rec_
  | .record _ bs => Record.of bs

/-- The queue of a head. -/
def Ready.queue : Ready → Fin 256
  | .flow f => f.queue
  | .record q _ => q.num

/-- The die whose pumphouse places the head. -/
def Ready.die (r : Ready) : Fin 4 := Fin.ofNat 4 (r.queue.val / 64)

/-- The head of a slot, when it is ready for placement: its dependences met, its checks passed, no page awaited, and the
sluice contexts of a pre-empted flow free (R352, R404; log 16). -/
def State.readyAt (s : State) (d : Fin 4) (i : Fin 16) : Option Ready :=
  match s.slotAt d i with
  | none => none
  | some x =>
    if x.page.isSome then none
    else match s.headOf x.queue.val, s.queue? x.queue.val with
      | .flow f, _ =>
        if f.page.isSome || f.fate.isSome || !x.ready || !s.sluiceFree f then none else some (.flow f)
      | .record bs, some q => if x.ready && s.recordCheck q.space bs = .ok then some (.record q bs) else none
      | _, _ => none

/-- The ready head of a queue. -/
def State.readyOf (s : State) (q : Fin 256) : Option Ready := (s.mappedAt q.val).bind fun p => s.readyAt p.1 p.2

/-- All of a list of optional values. -/
def allSome {α : Type} : List (Option α) → Option (List α)
  | [] => some []
  | none :: _ => none
  | some a :: r => (allSome r).map (a :: ·)

/-- The heads that are dispatched with a head: those of its cluster, when every one is ready (R439). -/
def State.party (s : State) (r : Ready) : Option (List Ready) :=
  match r with
  | .flow f =>
    let peers := s.flows.filter fun g => f.peer g && !g.over
    if peers.all fun g => g.state = .saved then
      allSome (peers.map fun g => (s.readyOf g.queue).bind fun x => if x = .flow g then some x else none)
    else none
  | .record q _ =>
    if q.cluster.isNone then some [r]
    else allSome ((s.queues.filter fun y => y.cluster = q.cluster).map fun y => (s.readyOf y.num).bind fun x =>
      match x with
      | .record _ _ => some x
      | .flow _ => none)

/-- Placements of a party at once: one offer per member is taken where it is a placement (R407, R439; log 15). -/
def State.placeParty (s : State) : List CoreId → List Ready → List (List CoreId) → Option (List (Ready × List CoreId))
  | _, [], _ => some []
  | taken, m :: r, offers =>
    match s.choosePlace taken m.rec_ m.die offers.head? with
    | none => none
    | some cs => (State.placeParty s (taken ++ cs) r (offers.drop 1)).map ((m, cs) :: ·)

/-- A runnable slot: its party has a placement now. -/
def State.runnable (s : State) (d : Fin 4) (i : Fin 16) : Bool :=
  match (s.readyAt d i).bind s.party with
  | some ms => (s.placeParty [] ms []).isSome
  | none => false

/-! ### A dispatch decision (R405) -/

/-- Effective level of a slot. -/
def State.levelOf (s : State) (d : Fin 4) (i : Fin 16) : Nat :=
  match s.slotAt d i with
  | some x => x.effective
  | none => 0

/-- Distance of a slot above the one dispatched last at its level, wrapping. -/
def aboveSlot (last i : Fin 16) : Nat := (i.val + 15 - last.val) % 16

/-- The slot that a decision dispatches: the highest effective level, then the lowest number above last(L). -/
def State.pickSlot (s : State) (d : Fin 4) : Option (Fin 16) :=
  ((fins 16).filter (s.runnable d)).foldl (fun m i => match m with
    | none => some i
    | some o =>
      let a := s.levelOf d i
      let b := s.levelOf d o
      let last := (s.houses[d]).lastAt[Fin.ofNat 4 a]
      if b < a || (a = b && aboveSlot last i < aboveSlot last o) then some i else some o) none

/-- A slot that a decision passes over ages (R405). -/
def Slot.age (x : Slot) : Slot :=
  if x.passes + 1 = 64 then { x with effective := min (x.effective + 1) 3, passes := 0 } else { x with passes := x.passes + 1 }

/-- The save area of a saved member cannot be read now. -/
def State.resumeStops (s : State) : Ready → Bool
  | .flow f => (s.saveStop f .rd).isSome
  | .record _ _ => false

/-- Place or resume one head (R405). -/
def State.dispatchOne (s : State) (m : Ready) (cs : List CoreId) (order : Nat) : State :=
  match m with
  | .flow f => s.resume f cs order
  | .record q bs => s.placeRecord q bs cs order

/-- The slots of a party are dispatched: their level is the base level of their new head (R405). -/
def State.settled (s : State) (d : Fin 4) (i : Fin 16) : State :=
  s.modSlot d i fun x => some { x with effective := x.base, passes := 0 }

/-- One decision of a pumphouse on the slot it has picked. -/
def State.decide (s : State) (d : Fin 4) (i : Fin 16) (offers : List (List CoreId)) : State :=
  match (s.readyAt d i).bind s.party with
  | none => s
  | some ms =>
    match (s.placeParty [] ms offers).orElse fun _ => s.placeParty [] ms [] with
    | none => s
    | some ps =>
      if ms.any s.resumeStops then
        (ps.filter fun p => s.resumeStops p.1).foldl (fun t p => t.dispatchOne p.1 p.2 s.nextOrder) s
      else
        let level := Fin.ofNat 4 (s.levelOf d i)
        let mine := ms.map fun m => m.queue
        let others := (fins 16).filter fun j => s.runnable d j && match s.slotAt d j with
          | some x => !mine.contains x.queue
          | none => false
        let t := ps.foldl (fun t p => t.dispatchOne p.1 p.2 s.nextOrder) { s with nextOrder := s.nextOrder + 1 }
        let t := mine.foldl (fun t q => match t.mappedAt q.val with
          | some p => t.settled p.1 p.2
          | none => t) t
        let t := others.foldl (fun t j => t.modSlot d j fun x => some x.age) t
        t.modHouse d fun h => { h with lastAt := setAt h.lastAt level i }

/-- Records wait in firmware beyond the 1,024 that a ring admits: no decision is made (R476). A recovery ring that has been placed
and is full follows R463 and stops nothing. -/
def State.ringsStuck (s : State) : Bool :=
  s.rings.toList.zipIdx.any fun q => 1024 < q.1.waiting.length && (q.2 ≠ 2 || q.1.base.isNone)

/-- DISPATCH_DECISION (R405): slots that hold nothing are freed, the heads of the others checked, one of them dispatched. -/
def State.dispatch (s : State) (d : Fin 4) (offers : List (List CoreId)) : State :=
  if s.ringsStuck then s
  else
    let s := (fins 16).foldl (fun s i => s.pollSlot d i) (s.unmapStale d)
    match s.pickSlot d with
    | none => s.houseDone
    | some i => ((s.decide d i offers).unmapStale d).houseDone

/-- DISPATCH_DECISION. -/
def execDispatchDecision (die : Fin 4) (place : List (List CoreId)) (s : State) : Out :=
  .next (if s.shut then s else s.dispatch die place)

/-! ### Pre-emption by the pumphouse (R416) -/

/-- The state as placement would find it without the flows of the given numbers. -/
def State.without (s : State) (ns : List (BitVec 32)) : State :=
  { s with flows := s.flows.filter fun f => !ns.contains f.num }

/-- The party has a placement when the flows of `ns` are gone, and those that freeze already. -/
def State.fitsWithout (s : State) (ms : List Ready) (ns : List (BitVec 32)) : Bool :=
  ((s.without (ns ++ ((s.flows.filter fun f => f.state = .freezing).map (·.num)))).placeParty [] ms []).isSome

/-- Victims in order: ascending prio, then the most recently dispatched first; each with its cluster (R416, R439). -/
def State.victims (s : State) (level : Nat) : List Flow :=
  (s.flows.filter fun f => f.state = .running && !s.groupDone f &&
    (s.flows.filter fun g => f.peer g && g.state = .running).all fun g => g.rec_.prio < level).mergeSort fun a b =>
      a.rec_.prio < b.rec_.prio || (a.rec_.prio = b.rec_.prio && b.order ≤ a.order)

/-- The shortest beginning of the victims that makes room. -/
def State.enough (s : State) (ms : List Ready) : List (BitVec 32) → List (BitVec 32) → Option (List (BitVec 32))
  | done, rest =>
    if s.fitsWithout ms done then some done
    else match rest with
      | [] => none
      | n :: r => State.enough s ms (done ++ [n]) r

/-- Victims that the placement does not need are spared, the last ones first. -/
def State.spare (s : State) (ms : List Ready) (all : List (BitVec 32)) : List (BitVec 32) :=
  all.reverse.foldl (fun keep n =>
    let less := keep.filter (· ≠ n)
    if s.fitsWithout ms less then less else keep) all

/-- The flows that the pumphouses pre-empt for a slot: none while a placement exists (R416). -/
def State.chosenVictims (s : State) (d : Fin 4) (i : Fin 16) : List (BitVec 32) :=
  match s.slotAt d i, (s.readyAt d i).bind s.party with
  | some x, some ms =>
    if (s.placeParty [] ms []).isSome then []
    else match s.enough ms [] ((s.victims x.base).map (·.num)) with
      | some all => s.spare ms all
      | none => []
  | _, _ => []

/-- PREEMPT_REQUEST (R416, R417): the flow is pre-empted when some slot of some pumphouse needs its cores. -/
def execPreemptRequest (flow : Nat) (s : State) : Out :=
  let n := BitVec.ofNat 32 flow
  let slots := ((fins 4).map fun d => (fins 16).map fun i => (d, i)).flatten
  .next (if s.shut || !slots.any (fun p => (s.chosenVictims p.1 p.2).contains n) then s else s.preempt n)

/-! ### Retirement (R25, R288, R410, R439) -/

/-- The group has nothing left to do before its completion word (R25, R288, R410). -/
def State.retirable (s : State) (f : Flow) : Bool :=
  f.state = .running && f.page.isNone && f.due.isEmpty && s.groupDone f &&
    !(s.nmas.any fun x => f.cores.contains x.core) && !(s.jobs.any fun j => f.cores.contains j.core)

/-- The flow leaves its cores: they are cleared once its cluster is over (R352, R439, R442), and every slot reads again what
it waits for (R404). -/
def State.leave (s : State) (f : Flow) : State :=
  let t := (s.releaseSluice f.num).modFlow f.num fun x => { x with state := .retired, page := none }
  ((t.closeWindows f).closeCluster f).pollAll

/-- The completion word cannot be written: the cores are freed, the queue enters the error state (R410). -/
def State.retireLost (s : State) (f : Flow) : State := (s.leave f).groupError f 0x04

/-- What the agents of some cores know is released at `.pod` with the word that a pumphouse writes (R410). -/
def State.completeWrite (s : State) (cs : List CoreId) (pa : Nat) (v : Word) : State :=
  let t := s.addRelease none .pod false (.word true) fun e => e.known.any fun q => (q.1.core?).any cs.contains
  t.engineWrite .house pa (toLE 8 v.toNat) [s.serial]

/-- FLOW_RETIRE (R25, R410): pending writes and writebacks first, then the completion word. -/
def State.retire (s : State) (n : BitVec 32) : State :=
  match s.flow? n with
  | none => s
  | some f =>
    if !s.retirable f then s
    else
      let t := s.performWhere fun w => f.cores.contains w.core
      if f.rec_.completion = 0 then t.leave f
      else match t.translateIn f.space f.rec_.completion .wr with
        | .at pa => (t.completeWrite f.cores pa f.rec_.value).leave f
        | .absent =>
          let (u, id) := t.postPage f.rec_.completion Need.wr.access 8 f.space f.num none
          u.modFlow f.num fun x => { x with page := some id }
        | .forbidden => t.retireLost f

/-- FLOW_RETIRE. -/
def execFlowRetire (flow : Nat) (s : State) : Out := .next (if s.shut then s else s.retire (BitVec.ofNat 32 flow))

/-! ### Verdicts on page requests (R401, R406, R410, R434, R436) -/

/-- The waiting notifies of a queue are sent again in order (R401). -/
def State.resend (s : State) (q : Queue) : State :=
  let t := s.modQueue q.num.val fun x => { x with waiting := [], page := none }
  q.waiting.foldl (fun t b => match t.queue? q.num.val with
    | some x => t.notified x b
    | none => t) t

/-- The round that holds a waiting access is aborted and replayed, with the others of its domain (R239, R436). A stream of
kind 1 or 2 holds its round already and repeats the access. -/
def State.replayRun (s : State) (c : CoreId) : AgRun → State
  | .frame r _ => s.rewind (s.domain c r)
  | .stream _ t => if t.kind = .feed || t.kind = .take then s.rewind (s.domain c t.region) else s

/-- An AG that waits on request `id`: a retry replays its round, a fail is a fault (R436). -/
def State.agVerdict (s : State) (c : CoreId) (a : Fin 8) (id : BitVec 32) (fail : Bool) : State :=
  match ((s.core c).fab.ags[a]).page with
  | none => s
  | some (n, va) =>
    if n ≠ id then s
    else
      let t := s.modCore c fun k => k.modAg a fun x => { x with page := none }
      match (t.core c).agRun a with
      | some (run, _) => if fail then t.agFault c a 0x03 va run else t.replayRun c run
      | none => t

/-- The queue whose doorbell word a blocked `launch` waits for. -/
def State.launchBell (s : State) (c : CoreId) (va : Word) : Option Queue :=
  match (s.pump c).block with
  | some (.launch _) => (s.ownQueue c).filter fun q => q.doorbell = va
  | _ => none

/-- A pump that waits on request `id` goes on, or takes fault 0x03 precisely (R295, R434). An instruction that has
issued completes before an asynchronous trap is taken (R120), so the pump stays blocked in it until its next turn. A
`launch` whose doorbell word fails puts the queue into the error state, as a notify does, and appends nothing (R401; log
90). -/
def State.pumpVerdict (s : State) (c : CoreId) (id : BitVec 32) (fail : Bool) : State :=
  match (s.pump c).page with
  | none => s
  | some (n, va) =>
    if n ≠ id then s
    else if fail then
      match s.launchBell c va with
      | some q =>
        -- notifies that wait on the same request put the queue into the error state themselves
        let t := if q.page = some id then s else (s.queueError q.num.val 0x04 0).unmap q.num.val
        (t.modPump c fun p => p.unblock s.now).goOn c
      | none => s.takeFault c { code := 0x03, fab := false, region := 0, tval := va } (s.pump c).pc
    else s.modPump c fun p => if p.block.isSome then { p with page := none } else p.unblock s.now

/-- A queue whose notifies wait on request `id` (R401). -/
def State.queueVerdict (s : State) (q : Queue) (id : BitVec 32) (fail : Bool) : State :=
  if q.page ≠ some id then s
  else if fail then
    (((s.queueError q.num.val 0x04 0).unmap q.num.val).resend { q with waiting := q.waiting.drop 1 })
  else s.resend q

/-- A flow that waits on request `r` (R394, R410, R436, R447): its fatal record is lost, its completion word cannot be
written, or an access to its save area fails. -/
def State.flowVerdict (s : State) (f : Flow) (r : PageReq) (fail : Bool) : State :=
  if f.page ≠ some r.id then s
  else
    let t := s.modFlow f.num fun x => { x with page := none }
    let f := { f with page := none }
    if !fail then t
    else match f.fate with
      | some e => t.endFatal f e.code
      | none =>
        if f.state = .running then t.retireLost f
        else match t.saveStop f (if f.state = .saved then .rd else .wr) with
          | some (va, _) => t.accessFatal f 0x03 va
          | none => t

/-- A slot whose head waits on request `id` (R406). -/
def State.slotVerdict (s : State) (d : Fin 4) (i : Fin 16) (id : BitVec 32) (fail : Bool) : State :=
  match s.slotAt d i with
  | none => s
  | some x =>
    if x.page ≠ some id then s
    else
      let t := s.modSlot d i fun y => some { y with page := none }
      if fail then t.rejectRecord x.queue.val 0x04 else t

/-- An armed swap that a page of a bind holds up tries again, or takes the fabric fault 0x03 (R324, R436). -/
def State.swapVerdict (s : State) (c : CoreId) (r : Fin 8) (q : PageReq) (fail : Bool) : State :=
  let x := (s.core c).fab.regions[r]
  if x.page ≠ some q.id then s
  else
    let t := s.modCore c fun k => k.modRegion r fun x => { x with page := none }
    match fail, x.swapPlane with
    | true, some n => t.swapFault c r n 0x03 q.va
    | _, _ => t

/-- A verdict reaches what waits on core `c` (R394, R398, R434, R436). -/
def State.coreVerdict (s : State) (c : CoreId) (r : PageReq) (fail : Bool) : State :=
  let t := s.pumpVerdict c r.id fail
  let t := (fins 8).foldl (fun t a => t.agVerdict c a r.id fail) t
  let t := (fins 8).foldl (fun t x => (t.swapVerdict c x r fail).stillVerdict c x r.id fail) t
  ((fins 4).foldl (fun t n => t.fetchVerdict c n r.id fail) t).seen c

/-- A verdict reaches every access that waits on the request (R434). -/
def State.verdict (s : State) (r : PageReq) (fail : Bool) : State :=
  let s := { s with requests := s.requests.filter (·.id ≠ r.id) }
  let s := (fins 256).foldl (fun s c => s.coreVerdict c r fail) s
  let s := s.queues.foldl (fun s q => s.queueVerdict q r.id fail) s
  let s := ((fins 4).map fun d => (fins 16).map fun i => (d, i)).flatten.foldl (fun s p => s.slotVerdict p.1 p.2 r.id fail) s
  s.flows.foldl (fun s f => s.flowVerdict f r fail) s

/-- PAGE_REQUEST_VERDICT (R434, R473): an id that is not outstanding is ignored. -/
def State.takeVerdict (s : State) (id : BitVec 32) (fail : Bool) : State :=
  match s.requests.find? (·.id = id) with
  | some r => s.verdict r fail
  | none => s

/-- PAGE_REQUEST_VERDICT. -/
def execPageRequestVerdict (id : BitVec 32) (fail : Bool) (s : State) : Out := .next (s.takeVerdict id fail)

/-- PAGE_REQUEST_TIMEOUT (R434): firmware answers a request of 2^32 cycles with fail. -/
def execPageRequestTimeout (id : BitVec 32) (s : State) : Out :=
  .next (match s.requests.find? (·.id = id) with
    | some r => if 2 ^ 32 ≤ s.now - r.postedAt then s.verdict r true else s
    | none => s)

/-- A write of a notify register from the host (R401, R473, R479). -/
def State.notifyRegister (s : State) (q : Nat) (v : Word) : State :=
  match s.queue? q with
  | some x => if s.stage = 4 then s.notified x v else s
  | none => s

/-- NOTIFY_REGISTER_WRITE. -/
def execNotifyRegisterWrite (q : Fin 256) (v : Word) (s : State) : Out := .next (s.notifyRegister q.val v)

end Sys2Proof.Machine
end

