-- ==== Sys2Proof/Machine/HostPort.lean ====
section
/-! DEFINITION. The Causeway window, the host's accesses and the mailbox commands of firmware (R399, R428, R437, R439,
R471 to R477, R481 to R483). -/

namespace Sys2Proof.Machine

open Sys2Proof

/-! ### Physical memory from the host (R471, R474) -/

/-- Package offset of the window of L2 into which a firmware image is written (R475, R479). -/
def imageBase : Nat := 0xFF_0000_0000

/-- A range that the host reaches: host memory, HBM, or the image window. -/
def State.hostRange (s : State) (pa n : Nat) : Bool :=
  let o := s.pkg.toNat * 2 ^ 40 + imageBase
  n = 0 || (s.physOk pa && s.physOk (pa + n - 1) && (pa / 2 ^ 46 = (pa + n - 1) / 2 ^ 46)) ||
    (o ≤ pa && pa + n ≤ o + 0x400_0000)

/-- The lines of a range. -/
def linesOf (pa n : Nat) : List Nat :=
  if n = 0 then [] else (List.range ((pa + n - 1) / 256 - pa / 256 + 1)).map (· + pa / 256)

/-- Storage errors that a read of the host meets first (R346, R461). -/
def State.hostMeets (s : State) (pa n : Nat) : State :=
  (linesOf pa n).foldl (fun t l =>
    if codeBroken (codeOf t.codes l) || t.badMeta.contains l then t.meet 0xFFFF 0xFFFF 0 0 (.metadata l)
    else if t.badData.contains l then t.meet 0xFFFF 0xFFFF 0 0 (.line l)
    else if t.badCache.contains l then t.meet 0xFFFF 0xFFFF 0 0 (.cache l)
    else t) s

/-- What the host reads (R474): the newest performed values; bytes of a poisoned line are free (log 32). -/
def State.hostBytes (s : State) (pa n : Nat) : List Byte :=
  (s.mem.read pa n).zipIdx.map fun x =>
    if codeOf s.codes (lineOf (pa + x.2)) = poisonCode then Config.poisonByte (s.tick + x.2) else x.1

/-- A host read of memory, an acquire at `.pod` (R474). -/
def State.hostLoad (s : State) (pa n : Nat) : Out :=
  if s.hostRange pa n then
    let t := s.hostMeets pa n
    .next { (t.noteRead .host .memory pa n).acquireAt .host .pod .memory pa n with hostRead := t.hostBytes pa n, tick := t.tick + n }
  else .fault (.noSuchAddress pa)

/-- One event of a host write: a release at `.pod` (R474). -/
def State.hostWrite (s : State) (pa : Nat) (bytes : List Byte) : State :=
  (s.addRelease none .pod false (.word true) fun e => e.known.any (·.1 = .host)).engineWrite .host pa bytes [s.serial]

/-- A host write, as events of at most a line each. -/
def State.hostWriteAll (s : State) (pa : Nat) (bytes : List Byte) : Nat → State
  | 0 => s
  | fuel + 1 =>
    if bytes.isEmpty then s
    else
      let n := 256 - pa % 256
      State.hostWriteAll (s.hostWrite pa (bytes.take n)) (pa + n) (bytes.drop n) fuel

/-- A host write of memory. -/
def State.hostStore (s : State) (pa : Nat) (bytes : List Byte) : Out :=
  if s.hostRange pa bytes.length then .next (s.hostWriteAll pa bytes (bytes.length / 256 + 2))
  else .fault (.noSuchAddress pa)

/-! ### The registers of the window (R473) -/

/-- Boot status (R479). -/
def State.bootWord (s : State) : Word := BitVec.ofNat 64 (s.stage.toNat + 256 * s.bootErr.toNat)

/-- Mailbox status (R473). -/
def Mailbox.word (m : Mailbox) : Word :=
  BitVec.ofNat 64 (m.result.toNat + (if m.busy then 256 else 0) + if m.overrun then 512 else 0)

/-- The doorbell word that a read of a notify register returns (R473). -/
def State.notifyRead (s : State) (q : Nat) : Word :=
  match s.queue? q with
  | some x => match s.doorbell x with
    | .at pa => s.bellAt x pa
    | _ => 0
  | none => 0

/-- The register of 8 bytes at an offset of the window, as a read returns it: write-only and unlisted ones read zero. -/
def State.windowRead (s : State) (off : Nat) : Word :=
  if off % 8 ≠ 0 then 0
  else if off < 0x800 then s.notifyRead (off / 8)
  else if off = 0x1008 then s.bootWord
  else if 0x1010 ≤ off && off < 0x1040 then leWord (((fit 48 Config.fusedKeyHash).drop (off - 0x1010)).take 8)
  else if off = 0x1088 then s.mailbox.word
  else if 0x1100 ≤ off && off < 0x1130 then
    let r := s.rings[Fin.ofNat 3 ((off - 0x1100) / 16)]
    BitVec.ofNat 64 (if off % 16 = 0 then r.producer else r.consumer)
  else if 0x2000 ≤ off && off < 0x2000 + 48 * 8 then
    leWord ((((s.attest[Fin.ofNat 8 ((off - 0x2000) / 48)]).drop ((off - 0x2000) % 48)).take 8))
  else 0

/-- The verdict register (R473): ignored when other bits are not zero. -/
def State.verdictWrite (s : State) (v : Word) : State :=
  if v.toNat / 2 ^ 33 ≠ 0 then s else s.takeVerdict (v.setWidth 32) (v.getLsbD 32)

/-- The host writes the consumer index of a ring, which lets waiting records be written (R476). -/
def State.consumerWrite (s : State) (j : Fin 3) (v : Word) : State :=
  let r := s.rings[j]
  { s with rings := setAt s.rings j { r with consumer := v.toNat } }.flushRing j

/-- The mailbox go (R473, R475, R479): while busy it is discarded and sets overrun; before stage 4 only the image go,
and in stage 1 any command, is taken. -/
def State.go (s : State) : State :=
  let m := s.mailbox
  if m.busy then { s with mailbox := { m with overrun := true } }
  else if s.stage = 4 || s.stage = 1 || m.command.headD 0 = 11 then { s with mailbox := { m with busy := true } }
  else s

/-- Bytes of the mailbox command register written from offset `o` on. -/
def Mailbox.put (m : Mailbox) (o : Nat) (bytes : List Byte) : Mailbox :=
  { m with command := m.command.zipIdx.map fun x => if o ≤ x.2 then (bytes[x.2 - o]?).getD x.1 else x.1 }

/-- Writes of the mailbox command register, which change it only while no command is under way (R473, log 33). -/
def State.commandWrite (s : State) (off : Nat) (bytes : List Byte) : State :=
  if 0x1040 ≤ off && off < 0x1080 && !s.mailbox.busy then { s with mailbox := s.mailbox.put (off - 0x1040) bytes } else s

/-- A write of 8 bytes to the window: to a register that is read only, or not listed, it is ignored. -/
def State.windowWrite (s : State) (off : Nat) (v : Word) : State :=
  if off % 8 ≠ 0 then s
  else if off < 0x800 then (s.toHouses .host).notifyRegister (off / 8) v
  else if off = 0x1000 then s.verdictWrite v
  else if 0x1040 ≤ off && off < 0x1080 then s.commandWrite off (toLE 8 v.toNat)
  else if off = 0x1080 then s.go
  else if 0x1100 ≤ off && off < 0x1130 && off % 16 = 8 then s.consumerWrite (Fin.ofNat 3 ((off - 0x1100) / 16)) v
  else s

/-- HOST_CAUSEWAY_ACCESS (R473, R474): performed in the order in which the host issues them. -/
def execHostCausewayAccess (acc : HostAccess) (s : State) : Out :=
  match acc with
  | .readMem pa n => s.hostLoad pa n
  | .writeMem pa bytes => s.hostStore pa bytes
  | .readReg off => .next { s with hostRead := toLE 8 (s.windowRead off).toNat }
  | .writeReg off v => .next (s.windowWrite off v)
  | .writeCommand off bytes => .next (s.commandWrite off bytes)

/-- A register of the window that the host can write (R473). -/
def windowWritable (off : Nat) : Bool :=
  off % 8 = 0 && (off < 0x800 || off = 0x1000 || (0x1040 ≤ off && off < 0x1088) ||
    (0x1100 ≤ off && off < 0x1130 && off % 16 = 8))

/-- CAUSEWAY_WRITE_IGNORED (R473): a write to a read-only or unlisted offset, and a go while the mailbox is busy. -/
def execCausewayWriteIgnored (off : Nat) (v : Word) (s : State) : Out :=
  .next (if windowWritable off && !(off = 0x1080 && s.mailbox.busy) then s else s.windowWrite off v)

/-- RING_CONSUMER_WRITE (R473, R476). -/
def execRingConsumerWrite (j : Fin 3) (v : Word) (s : State) : Out := .next (s.consumerWrite j v)

/-! ### Mailbox commands (R475) -/

/-- A field of the command. -/
def Mailbox.f (m : Mailbox) (o n : Nat) : Nat := fieldAt m.command o n

/-- Every byte that the command's row does not name is zero. -/
def Mailbox.clean (m : Mailbox) (ranges : List (Nat × Nat)) : Bool :=
  m.command.zipIdx.all fun x => x.2 = 0 || x.1 = 0 || ranges.any fun r => r.1 ≤ x.2 && x.2 < r.1 + r.2

/-- Firmware holds command `code` to perform: in stage 4, as its events require. -/
def State.holds (s : State) (code : Byte) : Bool := s.mailbox.busy && s.mailbox.command.headD 0 = code && s.stage = 4

/-- The end of a command: the result, then busy clears, and the host is told (R473, R475, R476). -/
def State.answer (s : State) (result : Byte) : State :=
  let t := { s with mailbox := { s.mailbox with busy := false, overrun := false, result := result } }
  if s.stage = 4 then t.hostEvent 7 0 0xFFFF 0 0 else t

/-- Perform a command: a bad operand gives result 1 and changes nothing. -/
def State.command (s : State) (code : Byte) (ok : Bool) (effect : State → State) : Out :=
  .next (if !s.holds code then s else if !ok then s.answer 1 else (effect s).answer 0)

/-- A queue number of the part (R399, R475). -/
def State.queueNo (s : State) (q : Nat) : Bool := q < 64 * s.part.dies

/-- The operands of command 1 keep the ranges of R475, R399, R428 and R439. -/
def State.createOk (s : State) : Bool :=
  let m := s.mailbox
  let q := m.f 0x08 2
  let space : BitVec 8 := BitVec.ofNat 8 (m.f 0x0A 1)
  let cl := m.f 0x0C 1
  let slot := m.f 0x0D 1
  let root := m.f 0x10 8
  m.clean [(0x08, 2), (0x0A, 1), (0x0B, 1), (0x0C, 1), (0x0D, 1), (0x10, 8), (0x18, 8), (0x20, 8)] && s.queueNo q &&
    (s.queue? q).isNone && 2 ≤ m.f 0x0B 1 && m.f 0x0B 1 ≤ 12 &&
    (if cl = 0xFF then slot = 0
     else cl < 32 && slot < 8 && !(s.queues.any fun y => y.cluster.map (·.val) = some cl && y.slot.val = slot)) &&
    root % 2 ^ 20 = 0 && s.physOk root && s.physOk (root + 2 ^ 20 - 1) && m.f 0x18 8 % 256 = 0 && m.f 0x18 8 < 2 ^ 56 &&
    m.f 0x20 8 % 8 = 0 && m.f 0x20 8 < 2 ^ 56 &&
    match s.spaces.find? (·.1 = space) with
    | some x => x.2 = root
    | none => true

/-- The queue of command 1. -/
def Mailbox.newQueue (m : Mailbox) : Queue :=
  let cl := m.f 0x0C 1
  { num := Fin.ofNat 256 (m.f 0x08 2)
    space := BitVec.ofNat 8 (m.f 0x0A 1)
    base := BitVec.ofNat 64 (m.f 0x18 8)
    log2n := m.f 0x0B 1
    doorbell := BitVec.ofNat 64 (m.f 0x20 8)
    head := 0
    code := 0
    err := false
    rejected := false
    fresh := true
    cluster := if cl = 0xFF then none else some (Fin.ofNat 32 cl)
    slot := Fin.ofNat 8 (m.f 0x0D 1)
    waiting := []
    page := none }

/-- Queues in the order of their numbers. -/
def insertQueue (q : Queue) : List Queue → List Queue
  | [] => [q]
  | x :: r => if q.num < x.num then q :: x :: r else x :: insertQueue q r

/-- CREATE_QUEUE (R399, R428, R439, R475): the doorbell word is written 0, when its page comes (log 34). -/
def State.create (s : State) : State :=
  let q := s.mailbox.newQueue
  let root := s.mailbox.f 0x10 8
  let s := if s.spaces.any (·.1 = q.space) then s else { s with spaces := s.spaces ++ [(q.space, root)] }
  let s := { s with queues := insertQueue q s.queues }
  match s.doorbell q with
  | .at pa => s.raiseDoorbell q pa 0
  | .absent => (s.postPage q.doorbell Need.wr.access 8 q.space 0 none).1
  | .forbidden => s

/-- CREATE_QUEUE. -/
def execCreateQueue (s : State) : Out := s.command 1 s.createOk State.create

/-- The operand of commands 2 and 3 names a created queue. -/
def State.namesQueue (s : State) : Bool := (s.queue? (s.mailbox.f 0x08 2)).isSome

/-- DESTROY_QUEUE (R403, R475): pending records go with the queue; its flows run on. -/
def State.destroy (s : State) : State :=
  let q := s.mailbox.f 0x08 2
  let s := { s with
    queues := s.queues.filter (fun x => x.num.val ≠ q)
    flows := s.flows.map (fun (f : Flow) => { f with orphan := f.orphan || f.queue.val = q }) }
  if (s.saved q).isEmpty then s.unmap q else s.newHead q

/-- DESTROY_QUEUE. -/
def execDestroyQueue (s : State) : Out := s.command 2 (s.mailbox.clean [(0x08, 2)] && s.namesQueue) State.destroy

/-- CLEAR_ERROR_STATE (R399, R406, R475): with skip, head passes a rejected record. -/
def State.clearError (s : State) : State :=
  let skip := s.mailbox.f 0x0A 1 = 1
  s.modQueue (s.mailbox.f 0x08 2) fun x =>
    { x with err := false, code := 0, rejected := false, head := if skip && x.rejected then x.head + 1 else x.head }

/-- CLEAR_ERROR_STATE. -/
def execClearErrorState (s : State) : Out :=
  s.command 3 (s.mailbox.clean [(0x08, 2), (0x0A, 1)] && s.namesQueue && s.mailbox.f 0x0A 1 ≤ 1) State.clearError

/-! ### Invalidation (R437) -/

/-- The operands of command 4 keep their ranges. -/
def Mailbox.rangeOk (m : Mailbox) : Bool :=
  let lo := m.f 0x10 8
  let len := m.f 0x18 8
  m.clean [(0x08, 1), (0x10, 8), (0x18, 8)] && lo % 65536 = 0 && len ≠ 0 && len % 65536 = 0 && lo + len ≤ 2 ^ 56

/-- INVALIDATE_RANGE (R437, R475): the invalidation is in progress; the command is done at its completion. -/
def execInvalidateRange (s : State) : Out :=
  .next (if !s.holds 4 || s.invalidation.isSome then s
    else if !s.mailbox.rangeOk then s.answer 1
    else
      let m := s.mailbox
      { s with invalidation := some { space := BitVec.ofNat 8 (m.f 0x08 1), lo := m.f 0x10 8, hi := m.f 0x10 8 + m.f 0x18 8 } })

/-- A cached entry that covers part of the range. -/
def Invalidation.covers (v : Invalidation) (e : TlbEntry) : Bool :=
  e.space = v.space && e.vbase < v.hi && v.lo < e.vbase + e.size

/-- A cached partial walk that does. -/
def Invalidation.coversWalk (v : Invalidation) (e : PartWalk) : Bool :=
  e.space = v.space && e.vbase < v.hi && v.lo < e.vbase + e.size

/-- An address of core `c` that was translated in the range. -/
def State.inRange (s : State) (v : Invalidation) (c : CoreId) (va : Word) : Bool :=
  (s.launch c).space = v.space && v.lo ≤ va.toNat && va.toNat < v.hi

/-- Writes with an old translation of the range are still to be performed, or lines of streams of the space to be written
behind a sluice context (log 91). -/
def State.oldWrites (s : State) (v : Invalidation) : Bool :=
  (s.pending.any fun w => s.inRange v w.core w.va) || (s.nmas.any fun w => s.inRange v w.core w.va) ||
    s.jobs.any fun j => j.write && (s.launch j.core).space = v.space

/-- INVALIDATE_COMPLETE (R437): every cached entry and partial walk of the range is gone, and every event from now on uses
the new table: writes that an old translation has placed come first. -/
def execInvalidateComplete (s : State) : Out :=
  .next (match s.invalidation with
    | none => s
    | some v =>
      if s.oldWrites v then s
      else
        { s with
          invalidation := none
          cores := mapVec (fun k : Core =>
            { k with tlb := k.tlb.filter (fun e => !v.covers e), walks := k.walks.filter fun w => !v.coversWalk w }) s.cores }.answer 0)

/-! ### Pre-emption, pods, rings, power (R416, R475, R476, R483) -/

/-- HOST_PREEMPT (R416, R419, R475): a flow that does not run is left as it is. -/
def execHostPreempt (s : State) : Out :=
  s.command 5 (s.mailbox.clean [(0x08, 4)]) fun s => s.preempt (BitVec.ofNat 32 (s.mailbox.f 0x08 4))

/-- A port identifier of the package under another package number (R472). -/
def renumber (pkg : BitVec 6) (p : BitVec 16) : BitVec 16 :=
  BitVec.ofNat 16 (p.toNat / 4096 * 4096 + pkg.toNat * 64 + p.toNat % 64)

/-- What memory holds in the package of number `old` or behind the Causeway link, under the package's new number: addresses in
units of `2 ^ k` bytes. What other packages hold is theirs, and stays with the pod that the package leaves (R471; log 92). -/
def renumbered {α : Type} (k old new : Nat) (l : List (Nat × α)) : List (Nat × α) :=
  let own (c : Nat × α) : Bool := c.1 < 2 ^ (46 - k) && c.1 / 2 ^ (40 - k) = old
  ((l.filter own).map fun c => (new * 2 ^ (40 - k) + c.1 % 2 ^ (40 - k), c.2)) ++ l.filter fun c => 2 ^ (46 - k) ≤ c.1

/-- An address under the new number of its package. -/
def renumber1 (k old new a : Nat) : Nat := (renumbered k old new [(a, ())]).head?.map (·.1) |>.getD a

/-- The package takes a number: what it holds, and what is on its way there, goes by that number from now on (R471). -/
def State.takeNumber (s : State) (new : Nat) : State :=
  let old := s.pkg.toNat
  let pa := renumber1 0 old new
  let line := renumber1 8 old new
  let lines (l : List Nat) : List Nat := (renumbered 8 old new (l.map fun n => (n, ()))).map (·.1)
  let at_ (b : Bank) (a : Nat) : Nat := match b with
    | .memory => pa a
    | .cistern _ => a
  let event (e : Event) : Event := { e with lo := at_ e.bank e.lo }
  if old = new then s
  else
  { s with
    mem := renumbered 0 old new s.mem
    codes := renumbered 8 old new s.codes
    badMeta := lines s.badMeta
    badData := lines s.badData
    badCache := lines s.badCache
    rawByNma := lines s.rawByNma
    pending := s.pending.map fun w => { w with pa := pa w.pa }
    nmas := s.nmas.map fun w => { w with pa := pa w.pa }
    jobs := s.jobs.map fun j => { j with tokens := j.tokens.map fun t => (pa t.1, t.2) }
    folds := s.folds.map fun f => { f with pa := pa f.pa }
    crossings := s.crossings.map fun x => { x with port := BitVec.ofNat 16 (x.port.toNat / 4096 * 4096 + new * 64 + x.port.toNat % 64) }
    stale := s.stale.map fun e => { e with lo := at_ e.bank e.lo }
    recent := s.recent.map event
    releases := s.releases.map fun r => { r with writes := r.writes.map fun w => (event w.1, w.2) }
    cores := mapVec (fun k : Core =>
      { k with fab := { k.fab with binds := k.fab.binds.map fun b =>
          { b with ranges := b.ranges.map (fun r => (line r.1, line (r.2.1 - 1) + 1, r.2.2)), copied := b.copied.map line } } }) s.cores }

/-- JOIN_POD (R29, R96, R475, R477): the package takes its number; Levee links that the mask names come up again. -/
def State.join (s : State) : State :=
  let m := s.mailbox
  let pkg : BitVec 6 := BitVec.ofNat 6 (m.f 0x08 1)
  let mask := m.f 0x0A 2
  { s.takeNumber pkg.toNat with
    pkg := pkg
    pod := some (BitVec.ofNat 64 (m.f 0x10 8), BitVec.ofNat 16 mask)
    linksDown := (s.linksDown.filter fun p => !(p.toNat / 4096 = 1 && mask / 2 ^ (p.toNat % 64) % 2 = 1)).map (renumber pkg) }

/-- JOIN_POD. -/
def execJoinPod (s : State) : Out :=
  s.command 6 (s.mailbox.clean [(0x08, 1), (0x0A, 2), (0x10, 8)] && s.mailbox.f 0x08 1 < 64 &&
    s.mailbox.f 0x0A 2 < 2 ^ s.part.leveePorts) State.join

/-- PLACE_RING (R475, R476): indices restart at 0, seq counts on, and waiting records are written in order. -/
def State.place (s : State) : State :=
  let m := s.mailbox
  let j := Fin.ofNat 3 (m.f 0x08 1)
  let r := s.rings[j]
  { s with rings := setAt s.rings j { r with base := some (m.f 0x10 8), log2n := m.f 0x09 1, producer := 0, consumer := 0 } }.flushRing j

/-- PLACE_RING. -/
def execPlaceRing (s : State) : Out :=
  let m := s.mailbox
  let base := m.f 0x10 8
  s.command 7 (m.clean [(0x08, 1), (0x09, 1), (0x10, 8)] && m.f 0x08 1 < 3 && 4 ≤ m.f 0x09 1 && m.f 0x09 1 ≤ 16 &&
    base % 4096 = 0 && s.physOk base && s.physOk (base + 32 * 2 ^ m.f 0x09 1 - 1)) State.place

/-- SET_POWER_CAP (R475, R483). -/
def execSetPowerCap (s : State) : Out :=
  let w := s.mailbox.f 0x08 4
  s.command 10 (s.mailbox.clean [(0x08, 4)] && 600 ≤ w && w ≤ s.part.watts) fun s => { s with powerCap := w }

/-! ### Attestation (R481, R482) -/

/-- Register i ← SHA-384(register i followed by the digest) (R481). -/
def State.extend (s : State) (i : Fin 8) (digest : List Byte) : State :=
  { s with attest := setAt s.attest i (fit 48 (Config.sha384 (s.attest[i] ++ digest))) }

/-- EXTEND_REGISTER (R475, R481). -/
def execExtendRegister (s : State) : Out :=
  let i := s.mailbox.f 0x08 1
  s.command 9 (s.mailbox.clean [(0x08, 1), (0x10, 48)] && 3 ≤ i && i ≤ 7) fun s =>
    s.extend (Fin.ofNat 8 i) ((s.mailbox.command.drop 0x10).take 48)

/-- The signed part of a quote (R482). -/
def State.quoteBody (s : State) (nonce : List Byte) : List Byte :=
  nonce ++ s.attest.toList.flatten ++ toLE 8 0x030300 ++ toLE 8 s.part.feat0.toNat ++ toLE 24 0 ++ s.part.name

/-- A quote, or the public key for a nonce of zeros (R482; log 12). -/
def State.quote (s : State) (nonce : List Byte) : List Byte :=
  if nonce.all (· = 0) then fit 97 Config.identityPublic
  else s.quoteBody nonce ++ fit 96 (Config.identitySign (Config.sha384 (s.quoteBody nonce)))

/-- ATTESTATION_QUOTE (R475, R482). -/
def execAttestationQuote (s : State) : Out :=
  let pa := s.mailbox.f 0x08 8
  let bs := s.quote ((s.mailbox.command.drop 0x20).take 32)
  s.command 8 (s.mailbox.clean [(0x08, 8), (0x20, 32)] && pa % 64 = 0 && s.hostRange pa bs.length) fun s =>
    s.engineWriteAll .engine pa bs 8

/-! ### Commands that give result 2 (R475) -/

/-- The command under way is unlisted, or not allowed in this stage. -/
def State.unknown (s : State) : Bool :=
  let code := s.mailbox.command.headD 0
  s.mailbox.busy &&
    (code = 0 || 11 < code.toNat || (code = 11 && s.stage ≠ 1 && s.stage ≠ 2 && s.stage ≠ 0x0E) || (code ≠ 11 && s.stage = 1))

/-- UNKNOWN_COMMAND (R475). -/
def execUnknownCommand (s : State) : Out := .next (if s.unknown then s.answer 2 else s)

end Sys2Proof.Machine
end

