-- ==== Sys2Proof/Machine/Boot.lean ====
section
/-! DEFINITION. Bring-up, links, device reset, heat (R407, R477 to R481, R483). -/

namespace Sys2Proof.Machine

open Sys2Proof

/-! ### The firmware image (R480) -/

/-- The bytes that stand at the image window of the package. -/
def State.imageBytes (s : State) (n : Nat) : List Byte := s.mem.read (s.pkg.toNat * 2 ^ 40 + imageBase) n

/-- The image with its signature field read as zero (R480). -/
def unsigned (image : List Byte) : List Byte := image.take 0x79 ++ List.replicate 96 0 ++ image.drop 0xD9

/-- The error with which an image of `n` bytes is rejected, in the order of R480. -/
def State.imageErr (s : State) (n : Nat) : Option Byte :=
  let header := s.imageBytes 256
  let size := fieldAt header 0x08 8
  let key := (header.drop 0x18).take 97
  if size ≠ n || size < 256 || 0x400_0000 < size then some 1
  else if Config.sha384 key ≠ Config.fusedKeyHash then some 2
  else if !Config.ecdsaVerify key (Config.sha384 (unsigned (s.imageBytes size))) ((header.drop 0x79).take 96) then some 3
  else none

/-- The image is verified; if good, measured and started (R479, R481). -/
def State.startImage (s : State) : State :=
  let n := s.mailbox.f 0x08 8
  match s.imageErr n with
  | some e => { s with stage := 0x0E, bootErr := e }.answer 0
  | none =>
    let digest := Config.sha384 (s.imageBytes n)
    let t := (s.extend 0 digest).extend 1 Config.fusedKeyHash
    { t with stage := 3, bootErr := 0 }.answer 0

/-- BOOT_IMAGE (R475, R479 to R481): the boot ROM takes the command in stage 1, and after a rejected image, and enters stage 2;
the event after it ends the verification. -/
def execBootImage (s : State) : Out :=
  .next (if !s.mailbox.busy || s.mailbox.command.headD 0 ≠ 11 then s
    else if s.stage = 2 then s.startImage
    else if s.stage ≠ 1 && s.stage ≠ 0x0E then s
    else if !s.mailbox.clean [(0x08, 8)] then s.answer 1
    else { s with stage := 2, bootErr := 0 })

/-- LINK_TRAINING_DONE (R479): the boot ROM awaits the image. -/
def execLinkTrainingDone (s : State) : Out := .next (if s.stage = 0 then { s with stage := 1 } else s)

/-- The defect map (R407): the usable compute sites of each core, 0 for an unusable core, 64 where the list ends. -/
def State.withDefects (s : State) (defects : List Nat) : State :=
  let cs := (fins 256).filter fun c => c.val < s.part.cores
  let sites (c : CoreId) : Nat := min (defects.getD c.val 64) 64
  { s with
    badCores := cs.filter fun c => sites c = 0
    siteCount := (cs.filter fun c => sites c ≠ 0 && sites c ≠ 64).map fun c => (c, sites c) }

/-- FIRMWARE_INIT_DONE (R407, R479, R481): the map, its digest, and stage 4; a unit class that fails gives stage 0xF. -/
def execFirmwareInitDone (defects : List Nat) (failing : Byte) (s : State) : Out :=
  .next (if s.stage ≠ 3 then s
    else if failing ≠ 0 then { s with stage := 0x0F, bootErr := failing }
    else
      let t := (s.withDefects defects).extend 2 (Config.sha384 (defects.map fun n => BitVec.ofNat 8 n))
      { t with stage := 4 })

/-! ### Links (R477) -/

/-- The fold elements whose windows, or the windows of elements joined with them, lie on a port. -/
def State.foldsOn (s : State) (port : BitVec 16) : List Fold :=
  let direct := s.folds.zipIdx.filter fun q => s.crossings.any fun x => x.fold = q.2 && x.port = port
  s.folds.filter fun g => direct.any fun q => q.1.joined g

/-- What runs on an AG site reads or writes behind a port (R18, R477): a page of its pattern that has an entry lies there. -/
def State.agBehind (s : State) (port : BitVec 16) (c : CoreId) (a : Fin 8) : Bool :=
  match (s.core c).agRun a with
  | none => false
  | some (_, g) => g.mode ≠ 5 && g.pages.any fun v =>
      match s.translate c (BitVec.ofNat 64 v) { r := false, w := false, x := false } with
      | .at pa => (s.portsTo (c.val / 64) pa).contains port
      | _ => false

/-- The region that a run of an AG site belongs to: its own, or that of a stream which feeds or takes of it. -/
def AgRun.regionOf : AgRun → Option (Fin 8)
  | .frame r _ => some r
  | .stream _ t => if t.kind = .feed || t.kind = .take then some t.region else none

/-- The AG sites whose streams use a port: those of the fold elements there, and those behind it. -/
def State.agsOn (s : State) (port : BitVec 16) : List (CoreId × Fin 8 × AgRun) :=
  (s.foldsOn port).filterMap (fun f => (s.foldStream f).map fun x => (f.core, x.1, x.2)) ++
    ((fins 256).map fun c => (fins 8).filterMap fun a =>
      if s.agBehind port c a then ((s.core c).agRun a).map fun x => (c, a, x.1) else none).flatten

/-- A link goes down (R477): every abort domain with a channel, window or fold element on it takes fault 0x23, and so
does a stream of no region; then the records follow. -/
def State.linkDown (s : State) (port : BitVec 16) : State :=
  let on := s.agsOn port
  let joined := (s.foldsOn port).filterMap fun f => (s.foldStream f).bind fun x => (s.foldRegion f).map fun q => (q, x.1)
  let regions := on.filterMap (fun x => x.2.2.regionOf.map fun r => ((x.1, r), x.2.1)) ++ joined
  let t := regions.foldl (fun t x => t.domainFault x.1.1 x.1.2 (siteId 4 x.2.val)) s
  let t := on.foldl (fun t x => match x.2.2 with
    | .frame _ _ => t
    | .stream _ _ => t.agFault x.1 x.2.1 0x23 (siteId 4 x.2.1.val) x.2.2) t
  let t := { t with linksDown := t.linksDown ++ [port] }
  (t.recovery 6 2 0x23 (port.setWidth 64) 0xFFFF 0xFFFF 0 1).hostEvent 5 0 0xFFFF 0 (port.setWidth 64)

/-- A port of this package that carries flits: a Levee port of the part, or a die bridge (R472). -/
def State.flitPort (s : State) (port : BitVec 16) : Bool :=
  let n := port.toNat
  n / 64 % 64 = s.pkg.toNat &&
    ((n / 4096 = 1 && n % 64 < s.part.leveePorts) || (n / 4096 = 2 && n % 64 < if s.part.dies = 4 then 4 else 1))

/-- LEVEE_FLIT_RETRY (R477): a retry changes no token and leaves a record of severity 0; when eight retries of one
flit have failed the link goes down. -/
def execLeveeFlitRetry (port : BitVec 16) (failed : Bool) (s : State) : Out :=
  .next (if !s.flitPort port || s.linksDown.contains port then s
    else if failed then s.linkDown port
    else s.coalesce 6 (port.setWidth 64) 0xFFFF 0xFFFF 0)

/-! ### Reset and heat (R478, R483) -/

/-- What lies in the host's own memory. -/
def hostMemory (m : Memory) : Memory := m.filter fun c => 2 ^ 46 ≤ c.1

/-- DEVICE_RESET (R478): every unit is as at reset. The part, the host's memory, the model's clock and schedule stay. -/
def execDeviceReset (s : State) : Out :=
  let r := State.reset
  .next
    { r with
      part := s.part
      now := s.now
      agenda := s.agenda
      tick := s.tick
      cores := mapVec (fun k : Core => { k with resetAt := s.now }) r.cores
      mem := hostMemory s.mem
      powerCap := s.part.watts }

/-- THERMAL_THROTTLE (R22, R483): timing only. -/
def execThermalThrottle (on : Bool) (s : State) : Out := .next { s with throttled := on }

/-- THERMAL_SHUTDOWN (R483): every pump and region stops until a reset, and the host is told. -/
def execThermalShutdown (s : State) : Out :=
  .next (if s.shut then s else { s with shut := true }.hostEvent 6 0 0xFFFF 0 0)

end Sys2Proof.Machine
end

