-- ==== Sys2Proof/Machine/Control.lean ====
section
/-! DEFINITION. Control flow (R112 to R116). -/

namespace Sys2Proof.Machine

open Sys2Proof

/-- Go to an address. -/
def Pump.jump (p : Pump) (a : Word) : Pump := { p with pc := a }

/-- A conditional branch on two operands; it writes no register (R112). -/
def State.branch (s : State) (a b : Reg) (off : BitVec 32) (cond : Word → Word → Bool) : Out :=
  .next (s.modPump s.cur fun p => if cond (p.read a) (p.read b) then p.jump (p.target off) else p.advance)

/-- `beq` (R112). -/
def execBeq (a b : Reg) (off : BitVec 32) (s : State) : Out := s.branch a b off fun x y => x = y

/-- `bne` (R112). -/
def execBne (a b : Reg) (off : BitVec 32) (s : State) : Out := s.branch a b off fun x y => x ≠ y

/-- `blt` (R112). -/
def execBlt (a b : Reg) (off : BitVec 32) (s : State) : Out := s.branch a b off fun x y => x.slt y

/-- `bge` (R112). -/
def execBge (a b : Reg) (off : BitVec 32) (s : State) : Out := s.branch a b off fun x y => !x.slt y

/-- `bltn` (R112). -/
def execBltn (a b : Reg) (off : BitVec 32) (s : State) : Out := s.branch a b off fun x y => x.ult y

/-- `bgen` (R112). -/
def execBgen (a b : Reg) (off : BitVec 32) (s : State) : Out := s.branch a b off fun x y => !x.ult y

/-- `dbnz`: decrement through specifier a and into `last`, then branch when the new value is not zero (R113). -/
def execDbnz (a : Reg) (off : BitVec 32) (s : State) : Out :=
  .next (s.modPump s.cur fun p =>
    let v := p.read a - 1
    let p' := p.result a v
    if v ≠ 0 then p'.jump (p.target off) else p'.advance)

/-- `jmp` (R114). -/
def execJmp (off : BitVec 32) (s : State) : Out := .next (s.modPump s.cur fun p => p.jump (p.target off))

/-- `call`: lk takes the address after the call; `last` stays (R92, R114). -/
def execCall (off : BitVec 32) (s : State) : Out :=
  .next (s.modPump s.cur fun p => (p.write linkReg (p.pc + 8)).jump (p.target off))

/-- `ret`: a misaligned target is fault 0x02 (R61, R114). -/
def execRet (a : Reg) (s : State) : Out :=
  let v := (s.pump s.cur).read a
  s.outcome s.cur (.ret a)
    (if v.toNat % 8 ≠ 0 then .error (fault 0x02 v) else .ok (s.modPump s.cur fun p => p.jump v))

/-- The checks of `jt` and `callt`, in the order of R75 and R115: the target. -/
def State.tableTarget (s : State) (c : CoreId) (a : Reg) (tbl : BitVec 10) (label : BitVec 16) : Except Stop Word := do
  let l := s.launch c
  let i := (s.pump c).read a
  if l.tableCount ≤ tbl.toNat then throw (fault 0x06 (BitVec.allOnes 64))
  let rec_ ← s.tableWord c (l.tables + BitVec.ofNat 64 (8 * tbl.toNat))
  let head ← s.tableWord c rec_
  if head.toNat % 2 ^ 32 ≤ i.toNat then throw (fault 0x06 i)
  if head.extractLsb' 32 16 ≠ label then throw (fault 0x05 0)
  let t ← s.tableWord c (rec_ + 8 + 8 * i)
  if t.toNat % 8 ≠ 0 then throw (fault 0x02 t)
  if !l.inCode t then throw (fault 0x04 t)
  let w ← s.fetchWord c t
  match decode w with
  | .ok (.land lab) => if lab = label then return t else throw (fault 0x05 t)
  | _ => throw (fault 0x05 t)

/-- `jt` (R75, R115). -/
def execJt (a : Reg) (tbl : BitVec 10) (label : BitVec 16) (s : State) : Out :=
  s.outcome s.cur (.jt a tbl label) do
    let t ← s.tableTarget s.cur a tbl label
    return s.modPump s.cur fun p => p.jump t

/-- `callt` writes lk as `call` does (R75, R115). -/
def execCallt (a : Reg) (tbl : BitVec 10) (label : BitVec 16) (s : State) : Out :=
  s.outcome s.cur (.callt a tbl label) do
    let t ← s.tableTarget s.cur a tbl label
    return s.modPump s.cur fun p => (p.write linkReg (p.pc + 8)).jump t

/-- `land` behaves as `nop` (R115). -/
def execLand (_label : BitVec 16) (s : State) : Out := .next (s.goOn s.cur)

end Sys2Proof.Machine
end

