-- ==== Sys2Proof/Machine/Integer.lean ====
section
/-! DEFINITION. The integer instructions (R100 to R104): 64-bit results that wrap, no flag, no trap. -/

namespace Sys2Proof.Machine

open Sys2Proof

/-! ### The functions of R101 to R104 -/

/-- A truth value as a register holds it. -/
def truth (b : Bool) : Word := if b then 1 else 0

/-- A shift amount: b[5:0] (R100). -/
def amount (b : Word) : Nat := b.toNat % 64

/-- The smaller or larger of two by an order. -/
def pick (first : Bool) (a b : Word) : Word := if first then a else b

/-- Signed quotient toward zero, with the corners of R102. -/
def divS (a b : Word) : Word := if b = 0 then BitVec.allOnes 64 else BitVec.ofInt 64 (Int.tdiv a.toInt b.toInt)

/-- Unsigned quotient (R102). -/
def divU (a b : Word) : Word := if b = 0 then BitVec.allOnes 64 else a / b

/-- Signed remainder, of the sign of the dividend (R102). -/
def remS (a b : Word) : Word := if b = 0 then a else BitVec.ofInt 64 (Int.tmod a.toInt b.toInt)

/-- Unsigned remainder (R102). -/
def remU (a b : Word) : Word := if b = 0 then a else a % b

/-- High half of the signed product (R102). -/
def mulHS (a b : Word) : Word := ((a.signExtend 128 * b.signExtend 128).extractLsb' 64 64)

/-- High half of the unsigned product (R102). -/
def mulHU (a b : Word) : Word := ((a.setWidth 128 * b.setWidth 128).extractLsb' 64 64)

/-- Leading zero bits (R101). -/
def leadingZeros (a : Word) : Word := BitVec.ofNat 64 (64 - bitsUsed 64 a.toNat)
where
  /-- Bits of a number below `2^n`. -/
  bitsUsed : Nat → Nat → Nat
    | 0, _ => 0
    | n + 1, v => if v = 0 then 0 else 1 + bitsUsed n (v / 2)

/-- Trailing zero bits of a number of `n` bits (R101). -/
def trailingZeros : Nat → Nat → Nat
  | 0, _ => 0
  | n + 1, v => if v % 2 = 1 then 0 else 1 + trailingZeros n (v / 2)

/-- One bits of a number of `n` bits (R101). -/
def onesCount : Nat → Nat → Nat
  | 0, _ => 0
  | n + 1, v => v % 2 + onesCount n (v / 2)

/-- Bits [lsb + len - 1 : lsb], zero-extended (R104). -/
def fieldOf (a : Word) (lsb len : Nat) : Word := (a >>> lsb) &&& BitVec.ofNat 64 (2 ^ len - 1)

/-- `d` with bits [lsb + len - 1 : lsb] replaced by a[len - 1 : 0] (R104). -/
def insertField (d a : Word) (lsb len : Nat) : Word :=
  let mask : Word := BitVec.ofNat 64 (2 ^ len - 1) <<< lsb
  (d &&& ~~~mask) ||| ((a <<< lsb) &&& mask)

/-! ### Shared shapes -/

/-- d ← f(a, b). -/
def State.binary (s : State) (d a b : Reg) (f : Word → Word → Word) : Out :=
  .next (s.giveResult s.cur d (f ((s.pump s.cur).read a) ((s.pump s.cur).read b)))

/-- d ← f(a). -/
def State.unary (s : State) (d a : Reg) (f : Word → Word) : Out :=
  .next (s.giveResult s.cur d (f ((s.pump s.cur).read a)))

/-- d ← f(a, b, c). -/
def State.ternary (s : State) (d a b c : Reg) (f : Word → Word → Word → Word) : Out :=
  .next (s.giveResult s.cur d (f ((s.pump s.cur).read a) ((s.pump s.cur).read b) ((s.pump s.cur).read c)))

/-! ### The instructions -/

/-- `add` (R101). -/
def execAdd (d a b : Reg) (s : State) : Out := s.binary d a b fun x y => x + y

/-- `sub` (R101). -/
def execSub (d a b : Reg) (s : State) : Out := s.binary d a b fun x y => x - y

/-- `and` (R101). -/
def execAnd (d a b : Reg) (s : State) : Out := s.binary d a b fun x y => x &&& y

/-- `or` (R101). -/
def execOr (d a b : Reg) (s : State) : Out := s.binary d a b fun x y => x ||| y

/-- `xor` (R101). -/
def execXor (d a b : Reg) (s : State) : Out := s.binary d a b fun x y => x ^^^ y

/-- `andn` (R101). -/
def execAndn (d a b : Reg) (s : State) : Out := s.binary d a b fun x y => x &&& ~~~y

/-- `shl` (R100, R101). -/
def execShl (d a b : Reg) (s : State) : Out := s.binary d a b fun x y => x <<< amount y

/-- `shr` (R100, R101). -/
def execShr (d a b : Reg) (s : State) : Out := s.binary d a b fun x y => x >>> amount y

/-- `sar` (R100, R101). -/
def execSar (d a b : Reg) (s : State) : Out := s.binary d a b fun x y => x.sshiftRight (amount y)

/-- `rol` (R100, R101). -/
def execRol (d a b : Reg) (s : State) : Out := s.binary d a b fun x y => x.rotateLeft (amount y)

/-- `min` (R101). -/
def execMin (d a b : Reg) (s : State) : Out := s.binary d a b fun x y => pick (x.slt y) x y

/-- `max` (R101). -/
def execMax (d a b : Reg) (s : State) : Out := s.binary d a b fun x y => pick (x.slt y) y x

/-- `minn` (R101). -/
def execMinn (d a b : Reg) (s : State) : Out := s.binary d a b fun x y => pick (x.ult y) x y

/-- `maxn` (R101). -/
def execMaxn (d a b : Reg) (s : State) : Out := s.binary d a b fun x y => pick (x.ult y) y x

/-- `slt` (R101). -/
def execSlt (d a b : Reg) (s : State) : Out := s.binary d a b fun x y => truth (x.slt y)

/-- `sltn` (R101). -/
def execSltn (d a b : Reg) (s : State) : Out := s.binary d a b fun x y => truth (x.ult y)

/-- `addi` (R103). -/
def execAddi (d a : Reg) (imm : BitVec 32) (s : State) : Out := s.unary d a fun x => x + sext32 imm

/-- `andi` (R103). -/
def execAndi (d a : Reg) (imm : BitVec 32) (s : State) : Out := s.unary d a fun x => x &&& zext32 imm

/-- `ori` (R103). -/
def execOri (d a : Reg) (imm : BitVec 32) (s : State) : Out := s.unary d a fun x => x ||| zext32 imm

/-- `xori` (R103). -/
def execXori (d a : Reg) (imm : BitVec 32) (s : State) : Out := s.unary d a fun x => x ^^^ zext32 imm

/-- `shli` (R103). -/
def execShli (d a : Reg) (n : BitVec 6) (s : State) : Out := s.unary d a fun x => x <<< n.toNat

/-- `shri` (R103). -/
def execShri (d a : Reg) (n : BitVec 6) (s : State) : Out := s.unary d a fun x => x >>> n.toNat

/-- `sari` (R103). -/
def execSari (d a : Reg) (n : BitVec 6) (s : State) : Out := s.unary d a fun x => x.sshiftRight n.toNat

/-- `roli` (R103). -/
def execRoli (d a : Reg) (n : BitVec 6) (s : State) : Out := s.unary d a fun x => x.rotateLeft n.toNat

/-- `slti` (R103). -/
def execSlti (d a : Reg) (imm : BitVec 32) (s : State) : Out := s.unary d a fun x => truth (x.slt (sext32 imm))

/-- `li` (R103). -/
def execLi (d : Reg) (imm : BitVec 32) (s : State) : Out := .next (s.giveResult s.cur d (sext32 imm))

/-- `lih` reads d as a source (R103). -/
def execLih (d : Reg) (imm : BitVec 32) (s : State) : Out :=
  s.unary d d fun x => (zext32 imm <<< 32) ||| (x &&& 0xFFFF_FFFF)

/-- `movk` reads d as a source (R103). -/
def execMovk (d : Reg) (imm : BitVec 16) (lane : BitVec 2) (s : State) : Out :=
  s.unary d d fun x => insertField x (imm.setWidth 64) (16 * lane.toNat) 16

/-- `agen`: the address of this instruction plus the immediate (R103). -/
def execAgen (d : Reg) (imm : BitVec 32) (s : State) : Out :=
  .next (s.giveResult s.cur d ((s.pump s.cur).pc + sext32 imm))

/-- `mov` (R101). -/
def execMov (d a : Reg) (s : State) : Out := s.unary d a fun x => x

/-- `mul` (R102). -/
def execMul (d a b : Reg) (s : State) : Out := s.binary d a b fun x y => x * y

/-- `mulh` (R102). -/
def execMulh (d a b : Reg) (s : State) : Out := s.binary d a b fun x y => mulHS x y

/-- `mulhn` (R102). -/
def execMulhn (d a b : Reg) (s : State) : Out := s.binary d a b fun x y => mulHU x y

/-- `div` (R102). -/
def execDiv (d a b : Reg) (s : State) : Out := s.binary d a b fun x y => divS x y

/-- `divn` (R102). -/
def execDivn (d a b : Reg) (s : State) : Out := s.binary d a b fun x y => divU x y

/-- `rem` (R102). -/
def execRem (d a b : Reg) (s : State) : Out := s.binary d a b fun x y => remS x y

/-- `remn` (R102). -/
def execRemn (d a b : Reg) (s : State) : Out := s.binary d a b fun x y => remU x y

/-- `madd` (R102). -/
def execMadd (d a b c : Reg) (s : State) : Out := s.ternary d a b c fun x y z => x * y + z

/-- `clz` (R101). -/
def execClz (d a : Reg) (s : State) : Out := s.unary d a leadingZeros

/-- `ctz` (R101). -/
def execCtz (d a : Reg) (s : State) : Out := s.unary d a fun x => BitVec.ofNat 64 (trailingZeros 64 x.toNat)

/-- `popc` (R101). -/
def execPopc (d a : Reg) (s : State) : Out := s.unary d a fun x => BitVec.ofNat 64 (onesCount 64 x.toNat)

/-- `bfx` (R104). -/
def execBfx (d a : Reg) (lsb lenM1 : BitVec 6) (s : State) : Out :=
  s.unary d a fun x => fieldOf x lsb.toNat (lenM1.toNat + 1)

/-- `bfi` reads d as a source (R104). -/
def execBfi (d a : Reg) (lsb lenM1 : BitVec 6) (s : State) : Out :=
  s.binary d d a fun x y => insertField x y lsb.toNat (lenM1.toNat + 1)

/-- `seq` (R101). -/
def execSeq (d a b : Reg) (s : State) : Out := s.binary d a b fun x y => truth (x = y)

/-- `sne` (R101). -/
def execSne (d a b : Reg) (s : State) : Out := s.binary d a b fun x y => truth (x ≠ y)

/-- `sel` (R101). -/
def execSel (d a b c : Reg) (s : State) : Out := s.ternary d a b c fun x y z => if z ≠ 0 then x else y

end Sys2Proof.Machine
end

