-- ==== Sys2Proof/Machine/Performs.lean ====
section
/-! DEFINITION. What engines perform after an instruction has issued: writes, near-memory updates, completion records
(R286, R289, R344, R357 to R359, R485). -/

namespace Sys2Proof.Machine

open Sys2Proof

/-- WRITE_PERFORM (R342, R485): pending write `i` is performed, once no older one of its core touches its bytes (R262)
and no write bind holds its line (R273). -/
def State.performIx (s : State) (i : Nat) : State :=
  match s.pending[i]? with
  | none => s
  | some w =>
    let older := (s.pending.take i).any fun o => o.core = w.core && overlaps o.pa o.bytes.length w.pa w.bytes.length
    if older || (w.bind.isSome && (s.writeBind w.core w.pa).isSome) then s
    else { s with pending := s.pending.eraseIdx i }.performPending w

/-- WRITE_PERFORM. -/
def execWritePerform (i : Nat) (s : State) : Out := .next (s.performIx i)

/-- NMA_PERFORM (R286, R344): the update of the word, after the older ones of its pump to the same word; the line
becomes raw, and a poisoned line drops the update with fault 0x22 (R345). -/
def State.performNma (s : State) (i : Nat) : State :=
  match s.nmas[i]? with
  | none => s
  | some n =>
    if (s.nmas.take i).any fun o => o.core = n.core && o.pa = n.pa then s
    else
      let line := lineOf n.pa
      let t := { s with nmas := s.nmas.eraseIdx i }
      if t.linePoisoned line then
        match t.perform n.pa (toLE 4 0) true (.near n.core) true with
        | (u, some l) => u.postAsync n.core (poison22 l)
        | (u, none) => u
      else
        let old := BitVec.ofNat 32 (leNat (t.mem.read n.pa 4))
        let t := { t with rawByNma := if t.rawByNma.contains line then t.rawByNma else t.rawByNma ++ [line] }
        (t.perform n.pa (toLE 4 (n.op.apply old n.value).toNat) true (.near n.core) true).1

/-- NMA_PERFORM. -/
def execNmaPerform (i : Nat) (s : State) : Out := .next (s.performNma i)

/-! ### Completion records (R357 to R359) -/

/-- The 32 bytes of record `k` of a flow (R358). -/
def DueRecord.bytes (r : DueRecord) (k : Nat) (core : Word) : List Byte :=
  toLE 4 (k + 1) ++ [r.kind, r.status, r.code, r.flags.setWidth 8] ++ toLE 8 r.amount.toNat ++
    toLE 2 (core.toNat % 2 ^ 14) ++ [r.handle.setWidth 8] ++ toLE 5 0 ++ toLE 8 r.addr.toNat

/-- The record write is a release at `.pod` of the writes that the record reports (R289). -/
def State.recordRelease (s : State) (r : DueRecord) (k : CoreId) (o : Nat) : State :=
  (s.addRelease (some r.core) .pod true (.word true) fun e => e.knownBy r.by_ r.upTo).noteWrite (.cistern k) o 32 .engine false
    [s.serial]

/-- The next record is written into its slot, when the slot has been consumed; its words become full (R358, R359). -/
def State.writeRecord (s : State) (f : Flow) : State :=
  match f.due, f.cores[f.rec_.ringCore]? with
  | r :: rest, some c =>
    let n := f.rec_.ringCount
    let base := f.rec_.ringOffset
    let consumed := leNat ((s.core c).cisternRead base 8)
    if n = 0 || !f.rec_.ring || n ≤ f.ringNext - consumed then s
    else
      let o := base + 32 + 32 * (f.ringNext % n)
      let t := s.recordRelease r c o
      let t := t.modCore c fun k => (k.cisternWrite o (r.bytes f.ringNext (s.coreWord r.core))).setFull o 32 .engine t.serial
      t.modFlow f.num fun g => { g with due := rest, ringNext := g.ringNext + 1 }
  | _, _ => s

/-- COMPLETION_RECORD_WRITE (R359): a batch's record waits for every `nma` of its pump. -/
def execCompletionRecordWrite (flow : Nat) (s : State) : Out :=
  .next (match s.flow? (BitVec.ofNat 32 flow) with
    | none => s
    | some f => s.writeRecord f)

end Sys2Proof.Machine
end

