-- ==== Sys2Proof/Machine/ScalarFloat.lean ====
section
/-! DEFINITION. The scalar float instructions (R105 to R111): FP32 operands in bits [31:0], flags into `s.fflags`. -/

namespace Sys2Proof.Machine

open Sys2Proof

/-- The FP32 operand a specifier names (R105). -/
def Pump.readF (p : Pump) (r : Reg) : Num := Num.ofCode f32 ((p.read r).toNat % 2 ^ 32)

/-- A float result and its flags (R105, R111). -/
def State.floatResult (s : State) (d : Reg) (r : Nat × Flags) : Out := .next (s.giveFloat s.cur d r)

/-- `fadd` (R106). -/
def execFadd (d a b : Reg) (s : State) : Out :=
  s.floatResult d (addNum f32 ((s.pump s.cur).readF a) ((s.pump s.cur).readF b))

/-- `fsub` (R106). -/
def execFsub (d a b : Reg) (s : State) : Out :=
  s.floatResult d (addNum f32 ((s.pump s.cur).readF a) ((s.pump s.cur).readF b).neg)

/-- `fmul` (R106). -/
def execFmul (d a b : Reg) (s : State) : Out :=
  s.floatResult d (mulNum f32 ((s.pump s.cur).readF a) ((s.pump s.cur).readF b))

/-- `ffma` (R106). -/
def execFfma (d a b c : Reg) (s : State) : Out :=
  s.floatResult d (fmaNum f32 ((s.pump s.cur).readF a) ((s.pump s.cur).readF b) ((s.pump s.cur).readF c))

/-- `fdiv` (R106). -/
def execFdiv (d a b : Reg) (s : State) : Out :=
  s.floatResult d (divNum f32 ((s.pump s.cur).readF a) ((s.pump s.cur).readF b))

/-- `fsqrt` (R106). -/
def execFsqrt (d a : Reg) (s : State) : Out := s.floatResult d (sqrtNum f32 ((s.pump s.cur).readF a))

/-- `fmin` (R107). -/
def execFmin (d a b : Reg) (s : State) : Out :=
  s.floatResult d (minMax f32 false (((s.pump s.cur).read a).toNat % 2 ^ 32) (((s.pump s.cur).read b).toNat % 2 ^ 32))

/-- `fmax` (R107). -/
def execFmax (d a b : Reg) (s : State) : Out :=
  s.floatResult d (minMax f32 true (((s.pump s.cur).read a).toNat % 2 ^ 32) (((s.pump s.cur).read b).toNat % 2 ^ 32))

/-- `fcmp` (R108). -/
def execFcmp (cond : Cond) (d a b : Reg) (s : State) : Out :=
  let r := compare cond ((s.pump s.cur).readF a) ((s.pump s.cur).readF b)
  s.floatResult d ((if r.1 then 1 else 0), r.2)

/-- `fcvt` (R110). -/
def execFcvt (kind : CvtKind) (rtz : Bool) (d a : Reg) (s : State) : Out :=
  s.floatResult d (convert kind rtz ((s.pump s.cur).read a))

/-- `fcls` sets no flag (R109). -/
def execFcls (d a : Reg) (s : State) : Out :=
  s.floatResult d (2 ^ classOf f32 (((s.pump s.cur).read a).toNat % 2 ^ 32), 0)

end Sys2Proof.Machine
end

