-- ==== Sys2Proof/Machine/Dispatch.lean ====
section
/-! DEFINITION. The meaning of every step: one arm per constructor of `Instr`. -/

namespace Sys2Proof.Machine

open Sys2Proof

/-- Dispatch to the meaning of each instruction. -/
def exec (i : Instr) (s : State) : Host.Outcome State Fault Refusal :=
  match i with
  | .add d a b => Sys2Proof.Machine.execAdd d a b s
  | .sub d a b => Sys2Proof.Machine.execSub d a b s
  | .and d a b => Sys2Proof.Machine.execAnd d a b s
  | .or d a b => Sys2Proof.Machine.execOr d a b s
  | .xor d a b => Sys2Proof.Machine.execXor d a b s
  | .andn d a b => Sys2Proof.Machine.execAndn d a b s
  | .shl d a b => Sys2Proof.Machine.execShl d a b s
  | .shr d a b => Sys2Proof.Machine.execShr d a b s
  | .sar d a b => Sys2Proof.Machine.execSar d a b s
  | .rol d a b => Sys2Proof.Machine.execRol d a b s
  | .min d a b => Sys2Proof.Machine.execMin d a b s
  | .max d a b => Sys2Proof.Machine.execMax d a b s
  | .minn d a b => Sys2Proof.Machine.execMinn d a b s
  | .maxn d a b => Sys2Proof.Machine.execMaxn d a b s
  | .slt d a b => Sys2Proof.Machine.execSlt d a b s
  | .sltn d a b => Sys2Proof.Machine.execSltn d a b s
  | .addi d a imm => Sys2Proof.Machine.execAddi d a imm s
  | .andi d a imm => Sys2Proof.Machine.execAndi d a imm s
  | .ori d a imm => Sys2Proof.Machine.execOri d a imm s
  | .xori d a imm => Sys2Proof.Machine.execXori d a imm s
  | .shli d a n => Sys2Proof.Machine.execShli d a n s
  | .shri d a n => Sys2Proof.Machine.execShri d a n s
  | .sari d a n => Sys2Proof.Machine.execSari d a n s
  | .roli d a n => Sys2Proof.Machine.execRoli d a n s
  | .slti d a imm => Sys2Proof.Machine.execSlti d a imm s
  | .li d imm => Sys2Proof.Machine.execLi d imm s
  | .lih d imm => Sys2Proof.Machine.execLih d imm s
  | .movk d imm lane => Sys2Proof.Machine.execMovk d imm lane s
  | .agen d imm => Sys2Proof.Machine.execAgen d imm s
  | .mov d a => Sys2Proof.Machine.execMov d a s
  | .mul d a b => Sys2Proof.Machine.execMul d a b s
  | .mulh d a b => Sys2Proof.Machine.execMulh d a b s
  | .mulhn d a b => Sys2Proof.Machine.execMulhn d a b s
  | .div d a b => Sys2Proof.Machine.execDiv d a b s
  | .divn d a b => Sys2Proof.Machine.execDivn d a b s
  | .rem d a b => Sys2Proof.Machine.execRem d a b s
  | .remn d a b => Sys2Proof.Machine.execRemn d a b s
  | .madd d a b c => Sys2Proof.Machine.execMadd d a b c s
  | .clz d a => Sys2Proof.Machine.execClz d a s
  | .ctz d a => Sys2Proof.Machine.execCtz d a s
  | .popc d a => Sys2Proof.Machine.execPopc d a s
  | .bfx d a lsb lenM1 => Sys2Proof.Machine.execBfx d a lsb lenM1 s
  | .bfi d a lsb lenM1 => Sys2Proof.Machine.execBfi d a lsb lenM1 s
  | .seq d a b => Sys2Proof.Machine.execSeq d a b s
  | .sne d a b => Sys2Proof.Machine.execSne d a b s
  | .sel d a b c => Sys2Proof.Machine.execSel d a b c s
  | .fadd d a b => Sys2Proof.Machine.execFadd d a b s
  | .fsub d a b => Sys2Proof.Machine.execFsub d a b s
  | .fmul d a b => Sys2Proof.Machine.execFmul d a b s
  | .ffma d a b c => Sys2Proof.Machine.execFfma d a b c s
  | .fdiv d a b => Sys2Proof.Machine.execFdiv d a b s
  | .fsqrt d a => Sys2Proof.Machine.execFsqrt d a s
  | .fmin d a b => Sys2Proof.Machine.execFmin d a b s
  | .fmax d a b => Sys2Proof.Machine.execFmax d a b s
  | .fcmp cond d a b => Sys2Proof.Machine.execFcmp cond d a b s
  | .fcvt kind rtz d a => Sys2Proof.Machine.execFcvt kind rtz d a s
  | .fcls d a => Sys2Proof.Machine.execFcls d a s
  | .beq a b off => Sys2Proof.Machine.execBeq a b off s
  | .bne a b off => Sys2Proof.Machine.execBne a b off s
  | .blt a b off => Sys2Proof.Machine.execBlt a b off s
  | .bge a b off => Sys2Proof.Machine.execBge a b off s
  | .bltn a b off => Sys2Proof.Machine.execBltn a b off s
  | .bgen a b off => Sys2Proof.Machine.execBgen a b off s
  | .dbnz a off => Sys2Proof.Machine.execDbnz a off s
  | .jmp off => Sys2Proof.Machine.execJmp off s
  | .call off => Sys2Proof.Machine.execCall off s
  | .ret a => Sys2Proof.Machine.execRet a s
  | .jt a tbl label => Sys2Proof.Machine.execJt a tbl label s
  | .callt a tbl label => Sys2Proof.Machine.execCallt a tbl label s
  | .land label => Sys2Proof.Machine.execLand label s
  | .ld size cistern acq d a imm => Sys2Proof.Machine.execLd size cistern acq d a imm s
  | .st size cistern rel d a imm => Sys2Proof.Machine.execSt size cistern rel d a imm s
  | .lds d a imm => Sys2Proof.Machine.execLds d a imm s
  | .stf d a imm => Sys2Proof.Machine.execStf d a imm s
  | .ldq f cistern q a imm => Sys2Proof.Machine.execLdq f cistern q a imm s
  | .stq f cistern q a imm => Sys2Proof.Machine.execStq f cistern q a imm s
  | .pref kind a imm => Sys2Proof.Machine.execPref kind a imm s
  | .aimp t f qd qa ga => Sys2Proof.Machine.execAimp t f qd qa ga s
  | .aexp t qa qb ga => Sys2Proof.Machine.execAexp t qa qb ga s
  | .amo op ord d a b => Sys2Proof.Machine.execAmo op ord d a b s
  | .amoCas ord d a b c => Sys2Proof.Machine.execAmoCas ord d a b c s
  | .fence scope => Sys2Proof.Machine.execFence scope s
  | .nma op d a imm => Sys2Proof.Machine.execNma op d a imm s
  | .nmf => Sys2Proof.Machine.execNmf s
  | .aenc f qd qa => Sys2Proof.Machine.execAenc f qd qa s
  | .adec qd qa => Sys2Proof.Machine.execAdec qd qa s
  | .aadd f qd qa qb => Sys2Proof.Machine.execAadd f qd qa qb s
  | .asub f qd qa qb => Sys2Proof.Machine.execAsub f qd qa qb s
  | .amul f qd qa qb => Sys2Proof.Machine.execAmul f qd qa qb s
  | .afma f qd qa qb qc => Sys2Proof.Machine.execAfma f qd qa qb qc s
  | .adot ga qa qb => Sys2Proof.Machine.execAdot ga qa qb s
  | .amap fn f qd qa => Sys2Proof.Machine.execAmap fn f qd qa s
  | .amsk f qd qa ga => Sys2Proof.Machine.execAmsk f qd qa ga s
  | .acmp cond ga qa qb => Sys2Proof.Machine.execAcmp cond ga qa qb s
  | .ascl f qd qa ga => Sys2Proof.Machine.execAscl f qd qa ga s
  | .again ga qa => Sys2Proof.Machine.execAgain ga qa s
  | .aidx ga qa => Sys2Proof.Machine.execAidx ga qa s
  | .apat qd qa => Sys2Proof.Machine.execApat qd qa s
  | .acvt f qd qa => Sys2Proof.Machine.execAcvt f qd qa s
  | .arnd dist f qd ga => Sys2Proof.Machine.execArnd dist f qd ga s
  | .hset out h a n size => Sys2Proof.Machine.execHset out h a n size s
  | .strm h a ctx => Sys2Proof.Machine.execStrm h a ctx s
  | .waith a h n => Sys2Proof.Machine.execWaith a h n s
  | .advh h n => Sys2Proof.Machine.execAdvh h n s
  | .wptr a h => Sys2Proof.Machine.execWptr a h s
  | .sbar a => Sys2Proof.Machine.execSbar a s
  | .stop h level => Sys2Proof.Machine.execStop h level s
  | .mark h => Sys2Proof.Machine.execMark h s
  | .kick region => Sys2Proof.Machine.execKick region s
  | .cfgl a => Sys2Proof.Machine.execCfgl a s
  | .cfgs region plane => Sys2Proof.Machine.execCfgs region plane s
  | .cfgp region pt pf => Sys2Proof.Machine.execCfgp region pt pf s
  | .drain region => Sys2Proof.Machine.execDrain region s
  | .cfgq d region => Sys2Proof.Machine.execCfgq d region s
  | .gld a => Sys2Proof.Machine.execGld a s
  | .gsw => Sys2Proof.Machine.execGsw s
  | .grel ctx => Sys2Proof.Machine.execGrel ctx s
  | .gq d => Sys2Proof.Machine.execGq d s
  | .dqpush a => Sys2Proof.Machine.execDqpush a s
  | .dqpop d => Sys2Proof.Machine.execDqpop d s
  | .dqsteal d a => Sys2Proof.Machine.execDqsteal d a s
  | .dqlen d => Sys2Proof.Machine.execDqlen d s
  | .launch a => Sys2Proof.Machine.execLaunch a s
  | .notify a b => Sys2Proof.Machine.execNotify a b s
  | .bara scope => Sys2Proof.Machine.execBara scope s
  | .barw scope => Sys2Proof.Machine.execBarw scope s
  | .bar scope => Sys2Proof.Machine.execBar scope s
  | .trap imm => Sys2Proof.Machine.execTrap imm s
  | .eret => Sys2Proof.Machine.execEret s
  | .srd d sreg => Sys2Proof.Machine.execSrd d sreg s
  | .swr sreg a => Sys2Proof.Machine.execSwr sreg a s
  | .halt => Sys2Proof.Machine.execHalt s
  | .yield => Sys2Proof.Machine.execYield s
  | .nop => Sys2Proof.Machine.execNop s
  | .brk => Sys2Proof.Machine.execBrk s
  | .feat d n => Sys2Proof.Machine.execFeat d n s
  | .asyncTrapTaken c => Sys2Proof.Machine.execAsyncTrapTaken c s
  | .waithResume c => Sys2Proof.Machine.execWaithResume c s
  | .ldsResume c => Sys2Proof.Machine.execLdsResume c s
  | .ldsStillTimeout c => Sys2Proof.Machine.execLdsStillTimeout c s
  | .waithStillTimeout c => Sys2Proof.Machine.execWaithStillTimeout c s
  | .drainReturn c => Sys2Proof.Machine.execDrainReturn c s
  | .cfgsSelect c => Sys2Proof.Machine.execCfgsSelect c s
  | .barwRelease c => Sys2Proof.Machine.execBarwRelease c s
  | .nmfReturn c => Sys2Proof.Machine.execNmfReturn c s
  | .nmaLimitRelease c => Sys2Proof.Machine.execNmaLimitRelease c s
  | .gldComplete c => Sys2Proof.Machine.execGldComplete c s
  | .haltTakesEffect c => Sys2Proof.Machine.execHaltTakesEffect c s
  | .launchResume c => Sys2Proof.Machine.execLaunchResume c s
  | .launchStillTimeout c => Sys2Proof.Machine.execLaunchStillTimeout c s
  | .configLoadComplete c => Sys2Proof.Machine.execConfigLoadComplete c s
  | .siteFire c site => Sys2Proof.Machine.execSiteFire c site s
  | .tokenHop c hop => Sys2Proof.Machine.execTokenHop c hop s
  | .agStreamAccess c ag => Sys2Proof.Machine.execAgStreamAccess c ag s
  | .agReadReturn c ag => Sys2Proof.Machine.execAgReadReturn c ag s
  | .memorySiteAccess c m => Sys2Proof.Machine.execMemorySiteAccess c m s
  | .regionDrain c r => Sys2Proof.Machine.execRegionDrain c r s
  | .stillWindowExpiry c r => Sys2Proof.Machine.execStillWindowExpiry c r s
  | .clockGate c site => Sys2Proof.Machine.execClockGate c site s
  | .siteWake c site => Sys2Proof.Machine.execSiteWake c site s
  | .sitePowerWake c site => Sys2Proof.Machine.execSitePowerWake c site s
  | .frameFetchComplete c plane site how => Sys2Proof.Machine.execFrameFetchComplete c plane site how s
  | .weirVector q => Sys2Proof.Machine.execWeirVector q s
  | .weirRestSwap q => Sys2Proof.Machine.execWeirRestSwap q s
  | .stationFold n => Sys2Proof.Machine.execStationFold n s
  | .sluiceLine n => Sys2Proof.Machine.execSluiceLine n s
  | .nmaPerform n => Sys2Proof.Machine.execNmaPerform n s
  | .writePerform n => Sys2Proof.Machine.execWritePerform n s
  | .completionRecordWrite flow => Sys2Proof.Machine.execCompletionRecordWrite flow s
  | .checkFailureAbort c r kind element => Sys2Proof.Machine.execCheckFailureAbort c r kind element s
  | .recoveryCoalesceExpiry n => Sys2Proof.Machine.execRecoveryCoalesceExpiry n s
  | .pageRequestVerdict id fail => Sys2Proof.Machine.execPageRequestVerdict id fail s
  | .pageRequestTimeout id => Sys2Proof.Machine.execPageRequestTimeout id s
  | .notifyRegisterWrite q v => Sys2Proof.Machine.execNotifyRegisterWrite q v s
  | .queueMap die => Sys2Proof.Machine.execQueueMap die s
  | .dependencePoll die slot => Sys2Proof.Machine.execDependencePoll die slot s
  | .dispatchDecision die place => Sys2Proof.Machine.execDispatchDecision die place s
  | .flowRetire flow => Sys2Proof.Machine.execFlowRetire flow s
  | .preemptRequest flow => Sys2Proof.Machine.execPreemptRequest flow s
  | .preemptSaveComplete flow => Sys2Proof.Machine.execPreemptSaveComplete flow s
  | .fatalEnd flow => Sys2Proof.Machine.execFatalEnd flow s
  | .hostCausewayAccess acc => Sys2Proof.Machine.execHostCausewayAccess acc s
  | .causewayWriteIgnored off v => Sys2Proof.Machine.execCausewayWriteIgnored off v s
  | .ringConsumerWrite j v => Sys2Proof.Machine.execRingConsumerWrite j v s
  | .createQueue => Sys2Proof.Machine.execCreateQueue s
  | .destroyQueue => Sys2Proof.Machine.execDestroyQueue s
  | .clearErrorState => Sys2Proof.Machine.execClearErrorState s
  | .invalidateRange => Sys2Proof.Machine.execInvalidateRange s
  | .invalidateComplete => Sys2Proof.Machine.execInvalidateComplete s
  | .hostPreempt => Sys2Proof.Machine.execHostPreempt s
  | .joinPod => Sys2Proof.Machine.execJoinPod s
  | .placeRing => Sys2Proof.Machine.execPlaceRing s
  | .attestationQuote => Sys2Proof.Machine.execAttestationQuote s
  | .extendRegister => Sys2Proof.Machine.execExtendRegister s
  | .setPowerCap => Sys2Proof.Machine.execSetPowerCap s
  | .bootImage => Sys2Proof.Machine.execBootImage s
  | .unknownCommand => Sys2Proof.Machine.execUnknownCommand s
  | .linkTrainingDone => Sys2Proof.Machine.execLinkTrainingDone s
  | .firmwareInitDone defects failing => Sys2Proof.Machine.execFirmwareInitDone defects failing s
  | .leveeFlitRetry port failed => Sys2Proof.Machine.execLeveeFlitRetry port failed s
  | .deviceReset => Sys2Proof.Machine.execDeviceReset s
  | .thermalThrottle on => Sys2Proof.Machine.execThermalThrottle on s
  | .thermalShutdown => Sys2Proof.Machine.execThermalShutdown s
  | .illegalInstruction w => Sys2Proof.Machine.execIllegalInstruction w s
  | .instructionFetch => Sys2Proof.Machine.execInstructionFetch s
  | .chainFold n => Sys2Proof.Machine.execChainFold n s

end Sys2Proof.Machine
end

