-- ==== Sys2Proof/Machine/Step.lean ====
section
/-! DEFINITION. One step of the package (log 1): the next turn of the schedule, run by `exec`; and the placing of one
instruction where the pump fetches next (log 3). -/

namespace Sys2Proof.Machine

open Sys2Proof

/-- The turn of a pump. -/
def pumpStep (s : State) (c : CoreId) : Host.Outcome State Fault Refusal :=
  match { s with cur := c }.turn c with
  | .rest => .next { s with cur := c }
  | .run i t => exec i t

/-- One step: the pump of a core takes its turn, or an event of another unit happens. -/
def step (s : State) : Host.Outcome State Fault Refusal :=
  match s.nextAct with
  | (t, .pump c) => pumpStep t c
  | (t, .event i) => if t.happens i then exec i t else .next t

/-- `s` with the instruction whose bits are `w` where the pump of `cur` fetches next (log 3): the pump runs, its code
section is that word, a TLB entry maps the page, and nothing stands in its way. -/
def State.withFetchWord (s : State) (nbits w : Nat) : State :=
  let pc := (s.pump s.cur).pc.toNat
  let page := pc / 65536 * 65536
  let e : TlbEntry := { space := (s.launch s.cur).space, vbase := page, size := 65536, pbase := 0, r := true, w := true, x := true }
  let pa := pc - page
  { s with
    agenda := []
    shut := false
    mem := s.mem.write pa (bytesOfWord (BitVec.ofNat 64 (w % 2 ^ nbits)))
    pending := s.pending.filter fun x => x.core ≠ s.cur || !overlaps x.pa x.bytes.length pa 8
    codes := setCode s.codes (lineOf pa) 0
    badMeta := s.badMeta.filter (· ≠ lineOf pa)
    badData := s.badData.filter (· ≠ lineOf pa)
    badCache := s.badCache.filter (· ≠ lineOf pa)
    lag := []
    stale := s.stale.filter fun e => e.viewer ≠ .pump s.cur
    cores := setAt s.cores s.cur
      { s.core s.cur with
        pump := { s.pump s.cur with run := .running, block := none, page := none, asyncs := [], ypend := false }
        flaws := []
        launch := { s.launch s.cur with codeLo := pc, codeHi := pc + 8 }
        tlb := [e]
        walks := [] } }

end Sys2Proof.Machine
end

