-- ==== Sys2Proof/Safety.lean ====
section
/-! DEFINITION. What a safe run is, and the terms in which claims speak of one step: what it leaves alone, what it
writes, and which trap it takes. -/

namespace Sys2Proof

open Machine

/-- The next `k` steps all answer a state: none stops with a fault or a refusal of the model. -/
def Safe : Nat → State → Prop
  | 0, _ => True
  | k + 1, s => ∃ t, step s = .next t ∧ Safe k t

/-- Memory and every cistern stand in the canonical form. -/
def MemoryWf (s : State) : Prop := s.mem.wf = true ∧ ∀ c : CoreId, (s.core c).cistern.wf = true

/-! ### What a step leaves alone -/

/-- `t` is `s` but for the pump of core `c`: memory, the writes under way, every other core, and the polder, cistern,
deque and translations of core `c` stand as before. -/
def OnlyPump (c : CoreId) (s t : State) : Prop := t = s.modPump c fun _ => t.pump c

/-- `t` is `s` but for core `c`: memory, the writes under way, every other core and every unit outside the cores stand
as before. -/
def OnlyCore (c : CoreId) (s t : State) : Prop := t = s.setCore c (t.core c)

/-- Nothing is unseen in `t` that was seen in `s`: a viewer that lags behind a write in `t` does so in `s` (log 7). The
agents that know the write and the releases that carry it are not compared. -/
def SeesMore (s t : State) : Prop :=
  ∀ e ∈ t.stale, ∃ e' ∈ s.stale, { e with known := [], via := [] } = { e' with known := [], via := [] }

/-- `s` with the order of its writes as `t` has it: what is not seen yet, and the writes and releases that speak of it
(log 7). -/
def orderedAs (s t : State) : State := { s with stale := t.stale, recent := t.recent, releases := t.releases, serial := t.serial }

/-- `t` is `s` but for the pump of core `c`, and for what an acquire or a release of it orders: more is seen. -/
def OnlyPumpAndOrder (c : CoreId) (s t : State) : Prop :=
  t = orderedAs (s.modPump c fun _ => t.pump c) t ∧ SeesMore s t

/-- `t` is `s` but for core `c`, and for what an acquire or a release of it orders. -/
def OnlyCoreAndOrder (c : CoreId) (s t : State) : Prop :=
  t = orderedAs (s.setCore c (t.core c)) t ∧ SeesMore s t

/-- `t` is `s` but for what a load of core `c` may change: its pump, the lines copied into its read binds (R274), and what
an acquire orders. -/
def OnlyRead (c : CoreId) (s t : State) : Prop :=
  let uncopied (f : Fabric) : List Bind := f.binds.map fun b => { b with copied := [] }
  OnlyCoreAndOrder c s t ∧ uncopied (t.core c).fab = uncopied (s.core c).fab ∧
    t.core c = { s.core c with pump := t.pump c, fab := { (s.core c).fab with binds := (t.core c).fab.binds } }

/-- The bytes of memory outside `[pa, pa + n)` hold the same performed values, and each core that lags behind no write
sees them as before. -/
def SameBytesOutside (pa n : Nat) (s t : State) : Prop :=
  ∀ a, a < pa ∨ pa + n ≤ a → t.mem.get a = s.mem.get a ∧
    ∀ c, (∀ e ∈ s.stale, e.viewer ≠ .pump c) → t.viewByte c a = s.viewByte c a

/-- The byte that the pump of core `c` sees in the cistern of core `k` (R264, R271). -/
def cisternByte (s : State) (c k : CoreId) (o : Nat) : Byte :=
  (s.staleByte (.pump c) (.cistern k) o).getD ((s.core k).cistern.get o)

/-- The fatal end of the group of core `c` begins: the pump of `c` is that of `t`, every pump of the group has stopped and
its regions are frozen (R446), and nothing else changes. -/
def GroupStops (c : CoreId) (s t : State) : Prop :=
  t = { s with cores := t.cores } ∧ ∀ d,
    let k := if d = c then { s.core c with pump := t.pump c } else s.core d
    t.core d = match s.flowOf c with
      | some f => if d ∈ f.cores then k.haltAll else k
      | none => k

/-! ### What an event of the polder changes beside its own effect -/

/-- A region without the stall counters of its switches and the pauses of its count (R391, R395). -/
def shownRegion (x : Region) : Region :=
  { x with pausedAt := none, pauses := [], switches := Vector.replicate 64 Stall.reset }

/-- An AG site without its stall counter and what it retains for a replay (R395, R455). -/
def shownAg (x : AgSite) : AgSite := { x with sent := [], taken := 0, stall := Stall.reset }

/-- A polder without its stall counters, the pauses of its regions, and what a replay reads (R391, R395, R453). -/
def shownFab (f : Fabric) : Fabric :=
  { f with
    regions := mapVec shownRegion f.regions
    sites := mapVec (fun x : Site => { x with stall := Stall.reset }) f.sites
    mems := mapVec (fun x : MemSite => { x with stall := Stall.reset }) f.mems
    ags := mapVec shownAg f.ags
    cut := none }

/-- A Weir without its stall counter and what a replay reads. -/
def shownWeir (w : Weir) : Weir := { w with cut := none, stall := Stall.reset }

/-- `t` is `s` but for records of firmware: they wait in their rings, or are written to memory by the rules of its lines
(R342, R345, R476). -/
def OnlyRecords (s t : State) : Prop :=
  t = orderedAs { s with rings := t.rings, mem := t.mem, codes := t.codes, badMeta := t.badMeta, badData := t.badData
                         badCache := t.badCache, rawByNma := t.rawByNma } t

/-- The cores but `c`, and the Weirs but `q`, stand as before but for stall counters and what a replay reads. -/
def OthersShown (c : CoreId) (q : Option (Fin 64)) (s t : State) : Prop :=
  (∀ d, d ≠ c → t.core d = { s.core d with fab := (t.core d).fab } ∧ shownFab (t.core d).fab = shownFab (s.core d).fab) ∧
    ∀ j : Fin 64, some j ≠ q → shownWeir t.weirs[j] = shownWeir s.weirs[j]

/-- `t` is `s` but for the polder of core `c`: memory, the registers, cistern, deque and translations of the core, every
other core and every Weir stand as before, but for stall counters and what a replay reads. Pending traps of the pump, its
peer events and the moment of the last activity may change, and what an access of the polder orders: more is seen. -/
def FabricEvent (c : CoreId) (s t : State) : Prop :=
  t = orderedAs { s with cores := t.cores, weirs := t.weirs } t ∧ SeesMore s t ∧ OthersShown c none s t ∧
    t.core c = { s.core c with
      fab := (t.core c).fab, activeAt := (t.core c).activeAt
      pump := { s.pump c with asyncs := (t.pump c).asyncs, events := (t.pump c).events } }

/-! ### Results in registers -/

/-- Pump `p` after an instruction that writes `v` through specifier `d`, raises the flags `f` and goes on: `d` and
`last` read `v`, g0 reads zero, every other register reads as before (R53, R91, R92), and nothing else of the pump
changes but the sticky flags (R96, R111) and the pc. -/
structure PumpGives (p q : Pump) (d : Reg) (v : Word) (f : Flags) : Prop where
  reads : ∀ r, q.read r = if r = .g 0 then 0 else if r = d ∨ r = .last then v else p.read r
  pc : q.pc = p.pc + 8
  fflags : q.fflags = p.fflags ||| f
  rest : q = { p with g := q.g, k := q.k, last := q.last, pc := q.pc, fflags := q.fflags }

/-- From `s` to `t` the pump of `cur` writes `v` through `d` with the flags `f`, and nothing else changes. -/
def Gives (s t : State) (d : Reg) (v : Word) (f : Flags) : Prop :=
  OnlyPump s.cur s t ∧ PumpGives (s.pump s.cur) (t.pump s.cur) d v f

/-- `exec i s` answers a next state in which `d` and `last` read a value with property `P`, no flag is raised, and
nothing else changes but the pc. -/
def Computes (i : Instr) (s : State) (d : Reg) (P : Word → Prop) : Prop :=
  ∃ t v, exec i s = .next t ∧ Gives s t d v 0 ∧ P v

/-- `exec i s` answers a next state in which `d` and `last` read a value and the flags gain a set with property `P`
together, and nothing else changes but the pc. -/
def ComputesFlags (i : Instr) (s : State) (d : Reg) (P : Word → Flags → Prop) : Prop :=
  ∃ t v f, exec i s = .next t ∧ Gives s t d v f ∧ P v f

/-- `exec i s` answers a next state in which `d` and `last` read a value with property `P` and no flag is raised; beside
the pc, only what a load changes differs. -/
def ComputesRead (i : Instr) (s : State) (d : Reg) (P : Word → Prop) : Prop :=
  ∃ t v, exec i s = .next t ∧ OnlyRead s.cur s t ∧ PumpGives (s.pump s.cur) (t.pump s.cur) d v 0 ∧ P v

/-- `exec i s` answers a next state in which `d` and `last` read a value with property `P` and no flag is raised; beside
the pc, only what an acquire orders differs. -/
def ComputesOrdered (i : Instr) (s : State) (d : Reg) (P : Word → Prop) : Prop :=
  ∃ t v, exec i s = .next t ∧ OnlyPumpAndOrder s.cur s t ∧ PumpGives (s.pump s.cur) (t.pump s.cur) d v 0 ∧ P v

/-- From `s` to `t` only the pc of the pump of `cur` changes, to `a`. -/
def GoesTo (s t : State) (a : Word) : Prop :=
  OnlyPump s.cur s t ∧ t.pump s.cur = { s.pump s.cur with pc := a }

/-- The address of the next instruction. -/
def nextPc (s : State) : Word := (s.pump s.cur).pc + 8

/-- `exec i s` answers a next state that only goes to `a`. -/
def Jumps (i : Instr) (s : State) (a : Word) : Prop := ∃ t, exec i s = .next t ∧ GoesTo s t a

/-- Pump `p` after an instruction that writes the atom `v` of format `F` into `qd`, raises the flags `f` and goes on; every
other atom register, every main register and `last` stay (R92, R160). -/
def PumpGivesAtom (p q : Pump) (qd : BitVec 4) (F : Fmt) (v : BitVec 128) (f : Flags) : Prop :=
  q = { p with q := q.q, pc := p.pc + 8, fflags := p.fflags ||| f } ∧
    ∀ j : BitVec 4, q.q[j.toFin] = if j = qd then { val := v, tag := F } else p.q[j.toFin]

/-- From `s` to `t` the pump writes the atom `v` of format `F` into `qd` with the flags `f`, and nothing else changes. -/
def GivesAtom (s t : State) (qd : BitVec 4) (F : Fmt) (v : BitVec 128) (f : Flags) : Prop :=
  OnlyPump s.cur s t ∧ PumpGivesAtom (s.pump s.cur) (t.pump s.cur) qd F v f

/-- The same of an instruction that loads: beside the pump, only what a load changes differs. -/
def ReadsAtom (s t : State) (qd : BitVec 4) (F : Fmt) (v : BitVec 128) (f : Flags) : Prop :=
  OnlyRead s.cur s t ∧ PumpGivesAtom (s.pump s.cur) (t.pump s.cur) qd F v f

/-! ### Traps -/

/-- A cause of a precise fault: fab and region 0 (R96, R117). -/
def precise (code : Code) (tval : Word) : Cause := { code := code, fab := false, region := 0, tval := tval }

/-- The pump can take a trap of its instruction: it is in no handler and has a vector (R121), and no asynchronous trap is
pending, which would come first (R449). -/
def CanTrap (p : Pump) : Prop := p.ht = false ∧ p.tvec ≠ 0 ∧ p.asyncs = []

/-- Pump `p` after taking a trap (R117): the five registers and the pc as the rule says, and no g, k, q or h register,
no flag and nothing else changed, but that a wait of the pump is over. -/
structure Entered (p q : Pump) (cause : Cause) (epc : Word) : Prop where
  tcause : q.tcause = cause
  epc : q.epc = va56 epc
  savedLast : q.savedLast = p.last
  pht : q.pht = p.ht
  ht : q.ht = true
  pc : q.pc = p.tvec
  rest : q = { p with tcause := q.tcause, epc := q.epc, savedLast := q.savedLast, pht := q.pht, ht := q.ht, pc := q.pc,
                      block := none, page := none, stallCycles := q.stallCycles }
  stall : p.block = none → p.page = none → q.stallCycles = p.stallCycles

/-- `exec i s` answers a next state in which core `c` has taken a trap, and nothing outside its pump has changed. -/
def TrapsOn (c : CoreId) (i : Instr) (s : State) (cause : Cause) (epc : Word) : Prop :=
  ∃ t, exec i s = .next t ∧ OnlyPump c s t ∧ Entered (s.pump c) (t.pump c) cause epc

/-- `exec i s` takes a precise fault at the instruction itself (R117). -/
def Faults (i : Instr) (s : State) (code : Code) (tval : Word) : Prop :=
  TrapsOn s.cur i s (precise code tval) (s.pump s.cur).pc

/-- `exec i s` answers a next state in which the pump waits in `i`: it records the cause, and nothing else changes but
the moment at which the wait began, and that the pump's next loads, which issue after it, see more (R485). -/
def Waits (i : Instr) (s : State) (why : Option (BitVec 8)) : Prop :=
  ∃ t, exec i s = .next t ∧ OnlyPumpAndOrder s.cur s t ∧
    t.pump s.cur = { s.pump s.cur with
      block := some i
      blockedAt := (t.pump s.cur).blockedAt
      stallWhy := why.getD (s.pump s.cur).stallWhy }

/-- The state in which the end of a wait of core `c` is tried: the cycles waited are counted, the wait is over (R96). -/
def unblocked (s : State) (c : CoreId) : State := s.modPump c fun p => p.unblock s.now

/-! ### Rounding (R105, R106, R110) -/

/-- The rational number that a finite value is. -/
def numRat : Machine.Num → ℚ
  | .fin neg m e => (if neg then -1 else 1) * m * 2 ^ e
  | _ => 0

/-- The value is finite. -/
def numFin : Machine.Num → Bool
  | .fin _ _ _ => true
  | _ => false

/-- The sign bit of a code of a format. -/
def codeNeg (F : FloatFmt) (v : Nat) : Bool := v / 2 ^ F.signBit % 2 = 1

/-- The code `v` is the number `x ≠ 0` rounded once into format `F`, to nearest even or toward zero, and `f` are the
flags of IEEE 754, tininess detected after rounding: overflow gives the infinity of the sign, or toward zero the
largest finite number of the sign. -/
structure Rounded (F : FloatFmt) (rtz : Bool) (x : ℚ) (v : Nat) (f : Flags) : Prop where
  width : v < 2 ^ (F.p + F.ebits)
  overflow : (if rtz then (2 : ℚ) ^ (F.bias + 1) else 2 ^ (F.bias + 1) - 2 ^ (F.bias - F.p)) ≤ |x| →
    v = (if rtz then F.maxCode (x < 0) else F.infCode (x < 0)) ∧ f = fOf ||| fNx
  finite : |x| < (if rtz then (2 : ℚ) ^ (F.bias + 1) else 2 ^ (F.bias + 1) - 2 ^ (F.bias - F.p)) →
    numFin (Num.ofCode F v) = true ∧ codeNeg F v = decide (x < 0) ∧
      f = flagIf (numRat (Num.ofCode F v) ≠ x) fNx |||
        flagIf (numRat (Num.ofCode F v) ≠ x ∧
          |x| < if rtz then (2 : ℚ) ^ F.emin else 2 ^ F.emin - 2 ^ (F.emin - F.p - 1)) fUf
  nearest : rtz = false → |x| < 2 ^ (F.bias + 1) - 2 ^ (F.bias - F.p) → ∀ w < 2 ^ (F.p + F.ebits),
    numFin (Num.ofCode F w) = true →
      |numRat (Num.ofCode F v) - x| ≤ |numRat (Num.ofCode F w) - x| ∧
        (|numRat (Num.ofCode F v) - x| = |numRat (Num.ofCode F w) - x| →
          numRat (Num.ofCode F w) ≠ numRat (Num.ofCode F v) → v % 2 = 0)
  toward : rtz = true → |x| < 2 ^ (F.bias + 1) →
    |numRat (Num.ofCode F v)| ≤ |x| ∧
      ∀ w < 2 ^ (F.p + F.ebits), numFin (Num.ofCode F w) = true → |numRat (Num.ofCode F w)| ≤ |x| →
        |numRat (Num.ofCode F w)| ≤ |numRat (Num.ofCode F v)|

/-- The integer `n` is the number `x` rounded to nearest even, or toward zero. -/
def RoundedInt (rtz : Bool) (x : ℚ) (n : Int) : Prop :=
  if rtz then |(n : ℚ)| ≤ |x| ∧ |x - n| < 1 ∧ 0 ≤ x * n
  else |x - n| ≤ 1 / 2 ∧ (|x - n| = 1 / 2 → n % 2 = 0)

/-- GAIN(gc) of a coded format (R128). -/
def gainRat (f : Fmt) (gc : Nat) : ℚ :=
  let mb := if f = .c16 then 8 else 3
  let low : ℤ := if f = .c16 then -142 else -17
  if gc / 2 ^ mb = 0 then (gc : ℚ) * 2 ^ low else ((gc % 2 ^ mb + 2 ^ mb : ℕ) : ℚ) * 2 ^ (low + (gc / 2 ^ mb : ℕ) - 1)

/-- Pulse sum K of a coded format (R127). -/
def pulseSumOf (f : Fmt) : Nat := if f = .c16 then 16 else 4

/-- The register holds a valid coded atom with pulses `p` and gain `g` (R127, R128, R134). -/
structure CodedAs (a : QReg) (p : List Int) (g : ℚ) : Prop where
  tag : a.tag = .c4 ∨ a.tag = .c16
  zero : a.tag = .c16 → a.val.extractLsb' 16 2 = 0
  gain : g = gainRat a.tag (if a.tag = .c16 then (a.val.extractLsb' 0 16).toNat else (a.val.extractLsb' 0 8).toNat)
  lanes : p.length = 4
  sum : (p.map Int.natAbs).sum = pulseSumOf a.tag
  index : rank (pulseSumOf a.tag) p = if a.tag = .c16 then (a.val.extractLsb' 18 14).toNat else (a.val.extractLsb' 8 8).toNat

/-- Order of FP32 codes that are no NaN, −0 below +0. -/
def codeKey (n : Nat) : Int := if 2 ^ 31 ≤ n then -(n - 2 ^ 31 : Int) - 1 else n

/-- The same order with −0 equal to +0. -/
def codeKeyZero (n : Nat) : Int := if 2 ^ 31 ≤ n then -(n - 2 ^ 31 : Int) else n

/-- An FP32 code of a NaN. -/
def nanCode32 (n : Nat) : Bool := 0x7F80_0000 < n % 2 ^ 31

/-- An FP32 code of a signalling NaN. -/
def snanCode32 (n : Nat) : Bool := 0x7F80_0000 < n % 2 ^ 31 && n % 2 ^ 31 < 0x7FC0_0000

/-! ### Accesses (R294, R295, R301, R303, R170) -/

/-- One access of an instruction: effective address, size in bytes, cistern space or virtual memory, and the permission
it needs. -/
structure Access where
  ea : Word
  size : Nat
  cistern : Bool
  need : Need
  deriving DecidableEq, Repr

/-- The access that a pump instruction makes to memory or to the cistern, where the checks of R295 apply to it. -/
def accessOf (p : Pump) : Instr → Option Access
  | .ld size cis _ _ a imm => some { ea := p.read a + imm.signExtend 64, size := size.bytes, cistern := cis, need := .rd }
  | .st size cis _ _ a imm => some { ea := p.read a + imm.signExtend 64, size := size.bytes, cistern := cis, need := .wr }
  | .lds _ a imm => some { ea := p.read a + imm.signExtend 64, size := 8, cistern := true, need := .rd }
  | .stf _ a imm => some { ea := p.read a + imm.signExtend 64, size := 8, cistern := true, need := .wr }
  | .ldq f cis _ a imm => some { ea := p.read a + imm.signExtend 64, size := f.bytes, cistern := cis, need := .rd }
  | .stq f cis _ a imm => some { ea := p.read a + imm.signExtend 64, size := f.bytes, cistern := cis, need := .wr }
  | .aimp t _ _ _ ga => some { ea := p.read ga, size := if t = .int4 then 2 else 4, cistern := false, need := .rd }
  | .aexp t _ _ ga => some { ea := p.read ga, size := if t = .int4 then 2 else 4, cistern := false, need := .wr }
  | .amo op _ _ a _ => some { ea := p.read a, size := if op = .fadd then 4 else 8, cistern := false, need := .rw }
  | .amoCas _ _ a _ _ => some { ea := p.read a, size := 8, cistern := false, need := .rw }
  | .nma _ _ a imm => some { ea := p.read a + imm.signExtend 64, size := 4, cistern := false, need := .rw }
  | _ => none

/-- The store part of an instruction: it is a `st` or `stq` to the given space that stores the low `n` bytes of `v`. -/
def stores (p : Pump) (cistern : Bool) : Instr → Nat → BitVec 128 → Prop
  | .st size cis _ d _ _, n, v => cis = cistern ∧ n = size.bytes ∧ v = (p.read d).setWidth 128
  | .stq f cis q _ _, n, v => cis = cistern ∧ n = f.bytes ∧ v = p.q[q.toFin].val
  | _, _, _ => False

/-- The state in which the access of a store acts: a release first performs the pump's earlier stores, and what the core
has seen goes with the word it writes (R276, R277). -/
def afterRelease (s : State) : Instr → State
  | .st _ _ (some scope) _ _ _ => s.releaseAt s.cur scope
  | .stf _ _ _ => s.releaseAt s.cur .core
  | _ => s

/-- Byte `j` of a value (R8). -/
def byteOf (v : BitVec 128) (j : Nat) : Byte := v.extractLsb' (8 * j) 8

end Sys2Proof
end

