-- ==== Sys2Proof/Certificates/Slice0/Obligations.lean ====
section
/-! DEFINITION. The statements for the provers, each from the numbered rules of the spec that its docstring names. -/

open Sys2Proof
open Sys2Proof.Machine

/-! ### Reset, fetching, decoding -/

/-- What R94 to R96 say of every core right after device reset: each atom register holds O32 and zero, every handle is
unset, and the system registers read the values of their Reset columns; and R478 to R479: boot stage 0, no queue, no
flow. (The registers of R91 at zero are the model's choice, log 4, and are not claimed here.) -/
def Obligations.ResetLeavesTheStatedValues : Prop :=
  ∀ c : CoreId,
    let p := State.reset.pump c
    (∀ j : Fin 16, p.q[j] = { val := 0, tag := .o32 }) ∧ (∀ h : Fin 64, p.handles[h] = none) ∧
    (∀ r : SReg, r ≠ .isa → r ≠ .feat0 → r ≠ .core → State.reset.readSReg c r = 0) ∧
    State.reset.readSReg c .isa = 0x030300 ∧ State.reset.readSReg c .core = BitVec.ofNat 64 c.val ∧
    State.reset.stage = 0 ∧ State.reset.queues = [] ∧ State.reset.flows = []

/-- The memory invariant of `MemoryStaysCanonical` holds at reset. -/
def Obligations.ResetMemoryIsCanonical : Prop := MemoryWf State.reset

/-- A STEP RUNS THE DECODED INSTRUCTION (R49, R98, R116): when it is the turn of a pump that runs, waits for nothing, is asked
for no pre-emption and has no asynchronous trap to take, and the eight bytes at its pc decode to `i`, the step is `exec i` at
the state that time and the schedule have led to; the pump only notes the moment of the issue and what it has loaded, which no
register shows, and its next loads see more (R485). When it is the turn of an event that no shutdown has stopped, the step is
that event. -/
def Obligations.StepRunsTheDecodedInstruction : Prop :=
  (∀ (s u : State) (c : CoreId) (i : Instr) (pa : Nat), s.nextAct = (u, .pump c) →
    let v := { u with cur := c }
    v.shut = false → (v.pump c).run = .running → (v.pump c).block = none → (v.pump c).page = none →
    ((v.pump c).ht = true ∨ (v.pump c).asyncs = []) → (v.pump c).ypend = false → (v.launch c).inCode (v.pump c).pc = true →
    v.translate c (v.pump c).pc .fetch = .at pa → v.lineStop pa (v.pump c).pc = none →
    decode (leWord (v.view c pa 8)) = .ok i →
    let w := v.modPump c fun p => { p with issuedAt := v.now }
    step s = exec i (w.issue c i) ∧ OnlyPumpAndOrder c v (w.issue c i) ∧
      (w.issue c i).pump c = { v.pump c with issuedAt := v.now, loads := ((w.issue c i).pump c).loads }) ∧
  (∀ (s u : State) (i : Instr), s.nextAct = (u, .event i) → step s = if u.happens i then exec i u else .next u)

/-- A word that is no instruction is fault 0x01 with the word in `s.tval`, and a pc outside the code section is fault 0x04 at
that address, with `s.epc` at the instruction in both (R51, R52, R116 to R118): as a step of a pump that runs, waits for
nothing, is asked for no pre-emption and has no asynchronous trap to take, and as the steps ILLEGAL_INSTRUCTION and
INSTRUCTION_FETCH. A fetch that can give a word changes nothing by itself; one whose page has no entry waits with cause 8
(R434). -/
def Obligations.UnfetchableWordsTrap : Prop :=
  (∀ (s u : State) (c : CoreId) (pa : Nat) (e : Reject), s.nextAct = (u, .pump c) →
    let v := { u with cur := c }
    v.shut = false → (v.pump c).run = .running → (v.pump c).block = none → (v.pump c).page = none →
    (v.pump c).asyncs = [] → (v.pump c).ypend = false → CanTrap (v.pump c) →
    ((v.launch c).inCode (v.pump c).pc = true → v.translate c (v.pump c).pc .fetch = .at pa →
      v.lineStop pa (v.pump c).pc = none → decode (leWord (v.view c pa 8)) = .error e →
      ∃ t, step s = .next t ∧ OnlyPump c v t ∧
        Entered { v.pump c with issuedAt := v.now } (t.pump c) (precise 0x01 (leWord (v.view c pa 8))) (v.pump c).pc) ∧
    ((v.launch c).inCode (v.pump c).pc = false →
      ∃ t, step s = .next t ∧ OnlyPump c v t ∧
        Entered { v.pump c with issuedAt := v.now } (t.pump c) (precise 0x04 (v.pump c).pc) (v.pump c).pc)) ∧
  (∀ (s : State) (w : Word) (pa : Nat),
    let p := s.pump s.cur
    (CanTrap p → Faults (.illegalInstruction w) s 0x01 w) ∧
    ((s.launch s.cur).inCode p.pc = false → CanTrap p → Faults .instructionFetch s 0x04 p.pc) ∧
    ((s.launch s.cur).inCode p.pc = true → s.translate s.cur p.pc .fetch = .at pa → s.lineStop pa p.pc = none →
      exec .instructionFetch s = .next s) ∧
    ((s.launch s.cur).inCode p.pc = true → s.translate s.cur p.pc .fetch = .absent →
      ∃ t id, exec .instructionFetch s = .next t ∧
        t.pump s.cur = { p with page := some (id, p.pc), blockedAt := s.now, stallWhy := 8 } ∧
        ∃ r ∈ t.requests, r.id = id ∧ r.va = (va56 p.pc) &&& 0xFFFF_FFFF_FFFF_0000 ∧ r.space = (s.launch s.cur).space))

/-- The instruction words that the spec prints beside their assembly decode to the instructions they stand for (R50 to R72). -/
def Obligations.WordsDecodeAsTheSpecEncodesThem : Prop :=
  decode 0x1908_0000_89AB_CDEF = .ok (.li (.g 4) 0x89AB_CDEF) ∧
  decode 0x0C08_1028_0000_0000 = .ok (.minn (.g 4) (.g 4) (.g 5)) ∧
  decode 0x1982_0000_0000_0818 = .ok (.li (.k 1) 0x818) ∧
  decode 0x4600_1C00_FFFF_FFFD = .ok (.dbnz (.g 7) 0xFFFF_FFFD) ∧
  decode 0x500E_2C33_0000_0000 = .ok (.ld .d false (some .quad) (.g 7) (.g 11) 0) ∧
  decode 0x510C_2C33_0000_0000 = .ok (.st .d false (some .quad) (.g 6) (.g 11) 0) ∧
  decode 0x600E_2840_92A0_0000 = .ok (.amoCas (.acq .quad) (.g 7) (.g 10) (.g 8) (.g 9)) ∧
  decode 0x6100_0000_0030_0000 = .ok (.fence .quad) ∧
  decode 0x620C_3000_0000_0004 = .ok (.nma .fadd (.g 6) (.g 12) 4) ∧
  decode 0x7233_4000_0004_0000 = .ok (.aadd (some .o32) 3 3 4) ∧
  decode 0x800C_1058_0000_0400 = .ok (.hset false 3 (.g 11) 4 1024) ∧
  decode 0x830C_0400_0000_0000 = .ok (.advh 3 1) ∧
  decode 0x9100_0000_0000_0010 = .ok (.cfgs 0 1) ∧
  decode 0x9500_5000_0000_0000 = .ok (.gld (.g 20)) ∧
  decode 0xA400_5000_0000_0000 = .ok (.launch (.g 20)) ∧
  decode 0xA800_0000_0030_0000 = .ok (.bar .quad) ∧
  decode 0xB000_0000_0000_0005 = .ok (.trap 5) ∧
  decode 0xB301_0800_0000_0024 = .ok (.swr .epc (.k 2)) ∧
  decode 0x7021_0000_0001_0000 = .ok (.aenc .c4 2 1) ∧
  decode 0x7832_0012_0001_0000 = .ok (.amsk (some .c4) 3 2 (.g 9)) ∧
  decode 0x7843_0014_0001_0000 = .ok (.amsk (some .c4) 4 3 (.g 10)) ∧
  decode 0x9600_0000_0000_0000 = .ok .gsw ∧
  decode 0x9700_0000_0000_0001 = .ok (.grel 1) ∧
  decode 0x980C_0000_0000_0000 = .ok (.gq (.g 6)) ∧
  decode 0x500E_0403_0000_0000 = .ok (.ld .d false none (.g 7) (.g 1) 0) ∧
  decode 0x5012_0403_0000_0008 = .ok (.ld .d false none (.g 9) (.g 1) 8) ∧
  decode 0x4000_1C00_0000_000D = .ok (.beq (.g 7) (.g 0) 13) ∧
  decode 0x5402_1401_0000_0000 = .ok (.ldq .c4 false 1 (.g 5) 0) ∧
  decode 0x5404_1401_0000_0002 = .ok (.ldq .c4 false 2 (.g 5) 2) ∧
  decode 0x7131_0000_0000_0000 = .ok (.adec 3 1) ∧
  decode 0x7142_0000_0000_0000 = .ok (.adec 4 2) ∧
  decode 0x7733_0000_0000_0001 = .ok (.amap .relu none 3 3) ∧
  decode 0x7833_0012_0000_0000 = .ok (.amsk none 3 3 (.g 9)) ∧
  decode 0x7053_0000_0001_0000 = .ok (.aenc .c4 5 3) ∧
  decode 0x550A_1801_0000_0000 = .ok (.stq .c4 false 5 (.g 6) 0) ∧
  decode 0x100A_1400_0000_0004 = .ok (.addi (.g 5) (.g 5) 4) ∧
  decode 0x100C_1800_0000_0002 = .ok (.addi (.g 6) (.g 6) 2) ∧
  decode 0x4600_1C00_FFFF_FFF5 = .ok (.dbnz (.g 7) 0xFFFF_FFF5) ∧
  decode 0xB400_0000_0000_0000 = .ok .halt ∧
  decode 0x8800_0000_0000_0000 = .ok (.kick 0) ∧
  decode 0x810C_0050_00A0_0000 = .ok (.strm 3 (.g 10) (some 2)) ∧
  decode 0x0410_0878_0000_0000 = .ok (.xor (.g 8) (.g 2) (.g 15)) ∧
  decode 0x5032_700A_0000_0000 = .ok (.ld .wz true none (.g 25) (.g 28) 0) ∧
  decode 0x3034_68C8_0000_0000 = .ok (.fadd (.g 26) (.g 26) (.g 25)) ∧
  decode 0x6232_7400_0000_0000 = .ok (.nma .fadd (.g 25) (.g 29) 0) ∧
  decode 0x6300_0000_0000_0000 = .ok .nmf ∧
  decode 0x6000_5C48_0700_0000 = .ok (.amo .add (.rel .quad) (.g 0) (.g 23) (.g 9)) ∧
  decode 0x5010_5C33_0000_0000 = .ok (.ld .d false (some .quad) (.g 8) (.g 23) 0) ∧
  decode 0xA000_1000_0000_0000 = .ok (.dqpush (.g 4)) ∧
  decode 0xA108_0000_0000_0000 = .ok (.dqpop (.g 4)) ∧
  decode 0xA208_3400_0000_0000 = .ok (.dqsteal (.g 4) (.g 13)) ∧
  decode 0xA30A_0000_0000_0000 = .ok (.dqlen (.g 5)) ∧
  decode 0xA500_1838_0000_0000 = .ok (.notify (.g 6) (.g 7)) ∧
  decode 0x9500_5400_0000_0000 = .ok (.gld (.g 21)) ∧
  decode 0x9300_0000_0000_0000 = .ok (.drain 0) ∧
  decode 0x331C_3060_E000_0000 = .ok (.ffma (.g 14) (.g 12) (.g 12) (.g 14)) ∧
  decode 0x351C_3800_0000_0000 = .ok (.fsqrt (.g 14) (.g 14)) ∧
  decode 0xB280_0000_0000_0022 = .ok (.srd (.k 0) .tcause) ∧
  decode 0xB100_0000_0000_0000 = .ok .eret ∧
  decode 0x4101_0208_0000_0005 = .ok (.bne (.k 0) (.k 1) 5) ∧
  decode 0x5232_400B_0000_0000 = .ok (.lds (.g 25) (.g 16) 0) ∧
  decode 0x5402_7814_0000_0060 = .ok (.ldq .o32 true 1 (.g 30) 0x60) ∧
  decode 0x7711_0000_0000_0004 = .ok (.amap .exp2 none 1 1) ∧
  decode 0x332A_54D1_9000_0000 = .ok (.ffma (.g 21) (.g 21) (.g 26) (.g 25)) ∧
  decode 0x8014_0458_0010_0400 = .ok (.hset true 5 (.g 11) 1 1024) ∧
  decode 0x8114_0060_0000_0000 = .ok (.strm 5 (.g 12) none) ∧
  decode 0x8608_0400_0000_0000 = .ok (.stop 2 1) ∧
  decode 0 = .error .zeroWord

/-- DECODE AND ENCODE AGREE: the decoder reads from the word of every well-formed pump instruction that instruction,
with every operand at every value its encoding row admits (R50 to R72). -/
def Obligations.DecodingInvertsEncoding : Prop := ∀ i : Instr, i.wf = true → decode (encode i) = .ok i

/-- EVERY STEP KEEPS MEMORY CANONICAL: addresses strictly rising and no entry equal to what an unlisted address reads
as, in memory and in every cistern, so that equal memories are equal data. (The form is the model's, log 5 and 6.) -/
def Obligations.MemoryStaysCanonical : Prop := ∀ s t : State, MemoryWf s → step s = .next t → MemoryWf t

/-! ### Integer instructions (R91, R92, R100 to R104) -/

/-- Sums and differences wrap modulo 2^64, immediates are sign-extended, `agen` adds to its own address;
minimum, maximum, comparisons and `sel` are signed or unsigned as named; each result goes to d and `last`, with no flag
and nothing else changed (R92, R100 to R103). -/
def Obligations.IntegerResultsWrapAndCompare : Prop :=
  ∀ (s : State) (d a b c : Reg) (imm : BitVec 32),
    let p := s.pump s.cur
    let x := p.read a
    let y := p.read b
    let z := p.read c
    Computes (.add d a b) s d (fun v => v.toNat = (x.toNat + y.toNat) % 2 ^ 64) ∧
    Computes (.sub d a b) s d (fun v => v.toNat = (x.toNat + 2 ^ 64 - y.toNat) % 2 ^ 64) ∧
    Computes (.addi d a imm) s d (fun v => v.toInt = (x.toInt + imm.toInt).bmod (2 ^ 64)) ∧
    Computes (.li d imm) s d (fun v => v.toInt = imm.toInt) ∧
    Computes (.agen d imm) s d (fun v => v.toInt = (p.pc.toInt + imm.toInt).bmod (2 ^ 64)) ∧
    Computes (.mov d a) s d (fun v => v = x) ∧
    Computes (.min d a b) s d (fun v => v.toInt = min x.toInt y.toInt) ∧
    Computes (.max d a b) s d (fun v => v.toInt = max x.toInt y.toInt) ∧
    Computes (.minn d a b) s d (fun v => v.toNat = min x.toNat y.toNat) ∧
    Computes (.maxn d a b) s d (fun v => v.toNat = max x.toNat y.toNat) ∧
    Computes (.slt d a b) s d (fun v => v = if x.toInt < y.toInt then 1 else 0) ∧
    Computes (.sltn d a b) s d (fun v => v = if x.toNat < y.toNat then 1 else 0) ∧
    Computes (.slti d a imm) s d (fun v => v = if x.toInt < imm.toInt then 1 else 0) ∧
    Computes (.seq d a b) s d (fun v => v = if x = y then 1 else 0) ∧
    Computes (.sne d a b) s d (fun v => v = if x = y then 0 else 1) ∧
    Computes (.sel d a b c) s d (fun v => v = if z = 0 then y else x)

/-- The bitwise forms act bit by bit, with ZEXT(imm, 32) in the immediate forms; shifts and rotates move bit n by the
low six bits of the amount, with zeros or copies of bit 63 shifted in (R100, R101, R103). -/
def Obligations.BitwiseFormsActBitByBit : Prop :=
  ∀ (s : State) (d a b : Reg) (imm : BitVec 32) (m : BitVec 6),
    let p := s.pump s.cur
    let x := p.read a
    let y := p.read b
    let k := y.toNat % 64
    Computes (.and d a b) s d (fun v => ∀ n < 64, v.getLsbD n = (x.getLsbD n && y.getLsbD n)) ∧
    Computes (.or d a b) s d (fun v => ∀ n < 64, v.getLsbD n = (x.getLsbD n || y.getLsbD n)) ∧
    Computes (.xor d a b) s d (fun v => ∀ n < 64, v.getLsbD n = (x.getLsbD n ^^ y.getLsbD n)) ∧
    Computes (.andn d a b) s d (fun v => ∀ n < 64, v.getLsbD n = (x.getLsbD n && !y.getLsbD n)) ∧
    Computes (.andi d a imm) s d (fun v => ∀ n < 64, v.getLsbD n = (x.getLsbD n && (decide (n < 32) && imm.getLsbD n))) ∧
    Computes (.ori d a imm) s d (fun v => ∀ n < 64, v.getLsbD n = (x.getLsbD n || (decide (n < 32) && imm.getLsbD n))) ∧
    Computes (.xori d a imm) s d (fun v => ∀ n < 64, v.getLsbD n = (x.getLsbD n ^^ (decide (n < 32) && imm.getLsbD n))) ∧
    Computes (.shl d a b) s d (fun v => ∀ n < 64, v.getLsbD n = (decide (k ≤ n) && x.getLsbD (n - k))) ∧
    Computes (.shr d a b) s d (fun v => ∀ n < 64, v.getLsbD n = (decide (n + k < 64) && x.getLsbD (n + k))) ∧
    Computes (.sar d a b) s d (fun v => ∀ n < 64, v.getLsbD n = x.getLsbD (min (n + k) 63)) ∧
    Computes (.rol d a b) s d (fun v => ∀ n < 64, v.getLsbD n = x.getLsbD ((n + 64 - k) % 64)) ∧
    Computes (.shli d a m) s d (fun v => ∀ n < 64, v.getLsbD n = (decide (m.toNat ≤ n) && x.getLsbD (n - m.toNat))) ∧
    Computes (.shri d a m) s d (fun v => ∀ n < 64, v.getLsbD n = (decide (n + m.toNat < 64) && x.getLsbD (n + m.toNat))) ∧
    Computes (.sari d a m) s d (fun v => ∀ n < 64, v.getLsbD n = x.getLsbD (min (n + m.toNat) 63)) ∧
    Computes (.roli d a m) s d (fun v => ∀ n < 64, v.getLsbD n = x.getLsbD ((n + 64 - m.toNat) % 64))

/-- R102: the high halves of products, and quotients and remainders with all their corners; none of them traps. -/
def Obligations.MultiplyAndDivideNeverTrap : Prop :=
  ∀ (s : State) (d a b c : Reg),
    let p := s.pump s.cur
    let x := p.read a
    let y := p.read b
    Computes (.mul d a b) s d (fun v => v.toNat = x.toNat * y.toNat % 2 ^ 64) ∧
    Computes (.mulh d a b) s d (fun v => v.toInt = x.toInt * y.toInt / 2 ^ 64) ∧
    Computes (.mulhn d a b) s d (fun v => v.toNat = x.toNat * y.toNat / 2 ^ 64) ∧
    Computes (.madd d a b c) s d (fun v => v.toNat = (x.toNat * y.toNat + (p.read c).toNat) % 2 ^ 64) ∧
    Computes (.div d a b) s d (fun v =>
      if y = 0 then v = 0xFFFF_FFFF_FFFF_FFFF
      else if x.toInt = -2 ^ 63 ∧ y.toInt = -1 then v.toInt = -2 ^ 63
      else v.toInt = x.toInt.tdiv y.toInt) ∧
    Computes (.divn d a b) s d (fun v => if y = 0 then v = 0xFFFF_FFFF_FFFF_FFFF else v.toNat = x.toNat / y.toNat) ∧
    Computes (.rem d a b) s d (fun v =>
      if y = 0 then v = x
      else if x.toInt = -2 ^ 63 ∧ y.toInt = -1 then v = 0
      else v.toInt = x.toInt - y.toInt * x.toInt.tdiv y.toInt) ∧
    Computes (.remn d a b) s d (fun v => if y = 0 then v = x else v.toNat = x.toNat - y.toNat * (x.toNat / y.toNat))

/-- `clz`, `ctz` and `popc` count as R101 says; `lih` and `movk` replace their part of d and keep the rest (R103); and
`bfx` and `bfi` by R104, within the limits of R57. -/
def Obligations.CountsAndFieldsOfBits : Prop :=
  ∀ (s : State) (d a : Reg) (imm : BitVec 32) (imm16 : BitVec 16) (lane : BitVec 2) (lsb lenM1 : BitVec 6),
    lsb.toNat + lenM1.toNat + 1 ≤ 64 →
    let p := s.pump s.cur
    let x := p.read a
    let y := p.read d
    let len := lenM1.toNat + 1
    Computes (.clz d a) s d (fun v => v.toNat ≤ 64 ∧ (∀ n < v.toNat, x.getLsbD (63 - n) = false) ∧
      (v.toNat < 64 → x.getLsbD (63 - v.toNat) = true)) ∧
    Computes (.ctz d a) s d (fun v => v.toNat ≤ 64 ∧ (∀ n < v.toNat, x.getLsbD n = false) ∧
      (v.toNat < 64 → x.getLsbD v.toNat = true)) ∧
    Computes (.popc d a) s d (fun v => v.toNat = (List.range 64).countP fun n => x.getLsbD n) ∧
    Computes (.lih d imm) s d (fun v => ∀ n < 64, v.getLsbD n = if n < 32 then y.getLsbD n else imm.getLsbD (n - 32)) ∧
    Computes (.movk d imm16 lane) s d (fun v => ∀ n < 64,
      v.getLsbD n = if n / 16 = lane.toNat then imm16.getLsbD (n % 16) else y.getLsbD n) ∧
    Computes (.bfx d a lsb lenM1) s d (fun v => ∀ n < 64, v.getLsbD n = (decide (n < len) && x.getLsbD (lsb.toNat + n))) ∧
    Computes (.bfi d a lsb lenM1) s d (fun v => ∀ n < 64,
      v.getLsbD n = if lsb.toNat ≤ n ∧ n < lsb.toNat + len then x.getLsbD (n - lsb.toNat) else y.getLsbD n)

/-! ### Scalar float (R105 to R111) -/

/-- The values R105 and R106 name for NaN operands, infinities, zeros and invalid operations, with their flags: every
NaN result is 0x7FC0_0000 and a signalling operand sets nv; ∞ − ∞, 0 × ∞, 0/0, ∞/∞ and √ of a negative number give NaN
and set nv, `ffma` even when its addend is a quiet NaN; an infinite product plus a finite addend is that infinity; x/0 gives
a signed ∞ and sets dz; an exact zero sum is +0 unless
both addends are −0. Every form completes on every operand, with its result below 2^32 and its flags ORed in (R111). -/
def Obligations.FloatSpecialValues : Prop :=
  ∀ (s : State) (d a b c : Reg),
    let A := (s.pump s.cur).readF a
    let B := (s.pump s.cur).readF b
    let C := (s.pump s.cur).readF c
    let nan : Word := 0x7FC0_0000
    let inf (neg : Bool) : Word := if neg then 0xFF80_0000 else 0x7F80_0000
    let zero (neg : Bool) : Word := if neg then 0x8000_0000 else 0
    let invalidIf (b : Bool) : Flags := if b then 0x10 else 0
    -- the exact product is an infinity, of sign p
    let infinite (p : Bool) : Prop := (∃ m n, A = .inf m ∧ B = .inf n ∧ p = (m != n)) ∨
      ∃ m n i e, i ≠ 0 ∧ p = (m != n) ∧ ((A = .inf m ∧ B = .fin n i e) ∨ (A = .fin m i e ∧ B = .inf n))
    let sum (X Y : Machine.Num) (v : Word) (f : Flags) : Prop :=
      v.toNat < 2 ^ 32 ∧
      ((X.isNan || Y.isNan) = true → v = nan ∧ f = invalidIf (X.sig || Y.sig)) ∧
      (∀ m n, X = .inf m → Y = .inf n → if m = n then v = inf m ∧ f = 0 else v = nan ∧ f = 0x10) ∧
      (∀ m, X = .inf m → numFin Y = true → v = inf m ∧ f = 0) ∧
      (∀ m, Y = .inf m → numFin X = true → v = inf m ∧ f = 0) ∧
      (∀ m i e n j h, X = .fin m i e → Y = .fin n j h → numRat X + numRat Y = 0 → v = zero (m && n) ∧ f = 0)
    ComputesFlags (.fadd d a b) s d (sum A B) ∧
    ComputesFlags (.fsub d a b) s d (sum A B.neg) ∧
    ComputesFlags (.fmul d a b) s d (fun v f =>
      v.toNat < 2 ^ 32 ∧
      ((A.isNan || B.isNan) = true → v = nan ∧ f = invalidIf (A.sig || B.sig)) ∧
      (∀ m n, A = .inf m → B = .inf n → v = inf (m != n) ∧ f = 0) ∧
      (∀ m n i e, A = .inf m → B = .fin n i e → if i = 0 then v = nan ∧ f = 0x10 else v = inf (m != n) ∧ f = 0) ∧
      (∀ m n i e, B = .inf m → A = .fin n i e → if i = 0 then v = nan ∧ f = 0x10 else v = inf (n != m) ∧ f = 0) ∧
      (∀ m i e n j h, A = .fin m i e → B = .fin n j h → i * j = 0 → v = zero (m != n) ∧ f = 0)) ∧
    ComputesFlags (.ffma d a b c) s d (fun v f =>
      v.toNat < 2 ^ 32 ∧
      (∀ m n e, (A = .inf m ∧ B = .fin n 0 e) ∨ (B = .inf m ∧ A = .fin n 0 e) → v = nan ∧ f = 0x10) ∧
      ((A.isNan || B.isNan) = true → v = nan ∧ f = invalidIf (A.sig || B.sig || C.sig)) ∧
      (C.isNan = true → numFin A = true → numFin B = true → v = nan ∧ f = invalidIf C.sig) ∧
      (∀ p, infinite p → (C.isNan = true → v = nan ∧ f = invalidIf C.sig) ∧ (numFin C = true → v = inf p ∧ f = 0) ∧
        ∀ k, C = .inf k → if p = k then v = inf k ∧ f = 0 else v = nan ∧ f = 0x10) ∧
      (∀ k, C = .inf k → numFin A = true → numFin B = true → v = inf k ∧ f = 0) ∧
      (∀ m i e n j h k l g, A = .fin m i e → B = .fin n j h → C = .fin k l g →
        numRat A * numRat B + numRat C = 0 → v = zero ((m != n) && k) ∧ f = 0)) ∧
    ComputesFlags (.fdiv d a b) s d (fun v f =>
      v.toNat < 2 ^ 32 ∧
      ((A.isNan || B.isNan) = true → v = nan ∧ f = invalidIf (A.sig || B.sig)) ∧
      (∀ m n, A = .inf m → B = .inf n → v = nan ∧ f = 0x10) ∧
      (∀ m n i e, A = .inf m → B = .fin n i e → v = inf (m != n) ∧ f = 0) ∧
      (∀ m n i e, A = .fin m i e → B = .inf n → v = zero (m != n) ∧ f = 0) ∧
      (∀ m i e n h, A = .fin m i e → B = .fin n 0 h →
        if i = 0 then v = nan ∧ f = 0x10 else v = inf (m != n) ∧ f = 0x08) ∧
      (∀ m e n j h, A = .fin m 0 e → B = .fin n j h → j ≠ 0 → v = zero (m != n) ∧ f = 0)) ∧
    ComputesFlags (.fsqrt d a) s d (fun v f =>
      v.toNat < 2 ^ 32 ∧
      (A.isNan = true → v = nan ∧ f = invalidIf A.sig) ∧
      (∀ m, A = .inf m → if m then v = nan ∧ f = 0x10 else v = inf false ∧ f = 0) ∧
      (∀ m i e, A = .fin m i e → (i = 0 → v = zero m ∧ f = 0) ∧ (i ≠ 0 → m = true → v = nan ∧ f = 0x10)))

/-- "Each result is rounded once by RNE" (R106): on finite operands the sum, difference, product, fused product and
quotient, where they are not zero, are the exact rational number rounded once to FP32, with the flags of, uf and nx of
IEEE 754; and a square root lies between the neighbours that bound √a. -/
def Obligations.FloatResultsAreRoundedOnce : Prop :=
  ∀ (s : State) (d a b c : Reg),
    let A := (s.pump s.cur).readF a
    let B := (s.pump s.cur).readF b
    let C := (s.pump s.cur).readF c
    let x := numRat A
    let y := numRat B
    let z := numRat C
    numFin A = true → numFin B = true → numFin C = true →
    (x + y ≠ 0 → ComputesFlags (.fadd d a b) s d fun v f => Rounded f32 false (x + y) v.toNat f) ∧
    (x - y ≠ 0 → ComputesFlags (.fsub d a b) s d fun v f => Rounded f32 false (x - y) v.toNat f) ∧
    (x * y ≠ 0 → ComputesFlags (.fmul d a b) s d fun v f => Rounded f32 false (x * y) v.toNat f) ∧
    (x * y + z ≠ 0 → ComputesFlags (.ffma d a b c) s d fun v f => Rounded f32 false (x * y + z) v.toNat f) ∧
    (x ≠ 0 → y ≠ 0 → ComputesFlags (.fdiv d a b) s d fun v f => Rounded f32 false (x / y) v.toNat f) ∧
    (0 < x → ComputesFlags (.fsqrt d a) s d fun v f =>
      let r := numRat (Num.ofCode f32 v.toNat)
      let lo := (r + numRat (Num.ofCode f32 (v.toNat - 1))) / 2
      let hi := (r + numRat (Num.ofCode f32 (v.toNat + 1))) / 2
      0 < r ∧ lo * lo ≤ x ∧ x ≤ hi * hi ∧ (x = lo * lo ∨ x = hi * hi → v.toNat % 2 = 0) ∧
        f = if r * r = x then 0 else 0x01)

/-- `fmin` and `fmax` (R107), `fcmp` (R108) and `fcls` (R109) on the codes in bits [31:0] of their operands. -/
def Obligations.FloatOrderAndClasses : Prop :=
  ∀ (s : State) (d a b : Reg),
    let x := ((s.pump s.cur).read a).toNat % 2 ^ 32
    let y := ((s.pump s.cur).read b).toNat % 2 ^ 32
    let un := nanCode32 x || nanCode32 y
    let sig : Flags := if snanCode32 x || snanCode32 y then 0x10 else 0
    let choose (first : Bool) : Nat :=
      if nanCode32 x && nanCode32 y then 0x7FC0_0000
      else if nanCode32 x then y else if nanCode32 y then x else if first then x else y
    ComputesFlags (.fmin d a b) s d (fun v f => v.toNat = choose (codeKey x ≤ codeKey y) ∧ f = sig) ∧
    ComputesFlags (.fmax d a b) s d (fun v f => v.toNat = choose (codeKey y ≤ codeKey x) ∧ f = sig) ∧
    ComputesFlags (.fcmp .eq d a b) s d (fun v f =>
      v = (if !un && decide (codeKeyZero x = codeKeyZero y) then 1 else 0) ∧ f = sig) ∧
    ComputesFlags (.fcmp .lt d a b) s d (fun v f =>
      v = (if !un && decide (codeKeyZero x < codeKeyZero y) then 1 else 0) ∧ f = if un then 0x10 else 0) ∧
    ComputesFlags (.fcmp .le d a b) s d (fun v f =>
      v = (if !un && decide (codeKeyZero x ≤ codeKeyZero y) then 1 else 0) ∧ f = if un then 0x10 else 0) ∧
    ComputesFlags (.fcmp .un d a b) s d (fun v f => v = (if un then 1 else 0) ∧ f = sig) ∧
    Computes (.fcls d a) s d (fun v =>
      let neg := decide (2 ^ 31 ≤ x)
      let m := x % 2 ^ 31
      v = if m = 0 then (if neg then 8 else 16)
        else if m < 0x80_0000 then (if neg then 4 else 32)
        else if m < 0x7F80_0000 then (if neg then 2 else 64)
        else if m = 0x7F80_0000 then (if neg then 1 else 128)
        else if m < 0x7FC0_0000 then 256 else 512)

/-- `fcvt` (R110): conversions into a float format give the exact number rounded once by the selected mode, the
canonical NaN of the target, the infinity or the zero of the sign; conversions into an integer give the rounded
integer, or the end of the range and nv, s32 sign-extended to 64 bits. -/
def Obligations.ConversionsRoundByTheirMode : Prop :=
  ∀ (s : State) (d a : Reg) (rtz : Bool),
    let r := (s.pump s.cur).read a
    let toFloat (F : FloatFmt) (x : Machine.Num) (v : Word) (f : Flags) : Prop :=
      (x.isNan = true → v.toNat = F.nanCode ∧ f = if x.sig then 0x10 else 0) ∧
      (∀ n, x = .inf n → v.toNat = F.infCode n ∧ f = 0) ∧
      (∀ n e, x = .fin n 0 e → v.toNat = F.zeroCode n ∧ f = 0) ∧
      (numFin x = true → numRat x ≠ 0 → Rounded F rtz (numRat x) v.toNat f)
    let ofInt (n : Int) : Machine.Num := .fin (n < 0) n.natAbs 0
    let toInt (lo hi : Int) (x : Machine.Num) (v : Word) (f : Flags) : Prop :=
      (x.isNan = true → v = 0 ∧ f = 0x10) ∧
      (∀ n, x = .inf n → v = BitVec.ofInt 64 (if n then lo else hi) ∧ f = 0x10) ∧
      (numFin x = true → ∃ n : Int, RoundedInt rtz (numRat x) n ∧
        if n < lo then v = BitVec.ofInt 64 lo ∧ f = 0x10
        else if hi < n then v = BitVec.ofInt 64 hi ∧ f = 0x10
        else v = BitVec.ofInt 64 n ∧ f = if (n : ℚ) = numRat x then 0 else 0x01)
    let w := r.toNat % 2 ^ 32
    let h := r.toNat % 2 ^ 16
    ComputesFlags (.fcvt .f32s64 rtz d a) s d (toFloat f32 (ofInt r.toInt)) ∧
    ComputesFlags (.fcvt .f32n64 rtz d a) s d (toFloat f32 (ofInt r.toNat)) ∧
    ComputesFlags (.fcvt .f32s32 rtz d a) s d (toFloat f32 (ofInt (BitVec.ofNat 32 w).toInt)) ∧
    ComputesFlags (.fcvt .f32f16 rtz d a) s d (toFloat f32 (Num.ofCode f16 h)) ∧
    ComputesFlags (.fcvt .f32bf16 rtz d a) s d (toFloat f32 (Num.ofCode bf16 h)) ∧
    ComputesFlags (.fcvt .f16f32 rtz d a) s d (toFloat f16 (Num.ofCode f32 w)) ∧
    ComputesFlags (.fcvt .bf16f32 rtz d a) s d (toFloat bf16 (Num.ofCode f32 w)) ∧
    ComputesFlags (.fcvt .s64f32 rtz d a) s d (toInt (-2 ^ 63) (2 ^ 63 - 1) (Num.ofCode f32 w)) ∧
    ComputesFlags (.fcvt .n64f32 rtz d a) s d (toInt 0 (2 ^ 64 - 1) (Num.ofCode f32 w)) ∧
    ComputesFlags (.fcvt .s32f32 rtz d a) s d (toInt (-2 ^ 31) (2 ^ 31 - 1) (Num.ofCode f32 w))

/-! ### Control flow (R60, R112 to R116) -/

/-- R112: each conditional branch goes to its address plus 8 × SEXT(off32, 32) when its condition holds, and else to
the next instruction; it writes no register. -/
def Obligations.BranchesGoWhereTheirConditionSays : Prop :=
  ∀ (s : State) (a b : Reg) (off : BitVec 32),
    let p := s.pump s.cur
    let x := p.read a
    let y := p.read b
    let goal (cond : Prop) [Decidable cond] : Word := if cond then p.pc + 8 * off.signExtend 64 else nextPc s
    Jumps (.beq a b off) s (goal (x = y)) ∧
    Jumps (.bne a b off) s (goal (x ≠ y)) ∧
    Jumps (.blt a b off) s (goal (x.toInt < y.toInt)) ∧
    Jumps (.bge a b off) s (goal (y.toInt ≤ x.toInt)) ∧
    Jumps (.bltn a b off) s (goal (x.toNat < y.toNat)) ∧
    Jumps (.bgen a b off) s (goal (y.toNat ≤ x.toNat))

/-- R113: `dbnz` writes a − 1 modulo 2^64 through a and to `last`, and branches when it is not zero; through g0 the
value 2^64 − 1 reaches `last` alone and the branch is taken. -/
def Obligations.DbnzDecrementsAndBranches : Prop :=
  ∀ (s : State) (a : Reg) (off : BitVec 32),
    let p := s.pump s.cur
    let v := p.read a - 1
    (a = .g 0 → v = 0xFFFF_FFFF_FFFF_FFFF) ∧
    ∃ t, exec (.dbnz a off) s = .next t ∧ OnlyPump s.cur s t ∧
      (∀ r, (t.pump s.cur).read r = if r = .g 0 then 0 else if r = a ∨ r = .last then v else p.read r) ∧
      (t.pump s.cur).pc = (if v ≠ 0 then p.pc + 8 * off.signExtend 64 else nextPc s) ∧
      t.pump s.cur = { p with g := (t.pump s.cur).g, k := (t.pump s.cur).k, last := v, pc := (t.pump s.cur).pc }

/-- `jmp`, `call`, `ret` (R114), and the instructions that only go on: `land` (R115), `nop` (R123), `fence.lane`
(R279), and both prefetches as far as anything but the translations of the core is concerned (R300). `call` writes lk
with the address after it, and `last` stays; a misaligned target of `ret` is fault 0x02. -/
def Obligations.JumpsCallsAndReturns : Prop :=
  ∀ (s : State) (a : Reg) (off imm : BitVec 32) (label : BitVec 16) (kind : PrefKind),
    let p := s.pump s.cur
    let goal := p.pc + 8 * off.signExtend 64
    Jumps (.jmp off) s goal ∧
    (∃ t, exec (.call off) s = .next t ∧ OnlyPump s.cur s t ∧
      (∀ r, (t.pump s.cur).read r = if r = .g 62 then nextPc s else p.read r) ∧
      t.pump s.cur = { p with g := (t.pump s.cur).g, pc := goal }) ∧
    ((p.read a).toNat % 8 = 0 → Jumps (.ret a) s (p.read a)) ∧
    ((p.read a).toNat % 8 ≠ 0 → CanTrap p → Faults (.ret a) s 0x02 (p.read a)) ∧
    Jumps (.land label) s (nextPc s) ∧ Jumps .nop s (nextPc s) ∧ Jumps (.fence .lane) s (nextPc s) ∧
    Jumps (.pref .l2 a imm) s (nextPc s) ∧
    (∃ t, exec (.pref kind a imm) s = .next t ∧ OnlyCore s.cur s t ∧
      t.core s.cur = { s.core s.cur with pump := { p with pc := nextPc s }, tlb := (t.core s.cur).tlb })

/-- `jt` and `callt` (R75, R115): through the record of the table they go to entry i when every check passes, `callt`
with lk written as by `call`; each check that fails traps at the instruction, in the order and with the `s.tval` of the
pseudocode. (The words of the table are those the launch state finds, log 27.) -/
def Obligations.TableJumpsCheckTheirTarget : Prop :=
  ∀ (s : State) (a : Reg) (tbl : BitVec 10) (label : BitVec 16) (rec_ head t w : Word),
    let p := s.pump s.cur
    let l := s.launch s.cur
    let i := p.read a
    let both (q : Instr → Prop) : Prop := q (.jt a tbl label) ∧ q (.callt a tbl label)
    (l.tableCount ≤ tbl.toNat → CanTrap p → both fun j => Faults j s 0x06 0xFFFF_FFFF_FFFF_FFFF) ∧
    (tbl.toNat < l.tableCount → s.tableWord s.cur (l.tables + BitVec.ofNat 64 (8 * tbl.toNat)) = .ok rec_ →
      s.tableWord s.cur rec_ = .ok head →
      (head.toNat % 2 ^ 32 ≤ i.toNat → CanTrap p → both fun j => Faults j s 0x06 i) ∧
      (i.toNat < head.toNat % 2 ^ 32 →
        (head.extractLsb' 32 16 ≠ label → CanTrap p → both fun j => Faults j s 0x05 0) ∧
        (head.extractLsb' 32 16 = label → s.tableWord s.cur (rec_ + 8 + 8 * i) = .ok t →
          (t.toNat % 8 ≠ 0 → CanTrap p → both fun j => Faults j s 0x02 t) ∧
          (t.toNat % 8 = 0 → l.inCode t = false → CanTrap p → both fun j => Faults j s 0x04 t) ∧
          (t.toNat % 8 = 0 → l.inCode t = true → s.fetchWord s.cur t = .ok w →
            (decode w ≠ .ok (.land label) → CanTrap p → both fun j => Faults j s 0x05 t) ∧
            (decode w = .ok (.land label) →
              Jumps (.jt a tbl label) s t ∧
              ∃ u, exec (.callt a tbl label) s = .next u ∧ OnlyPump s.cur s u ∧
                (∀ r, (u.pump s.cur).read r = if r = .g 62 then nextPc s else p.read r) ∧
                u.pump s.cur = { p with g := (u.pump s.cur).g, pc := t })))))

/-! ### Traps and the system instructions (R117 to R126) -/

/-- R117, R118 and R123 for `trap` and `brk`: the trap is taken with `s.epc` at the next instruction and the `s.tval`
of R118; and R121: while ht = 1, or while `s.tvec` is 0, the pump executes no further instruction, the refused trap is
kept for the fatal end, and the group stops (R446). -/
def Obligations.SoftwareTrapsEnterTheHandler : Prop :=
  ∀ (s : State) (imm : BitVec 32),
    let p := s.pump s.cur
    (p.ht = false → p.tvec ≠ 0 → TrapsOn s.cur (.trap imm) s (precise 0x08 (imm.setWidth 64)) (nextPc s) ∧
      TrapsOn s.cur .brk s (precise 0x07 0) (nextPc s)) ∧
    (p.ht = true ∨ p.tvec = 0 → ∀ i cause, (i = .trap imm ∧ cause = precise 0x08 (imm.setWidth 64)) ∨ (i = .brk ∧ cause = precise 0x07 0) →
      ∃ t, exec i s = .next t ∧ GroupStops s.cur s t ∧ (t.pump s.cur).run = .fatal ∧
        (t.pump s.cur).fatalBy = some (cause, va56 (nextPc s)) ∧
        t.pump s.cur = { p with run := .fatal, fatalBy := (t.pump s.cur).fatalBy, block := none, page := none,
                                stallCycles := (t.pump s.cur).stallCycles } ∧
        t.turn s.cur = .rest)

/-- R119: `eret` outside a handler is fault 0x01; else it brings back `last`, ht and the pc; an `s.epc` that is no
multiple of 8 is fault 0x02 at the `eret`, which is refused in the handler (R121), so that the group stops (R446). -/
def Obligations.EretRestoresTheInterruptedFlow : Prop :=
  ∀ s : State,
    let p := s.pump s.cur
    (CanTrap p → Faults .eret s 0x01 0xB100_0000_0000_0000) ∧
    (p.ht = true → p.epc.toNat % 8 = 0 → ∃ t, exec .eret s = .next t ∧ OnlyPump s.cur s t ∧
      t.pump s.cur = { p with last := p.savedLast, ht := p.pht, pht := false, pc := p.epc }) ∧
    (p.ht = true → p.epc.toNat % 8 ≠ 0 → ∃ t, exec .eret s = .next t ∧ GroupStops s.cur s t ∧
      (t.pump s.cur).run = .fatal ∧ (t.pump s.cur).fatalBy = some (precise 0x02 p.epc, va56 p.pc))

/-- `srd` gives each system register in the layout of R96, and `feat` the bit of its feature register, 0 for an
unassigned one (R123, R126). (`s.cycle` counts from the core's own reset, which came a free number of cycles before that of
the package, log 89.) -/
def Obligations.SystemRegistersReadByTheirLayout : Prop :=
  ∀ (s : State) (d : Reg) (n : BitVec 8),
    let p := s.pump s.cur
    let c := p.tcause
    let bit (b : Bool) : Nat := if b then 1 else 0
    let reads (r : SReg) (v : Nat) : Prop := Computes (.srd d r) s d fun w => w.toNat = v
    reads .isa 0x030300 ∧ reads .feat0 s.part.feat0.toNat ∧ reads .feat1 0 ∧ reads .feat2 0 ∧ reads .feat3 0 ∧
    reads .core (256 * s.pkg.toNat + s.cur.val) ∧ reads .flow (2 ^ 32 * p.prio.toNat + p.flow.toNat) ∧
    reads .status (bit p.ht + 2 * bit p.pht + 4 * bit p.ypend) ∧ reads .tvec p.tvec.toNat ∧
    reads .tcause (c.code.toNat + 256 * c.region.toNat + 2048 * bit c.fab) ∧ reads .tval c.tval.toNat ∧
    reads .epc p.epc.toNat ∧ reads .cycle ((s.now - (s.core s.cur).resetAt + Config.resetSkew s.cur.val) % 2 ^ 64) ∧
    reads .fflags p.fflags.toNat ∧
    reads .seed p.seed.toNat ∧ reads .stall (2 ^ 32 * p.stallWhy.toNat + p.stallCycles.toNat) ∧
    Computes (.feat d n) s d fun v => v = if n.toNat < 64 ∧ s.part.feat0.getLsbD n.toNat = true then 1 else 0

/-- `swr` (R123): a value whose reserved bits are zero is what the register then reads, ypend of `s.status` excepted;
no other system register, and no g, k, q or `last`, changes; a non-zero reserved bit is fault 0x01 with the word in
`s.tval`, and the register stays. -/
def Obligations.SystemRegisterWritesGoFieldByField : Prop :=
  ∀ (s : State) (r : SReg) (a : Reg), r.writable = true →
    let p := s.pump s.cur
    let v := p.read a
    (v &&& r.reserved = 0 → ∃ t, exec (.swr r a) s = .next t ∧ OnlyPump s.cur s t ∧
      t.readSReg s.cur r = (if r = .status then v &&& 3 ||| (if p.ypend then 4 else 0) else v) ∧
      (∀ x : SReg, x ≠ r → t.readSReg s.cur x = s.readSReg s.cur x) ∧
      (∀ x, (t.pump s.cur).read x = p.read x) ∧ (t.pump s.cur).q = p.q ∧ (t.pump s.cur).pc = nextPc s ∧
      (t.pump s.cur).savedLast = p.savedLast ∧ (t.pump s.cur).handles = p.handles) ∧
    (v &&& r.reserved ≠ 0 → CanTrap p → Faults (.swr r a) s 0x01 (encode (.swr r a)))

/-- `yield` (R125) stops the pump after it when ypend is 1 and else acts as `nop`. `halt` (R124, R318, R322), with no
load in progress and no held load fault: while a region runs it waits; once none does, no stream has closed rounds left
to write, and its streams' records have room (R359), it takes effect, at once (log 74) or when HALT_TAKES_EFFECT follows, and the
pump executes nothing further. (That the cause in `s.stall` stays while it waits is the model's choice, log 86.) -/
def Obligations.HaltAndYieldStopThePump : Prop :=
  ∀ s : State,
    let c := s.cur
    let p := s.pump c
    (p.ypend = false → Jumps .yield s (nextPc s)) ∧
    (p.ypend = true → ∃ t, exec .yield s = .next t ∧ OnlyPump c s t ∧
      t.pump c = { p with pc := nextPc s, run := .frozen } ∧ t.turn c = .rest) ∧
    (p.load = none → p.held = [] →
      ((∃ r : Fin 8, (s.core c).fab.regions[r].run = true) → Waits .halt s none) ∧
      ((∀ r : Fin 8, (s.core c).fab.regions[r].run = false) → (∀ h : Fin 64, s.halting c (BitVec.ofNat 6 h.val) = false) →
        s.haltHeld c = false →
        (∃ t, exec .halt s = .next t ∧ (t.pump c).run = .halted ∧ t.turn c = .rest ∧
          ∀ r, (t.pump c).read r = p.read r) ∧
        (p.block = some .halt → ∃ t, exec (.haltTakesEffect c) s = .next t ∧ (t.pump c).run = .halted ∧
          t.turn c = .rest ∧ ∀ r, (t.pump c).read r = p.read r)))

/-- R120 and R121: at its boundary a running pump outside a handler takes the pending asynchronous trap of the lowest
code, with its fab and region, and `s.epc` at the instruction it is blocked in or has not yet executed; the others stay
pending; while ht = 1 all of them do. R449: where an instruction would fault, an asynchronous trap that is pending is
taken first, so that it is issued again after the handler (stated of the misaligned accesses). (An abandoned `bar` is in
`BarriersCountArrivals`.) -/
def Obligations.AsynchronousTrapsAreTakenInCodeOrder : Prop :=
  (∀ (s : State) (c : CoreId) (cause : Cause),
    let p := s.pump c
    p.run = .running → p.tvec ≠ 0 → p.abandonable = true → (∀ scope, p.block ≠ some (.bar scope)) → p.page = none →
    cause ∈ p.asyncs →
    (∀ x ∈ p.asyncs, cause.code.toNat ≤ x.code.toNat) →
    (p.ht = true → exec (.asyncTrapTaken c) s = .next s) ∧
    (p.ht = false → ∃ t x, exec (.asyncTrapTaken c) s = .next t ∧ OnlyPump c s t ∧ x ∈ p.asyncs ∧ x.code = cause.code ∧
      (t.pump c).asyncs = p.asyncs.erase x ∧ Entered { p with asyncs := (t.pump c).asyncs } (t.pump c) x p.pc)) ∧
  (∀ (s : State) (i : Instr) (a : Access) (cause : Cause),
    let c := s.cur
    let p := s.pump c
    accessOf p i = some a → a.ea.toNat % a.size ≠ 0 → p.ht = false → p.tvec ≠ 0 → cause ∈ p.asyncs →
    (∀ x ∈ p.asyncs, cause.code.toNat ≤ x.code.toNat) →
    ∃ t x, exec i s = .next t ∧ OnlyPump c s t ∧ x ∈ p.asyncs ∧ x.code = cause.code ∧
      (t.pump c).asyncs = p.asyncs.erase x ∧ Entered { p with asyncs := (t.pump c).asyncs } (t.pump c) x p.pc)

/-! ### Loads, stores, atomics and order (R261 to R263, R276, R281, R294 to R304) -/

/-- R295: an address that is no multiple of the size is fault 0x02; in virtual memory, bits [63:56] that are not zero, a
page that forbids the access, and the execute-only code section (R116) are fault 0x04; and so is a cistern-space
address that names no open window. Each fault carries the effective address and the instruction has no effect. -/
def Obligations.AccessesAreCheckedInOrder : Prop :=
  ∀ (s : State) (i : Instr) (x : Access), accessOf (s.pump s.cur) i = some x → CanTrap (s.pump s.cur) →
    (x.ea.toNat % x.size ≠ 0 → Faults i s 0x02 x.ea) ∧
    (x.ea.toNat % x.size = 0 → x.cistern = false →
      (2 ^ 56 ≤ x.ea.toNat ∨ (s.launch s.cur).inCode x.ea = true) → Faults i s 0x04 x.ea) ∧
    (x.ea.toNat % x.size = 0 → x.cistern = false → (∀ sz c sc d a imm, i ≠ .st sz c (some sc) d a imm) →
      s.translate s.cur x.ea x.need = .forbidden → Faults i s 0x04 x.ea) ∧
    (x.ea.toNat % x.size = 0 → x.cistern = true → s.cisternPlace s.cur x.ea = .closed → Faults i s 0x04 x.ea)

/-- R296 and R299: `ld` and `ldq` read the bytes that the core sees (R262), the lowest address least significant (R8);
`ld` extends them with zeros, or with copies of their top bit for `.s`, and `ldq` puts zeros above them and the tag;
from memory, and in the same way from a cistern. Nothing is written but the destination (and `last`); a line may be copied
into a read bind (R274), and an acquire sees more (R262, R277). -/
def Obligations.LoadsReadTheBytesTheCoreSees : Prop :=
  ∀ (s : State) (size : LdSize) (F : Fmt) (acq : Option Scope) (d a : Reg) (q : BitVec 4) (imm : BitVec 32) (pa : Nat)
    (k : CoreId) (o : Nat),
    let ea := (s.pump s.cur).read a + imm.signExtend 64
    let sgn := size = .bs ∨ size = .hs ∨ size = .ws
    let loaded (n : Nat) (byte : Nat → Byte) (v : Word) : Prop := ∀ j < 64,
      v.getLsbD j = if j < 8 * n then (byte (j / 8)).getLsbD (j % 8) else decide sgn && (byte (n - 1)).getLsbD 7
    let loadedQ (n : Nat) (byte : Nat → Byte) (v : BitVec 128) : Prop := ∀ j < 128,
      v.getLsbD j = if j < 8 * n then (byte (j / 8)).getLsbD (j % 8) else false
    (s.translate s.cur ea .rd = .at pa → s.lineStop pa ea = none →
      (ea.toNat % size.bytes = 0 → ComputesRead (.ld size false acq d a imm) s d
        (loaded size.bytes fun j => s.viewByte s.cur (pa + j))) ∧
      (ea.toNat % F.bytes = 0 → ∃ t v, exec (.ldq F false q a imm) s = .next t ∧ ReadsAtom s t q F v 0 ∧
        loadedQ F.bytes (fun j => s.viewByte s.cur (pa + j)) v)) ∧
    (s.cisternPlace s.cur ea = .here k o →
      (ea.toNat % size.bytes = 0 → s.cisternStop k o size.bytes ea = none → ComputesRead (.ld size true acq d a imm) s d
        (loaded size.bytes fun j => cisternByte s s.cur k (o + j))) ∧
      (ea.toNat % F.bytes = 0 → s.cisternStop k o F.bytes ea = none →
        ∃ t v, exec (.ldq F true q a imm) s = .next t ∧ ReadsAtom s t q F v 0 ∧
          loadedQ F.bytes (fun j => cisternByte s s.cur k (o + j)) v))

/-- R296 and R299 for virtual memory: `st` and `stq` store the low bytes of their source at the effective address. The
core reads them at once, other cores when the write is performed (R262, R485); every other byte that any core sees, and
all performed memory, stay, relative to the state that a release has reached by performing the pump's earlier stores
(R276). The pump only goes on. -/
def Obligations.StoresWriteMemory : Prop :=
  ∀ (s : State) (i : Instr) (x : Access) (n : Nat) (v : BitVec 128) (pa : Nat),
    accessOf (s.pump s.cur) i = some x → stores (s.pump s.cur) false i n v →
    let u := afterRelease s i
    x.ea.toNat % n = 0 → u.translate s.cur x.ea .wr = .at pa →
    ∃ t, exec i s = .next t ∧
      (∀ j < n, t.viewByte s.cur (pa + j) = byteOf v j) ∧
      (∀ a, a < pa ∨ pa + n ≤ a → t.viewByte s.cur a = u.viewByte s.cur a) ∧
      (∀ c a, c ≠ s.cur → t.viewByte c a = u.viewByte c a) ∧
      t.mem = u.mem ∧ (∀ w ∈ u.pending, w ∈ t.pending) ∧
      t = { u with pending := t.pending, cores := t.cores, releases := t.releases } ∧ (∀ c, c ≠ s.cur → t.core c = u.core c) ∧
      t.core s.cur = { u.core s.cur with pump := { u.pump s.cur with pc := (u.pump s.cur).pc + 8 } }

/-- R295 to R299 for the cistern space: `st`, `stq` and `stf` store at the offset of the own cistern or of the peer window, at
once, and others may see it later (R264, R271); `stf` also sets the word full, whatever it was; every other byte of every
cistern, all of memory and every other full-empty bit stay. (Words whose stored error a partial write meets are left out: R461.)
-/
def Obligations.StoresWriteTheCistern : Prop :=
  ∀ (s : State) (i : Instr) (x : Access) (full : Bool) (n : Nat) (v : BitVec 128) (k : CoreId) (o : Nat),
    accessOf (s.pump s.cur) i = some x →
    ((full = false ∧ stores (s.pump s.cur) true i n v) ∨
      (full = true ∧ ∃ d a imm, i = .stf d a imm ∧ n = 8 ∧ v = ((s.pump s.cur).read d).setWidth 128)) →
    let u := afterRelease s i
    x.ea.toNat % n = 0 → u.cisternPlace s.cur x.ea = .here k o → u.cisternDrops k o n = false →
    (u.core k).cistern.wf = true →
    ∃ t, exec i s = .next t ∧
      (∀ c b, (t.core c).cistern.get b = if c = k ∧ o ≤ b ∧ b < o + n then byteOf v (b - o) else (u.core c).cistern.get b) ∧
      (∀ c w, w ∈ (t.core c).full ↔ w ∈ (u.core c).full ∨ (full = true ∧ c = k ∧ w = o / 8)) ∧
      t = orderedAs { u with cores := t.cores } t ∧
      (∀ c, t.core c = { u.core c with
        pump := if c = s.cur then { u.pump c with pc := (u.pump c).pc + 8 } else u.pump c
        setBy := (t.core c).setBy, cistern := (t.core c).cistern, full := (t.core c).full, bad := (t.core c).bad, latent := (t.core c).latent })

/-- R297: `lds` waits, with stall cause 2, until its word is full, and then reads it and sets it empty in one event; the
end of the wait, LDS_RESUME, does the same from the state in which the waited cycles are counted. No byte of the
cistern, and no other full-empty bit, changes. -/
def Obligations.LdsReadsAFullWordAndEmptiesIt : Prop :=
  ∀ (s : State) (d a : Reg) (imm : BitVec 32) (k : CoreId) (o : Nat),
    let ea := (s.pump s.cur).read a + imm.signExtend 64
    let given (u t : State) : Prop := ∃ v : Word,
      (∀ j < 64, v.getLsbD j = ((s.core k).cistern.get (o + j / 8)).getLsbD (j % 8)) ∧
      PumpGives (u.pump s.cur) (t.pump s.cur) d v 0 ∧ t = orderedAs { u with cores := t.cores } t ∧ SeesMore u t ∧
      (∀ c w, w ∈ (t.core c).full ↔ w ∈ (u.core c).full ∧ ¬(c = k ∧ w = o / 8)) ∧
      (∀ c, t.core c = { u.core c with pump := (t.core c).pump, full := (t.core c).full, setBy := (t.core c).setBy }) ∧
      ∀ c, c ≠ s.cur → t.pump c = u.pump c
    ea.toNat % 8 = 0 → s.cisternPlace s.cur ea = .here k o →
    (o / 8 ∉ (s.core k).full → Waits (.lds d a imm) s (some 2)) ∧
    (o / 8 ∈ (s.core k).full → s.cisternStop k o 8 ea = none →
      (∃ t, exec (.lds d a imm) s = .next t ∧ given s t) ∧
      ((s.pump s.cur).block = some (.lds d a imm) →
        ∃ t, exec (.ldsResume s.cur) s = .next t ∧ given (unblocked s s.cur) t))

/-- R281 and R301: `amo` and `amo.cas` give the old value of the word, zero-extended, in d and `last`, and write the new
one as one event with the read: sums wrap, `min` and `max` are signed, `minn` and `maxn` unsigned, `swp` writes b, and a
`cas` whose comparison fails writes nothing. No other byte of memory changes for any core. (On a line without write
bind, once the core's earlier stores are performed; a `fadd` adds as `addNum` of R106 does, without flags.) -/
def Obligations.AtomicsReadAndWriteOneWord : Prop :=
  ∀ (s : State) (op : AmoOp) (ord : AmoOrd) (d a b c : Reg) (pa : Nat),
    let p := s.pump s.cur
    let ea := p.read a
    let y := p.read b
    let n := if op = .fadd then 4 else 8
    let old (m : Nat) : Word := leWord (s.mem.read pa m)
    let x := old n
    let new : Word := match op with
      | .add => BitVec.ofNat 64 (x.toNat + y.toNat)
      | .fadd => BitVec.ofNat 64 (addNum f32 (Num.ofCode f32 (x.toNat % 2 ^ 32)) (Num.ofCode f32 (y.toNat % 2 ^ 32))).1
      | .and => x &&& y
      | .or => x ||| y
      | .xor => x ^^^ y
      | .min => if x.toInt < y.toInt then x else y
      | .max => if x.toInt < y.toInt then y else x
      | .minn => if x.toNat < y.toNat then x else y
      | .maxn => if x.toNat < y.toNat then y else x
      | .swp => y
    let wrote (t : State) (m : Nat) (v : Word) : Prop :=
      t.pending = s.pending ∧ SameBytesOutside pa m s t ∧
        ∀ j < m, t.mem.get (pa + j) = v.extractLsb' (8 * j) 8 ∧ t.viewByte s.cur (pa + j) = v.extractLsb' (8 * j) 8
    s.mem.wf = true → s.translate s.cur ea .rw = .at pa → s.lineStop pa ea = none → s.writeBind s.cur pa = none →
    (∀ w ∈ s.pending, w.core ≠ s.cur) →
    (ea.toNat % n = 0 → ∃ t, exec (.amo op ord d a b) s = .next t ∧ PumpGives p (t.pump s.cur) d x 0 ∧ wrote t n new ∧
      t.cores = (s.modPump s.cur fun _ => t.pump s.cur).cores) ∧
    (ea.toNat % 8 = 0 → ∃ t, exec (.amoCas ord d a b c) s = .next t ∧ PumpGives p (t.pump s.cur) d (old 8) 0 ∧
      (if old 8 = y then wrote t 8 (p.read c) else OnlyPumpAndOrder s.cur s t) ∧
      t.cores = (s.modPump s.cur fun _ => t.pump s.cur).cores)

/-- R276, R279, R302 and R315: after a `fence` of any scope above `.lane`, and after `sbar`, none of the pump's earlier stores
is still under way: each byte it has stored to has reached memory, where the core still sees it, and no other byte of memory
changes; the writes of other cores are still under way, and no register changes. A core that lags behind no write sees every
byte as before; after a `fence` the core lags behind no performed write of memory (R485), nor behind a write of a cistern that a
fence of a core in its scope has carried (R278), but for lines copied into a read bind (R274). `sbar` waits while a stream that
it names has accesses outstanding (R269). (Where the stores lie in unbound lines that are not poisoned: a store to a poisoned
line is dropped, R345.) -/
def Obligations.FencesPublishEarlierStores : Prop :=
  ∀ (s : State) (scope : Scope) (a : Reg) (i : Instr),
    let c := s.cur
    let p := s.pump c
    let written (b : Nat) : Prop := ∃ w ∈ s.pending, w.core = c ∧ w.pa ≤ b ∧ b < w.pa + w.bytes.length
    let waits : Prop := ∃ (h : Fin 64) (x : Stream), (p.read a).toNat / 2 ^ h.val % 2 = 1 ∧
      p.streamOf (BitVec.ofNat 6 h.val) = some x ∧ s.outstanding c (BitVec.ofNat 6 h.val) x = true
    s.mem.wf = true →
    (∀ w ∈ s.pending, w.core = c →
      w.bind = none ∧ w.by_ = .pump c ∧ w.pa % 256 + w.bytes.length ≤ 256 ∧ s.linePoisoned (lineOf w.pa) = false) →
    ((i = .fence scope ∧ scope ≠ .lane) ∨ (i = .sbar a ∧ ¬ waits) →
      ∃ t, exec i s = .next t ∧ t.pending = s.pending.filter (fun w => w.core ≠ c) ∧
        (∀ b, written b → t.mem.get b = s.viewByte c b ∧ t.viewByte c b = s.viewByte c b) ∧
        (∀ b, ¬ written b → t.mem.get b = s.mem.get b) ∧
        ((∀ e ∈ s.stale, e.viewer ≠ .pump c) → ∀ b, t.viewByte c b = s.viewByte c b) ∧
        (i = .fence scope → ∀ e ∈ t.stale, e.viewer = .pump c → e.copied = false → e.bank ≠ .memory ∧
          ∃ e' ∈ s.stale, { e with known := [], via := [] } = { e' with known := [], via := [] } ∧
            ∀ r ∈ s.releases, r.kind = .fence → r.id ∈ e'.via →
              (sameAgents r.scope r.core (some c) && sameAgents scope (some c) r.core) = false) ∧
        t.cores = (s.modPump c fun p => { p with pc := nextPc s }).cores) ∧
    (waits → ∃ t, exec (.sbar a) s = .next t ∧ t.pending = s.pending.filter (fun w => w.core ≠ c) ∧
      (t.pump c).block = some (.sbar a) ∧ (t.pump c).pc = p.pc ∧ ∀ r, (t.pump c).read r = p.read r)

/-- R286, R303 and R304: `nma` sends its update and goes on, with nothing else changed, unless 256 of the pump are not
yet performed, where it waits with cause 5; the end of that wait sends it. NMA_PERFORM then makes the update in the
aligned word alone. `nmf` goes on when none of the pump is outstanding, its batch closed, and else waits with cause 5, as
it does while the record of its batch has no room (the model's choice, log 86: R359 gives such a wait to the next `nma`);
NMF_RETURN ends that wait. -/
def Obligations.NearMemoryUpdates : Prop :=
  ∀ (s : State) (op : NmaOp) (d a : Reg) (imm : BitVec 32) (pa i : Nat) (m : NmaOpPending),
    let c := s.cur
    let p := s.pump c
    let ea := p.read a + imm.signExtend 64
    let nma : Instr := .nma op d a imm
    let count := (s.nmas.filter fun x => x.core = c).length
    let update : NmaOpPending := { core := c, op := op, pa := pa, va := ea, value := (p.read d).setWidth 32 }
    let sent (u : State) : State :=
      { u with nmas := u.nmas ++ [update] }.modPump c fun q => { q with nmaBatch := q.nmaBatch + 1, pc := q.pc + 8 }
    let x := BitVec.ofNat 32 (leNat (s.mem.read m.pa 4))
    let new : BitVec 32 := match m.op with
      | .fadd => BitVec.ofNat 32 (addNum f32 (Num.ofCode f32 x.toNat) (Num.ofCode f32 m.value.toNat)).1
      | .add => BitVec.ofNat 32 (x.toNat + m.value.toNat)
      | .max => if x.toInt < m.value.toInt then m.value else x
      | .min => if x.toInt < m.value.toInt then x else m.value
      | .fmax => BitVec.ofNat 32 (minMax f32 true x.toNat m.value.toNat).1
      | .fmin => BitVec.ofNat 32 (minMax f32 false x.toNat m.value.toNat).1
    (ea.toNat % 4 = 0 → s.translate c ea .rw = .at pa → s.recordsFull c = false →
      (count < 256 → exec nma s = .next (sent s) ∧
        (p.block = some nma → exec (.nmaLimitRelease c) s = .next (sent (unblocked s c)))) ∧
      (256 ≤ count → Waits nma s (some 5))) ∧
    (s.mem.wf = true → s.nmas[i]? = some m → (∀ y ∈ s.nmas.take i, y.core = m.core → y.pa ≠ m.pa) →
      s.linePoisoned (lineOf m.pa) = false →
      ∃ t, exec (.nmaPerform i) s = .next t ∧ t.nmas = s.nmas.eraseIdx i ∧ t.cores = s.cores ∧ t.pending = s.pending ∧
        SameBytesOutside m.pa 4 s t ∧ ∀ j < 4, t.mem.get (m.pa + j) = new.extractLsb' (8 * j) 8) ∧
    (count = 0 → ((s.launch c).batches = true → p.nmaBatch ≠ 0 → s.recordsFull c = false) →
      (∃ t, exec .nmf s = .next t ∧ t.pump c = { p with nmaBatch := 0, pc := nextPc s } ∧ t.mem = s.mem ∧
        (((s.launch c).batches = false ∨ p.nmaBatch = 0) → OnlyPumpAndOrder c s t)) ∧
      (p.block = some .nmf → ∃ t, exec (.nmfReturn c) s = .next t ∧ (t.pump c).block = none ∧
        (t.pump c).nmaBatch = 0 ∧ (t.pump c).pc = nextPc s ∧ t.mem = s.mem)) ∧
    (count ≠ 0 → Waits .nmf s (some 5)) ∧
    (count = 0 → (s.launch c).batches = true → p.nmaBatch ≠ 0 → s.recordsFull c = true → Waits .nmf s (some 5))

/-! ### Atoms (R94, R127, R151 to R171) -/

/-- In the integer domain (R153: format OI and OI operands) the lanes are computed modulo 2^32 with no flag: `aadd`,
`asub`, `amul`, `afma` (R162), `amap` of relu, abs and neg (R163), and `amsk`, which clears the lanes whose mask bit is
set (R164); `acmp` of two OI operands gives the mask of the signed comparison (R165). In O32 a lane is an FP32 code
(R140), and `aadd`, `asub`, `amul` and `afma` store, lane by lane, the code that `fadd`, `fsub`, `fmul` and `ffma` give
(R106, R152, R162), and raise the union of their flags. Of O32 lanes, `acvt` to O16 and OI rounds each once, `ascl` scales by
2^ga (R167) and `adot` of finite lanes is their exact inner product rounded once (R166). `arnd` gives the words that R169 derives
from `s.seed` and the element indices. `aimp` into O32 gives scale × (q − zp) of its elements exactly, and NaN with nv under a
faulty record (R144, R170). -/
def Obligations.OpenFormatLanesCompute : Prop :=
  (∀ (s : State) (f : Option Fmt) (qd qa qb qc : BitVec 4) (ga : Reg),
    let p := s.pump s.cur
    let lane (v : BitVec 128) (i : Nat) : BitVec 32 := v.extractLsb' (32 * i) 32
    let a := p.q[qa.toFin]
    let b := p.q[qb.toFin]
    let c := p.q[qc.toFin]
    let gives (i : Instr) (g : Nat → BitVec 32) : Prop :=
      ∃ t v, exec i s = .next t ∧ GivesAtom s t qd .oi v 0 ∧ ∀ j < 4, lane v j = g j
    (f = none ∨ f = some .oi) → a.tag = .oi → b.tag = .oi → c.tag = .oi →
    gives (.aadd f qd qa qb) (fun j => lane a.val j + lane b.val j) ∧
    gives (.asub f qd qa qb) (fun j => lane a.val j - lane b.val j) ∧
    gives (.amul f qd qa qb) (fun j => lane a.val j * lane b.val j) ∧
    gives (.afma f qd qa qb qc) (fun j => lane a.val j * lane b.val j + lane c.val j) ∧
    gives (.amap .relu f qd qa) (fun j => if (lane a.val j).toInt < 0 then 0 else lane a.val j) ∧
    gives (.amap .abs f qd qa) (fun j => if (lane a.val j).toInt < 0 then -lane a.val j else lane a.val j) ∧
    gives (.amap .neg f qd qa) (fun j => -lane a.val j) ∧
    gives (.amsk f qd qa ga) (fun j => if (p.read ga).getLsbD j = true then 0 else lane a.val j) ∧
    ComputesFlags (.acmp .lt ga qa qb) s ga (fun v fl => fl = 0 ∧
      ∀ j < 64, v.getLsbD j = decide (j < 4 ∧ (lane a.val j).toInt < (lane b.val j).toInt)) ∧
    ComputesFlags (.acmp .eq ga qa qb) s ga (fun v fl => fl = 0 ∧
      ∀ j < 64, v.getLsbD j = decide (j < 4 ∧ lane a.val j = lane b.val j))) ∧
  (∀ (s : State) (f : Option Fmt) (qd qa qb qc : BitVec 4),
    let p := s.pump s.cur
    let code (v : BitVec 128) (i : Nat) : Nat := (v.extractLsb' (32 * i) 32).toNat
    let num (v : BitVec 128) (i : Nat) : Machine.Num := Num.ofCode f32 (code v i)
    let a := p.q[qa.toFin]
    let b := p.q[qb.toFin]
    let c := p.q[qc.toFin]
    let gives (i : Instr) (g : Nat → Nat × Flags) : Prop :=
      ∃ t v, exec i s = .next t ∧ GivesAtom s t qd .o32 v ((g 0).2 ||| (g 1).2 ||| (g 2).2 ||| (g 3).2) ∧
        ∀ j < 4, code v j = (g j).1
    (f = none ∨ f = some .o32) → a.tag = .o32 → b.tag = .o32 → c.tag = .o32 →
    gives (.aadd f qd qa qb) (fun j => addNum f32 (num a.val j) (num b.val j)) ∧
    gives (.asub f qd qa qb) (fun j => addNum f32 (num a.val j) (num b.val j).neg) ∧
    gives (.amul f qd qa qb) (fun j => mulNum f32 (num a.val j) (num b.val j)) ∧
    gives (.afma f qd qa qb qc) (fun j => fmaNum f32 (num a.val j) (num b.val j) (num c.val j))) ∧
  (∀ (s : State) (f : Option Fmt) (t4 : IntFmt) (qd qa qb : BitVec 4) (ga : Reg) (pa : Nat),
    let p := s.pump s.cur
    let a := p.q[qa.toFin]
    let lane (v : BitVec 128) (i : Nat) : BitVec 32 := v.extractLsb' (32 * i) 32
    let half (v : BitVec 128) (i : Nat) : BitVec 16 := v.extractLsb' (16 * i) 16
    let num (v : BitVec 128) (i : Nat) : Machine.Num := Num.ofCode f32 (lane v i).toNat
    let x (i : Nat) : ℚ := numRat (num a.val i)
    let y (i : Nat) : ℚ := numRat (num (p.q[qb.toFin]).val i)
    let dot := x 0 * y 0 + x 1 * y 1 + x 2 * y 2 + x 3 * y 3
    let u (i : Nat) : BitVec 32 := randw p.seed ((p.read ga).toNat + i)
    let gives (i : Instr) (F : Fmt) (P : Nat → BitVec 128 → Flags → Prop) : Prop :=
      ∃ (t : State) (v : BitVec 128) (g : Nat → Flags), exec i s = .next t ∧
        GivesAtom s t qd F v (g 0 ||| g 1 ||| g 2 ||| g 3) ∧ ∀ j < 4, P j v (g j)
    let rc := a.val.toNat % 2 ^ 32
    let zp : ℤ := (a.val.extractLsb' 16 8).toInt
    let n := if t4 = .int4 then 2 else 4
    let byte (i : Nat) : Byte := s.viewByte s.cur (pa + i)
    let element (i : Nat) : ℤ := if t4 = .int4 then ((byte (i / 2)).extractLsb' (4 * (i % 2)) 4).toInt else (byte i).toInt
    let faulty : Prop := numFin (Num.ofCode f16 (rc % 2 ^ 16)) = false ∨ 2 ^ 24 ≤ rc ∨ (t4 = .int4 ∧ (zp < -8 ∨ 7 < zp))
    (a.tag = .o32 →
      gives (.acvt .o16 qd qa) .o16 (fun j v fl =>
        ((num a.val j).isNan = true → half v j = 0x7FC0 ∧ fl = if (num a.val j).sig then 0x10 else 0) ∧
        (numFin (num a.val j) = true → x j ≠ 0 → Rounded bf16 false (x j) (half v j).toNat fl)) ∧
      gives (.acvt .oi qd qa) .oi (fun j v fl =>
        ((num a.val j).isNan = true → lane v j = 0 ∧ fl = 0x10) ∧
        (numFin (num a.val j) = true → ∃ m : ℤ, RoundedInt false (x j) m ∧
          (lane v j).toInt = max (-2 ^ 31) (min (2 ^ 31 - 1) m) ∧
          fl = if m < -2 ^ 31 ∨ 2 ^ 31 - 1 < m then 0x10 else if (m : ℚ) = x j then 0 else 0x01)) ∧
      ((f = none ∨ f = some .o32) → gives (.ascl f qd qa ga) .o32 (fun j v fl =>
        numFin (num a.val j) = true → x j ≠ 0 →
          Rounded f32 false (x j * 2 ^ (p.read ga).toInt) (lane v j).toNat fl)) ∧
      ((p.q[qb.toFin]).tag = .o32 → (∀ j < 4, numFin (num a.val j) = true ∧ numFin (num (p.q[qb.toFin]).val j) = true) →
        ComputesFlags (.adot ga qa qb) s ga (fun v fl =>
          (dot = 0 → v = 0 ∧ fl = 0) ∧ (dot ≠ 0 → Rounded f32 false dot v.toNat fl)))) ∧
    gives (.arnd .unif .o32 qd ga) .o32 (fun j v fl => fl = 0 ∧
      numRat (num v j) = (((u j).toNat / 2 ^ 8 : ℕ) : ℚ) / 2 ^ 24) ∧
    gives (.arnd .unif .o16 qd ga) .o16 (fun j v fl => fl = 0 ∧
      numRat (Num.ofCode bf16 (half v j).toNat) = (((u j).toNat / 2 ^ 24 : ℕ) : ℚ) / 2 ^ 8) ∧
    gives (.arnd .bits .oi qd ga) .oi (fun j v fl => fl = 0 ∧ lane v j = u j) ∧
    ((p.read ga).toNat % n = 0 → s.translate s.cur (p.read ga) .rd = .at pa → s.lineStop pa (p.read ga) = none →
      ∃ t v fl, exec (.aimp t4 .o32 qd qa ga) s = .next t ∧ ReadsAtom s t qd .o32 v fl ∧
        (faulty → fl = 0x10 ∧ ∀ j < 4, lane v j = 0x7FC0_0000) ∧
        (¬ faulty → fl = 0 ∧ ∀ j < 4, numFin (num v j) = true ∧
          numRat (num v j) = numRat (Num.ofCode f16 (rc % 2 ^ 16)) * (element j - zp : ℤ))))

/-- The fields of a coded atom (R127, R133, R134, R168): `aidx` gives its index and `apat` its pattern, whose pulses
sum to 4 (C4) or 16 (C16) and whose rank in the enumeration is the index; an index beyond the 192 or 11,008 valid ones
gives zero and sets nv; and the fields of an atom that is not coded give all ones, the canonical NaN and zero, with
nv. The values of coded atoms (R128, R129, R154, R157): `again` gives the gain, `adec` the products of gain and pulses, exactly;
`adot` of two coded atoms, and of a coded one and one of finite O32 lanes, is rounded as R157 says; and `aenc` of finite O32
lanes that are not all zero gives each lane its share of the pulses by largest remainder, and the gain code nearest to
Σ p x / Σ p². -/
def Obligations.CodedAtomFields : Prop :=
  ∀ (s : State) (qd qa qb : BitVec 4) (ga : Reg) (G : Fmt),
    let p := s.pump s.cur
    let a := p.q[qa.toFin]
    let b := p.q[qb.toFin]
    let num (v : BitVec 128) (i : Nat) : Machine.Num := Num.ofCode f32 (v.extractLsb' (32 * i) 32).toNat
    let at_ (l : List Int) (i : Nat) : ℚ := (l.getD i 0 : ℤ)
    -- the sums over the four lanes
    let total (z : Nat → ℚ) : ℚ := z 0 + z 1 + z 2 + z 3
    let dots (i : Instr) (t g : ℚ) : Prop := ComputesFlags i s ga fun v f =>
      (t = 0 → v = 0 ∧ f = 0) ∧ (t ≠ 0 → ∃ c f₁ f₂, Rounded f32 false t c f₁ ∧ f = f₁ ||| f₂ ∧
        (numFin (Num.ofCode f32 c) = true → g * numRat (Num.ofCode f32 c) ≠ 0 →
          Rounded f32 false (g * numRat (Num.ofCode f32 c)) v.toNat f₂))
    let idx := if a.tag = .c16 then (a.val.extractLsb' 18 14).toNat else (a.val.extractLsb' 8 8).toNat
    let K := if a.tag = .c16 then 16 else 4
    let pulse (v : BitVec 128) (j : Nat) : Int := (v.extractLsb' (32 * j) 32).toInt
    ((a.tag = .c4 ∨ a.tag = .c16) →
      ComputesFlags (.aidx ga qa) s ga (fun v f => v.toNat = idx ∧ f = 0) ∧
      ComputesFlags (.again ga qa) s ga (fun v f => f = 0 ∧ v.toNat < 2 ^ 32 ∧
        numRat (Num.ofCode f32 v.toNat) =
          gainRat a.tag (if a.tag = .c16 then (a.val.extractLsb' 0 16).toNat else (a.val.extractLsb' 0 8).toNat)) ∧
      ∃ t v f, exec (.apat qd qa) s = .next t ∧ GivesAtom s t qd .oi v f ∧
        (idx < (if a.tag = .c16 then 11008 else 192) → f = 0 ∧
          (pulse v 0).natAbs + (pulse v 1).natAbs + (pulse v 2).natAbs + (pulse v 3).natAbs = K ∧
          rank K [pulse v 0, pulse v 1, pulse v 2, pulse v 3] = idx) ∧
        ((if a.tag = .c16 then 11008 else 192) ≤ idx → v = 0 ∧ f = 0x10)) ∧
    (a.tag ≠ .c4 → a.tag ≠ .c16 →
      ComputesFlags (.aidx ga qa) s ga (fun v f => v = 0xFFFF_FFFF_FFFF_FFFF ∧ f = 0x10) ∧
      ComputesFlags (.again ga qa) s ga (fun v f => v = 0x7FC0_0000 ∧ f = 0x10) ∧
      ∃ t, exec (.apat qd qa) s = .next t ∧ GivesAtom s t qd .oi 0 0x10) ∧
    (∀ l g, CodedAs a l g →
      (∃ t v, exec (.adec qd qa) s = .next t ∧ GivesAtom s t qd .o32 v 0 ∧
        ∀ j < 4, numFin (num v j) = true ∧ numRat (num v j) = g * at_ l j) ∧
      (∀ m h, CodedAs b m h →
        let t := g * h * total fun j => at_ l j * at_ m j
        ComputesFlags (.adot ga qa qb) s ga fun v f => (t = 0 → v = 0 ∧ f = 0) ∧ (t ≠ 0 → Rounded f32 false t v.toNat f)) ∧
      (b.tag = .o32 → (∀ j < 4, numFin (num b.val j) = true) →
        let t := total fun j => at_ l j * numRat (num b.val j)
        dots (.adot ga qa qb) t g ∧ dots (.adot ga qb qa) t g)) ∧
    ((G = .c4 ∨ G = .c16) → a.tag = .o32 → (∀ j < 4, numFin (num a.val j) = true) →
      let x (j : Nat) : ℚ := numRat (num a.val j)
      let S := total fun j => |x j|
      let Kq : ℚ := pulseSumOf G
      let share (j : Nat) : ℤ := ⌊Kq * |x j| / S⌋
      let rem (j : Nat) : ℚ := Kq * |x j| - S * share j
      let top := if G = .c16 then 0xFFFF else 0xFF
      S ≠ 0 → ∃ (t : State) (v : BitVec 128) (f : Flags) (l : List Int) (gc : Nat),
        exec (.aenc G qd qa) s = .next t ∧ GivesAtom s t qd G v f ∧ l.length = 4 ∧
        (l.map Int.natAbs).sum = pulseSumOf G ∧
        (∀ j < 4, 0 ≤ at_ l j * x j ∧ (x j = 0 → at_ l j = 0) ∧
          (((l.getD j 0).natAbs : ℤ) = share j ∨ ((l.getD j 0).natAbs : ℤ) = share j + 1)) ∧
        (∀ i < 4, ∀ j < 4, ((l.getD i 0).natAbs : ℤ) = share i + 1 → ((l.getD j 0).natAbs : ℤ) = share j →
          rem j < rem i ∨ (rem j = rem i ∧ i < j)) ∧
        gc ≤ top ∧
        (let q := (total fun j => at_ l j * x j) / (total fun j => at_ l j ^ 2)
         ∀ w ≤ top, |gainRat G gc - q| ≤ |gainRat G w - q| ∧
          (|gainRat G gc - q| = |gainRat G w - q| → w ≠ gc → gc % 2 = 0)) ∧
        v = if gc = 0 then 0 else
          BitVec.ofNat 128 (rank (pulseSumOf G) l * 2 ^ (if G = .c16 then 18 else 8) + gc))

/-- Every atom instruction completes on every operand and writes what R160 lets it write: the atom register qd with the
result format (fmt 0 is the format of qa), or the register ga and `last`, the flags ORed in, and nothing else; `aimp`
reads its elements and `aexp` stores its elements, two bytes for INT4 and four for INT8, where the checks of R295 pass
(R161 to R170). A NaN lane makes every coded result the canonical NaN atom, and an atom of zeros is the word 0 (R131,
R154). -/
def Obligations.AtomResultsAndTheirFrames : Prop :=
  ∀ (s : State) (f : Option Fmt) (F G : Fmt) (fn : MapFn) (cond : Cond) (dist : Dist) (t4 : IntFmt)
    (qd qa qb qc : BitVec 4) (ga : Reg) (pa : Nat),
    let p := s.pump s.cur
    let R := f.getD p.q[qa.toFin].tag
    let n := if t4 = .int4 then 2 else 4
    let gives (i : Instr) (H : Fmt) : Prop := ∃ t v fl, exec i s = .next t ∧ GivesAtom s t qd H v fl
    gives (.aenc F qd qa) F ∧ gives (.adec qd qa) .o32 ∧ gives (.acvt F qd qa) F ∧ gives (.aadd f qd qa qb) R ∧
    gives (.asub f qd qa qb) R ∧ gives (.amul f qd qa qb) R ∧ gives (.afma f qd qa qb qc) R ∧ gives (.amap fn f qd qa) R ∧
    gives (.amsk f qd qa ga) R ∧ gives (.ascl f qd qa ga) R ∧ gives (.arnd dist F qd ga) F ∧ gives (.apat qd qa) .oi ∧
    ComputesFlags (.adot ga qa qb) s ga (fun _ _ => True) ∧ ComputesFlags (.acmp cond ga qa qb) s ga (fun v _ => v.toNat < 16) ∧
    ComputesFlags (.again ga qa) s ga (fun _ _ => True) ∧ ComputesFlags (.aidx ga qa) s ga (fun _ _ => True) ∧
    ((p.read ga).toNat % n = 0 → s.translate s.cur (p.read ga) .rd = .at pa → s.lineStop pa (p.read ga) = none →
      ∃ t v fl, exec (.aimp t4 F qd qa ga) s = .next t ∧ ReadsAtom s t qd F v fl) ∧
    ((p.read ga).toNat % n = 0 → s.translate s.cur (p.read ga) .wr = .at pa →
      ∃ t fl, exec (.aexp t4 qa qb ga) s = .next t ∧ t.mem = s.mem ∧
        (∀ a, a < pa ∨ pa + n ≤ a → t.viewByte s.cur a = s.viewByte s.cur a) ∧
        (∀ c a, c ≠ s.cur → t.viewByte c a = s.viewByte c a) ∧
        t.cores = (s.modPump s.cur fun p => { p with pc := nextPc s, fflags := p.fflags ||| fl }).cores ∧
        (t4 = .int8 → p.q[qa.toFin].tag = .o32 → ∀ j < 4, t.viewByte s.cur (pa + j) =
          BitVec.ofInt 8 (exportLane false (p.q[qb.toFin].val.toNat % 2 ^ 32)
            (Num.ofCode f32 (p.q[qa.toFin].val.extractLsb' (32 * j) 32).toNat)).1)) ∧
    ((G = .c4 ∨ G = .c16) → (p.q[qa.toFin].tag = .o32) →
      ((∃ j < 4, nanCode32 (p.q[qa.toFin].val.extractLsb' (32 * j) 32).toNat = true) →
        ∃ t fl, exec (.aenc G qd qa) s = .next t ∧ GivesAtom s t qd G (if G = .c16 then 0xFFFC_FFFF else 0xFFFF) fl) ∧
      (p.q[qa.toFin].val = 0 → ∃ t, exec (.aenc G qd qa) s = .next t ∧ GivesAtom s t qd G 0 0))

/-! ### Handles and streams (R305 to R316) -/

/-- `hset` (R305, R312): with an aligned base and a ring inside the cistern, on a handle without a live stream, the
handle is a new ring of zero counts (an input handle that joins a ring starts at the slots the ring has freed), no other
handle that is not joined to it changes, nothing else does; its three faults come in order. -/
def Obligations.HsetMakesARing : Prop :=
  ∀ (s : State) (out : Bool) (h : BitVec 6) (a : Reg) (n : BitVec 8) (size : BitVec 20),
    let p := s.pump s.cur
    let v := p.read a
    let i : Instr := .hset out h a n size
    let fits := v.toNat + n.toNat * size.toNat ≤ 0x20_0000
    (v.toNat % 32 ≠ 0 → CanTrap p → Faults i s 0x02 v) ∧
    (v.toNat % 32 = 0 → ¬ fits → CanTrap p → Faults i s 0x04 v) ∧
    (v.toNat % 32 = 0 → fits → liveStream (p.streamOf h) = true → CanTrap p → Faults i s 0x01 (encode i)) ∧
    (v.toNat % 32 = 0 → fits → liveStream (p.streamOf h) = false →
      ∃ t x, exec i s = .next t ∧ OnlyPump s.cur s t ∧
        t.pump s.cur = { p with handles := (t.pump s.cur).handles, pc := nextPc s } ∧
        (t.pump s.cur).handle h = some x ∧ x.out = out ∧ x.base = v.toNat ∧ x.slots = n.toNat ∧ x.size = size.toNat ∧
        x.fill = 0 ∧ x.freed = 0 ∧ x.stream = none ∧ x.items = [] ∧ x.openData = 0 ∧
        x.joined = (if out then none else p.joinable h v.toNat n.toNat size.toNat) ∧
        (x.joined = none → x.free = 0) ∧
        (∀ r y, x.joined = some r → p.handle r = some y → x.free = y.freed) ∧
        ∀ j y, j ≠ h → p.handle j = some y → y.joined ≠ some h → (t.pump s.cur).handle j = some y)

/-- `waith` (R307): an input handle with n filled slots gives the address of slot P, an output handle with n free ones
that of slot F, modulo the ring; an input handle whose stream has ended with fewer gives all ones; else the pump waits
with cause 1. WAITH_RESUME gives the same addresses at the end of the wait. What the core's streams have written is seen
after it (R268). -/
def Obligations.WaithGivesTheSlotOrWaits : Prop :=
  ∀ (s : State) (a : Reg) (h : BitVec 6) (n : BitVec 8) (x : Handle),
    let c := s.cur
    let p := s.pump c
    let i : Instr := .waith a h n
    let P := x.free
    let F := if x.out then x.fill else p.fillOf h
    let ready := if x.out then n.toNat ≤ x.slots - (F - P) else n.toNat ≤ F - P
    let slot := x.base + (if x.out then F else P) % x.slots * x.size
    p.handle h = some x → p.bound h = true → n.toNat ≤ x.slots →
    (ready → ComputesOrdered i s a (fun v => v = BitVec.ofNat 64 slot) ∧
      (p.block = some i → ∃ t, exec (.waithResume c) s = .next t ∧ OnlyPumpAndOrder c (unblocked s c) t ∧
        PumpGives (p.unblock s.now) (t.pump c) a (BitVec.ofNat 64 slot) 0)) ∧
    (¬ ready → x.out = false → liveStream (p.ringStream h) = false →
      ComputesOrdered i s a (fun v => v = 0xFFFF_FFFF_FFFF_FFFF)) ∧
    (¬ ready → x.out = false → liveStream (p.ringStream h) = true → Waits i s (some 1)) ∧
    (¬ ready → x.out = true → (∀ t, p.ringStream h = some t → t.fault = none) → Waits i s (some 1))

/-- `advh` (R308, R312), `mark` and `stop` (R316), `wptr` (R314), for a pump without stores under way: `advh` on an
input handle moves P on by n, on an output handle it publishes n slots, whose tokens count for the open round; `mark`
closes a round that is not empty with a MARK, `stop` does so and places its STOP; `wptr` gives the bytes committed. -/
def Obligations.HandlesPublishAndRelease : Prop :=
  ∀ (s : State) (a : Reg) (h : BitVec 6) (n : BitVec 8) (level : BitVec 3) (x : Handle) (z : Stream),
    let p := s.pump s.cur
    let tokens := n.toNat * (x.size / 32)
    let closed := if x.openData = 0 then x else { x with items := x.items ++ [.mark x.openData], openData := 0 }
    let sets (i : Instr) (y : Handle) : Prop := ∃ t, exec i s = .next t ∧ OnlyPumpAndOrder s.cur s t ∧
      (t.pump s.cur).handle h = some y ∧ (∀ j, j ≠ h → (t.pump s.cur).handle j = p.handle j) ∧
      t.pump s.cur = { p with handles := (t.pump s.cur).handles, pc := nextPc s }
    (∀ w ∈ s.pending, w.core ≠ s.cur) → p.handle h = some x → x.stream = some z →
    (x.out = false → x.joined = none → n.toNat ≤ x.fill - x.free →
      ∃ y, sets (.advh h n) y ∧ y.free = x.free + n.toNat ∧ y.fill = x.fill ∧ y.base = x.base ∧ y.size = x.size ∧
        (z.cons = 1 → z.releases = [] → x.freed = x.free → y.freed = x.freed + n.toNat)) ∧
    (x.out = true → n.toNat ≤ x.slots - (x.fill - x.free) → x.openData + tokens ≤ 1024 →
      sets (.advh h n) { x with
        items := x.items ++ (List.range n.toNat).map fun i => .slot (x.fill + i) (x.openData + i * (x.size / 32))
        fill := x.fill + n.toNat
        openData := x.openData + tokens }) ∧
    (x.out = true → n.toNat ≤ x.slots - (x.fill - x.free) → 1024 < x.openData + tokens → CanTrap p →
      Faults (.advh h n) s 0x10 (h.setWidth 64)) ∧
    (x.out = true → z.ended = false → sets (.mark h) closed ∧
      sets (.stop h level) { closed with items := closed.items ++ [.stop level] }) ∧
    ComputesOrdered (.wptr a h) s a (fun v => v = BitVec.ofNat 64 z.committed)

/-- `strm` (R309 to R311), for a stream without sluice context, bind and fold, of a pump without stores under way: when
the 64 bytes of the descriptor keep its rules and the AG site is free (and no plane is selected where it is a feed or take
stream), the stream runs on that AG site and on no other, and only the pc changes otherwise. (That it goes on at the
handle's F, and that F and P stay, is log 75.) -/
def Obligations.StrmStartsAStream : Prop :=
  ∀ (s : State) (h : BitVec 6) (a : Reg) (x : Handle) (bs : List Byte) (k : StreamKind),
    let p := s.pump s.cur
    let v := p.read a
    let kind := fieldAt bs 0 1
    let ag : Fin 8 := Fin.ofNat 8 (fieldAt bs 1 1)
    let flags := fieldAt bs 3 1
    (∀ w ∈ s.pending, w.core ≠ s.cur) → p.handle h = some x → liveStream x.stream = false → v.toNat % 64 = 0 →
    s.loadWords s.cur v 8 = .ok bs → streamKind? kind = some k → descBad bs x.out x.joined.isSome none (s.hasRing s.cur) = false →
    (flags % 2 = 1 → s.part.feature 11 = true) → (flags / 16 % 8 ≠ 0 → s.part.feature 3 = true) → flags / 4 % 4 = 0 →
    fieldAt bs 0x38 8 = 0 → (s.core s.cur).fab.ags[ag].use = .free →
    ((k = .feed ∨ k = .take) → ∀ r : Fin 8, (s.core s.cur).fab.regions[r].sel = none) →
    ∃ t z, exec (.strm h a none) s = .next t ∧ OnlyCoreAndOrder s.cur s t ∧
      (t.pump s.cur).handle h = some { x with stream := some z } ∧
      z.kind = k ∧ z.ag = ag ∧ z.desc = v ∧ z.ended = false ∧ z.committed = 0 ∧ z.origin = x.fill ∧ z.pos = 0 ∧
      z.fault = none ∧
      z.addr.toNat = fieldAt bs 8 8 ∧ z.cons = fieldAt bs 7 1 ∧ z.rnd = fieldAt bs 4 2 ∧
      (∀ j, j ≠ h → (t.pump s.cur).handle j = p.handle j) ∧
      t.pump s.cur = { p with handles := (t.pump s.cur).handles, pc := nextPc s } ∧
      (t.core s.cur).fab.ags[ag].use = .stream h ∧
      (∀ b : Fin 8, b ≠ ag → (t.core s.cur).fab.ags[b] = (s.core s.cur).fab.ags[b]) ∧
      t.core s.cur = { s.core s.cur with
        pump := t.pump s.cur, fab := { (s.core s.cur).fab with ags := (t.core s.cur).fab.ags } }

/-! ### Regions (R320 to R328, R391 to R398, R453 to R463) -/

/-- `cfgs`, `cfgp`, `drain`, `cfgq` (R323 to R325, R327) and the ends of their waits, CFGS_SELECT and DRAIN_RETURN, of a
pump with no load under way and no held fault. `cfgs` selects its plane when the region is idle, the plane conflicts with
no running region and its sites are awake; `cfgp` arms a running region; `drain` of an idle region goes on; while the
region runs `cfgs` and `drain` wait with cause 3, and `cfgp` of an idle one is fault 0x10. None writes a register; what the
region has committed is seen after a `drain` (R268). -/
def Obligations.RegionsAreSelectedArmedAndDrained : Prop :=
  ∀ (s : State) (d : Reg) (region : BitVec 3) (plane pf : BitVec 2),
    let c := s.cur
    let p := s.pump c
    let f := (s.core c).fab
    let r : Fin 8 := region.toFin
    let x := f.regions[r]
    let bit (b : Bool) : Nat := if b then 1 else 0
    let only (u t : State) (y : Region) (q : Pump) : Prop := OnlyCoreAndOrder c u t ∧ t.pump c = { q with pc := q.pc + 8 } ∧
      (t.core c).fab.regions[r] = y ∧ (∀ j : Fin 8, j ≠ r → (t.core c).fab.regions[j] = f.regions[j]) ∧
      t.core c = { s.core c with pump := t.pump c, fab := { f with regions := (t.core c).fab.regions } }
    p.load = none → p.held = [] →
    (x.run = false → f.conflict r f.planes[plane.toFin] = none → f.awakeIn r f.planes[plane.toFin] = true →
      (∃ t, exec (.cfgs region plane) s = .next t ∧ only s t { x with sel := some plane.toFin, armed := none } p) ∧
      (p.block = some (.cfgs region plane) → ∃ t, exec (.cfgsSelect c) s = .next t ∧
        only (unblocked s c) t { x with sel := some plane.toFin, armed := none } (p.unblock s.now))) ∧
    (x.run = true → Waits (.cfgs region plane) s (some 3)) ∧
    (x.run = true → ∃ t, exec (.cfgp region plane pf) s = .next t ∧ only s t { x with armed := some (plane.toFin, pf.toFin) } p) ∧
    (x.run = false → CanTrap p → Faults (.cfgp region plane pf) s 0x10 (region.setWidth 64)) ∧
    (x.run = false → x.stray = false → x.armed = none → (∃ t, exec (.drain region) s = .next t ∧ only s t x p) ∧
      (p.block = some (.drain region) → ∃ t, exec (.drainReturn c) s = .next t ∧ only (unblocked s c) t x (p.unblock s.now))) ∧
    (x.run = true → x.stray = false → Waits (.drain region) s (some 3)) ∧
    (x.run = true → x.stray = true → ∃ t, exec (.drain region) s = .next t ∧ (t.pump c).pc = nextPc s ∧
      (∀ q, (t.pump c).read q = p.read q) ∧ (t.core c).fab.regions[r].run = false ∧ (t.core c).fab.regions[r].stray = false ∧
      (t.core c).fab.regions[r].sel = x.sel ∧ (t.core c).fab.regions[r].armed = none) ∧
    Computes (.cfgq d region) s d (fun v => v.toNat = x.sel.elim 0 (·.val) + 4 * bit x.run + 16 * bit x.pred +
      32 * bit x.stray + 64 * bit x.armed.isSome + 128 * bit x.sel.isSome + 2 ^ 40 * x.flags.toNat)

/-- `kick` (R326) of a pump without stores under way: with a plane selected, resident and usable, its AG sites free and its
binds granted, an idle region starts: run is set, stray, armed, the predicate and the flag word are clear, the seed is that of
`s.seed`; no other region, core or Weir changes, but for stall counters and what a replay reads; the release at `.core` lets the
core's streams and sites see more (R267). A region without a plane, or one that runs already, is fault 0x10, a bind that
conflicts is fault 0x1B at its lowest address, and a load of the plane in progress is a wait with cause 7. -/
def Obligations.KickStartsTheSelectedPlane : Prop :=
  ∀ (s : State) (region : BitVec 3) (n : Fin 4) (bs : List Bind),
    let c := s.cur
    let p := s.pump c
    let f := (s.core c).fab
    let r : Fin 8 := region.toFin
    let x := f.regions[r]
    let ready := x.sel = some n ∧ x.run = false ∧ f.planes[n].bad = false ∧ s.agsUnready c (f.planes[n].agsOf r) = false ∧
      s.regionBinds c r (f.planes[n].agsOf r) = .ok bs
    (∀ w ∈ s.pending, w.core ≠ c) → p.held = [] →
    (x.sel = none → CanTrap p → Faults (.kick region) s 0x10 (region.setWidth 64)) ∧
    (x.sel = some n → p.loading n = true → Waits (.kick region) s (some 7)) ∧
    (p.loading n = false →
      (x.sel = some n → x.run = true → CanTrap p → Faults (.kick region) s 0x10 (region.setWidth 64)) ∧
      (∀ w, ready → s.bindsConflict bs = some w → CanTrap p → Faults (.kick region) s 0x1B w) ∧
      (ready → s.bindsConflict bs = none →
        ∃ t, exec (.kick region) s = .next t ∧ t = orderedAs { s with cores := t.cores, weirs := t.weirs } t ∧
          SeesMore s t ∧ OthersShown c none s t ∧ t.pump c = { p with pc := nextPc s } ∧
          shownRegion (t.core c).fab.regions[r] = shownRegion { x with
            run := true, stray := false, armed := none, pred := false, flags := 0, seed := p.seed, movedAt := s.now
            aborts := 0, abortAt := 0, page := none, due := none, fault := none
            agents := (x.agents ++ f.planes[n].sinks c r).dedup } ∧
          (∀ j : Fin 8, j ≠ r → shownRegion (t.core c).fab.regions[j] = shownRegion f.regions[j]) ∧
          (t.core c).fab.binds = f.binds ++ bs ∧ (t.core c).fab.planes = f.planes ∧
          (∀ a : Fin 8, (f.planes[n].agsOf r).any (fun q => q.1 = a) = true → (t.core c).fab.ags[a].use = .frame r) ∧
          (t.core c).deque = (s.core c).deque ∧ (t.core c).tlb = (s.core c).tlb ∧ (t.core c).launch = s.launch c))

/-- `cfgl` and CONFIG_LOAD_COMPLETE (R88, R321, R322): with the header admitted, `cfgl` reads the block and goes on, and
only the load is noted, with the header and the frames that the block's bytes hold (that they are read at the issue of the
`cfgl` is log 61); an earlier load makes it wait with cause 7. At completion a good block becomes the whole plane
and no other plane changes; a bad one changes no plane, and its code and image offset are held. -/
def Obligations.LoadsAreCheckedThenWrittenWhole : Prop :=
  ∀ (s : State) (a : Reg) (c : CoreId) (l : Load) (hb bs : List Byte),
    let p := s.pump s.cur
    let v := p.read a
    let off := v - (s.launch s.cur).image
    let header := leFrame hb
    let n : Fin 4 := Fin.ofNat 4 l.plane.toNat
    let f := (s.core c).fab
    (p.load.isSome = true → Waits (.cfgl a) s (some 7)) ∧
    (p.load = none → p.held = [] → v.toNat % 32 ≠ 0 → CanTrap p → Faults (.cfgl a) s 0x02 v) ∧
    (p.load = none → p.held = [] → v.toNat % 32 = 0 → s.loadWords s.cur v 4 = .ok hb → s.headerStop s.cur header off = none →
      s.loadWords s.cur (v + 32) (4 * siteOf header) = .ok bs →
      ∃ t m, exec (.cfgl a) s = .next t ∧ OnlyPump s.cur s t ∧ t.pump s.cur = { p with load := some m, pc := nextPc s } ∧
        m.header = header ∧ m.offset = off ∧ m.plane.toNat = planeOf header % 8 ∧ m.frames.length = siteOf header ∧
        ∀ j < siteOf header, m.frames[j]? = some (leFrame ((bs.drop (32 * j)).take 32))) ∧
    ((s.pump c).load = some l → l.sluice = false → f.planeRuns n = false →
      (s.loadFault c l = none → ∃ t, exec (.configLoadComplete c) s = .next t ∧ OnlyCore c s t ∧
        t.pump c = { s.pump c with load := none } ∧
        (t.core c).fab.planes[n] = { frames := l.frames, offset := l.offset, absent := [], page := none, bad := false } ∧
        (∀ m : Fin 4, m ≠ n → (t.core c).fab.planes[m] = f.planes[m]) ∧
        ∀ r : Fin 8, shownRegion (t.core c).fab.regions[r] = shownRegion f.regions[r]) ∧
      (∀ e, s.loadFault c l = some e → ∃ t, exec (.configLoadComplete c) s = .next t ∧ OnlyCore c s t ∧
        t.core c = { s.core c with pump := t.pump c, fab := (t.core c).fab } ∧ shownFab (t.core c).fab = shownFab f ∧
        t.pump c = { s.pump c with
          load := none
          held := (s.pump c).held ++ [{ code := e.1, sluice := false, plane := l.plane, offset := e.2 }] }))

/-- REGION_DRAIN (R320, R392), STILL_WINDOW_EXPIRY (R392 to R394), CHECK_FAILURE_ABORT (R453, R456), FRAME_FETCH_COMPLETE (R398,
R434) and RECOVERY_COALESCE_EXPIRY (R463), while the part is not shut down. A region that has drained, with no `cfgp` armed, is
idle on its plane; one that has been still for W cycles gets its stall record and then its fault, and turns stray; an abort
faults nothing until the fourth without a commit, which is fault 0x23, and a fault of its open round that has not been delivered
it discards (R457; how the model tells such a fault is log 10); a fetched frame is resident, or its page is asked for. In the
first three the pump keeps every register. Events of severity 0 that a unit has held for 2^20 cycles become one record with
their count. -/
def Obligations.RegionsDrainStandStillAndAbort : Prop :=
  ∀ (s : State) (c : CoreId) (r : Fin 8) (p : Plane) (code : Code) (pa : Nat) (kind : CheckKind) (element : BitVec 20)
    (n : Fin 4) (site : Fin 64) (m : Nat),
    let k := s.core c
    let x := k.fab.regions[r]
    let slot := (s.launch c).slotAddr
    let cause (code : Code) (tval : Word) : Cause := { code := code, fab := true, region := BitVec.ofNat 3 r.val, tval := tval }
    let total := s.domainCommits (s.domain c r)
    -- the state whose stall counters the record shows
    let u := (s.seen c).seeWeir (weirOf c)
    let length := (u.stallRecord c r p code).length
    -- a check of a region's token, sideband, residue or link that fails (R149; the parity is even, log 10)
    let fails : Prop := match kind with
      | .token w => Token.ofWord? w 0 false = none
      | .parity scale poison bit =>
        (((List.range 8).countP fun i => scale.getLsbD i) + (if poison then 1 else 0) + if bit then 1 else 0) % 2 = 1
      | .residue v y => v % 3 ≠ (y.toNat : Int)
      | .link _ => True
      | .line _ => False
    -- no fault of an open round waits to be delivered, which an abort of the round would discard (R457)
    let clean : Prop := ∀ (d : CoreId) (j : Fin 8), (s.core d).fab.regions[j].fault = none
    let va := (s.launch c).image + k.fab.planes[n].frameAt site
    let keeps (t : State) : Prop := ∀ q, (t.pump c).read q = (s.pump c).read q
    s.shut = false →
    (k.fab.runPlane r = some p → x.moves = true → x.page = none → s.drains c r p = true → x.armed = none →
      ∃ t, exec (.regionDrain c r) s = .next t ∧ keeps t ∧
        (t.core c).fab.regions[r] = { x with
          run := false, stray := false, armed := none, movedAt := s.now, pausedAt := none, pauses := [], page := none } ∧
        (∀ j : Fin 8, j ≠ r → (t.core c).fab.regions[j] = k.fab.regions[j]) ∧
        (∀ b ∈ (t.core c).fab.binds, b.owner ≠ .frame r) ∧
        (∀ a : Fin 8, (t.core c).fab.ags[a].use ≠ .frame r)) ∧
    (s.mem.wf = true → x.due = none → u.stillFault c r = some (code, p) → s.translate c slot .wr = .at pa →
      slot.toNat % 65536 + length ≤ 65536 →
      (∀ a, pa ≤ a → a < pa + length → s.linePoisoned (lineOf a) = false) →
      ∃ t, exec (.stillWindowExpiry c r) s = .next t ∧ keeps t ∧
        shownRegion (t.core c).fab.regions[r] = shownRegion { x with stray := true, fault := some (cause code slot) } ∧
        (t.pump c).asyncs = (s.pump c).asyncs ++ [cause code slot] ∧
        (∀ j < length, t.mem.get (pa + j) = (u.stallRecord c r p code).getD j 0) ∧
        (∀ a, a < pa ∨ pa + length ≤ a → t.mem.get a = s.mem.get a)) ∧
    (fails → clean → x.run = true → x.stray = false → (x.aborts ≠ 3 ∨ x.abortAt ≠ total) → x.aborts < 4 →
      ∃ t, exec (.checkFailureAbort c r kind element) s = .next t ∧ keeps t ∧ (t.pump c).asyncs = (s.pump c).asyncs ∧
        shownRegion (t.core c).fab.regions[r] = shownRegion { x with
          aborts := if x.aborts ≠ 0 ∧ x.abortAt = total then x.aborts + 1 else 1
          abortAt := total, movedAt := s.now, due := none, pred := (t.core c).fab.regions[r].pred }) ∧
    (fails → clean → x.run = true → x.stray = false → x.aborts = 3 → x.abortAt = total →
      ∃ t, exec (.checkFailureAbort c r kind element) s = .next t ∧ keeps t ∧ (t.core c).fab.regions[r].stray = true ∧
        (t.pump c).asyncs = (s.pump c).asyncs ++ [cause 0x23 (element.setWidth 64)]) ∧
    (∀ e, fails → x.fault = some e → (∀ (d : CoreId) (j : Fin 8), (d ≠ c ∨ j ≠ r) → (s.core d).fab.regions[j].fault = none) →
      x.run = true → x.stray = true → e ∈ (s.pump c).asyncs → x.aborts = 0 →
      ∃ t, exec (.checkFailureAbort c r kind element) s = .next t ∧ keeps t ∧
        (t.core c).fab.regions[r].run = true ∧ (t.core c).fab.regions[r].stray = false ∧
        (t.pump c).asyncs = (s.pump c).asyncs.erase e) ∧
    (k.fab.planes[n].page = none → s.translate c va .rd = .at pa → s.lineStop pa va = none →
      ∃ t, exec (.frameFetchComplete c n site .fetched) s = .next t ∧ OnlyCore c s t ∧ t.pump c = s.pump c ∧
      (∀ i, i ∈ (t.core c).fab.planes[n].absent ↔ i ∈ k.fab.planes[n].absent ∧ i ≠ site) ∧
      (t.core c).fab.planes[n].frames = k.fab.planes[n].frames ∧
      ∀ j : Fin 8, shownRegion (t.core c).fab.regions[j] = shownRegion k.fab.regions[j]) ∧
    (site ∈ k.fab.planes[n].absent → k.fab.planes[n].page = none → s.translate c va .rd = .absent →
      ∃ t id, exec (.frameFetchComplete c n site .fetched) s = .next t ∧ t.pump c = s.pump c ∧
        (t.core c).fab.planes[n] = { k.fab.planes[n] with page := some (id, site) } ∧
        ∃ q ∈ t.requests, q.id = id ∧ q.va = (va56 va) &&& 0xFFFF_FFFF_FFFF_0000 ∧ q.space = (s.launch c).space) ∧
    (∀ y, s.coalesced[m]? = some y →
      (s.now - y.since < 2 ^ 20 → exec (.recoveryCoalesceExpiry m) s = .next s) ∧
      (2 ^ 20 ≤ s.now - y.since → y.count = 0 →
        exec (.recoveryCoalesceExpiry m) s = .next { s with coalesced := s.coalesced.eraseIdx m }) ∧
      (2 ^ 20 ≤ s.now - y.since → y.count ≠ 0 → s.rings[(2 : Fin 3)].base = none →
        ∃ t bs, exec (.recoveryCoalesceExpiry m) s = .next t ∧ t.cores = s.cores ∧ t.mem = s.mem ∧
          t.coalesced = s.coalesced.set m { y with count := 0, since := s.now } ∧
          t.rings[(2 : Fin 3)].waiting = s.rings[(2 : Fin 3)].waiting ++ [bs] ∧ fieldAt bs 0x18 4 = y.count % 2 ^ 32))

/-! ### Weirs (R217 to R224) -/

/-- `gq`, `gsw`, `grel` (R220, R222, R223) and WEIR_REST_SWAP, on a part with Weirs in a group that holds the quad, of a
Weir with no swap or release pending: `gq` gives the free nodes, 0 while the shadow is loaded; `gsw` swaps at once when
the active context is at rest, and else marks the swap; with an empty shadow it has no effect; `grel` empties the shadow,
or the active context at rest. A pending swap takes effect at rest and not before. A core whose group does not hold its
quad takes fault 0x04, and a part without Weirs fault 0x12. -/
def Obligations.WeirContextsSwapAtRest : Prop :=
  ∀ (s : State) (d : Reg) (ctx : BitVec 1) (q : Fin 64) (i : Instr),
    let c := s.cur
    let p := s.pump c
    let w := s.weirs[weirOf c]
    let holds := ∀ j : Fin 4, coreOf (weirOf c) j.val ∈ (s.launch c).group
    let goes (i : Instr) (w' : Weir) : Prop := ∃ t, exec i s = .next t ∧ shownWeir t.weirs[weirOf c] = shownWeir w' ∧
      OthersShown c (some (weirOf c)) s t ∧ t = { s with weirs := t.weirs, cores := t.cores } ∧
      t.pump c = { p with pc := nextPc s } ∧ t.core c = { s.core c with pump := t.pump c, fab := (t.core c).fab } ∧
      shownFab (t.core c).fab = shownFab (s.core c).fab
    let rest (u : Weir) : Prop := u.graph = none ∨ (u.openVec = [] ∧ u.outq = [] ∧ (u.received = false ∨ u.ended = true))
    -- a context that has just begun has received nothing
    let begun (u : Weir) : Weir := { u with received := false, ended := false }
    ((i = .gq d ∨ i = .gsw ∨ i = .grel ctx) → CanTrap p →
      (s.part.hasWeir = false → Faults i s 0x12 (encode i)) ∧
      (s.part.hasWeir = true → ¬ holds → Faults i s 0x04 0)) ∧
    (s.part.hasWeir = true → holds → w.swap = false → w.release = false →
      Computes (.gq d) s d (fun v => v.toNat = if (w.ctx[w.shadow]).isSome then 0 else (32768 - w.activeNodes) % 2 ^ 64) ∧
      ((w.ctx[w.shadow]).isNone = true → goes .gsw w) ∧
      ((w.ctx[w.shadow]).isSome = true → rest w → goes .gsw (begun { w with active := w.shadow })) ∧
      ((w.ctx[w.shadow]).isSome = true → ¬ rest w → goes .gsw { w with swap := true }) ∧
      ((w.ctx[ctx.toFin]).isNone = true → goes (.grel ctx) w) ∧
      ((w.ctx[ctx.toFin]).isSome = true → ctx.toFin ≠ w.active → goes (.grel ctx) { w with ctx := setAt w.ctx ctx.toFin none }) ∧
      ((w.ctx[ctx.toFin]).isSome = true → ctx.toFin = w.active → rest w →
        goes (.grel ctx) (begun { w with ctx := setAt w.ctx ctx.toFin none })) ∧
      ((w.ctx[ctx.toFin]).isSome = true → ctx.toFin = w.active → ¬ rest w → goes (.grel ctx) { w with release := true })) ∧
    ((s.weirs[q]).swap = true → (s.weirs[q]).release = false →
      (rest s.weirs[q] → ∃ t, exec (.weirRestSwap q) s = .next t ∧ t = { s with weirs := t.weirs, cores := t.cores } ∧
        shownWeir t.weirs[q] = shownWeir (begun { s.weirs[q] with active := (s.weirs[q]).shadow, swap := false }) ∧
        (∀ j : Fin 64, j ≠ q → t.weirs[j] = s.weirs[j]) ∧
        ∀ d : CoreId, t.core d = { s.core d with fab := (t.core d).fab } ∧ shownFab (t.core d).fab = shownFab (s.core d).fab) ∧
      (¬ rest s.weirs[q] → exec (.weirRestSwap q) s = .next s))

/-- `gld` (R213, R215, R221) and GLD_COMPLETE: an image that can be read and breaks no check becomes the graph of the
shadow context, the active one stays, stall cause 7 is noted and the pump goes on; an image with more nodes than are
free is fault 0x13 with both counts; a header that breaks its rule is fault 0x10 (at offset 0, log 35); a misaligned
address is fault 0x02. (Of a Weir with no swap or release pending.) -/
def Obligations.GldLoadsTheShadowContext : Prop :=
  ∀ (s : State) (a : Reg) (h im om nd : List Byte) (sn : NodeSeen),
    let c := s.cur
    let p := s.pump c
    let v := p.read a
    let w := s.weirs[weirOf c]
    let f (o n : Nat) : Nat := fieldAt h o n
    let n := f 8 4
    let graph : Graph :=
      { header := h, nodes := (chunks 8 nd).map leWord, inMap := (chunks 2 im).map fun b => BitVec.ofNat 16 (leNat b)
        outMap := (chunks 4 om).map fun b => BitVec.ofNat 32 (leNat b), nl := f 0x10 2, nout := f 0x12 2
        ins := BitVec.ofNat 4 (f 0x14 1), ocore := Fin.ofNat 4 (f 0x15 1), lvl := BitVec.ofNat 3 (f 0x16 1) }
    let loaded (u t : State) (q : Pump) : Prop :=
      t.weirs[weirOf c] = { w with ctx := setAt w.ctx w.shadow (some graph) } ∧
      (∀ j : Fin 64, j ≠ weirOf c → t.weirs[j] = s.weirs[j]) ∧ t = { u with weirs := t.weirs, cores := t.cores } ∧
      t.cores = (u.modPump c fun _ => { q with stallWhy := 7, pc := q.pc + 8 }).cores
    s.part.hasWeir = true → (∀ j : Fin 4, coreOf (weirOf c) j.val ∈ (s.launch c).group) → w.swap = false → w.release = false →
    (v.toNat % 64 ≠ 0 → CanTrap p → Faults (.gld a) s 0x02 v) ∧
    (v.toNat % 64 = 0 → s.loadWords c v 8 = .ok h →
      (graphHeaderBad h = true → CanTrap p → Faults (.gld a) s 0x10 0) ∧
      (graphHeaderBad h = false →
        s.loadImage c (v + BitVec.ofNat 64 (f 0x20 8)) (2 * f 0xC 2) = .ok im →
        s.loadImage c (v + BitVec.ofNat 64 (f 0x28 8)) (4 * f 0xE 2) = .ok om →
        s.loadImage c (v + BitVec.ofNat 64 (f 0x18 8)) (8 * n) = .ok nd →
        (∀ l ∈ graph.inMap, l.toNat < graph.nl) →
        (∀ e ∈ graph.outMap, e.extractLsb' 12 8 = 0 ∧ (e.extractLsb' 0 12).toNat < graph.nout) →
        nodesFault graph.inMap (f 0xE 2) graph.nodes { nodes := #[], outs := [] } = .ok sn →
        (∀ e < f 0xE 2, e ∈ sn.outs) →
        (n ≤ w.freeNodes → (∃ t, exec (.gld a) s = .next t ∧ loaded s t p) ∧
          (p.block = some (.gld a) → ∃ t, exec (.gldComplete c) s = .next t ∧ loaded (unblocked s c) t (p.unblock s.now))) ∧
        (w.freeNodes < n → CanTrap p → Faults (.gld a) s 0x13 (BitVec.ofNat 64 (n * 2 ^ 16 + w.freeNodes)))))

/-! ### Work: the deque, `launch`, `notify`, barriers (R280, R319, R411 to R415) -/

/-- R411 and R412 for a deque whose words all lie in its hardware part, of a pump without stores under way: `dqpush`
appends at the bottom, and a = 0 has no effect; `dqpop` takes the bottom word and `dqsteal` the top word of a core of
the group on the same die, 0 when there is none; `dqlen` counts the words, spilled ones too. A full deque, and a core
outside the group or die, are fault 0x04. A word that comes back orders what its taker sees (R413). (Of words without a
storage error, R461.) -/
def Obligations.DequeWordsComeBackOnce : Prop :=
  ∀ (s : State) (d a : Reg) (k : CoreId),
    let c := s.cur
    let p := s.pump c
    let v := p.read a
    let l := s.launch c
    let x := s.core c
    let y := s.core k
    let takes (i : Instr) (k : CoreId) (w : Word) (left : List Word) : Prop := ∃ t, exec i s = .next t ∧
      PumpGives p (t.pump c) d w 0 ∧ t = orderedAs { s with cores := t.cores } t ∧ SeesMore s t ∧ (t.core k).deque = left ∧
      ∀ j, t.core j = { s.core j with
          pump := if j = c then t.pump c else s.pump j, deque := (t.core j).deque, pushes := (t.core j).pushes } ∧
        (j ≠ k → (t.core j).deque = (s.core j).deque ∧ (t.core j).pushes = (s.core j).pushes)
    (∀ w ∈ s.pending, w.core ≠ c) →
    (v = 0 → Jumps (.dqpush a) s (nextPc s)) ∧
    (v ≠ 0 → x.deque.length < 256 → x.dequeLen < 256 + l.spillWords →
      ∃ t, exec (.dqpush a) s = .next t ∧ OnlyCoreAndOrder c s t ∧
        t.core c = { x with pump := { p with pc := nextPc s }, deque := x.deque ++ [v], pushes := (t.core c).pushes }) ∧
    (v ≠ 0 → 256 + l.spillWords ≤ x.dequeLen → CanTrap p →
      Faults (.dqpush a) s 0x04 (l.spill + BitVec.ofNat 64 (8 * l.spillWords * (l.rank + 1)))) ∧
    (x.spilled = 0 → x.dequeBad = [] → takes (.dqpop d) c (x.deque.getLast?.getD 0) x.deque.dropLast) ∧
    (v = BitVec.ofNat 64 k.val → k.val / 64 = c.val / 64 → k ∈ l.group → y.spilled = 0 → y.dequeBad = [] →
      takes (.dqsteal d a) k (y.deque.head?.getD 0) (y.deque.drop 1)) ∧
    ((256 ≤ v.toNat ∨ v.toNat / 64 ≠ c.val / 64 ∨ ∀ j ∈ l.group, j.val ≠ v.toNat) → CanTrap p →
      Faults (.dqsteal d a) s 0x04 v) ∧
    Computes (.dqlen d) s d (fun w => w.toNat = (x.spilled + x.deque.length) % 2 ^ 64)

/-- R414 and R415, for a pump without stores under way, doorbell lines that are not poisoned, and a queue without waiting
notifies that is not mapped or no ring of firmware placed. `launch` of a record
that it can read, into a queue that is not full, stores the 256 bytes at the record's place and adds one to the
doorbell; while the queue is full it waits, and LAUNCH_RESUME does the same at the end. `notify` leaves the larger of
doorbell and b in the doorbell; a number that names no queue of the space is fault 0x04. No other byte of memory
changes. -/
def Obligations.LaunchAndNotifyRaiseTheDoorbell : Prop :=
  ∀ (s : State) (a b : Reg) (q : Queue) (dpa rpa : Nat) (bs : List Byte),
    let c := s.cur
    let p := s.pump c
    let v := p.read a
    let tail := s.bellAt q dpa
    -- the slot of a queue, which reads its dependences anew (R404), posts no record into a ring in memory
    let quiet (q : Queue) : Prop := s.mappedAt q.num.val = none ∨ ∀ j : Fin 3, (s.rings[j]).base = none
    let appended (t : State) : Prop :=
      (∀ j < 256, t.mem.get (rpa + j) = bs.getD j 0) ∧ t.wordAt dpa = tail + 1 ∧
      (∀ x, (x < rpa ∨ rpa + 256 ≤ x) → (x < dpa ∨ dpa + 8 ≤ x) → t.mem.get x = s.mem.get x) ∧ t.pending = s.pending
    (∀ w ∈ s.pending, w.core ≠ c) → s.mem.wf = true → s.linePoisoned (lineOf dpa) = false → dpa % 8 = 0 →
    (v.toNat % 64 ≠ 0 → CanTrap p → Faults (.launch a) s 0x02 v) ∧
    (v.toNat % 64 = 0 → s.ownQueue c = some q → q.page = none → s.translateIn q.space q.doorbell .rw = .at dpa →
      (tail.toNat - q.head.toNat < 2 ^ q.log2n → quiet q → s.loadWords c v 32 = .ok bs →
        s.translateIn q.space (q.recordAt tail.toNat) .wr = .at rpa → rpa % 256 = 0 → lineOf rpa ≠ lineOf dpa →
        tail.toNat + 1 < 2 ^ 64 →
        (∃ t, exec (.launch a) s = .next t ∧ appended t ∧
          t.cores = (s.modPump c fun p => { p with pc := nextPc s }).cores) ∧
        (p.block = some (.launch a) → ∃ t, exec (.launchResume c) s = .next t ∧ appended t ∧
          (t.pump c).block = none ∧ (t.pump c).pc = nextPc s)) ∧
      (2 ^ q.log2n ≤ tail.toNat - q.head.toNat → Waits (.launch a) s none)) ∧
    (v.toNat < 256 → s.queue? v.toNat = some q → q.space = (s.launch c).space → q.page = none → q.fresh = false →
      quiet q → s.translateIn q.space q.doorbell .rw = .at dpa →
      ∃ t, exec (.notify a b) s = .next t ∧ (t.wordAt dpa).toNat = max (s.wordAt dpa).toNat (p.read b).toNat ∧
        (∀ x, (x < dpa ∨ dpa + 8 ≤ x) → t.mem.get x = s.mem.get x) ∧
        t.cores = (s.modPump c fun p => { p with pc := nextPc s }).cores) ∧
    ((256 ≤ v.toNat ∨ ∀ x ∈ s.queues, x.num.val = v.toNat → x.space ≠ (s.launch c).space) → CanTrap p →
      Faults (.notify a b) s 0x04 v)

/-- R280 and R319, for a pump without stores under way: `bara` counts one arrival, and a second one before a wait is
fault 0x01; `barw` ends, with its wait counted, when every other member has made as many arrivals; it waits with cause 4
while one that has not halted is missing, and takes fault 0x19 at the first member when all that are missing have
halted; `bar` does both. BARW_RELEASE ends the wait. An asynchronous trap that abandons a `bar` leaves its arrival, and
the reissued `bar` does not arrive again. -/
def Obligations.BarriersCountArrivals : Prop :=
  ∀ (s : State) (scope : Scope) (m : CoreId) (rest : List CoreId) (cause : Cause),
    let c := s.cur
    let p := s.pump c
    let x := s.bar c scope
    let fresh := x.arrivals = x.waits
    let others := (s.members c scope).filter fun j => j ≠ c
    -- an arrival of the episode that `n` arrivals of this core stand for
    let arrived (n : BitVec 32) (j : CoreId) : Prop := ((s.bar j scope).arrivals - n).toNat < 2 ^ 31
    let counts (u t : State) (q : Pump) (y : Barrier) : Prop := OnlyPumpAndOrder c u t ∧
      t.pump c = { q with bars := setAt q.bars (scopeIndex scope) y, pc := q.pc + 8 }
    let n := x.arrivals + 1
    (∀ w ∈ s.pending, w.core ≠ c) →
    (fresh → ∃ t, exec (.bara scope) s = .next t ∧ counts s t p { x with arrivals := n }) ∧
    (¬ fresh → CanTrap p → Faults (.bara scope) s 0x01 (encode (.bara scope))) ∧
    (fresh → CanTrap p → Faults (.barw scope) s 0x01 (encode (.barw scope))) ∧
    (¬ fresh → (∀ j ∈ others, arrived x.arrivals j) →
      (∃ t, exec (.barw scope) s = .next t ∧ counts s t p { x with waits := x.arrivals, abandoned := false }) ∧
      ((p.block = some (.barw scope) ∨ p.block = some (.bar scope)) → ∃ t, exec (.barwRelease c) s = .next t ∧
        counts (unblocked s c) t (p.unblock s.now) { x with waits := x.arrivals, abandoned := false })) ∧
    (¬ fresh → (∃ j ∈ others, ¬ arrived x.arrivals j ∧ (s.pump j).run ≠ .halted) → Waits (.barw scope) s (some 4)) ∧
    (¬ fresh → (others.filter fun j => !s.arrived c scope j) = m :: rest → (∀ j ∈ m :: rest, (s.pump j).run = .halted) →
      CanTrap p → Faults (.barw scope) s 0x19 (s.coreWord m)) ∧
    (fresh → x.abandoned = false → (∀ j ∈ others, arrived n j) →
      ∃ t, exec (.bar scope) s = .next t ∧ counts s t p { arrivals := n, waits := n, abandoned := false }) ∧
    (fresh → x.abandoned = false → (∃ j ∈ others, ¬ arrived n j ∧ (s.pump j).run ≠ .halted) →
      ∃ t, exec (.bar scope) s = .next t ∧ OnlyPumpAndOrder c s t ∧ (t.pump c).block = some (.bar scope) ∧
        t.bar c scope = { x with arrivals := n } ∧ (t.pump c).pc = p.pc) ∧
    (p.block = some (.bar scope) → ¬ fresh → p.run = .running → p.ht = false → p.tvec ≠ 0 → p.page = none →
      p.asyncs = [cause] →
      ∃ t, exec (.asyncTrapTaken c) s = .next t ∧ OnlyPump c s t ∧ t.bar c scope = { x with abandoned := true } ∧
        (t.pump c).epc = va56 p.pc ∧ (t.pump c).pc = p.tvec ∧ (t.pump c).tcause = cause) ∧
    (¬ fresh → x.abandoned = true → (∀ j ∈ others, arrived x.arrivals j) →
      ∃ t, exec (.bar scope) s = .next t ∧ counts s t p { x with waits := x.arrivals, abandoned := false })

/-- A wait without progress for W cycles ends in a trap at the waiting instruction (R298, R313, R414): `lds` on an empty word,
with no region running, no stream active and no peer's window open, takes fault 0x19 at its address; `waith` on an input or
output handle whose stream stands still takes fault 0x18 with the handle; `launch` on a full queue takes fault 0x18 with the
address of its record. -/
def Obligations.StillWaitsTrap : Prop :=
  ∀ (s : State) (c : CoreId) (d a : Reg) (imm : BitVec 32) (h : BitVec 6) (n : BitVec 8) (k : CoreId) (o : Nat)
    (q : Queue) (dpa : Nat) (x : Handle),
    let p := s.pump c
    let W := (s.launch c).window
    let ea := p.read a + imm.signExtend 64
    let v := p.read a
    p.run = .running → p.page = none → CanTrap p → W ≤ s.now - p.blockedAt →
    (p.block = some (.lds d a imm) → ea.toNat % 8 = 0 → s.cisternPlace c ea = .here k o → o / 8 ∉ (s.core k).full →
      (∀ r : Fin 8, (s.core c).fab.regions[r].run = false) → p.streaming = false → s.peerWindow k = false →
      W ≤ s.now - (s.core c).activeAt → TrapsOn c (.ldsStillTimeout c) s (precise 0x19 ea) p.pc) ∧
    (p.block = some (.waith a h n) → p.handle h = some x → p.bound h = true → x.out = true → n.toNat ≤ x.slots →
      x.slots - (x.fill - x.free) < n.toNat → (∀ t, p.ringStream h = some t → t.fault = none) → s.streamStill c h W = true →
      TrapsOn c (.waithStillTimeout c) s (precise 0x18 (h.setWidth 64)) p.pc) ∧
    (p.block = some (.waith a h n) → p.handle h = some x → p.bound h = true → x.out = false → n.toNat ≤ x.slots →
      p.fillOf h - x.free < n.toNat → liveStream (p.ringStream h) = true → s.streamStill c h W = true →
      TrapsOn c (.waithStillTimeout c) s (precise 0x18 (h.setWidth 64)) p.pc) ∧
    (p.block = some (.launch a) → v.toNat % 64 = 0 → s.ownQueue c = some q → q.page = none →
      s.translateIn q.space q.doorbell .rw = .at dpa → 2 ^ q.log2n ≤ (s.bellAt q dpa).toNat - q.head.toNat →
      TrapsOn c (.launchStillTimeout c) s (precise 0x18 v) p.pc)

/-! ### The polder (R329 to R337, R362 to R382, R396, R397) -/

/-- TOKEN_HOP, SITE_FIRE, CLOCK_GATE, SITE_WAKE and SITE_POWER_WAKE (R362 to R364, R396, R397), while the part is not
shut down. The head of a link's buffer moves to the one link its switch gives it when that has room, and no other
buffer changes; a held output leaves on its port; a site that can fire reads its operands and takes the next state of
its operator; a site that has not fired for 64 cycles is clock-gated, and no earlier; one at which a token has arrived since
wakes.
No pump register, no byte of a cistern and no other core or Weir changes, but for stall counters and what a replay reads. At
a commit the peer events that have waited for a round boundary become pending (R441). -/
def Obligations.TokensHopAndSitesFire : Prop :=
  ∀ (s : State) (c : CoreId) (i : Fin 64) (dir : Dir) (r : Fin 8) (p : Plane) (cfg : CompCfg) (tok : Token)
    (rest : List Token) (x : Dst) (b : Fin 256) (fired : Fired) (n : Nat),
    let k := s.core c
    let d := dirNum dir
    let site := k.fab.sites[i]
    let here := linkIx i d
    let quiet (t : State) : Prop := FabricEvent c s t
    s.shut = false →
    (k.bufOwner i d = some (r, p) → k.fab.links[here] = tok :: rest → k.fab.regions[r].moves = true → p.resident i = true →
      p.dsts i (d.val + 1) = [x] → k.room p x = true → (∃ j e, x = .link j e ∧ b = linkIx j e) → b ≠ here →
      ∃ t, exec (.tokenHop c (.link i dir)) s = .next t ∧ quiet t ∧ (t.pump c).asyncs = k.pump.asyncs ∧
        (t.core c).fab.links[here] = rest ∧ (t.core c).fab.links[b] = k.fab.links[b] ++ [tok] ∧
        (∀ j : Fin 256, j ≠ here → j ≠ b → (t.core c).fab.links[j] = k.fab.links[j]) ∧
        (t.core c).fab.regions[r].movedAt = s.now) ∧
    (k.siteOwner i = some (r, p, cfg) → k.fab.regions[r].moves = true → site.outq[d] = tok :: rest →
      farDst i d = some x → k.room p x = true → (∃ j e, x = .link j e ∧ b = linkIx j e) →
      ∃ t, exec (.tokenHop c (.out i dir)) s = .next t ∧ quiet t ∧ (t.core c).fab.sites[i].outq[d] = rest ∧
        (t.core c).fab.links[b] = k.fab.links[b] ++ [tok] ∧
        (∀ j : Fin 256, j ≠ b → (t.core c).fab.links[j] = k.fab.links[j])) ∧
    (k.siteOwner i = some (r, p, cfg) → cfg.site = i → k.fab.regions[r].moves = true → site.gate = .awake →
      p.resident i = true → k.firing r p cfg s.now = .fire fired → (∀ q ∈ fired.ports cfg, k.outFree p i q = true) →
      (fired.commit = true → cfg.stateful = true → site.poisoned = false ∧ fired.mark = false) →
      ∃ t, exec (.siteFire c i) s = .next t ∧ quiet t ∧
        (t.pump c).asyncs = k.pump.asyncs ++ (if fired.commit then k.pump.events else []) ∧
        (t.core c).fab.sites[i].op = fired.op ∧ (t.core c).fab.sites[i].firedAt = s.now ∧
        (∀ q : Fin 4, (t.core c).fab.sites[i].inReg[q] = if q ∈ fired.reads then none else site.inReg[q]) ∧
        (t.core c).fab.regions[r].movedAt = s.now ∧
        (fired.commit = true → (t.core c).fab.regions[r].flags = k.fab.regions[r].flags ||| site.pendFlags ||| fired.flags)) ∧
    ((k.siteOwner i).isSome = true → site.gate = .awake → 64 ≤ s.now - site.firedAt →
      ∃ t, exec (.clockGate c i) s = .next t ∧ quiet t ∧ (t.core c).fab.sites[i].gate = .clock ∧
        (t.core c).fab.sites[i].op = site.op ∧ (t.core c).fab.sites[i].inReg = site.inReg) ∧
    (s.now - site.firedAt < 64 → ∃ t, exec (.clockGate c i) s = .next t ∧ quiet t ∧
      (t.core c).fab.sites[i].gate = site.gate) ∧
    (site.gate = .called →
      ∃ t, exec (.siteWake c i) s = .next t ∧ quiet t ∧ (t.core c).fab.sites[i].gate = .awake ∧
        (t.core c).fab.sites[i].inReg = site.inReg) ∧
    (site.gate = .waking n → ∃ t, exec (.sitePowerWake c i) s = .next t ∧ quiet t ∧
      (t.core c).fab.sites[i].gate = .awake ∧ (t.core c).fab.sites[i].op = site.op)

/-- MEMORY_SITE_ACCESS, AG_STREAM_ACCESS and AG_READ_RETURN (R265, R270, R329, R330, R333, R334, R347) answer a next state
in every state: on a part that is shut down nothing changes, and else the access of the site's mode happens, or none. With
the site's region running: `mem.rd` emits the next slot's token with its seq; `mem.wr` takes a DATA token into its round, and its
MARK writes the round's token into the slot, whose words become full; an `ag.in` issues the read of the next address of
its pattern, and a read that returns gives its 32 bytes as the next token of the round; an `ag.out` takes a DATA token
into its round. -/
def Obligations.SourcesReadAndSinksWrite : Prop :=
  ∀ (s : State) (c : CoreId) (m a r : Fin 8) (p : Plane) (g : MemCfg) (ag : AgCfg) (tok : Token) (n pa : Nat) (va : Word)
    (rest : List (Nat × Option Word × Bool)),
    let k := s.core c
    let x := k.fab.mems[g.site]
    let y := k.fab.ags[a]
    let o := g.slotAt x.pos
    let quiet (t : State) : Prop := FabricEvent c s t ∧ t.pump c = k.pump
    (s.shut = true → ∀ i, i = .memorySiteAccess c m ∨ i = .agStreamAccess c a ∨ i = .agReadReturn c a →
      exec i s = .next s) ∧
    (s.shut = false → exec (.memorySiteAccess c m) s = .next (s.after c (s.memAccess c m)) ∧
      exec (.agStreamAccess c a) s = .next (s.after c (s.agAccess c a)) ∧
      exec (.agReadReturn c a) s = .next (s.after c (s.agReturn c a))) ∧
    (s.shut = false →
    (k.memOwner m = some (r, p, g) → k.fab.regions[r].moves = true → p.bad = false → x.outq = [] →
      (g.mode = 0 → p.permitMem g.site = false → x.finished = false → k.fab.regions[r].stopping = none →
        x.pos + 1 < g.len → x.roundData + 1 < 1024 →
        (∀ w ∈ wordsOf o 32, w ∉ k.bad ∧ w ∉ k.latent) →
        ∃ t, exec (.memorySiteAccess c m) s = .next t ∧ quiet t ∧ (t.core c).cistern = k.cistern ∧
          (t.core c).fab.mems[g.site].outq = [{ dataTok (leFrame (s.fabRead c (.site c g.site) o 32)) 0 false with seq := x.roundData }] ∧
          (t.core c).fab.mems[g.site].pos = x.pos + 1) ∧
      (g.mode = 1 → x.inReg = some tok → tok.kind = .data →
        ∃ t, exec (.memorySiteAccess c m) s = .next t ∧ quiet t ∧ (t.core c).cistern = k.cistern ∧
          (t.core c).fab.mems[g.site].hold = x.hold ++ [tok] ∧ (t.core c).fab.mems[g.site].inReg = none) ∧
      (g.mode = 1 → x.inReg = some (plainTok .mark) → x.hold = [tok] → tok.poison = false → k.cistern.wf = true →
        ∃ t, exec (.memorySiteAccess c m) s = .next t ∧
          t = orderedAs { s with cores := t.cores, weirs := t.weirs } t ∧ OthersShown c none s t ∧
          t.pump c = { k.pump with asyncs := k.pump.asyncs ++ k.pump.events, events := [] } ∧
          (t.core c).fab.mems[g.site].hold = [] ∧
          (t.core c).fab.mems[g.site].pos = x.pos + 1 ∧
          (∀ b, (t.core c).cistern.get b =
            if o ≤ b ∧ b < o + 32 then tok.payload.extractLsb' (8 * (b - o)) 8 else k.cistern.get b) ∧
          (∀ w, w ∈ (t.core c).full ↔ w ∈ k.full ∨ (o / 8 ≤ w ∧ w < o / 8 + 4)))) ∧
    (k.agRun a = some (.frame r p, ag) → k.agMoves (.frame r p) = true → y.page = none →
      (ag.mode = 0 → y.outq = [] → y.inReg = none → y.reads.length < 16 → y.pos < patternLen ag.counters →
        ∃ t, exec (.agStreamAccess c a) s = .next t ∧ quiet t ∧
          (t.core c).fab.ags[a].reads = y.reads ++ [(y.pos, some (ag.address y.pos), false)] ∧
          (t.core c).fab.ags[a].pos = y.pos + 1) ∧
      (ag.mode = 1 → y.inReg = some tok → tok.kind = .data →
        ∃ t, exec (.agStreamAccess c a) s = .next t ∧ quiet t ∧ (t.core c).fab.ags[a].hold = y.hold ++ [tok] ∧
          (t.core c).fab.ags[a].inReg = none) ∧
      (ag.mode = 0 → ag.ctx = none → ag.int = 0 → ag.use2 = 0 → y.reads = (n, some va, false) :: rest →
        s.translate c va .rd = .at pa → s.lineStop pa 0 = none → s.wayUp c pa = true → n + 1 < patternLen ag.counters → y.roundData + 1 < ag.rnd →
        ∃ t, exec (.agReadReturn c a) s = .next t ∧ quiet t ∧ (t.core c).fab.ags[a].reads = rest ∧
          (t.core c).fab.ags[a].outq =
            y.outq ++ [{ dataTok (leFrame (s.agBytes c ag.site pa 32)) 0 false with seq := y.roundData }])))

/-- What operators compute when they fire, where one token of every port stands at their inputs: `sum.red` in O32 adds
the terms of its steps lane by lane in their order (R190); the token that completes the block of a `turn.blk` sends the block
transposed, and a MARK (R381); a `dly.fifo` sends its oldest token when its cycles have passed and there is space
(R379); `join.all` sends as many tokens as its leanest port has had in the round, with invalid where they differ (R382);
`join.pred` sets the predicate from the last token of the round at its MARK (R382). -/
def Obligations.OperatorsFireByTheirRules : Prop :=
  ∀ (k : CompCfg) (e : FireEnv) (inp : Vector (Option Token) 4) (op : OpState) (ts : List Token) (t u : Token),
    let code (x : Token) (j : Nat) : Nat := bits x.payload (32 * j) 32
    let n := k.param 167 5 + 1
    let plus (acc y : Nat) : Nat := (addNum f32 (Num.ofCode f32 acc) (Num.ofCode f32 y)).1
    (k.kind = 2 → k.mode = 4 → k.fa = .o32 → k.fo = .o32 → headsOf inp k.order = .ok (t :: ts) →
      (∀ x ∈ t :: ts, x.kind = .data ∧ x.poison = false ∧ ∀ j < 8, nanCode32 (code x j) = false) → 0 < ts.length → op.buf = [] →
      ∃ f v, fireOp k e inp op = .fire f ∧ f.reads = k.ports ∧ f.outs = [(.a, v)] ∧ f.op = op ∧ v.kind = .data ∧
        v.poison = false ∧ ∀ j < 8, code v j = ts.foldl (fun acc x => plus acc (code x j)) (code t j)) ∧
    (k.kind = 11 → e.busy = false → inp[k.port 0] = some t → t.kind = .data → op.store.length + 1 = n * n →
      ∃ f, fireOp k e inp op = .fire f ∧ f.reads = [k.port 0] ∧ f.op.store = [] ∧ f.commit = true ∧
        f.outs.length = n * n + 1 ∧
        (∀ i < n, ∀ j < n, (f.outs[j * n + i]?).map (·.2) = (op.store ++ [t])[i * n + j]?) ∧
        f.outs.getLast? = some (.a, plainTok .mark)) ∧
    (k.kind = 10 → k.mode = 0 → op.store = u :: ts → (∃ w ws, op.stamps = w :: ws ∧ w + k.param 153 10 ≤ e.now) →
      e.afree = true → ∃ f, fireOp k e inp op = .fire f ∧ f.reads = [] ∧ f.outs = [(.a, u)] ∧ f.op.store = ts) ∧
    (k.kind = 12 → k.mode = 0 → headsOf inp k.ports = .ok (t :: ts) → (∀ x ∈ t :: ts, x.kind = .mark) →
      ∃ f m, fireOp k e inp op = .fire f ∧ f.reads = k.ports ∧ f.commit = true ∧
        (∀ q ∈ k.ports, m ≤ op.n[Fin.ofNat 6 q.val]) ∧ (∃ q ∈ k.ports, m = op.n[Fin.ofNat 6 q.val]) ∧
        f.outs = List.replicate m (.a, dataTok 0 0 false) ++ [(.a, plainTok .mark)] ∧
        (f.flags = 0 ↔ ∀ q ∈ k.ports, op.n[Fin.ofNat 6 q.val] = m)) ∧
    (k.kind = 12 → k.mode ≠ 0 → inp[k.port 0] = some t →
      (t.kind = .data → ∃ f, fireOp k e inp op = .fire f ∧ f.outs = [(.a, t)] ∧ f.op.latch = some t.payload) ∧
      (t.kind = .mark → ∃ f, fireOp k e inp op = .fire f ∧ f.outs = [(.a, plainTok .mark)] ∧ f.commit = true ∧
        f.pred = op.latch.map fun v =>
          let w := bits v 0 32
          if k.param 170 2 = 0 then decide (w ≠ 0)
          else if k.param 170 2 = 1 then decide (0 < w ∧ w ≤ 0x7F80_0000)
          else decide (0 < w ∧ w < 2 ^ 31)))

/-! ### Weir vectors, folds, sluice lines (R204, R226 to R228, R244 to R247, R354, R366) -/

/-- WEIR_VECTOR, CHAIN_FOLD, STATION_FOLD, SLUICE_LINE and the crossing of TOKEN_HOP, while the part is not shut down.
A Weir whose one feeding stream offers a DATA token takes it into its vector, and evaluates a complete vector; the first
member of an integer chain passes on the sum of its partials modulo 2^32, lane by lane, to the next member (the model's order
of members, log 70), where no bridge lies between; a station whose members' partials have arrived writes their fold to the
pattern of its first member with shards (the model's choice, log 30), where no bridge lies on its way; a written line that has
passed its context leaves the list; and a token that leaves the window's buffer returns its credit, except at a station, where
a MARK writes the round's partials into the buffer, the stream's entry in the table known (R237, R366, R367). -/
def Obligations.WeirsFoldsAndSluicesMoveTokens : Prop :=
  ∀ (s t : State) (q : Fin 64) (c : CoreId) (r : Fin 8) (g : Graph) (i : Fin 4) (tok : Token) (n m : Nat) (f : Fold)
    (a : Fin 8) (run : AgRun) (d : CoreId) (h : BitVec 6) (gm : Fold) (fo : Flags) (j : SluiceJob) (cfg : AgCfg)
    (ctx : SluiceCtx) (x : Crossing) (rest : List Token),
    let w := s.weirs[q]
    let sum (ps : List Frame) (l : Nat) : Nat := (ps.map fun p => bits p (32 * l) 32).sum % 2 ^ 32
    let fr := f.rec_
    let ps := ((s.stationMembers fr).map fun e => match e.bind fun k => s.folds[k]? with
      | some g => g.parts.take g.need
      | none => []).flatten
    let result := (foldShards fr.integer fr.blk fr.shards (List.replicate fr.blk 0) ps).1
    let passed := sluicePass ctx.frames (j.tokens.map (·.2))
    s.shut = false →
    (w.graph = some g → w.swap = false → w.release = false → s.weirHome q g = some (c, r) →
      (s.core c).fab.regions[r].moves = true → w.outq = [] → g.feeders = [i] →
      w.inReg[i] = some tok → tok.kind = .data → (∀ e : Fin 4, e ≠ i → w.inReg[e] = none) →
      ∃ t, exec (.weirVector q) s = .next t ∧ t.weirs[q].inReg[i] = none ∧ t.mem = s.mem ∧
        (∀ e : Fin 64, e ≠ q → t.weirs[e] = s.weirs[e]) ∧
        (w.openVec.length + 1 < g.nl / 16 → t.weirs[q].openVec = w.openVec ++ [tok.payload] ∧ t.weirs[q].outq = []) ∧
        (g.nl / 16 ≤ w.openVec.length + 1 → t.weirs[q].openVec = [] ∧
          t.weirs[q].outq.map (·.payload) =
            (chunks 8 (g.evaluate (g.vector (w.openVec ++ [tok.payload]))).1).map (packFrame 32))) ∧
    (s.folds[n]? = some f → fr.station = false → fr.integer = true → fr.head = true → fr.blk = 1 → 0 < fr.count →
      fr.first + fr.count ≠ fr.shards → fr.count ≤ f.parts.length → s.foldStream f = some (a, run) →
      (s.core f.core).fab.ags[a].page = none → f.outs = [] → s.chainNext f = .member d h → s.foldOf d h = some m →
      s.folds[m]? = some gm → gm.running = [] → s.legsTo f gm = [] → (f.next = some (d, h) ∨ s.legsClear n = true) →
      ∃ t v, exec (.chainFold n) s = .next t ∧ t.mem = s.mem ∧
        (t.folds[n]?).map (·.parts) = some (f.parts.drop fr.count) ∧
        (t.folds[m]?).map (·.running) = some [v] ∧
        ∀ l < 8, bits v (32 * l) 32 = sum (f.parts.take fr.count) l) ∧
    (s.folds[n]? = some f → fr.station = true → s.stationFull fr = true → f.member = some fr.receiver →
      (s.stationMembers fr)[fr.receiver]? = some (some n) → f.outs = [] → s.legsToSink f = [] →
      s.foldStream f = some (a, run) → (s.core f.core).fab.ags[a].page = none → s.foldWrite f result = .ok (t, [], fo) →
      ∃ z, exec (.stationFold n) s = .next z ∧ z.mem = t.mem ∧
        (z.folds[n]?).map (fun g => (g.parts, g.pos)) = some (f.parts.drop f.need, f.pos + fr.blk)) ∧
    (s.jobs[n]? = some j → (s.core j.core).agRun j.ag = some (run, cfg) → s.sluice[j.ctx] = some ctx → j.write = true →
      (s.jobs.take n).all (fun o => o.core ≠ j.core || o.ag ≠ j.ag) = true →
      (s.core j.core).fab.ags[j.ag].page = none → (s.core j.core).fab.ags[j.ag].dropped = [] → passed.fault = none →
      (∀ p ∈ passed.tokens.take j.tokens.length, p.2 = false) →
      (s.dropJob n).streamWrites j.core j.ag j.raw
        (sinkWrites (cfg.int ≠ 0) ((j.tokens.zip passed.tokens).map fun p => (p.1.1, p.2.1))) = (t, []) →
      ∃ z, exec (.sluiceLine n) s = .next z ∧ z.mem = t.mem ∧ z.jobs = s.jobs.eraseIdx n) ∧
    (s.crossings[n]? = some x → s.folds[x.fold]? = some f → x.buffer = tok :: rest → x.leg = 0 → s.portUp x.port = true →
      let left : Crossing :=
        { x with buffer := rest, credits := if fr.station then x.credits else x.credits + 1, movedAt := s.now }
      let committed : Fold := { f with parts := f.parts ++ f.pend.map (·.2.1), pend := [], rounds := f.rounds + 1 }
      (tok.kind = .data → ∃ z, exec (.tokenHop c (.crossing n)) s = .next z ∧ z.crossings[n]? = some left ∧
        z.folds[x.fold]? = some { f with pend := f.pend ++ [(tok.seq, tok.payload, tok.poison)] } ∧ z.mem = s.mem) ∧
      (tok.kind = .mark → f.member ≠ none → s.foldStream f = some (a, run) → (s.core f.core).fab.ags[a].dropped = [] →
        (∀ p ∈ f.pend, p.2.2 = false) →
        (fr.station = false ∨ f.pend = [] → ∃ z, exec (.tokenHop c (.crossing n)) s = .next z ∧
          z.crossings[n]? = some left ∧ z.folds[x.fold]? = some committed ∧ z.mem = s.mem) ∧
        (fr.station = true → f.pend ≠ [] → s.bufferWrite f (f.pend.map (·.2.1)) = .ok (t, []) →
          ∃ z, exec (.tokenHop c (.crossing n)) s = .next z ∧ z.crossings[n]? = some left ∧
            z.folds[x.fold]? = some committed ∧ z.mem = t.mem)))

/-! ### Writes performed, records, verdicts (R342, R357 to R359, R401, R434, R485) -/

/-- WRITE_PERFORM (R342, R485): a pending write that no older one of its core precedes at its bytes, in an unbound line that is
not poisoned, reaches memory, and nothing else does. COMPLETION_RECORD_WRITE (R358, R359): a due record whose slot is free goes
into the ring, its words become full, and the next one is numbered on. PAGE_REQUEST_VERDICT (R434, R436): the request is gone; a
pump that waits on it is freed to repeat its access, or takes fault 0x03 (where no `launch` waits on it for its doorbell word,
log 90); an id that is not outstanding changes nothing. PAGE_REQUEST_TIMEOUT: after 2^32 cycles the verdict is fail.
NOTIFY_REGISTER_WRITE (R401): in stage 4 the doorbell of a queue becomes the larger of itself and the value. (Of a queue that is
not mapped, or with no ring of firmware placed.) -/
def Obligations.WritesRecordsAndVerdicts : Prop :=
  ∀ (s : State) (i : Nat) (w : Pending) (n : Nat) (f : Flow) (due : DueRecord) (rest : List DueRecord) (ring : CoreId)
    (id : BitVec 32) (r : PageReq) (c : CoreId) (va : Word) (q : Queue) (v : Word) (dpa : Nat),
    let fl := f.rec_
    let slot := fl.ringOffset + 32 + 32 * (f.ringNext % fl.ringCount)
    let consumed := leNat ((s.core ring).cistern.read fl.ringOffset 8)
    let record := due.bytes f.ringNext (s.coreWord due.core)
    -- only pumps wait on the request
    let pumpsOnly :=
      (∀ (d : CoreId) (a : Fin 8) p, (s.core d).fab.ags[a].page = some p → p.1 ≠ id) ∧
      (∀ (d : CoreId) (j : Fin 8), (s.core d).fab.regions[j].page ≠ some id ∧
        ∀ y, (s.core d).fab.regions[j].due = some y → y.page ≠ some id) ∧
      (∀ (d : CoreId) (j : Fin 4) p, (s.core d).fab.planes[j].page = some p → p.1 ≠ id) ∧ (∀ x ∈ s.queues, x.page ≠ some id) ∧
      (∀ (e : Fin 4) (k : Fin 16) x, s.slotAt e k = some x → x.page ≠ some id) ∧ (∀ x ∈ s.flows, x.page ≠ some id)
    (s.mem.wf = true → s.pending[i]? = some w → w.bind = none → w.pa % 256 + w.bytes.length ≤ 256 →
      s.linePoisoned (lineOf w.pa) = false →
      (∀ o ∈ s.pending.take i, o.core = w.core → overlaps o.pa o.bytes.length w.pa w.bytes.length = false) →
      ∃ t, exec (.writePerform i) s = .next t ∧ t.pending = s.pending.eraseIdx i ∧ t.cores = s.cores ∧
        ∀ a, t.mem.get a = if w.pa ≤ a ∧ a < w.pa + w.bytes.length then w.bytes.getD (a - w.pa) 0 else s.mem.get a) ∧
    (s.flow? (BitVec.ofNat 32 n) = some f → f.due = due :: rest → f.cores[fl.ringCore]? = some ring → fl.ring = true →
      0 < fl.ringCount → f.ringNext < consumed + fl.ringCount → (s.core ring).cistern.wf = true →
      ∃ t, exec (.completionRecordWrite n) s = .next t ∧ t.mem = s.mem ∧
        (∀ b, (t.core ring).cistern.get b =
          if slot ≤ b ∧ b < slot + record.length then record.getD (b - slot) 0 else (s.core ring).cistern.get b) ∧
        (∀ x, x ∈ (t.core ring).full ↔ x ∈ (s.core ring).full ∨ x ∈ wordsOf slot 32) ∧
        t.flow? (BitVec.ofNat 32 n) = some { f with due := rest, ringNext := f.ringNext + 1 }) ∧
    ((∀ x ∈ s.requests, x.id ≠ id) → ∀ fail, exec (.pageRequestVerdict id fail) s = .next s) ∧
    (s.requests.find? (fun x => x.id = id) = some r → pumpsOnly → (s.pump c).page = some (id, va) →
      (∃ t, exec (.pageRequestVerdict id false) s = .next t ∧ t.requests = s.requests.filter (fun x => x.id ≠ id) ∧
        (t.pump c).page = none ∧ (t.pump c).pc = (s.pump c).pc ∧ (t.pump c).block = (s.pump c).block ∧
        ∀ x, (t.pump c).read x = (s.pump c).read x) ∧
      ((∀ d w, (s.pump d).page = some (id, w) → CanTrap (s.pump d) ∧ s.launchBell d w = none) →
        ∃ t, exec (.pageRequestVerdict id true) s = .next t ∧
        t.requests = s.requests.filter (fun x => x.id ≠ id) ∧
        Entered (s.pump c) (t.pump c) (precise 0x03 va) (s.pump c).pc)) ∧
    (s.requests.find? (fun x => x.id = id) = some r →
      exec (.pageRequestTimeout id) s =
        if 2 ^ 32 ≤ s.now - r.postedAt then exec (.pageRequestVerdict id true) s else .next s) ∧
    (s.queue? q.num.val = some q → s.stage = 4 → q.page = none → q.fresh = false →
      (s.mappedAt q.num.val = none ∨ ∀ j : Fin 3, (s.rings[j]).base = none) →
      s.translateIn q.space q.doorbell .rw = .at dpa → s.mem.wf = true → s.linePoisoned (lineOf dpa) = false → dpa % 8 = 0 →
      ∃ t, exec (.notifyRegisterWrite q.num v) s = .next t ∧ (t.wordAt dpa).toNat = max (s.wordAt dpa).toNat v.toNat ∧
        t.cores = s.cores ∧ ∀ x, (x < dpa ∨ dpa + 8 ≤ x) → t.mem.get x = s.mem.get x)

/-! ### Queues and flows (R25, R39, R403 to R410, R416, R417, R446) -/

/-- QUEUE_MAP (R403): the one unmapped queue of the die that has pending work takes the first free slot (the
model's choice, log 93), with its head's priority as base level. DEPENDENCE_POLL (R404, R406): a head that passes its checks
is ready once its dependences are met, and its slot has its level; one that fails puts its queue into the error state.
DISPATCH_DECISION (R39, R405, R407, R410): the picked record, with a placement offered for it, becomes the next flow, and each
of its cores stands at the entry of its image with the arguments, its rank and the group's size in g1 to g3; with more than
1,024 records waiting in firmware no decision is made. (What a decision finds is the state after the slots have been polled.) -/
def Obligations.RecordsAreMappedPolledAndDispatched : Prop :=
  ∀ (s : State) (d : Fin 4) (i : Fin 16) (q : Queue) (bs : List Byte) (x : Slot) (code : Code) (cs : List CoreId),
    let r := Record.of bs
    let m := (s.unmapStale d).unmapped d |>.foldl (fun s q => match s.queue? q.val with
      | some x => (s.doorbellPage x).readBell x
      | none => s) (s.unmapStale d)
    -- the doorbell word is read as an acquire (R474)
    let v := (s.slotAt d i).elim s fun y => s.readBellOf y.queue.val
    let u := (fins 16).foldl (fun s i => s.pollSlot d i) (s.unmapStale d)
    let hdr := u.bytesIn q.space r.image 160
    s.shut = false →
    ((m.unmapped d).filter m.mappable = [q.num] → (fins 16).find? (fun i => (m.slotAt d i).isNone) = some i →
      ∃ t, exec (.queueMap d) s = .next t ∧ t = orderedAs { m with houses := t.houses } t ∧ (t.houses[d]).lastMapped = q.num ∧
        (∀ e : Fin 4, e ≠ d → t.houses[e] = m.houses[e]) ∧ (∀ j, j ≠ i → t.slotAt d j = m.slotAt d j) ∧
        ∃ y, t.slotAt d i = some y ∧ y.queue = q.num ∧ y.base = (m.headOf q.num.val).prio ∧ y.effective = y.base ∧ y.passes = 0) ∧
    (s.slotAt d i = some x → x.page = none → v.headOf x.queue.val = .record bs → s.queue? x.queue.val = some q →
      (v.recordCheck q.space bs = .ok → ∃ t, exec (.dependencePoll d i) s = .next t ∧
        t = orderedAs { s with houses := t.houses } t ∧
        t.slotAt d i = some { x with
          base := r.prio
          effective := if x.base = r.prio then x.effective else r.prio
          passes := if x.base = r.prio then x.passes else 0
          ready := x.ready || r.deps.all fun e => match s.translateIn q.space e.1 .rd with
            | .at pa => e.2.toNat ≤ (leWord (v.houseBytes pa 8)).toNat
            | _ => false }) ∧
      (v.recordCheck q.space bs = .reject code → ∃ t, exec (.dependencePoll d i) s = .next t ∧ t.cores = s.cores ∧
        t.flows = s.flows ∧ (∀ y ∈ t.queues, y.num = x.queue → y.err = true ∧ y.code = code ∧ y.rejected = true))) ∧
    (s.ringsStuck = true → exec (.dispatchDecision d [cs]) s = .next s) ∧
    (s.ringsStuck = false → u.pickSlot d = some i → u.readyAt d i = some (.record q bs) → q.cluster = none →
      u.placeOk [] r (Fin.ofNat 4 (q.num.val / 64)) cs = true →
      ∃ t f, exec (.dispatchDecision d [cs]) s = .next t ∧ t.flows = u.flows ++ [f] ∧ f.num = u.nextFlow ∧ f.cores = cs ∧
        f.state = .running ∧ f.queue = q.num ∧ f.rec_ = r ∧ t.nextFlow = u.nextFlow + 1 ∧
        (t.queue? q.num.val).map (·.head) = some (q.head + 1) ∧
        ∀ k c, cs[k]? = some c →
          (t.pump c).run = .running ∧ (t.pump c).pc = r.image + BitVec.ofNat 64 (fieldAt hdr 0x08 8) ∧
          (t.pump c).flow = u.nextFlow ∧ (t.pump c).seed = r.seed ∧ (t.pump c).ht = false ∧ (t.pump c).tvec = 0 ∧
          ∀ y, (t.pump c).read y =
            if y = .g 1 then r.args else if y = .g 2 then BitVec.ofNat 64 k
            else if y = .g 3 then BitVec.ofNat 64 cs.length else 0)

/-- FLOW_RETIRE (R25, R410), PREEMPT_REQUEST (R416, R417), PREEMPT_SAVE_COMPLETE (R417, R418, R442, R464 to R467) and FATAL_END
(R446), for a flow that belongs to no cluster. A group with nothing left to do writes its completion word and is gone, its
cores as at reset; a victim of a pumphouse freezes, with `ypend` set and every register kept, but that a pump completes an
instruction which cannot be abandoned (that its pumps stop at the request itself is log 58); a group whose pumps and regions
stand still and whose save area can be written is saved and frees its cores: one block of each core is written, in the order of
ranks, and firmware keeps beside it what has no place there (log 16). A block holds the resume point and the pump's registers,
its handles, barrier counts, the deque, the full-empty bits and the cistern at their offsets. A group that a refused trap has
stopped ends with its code in the queue's status and its cores cleared, unless its record's page is absent. -/
def Obligations.FlowsRetireFreezeSaveAndEnd : Prop :=
  ∀ (s : State) (n : Nat) (f : Flow) (pa : Nat) (d : Fin 4) (i : Fin 16) (c : CoreId) (rank : Nat) (weir : Bool),
    let num := BitVec.ofNat 32 n
    -- a group that stands still, its committed writes performed
    let still := f.cores.foldl State.flushCore (s.stillAll f)
    -- the block of a core, written at its rank; that of rank 4j + 3 of a whole quad holds the Weir (R468)
    let written (v : State) (x : CoreId × Nat) : State :=
      { v with tick := v.tick + 0x40_0000 }.writeIn f.space (f.rec_.save + BitVec.ofNat 64 (0x40_0000 * x.2))
        (v.saveBlock x.1 ((s.groupWeirs f).contains (weirOf x.1) && x.2 % 4 = 3)) 0x4001
    let b := s.saveBlock c weir
    let p := s.pump c
    let at_ (o m : Nat) : Nat := fieldAt b o m
    let cleared (t : State) : Prop := ∀ c ∈ f.cores, t.pump c = Pump.reset ∧ (t.core c).cistern = [] ∧ (t.core c).deque = []
    -- the slots, which read anew what they wait for (R404), post no record into a ring in memory
    let quiet : Prop := (∀ e j, s.slotAt e j = none) ∨ ∀ j : Fin 3, (s.rings[j]).base = none
    -- what the pump of a core holds, its streams aside
    let bare (p : Pump) : Pump := { p with handles := Vector.replicate 64 none }
    s.shut = false → s.flow? num = some f → (∀ g ∈ s.flows, g.num = num → g = f) → f.cluster = none →
    (s.retirable f = true → (∀ w ∈ s.pending, w.core ∉ f.cores) →
      (f.rec_.completion = 0 → ∃ t, exec (.flowRetire n) s = .next t ∧ t.flow? num = none ∧ cleared t ∧
        (quiet → t.mem = s.mem)) ∧
      (f.rec_.completion ≠ 0 → s.translateIn f.space f.rec_.completion .wr = .at pa → s.mem.wf = true → pa % 8 = 0 →
        s.linePoisoned (lineOf pa) = false → quiet →
        ∃ t, exec (.flowRetire n) s = .next t ∧ t.flow? num = none ∧ cleared t ∧ t.wordAt pa = f.rec_.value ∧
          ∀ a, (a < pa ∨ pa + 8 ≤ a) → t.mem.get a = s.mem.get a)) ∧
    (num ∈ s.chosenVictims d i → f.state = .running → s.groupDone f = false → s.doomed f = false →
      ∃ t, exec (.preemptRequest n) s = .next t ∧ (t.flow? num).map (·.state) = some .freezing ∧ t.mem = s.mem ∧
        ∀ c ∈ f.cores, (t.pump c).ypend = true ∧
          (t.pump c).run = (if (s.pump c).run = .running ∧
              ((s.pump c).block = none ∨ (s.pump c).abandonable = true ∨ (s.pump c).page ≠ none)
            then .frozen else (s.pump c).run) ∧
          (t.pump c).pc = (s.pump c).pc ∧ ∀ y, (t.pump c).read y = (s.pump c).read y) ∧
    (f.state = .freezing → f.page = none → (∀ x ∈ s.nmas, x.core ∉ f.cores) → (∀ w ∈ s.pending, w.core ∉ f.cores) →
      f.fate = none → (∀ c ∈ f.cores, ((s.pump c).run = .frozen ∨ (s.pump c).run = .halted) ∧ s.stilled c = true) →
      still.saveStop f .wr = none →
      ∃ t g, exec (.preemptSaveComplete n) s = .next t ∧ t.flow? num = some g ∧ g.state = .saved ∧ g.cores = [] ∧
        ((s.rings[(1 : Fin 3)]).base = none → t.mem = (f.cores.zipIdx.foldl written still).mem) ∧
        (g.kept.map fun k => bare k.core.pump) = f.cores.map (fun c => bare (s.pump c)) ∧ g.rec_ = f.rec_ ∧ cleared t) ∧
    (f.state = .running → f.page = none → f.fate = none → (∀ x ∈ s.nmas, x.core ∉ f.cores) → s.fatalCore f = some (c, rank) →
      s.translateIn f.space (f.slotAddr rank) .wr ≠ .absent → f.orphan = false →
      ∃ t, exec (.fatalEnd n) s = .next t ∧ t.flow? num = none ∧ cleared t ∧
        ∀ q ∈ t.queues, q.num = f.queue → q.err = true ∧ q.code = (s.pump c).fatalBytes.1) ∧
    (b.length = 0x40_0000 ∧ at_ 0 4 = 0x5641_534A ∧ at_ 4 2 = 0x0300 ∧ at_ 6 1 = (if p.run = .halted then 3 else 1) ∧
      at_ 7 1 = (s.launch c).rank % 256 ∧ at_ 8 8 = p.pc.toNat ∧
      (∀ j : BitVec 6, at_ (0x40 + 8 * j.toNat) 8 = (p.read (.g j)).toNat) ∧
      (∀ j : BitVec 3, at_ (0x240 + 8 * j.toNat) 8 = (p.read (.k j)).toNat) ∧ at_ 0x280 8 = p.last.toNat ∧
      at_ 0x288 8 = p.savedLast.toNat ∧ at_ 0x290 8 = p.status.toNat ∧ at_ 0x298 8 = p.tvec.toNat ∧
      at_ 0x2A0 8 = p.tcause.word.toNat ∧ at_ 0x2A8 8 = p.tcause.tval.toNat ∧ at_ 0x2B0 8 = p.epc.toNat ∧
      at_ 0x2B8 8 = p.fflags.toNat ∧ at_ 0x2C0 8 = p.seed.toNat ∧
      (∀ j : Fin 16, at_ (0x2D0 + j.val) 1 = (p.q[j]).tag.code.toNat ∧ at_ (0x300 + 16 * j.val) 16 = (p.q[j]).val.toNat) ∧
      (∀ (j : Fin 64) x, p.handles[j] = some x →
        let o := 0x1000 + 64 * j.val
        at_ o 8 = x.base % 2 ^ 64 ∧ at_ (o + 8) 1 = x.slots % 256 ∧ at_ (o + 12) 4 = x.size % 2 ^ 32 ∧
          at_ (o + 0x10) 8 = x.fill % 2 ^ 64 ∧ at_ (o + 0x18) 8 = x.free % 2 ^ 64) ∧
      (∀ j : Fin 6, at_ (0x2100 + 8 * j.val) 4 = (p.bars[j]).arrivals.toNat ∧
        at_ (0x2104 + 8 * j.val) 4 = (p.bars[j]).waits.toNat) ∧
      at_ 0x3000 8 = (s.core c).deque.length % 2 ^ 64 ∧ at_ 0x3008 8 = (s.core c).spilled % 2 ^ 64 ∧
      (∀ j w, j < 504 → (s.core c).deque.reverse[j]? = some w → at_ (0x3040 + 8 * j) 8 = w.toNat) ∧
      (∀ j < 0x4_0000, at_ (0xB000 + j / 8) 1 / 2 ^ (j % 8) % 2 = 1 ↔ j ∈ (s.core c).full) ∧
      ∀ o < 0x20_0000, b[0x20_0000 + o]? = some ((s.core c).cistern.get o))

/-! ### The host (R22, R407, R437, R471 to R483) -/

/-- HOST_CAUSEWAY_ACCESS, CAUSEWAY_WRITE_IGNORED and RING_CONSUMER_WRITE (R471, R473, R474, R476). Within reach the host
reads the newest performed bytes of lines that are sound, and its writes reach memory at once and nothing else; an
address out of reach stops the model by name (the model's choice, log 81). Boot and mailbox status read by their layout; a
command is written while none is under way (that a write of it is ignored meanwhile is log 33); a go takes it and, while busy,
only sets overrun; a write to a register that cannot be written changes nothing; a consumer index lets waiting records go, and
with none waiting changes the index alone. -/
def Obligations.TheHostReadsAndWritesThroughTheWindow : Prop :=
  ∀ (s : State) (pa n off : Nat) (bytes : List Byte) (j : Fin 3) (v : Word),
    let host (a : HostAccess) : Instr := .hostCausewayAccess a
    let bit (b : Bool) (k : Nat) : Nat := if b then k else 0
    (s.hostRange pa n = true → (∀ l ∈ linesOf pa n, s.linePoisoned l = false) →
      ∃ t, exec (host (.readMem pa n)) s = .next t ∧ SeesMore s t ∧
        t = orderedAs { s with hostRead := s.mem.read pa n, tick := t.tick } t) ∧
    (s.hostRange pa n = false → exec (host (.readMem pa n)) s = .fault (.noSuchAddress pa)) ∧
    (s.hostRange pa bytes.length = false → exec (host (.writeMem pa bytes)) s = .fault (.noSuchAddress pa)) ∧
    (s.hostRange pa bytes.length = true → s.mem.wf = true → (∀ l ∈ linesOf pa bytes.length, s.linePoisoned l = false) →
      ∃ t, exec (host (.writeMem pa bytes)) s = .next t ∧ t.cores = s.cores ∧ t.pending = s.pending ∧
        ∀ a, t.mem.get a = if pa ≤ a ∧ a < pa + bytes.length then bytes.getD (a - pa) 0 else s.mem.get a) ∧
    exec (host (.readReg 0x1008)) s = .next { s with hostRead := [s.stage, s.bootErr, 0, 0, 0, 0, 0, 0] } ∧
    (∃ t, exec (host (.readReg 0x1088)) s = .next t ∧ t = { s with hostRead := t.hostRead } ∧
      leNat t.hostRead = s.mailbox.result.toNat + bit s.mailbox.busy 256 + bit s.mailbox.overrun 512) ∧
    (s.mailbox.busy = true → exec (host (.writeReg 0x1080 v)) s =
      .next { s with mailbox := { s.mailbox with overrun := true } }) ∧
    (s.mailbox.busy = false → s.stage = 4 → exec (host (.writeReg 0x1080 v)) s =
      .next { s with mailbox := { s.mailbox with busy := true } }) ∧
    (s.mailbox.busy = true → exec (host (.writeCommand off bytes)) s = .next s) ∧
    (s.mailbox.busy = false → 0x1040 ≤ off → off < 0x1080 → ∃ t, exec (host (.writeCommand off bytes)) s = .next t ∧
      t = { s with mailbox := { s.mailbox with command := t.mailbox.command } } ∧
      ∀ k, t.mailbox.command[k]? = if off - 0x1040 ≤ k ∧ k < s.mailbox.command.length ∧ k < off - 0x1040 + bytes.length
        then bytes[k - (off - 0x1040)]? else s.mailbox.command[k]?) ∧
    (windowWritable off = false → exec (.causewayWriteIgnored off v) s = .next s) ∧
    (s.mailbox.busy = true → exec (.causewayWriteIgnored 0x1080 v) s =
      .next { s with mailbox := { s.mailbox with overrun := true } }) ∧
    (∃ t, exec (.ringConsumerWrite j v) s = .next t ∧ t.cores = s.cores ∧ t.mailbox = s.mailbox ∧
      (t.rings[j]).consumer = v.toNat ∧
      ((∀ l, s.linePoisoned l = false) → ∀ i : Fin 3, i ≠ j → t.rings[i] = s.rings[i]) ∧
      ((s.rings[j]).waiting = [] → t = { s with rings := t.rings } ∧ t.rings[j] = { s.rings[j] with consumer := v.toNat }))

/-- The mailbox commands (R399, R416, R437, R439, R475, R481 to R483). A command that firmware holds in stage 4 and whose
operands keep their ranges has its effect, then result 0; with operands out of range it changes nothing and gives result
1; an unlisted one, or one that the stage does not admit, gives result 2. In each case busy and overrun clear. A queue is
created with its doorbell word 0; a package that joins a pod finds its memory under its new number; a quote holds the nonce,
the registers, the part's features and name, and a signature over them, and with a nonce of zeros it is the public key. An
invalidation stays under way until INVALIDATE_COMPLETE has dropped every cached entry and partial walk of its range; the
writes that an old translation has placed come first (log 91). -/
def Obligations.MailboxCommandsHaveTheirEffect : Prop :=
  ∀ (s : State) (q : Queue) (v : Invalidation) (pa : Nat),
    let m := s.mailbox
    let nonce := (m.command.drop 32).take 32
    -- `s.isa` and `s.feat0` to `s.feat3` behind the nonce and the registers (R482)
    let body := nonce ++ s.attest.toList.flatten ++ toLE 8 0x030300 ++ toLE 8 s.part.feat0.toNat ++ List.replicate 24 0 ++
      s.part.name
    let f (o n : Nat) : Nat := fieldAt m.command o n
    let held (code : Byte) : Prop := s.holds code = true
    let ended (t : State) (result : Byte) : Prop := t.mailbox = { m with busy := false, overrun := false, result := result }
    let runs (i : Instr) (P : State → Prop) : Prop := ∃ t, exec i s = .next t ∧ ended t 0 ∧ P t
    let i3 : Fin 3 := Fin.ofNat 3 (f 8 1)
    let i8 : Fin 8 := Fin.ofNat 8 (f 8 1)
    -- with its operands out of range
    (∀ i code ok, (i, code, ok) ∈ [(Instr.createQueue, (1 : Byte), s.createOk),
        (.destroyQueue, 2, m.clean [(8, 2)] && s.namesQueue),
        (.clearErrorState, 3, m.clean [(8, 2), (10, 1)] && s.namesQueue && f 10 1 ≤ 1),
        (.hostPreempt, 5, m.clean [(8, 4)]),
        (.setPowerCap, 10, m.clean [(8, 4)] && 600 ≤ f 8 4 && f 8 4 ≤ s.part.watts)] →
      held code → ok = false → ∃ t, exec i s = .next t ∧ ended t 1 ∧
        OnlyRecords { s with mailbox := t.mailbox } t) ∧
    (held 1 → s.createOk = true → runs .createQueue fun t =>
      t.queue? (f 8 2) = some { m.newQueue with fresh := (t.queue? (f 8 2)).elim true (·.fresh) } ∧
      t.spaces.find? (·.1 = m.newQueue.space) = some (m.newQueue.space, f 0x10 8) ∧ t.cores = s.cores ∧
      -- no record of firmware falls on the word, and its line is sound
      ((s.rings[(1 : Fin 3)]).base = none → s.mem.wf = true → s.linePoisoned (lineOf pa) = false → pa % 8 = 0 →
        { s with spaces := t.spaces }.translateIn m.newQueue.space m.newQueue.doorbell .rw = .at pa →
        t.wordAt pa = 0 ∧ ∀ a, (a < pa ∨ pa + 8 ≤ a) → t.mem.get a = s.mem.get a)) ∧
    (held 2 → m.clean [(8, 2)] = true → s.queue? (f 8 2) = some q → runs .destroyQueue fun t =>
      t.queue? (f 8 2) = none ∧ (∀ x ∈ s.queues, x.num.val ≠ f 8 2 → x ∈ t.queues) ∧ t.cores = s.cores ∧
      ∀ g ∈ t.flows, g.queue.val = f 8 2 → g.orphan = true) ∧
    (held 3 → m.clean [(8, 2), (10, 1)] = true → f 10 1 ≤ 1 → s.queue? (f 8 2) = some q → runs .clearErrorState fun t =>
      t.queue? (f 8 2) = some { q with
        err := false, code := 0, rejected := false
        head := if f 10 1 = 1 ∧ q.rejected = true then q.head + 1 else q.head } ∧ t.cores = s.cores) ∧
    (held 4 → s.invalidation = none → m.rangeOk = true → exec .invalidateRange s = .next { s with
      invalidation := some { space := BitVec.ofNat 8 (f 8 1), lo := f 0x10 8, hi := f 0x10 8 + f 0x18 8 } }) ∧
    (s.invalidation = some v → s.oldWrites v = false → ∃ t, exec .invalidateComplete s = .next t ∧ ended t 0 ∧
      t.invalidation = none ∧
      ∀ c : CoreId, t.core c = { s.core c with tlb := (t.core c).tlb, walks := (t.core c).walks } ∧
        (∀ e, e ∈ (t.core c).tlb ↔ e ∈ (s.core c).tlb ∧ ¬(e.space = v.space ∧ e.vbase < v.hi ∧ v.lo < e.vbase + e.size)) ∧
        ∀ e, e ∈ (t.core c).walks ↔
          e ∈ (s.core c).walks ∧ ¬(e.space = v.space ∧ e.vbase < v.hi ∧ v.lo < e.vbase + e.size)) ∧
    (held 5 → m.clean [(8, 4)] = true → runs .hostPreempt fun t => t.pending = s.pending ∧
      ∀ g, s.flow? (BitVec.ofNat 32 (f 8 4)) = some g → g.cluster = none → g.state = .running → s.groupDone g = false →
        s.doomed g = false → (t.flow? (BitVec.ofNat 32 (f 8 4))).map (·.state) = some .freezing) ∧
    (held 6 → m.clean [(8, 1), (10, 2), (16, 8)] = true → f 8 1 < 64 → f 10 2 < 2 ^ s.part.leveePorts → runs .joinPod fun t =>
      t.pkg.toNat = f 8 1 ∧ t.pod = some (BitVec.ofNat 64 (f 16 8), BitVec.ofNat 16 (f 10 2)) ∧
      (∀ c : CoreId, t.core c = { s.core c with fab := { (s.core c).fab with binds := (t.core c).fab.binds } }) ∧
      ((s.rings[(1 : Fin 3)]).base = none → s.mem.wf = true → ∀ a < 2 ^ 40,
        t.mem.get (f 8 1 * 2 ^ 40 + a) = s.mem.get (s.pkg.toNat * 2 ^ 40 + a))) ∧
    (held 7 → m.clean [(8, 1), (9, 1), (16, 8)] = true → f 8 1 < 3 → 4 ≤ f 9 1 → f 9 1 ≤ 16 → f 16 8 % 4096 = 0 →
      s.physOk (f 16 8) = true → s.physOk (f 16 8 + 32 * 2 ^ f 9 1 - 1) = true → (∀ i : Fin 3, (s.rings[i]).waiting = []) →
      runs .placeRing fun t => (t.rings[i3]).base = some (f 16 8) ∧ (t.rings[i3]).log2n = f 9 1 ∧
        (t.rings[i3]).consumer = 0 ∧ (i3 ≠ 1 → (∀ l, s.linePoisoned l = false) →
          (t.rings[i3]).producer = 0 ∧ (t.rings[i3]).seq = (s.rings[i3]).seq)) ∧
    (held 8 → m.clean [(8, 8), (32, 32)] = true → f 8 8 % 64 = 0 →
      s.hostRange (f 8 8) (s.quote nonce).length = true → runs .attestationQuote fun t =>
        t.cores = s.cores ∧ t.attest = s.attest ∧
        ((s.rings[(1 : Fin 3)]).base = none → s.mem.wf = true →
          (∀ l ∈ linesOf (f 8 8) (s.quote nonce).length, s.linePoisoned l = false) →
          ∀ a, t.mem.get a = if f 8 8 ≤ a ∧ a < f 8 8 + (s.quote nonce).length then (s.quote nonce).getD (a - f 8 8) 0
            else s.mem.get a)) ∧
    (nonce.all (· = 0) = true → s.quote nonce = fit 97 Config.identityPublic) ∧
    (nonce.all (· = 0) = false → s.quote nonce = body ++ fit 96 (Config.identitySign (Config.sha384 body))) ∧
    (held 9 → m.clean [(8, 1), (16, 48)] = true → 3 ≤ f 8 1 → f 8 1 ≤ 7 → runs .extendRegister fun t =>
      t.attest[i8] = fit 48 (Config.sha384 (s.attest[i8] ++ (m.command.drop 16).take 48)) ∧
      ∀ k : Fin 8, k ≠ i8 → t.attest[k] = s.attest[k]) ∧
    (held 10 → m.clean [(8, 4)] = true → 600 ≤ f 8 4 → f 8 4 ≤ s.part.watts → runs .setPowerCap fun t =>
      t.powerCap = f 8 4 ∧ t.cores = s.cores) ∧
    (m.busy = true →
      (m.command.headD 0 = 0 ∨ 11 < (m.command.headD 0).toNat ∨ (m.command.headD 0 = 11 ∧ s.stage ≠ 1 ∧ s.stage ≠ 0x0E) ∨
        (m.command.headD 0 ≠ 11 ∧ s.stage = 1)) →
      ∃ t, exec .unknownCommand s = .next t ∧ ended t 2 ∧ OnlyRecords { s with mailbox := t.mailbox } t)

/-- Bring-up and its events (R22, R407, R477 to R481, R483). Link training leads from stage 0 to stage 1; a verified
image is measured into registers 0 and 1 and starts firmware in stage 3, and a rejected one gives stage 0xE with its
error, in which another image is taken (that this is by the same command is log 39); stage 2 lies between. Firmware in stage 3
takes the defect map, measures it (in the form of log 45) into register 2 and opens stage 4, or stops in stage 0xF with the
failing unit. A device reset leaves every unit as at reset, with the cycle counters where they begin (log 89); that the clock,
the part and the host's memory stay is log 44, and that HBM reads blank then is log 5. A flit that is retried changes no token,
and a link that goes down is listed; throttling changes no value, and a shutdown stops every pump. -/
def Obligations.BringUpResetAndHeat : Prop :=
  ∀ (s : State) (defects : List Nat) (failing : Byte) (port : BitVec 16) (c : CoreId) (on : Bool),
    let m := s.mailbox
    let n := fieldAt m.command 8 8
    let taken := m.busy = true ∧ m.command.headD 0 = 11 ∧ (s.stage = 1 ∨ s.stage = 0x0E)
    let extended (t : State) (i : Fin 8) (d : List Byte) : Prop := t.attest[i] = fit 48 (Config.sha384 (s.attest[i] ++ d))
    (s.stage = 0 → exec .linkTrainingDone s = .next { s with stage := 1 }) ∧
    (s.stage ≠ 0 → exec .linkTrainingDone s = .next s) ∧
    (taken → m.clean [(8, 8)] = false → ∃ t, exec .bootImage s = .next t ∧ t.stage = s.stage ∧ t.attest = s.attest ∧
      t.mailbox = { m with busy := false, overrun := false, result := 1 }) ∧
    (taken → m.clean [(8, 8)] = true → exec .bootImage s = .next { s with stage := 2, bootErr := 0 }) ∧
    (m.busy = true → m.command.headD 0 = 11 → s.stage = 2 → ∃ t, exec .bootImage s = .next t ∧ t.cores = s.cores ∧
      t.mailbox = { m with busy := false, overrun := false, result := 0 } ∧
      match s.imageErr n with
      | some e => t.stage = 0x0E ∧ t.bootErr = e ∧ t.attest = s.attest
      | none => t.stage = 3 ∧ t.bootErr = 0 ∧ extended t 0 (Config.sha384 (s.imageBytes n)) ∧ extended t 1 Config.fusedKeyHash) ∧
    (s.stage = 3 → failing ≠ 0 → ∃ t, exec (.firmwareInitDone defects failing) s = .next t ∧
      t = { s with stage := 0x0F, bootErr := failing }) ∧
    (s.stage = 3 → failing = 0 → ∃ t, exec (.firmwareInitDone defects failing) s = .next t ∧ t.stage = 4 ∧
      extended t 2 (Config.sha384 (defects.map fun n => BitVec.ofNat 8 n)) ∧ t.cores = s.cores ∧
      (c.val < s.part.cores → (t.usable c = true ↔ defects.getD c.val 64 ≠ 0)) ∧
      (t.usable c = true → t.sitesOf c = min (defects.getD c.val 64) 64)) ∧
    (s.flitPort port = true → port ∉ s.linksDown →
      (∃ t, exec (.leveeFlitRetry port false) s = .next t ∧ t.cores = s.cores ∧ t.crossings = s.crossings ∧
        t.folds = s.folds ∧ t.linksDown = s.linksDown) ∧
      (∃ t, exec (.leveeFlitRetry port true) s = .next t ∧ t.linksDown = s.linksDown ++ [port] ∧
        (s.agsOn port = [] → t.cores = s.cores))) ∧
    (∃ t, exec .deviceReset s = .next t ∧ t.pump c = State.reset.pump c ∧
      t.cycleOf c = BitVec.ofNat 64 (Config.resetSkew c.val) ∧ t.queues = [] ∧ t.flows = [] ∧
      t.spaces = [] ∧ t.requests = [] ∧ t.stage = 0 ∧ t.attest = State.reset.attest ∧ t.part = s.part ∧ t.now = s.now ∧
      ∀ a, t.mem.get a = if a < 2 ^ 46 then Memory.blank else s.mem.get a) ∧
    (∃ t, exec (.thermalThrottle on) s = .next t ∧ t = { s with throttled := on }) ∧
    (s.shut = false → ∃ t, exec .thermalShutdown s = .next t ∧ t.shut = true ∧ t.cores = s.cores ∧ t.turn c = .rest)
end

