-- ==== Sys2Proof/Laws/State.lean ====
section
/-! SUPPORT. What each update of a state, a core or a pump leaves in each field: one small lemma per field, so that no
proof unfolds a record update. -/

namespace Sys2Proof.Machine

open Sys2Proof

/-! ### Vectors -/

@[simp] theorem getElem_setAt_self {α : Type} {n : Nat} (v : Vector α n) (i : Fin n) (a : α) : (setAt v i a)[i] = a := by
  simp [setAt]

theorem getElem_setAt_ne {α : Type} {n : Nat} (v : Vector α n) (i j : Fin n) (a : α) (h : j ≠ i) :
    (setAt v i a)[j] = v[j] := by
  have : i.val ≠ j.val := fun e => h (Fin.ext e.symm)
  simp [setAt, this]

/-! ### One core of a state -/

@[simp] theorem State.core_setCore_self (s : State) (c : CoreId) (k : Core) : (s.setCore c k).core c = k := by
  simp only [State.core, State.setCore]
  exact getElem_setAt_self _ _ _

theorem State.core_setCore_ne (s : State) (c d : CoreId) (k : Core) (h : d ≠ c) : (s.setCore c k).core d = s.core d := by
  simp only [State.core, State.setCore]
  exact getElem_setAt_ne _ _ _ _ h

@[simp] theorem State.core_modCore_self (s : State) (c : CoreId) (f : Core → Core) : (s.modCore c f).core c = f (s.core c) := by
  simp [State.modCore]

theorem State.core_modCore_ne (s : State) (c d : CoreId) (f : Core → Core) (h : d ≠ c) :
    (s.modCore c f).core d = s.core d := s.core_setCore_ne c d _ h

@[simp] theorem State.pump_modPump_self (s : State) (c : CoreId) (f : Pump → Pump) : (s.modPump c f).pump c = f (s.pump c) := by
  simp [State.pump, State.modPump]

theorem State.core_modPump_self (s : State) (c : CoreId) (f : Pump → Pump) :
    (s.modPump c f).core c = { s.core c with pump := f (s.pump c) } := by
  simp [State.pump, State.modPump]

theorem State.core_modPump_ne (s : State) (c d : CoreId) (f : Pump → Pump) (h : d ≠ c) :
    (s.modPump c f).core d = s.core d := s.core_modCore_ne c d _ h

theorem State.pump_modPump_ne (s : State) (c d : CoreId) (f : Pump → Pump) (h : d ≠ c) :
    (s.modPump c f).pump d = s.pump d := by
  simp only [State.pump, s.core_modPump_ne c d f h]

/-! ### The other fields of a state -/

@[simp] theorem State.setCore_part (s : State) (c : CoreId) (k : Core) : (s.setCore c k).part = s.part := rfl
@[simp] theorem State.setCore_now (s : State) (c : CoreId) (k : Core) : (s.setCore c k).now = s.now := rfl
@[simp] theorem State.setCore_agenda (s : State) (c : CoreId) (k : Core) : (s.setCore c k).agenda = s.agenda := rfl
@[simp] theorem State.setCore_cur (s : State) (c : CoreId) (k : Core) : (s.setCore c k).cur = s.cur := rfl
@[simp] theorem State.setCore_tick (s : State) (c : CoreId) (k : Core) : (s.setCore c k).tick = s.tick := rfl
@[simp] theorem State.setCore_lag (s : State) (c : CoreId) (k : Core) : (s.setCore c k).lag = s.lag := rfl
@[simp] theorem State.setCore_stale (s : State) (c : CoreId) (k : Core) : (s.setCore c k).stale = s.stale := rfl
@[simp] theorem State.setCore_serial (s : State) (c : CoreId) (k : Core) : (s.setCore c k).serial = s.serial := rfl
@[simp] theorem State.setCore_weirs (s : State) (c : CoreId) (k : Core) : (s.setCore c k).weirs = s.weirs := rfl
@[simp] theorem State.setCore_mem (s : State) (c : CoreId) (k : Core) : (s.setCore c k).mem = s.mem := rfl
@[simp] theorem State.setCore_codes (s : State) (c : CoreId) (k : Core) : (s.setCore c k).codes = s.codes := rfl
@[simp] theorem State.setCore_badMeta (s : State) (c : CoreId) (k : Core) : (s.setCore c k).badMeta = s.badMeta := rfl
@[simp] theorem State.setCore_badData (s : State) (c : CoreId) (k : Core) : (s.setCore c k).badData = s.badData := rfl
@[simp] theorem State.setCore_releases (s : State) (c : CoreId) (k : Core) : (s.setCore c k).releases = s.releases := rfl
@[simp] theorem State.setCore_recent (s : State) (c : CoreId) (k : Core) : (s.setCore c k).recent = s.recent := rfl
@[simp] theorem State.setCore_badCache (s : State) (c : CoreId) (k : Core) : (s.setCore c k).badCache = s.badCache := rfl
@[simp] theorem State.setCore_rawByNma (s : State) (c : CoreId) (k : Core) : (s.setCore c k).rawByNma = s.rawByNma := rfl
@[simp] theorem State.setCore_pending (s : State) (c : CoreId) (k : Core) : (s.setCore c k).pending = s.pending := rfl
@[simp] theorem State.setCore_nmas (s : State) (c : CoreId) (k : Core) : (s.setCore c k).nmas = s.nmas := rfl
@[simp] theorem State.setCore_sluice (s : State) (c : CoreId) (k : Core) : (s.setCore c k).sluice = s.sluice := rfl
@[simp] theorem State.setCore_jobs (s : State) (c : CoreId) (k : Core) : (s.setCore c k).jobs = s.jobs := rfl
@[simp] theorem State.setCore_folds (s : State) (c : CoreId) (k : Core) : (s.setCore c k).folds = s.folds := rfl
@[simp] theorem State.setCore_crossings (s : State) (c : CoreId) (k : Core) : (s.setCore c k).crossings = s.crossings := rfl
@[simp] theorem State.setCore_spaces (s : State) (c : CoreId) (k : Core) : (s.setCore c k).spaces = s.spaces := rfl
@[simp] theorem State.setCore_queues (s : State) (c : CoreId) (k : Core) : (s.setCore c k).queues = s.queues := rfl
@[simp] theorem State.setCore_flows (s : State) (c : CoreId) (k : Core) : (s.setCore c k).flows = s.flows := rfl
@[simp] theorem State.setCore_nextFlow (s : State) (c : CoreId) (k : Core) : (s.setCore c k).nextFlow = s.nextFlow := rfl
@[simp] theorem State.setCore_nextOrder (s : State) (c : CoreId) (k : Core) : (s.setCore c k).nextOrder = s.nextOrder := rfl
@[simp] theorem State.setCore_houses (s : State) (c : CoreId) (k : Core) : (s.setCore c k).houses = s.houses := rfl
@[simp] theorem State.setCore_badCores (s : State) (c : CoreId) (k : Core) : (s.setCore c k).badCores = s.badCores := rfl
@[simp] theorem State.setCore_siteCount (s : State) (c : CoreId) (k : Core) : (s.setCore c k).siteCount = s.siteCount := rfl
@[simp] theorem State.setCore_requests (s : State) (c : CoreId) (k : Core) : (s.setCore c k).requests = s.requests := rfl
@[simp] theorem State.setCore_nextRequest (s : State) (c : CoreId) (k : Core) : (s.setCore c k).nextRequest = s.nextRequest := rfl
@[simp] theorem State.setCore_rings (s : State) (c : CoreId) (k : Core) : (s.setCore c k).rings = s.rings := rfl
@[simp] theorem State.setCore_mailbox (s : State) (c : CoreId) (k : Core) : (s.setCore c k).mailbox = s.mailbox := rfl
@[simp] theorem State.setCore_hostRead (s : State) (c : CoreId) (k : Core) : (s.setCore c k).hostRead = s.hostRead := rfl
@[simp] theorem State.setCore_stage (s : State) (c : CoreId) (k : Core) : (s.setCore c k).stage = s.stage := rfl
@[simp] theorem State.setCore_bootErr (s : State) (c : CoreId) (k : Core) : (s.setCore c k).bootErr = s.bootErr := rfl
@[simp] theorem State.setCore_attest (s : State) (c : CoreId) (k : Core) : (s.setCore c k).attest = s.attest := rfl
@[simp] theorem State.setCore_pkg (s : State) (c : CoreId) (k : Core) : (s.setCore c k).pkg = s.pkg := rfl
@[simp] theorem State.setCore_pod (s : State) (c : CoreId) (k : Core) : (s.setCore c k).pod = s.pod := rfl
@[simp] theorem State.setCore_linksDown (s : State) (c : CoreId) (k : Core) : (s.setCore c k).linksDown = s.linksDown := rfl
@[simp] theorem State.setCore_invalidation (s : State) (c : CoreId) (k : Core) : (s.setCore c k).invalidation = s.invalidation := rfl
@[simp] theorem State.setCore_coalesced (s : State) (c : CoreId) (k : Core) : (s.setCore c k).coalesced = s.coalesced := rfl
@[simp] theorem State.setCore_powerCap (s : State) (c : CoreId) (k : Core) : (s.setCore c k).powerCap = s.powerCap := rfl
@[simp] theorem State.setCore_throttled (s : State) (c : CoreId) (k : Core) : (s.setCore c k).throttled = s.throttled := rfl
@[simp] theorem State.setCore_shut (s : State) (c : CoreId) (k : Core) : (s.setCore c k).shut = s.shut := rfl
@[simp] theorem State.modCore_part (s : State) (c : CoreId) (f : Core → Core) : (s.modCore c f).part = s.part := rfl
@[simp] theorem State.modCore_now (s : State) (c : CoreId) (f : Core → Core) : (s.modCore c f).now = s.now := rfl
@[simp] theorem State.modCore_agenda (s : State) (c : CoreId) (f : Core → Core) : (s.modCore c f).agenda = s.agenda := rfl
@[simp] theorem State.modCore_cur (s : State) (c : CoreId) (f : Core → Core) : (s.modCore c f).cur = s.cur := rfl
@[simp] theorem State.modCore_tick (s : State) (c : CoreId) (f : Core → Core) : (s.modCore c f).tick = s.tick := rfl
@[simp] theorem State.modCore_lag (s : State) (c : CoreId) (f : Core → Core) : (s.modCore c f).lag = s.lag := rfl
@[simp] theorem State.modCore_stale (s : State) (c : CoreId) (f : Core → Core) : (s.modCore c f).stale = s.stale := rfl
@[simp] theorem State.modCore_serial (s : State) (c : CoreId) (f : Core → Core) : (s.modCore c f).serial = s.serial := rfl
@[simp] theorem State.modCore_weirs (s : State) (c : CoreId) (f : Core → Core) : (s.modCore c f).weirs = s.weirs := rfl
@[simp] theorem State.modCore_mem (s : State) (c : CoreId) (f : Core → Core) : (s.modCore c f).mem = s.mem := rfl
@[simp] theorem State.modCore_codes (s : State) (c : CoreId) (f : Core → Core) : (s.modCore c f).codes = s.codes := rfl
@[simp] theorem State.modCore_badMeta (s : State) (c : CoreId) (f : Core → Core) : (s.modCore c f).badMeta = s.badMeta := rfl
@[simp] theorem State.modCore_badData (s : State) (c : CoreId) (f : Core → Core) : (s.modCore c f).badData = s.badData := rfl
@[simp] theorem State.modCore_releases (s : State) (c : CoreId) (f : Core → Core) : (s.modCore c f).releases = s.releases := rfl
@[simp] theorem State.modCore_recent (s : State) (c : CoreId) (f : Core → Core) : (s.modCore c f).recent = s.recent := rfl
@[simp] theorem State.modCore_badCache (s : State) (c : CoreId) (f : Core → Core) : (s.modCore c f).badCache = s.badCache := rfl
@[simp] theorem State.modCore_rawByNma (s : State) (c : CoreId) (f : Core → Core) : (s.modCore c f).rawByNma = s.rawByNma := rfl
@[simp] theorem State.modCore_pending (s : State) (c : CoreId) (f : Core → Core) : (s.modCore c f).pending = s.pending := rfl
@[simp] theorem State.modCore_nmas (s : State) (c : CoreId) (f : Core → Core) : (s.modCore c f).nmas = s.nmas := rfl
@[simp] theorem State.modCore_sluice (s : State) (c : CoreId) (f : Core → Core) : (s.modCore c f).sluice = s.sluice := rfl
@[simp] theorem State.modCore_jobs (s : State) (c : CoreId) (f : Core → Core) : (s.modCore c f).jobs = s.jobs := rfl
@[simp] theorem State.modCore_folds (s : State) (c : CoreId) (f : Core → Core) : (s.modCore c f).folds = s.folds := rfl
@[simp] theorem State.modCore_crossings (s : State) (c : CoreId) (f : Core → Core) : (s.modCore c f).crossings = s.crossings := rfl
@[simp] theorem State.modCore_spaces (s : State) (c : CoreId) (f : Core → Core) : (s.modCore c f).spaces = s.spaces := rfl
@[simp] theorem State.modCore_queues (s : State) (c : CoreId) (f : Core → Core) : (s.modCore c f).queues = s.queues := rfl
@[simp] theorem State.modCore_flows (s : State) (c : CoreId) (f : Core → Core) : (s.modCore c f).flows = s.flows := rfl
@[simp] theorem State.modCore_nextFlow (s : State) (c : CoreId) (f : Core → Core) : (s.modCore c f).nextFlow = s.nextFlow := rfl
@[simp] theorem State.modCore_nextOrder (s : State) (c : CoreId) (f : Core → Core) : (s.modCore c f).nextOrder = s.nextOrder := rfl
@[simp] theorem State.modCore_houses (s : State) (c : CoreId) (f : Core → Core) : (s.modCore c f).houses = s.houses := rfl
@[simp] theorem State.modCore_badCores (s : State) (c : CoreId) (f : Core → Core) : (s.modCore c f).badCores = s.badCores := rfl
@[simp] theorem State.modCore_siteCount (s : State) (c : CoreId) (f : Core → Core) : (s.modCore c f).siteCount = s.siteCount := rfl
@[simp] theorem State.modCore_requests (s : State) (c : CoreId) (f : Core → Core) : (s.modCore c f).requests = s.requests := rfl
@[simp] theorem State.modCore_nextRequest (s : State) (c : CoreId) (f : Core → Core) : (s.modCore c f).nextRequest = s.nextRequest := rfl
@[simp] theorem State.modCore_rings (s : State) (c : CoreId) (f : Core → Core) : (s.modCore c f).rings = s.rings := rfl
@[simp] theorem State.modCore_mailbox (s : State) (c : CoreId) (f : Core → Core) : (s.modCore c f).mailbox = s.mailbox := rfl
@[simp] theorem State.modCore_hostRead (s : State) (c : CoreId) (f : Core → Core) : (s.modCore c f).hostRead = s.hostRead := rfl
@[simp] theorem State.modCore_stage (s : State) (c : CoreId) (f : Core → Core) : (s.modCore c f).stage = s.stage := rfl
@[simp] theorem State.modCore_bootErr (s : State) (c : CoreId) (f : Core → Core) : (s.modCore c f).bootErr = s.bootErr := rfl
@[simp] theorem State.modCore_attest (s : State) (c : CoreId) (f : Core → Core) : (s.modCore c f).attest = s.attest := rfl
@[simp] theorem State.modCore_pkg (s : State) (c : CoreId) (f : Core → Core) : (s.modCore c f).pkg = s.pkg := rfl
@[simp] theorem State.modCore_pod (s : State) (c : CoreId) (f : Core → Core) : (s.modCore c f).pod = s.pod := rfl
@[simp] theorem State.modCore_linksDown (s : State) (c : CoreId) (f : Core → Core) : (s.modCore c f).linksDown = s.linksDown := rfl
@[simp] theorem State.modCore_invalidation (s : State) (c : CoreId) (f : Core → Core) : (s.modCore c f).invalidation = s.invalidation := rfl
@[simp] theorem State.modCore_coalesced (s : State) (c : CoreId) (f : Core → Core) : (s.modCore c f).coalesced = s.coalesced := rfl
@[simp] theorem State.modCore_powerCap (s : State) (c : CoreId) (f : Core → Core) : (s.modCore c f).powerCap = s.powerCap := rfl
@[simp] theorem State.modCore_throttled (s : State) (c : CoreId) (f : Core → Core) : (s.modCore c f).throttled = s.throttled := rfl
@[simp] theorem State.modCore_shut (s : State) (c : CoreId) (f : Core → Core) : (s.modCore c f).shut = s.shut := rfl
@[simp] theorem State.modPump_part (s : State) (c : CoreId) (f : Pump → Pump) : (s.modPump c f).part = s.part := rfl
@[simp] theorem State.modPump_now (s : State) (c : CoreId) (f : Pump → Pump) : (s.modPump c f).now = s.now := rfl
@[simp] theorem State.modPump_agenda (s : State) (c : CoreId) (f : Pump → Pump) : (s.modPump c f).agenda = s.agenda := rfl
@[simp] theorem State.modPump_cur (s : State) (c : CoreId) (f : Pump → Pump) : (s.modPump c f).cur = s.cur := rfl
@[simp] theorem State.modPump_tick (s : State) (c : CoreId) (f : Pump → Pump) : (s.modPump c f).tick = s.tick := rfl
@[simp] theorem State.modPump_lag (s : State) (c : CoreId) (f : Pump → Pump) : (s.modPump c f).lag = s.lag := rfl
@[simp] theorem State.modPump_stale (s : State) (c : CoreId) (f : Pump → Pump) : (s.modPump c f).stale = s.stale := rfl
@[simp] theorem State.modPump_serial (s : State) (c : CoreId) (f : Pump → Pump) : (s.modPump c f).serial = s.serial := rfl
@[simp] theorem State.modPump_weirs (s : State) (c : CoreId) (f : Pump → Pump) : (s.modPump c f).weirs = s.weirs := rfl
@[simp] theorem State.modPump_mem (s : State) (c : CoreId) (f : Pump → Pump) : (s.modPump c f).mem = s.mem := rfl
@[simp] theorem State.modPump_codes (s : State) (c : CoreId) (f : Pump → Pump) : (s.modPump c f).codes = s.codes := rfl
@[simp] theorem State.modPump_badMeta (s : State) (c : CoreId) (f : Pump → Pump) : (s.modPump c f).badMeta = s.badMeta := rfl
@[simp] theorem State.modPump_badData (s : State) (c : CoreId) (f : Pump → Pump) : (s.modPump c f).badData = s.badData := rfl
@[simp] theorem State.modPump_releases (s : State) (c : CoreId) (f : Pump → Pump) : (s.modPump c f).releases = s.releases := rfl
@[simp] theorem State.modPump_recent (s : State) (c : CoreId) (f : Pump → Pump) : (s.modPump c f).recent = s.recent := rfl
@[simp] theorem State.modPump_badCache (s : State) (c : CoreId) (f : Pump → Pump) : (s.modPump c f).badCache = s.badCache := rfl
@[simp] theorem State.modPump_rawByNma (s : State) (c : CoreId) (f : Pump → Pump) : (s.modPump c f).rawByNma = s.rawByNma := rfl
@[simp] theorem State.modPump_pending (s : State) (c : CoreId) (f : Pump → Pump) : (s.modPump c f).pending = s.pending := rfl
@[simp] theorem State.modPump_nmas (s : State) (c : CoreId) (f : Pump → Pump) : (s.modPump c f).nmas = s.nmas := rfl
@[simp] theorem State.modPump_sluice (s : State) (c : CoreId) (f : Pump → Pump) : (s.modPump c f).sluice = s.sluice := rfl
@[simp] theorem State.modPump_jobs (s : State) (c : CoreId) (f : Pump → Pump) : (s.modPump c f).jobs = s.jobs := rfl
@[simp] theorem State.modPump_folds (s : State) (c : CoreId) (f : Pump → Pump) : (s.modPump c f).folds = s.folds := rfl
@[simp] theorem State.modPump_crossings (s : State) (c : CoreId) (f : Pump → Pump) : (s.modPump c f).crossings = s.crossings := rfl
@[simp] theorem State.modPump_spaces (s : State) (c : CoreId) (f : Pump → Pump) : (s.modPump c f).spaces = s.spaces := rfl
@[simp] theorem State.modPump_queues (s : State) (c : CoreId) (f : Pump → Pump) : (s.modPump c f).queues = s.queues := rfl
@[simp] theorem State.modPump_flows (s : State) (c : CoreId) (f : Pump → Pump) : (s.modPump c f).flows = s.flows := rfl
@[simp] theorem State.modPump_nextFlow (s : State) (c : CoreId) (f : Pump → Pump) : (s.modPump c f).nextFlow = s.nextFlow := rfl
@[simp] theorem State.modPump_nextOrder (s : State) (c : CoreId) (f : Pump → Pump) : (s.modPump c f).nextOrder = s.nextOrder := rfl
@[simp] theorem State.modPump_houses (s : State) (c : CoreId) (f : Pump → Pump) : (s.modPump c f).houses = s.houses := rfl
@[simp] theorem State.modPump_badCores (s : State) (c : CoreId) (f : Pump → Pump) : (s.modPump c f).badCores = s.badCores := rfl
@[simp] theorem State.modPump_siteCount (s : State) (c : CoreId) (f : Pump → Pump) : (s.modPump c f).siteCount = s.siteCount := rfl
@[simp] theorem State.modPump_requests (s : State) (c : CoreId) (f : Pump → Pump) : (s.modPump c f).requests = s.requests := rfl
@[simp] theorem State.modPump_nextRequest (s : State) (c : CoreId) (f : Pump → Pump) : (s.modPump c f).nextRequest = s.nextRequest := rfl
@[simp] theorem State.modPump_rings (s : State) (c : CoreId) (f : Pump → Pump) : (s.modPump c f).rings = s.rings := rfl
@[simp] theorem State.modPump_mailbox (s : State) (c : CoreId) (f : Pump → Pump) : (s.modPump c f).mailbox = s.mailbox := rfl
@[simp] theorem State.modPump_hostRead (s : State) (c : CoreId) (f : Pump → Pump) : (s.modPump c f).hostRead = s.hostRead := rfl
@[simp] theorem State.modPump_stage (s : State) (c : CoreId) (f : Pump → Pump) : (s.modPump c f).stage = s.stage := rfl
@[simp] theorem State.modPump_bootErr (s : State) (c : CoreId) (f : Pump → Pump) : (s.modPump c f).bootErr = s.bootErr := rfl
@[simp] theorem State.modPump_attest (s : State) (c : CoreId) (f : Pump → Pump) : (s.modPump c f).attest = s.attest := rfl
@[simp] theorem State.modPump_pkg (s : State) (c : CoreId) (f : Pump → Pump) : (s.modPump c f).pkg = s.pkg := rfl
@[simp] theorem State.modPump_pod (s : State) (c : CoreId) (f : Pump → Pump) : (s.modPump c f).pod = s.pod := rfl
@[simp] theorem State.modPump_linksDown (s : State) (c : CoreId) (f : Pump → Pump) : (s.modPump c f).linksDown = s.linksDown := rfl
@[simp] theorem State.modPump_invalidation (s : State) (c : CoreId) (f : Pump → Pump) : (s.modPump c f).invalidation = s.invalidation := rfl
@[simp] theorem State.modPump_coalesced (s : State) (c : CoreId) (f : Pump → Pump) : (s.modPump c f).coalesced = s.coalesced := rfl
@[simp] theorem State.modPump_powerCap (s : State) (c : CoreId) (f : Pump → Pump) : (s.modPump c f).powerCap = s.powerCap := rfl
@[simp] theorem State.modPump_throttled (s : State) (c : CoreId) (f : Pump → Pump) : (s.modPump c f).throttled = s.throttled := rfl
@[simp] theorem State.modPump_shut (s : State) (c : CoreId) (f : Pump → Pump) : (s.modPump c f).shut = s.shut := rfl
@[simp] theorem State.modFab_part (s : State) (c : CoreId) (f : Fabric → Fabric) : (s.modFab c f).part = s.part := rfl
@[simp] theorem State.modFab_now (s : State) (c : CoreId) (f : Fabric → Fabric) : (s.modFab c f).now = s.now := rfl
@[simp] theorem State.modFab_agenda (s : State) (c : CoreId) (f : Fabric → Fabric) : (s.modFab c f).agenda = s.agenda := rfl
@[simp] theorem State.modFab_cur (s : State) (c : CoreId) (f : Fabric → Fabric) : (s.modFab c f).cur = s.cur := rfl
@[simp] theorem State.modFab_tick (s : State) (c : CoreId) (f : Fabric → Fabric) : (s.modFab c f).tick = s.tick := rfl
@[simp] theorem State.modFab_lag (s : State) (c : CoreId) (f : Fabric → Fabric) : (s.modFab c f).lag = s.lag := rfl
@[simp] theorem State.modFab_stale (s : State) (c : CoreId) (f : Fabric → Fabric) : (s.modFab c f).stale = s.stale := rfl
@[simp] theorem State.modFab_serial (s : State) (c : CoreId) (f : Fabric → Fabric) : (s.modFab c f).serial = s.serial := rfl
@[simp] theorem State.modFab_weirs (s : State) (c : CoreId) (f : Fabric → Fabric) : (s.modFab c f).weirs = s.weirs := rfl
@[simp] theorem State.modFab_mem (s : State) (c : CoreId) (f : Fabric → Fabric) : (s.modFab c f).mem = s.mem := rfl
@[simp] theorem State.modFab_codes (s : State) (c : CoreId) (f : Fabric → Fabric) : (s.modFab c f).codes = s.codes := rfl
@[simp] theorem State.modFab_badMeta (s : State) (c : CoreId) (f : Fabric → Fabric) : (s.modFab c f).badMeta = s.badMeta := rfl
@[simp] theorem State.modFab_badData (s : State) (c : CoreId) (f : Fabric → Fabric) : (s.modFab c f).badData = s.badData := rfl
@[simp] theorem State.modFab_releases (s : State) (c : CoreId) (f : Fabric → Fabric) : (s.modFab c f).releases = s.releases := rfl
@[simp] theorem State.modFab_recent (s : State) (c : CoreId) (f : Fabric → Fabric) : (s.modFab c f).recent = s.recent := rfl
@[simp] theorem State.modFab_badCache (s : State) (c : CoreId) (f : Fabric → Fabric) : (s.modFab c f).badCache = s.badCache := rfl
@[simp] theorem State.modFab_rawByNma (s : State) (c : CoreId) (f : Fabric → Fabric) : (s.modFab c f).rawByNma = s.rawByNma := rfl
@[simp] theorem State.modFab_pending (s : State) (c : CoreId) (f : Fabric → Fabric) : (s.modFab c f).pending = s.pending := rfl
@[simp] theorem State.modFab_nmas (s : State) (c : CoreId) (f : Fabric → Fabric) : (s.modFab c f).nmas = s.nmas := rfl
@[simp] theorem State.modFab_sluice (s : State) (c : CoreId) (f : Fabric → Fabric) : (s.modFab c f).sluice = s.sluice := rfl
@[simp] theorem State.modFab_jobs (s : State) (c : CoreId) (f : Fabric → Fabric) : (s.modFab c f).jobs = s.jobs := rfl
@[simp] theorem State.modFab_folds (s : State) (c : CoreId) (f : Fabric → Fabric) : (s.modFab c f).folds = s.folds := rfl
@[simp] theorem State.modFab_crossings (s : State) (c : CoreId) (f : Fabric → Fabric) : (s.modFab c f).crossings = s.crossings := rfl
@[simp] theorem State.modFab_spaces (s : State) (c : CoreId) (f : Fabric → Fabric) : (s.modFab c f).spaces = s.spaces := rfl
@[simp] theorem State.modFab_queues (s : State) (c : CoreId) (f : Fabric → Fabric) : (s.modFab c f).queues = s.queues := rfl
@[simp] theorem State.modFab_flows (s : State) (c : CoreId) (f : Fabric → Fabric) : (s.modFab c f).flows = s.flows := rfl
@[simp] theorem State.modFab_nextFlow (s : State) (c : CoreId) (f : Fabric → Fabric) : (s.modFab c f).nextFlow = s.nextFlow := rfl
@[simp] theorem State.modFab_nextOrder (s : State) (c : CoreId) (f : Fabric → Fabric) : (s.modFab c f).nextOrder = s.nextOrder := rfl
@[simp] theorem State.modFab_houses (s : State) (c : CoreId) (f : Fabric → Fabric) : (s.modFab c f).houses = s.houses := rfl
@[simp] theorem State.modFab_badCores (s : State) (c : CoreId) (f : Fabric → Fabric) : (s.modFab c f).badCores = s.badCores := rfl
@[simp] theorem State.modFab_siteCount (s : State) (c : CoreId) (f : Fabric → Fabric) : (s.modFab c f).siteCount = s.siteCount := rfl
@[simp] theorem State.modFab_requests (s : State) (c : CoreId) (f : Fabric → Fabric) : (s.modFab c f).requests = s.requests := rfl
@[simp] theorem State.modFab_nextRequest (s : State) (c : CoreId) (f : Fabric → Fabric) : (s.modFab c f).nextRequest = s.nextRequest := rfl
@[simp] theorem State.modFab_rings (s : State) (c : CoreId) (f : Fabric → Fabric) : (s.modFab c f).rings = s.rings := rfl
@[simp] theorem State.modFab_mailbox (s : State) (c : CoreId) (f : Fabric → Fabric) : (s.modFab c f).mailbox = s.mailbox := rfl
@[simp] theorem State.modFab_hostRead (s : State) (c : CoreId) (f : Fabric → Fabric) : (s.modFab c f).hostRead = s.hostRead := rfl
@[simp] theorem State.modFab_stage (s : State) (c : CoreId) (f : Fabric → Fabric) : (s.modFab c f).stage = s.stage := rfl
@[simp] theorem State.modFab_bootErr (s : State) (c : CoreId) (f : Fabric → Fabric) : (s.modFab c f).bootErr = s.bootErr := rfl
@[simp] theorem State.modFab_attest (s : State) (c : CoreId) (f : Fabric → Fabric) : (s.modFab c f).attest = s.attest := rfl
@[simp] theorem State.modFab_pkg (s : State) (c : CoreId) (f : Fabric → Fabric) : (s.modFab c f).pkg = s.pkg := rfl
@[simp] theorem State.modFab_pod (s : State) (c : CoreId) (f : Fabric → Fabric) : (s.modFab c f).pod = s.pod := rfl
@[simp] theorem State.modFab_linksDown (s : State) (c : CoreId) (f : Fabric → Fabric) : (s.modFab c f).linksDown = s.linksDown := rfl
@[simp] theorem State.modFab_invalidation (s : State) (c : CoreId) (f : Fabric → Fabric) : (s.modFab c f).invalidation = s.invalidation := rfl
@[simp] theorem State.modFab_coalesced (s : State) (c : CoreId) (f : Fabric → Fabric) : (s.modFab c f).coalesced = s.coalesced := rfl
@[simp] theorem State.modFab_powerCap (s : State) (c : CoreId) (f : Fabric → Fabric) : (s.modFab c f).powerCap = s.powerCap := rfl
@[simp] theorem State.modFab_throttled (s : State) (c : CoreId) (f : Fabric → Fabric) : (s.modFab c f).throttled = s.throttled := rfl
@[simp] theorem State.modFab_shut (s : State) (c : CoreId) (f : Fabric → Fabric) : (s.modFab c f).shut = s.shut := rfl
@[simp] theorem State.modQueue_part (s : State) (q : Nat) (f : Queue → Queue) : (s.modQueue q f).part = s.part := rfl
@[simp] theorem State.modQueue_now (s : State) (q : Nat) (f : Queue → Queue) : (s.modQueue q f).now = s.now := rfl
@[simp] theorem State.modQueue_agenda (s : State) (q : Nat) (f : Queue → Queue) : (s.modQueue q f).agenda = s.agenda := rfl
@[simp] theorem State.modQueue_cur (s : State) (q : Nat) (f : Queue → Queue) : (s.modQueue q f).cur = s.cur := rfl
@[simp] theorem State.modQueue_tick (s : State) (q : Nat) (f : Queue → Queue) : (s.modQueue q f).tick = s.tick := rfl
@[simp] theorem State.modQueue_lag (s : State) (q : Nat) (f : Queue → Queue) : (s.modQueue q f).lag = s.lag := rfl
@[simp] theorem State.modQueue_stale (s : State) (q : Nat) (f : Queue → Queue) : (s.modQueue q f).stale = s.stale := rfl
@[simp] theorem State.modQueue_serial (s : State) (q : Nat) (f : Queue → Queue) : (s.modQueue q f).serial = s.serial := rfl
@[simp] theorem State.modQueue_cores (s : State) (q : Nat) (f : Queue → Queue) : (s.modQueue q f).cores = s.cores := rfl
@[simp] theorem State.modQueue_weirs (s : State) (q : Nat) (f : Queue → Queue) : (s.modQueue q f).weirs = s.weirs := rfl
@[simp] theorem State.modQueue_mem (s : State) (q : Nat) (f : Queue → Queue) : (s.modQueue q f).mem = s.mem := rfl
@[simp] theorem State.modQueue_codes (s : State) (q : Nat) (f : Queue → Queue) : (s.modQueue q f).codes = s.codes := rfl
@[simp] theorem State.modQueue_badMeta (s : State) (q : Nat) (f : Queue → Queue) : (s.modQueue q f).badMeta = s.badMeta := rfl
@[simp] theorem State.modQueue_badData (s : State) (q : Nat) (f : Queue → Queue) : (s.modQueue q f).badData = s.badData := rfl
@[simp] theorem State.modQueue_releases (s : State) (q : Nat) (f : Queue → Queue) : (s.modQueue q f).releases = s.releases := rfl
@[simp] theorem State.modQueue_recent (s : State) (q : Nat) (f : Queue → Queue) : (s.modQueue q f).recent = s.recent := rfl
@[simp] theorem State.modQueue_badCache (s : State) (q : Nat) (f : Queue → Queue) : (s.modQueue q f).badCache = s.badCache := rfl
@[simp] theorem State.modQueue_rawByNma (s : State) (q : Nat) (f : Queue → Queue) : (s.modQueue q f).rawByNma = s.rawByNma := rfl
@[simp] theorem State.modQueue_pending (s : State) (q : Nat) (f : Queue → Queue) : (s.modQueue q f).pending = s.pending := rfl
@[simp] theorem State.modQueue_nmas (s : State) (q : Nat) (f : Queue → Queue) : (s.modQueue q f).nmas = s.nmas := rfl
@[simp] theorem State.modQueue_sluice (s : State) (q : Nat) (f : Queue → Queue) : (s.modQueue q f).sluice = s.sluice := rfl
@[simp] theorem State.modQueue_jobs (s : State) (q : Nat) (f : Queue → Queue) : (s.modQueue q f).jobs = s.jobs := rfl
@[simp] theorem State.modQueue_folds (s : State) (q : Nat) (f : Queue → Queue) : (s.modQueue q f).folds = s.folds := rfl
@[simp] theorem State.modQueue_crossings (s : State) (q : Nat) (f : Queue → Queue) : (s.modQueue q f).crossings = s.crossings := rfl
@[simp] theorem State.modQueue_spaces (s : State) (q : Nat) (f : Queue → Queue) : (s.modQueue q f).spaces = s.spaces := rfl
@[simp] theorem State.modQueue_flows (s : State) (q : Nat) (f : Queue → Queue) : (s.modQueue q f).flows = s.flows := rfl
@[simp] theorem State.modQueue_nextFlow (s : State) (q : Nat) (f : Queue → Queue) : (s.modQueue q f).nextFlow = s.nextFlow := rfl
@[simp] theorem State.modQueue_nextOrder (s : State) (q : Nat) (f : Queue → Queue) : (s.modQueue q f).nextOrder = s.nextOrder := rfl
@[simp] theorem State.modQueue_houses (s : State) (q : Nat) (f : Queue → Queue) : (s.modQueue q f).houses = s.houses := rfl
@[simp] theorem State.modQueue_badCores (s : State) (q : Nat) (f : Queue → Queue) : (s.modQueue q f).badCores = s.badCores := rfl
@[simp] theorem State.modQueue_siteCount (s : State) (q : Nat) (f : Queue → Queue) : (s.modQueue q f).siteCount = s.siteCount := rfl
@[simp] theorem State.modQueue_requests (s : State) (q : Nat) (f : Queue → Queue) : (s.modQueue q f).requests = s.requests := rfl
@[simp] theorem State.modQueue_nextRequest (s : State) (q : Nat) (f : Queue → Queue) : (s.modQueue q f).nextRequest = s.nextRequest := rfl
@[simp] theorem State.modQueue_rings (s : State) (q : Nat) (f : Queue → Queue) : (s.modQueue q f).rings = s.rings := rfl
@[simp] theorem State.modQueue_mailbox (s : State) (q : Nat) (f : Queue → Queue) : (s.modQueue q f).mailbox = s.mailbox := rfl
@[simp] theorem State.modQueue_hostRead (s : State) (q : Nat) (f : Queue → Queue) : (s.modQueue q f).hostRead = s.hostRead := rfl
@[simp] theorem State.modQueue_stage (s : State) (q : Nat) (f : Queue → Queue) : (s.modQueue q f).stage = s.stage := rfl
@[simp] theorem State.modQueue_bootErr (s : State) (q : Nat) (f : Queue → Queue) : (s.modQueue q f).bootErr = s.bootErr := rfl
@[simp] theorem State.modQueue_attest (s : State) (q : Nat) (f : Queue → Queue) : (s.modQueue q f).attest = s.attest := rfl
@[simp] theorem State.modQueue_pkg (s : State) (q : Nat) (f : Queue → Queue) : (s.modQueue q f).pkg = s.pkg := rfl
@[simp] theorem State.modQueue_pod (s : State) (q : Nat) (f : Queue → Queue) : (s.modQueue q f).pod = s.pod := rfl
@[simp] theorem State.modQueue_linksDown (s : State) (q : Nat) (f : Queue → Queue) : (s.modQueue q f).linksDown = s.linksDown := rfl
@[simp] theorem State.modQueue_invalidation (s : State) (q : Nat) (f : Queue → Queue) : (s.modQueue q f).invalidation = s.invalidation := rfl
@[simp] theorem State.modQueue_coalesced (s : State) (q : Nat) (f : Queue → Queue) : (s.modQueue q f).coalesced = s.coalesced := rfl
@[simp] theorem State.modQueue_powerCap (s : State) (q : Nat) (f : Queue → Queue) : (s.modQueue q f).powerCap = s.powerCap := rfl
@[simp] theorem State.modQueue_throttled (s : State) (q : Nat) (f : Queue → Queue) : (s.modQueue q f).throttled = s.throttled := rfl
@[simp] theorem State.modQueue_shut (s : State) (q : Nat) (f : Queue → Queue) : (s.modQueue q f).shut = s.shut := rfl
@[simp] theorem State.modFlow_part (s : State) (n : BitVec 32) (f : Flow → Flow) : (s.modFlow n f).part = s.part := rfl
@[simp] theorem State.modFlow_now (s : State) (n : BitVec 32) (f : Flow → Flow) : (s.modFlow n f).now = s.now := rfl
@[simp] theorem State.modFlow_agenda (s : State) (n : BitVec 32) (f : Flow → Flow) : (s.modFlow n f).agenda = s.agenda := rfl
@[simp] theorem State.modFlow_cur (s : State) (n : BitVec 32) (f : Flow → Flow) : (s.modFlow n f).cur = s.cur := rfl
@[simp] theorem State.modFlow_tick (s : State) (n : BitVec 32) (f : Flow → Flow) : (s.modFlow n f).tick = s.tick := rfl
@[simp] theorem State.modFlow_lag (s : State) (n : BitVec 32) (f : Flow → Flow) : (s.modFlow n f).lag = s.lag := rfl
@[simp] theorem State.modFlow_stale (s : State) (n : BitVec 32) (f : Flow → Flow) : (s.modFlow n f).stale = s.stale := rfl
@[simp] theorem State.modFlow_serial (s : State) (n : BitVec 32) (f : Flow → Flow) : (s.modFlow n f).serial = s.serial := rfl
@[simp] theorem State.modFlow_cores (s : State) (n : BitVec 32) (f : Flow → Flow) : (s.modFlow n f).cores = s.cores := rfl
@[simp] theorem State.modFlow_weirs (s : State) (n : BitVec 32) (f : Flow → Flow) : (s.modFlow n f).weirs = s.weirs := rfl
@[simp] theorem State.modFlow_mem (s : State) (n : BitVec 32) (f : Flow → Flow) : (s.modFlow n f).mem = s.mem := rfl
@[simp] theorem State.modFlow_codes (s : State) (n : BitVec 32) (f : Flow → Flow) : (s.modFlow n f).codes = s.codes := rfl
@[simp] theorem State.modFlow_badMeta (s : State) (n : BitVec 32) (f : Flow → Flow) : (s.modFlow n f).badMeta = s.badMeta := rfl
@[simp] theorem State.modFlow_badData (s : State) (n : BitVec 32) (f : Flow → Flow) : (s.modFlow n f).badData = s.badData := rfl
@[simp] theorem State.modFlow_releases (s : State) (n : BitVec 32) (f : Flow → Flow) : (s.modFlow n f).releases = s.releases := rfl
@[simp] theorem State.modFlow_recent (s : State) (n : BitVec 32) (f : Flow → Flow) : (s.modFlow n f).recent = s.recent := rfl
@[simp] theorem State.modFlow_badCache (s : State) (n : BitVec 32) (f : Flow → Flow) : (s.modFlow n f).badCache = s.badCache := rfl
@[simp] theorem State.modFlow_rawByNma (s : State) (n : BitVec 32) (f : Flow → Flow) : (s.modFlow n f).rawByNma = s.rawByNma := rfl
@[simp] theorem State.modFlow_pending (s : State) (n : BitVec 32) (f : Flow → Flow) : (s.modFlow n f).pending = s.pending := rfl
@[simp] theorem State.modFlow_nmas (s : State) (n : BitVec 32) (f : Flow → Flow) : (s.modFlow n f).nmas = s.nmas := rfl
@[simp] theorem State.modFlow_sluice (s : State) (n : BitVec 32) (f : Flow → Flow) : (s.modFlow n f).sluice = s.sluice := rfl
@[simp] theorem State.modFlow_jobs (s : State) (n : BitVec 32) (f : Flow → Flow) : (s.modFlow n f).jobs = s.jobs := rfl
@[simp] theorem State.modFlow_folds (s : State) (n : BitVec 32) (f : Flow → Flow) : (s.modFlow n f).folds = s.folds := rfl
@[simp] theorem State.modFlow_crossings (s : State) (n : BitVec 32) (f : Flow → Flow) : (s.modFlow n f).crossings = s.crossings := rfl
@[simp] theorem State.modFlow_spaces (s : State) (n : BitVec 32) (f : Flow → Flow) : (s.modFlow n f).spaces = s.spaces := rfl
@[simp] theorem State.modFlow_queues (s : State) (n : BitVec 32) (f : Flow → Flow) : (s.modFlow n f).queues = s.queues := rfl
@[simp] theorem State.modFlow_nextFlow (s : State) (n : BitVec 32) (f : Flow → Flow) : (s.modFlow n f).nextFlow = s.nextFlow := rfl
@[simp] theorem State.modFlow_nextOrder (s : State) (n : BitVec 32) (f : Flow → Flow) : (s.modFlow n f).nextOrder = s.nextOrder := rfl
@[simp] theorem State.modFlow_houses (s : State) (n : BitVec 32) (f : Flow → Flow) : (s.modFlow n f).houses = s.houses := rfl
@[simp] theorem State.modFlow_badCores (s : State) (n : BitVec 32) (f : Flow → Flow) : (s.modFlow n f).badCores = s.badCores := rfl
@[simp] theorem State.modFlow_siteCount (s : State) (n : BitVec 32) (f : Flow → Flow) : (s.modFlow n f).siteCount = s.siteCount := rfl
@[simp] theorem State.modFlow_requests (s : State) (n : BitVec 32) (f : Flow → Flow) : (s.modFlow n f).requests = s.requests := rfl
@[simp] theorem State.modFlow_nextRequest (s : State) (n : BitVec 32) (f : Flow → Flow) : (s.modFlow n f).nextRequest = s.nextRequest := rfl
@[simp] theorem State.modFlow_rings (s : State) (n : BitVec 32) (f : Flow → Flow) : (s.modFlow n f).rings = s.rings := rfl
@[simp] theorem State.modFlow_mailbox (s : State) (n : BitVec 32) (f : Flow → Flow) : (s.modFlow n f).mailbox = s.mailbox := rfl
@[simp] theorem State.modFlow_hostRead (s : State) (n : BitVec 32) (f : Flow → Flow) : (s.modFlow n f).hostRead = s.hostRead := rfl
@[simp] theorem State.modFlow_stage (s : State) (n : BitVec 32) (f : Flow → Flow) : (s.modFlow n f).stage = s.stage := rfl
@[simp] theorem State.modFlow_bootErr (s : State) (n : BitVec 32) (f : Flow → Flow) : (s.modFlow n f).bootErr = s.bootErr := rfl
@[simp] theorem State.modFlow_attest (s : State) (n : BitVec 32) (f : Flow → Flow) : (s.modFlow n f).attest = s.attest := rfl
@[simp] theorem State.modFlow_pkg (s : State) (n : BitVec 32) (f : Flow → Flow) : (s.modFlow n f).pkg = s.pkg := rfl
@[simp] theorem State.modFlow_pod (s : State) (n : BitVec 32) (f : Flow → Flow) : (s.modFlow n f).pod = s.pod := rfl
@[simp] theorem State.modFlow_linksDown (s : State) (n : BitVec 32) (f : Flow → Flow) : (s.modFlow n f).linksDown = s.linksDown := rfl
@[simp] theorem State.modFlow_invalidation (s : State) (n : BitVec 32) (f : Flow → Flow) : (s.modFlow n f).invalidation = s.invalidation := rfl
@[simp] theorem State.modFlow_coalesced (s : State) (n : BitVec 32) (f : Flow → Flow) : (s.modFlow n f).coalesced = s.coalesced := rfl
@[simp] theorem State.modFlow_powerCap (s : State) (n : BitVec 32) (f : Flow → Flow) : (s.modFlow n f).powerCap = s.powerCap := rfl
@[simp] theorem State.modFlow_throttled (s : State) (n : BitVec 32) (f : Flow → Flow) : (s.modFlow n f).throttled = s.throttled := rfl
@[simp] theorem State.modFlow_shut (s : State) (n : BitVec 32) (f : Flow → Flow) : (s.modFlow n f).shut = s.shut := rfl
@[simp] theorem State.issueWrite_part (s : State) (c : CoreId) (pa : Nat) (b : List Byte) (raw : Bool) (va : Word) :
    (s.issueWrite c pa b raw va).part = s.part := rfl
@[simp] theorem State.issueWrite_now (s : State) (c : CoreId) (pa : Nat) (b : List Byte) (raw : Bool) (va : Word) :
    (s.issueWrite c pa b raw va).now = s.now := rfl
@[simp] theorem State.issueWrite_agenda (s : State) (c : CoreId) (pa : Nat) (b : List Byte) (raw : Bool) (va : Word) :
    (s.issueWrite c pa b raw va).agenda = s.agenda := rfl
@[simp] theorem State.issueWrite_cur (s : State) (c : CoreId) (pa : Nat) (b : List Byte) (raw : Bool) (va : Word) :
    (s.issueWrite c pa b raw va).cur = s.cur := rfl
@[simp] theorem State.issueWrite_tick (s : State) (c : CoreId) (pa : Nat) (b : List Byte) (raw : Bool) (va : Word) :
    (s.issueWrite c pa b raw va).tick = s.tick := rfl
@[simp] theorem State.issueWrite_lag (s : State) (c : CoreId) (pa : Nat) (b : List Byte) (raw : Bool) (va : Word) :
    (s.issueWrite c pa b raw va).lag = s.lag := rfl
@[simp] theorem State.issueWrite_stale (s : State) (c : CoreId) (pa : Nat) (b : List Byte) (raw : Bool) (va : Word) :
    (s.issueWrite c pa b raw va).stale = s.stale := rfl
@[simp] theorem State.issueWrite_serial (s : State) (c : CoreId) (pa : Nat) (b : List Byte) (raw : Bool) (va : Word) :
    (s.issueWrite c pa b raw va).serial = s.serial := rfl
@[simp] theorem State.issueWrite_cores (s : State) (c : CoreId) (pa : Nat) (b : List Byte) (raw : Bool) (va : Word) :
    (s.issueWrite c pa b raw va).cores = s.cores := rfl
@[simp] theorem State.issueWrite_weirs (s : State) (c : CoreId) (pa : Nat) (b : List Byte) (raw : Bool) (va : Word) :
    (s.issueWrite c pa b raw va).weirs = s.weirs := rfl
@[simp] theorem State.issueWrite_mem (s : State) (c : CoreId) (pa : Nat) (b : List Byte) (raw : Bool) (va : Word) :
    (s.issueWrite c pa b raw va).mem = s.mem := rfl
@[simp] theorem State.issueWrite_codes (s : State) (c : CoreId) (pa : Nat) (b : List Byte) (raw : Bool) (va : Word) :
    (s.issueWrite c pa b raw va).codes = s.codes := rfl
@[simp] theorem State.issueWrite_badMeta (s : State) (c : CoreId) (pa : Nat) (b : List Byte) (raw : Bool) (va : Word) :
    (s.issueWrite c pa b raw va).badMeta = s.badMeta := rfl
@[simp] theorem State.issueWrite_badData (s : State) (c : CoreId) (pa : Nat) (b : List Byte) (raw : Bool) (va : Word) :
    (s.issueWrite c pa b raw va).badData = s.badData := rfl
@[simp] theorem State.issueWrite_releases (s : State) (c : CoreId) (pa : Nat) (b : List Byte) (raw : Bool) (va : Word) :
    (s.issueWrite c pa b raw va).releases = s.releases := rfl
@[simp] theorem State.issueWrite_recent (s : State) (c : CoreId) (pa : Nat) (b : List Byte) (raw : Bool) (va : Word) :
    (s.issueWrite c pa b raw va).recent = s.recent := rfl
@[simp] theorem State.issueWrite_badCache (s : State) (c : CoreId) (pa : Nat) (b : List Byte) (raw : Bool) (va : Word) :
    (s.issueWrite c pa b raw va).badCache = s.badCache := rfl
@[simp] theorem State.issueWrite_rawByNma (s : State) (c : CoreId) (pa : Nat) (b : List Byte) (raw : Bool) (va : Word) :
    (s.issueWrite c pa b raw va).rawByNma = s.rawByNma := rfl
@[simp] theorem State.issueWrite_nmas (s : State) (c : CoreId) (pa : Nat) (b : List Byte) (raw : Bool) (va : Word) :
    (s.issueWrite c pa b raw va).nmas = s.nmas := rfl
@[simp] theorem State.issueWrite_sluice (s : State) (c : CoreId) (pa : Nat) (b : List Byte) (raw : Bool) (va : Word) :
    (s.issueWrite c pa b raw va).sluice = s.sluice := rfl
@[simp] theorem State.issueWrite_jobs (s : State) (c : CoreId) (pa : Nat) (b : List Byte) (raw : Bool) (va : Word) :
    (s.issueWrite c pa b raw va).jobs = s.jobs := rfl
@[simp] theorem State.issueWrite_folds (s : State) (c : CoreId) (pa : Nat) (b : List Byte) (raw : Bool) (va : Word) :
    (s.issueWrite c pa b raw va).folds = s.folds := rfl
@[simp] theorem State.issueWrite_crossings (s : State) (c : CoreId) (pa : Nat) (b : List Byte) (raw : Bool) (va : Word) :
    (s.issueWrite c pa b raw va).crossings = s.crossings := rfl
@[simp] theorem State.issueWrite_spaces (s : State) (c : CoreId) (pa : Nat) (b : List Byte) (raw : Bool) (va : Word) :
    (s.issueWrite c pa b raw va).spaces = s.spaces := rfl
@[simp] theorem State.issueWrite_queues (s : State) (c : CoreId) (pa : Nat) (b : List Byte) (raw : Bool) (va : Word) :
    (s.issueWrite c pa b raw va).queues = s.queues := rfl
@[simp] theorem State.issueWrite_flows (s : State) (c : CoreId) (pa : Nat) (b : List Byte) (raw : Bool) (va : Word) :
    (s.issueWrite c pa b raw va).flows = s.flows := rfl
@[simp] theorem State.issueWrite_nextFlow (s : State) (c : CoreId) (pa : Nat) (b : List Byte) (raw : Bool) (va : Word) :
    (s.issueWrite c pa b raw va).nextFlow = s.nextFlow := rfl
@[simp] theorem State.issueWrite_nextOrder (s : State) (c : CoreId) (pa : Nat) (b : List Byte) (raw : Bool) (va : Word) :
    (s.issueWrite c pa b raw va).nextOrder = s.nextOrder := rfl
@[simp] theorem State.issueWrite_houses (s : State) (c : CoreId) (pa : Nat) (b : List Byte) (raw : Bool) (va : Word) :
    (s.issueWrite c pa b raw va).houses = s.houses := rfl
@[simp] theorem State.issueWrite_badCores (s : State) (c : CoreId) (pa : Nat) (b : List Byte) (raw : Bool) (va : Word) :
    (s.issueWrite c pa b raw va).badCores = s.badCores := rfl
@[simp] theorem State.issueWrite_siteCount (s : State) (c : CoreId) (pa : Nat) (b : List Byte) (raw : Bool) (va : Word) :
    (s.issueWrite c pa b raw va).siteCount = s.siteCount := rfl
@[simp] theorem State.issueWrite_requests (s : State) (c : CoreId) (pa : Nat) (b : List Byte) (raw : Bool) (va : Word) :
    (s.issueWrite c pa b raw va).requests = s.requests := rfl
@[simp] theorem State.issueWrite_nextRequest (s : State) (c : CoreId) (pa : Nat) (b : List Byte) (raw : Bool) (va : Word) :
    (s.issueWrite c pa b raw va).nextRequest = s.nextRequest := rfl
@[simp] theorem State.issueWrite_rings (s : State) (c : CoreId) (pa : Nat) (b : List Byte) (raw : Bool) (va : Word) :
    (s.issueWrite c pa b raw va).rings = s.rings := rfl
@[simp] theorem State.issueWrite_mailbox (s : State) (c : CoreId) (pa : Nat) (b : List Byte) (raw : Bool) (va : Word) :
    (s.issueWrite c pa b raw va).mailbox = s.mailbox := rfl
@[simp] theorem State.issueWrite_hostRead (s : State) (c : CoreId) (pa : Nat) (b : List Byte) (raw : Bool) (va : Word) :
    (s.issueWrite c pa b raw va).hostRead = s.hostRead := rfl
@[simp] theorem State.issueWrite_stage (s : State) (c : CoreId) (pa : Nat) (b : List Byte) (raw : Bool) (va : Word) :
    (s.issueWrite c pa b raw va).stage = s.stage := rfl
@[simp] theorem State.issueWrite_bootErr (s : State) (c : CoreId) (pa : Nat) (b : List Byte) (raw : Bool) (va : Word) :
    (s.issueWrite c pa b raw va).bootErr = s.bootErr := rfl
@[simp] theorem State.issueWrite_attest (s : State) (c : CoreId) (pa : Nat) (b : List Byte) (raw : Bool) (va : Word) :
    (s.issueWrite c pa b raw va).attest = s.attest := rfl
@[simp] theorem State.issueWrite_pkg (s : State) (c : CoreId) (pa : Nat) (b : List Byte) (raw : Bool) (va : Word) :
    (s.issueWrite c pa b raw va).pkg = s.pkg := rfl
@[simp] theorem State.issueWrite_pod (s : State) (c : CoreId) (pa : Nat) (b : List Byte) (raw : Bool) (va : Word) :
    (s.issueWrite c pa b raw va).pod = s.pod := rfl
@[simp] theorem State.issueWrite_linksDown (s : State) (c : CoreId) (pa : Nat) (b : List Byte) (raw : Bool) (va : Word) :
    (s.issueWrite c pa b raw va).linksDown = s.linksDown := rfl
@[simp] theorem State.issueWrite_invalidation (s : State) (c : CoreId) (pa : Nat) (b : List Byte) (raw : Bool) (va : Word) :
    (s.issueWrite c pa b raw va).invalidation = s.invalidation := rfl
@[simp] theorem State.issueWrite_coalesced (s : State) (c : CoreId) (pa : Nat) (b : List Byte) (raw : Bool) (va : Word) :
    (s.issueWrite c pa b raw va).coalesced = s.coalesced := rfl
@[simp] theorem State.issueWrite_powerCap (s : State) (c : CoreId) (pa : Nat) (b : List Byte) (raw : Bool) (va : Word) :
    (s.issueWrite c pa b raw va).powerCap = s.powerCap := rfl
@[simp] theorem State.issueWrite_throttled (s : State) (c : CoreId) (pa : Nat) (b : List Byte) (raw : Bool) (va : Word) :
    (s.issueWrite c pa b raw va).throttled = s.throttled := rfl
@[simp] theorem State.issueWrite_shut (s : State) (c : CoreId) (pa : Nat) (b : List Byte) (raw : Bool) (va : Word) :
    (s.issueWrite c pa b raw va).shut = s.shut := rfl

/-! ### The fields of a pump -/

theorem Pump.read_g0 (p : Pump) : p.read (.g 0) = 0 := rfl

theorem Pump.read_write_self (p : Pump) (r : Reg) (v : Word) (h : r ≠ .g 0) : (p.write r v).read r = v := by
  cases r with
  | g i =>
    have hi : i ≠ 0 := fun e => h (by rw [e])
    simp only [Pump.write, Pump.read, if_neg hi]
    exact getElem_setAt_self _ _ _
  | k i => simp only [Pump.write, Pump.read]; exact getElem_setAt_self _ _ _
  | last => rfl

theorem Pump.read_write_ne (p : Pump) (r q : Reg) (v : Word) (h : q ≠ r) : (p.write r v).read q = p.read q := by
  cases r with
  | g i =>
    by_cases hi : i = 0
    · simp only [Pump.write, if_pos hi]
    · cases q with
      | g j =>
        simp only [Pump.write, Pump.read, if_neg hi]
        by_cases hj : j = 0
        · simp only [if_pos hj]
        · simp only [if_neg hj]
          exact getElem_setAt_ne _ _ _ _ fun e => h (by rw [BitVec.toFin_inj.mp e])
      | k j => simp only [Pump.write, Pump.read, if_neg hi]
      | last => simp only [Pump.write, Pump.read, if_neg hi]
  | k i =>
    cases q with
    | g j => rfl
    | k j =>
      simp only [Pump.write, Pump.read]
      exact getElem_setAt_ne _ _ _ _ fun e => h (by rw [BitVec.toFin_inj.mp e])
    | last => rfl
  | last =>
    cases q with
    | g j => rfl
    | k j => rfl
    | last => exact absurd rfl h

/-- What a result leaves in every register a specifier can name (R92). -/
theorem Pump.read_result (p : Pump) (d r : Reg) (v : Word) :
    (p.result d v).read r = if r = .g 0 then 0 else if r = d ∨ r = .last then v else p.read r := by
  by_cases h0 : r = .g 0
  · subst h0; rfl
  · simp only [if_neg h0]
    cases r with
    | last => simp [Pump.result, Pump.read]
    | g i =>
      by_cases hd : (Reg.g i) = d
      · subst hd; simp only [true_or, if_true]; exact p.read_write_self _ v h0
      · simp only [hd, false_or, reduceCtorEq, if_false]; exact p.read_write_ne d _ v hd
    | k i =>
      by_cases hd : (Reg.k i) = d
      · subst hd; simp only [true_or, if_true]; exact p.read_write_self _ v h0
      · simp only [hd, false_or, reduceCtorEq, if_false]; exact p.read_write_ne d _ v hd

@[simp] theorem Pump.write_savedLast (p : Pump) (r : Reg) (v : Word) : (p.write r v).savedLast = p.savedLast := by
  cases r with
  | g i => simp only [Pump.write]; split <;> rfl
  | _ => rfl
@[simp] theorem Pump.write_pc (p : Pump) (r : Reg) (v : Word) : (p.write r v).pc = p.pc := by
  cases r with
  | g i => simp only [Pump.write]; split <;> rfl
  | _ => rfl
@[simp] theorem Pump.write_q (p : Pump) (r : Reg) (v : Word) : (p.write r v).q = p.q := by
  cases r with
  | g i => simp only [Pump.write]; split <;> rfl
  | _ => rfl
@[simp] theorem Pump.write_ht (p : Pump) (r : Reg) (v : Word) : (p.write r v).ht = p.ht := by
  cases r with
  | g i => simp only [Pump.write]; split <;> rfl
  | _ => rfl
@[simp] theorem Pump.write_pht (p : Pump) (r : Reg) (v : Word) : (p.write r v).pht = p.pht := by
  cases r with
  | g i => simp only [Pump.write]; split <;> rfl
  | _ => rfl
@[simp] theorem Pump.write_ypend (p : Pump) (r : Reg) (v : Word) : (p.write r v).ypend = p.ypend := by
  cases r with
  | g i => simp only [Pump.write]; split <;> rfl
  | _ => rfl
@[simp] theorem Pump.write_tvec (p : Pump) (r : Reg) (v : Word) : (p.write r v).tvec = p.tvec := by
  cases r with
  | g i => simp only [Pump.write]; split <;> rfl
  | _ => rfl
@[simp] theorem Pump.write_tcause (p : Pump) (r : Reg) (v : Word) : (p.write r v).tcause = p.tcause := by
  cases r with
  | g i => simp only [Pump.write]; split <;> rfl
  | _ => rfl
@[simp] theorem Pump.write_epc (p : Pump) (r : Reg) (v : Word) : (p.write r v).epc = p.epc := by
  cases r with
  | g i => simp only [Pump.write]; split <;> rfl
  | _ => rfl
@[simp] theorem Pump.write_fflags (p : Pump) (r : Reg) (v : Word) : (p.write r v).fflags = p.fflags := by
  cases r with
  | g i => simp only [Pump.write]; split <;> rfl
  | _ => rfl
@[simp] theorem Pump.write_seed (p : Pump) (r : Reg) (v : Word) : (p.write r v).seed = p.seed := by
  cases r with
  | g i => simp only [Pump.write]; split <;> rfl
  | _ => rfl
@[simp] theorem Pump.write_stallWhy (p : Pump) (r : Reg) (v : Word) : (p.write r v).stallWhy = p.stallWhy := by
  cases r with
  | g i => simp only [Pump.write]; split <;> rfl
  | _ => rfl
@[simp] theorem Pump.write_stallCycles (p : Pump) (r : Reg) (v : Word) : (p.write r v).stallCycles = p.stallCycles := by
  cases r with
  | g i => simp only [Pump.write]; split <;> rfl
  | _ => rfl
@[simp] theorem Pump.write_flow (p : Pump) (r : Reg) (v : Word) : (p.write r v).flow = p.flow := by
  cases r with
  | g i => simp only [Pump.write]; split <;> rfl
  | _ => rfl
@[simp] theorem Pump.write_prio (p : Pump) (r : Reg) (v : Word) : (p.write r v).prio = p.prio := by
  cases r with
  | g i => simp only [Pump.write]; split <;> rfl
  | _ => rfl
@[simp] theorem Pump.write_run (p : Pump) (r : Reg) (v : Word) : (p.write r v).run = p.run := by
  cases r with
  | g i => simp only [Pump.write]; split <;> rfl
  | _ => rfl
@[simp] theorem Pump.write_block (p : Pump) (r : Reg) (v : Word) : (p.write r v).block = p.block := by
  cases r with
  | g i => simp only [Pump.write]; split <;> rfl
  | _ => rfl
@[simp] theorem Pump.write_blockedAt (p : Pump) (r : Reg) (v : Word) : (p.write r v).blockedAt = p.blockedAt := by
  cases r with
  | g i => simp only [Pump.write]; split <;> rfl
  | _ => rfl
@[simp] theorem Pump.write_page (p : Pump) (r : Reg) (v : Word) : (p.write r v).page = p.page := by
  cases r with
  | g i => simp only [Pump.write]; split <;> rfl
  | _ => rfl
@[simp] theorem Pump.write_asyncs (p : Pump) (r : Reg) (v : Word) : (p.write r v).asyncs = p.asyncs := by
  cases r with
  | g i => simp only [Pump.write]; split <;> rfl
  | _ => rfl
@[simp] theorem Pump.write_events (p : Pump) (r : Reg) (v : Word) : (p.write r v).events = p.events := by
  cases r with
  | g i => simp only [Pump.write]; split <;> rfl
  | _ => rfl
@[simp] theorem Pump.write_held (p : Pump) (r : Reg) (v : Word) : (p.write r v).held = p.held := by
  cases r with
  | g i => simp only [Pump.write]; split <;> rfl
  | _ => rfl
@[simp] theorem Pump.write_loads (p : Pump) (r : Reg) (v : Word) : (p.write r v).loads = p.loads := by
  cases r with
  | g i => simp only [Pump.write]; split <;> rfl
  | _ => rfl
@[simp] theorem Pump.write_load (p : Pump) (r : Reg) (v : Word) : (p.write r v).load = p.load := by
  cases r with
  | g i => simp only [Pump.write]; split <;> rfl
  | _ => rfl
@[simp] theorem Pump.write_bars (p : Pump) (r : Reg) (v : Word) : (p.write r v).bars = p.bars := by
  cases r with
  | g i => simp only [Pump.write]; split <;> rfl
  | _ => rfl
@[simp] theorem Pump.write_handles (p : Pump) (r : Reg) (v : Word) : (p.write r v).handles = p.handles := by
  cases r with
  | g i => simp only [Pump.write]; split <;> rfl
  | _ => rfl
@[simp] theorem Pump.write_nmaBatch (p : Pump) (r : Reg) (v : Word) : (p.write r v).nmaBatch = p.nmaBatch := by
  cases r with
  | g i => simp only [Pump.write]; split <;> rfl
  | _ => rfl
@[simp] theorem Pump.write_fatalBy (p : Pump) (r : Reg) (v : Word) : (p.write r v).fatalBy = p.fatalBy := by
  cases r with
  | g i => simp only [Pump.write]; split <;> rfl
  | _ => rfl
@[simp] theorem Pump.write_issuedAt (p : Pump) (r : Reg) (v : Word) : (p.write r v).issuedAt = p.issuedAt := by
  cases r with
  | g i => simp only [Pump.write]; split <;> rfl
  | _ => rfl
@[simp] theorem Pump.result_savedLast (p : Pump) (d : Reg) (v : Word) : (p.result d v).savedLast = p.savedLast := p.write_savedLast d v
@[simp] theorem Pump.result_pc (p : Pump) (d : Reg) (v : Word) : (p.result d v).pc = p.pc := p.write_pc d v
@[simp] theorem Pump.result_q (p : Pump) (d : Reg) (v : Word) : (p.result d v).q = p.q := p.write_q d v
@[simp] theorem Pump.result_ht (p : Pump) (d : Reg) (v : Word) : (p.result d v).ht = p.ht := p.write_ht d v
@[simp] theorem Pump.result_pht (p : Pump) (d : Reg) (v : Word) : (p.result d v).pht = p.pht := p.write_pht d v
@[simp] theorem Pump.result_ypend (p : Pump) (d : Reg) (v : Word) : (p.result d v).ypend = p.ypend := p.write_ypend d v
@[simp] theorem Pump.result_tvec (p : Pump) (d : Reg) (v : Word) : (p.result d v).tvec = p.tvec := p.write_tvec d v
@[simp] theorem Pump.result_tcause (p : Pump) (d : Reg) (v : Word) : (p.result d v).tcause = p.tcause := p.write_tcause d v
@[simp] theorem Pump.result_epc (p : Pump) (d : Reg) (v : Word) : (p.result d v).epc = p.epc := p.write_epc d v
@[simp] theorem Pump.result_fflags (p : Pump) (d : Reg) (v : Word) : (p.result d v).fflags = p.fflags := p.write_fflags d v
@[simp] theorem Pump.result_seed (p : Pump) (d : Reg) (v : Word) : (p.result d v).seed = p.seed := p.write_seed d v
@[simp] theorem Pump.result_stallWhy (p : Pump) (d : Reg) (v : Word) : (p.result d v).stallWhy = p.stallWhy := p.write_stallWhy d v
@[simp] theorem Pump.result_stallCycles (p : Pump) (d : Reg) (v : Word) : (p.result d v).stallCycles = p.stallCycles := p.write_stallCycles d v
@[simp] theorem Pump.result_flow (p : Pump) (d : Reg) (v : Word) : (p.result d v).flow = p.flow := p.write_flow d v
@[simp] theorem Pump.result_prio (p : Pump) (d : Reg) (v : Word) : (p.result d v).prio = p.prio := p.write_prio d v
@[simp] theorem Pump.result_run (p : Pump) (d : Reg) (v : Word) : (p.result d v).run = p.run := p.write_run d v
@[simp] theorem Pump.result_block (p : Pump) (d : Reg) (v : Word) : (p.result d v).block = p.block := p.write_block d v
@[simp] theorem Pump.result_blockedAt (p : Pump) (d : Reg) (v : Word) : (p.result d v).blockedAt = p.blockedAt := p.write_blockedAt d v
@[simp] theorem Pump.result_page (p : Pump) (d : Reg) (v : Word) : (p.result d v).page = p.page := p.write_page d v
@[simp] theorem Pump.result_asyncs (p : Pump) (d : Reg) (v : Word) : (p.result d v).asyncs = p.asyncs := p.write_asyncs d v
@[simp] theorem Pump.result_events (p : Pump) (d : Reg) (v : Word) : (p.result d v).events = p.events := p.write_events d v
@[simp] theorem Pump.result_held (p : Pump) (d : Reg) (v : Word) : (p.result d v).held = p.held := p.write_held d v
@[simp] theorem Pump.result_loads (p : Pump) (d : Reg) (v : Word) : (p.result d v).loads = p.loads := p.write_loads d v
@[simp] theorem Pump.result_load (p : Pump) (d : Reg) (v : Word) : (p.result d v).load = p.load := p.write_load d v
@[simp] theorem Pump.result_bars (p : Pump) (d : Reg) (v : Word) : (p.result d v).bars = p.bars := p.write_bars d v
@[simp] theorem Pump.result_handles (p : Pump) (d : Reg) (v : Word) : (p.result d v).handles = p.handles := p.write_handles d v
@[simp] theorem Pump.result_nmaBatch (p : Pump) (d : Reg) (v : Word) : (p.result d v).nmaBatch = p.nmaBatch := p.write_nmaBatch d v
@[simp] theorem Pump.result_fatalBy (p : Pump) (d : Reg) (v : Word) : (p.result d v).fatalBy = p.fatalBy := p.write_fatalBy d v
@[simp] theorem Pump.result_issuedAt (p : Pump) (d : Reg) (v : Word) : (p.result d v).issuedAt = p.issuedAt := p.write_issuedAt d v
@[simp] theorem Pump.result_last (p : Pump) (d : Reg) (v : Word) : (p.result d v).last = v := rfl
@[simp] theorem Pump.advance_g (p : Pump) : p.advance.g = p.g := rfl
@[simp] theorem Pump.advance_k (p : Pump) : p.advance.k = p.k := rfl
@[simp] theorem Pump.advance_last (p : Pump) : p.advance.last = p.last := rfl
@[simp] theorem Pump.advance_savedLast (p : Pump) : p.advance.savedLast = p.savedLast := rfl
@[simp] theorem Pump.advance_q (p : Pump) : p.advance.q = p.q := rfl
@[simp] theorem Pump.advance_ht (p : Pump) : p.advance.ht = p.ht := rfl
@[simp] theorem Pump.advance_pht (p : Pump) : p.advance.pht = p.pht := rfl
@[simp] theorem Pump.advance_ypend (p : Pump) : p.advance.ypend = p.ypend := rfl
@[simp] theorem Pump.advance_tvec (p : Pump) : p.advance.tvec = p.tvec := rfl
@[simp] theorem Pump.advance_tcause (p : Pump) : p.advance.tcause = p.tcause := rfl
@[simp] theorem Pump.advance_epc (p : Pump) : p.advance.epc = p.epc := rfl
@[simp] theorem Pump.advance_fflags (p : Pump) : p.advance.fflags = p.fflags := rfl
@[simp] theorem Pump.advance_seed (p : Pump) : p.advance.seed = p.seed := rfl
@[simp] theorem Pump.advance_stallWhy (p : Pump) : p.advance.stallWhy = p.stallWhy := rfl
@[simp] theorem Pump.advance_stallCycles (p : Pump) : p.advance.stallCycles = p.stallCycles := rfl
@[simp] theorem Pump.advance_flow (p : Pump) : p.advance.flow = p.flow := rfl
@[simp] theorem Pump.advance_prio (p : Pump) : p.advance.prio = p.prio := rfl
@[simp] theorem Pump.advance_run (p : Pump) : p.advance.run = p.run := rfl
@[simp] theorem Pump.advance_block (p : Pump) : p.advance.block = p.block := rfl
@[simp] theorem Pump.advance_blockedAt (p : Pump) : p.advance.blockedAt = p.blockedAt := rfl
@[simp] theorem Pump.advance_page (p : Pump) : p.advance.page = p.page := rfl
@[simp] theorem Pump.advance_asyncs (p : Pump) : p.advance.asyncs = p.asyncs := rfl
@[simp] theorem Pump.advance_events (p : Pump) : p.advance.events = p.events := rfl
@[simp] theorem Pump.advance_held (p : Pump) : p.advance.held = p.held := rfl
@[simp] theorem Pump.advance_loads (p : Pump) : p.advance.loads = p.loads := rfl
@[simp] theorem Pump.advance_load (p : Pump) : p.advance.load = p.load := rfl
@[simp] theorem Pump.advance_bars (p : Pump) : p.advance.bars = p.bars := rfl
@[simp] theorem Pump.advance_handles (p : Pump) : p.advance.handles = p.handles := rfl
@[simp] theorem Pump.advance_nmaBatch (p : Pump) : p.advance.nmaBatch = p.nmaBatch := rfl
@[simp] theorem Pump.advance_fatalBy (p : Pump) : p.advance.fatalBy = p.fatalBy := rfl
@[simp] theorem Pump.advance_issuedAt (p : Pump) : p.advance.issuedAt = p.issuedAt := rfl
@[simp] theorem Pump.advance_pc (p : Pump) : p.advance.pc = p.pc + 8 := rfl
@[simp] theorem Pump.read_advance (p : Pump) (r : Reg) : p.advance.read r = p.read r := by cases r <;> rfl
@[simp] theorem Pump.returnFromTrap_savedLast (p : Pump) : p.returnFromTrap.savedLast = p.savedLast := rfl
@[simp] theorem Pump.returnFromTrap_q (p : Pump) : p.returnFromTrap.q = p.q := rfl
@[simp] theorem Pump.returnFromTrap_ypend (p : Pump) : p.returnFromTrap.ypend = p.ypend := rfl
@[simp] theorem Pump.returnFromTrap_tvec (p : Pump) : p.returnFromTrap.tvec = p.tvec := rfl
@[simp] theorem Pump.returnFromTrap_tcause (p : Pump) : p.returnFromTrap.tcause = p.tcause := rfl
@[simp] theorem Pump.returnFromTrap_epc (p : Pump) : p.returnFromTrap.epc = p.epc := rfl
@[simp] theorem Pump.returnFromTrap_fflags (p : Pump) : p.returnFromTrap.fflags = p.fflags := rfl
@[simp] theorem Pump.returnFromTrap_seed (p : Pump) : p.returnFromTrap.seed = p.seed := rfl
@[simp] theorem Pump.returnFromTrap_stallWhy (p : Pump) : p.returnFromTrap.stallWhy = p.stallWhy := rfl
@[simp] theorem Pump.returnFromTrap_stallCycles (p : Pump) : p.returnFromTrap.stallCycles = p.stallCycles := rfl
@[simp] theorem Pump.returnFromTrap_flow (p : Pump) : p.returnFromTrap.flow = p.flow := rfl
@[simp] theorem Pump.returnFromTrap_prio (p : Pump) : p.returnFromTrap.prio = p.prio := rfl
@[simp] theorem Pump.returnFromTrap_run (p : Pump) : p.returnFromTrap.run = p.run := rfl
@[simp] theorem Pump.returnFromTrap_block (p : Pump) : p.returnFromTrap.block = p.block := rfl
@[simp] theorem Pump.returnFromTrap_blockedAt (p : Pump) : p.returnFromTrap.blockedAt = p.blockedAt := rfl
@[simp] theorem Pump.returnFromTrap_page (p : Pump) : p.returnFromTrap.page = p.page := rfl
@[simp] theorem Pump.returnFromTrap_asyncs (p : Pump) : p.returnFromTrap.asyncs = p.asyncs := rfl
@[simp] theorem Pump.returnFromTrap_events (p : Pump) : p.returnFromTrap.events = p.events := rfl
@[simp] theorem Pump.returnFromTrap_held (p : Pump) : p.returnFromTrap.held = p.held := rfl
@[simp] theorem Pump.returnFromTrap_loads (p : Pump) : p.returnFromTrap.loads = p.loads := rfl
@[simp] theorem Pump.returnFromTrap_load (p : Pump) : p.returnFromTrap.load = p.load := rfl
@[simp] theorem Pump.returnFromTrap_bars (p : Pump) : p.returnFromTrap.bars = p.bars := rfl
@[simp] theorem Pump.returnFromTrap_handles (p : Pump) : p.returnFromTrap.handles = p.handles := rfl
@[simp] theorem Pump.returnFromTrap_nmaBatch (p : Pump) : p.returnFromTrap.nmaBatch = p.nmaBatch := rfl
@[simp] theorem Pump.returnFromTrap_fatalBy (p : Pump) : p.returnFromTrap.fatalBy = p.fatalBy := rfl
@[simp] theorem Pump.returnFromTrap_issuedAt (p : Pump) : p.returnFromTrap.issuedAt = p.issuedAt := rfl
@[simp] theorem Pump.unblock_g (p : Pump) (now : Nat) : (p.unblock now).g = p.g := by
  simp only [Pump.unblock]; split <;> rfl
@[simp] theorem Pump.unblock_k (p : Pump) (now : Nat) : (p.unblock now).k = p.k := by
  simp only [Pump.unblock]; split <;> rfl
@[simp] theorem Pump.unblock_last (p : Pump) (now : Nat) : (p.unblock now).last = p.last := by
  simp only [Pump.unblock]; split <;> rfl
@[simp] theorem Pump.unblock_savedLast (p : Pump) (now : Nat) : (p.unblock now).savedLast = p.savedLast := by
  simp only [Pump.unblock]; split <;> rfl
@[simp] theorem Pump.unblock_pc (p : Pump) (now : Nat) : (p.unblock now).pc = p.pc := by
  simp only [Pump.unblock]; split <;> rfl
@[simp] theorem Pump.unblock_q (p : Pump) (now : Nat) : (p.unblock now).q = p.q := by
  simp only [Pump.unblock]; split <;> rfl
@[simp] theorem Pump.unblock_ht (p : Pump) (now : Nat) : (p.unblock now).ht = p.ht := by
  simp only [Pump.unblock]; split <;> rfl
@[simp] theorem Pump.unblock_pht (p : Pump) (now : Nat) : (p.unblock now).pht = p.pht := by
  simp only [Pump.unblock]; split <;> rfl
@[simp] theorem Pump.unblock_ypend (p : Pump) (now : Nat) : (p.unblock now).ypend = p.ypend := by
  simp only [Pump.unblock]; split <;> rfl
@[simp] theorem Pump.unblock_tvec (p : Pump) (now : Nat) : (p.unblock now).tvec = p.tvec := by
  simp only [Pump.unblock]; split <;> rfl
@[simp] theorem Pump.unblock_tcause (p : Pump) (now : Nat) : (p.unblock now).tcause = p.tcause := by
  simp only [Pump.unblock]; split <;> rfl
@[simp] theorem Pump.unblock_epc (p : Pump) (now : Nat) : (p.unblock now).epc = p.epc := by
  simp only [Pump.unblock]; split <;> rfl
@[simp] theorem Pump.unblock_fflags (p : Pump) (now : Nat) : (p.unblock now).fflags = p.fflags := by
  simp only [Pump.unblock]; split <;> rfl
@[simp] theorem Pump.unblock_seed (p : Pump) (now : Nat) : (p.unblock now).seed = p.seed := by
  simp only [Pump.unblock]; split <;> rfl
@[simp] theorem Pump.unblock_stallWhy (p : Pump) (now : Nat) : (p.unblock now).stallWhy = p.stallWhy := by
  simp only [Pump.unblock]; split <;> rfl
@[simp] theorem Pump.unblock_flow (p : Pump) (now : Nat) : (p.unblock now).flow = p.flow := by
  simp only [Pump.unblock]; split <;> rfl
@[simp] theorem Pump.unblock_prio (p : Pump) (now : Nat) : (p.unblock now).prio = p.prio := by
  simp only [Pump.unblock]; split <;> rfl
@[simp] theorem Pump.unblock_run (p : Pump) (now : Nat) : (p.unblock now).run = p.run := by
  simp only [Pump.unblock]; split <;> rfl
@[simp] theorem Pump.unblock_blockedAt (p : Pump) (now : Nat) : (p.unblock now).blockedAt = p.blockedAt := by
  simp only [Pump.unblock]; split <;> rfl
@[simp] theorem Pump.unblock_asyncs (p : Pump) (now : Nat) : (p.unblock now).asyncs = p.asyncs := by
  simp only [Pump.unblock]; split <;> rfl
@[simp] theorem Pump.unblock_events (p : Pump) (now : Nat) : (p.unblock now).events = p.events := by
  simp only [Pump.unblock]; split <;> rfl
@[simp] theorem Pump.unblock_held (p : Pump) (now : Nat) : (p.unblock now).held = p.held := by
  simp only [Pump.unblock]; split <;> rfl
@[simp] theorem Pump.unblock_load (p : Pump) (now : Nat) : (p.unblock now).load = p.load := by
  simp only [Pump.unblock]; split <;> rfl
@[simp] theorem Pump.unblock_bars (p : Pump) (now : Nat) : (p.unblock now).bars = p.bars := by
  simp only [Pump.unblock]; split <;> rfl
@[simp] theorem Pump.unblock_handles (p : Pump) (now : Nat) : (p.unblock now).handles = p.handles := by
  simp only [Pump.unblock]; split <;> rfl
@[simp] theorem Pump.unblock_nmaBatch (p : Pump) (now : Nat) : (p.unblock now).nmaBatch = p.nmaBatch := by
  simp only [Pump.unblock]; split <;> rfl
@[simp] theorem Pump.unblock_fatalBy (p : Pump) (now : Nat) : (p.unblock now).fatalBy = p.fatalBy := by
  simp only [Pump.unblock]; split <;> rfl
@[simp] theorem Pump.unblock_issuedAt (p : Pump) (now : Nat) : (p.unblock now).issuedAt = p.issuedAt := by
  simp only [Pump.unblock]; split <;> rfl
@[simp] theorem Pump.unblock_loads (p : Pump) (now : Nat) : (p.unblock now).loads = p.loads := by
  simp only [Pump.unblock]; split <;> rfl
@[simp] theorem Pump.unblock_block (p : Pump) (now : Nat) : (p.unblock now).block = none := by
  simp only [Pump.unblock]; split <;> simp_all
@[simp] theorem Pump.unblock_page (p : Pump) (now : Nat) : (p.unblock now).page = none := by
  simp only [Pump.unblock]; split <;> simp_all

end Sys2Proof.Machine
end

