-- ==== Sys2Proof/Laws/Memory.lean ====
section
/-! SUPPORT. The laws of physical memory and of the cistern: a byte read after a write, and that every write keeps the
canonical form. -/

namespace Sys2Proof.Machine

open Sys2Proof

/-- The canonical form of a list with a head. -/
theorem Memory.wf_cons (c : Host.Cell) (r : Memory) :
    Memory.wf (c :: r) = true ↔ c.2 ≠ Memory.blank ∧ (∀ d ∈ r, c.1 < d.1) ∧ Memory.wf r = true := by
  induction r generalizing c with
  | nil => simp [Memory.wf]
  | cons d r ih =>
    have hd := ih d
    constructor
    · intro h
      simp only [Memory.wf, Bool.and_eq_true, decide_eq_true_eq] at h
      obtain ⟨⟨hc, hlt⟩, hw⟩ := h
      obtain ⟨_, hall, _⟩ := hd.mp hw
      refine ⟨hc, ?_, hw⟩
      intro e he
      rcases List.mem_cons.mp he with rfl | he
      · exact hlt
      · exact Nat.lt_trans hlt (hall e he)
    · rintro ⟨hc, hall, hw⟩
      simp only [Memory.wf, Bool.and_eq_true, decide_eq_true_eq]
      exact ⟨⟨hc, hall d (List.mem_cons_self ..)⟩, hw⟩

/-- An address below every listed one reads blank. -/
theorem Memory.get_below (m : Memory) (a : Nat) (h : ∀ d ∈ m, a < d.1) : m.get a = Memory.blank := by
  induction m with
  | nil => rfl
  | cons c r ih =>
    have hc : c.1 ≠ a := by have := h c (List.mem_cons_self ..); omega
    simp only [Memory.get, if_neg hc]
    exact ih fun d hd => h d (List.mem_cons_of_mem _ hd)

/-- Addresses a write may add. -/
theorem Memory.mem_set (m : Memory) (a : Nat) (b : Byte) (d : Host.Cell) (h : d ∈ m.set a b) : d ∈ m ∨ d = (a, b) := by
  induction m with
  | nil =>
    simp only [Memory.set] at h
    split at h
    · exact absurd h (List.not_mem_nil)
    · exact .inr (List.mem_singleton.mp h)
  | cons c r ih =>
    simp only [Memory.set] at h
    split at h
    · split at h
      · exact .inl h
      · rcases List.mem_cons.mp h with h | h
        · exact .inr h
        · exact .inl h
    · split at h
      · split at h
        · exact .inl (List.mem_cons_of_mem _ h)
        · rcases List.mem_cons.mp h with h | h
          · exact .inr h
          · exact .inl (List.mem_cons_of_mem _ h)
      · rcases List.mem_cons.mp h with h | h
        · exact .inl (h ▸ List.mem_cons_self ..)
        · rcases ih h with h | h
          · exact .inl (List.mem_cons_of_mem _ h)
          · exact .inr h

/-- Writing a byte keeps the canonical form. -/
theorem Memory.wf_set (m : Memory) (a : Nat) (b : Byte) (h : m.wf = true) : (m.set a b).wf = true := by
  induction m with
  | nil =>
    simp only [Memory.set]
    split
    · rfl
    · next hb => simpa [Memory.wf] using hb
  | cons c r ih =>
    obtain ⟨hc, hall, hw⟩ := (Memory.wf_cons c r).mp h
    simp only [Memory.set]
    split
    · next hlt =>
      split
      · exact h
      · next hb =>
        refine (Memory.wf_cons _ _).mpr ⟨hb, ?_, h⟩
        intro d hd
        rcases List.mem_cons.mp hd with rfl | hd
        · exact hlt
        · exact Nat.lt_trans hlt (hall d hd)
    · next hlt =>
      split
      · next he =>
        split
        · exact hw
        · next hb => exact (Memory.wf_cons _ _).mpr ⟨hb, fun d hd => he ▸ hall d hd, hw⟩
      · next he =>
        refine (Memory.wf_cons _ _).mpr ⟨hc, ?_, ih hw⟩
        intro d hd
        rcases Memory.mem_set r a b d hd with hd | rfl
        · exact hall d hd
        · show c.1 < a
          omega

/-- Writing bytes keeps the canonical form. -/
theorem Memory.wf_write (m : Memory) (a : Nat) (bs : List Byte) (h : m.wf = true) : (m.write a bs).wf = true := by
  induction bs generalizing m a with
  | nil => exact h
  | cons b r ih => exact ih _ _ (Memory.wf_set m a b h)

/-- A byte read where it was written. -/
theorem Memory.get_set_self (m : Memory) (a : Nat) (b : Byte) (h : m.wf = true) : (m.set a b).get a = b := by
  induction m with
  | nil =>
    simp only [Memory.set]
    split
    · next hb => exact hb.symm
    · simp [Memory.get]
  | cons c r ih =>
    obtain ⟨_, hall, hw⟩ := (Memory.wf_cons c r).mp h
    simp only [Memory.set]
    split
    · next hlt =>
      split
      · next hb =>
        rw [hb]
        exact Memory.get_below _ _ fun d hd => by
          rcases List.mem_cons.mp hd with rfl | hd
          · exact hlt
          · exact Nat.lt_trans hlt (hall d hd)
      · simp [Memory.get]
    · next hlt =>
      split
      · next he =>
        split
        · next hb => rw [hb]; exact Memory.get_below _ _ fun d hd => he ▸ hall d hd
        · simp [Memory.get]
      · next he =>
        have hn : ¬ c.1 = a := fun e => he e.symm
        simp only [Memory.get, if_neg hn]
        exact ih hw

/-- A byte read elsewhere. -/
theorem Memory.get_set_ne (m : Memory) (a x : Nat) (b : Byte) (hx : x ≠ a) : (m.set a b).get x = m.get x := by
  induction m with
  | nil =>
    simp only [Memory.set]
    split
    · rfl
    · simp [Memory.get, Ne.symm hx]
  | cons c r ih =>
    simp only [Memory.set]
    split
    · split
      · rfl
      · simp only [Memory.get, if_neg (Ne.symm hx)]
    · split
      · next he =>
        have hn : ¬ c.1 = x := fun e => hx (by omega)
        split
        · simp only [Memory.get, if_neg hn]
        · simp only [Memory.get, if_neg (Ne.symm hx), if_neg hn]
      · simp only [Memory.get]
        split
        · rfl
        · exact ih

/-- Bytes outside a write read as before. -/
theorem Memory.get_write_outside (m : Memory) (a x : Nat) (bs : List Byte) (h : x < a ∨ a + bs.length ≤ x) :
    (m.write a bs).get x = m.get x := by
  induction bs generalizing m a with
  | nil => rfl
  | cons b r ih =>
    simp only [List.length_cons] at h
    simp only [Memory.write]
    rw [ih (m.set a b) (a + 1) (by omega)]
    exact Memory.get_set_ne m a x b (by omega)

/-- Bytes inside a write read as written. -/
theorem Memory.get_write_inside (m : Memory) (a i : Nat) (bs : List Byte) (hw : m.wf = true) (h : i < bs.length) :
    (m.write a bs).get (a + i) = bs[i] := by
  induction bs generalizing m a i with
  | nil => exact absurd h (Nat.not_lt_zero _)
  | cons b r ih =>
    cases i with
    | zero =>
      simp only [Memory.write, Nat.add_zero, List.getElem_cons_zero]
      rw [Memory.get_write_outside _ _ _ _ (by omega)]
      exact Memory.get_set_self m a b hw
    | succ j =>
      simp only [Memory.write, List.getElem_cons_succ]
      have hj : j < r.length := by simpa using h
      have := ih (m.set a b) (a + 1) j (Memory.wf_set m a b hw) hj
      rw [← this]
      congr 1
      omega

@[simp] theorem Memory.length_read (m : Memory) (a n : Nat) : (m.read a n).length = n := by
  induction n generalizing a with
  | zero => rfl
  | succ n ih => simp [Memory.read, ih]

/-- The bytes written are the bytes read. -/
theorem Memory.read_write_self (m : Memory) (a : Nat) (bs : List Byte) (hw : m.wf = true) :
    (m.write a bs).read a bs.length = bs := by
  suffices h : ∀ n i, i + n = bs.length → (m.write a bs).read (a + i) n = bs.drop i by simpa using h bs.length 0 (by omega)
  intro n
  induction n with
  | zero =>
    intro i hi
    simp only [Memory.read]
    rw [List.drop_eq_nil_of_le (by omega)]
  | succ n ih =>
    intro i hi
    have hlt : i < bs.length := by omega
    simp only [Memory.read]
    rw [Memory.get_write_inside m a i bs hw hlt, Nat.add_assoc, ih (i + 1) (by omega)]
    exact (List.drop_eq_getElem_cons hlt).symm

/-- Reset memory is canonical. -/
theorem reset_mem_wf : State.reset.mem.wf = true := rfl

/-! ### The operations over memory -/

/-- A cistern write keeps the canonical form. -/
theorem Core.cisternWrite_wf (k : Core) (o : Nat) (bs : List Byte) (h : k.cistern.wf = true) :
    (k.cisternWrite o bs).cistern.wf = true := Memory.wf_write _ _ _ h

/-- What a write makes of its line keeps the canonical form. -/
theorem State.mergeLine_wf (s : State) (pa : Nat) (bs : List Byte) (raw : Bool) (v : Agent) (rmw : Bool)
    (rels : List Nat) (bound : Option CoreId) (h : s.mem.wf = true) :
    (s.mergeLine pa bs raw v rmw rels bound).1.mem.wf = true := by
  simp only [State.mergeLine]
  split
  · exact h
  · exact Memory.wf_write _ _ _ h

theorem State.ringWrite_wf (s : State) (j : Fin 3) (b : Nat) (w : List Byte) (ws : List (List Byte)) (h : s.mem.wf = true) :
    (s.ringWrite j b w ws).mem.wf = true := by
  simp only [State.ringWrite]
  have hm := s.mergeLine_wf (b + 32 * (s.rings[j].producer % 2 ^ s.rings[j].log2n)) w false .engine false [] none h
  split
  · split <;> exact hm
  · exact hm

/-- Writing the records of a ring keeps the canonical form. -/
theorem drainRing_wf (n : Nat) (s : State) (j : Fin 3) (h : s.mem.wf = true) : (drainRing n s j).mem.wf = true := by
  induction n generalizing s with
  | zero => exact h
  | succ n ih =>
    simp only [drainRing]
    split
    · split
      · exact ih _ (State.ringWrite_wf _ _ _ _ _ h)
      · exact h
    · exact h

theorem State.flushRing_wf (s : State) (j : Fin 3) (h : s.mem.wf = true) : (s.flushRing j).mem.wf = true :=
  drainRing_wf _ _ _ h

theorem State.postRecord_wf (s : State) (j : Fin 3) (bs : List Byte) (h : s.mem.wf = true) :
    (s.postRecord j bs).mem.wf = true := State.flushRing_wf _ j h

theorem State.hostEvent_wf (s : State) (kind : Byte) (code : Code) (q : BitVec 16) (f : BitVec 32) (x : Word)
    (h : s.mem.wf = true) : (s.hostEvent kind code q f x).mem.wf = true := State.postRecord_wf _ 1 _ h

theorem State.recovery_wf (s : State) (kind sev : Byte) (code : Code) (what : Word) (core sp : BitVec 16)
    (f : BitVec 32) (n : Nat) (h : s.mem.wf = true) : (s.recovery kind sev code what core sp f n).mem.wf = true := by
  have h2 : ∀ b : Bool, (if b then s.hostEvent 4 0 0xFFFF 0 0 else s).mem.wf = true := by
    intro b
    cases b
    · exact h
    · exact s.hostEvent_wf _ _ _ _ _ h
  simp only [State.recovery]
  split
  · exact h2 _
  · exact State.postRecord_wf _ 2 _ (h2 _)

theorem State.perform_wf (s : State) (pa : Nat) (bs : List Byte) (raw : Bool) (v : Agent) (rmw : Bool)
    (rels : List Nat) (bound : Option CoreId) (h : s.mem.wf = true) :
    (s.perform pa bs raw v rmw rels bound).1.mem.wf = true := by
  have hm := s.mergeLine_wf pa bs raw v rmw rels bound h
  simp only [State.perform]
  split
  · next heq => rw [heq] at hm; exact hm
  · next heq =>
    rw [heq] at hm
    dsimp only
    split
    · exact hm
    · exact State.recovery_wf _ _ _ _ _ _ _ _ _ hm

theorem State.performPending_wf (s : State) (w : Pending) (h : s.mem.wf = true) : (s.performPending w).mem.wf = true := by
  have hp := s.perform_wf w.pa w.bytes w.raw w.by_ false w.rels (w.bind.map fun _ => w.core) h
  simp only [State.performPending]
  split
  · next heq => rw [heq] at hp; exact hp
  · next heq => rw [heq] at hp; exact hp

theorem performAll_wf (sel : Pending → Bool) (ws : List Pending) (s : State) (h : s.mem.wf = true) :
    (performAll sel ws s).mem.wf = true := by
  induction ws generalizing s with
  | nil => exact h
  | cons w r ih =>
    simp only [performAll]
    split
    · exact ih _ (s.performPending_wf w h)
    · exact ih _ h

theorem State.performWhere_wf (s : State) (sel : Pending → Bool) (h : s.mem.wf = true) :
    (s.performWhere sel).mem.wf = true := performAll_wf _ _ _ h

theorem State.release_wf (s : State) (c : CoreId) (h : s.mem.wf = true) : (s.release c).mem.wf = true :=
  s.performWhere_wf _ h

theorem State.postPage_wf (s : State) (va : Word) (acc : BitVec 3) (rq : Byte) (sp : BitVec 8) (f : BitVec 32)
    (c : Option CoreId) (h : s.mem.wf = true) : (s.postPage va acc rq sp f c).1.mem.wf = true := by
  simp only [State.postPage]
  split
  · exact h
  · exact State.hostEvent_wf _ _ _ _ _ _ (State.postRecord_wf _ 0 _ h)

theorem State.meet_wf (s : State) (core sp : BitVec 16) (f : BitVec 32) (code : Code) (d : Damage) (h : s.mem.wf = true) :
    (s.meet core sp f code d).mem.wf = true := by
  cases d <;> exact State.recovery_wf _ _ _ _ _ _ _ _ _ h

/-- The stop of a group for a fatal end leaves memory. -/
@[simp] theorem State.haltCores_mem (s : State) (cs : List CoreId) : (s.haltCores cs).mem = s.mem := by
  induction cs generalizing s with
  | nil => rfl
  | cons c r ih => exact ih _

/-- A trap leaves memory. -/
@[simp] theorem State.takeTrap_mem (s : State) (c : CoreId) (cause : Cause) (epc : Word) :
    (s.takeTrap c cause epc).mem = s.mem := by
  simp only [State.takeTrap, State.haltGroup]
  split
  · split <;> simp
  · rfl

/-- Taking a fault, or the asynchronous trap that comes before it, leaves memory. -/
@[simp] theorem State.takeFault_mem (s : State) (c : CoreId) (cause : Cause) (epc : Word) :
    (s.takeFault c cause epc).mem = s.mem := by
  simp only [State.takeFault, State.takeAsync]
  split
  · split <;> simp
  · simp

/-- What an agent has seen does not touch memory. -/
@[simp] theorem State.keepLag_mem (s : State) (sel : Stale → Bool) : (s.keepLag sel).mem = s.mem := rfl

@[simp] theorem State.caughtUp_mem (s : State) (c : CoreId) : (s.caughtUp c).mem = s.mem := rfl

/-- However an instruction stops, memory keeps its canonical form. -/
theorem State.stop_wf (s : State) (c : CoreId) (i : Instr) (e : Stop) (h : s.mem.wf = true) : (s.stop c i e).mem.wf = true := by
  cases e with
  | trap cause after => cases after <;> simpa [State.stop] using h
  | wait why => exact h
  | page va access =>
    simp only [State.stop, State.modPump_mem, State.caughtUp_mem]
    exact State.postPage_wf _ _ _ _ _ _ _ h
  | damage d code ea =>
    simp only [State.stop, State.takeFault_mem, State.meetAt]
    exact State.meet_wf _ _ _ _ _ _ h

/-- Where nothing stops an instruction, its outcome is its own effect. -/
theorem State.outcome_ok (s : State) (c : CoreId) (i : Instr) (t : State) : s.outcome c i (.ok t) = .next t := rfl

/-- An instruction that meets a stop answers the state that the stop leaves. -/
theorem State.outcome_error (s : State) (c : CoreId) (i : Instr) (e : Stop) : s.outcome c i (.error e) = .next (s.stop c i e) :=
  rfl

/-- An instruction of a pump always answers a state. -/
theorem State.outcome_next (s : State) (c : CoreId) (i : Instr) (r : Except Stop State) : ∃ t, s.outcome c i r = .next t := by
  cases r with
  | ok t => exact ⟨t, rfl⟩
  | error e => exact ⟨_, rfl⟩

end Sys2Proof.Machine
end

