-- ==== Sys2Proof/Laws/Steps.lean ====
section
/-! SUPPORT. What each shared operation of a step does, in the terms of Safety: results, jumps, traps, waits, the end of
a wait, and a release that finds nothing to perform. -/

namespace Sys2Proof

open Machine

/-! ### One pump of a state -/

theorem setAt_setAt {α : Type} {n : Nat} (v : Vector α n) (i : Fin n) (a b : α) : setAt (setAt v i a) i b = setAt v i b := by
  simp [setAt]

theorem setAt_getElem {α : Type} {n : Nat} (v : Vector α n) (i : Fin n) : setAt v i v[i] = v := by
  simp [setAt]

/-- A core replaced by itself changes nothing. -/
theorem setCore_self (s : State) (c : CoreId) : s.setCore c (s.core c) = s := by
  simp [State.setCore, State.core, setAt]

theorem setCore_setCore (s : State) (c : CoreId) (k l : Core) : (s.setCore c k).setCore c l = s.setCore c l := by
  simp [State.setCore, setAt]

/-- Two changes of one pump are one. -/
theorem modPump_modPump (s : State) (c : CoreId) (f g : Pump → Pump) :
    (s.modPump c f).modPump c g = s.modPump c fun p => g (f p) := by
  simp [State.modPump, State.modCore, setCore_setCore]

/-- A pump replaced by itself changes nothing. -/
theorem modPump_self (s : State) (c : CoreId) : (s.modPump c fun _ => s.pump c) = s := by
  have h : ({ s.core c with pump := s.pump c } : Core) = s.core c := rfl
  simp only [State.modPump, State.modCore, h, setCore_self]

theorem modPump_congr (s : State) (c : CoreId) {f g : Pump → Pump} (h : f (s.pump c) = g (s.pump c)) :
    s.modPump c f = s.modPump c g := by
  simp only [State.modPump, State.modCore]
  rw [show f (s.core c).pump = g (s.core c).pump from h]

/-- A state that differs by one change of a pump differs by that pump only. -/
theorem onlyPump_modPump (s : State) (c : CoreId) (f : Pump → Pump) : OnlyPump c s (s.modPump c f) := by
  show s.modPump c f = s.modPump c fun _ => (s.modPump c f).pump c
  exact modPump_congr s c (by simp)

theorem OnlyPump.trans {c : CoreId} {s t u : State} (h : OnlyPump c s t) (k : OnlyPump c t u) : OnlyPump c s u := by
  unfold OnlyPump at *
  rw [k, h, modPump_modPump]
  exact modPump_congr s c (by simp)

theorem OnlyPump.refl (c : CoreId) (s : State) : OnlyPump c s s := (modPump_self s c).symm

/-- A state that differs by one change of a core differs by that core only. -/
theorem onlyCore_modCore (s : State) (c : CoreId) (f : Core → Core) : OnlyCore c s (s.modCore c f) := by
  simp [OnlyCore, State.modCore]

theorem OnlyPump.onlyCore {c : CoreId} {s t : State} (h : OnlyPump c s t) : OnlyCore c s t := by
  unfold OnlyCore
  have e : t.core c = { s.core c with pump := t.pump c } := by
    have := congrArg (fun u => State.core u c) h
    simpa [State.core_modPump_self] using this
  rw [e]; exact h

/-! ### Results -/

/-- A result written through `d` (R92). -/
theorem gives_giveResult (s : State) (d : Reg) (v : Word) : Gives s (s.giveResult s.cur d v) d v 0 := by
  refine ⟨onlyPump_modPump _ _ _, ⟨?_, ?_, ?_, ?_⟩⟩
  · intro r; simp only [State.giveResult, State.pump_modPump_self]; exact (s.pump s.cur).read_result d r v
  · simp [State.giveResult, Pump.advance, Pump.result]
  · simp [State.giveResult, Pump.advance, Pump.result]
  · simp only [State.giveResult, State.pump_modPump_self, Pump.advance, Pump.result]
    cases d with
    | g i => simp only [Pump.write]; split <;> rfl
    | k i => rfl
    | last => rfl

/-- A meaning that writes one result computes its value. -/
theorem computes_of (i : Instr) (s : State) (d : Reg) (v : Word) (P : Word → Prop)
    (h : exec i s = .next (s.giveResult s.cur d v)) (hv : P v) : Computes i s d P :=
  ⟨_, v, h, gives_giveResult s d v, hv⟩

/-- A meaning that only moves the pc (R98, R112). -/
theorem jumps_of (i : Instr) (s : State) (a : Word)
    (h : exec i s = .next (s.modPump s.cur fun p => { p with pc := a })) : Jumps i s a :=
  ⟨_, h, onlyPump_modPump _ _ _, by simp⟩

/-- A meaning that only goes on. -/
theorem jumps_goOn (i : Instr) (s : State) (h : exec i s = .next (s.goOn s.cur)) : Jumps i s (nextPc s) :=
  ⟨_, h, onlyPump_modPump _ _ _, by simp [State.goOn, Pump.advance, nextPc]⟩

/-! ### Traps -/

/-- A trap that can be taken is entered as R117 says, and changes only its pump. -/
theorem entered_takeTrap (p : Pump) (now : Nat) (cause : Cause) (epc : Word) (h : CanTrap p) :
    Entered p ((p.unblock now).takeTrap cause epc) cause epc := by
  obtain ⟨h1, h2⟩ := h
  have e : (p.unblock now).takeTrap cause epc =
      { p.unblock now with
        tcause := cause, epc := va56 epc, savedLast := p.last, pht := p.ht, ht := true, pc := p.tvec, block := none, page := none } := by
    unfold Pump.takeTrap Pump.refuses Pump.unblock
    have h3 : ¬ p.tvec = 0#64 := h2.1
    split <;> simp [h1, h3]
  rw [e]
  unfold Pump.unblock
  split
  · exact ⟨rfl, rfl, rfl, rfl, rfl, rfl, rfl, fun a b => by simp_all⟩
  · exact ⟨rfl, rfl, rfl, rfl, rfl, rfl, rfl, fun _ _ => rfl⟩

/-- A trap that can be taken stops nothing but the pump's instruction. -/
theorem takeTrap_of_canTrap (s : State) (c : CoreId) (cause : Cause) (epc : Word) (h : CanTrap (s.pump c)) :
    s.takeTrap c cause epc = s.modPump c fun p => (p.unblock s.now).takeTrap cause epc := by
  obtain ⟨h1, h2⟩ := h
  have h3 : ¬ (s.pump c).tvec = 0#64 := h2.1
  simp [State.takeTrap, Pump.refuses, h1, h3]

theorem traps_takeTrap (c : CoreId) (i : Instr) (s : State) (cause : Cause) (epc : Word) (h : CanTrap (s.pump c))
    (e : exec i s = .next (s.takeTrap c cause epc)) : TrapsOn c i s cause epc := by
  refine ⟨_, by rw [e, takeTrap_of_canTrap s c cause epc h], onlyPump_modPump _ _ _, ?_⟩
  simp only [State.pump_modPump_self]
  exact entered_takeTrap _ _ _ _ h

/-- An attempt that ends in a precise fault is that fault at the instruction. -/
theorem faults_of (i : Instr) (s : State) (code : Code) (tval : Word) (r : Except Stop State)
    (e : exec i s = s.outcome s.cur i r) (hr : r = .error (fault code tval)) (h : CanTrap (s.pump s.cur)) :
    Faults i s code tval := by
  refine traps_takeTrap _ _ _ _ _ h ?_
  rw [e, hr]
  simp [State.outcome, State.stop, State.takeFault, firstCause, h.2.2, fault, precise]

/-! ### Waits -/

theorem mem_of_keepStale (sel : Stale → Bool) (l seen : List Stale) : ∀ e ∈ keepStale sel l seen, e ∈ l := by
  induction l generalizing seen with
  | nil => simp [keepStale]
  | cons x r ih =>
    intro e he
    simp only [keepStale] at he
    split at he
    · rcases List.mem_cons.mp he with rfl | h
      · simp
      · exact List.mem_cons_of_mem _ (ih _ e h)
    · exact List.mem_cons_of_mem _ (ih _ e he)

/-- What is left of the writes that are not seen yet was so before: more is seen (R262). -/
theorem seesMore_keepLag (s : State) (sel : Stale → Bool) : SeesMore s (s.keepLag sel) :=
  fun e he => ⟨e, mem_of_keepStale sel _ _ e he, rfl⟩

/-- A pump whose next loads issue later (R485) is as it was, and sees more. -/
theorem onlyPumpAndOrder_caughtUp (s : State) (c : CoreId) (f : Pump → Pump) :
    OnlyPumpAndOrder c s ((s.caughtUp c).modPump c f) := by
  refine ⟨?_, fun e he => seesMore_keepLag s _ e he⟩
  have h : ((s.caughtUp c).modPump c f).pump c = f (s.pump c) := by simp; rfl
  rw [h]
  rfl

theorem waits_of (i : Instr) (s : State) (why : Option (BitVec 8)) (r : Except Stop State)
    (e : exec i s = s.outcome s.cur i r) (hr : r = .error (.wait why)) : Waits i s why := by
  refine ⟨(s.caughtUp s.cur).modPump s.cur fun p => p.blockIn s.now i why, by rw [e, hr]; rfl,
    onlyPumpAndOrder_caughtUp _ _ _, ?_⟩
  have h : (s.caughtUp s.cur).pump s.cur = s.pump s.cur := rfl
  simp [Pump.blockIn, h]

/-! ### Releases -/

theorem performAll_none (sel : Pending → Bool) (ws : List Pending) (s : State) (h : ∀ w ∈ ws, sel w = false) :
    performAll sel ws s = { s with pending := s.pending ++ ws } := by
  induction ws generalizing s with
  | nil => simp [performAll]
  | cons w r ih =>
    have hw : sel w = false := h w (by simp)
    have hr : ∀ x ∈ r, sel x = false := fun x hx => h x (by simp [hx])
    simp [performAll, hw, ih _ hr]

/-- A release of a core that has no store under way changes nothing (R276). -/
theorem release_none (s : State) (c : CoreId) (h : ∀ w ∈ s.pending, w.core ≠ c) : s.release c = s := by
  unfold State.release State.performWhere
  rw [performAll_none]
  · simp
  · intro w hw; simp [h w hw]

end Sys2Proof
end

