-- ==== Sys2Proof/Laws/Firmware.lean ====
section
/-! SUPPORT. What the writes of engines and of firmware can change: memory with its metadata, what viewers have not seen of
it yet, and the rings of records, and nothing else. -/

namespace Sys2Proof

open Machine

/-- `t` is `s` but for memory, its metadata, what viewers have not seen of it yet, and the rings of firmware. -/
def OnlyMemory (s t : State) : Prop :=
  t = { s with mem := t.mem, codes := t.codes, badMeta := t.badMeta, badData := t.badData, badCache := t.badCache
               rawByNma := t.rawByNma, stale := t.stale, recent := t.recent, releases := t.releases, serial := t.serial
               rings := t.rings }

theorem OnlyMemory.refl (s : State) : OnlyMemory s s := rfl

theorem OnlyMemory.trans {s t u : State} (h : OnlyMemory s t) (k : OnlyMemory t u) : OnlyMemory s u := by
  unfold OnlyMemory at *
  rw [h] at k
  exact k

theorem OnlyMemory.cores {s t : State} (h : OnlyMemory s t) : t.cores = s.cores := by rw [h]
theorem OnlyMemory.queues {s t : State} (h : OnlyMemory s t) : t.queues = s.queues := by rw [h]
theorem OnlyMemory.flows {s t : State} (h : OnlyMemory s t) : t.flows = s.flows := by rw [h]
theorem OnlyMemory.mailbox {s t : State} (h : OnlyMemory s t) : t.mailbox = s.mailbox := by rw [h]
theorem OnlyMemory.pending {s t : State} (h : OnlyMemory s t) : t.pending = s.pending := by rw [h]
theorem OnlyMemory.pump {s t : State} (h : OnlyMemory s t) (c : CoreId) : t.pump c = s.pump c := by
  simp only [State.pump, State.core, h.cores]
theorem OnlyMemory.core {s t : State} (h : OnlyMemory s t) (c : CoreId) : t.core c = s.core c := by
  simp only [State.core, h.cores]

/-- What a write makes of its line (R342, R345). -/
theorem onlyMemory_mergeLine (s : State) (pa : Nat) (bs : List Byte) (raw : Bool) (v : Agent) (rmw : Bool)
    (rels : List Nat) (bound : Option CoreId) : OnlyMemory s (s.mergeLine pa bs raw v rmw rels bound).1 := by
  simp only [State.mergeLine]
  split <;> rfl

theorem onlyMemory_ringWrite (s : State) (j : Fin 3) (b : Nat) (w : List Byte) (ws : List (List Byte)) :
    OnlyMemory s (s.ringWrite j b w ws) := by
  have h := onlyMemory_mergeLine s (b + 32 * (s.rings[j].producer % 2 ^ s.rings[j].log2n)) w false .engine false [] none
  simp only [State.ringWrite]
  split
  · split <;> exact h.trans rfl
  · exact h.trans rfl

theorem onlyMemory_drainRing (n : Nat) (s : State) (j : Fin 3) : OnlyMemory s (drainRing n s j) := by
  induction n generalizing s with
  | zero => exact .refl _
  | succ n ih =>
    simp only [drainRing]
    split
    · split
      · exact (onlyMemory_ringWrite _ _ _ _ _).trans (ih _)
      · exact .refl _
    · exact .refl _

/-- Records wait, or are written into their ring, and only memory and the rings change (R476). -/
theorem onlyMemory_postRecord (s : State) (j : Fin 3) (bs : List Byte) : OnlyMemory s (s.postRecord j bs) :=
  .trans (t := { s with rings := _ }) rfl (onlyMemory_drainRing _ _ _)

theorem onlyMemory_hostEvent (s : State) (kind : Byte) (code : Code) (q : BitVec 16) (f : BitVec 32) (x : Word) :
    OnlyMemory s (s.hostEvent kind code q f x) :=
  .trans (t := { s with rings := _ }) rfl (onlyMemory_postRecord _ _ _)

/-- A record added after a change of the rings. -/
theorem OnlyMemory.posted {s u : State} (h : OnlyMemory s u) (v : Vector Ring 3) (j : Fin 3) (bs : List Byte) :
    OnlyMemory s ({ u with rings := v }.postRecord j bs) :=
  h.trans (.trans (t := { u with rings := v }) rfl (onlyMemory_postRecord _ _ _))

theorem onlyMemory_recovery (s : State) (kind sev : Byte) (code : Code) (what : Word) (core sp : BitVec 16)
    (f : BitVec 32) (n : Nat) : OnlyMemory s (s.recovery kind sev code what core sp f n) := by
  have h (b : Bool) : OnlyMemory s (if b = true then s.hostEvent 4 0 0xFFFF 0 0 else s) := by
    cases b
    · exact .refl _
    · exact onlyMemory_hostEvent _ _ _ _ _ _
  simp only [State.recovery]
  split
  · exact h _
  · exact (h _).posted _ _ _

/-- A write that reaches its point of coherence (R342, R345). -/
theorem onlyMemory_perform (s : State) (pa : Nat) (bs : List Byte) (raw : Bool) (v : Agent) (rmw : Bool)
    (rels : List Nat) (bound : Option CoreId) : OnlyMemory s (s.perform pa bs raw v rmw rels bound).1 := by
  have hm := onlyMemory_mergeLine s pa bs raw v rmw rels bound
  simp only [State.perform]
  split
  · next heq => rw [heq] at hm; exact hm
  · next heq =>
    rw [heq] at hm
    dsimp only
    split
    · exact hm
    · exact hm.trans (onlyMemory_recovery _ _ _ _ _ _ _ _ _)

/-- A write of an agent that is no pump, which nothing tells of a dropped line. -/
theorem onlyMemory_engineWrite (s : State) (v : Agent) (pa : Nat) (bs : List Byte) (rels : List Nat)
    (hv : ∀ k, v ≠ .pump k) : OnlyMemory s (s.engineWrite v pa bs rels) := by
  have h := onlyMemory_perform s pa bs false v false rels none
  unfold State.engineWrite
  split
  · exact absurd rfl (hv _)
  · next heq => rw [heq] at h; exact h

theorem onlyMemory_engineWriteAll (n : Nat) (s : State) (v : Agent) (pa : Nat) (bs : List Byte) (hv : ∀ k, v ≠ .pump k) :
    OnlyMemory s (s.engineWriteAll v pa bs n) := by
  induction n generalizing s pa bs with
  | zero => exact .refl _
  | succ n ih =>
    simp only [State.engineWriteAll]
    split
    · exact .refl _
    · exact (onlyMemory_engineWrite _ _ _ _ _ hv).trans (ih _ _ _)

/-- The end of a mailbox command changes the mailbox too (R475). -/
theorem answer_eq (s : State) (r : Byte) :
    OnlyMemory { s with mailbox := { s.mailbox with busy := false, overrun := false, result := r } } (s.answer r) := by
  simp only [State.answer]
  split
  · exact onlyMemory_hostEvent _ _ _ _ _ _
  · exact .refl _

end Sys2Proof
end

