-- ==== Sys2Proof/Laws/Tokens.lean ====
section
/-! SUPPORT. A token is read back from its word, and a line from its stored form (R147 to R149, R338). -/

namespace Sys2Proof.Machine

open Sys2Proof

/-- The low part of an appended vector. -/
theorem extract_append_low {a b : Nat} (x : BitVec a) (y : BitVec b) : (x ++ y).extractLsb' 0 b = y := by
  ext i hi
  simp [BitVec.getLsbD_append, hi]

/-- The high part of an appended vector. -/
theorem extract_append_high {a b : Nat} (x : BitVec a) (y : BitVec b) : (x ++ y).extractLsb' b a = x := by
  ext i hi
  simp [BitVec.getLsbD_append, hi]

/-- A field inside the low part of an appended vector. -/
theorem extract_append_inside {a b : Nat} (x : BitVec a) (y : BitVec b) (lo n : Nat) (h : lo + n ≤ b) :
    (x ++ y).extractLsb' lo n = y.extractLsb' lo n := by
  ext i hi
  have : lo + i < b := by omega
  simp [BitVec.getLsbD_append, this]

/-- A type is read back from its code: stop levels run from 1 (R148). -/
theorem TokKind.ofCode_code (k : TokKind) (h : k ≠ .stop 0) : TokKind.ofCode? k.code = some k := by
  cases k with
  | stop lv => revert lv; decide
  | data => rfl
  | mark => rfl
  | scale => rfl
  | abort => rfl

/-- A token whose fields R148 admits is read back from the word in which it moves (R147, R149). -/
theorem Token.ofWord_word (t : Token) (hk : t.kind ≠ .stop 0) (hs : t.seq < 4096) (hp : t.kind.payloadOk t.payload = true) :
    Token.ofWord? t.word t.scale t.poison = some t := by
  have hb : t.word.extractLsb' 0 272 = t.body := extract_append_low _ _
  have hc : t.word.extractLsb' 272 8 = crc8 t.body := extract_append_high _ _
  have hin (lo n : Nat) (h : lo + n ≤ 272) : t.word.extractLsb' lo n = t.body.extractLsb' lo n :=
    extract_append_inside _ _ _ _ h
  have hcode : t.word.extractLsb' 268 4 = t.kind.code := by
    rw [hin _ _ (by omega)]; exact extract_append_high _ _
  have hseq : t.word.extractLsb' 256 12 = BitVec.ofNat 12 t.seq := by
    rw [hin _ _ (by omega), Token.body, extract_append_inside _ _ _ _ (by omega)]; exact extract_append_high _ _
  have hpay : t.word.extractLsb' 0 256 = t.payload := by
    rw [hin _ _ (by omega), Token.body, extract_append_inside _ _ _ _ (by omega)]; exact extract_append_low _ _
  have hmod : t.seq % 4096 = t.seq := Nat.mod_eq_of_lt hs
  simp [Token.ofWord?, hb, hc, hcode, hseq, hpay, TokKind.ofCode_code _ hk, hp, hmod]

/-- A mask names the bytes that are not zero. -/
theorem lineMask_bit (b : Byte) (r : List Byte) : lineMask (b :: r) % 2 = if b = 0 then 0 else 1 := by
  simp only [lineMask]; split <;> omega

theorem lineMask_rest (b : Byte) (r : List Byte) : lineMask (b :: r) / 2 = lineMask r := by
  simp only [lineMask]; split <;> omega

/-- The bytes of a line from its mask and its bytes that are not zero, whatever follows them. -/
theorem spreadLine_mask (bs pad : List Byte) (m i : Nat) (h : m / 2 ^ i = lineMask bs) :
    spreadLine m i (bs.filter (· ≠ 0) ++ pad) bs.length = bs := by
  induction bs generalizing i with
  | nil => rfl
  | cons b r ih =>
    have hb := lineMask_bit b r
    have hn : m / 2 ^ (i + 1) = lineMask r := by
      rw [Nat.pow_succ, ← Nat.div_div_eq_div_mul, h, lineMask_rest]
    have hr := ih (i + 1) hn
    simp only [List.length_cons, spreadLine, h, hb]
    by_cases hz : b = 0
    · subst hz
      simpa using hr
    · have hf : (b :: r).filter (· ≠ 0) = b :: r.filter (· ≠ 0) := List.filter_cons_of_pos (by simpa using hz)
      rw [hf, if_neg hz]
      simpa using hr

theorem lineMask_lt (bs : List Byte) : lineMask bs < 2 ^ bs.length := by
  induction bs with
  | nil => decide
  | cons b r ih => simp only [lineMask, List.length_cons, Nat.pow_succ]; split <;> omega

/-- A number that fits is read back from its bytes (R8). -/
theorem leNat_toLE (n v : Nat) (h : v < 256 ^ n) : leNat (toLE n v) = v := by
  induction n generalizing v with
  | zero => simp only [toLE, leNat]; simp at h; exact h.symm
  | succ n ih =>
    have : v / 256 < 256 ^ n := by rw [Nat.pow_succ] at h; exact Nat.div_lt_of_lt_mul (by omega)
    simp only [toLE, leNat, ih _ this, BitVec.toNat_ofNat]
    omega

/-- A line is read back from its stored form (R338). -/
theorem unpackLine_packLine (bs : List Byte) (h : bs.length = 256) : unpackLine (packLine bs) = bs := by
  have hm : leNat (toLE 32 (lineMask bs)) = lineMask bs := leNat_toLE 32 _ (by have := lineMask_lt bs; rw [h] at this; exact this)
  have hl : (toLE 32 (lineMask bs)).length = 32 := rfl
  have ht : (packLine bs).take 32 = toLE 32 (lineMask bs) := by
    simp only [packLine, List.append_assoc]; exact List.take_left' hl
  have hd : (packLine bs).drop 32 = bs.filter (· ≠ 0) ++
      List.replicate (((bs.filter (· ≠ 0)).length + 31) / 32 * 32 - (bs.filter (· ≠ 0)).length) 0 := by
    simp only [packLine, List.append_assoc]; exact List.drop_left' hl
  rw [unpackLine, ht, hd, hm, ← h]
  exact spreadLine_mask bs _ _ 0 (by simp)

end Sys2Proof.Machine
end

