-- ==== Sys2Proof/Tests/Slice0.lean ====
section
/-! SUPPORT. Tests: ill-formed instructions refused, words decoded by hand from the encodings, single steps with results
from the manual, and for each statement a state and operands that meet its hypotheses. -/


namespace Sys2Proof.Tests

set_option Elab.async false

open Sys2Proof Machine

/-! ### The small states of the tests -/

/-- Core 0 runs at 0x1000 with a trap vector; its code section is [0x1000, 0x2000). Page 0 holds the code at physical address 0,
page 0x10000 holds data at 0x20000, and page 0x20000 read-only data at 0x30000. g5 = 7, g6 = 9, g7 = 0x10008, lk = 0x1040. -/
def pump0 : Pump :=
  { Pump.reset with
    run := .running
    tvec := 0x9000
    pc := 0x1000
    g := setAt (setAt (setAt (setAt Pump.reset.g 5 7) 6 9) 7 0x10008) 62 0x1040 }

def core0 : Core :=
  { Core.reset with
    pump := pump0
    launch := { Launch.reset with codeLo := 0x1000, codeHi := 0x2000, group := [0, 1, 2, 3], image := 0x10000 }
    tlb := [{ space := 0, vbase := 0, size := 65536, pbase := 0, r := true, w := true, x := true },
            { space := 0, vbase := 0x10000, size := 65536, pbase := 0x20000, r := true, w := true, x := false },
            { space := 0, vbase := 0x20000, size := 65536, pbase := 0x30000, r := true, w := false, x := false }] }

def base : State := { State.reset with stage := 4, cores := setAt State.reset.cores 0 core0 }

/-- Page tables of space 0 at 0x400000 (R428 to R430): the first 2 MB map to themselves, with every permission. -/
def tables : Memory :=
  ((Memory.write [] 0x40_0000 (toLE 8 0x40_1001)).write 0x40_1000 (toLE 8 0x40_2001)).write 0x40_2000 (toLE 8 31)

/-- `base` with those page tables in place of the TLB entries, and the bytes `bs` at address `a`. -/
def paged (m : List (Nat × List Byte)) : State :=
  { base with mem := m.foldl (fun (t : Memory) (w : Nat × List Byte) => t.write w.1 w.2) tables, spaces := [(0, 0x40_0000)] }.modCore 0 fun k => { k with tlb := [] }

/-- `base` with another pump, core, or polder of core 0. -/
def withPump (f : Pump → Pump) : State := base.modPump 0 f
def withCore (f : Core → Core) : State := base.modCore 0 f
def withFab (f : Fabric → Fabric) : State := base.modFab 0 f

/-- `base` with one g register, or with the bytes of memory from an address on. -/
def withG (i : Fin 64) (v : Word) : State := withPump fun p => { p with g := setAt p.g i v }
def withMem (a : Nat) (bs : List Byte) : State := { base with mem := Memory.write [] a bs }

/-- The answer is a next state with the property. -/
def ok (o : Out) (f : State → Bool) : Bool :=
  match o with
  | .next t => f t
  | _ => false

/-- Register `r` of core 0. -/
def reg (t : State) (r : Reg) : Word := (t.pump 0).read r

/-- `exec i s` writes `v` to `g4` and goes on. -/
def gives (i : Instr) (s : State) (v : Word) : Bool :=
  ok (exec i s) fun t => reg t (.g 4) = v && reg t .last = v && (t.pump 0).pc = (s.pump 0).pc + 8

/-- `exec i s` takes a trap at the instruction. -/
def traps (i : Instr) (s : State) (code : Code) (tval : Word) : Bool :=
  ok (exec i s) fun t => (t.pump 0).tcause.code = code && (t.pump 0).tcause.tval = tval &&
    (t.pump 0).epc = (s.pump 0).pc && (t.pump 0).pc = 0x9000 && (t.pump 0).ht

/-- `exec i s` waits with the stall cause. -/
def waits (i : Instr) (s : State) (why : BitVec 8) : Bool :=
  ok (exec i s) fun t => (t.pump 0).block = some i && (t.pump 0).stallWhy = why && (t.pump 0).pc = (s.pump 0).pc

theorem can_trap {s : State} {c : CoreId} (h : (s.pump c).ht = false ∧ (s.pump c).tvec ≠ 0 ∧ (s.pump c).asyncs = []) : CanTrap (s.pump c) := h

/-! ### Well-formed and ill-formed terms, one for each check (R51 to R66) -/

theorem test_wf_zero_word : Instr.wf (.add (.g 0) (.g 0) (.g 0)) = false ∧ Instr.wf (.add (.g 1) (.g 0) (.g 0)) = true := by
  decide
theorem test_wf_bfx : Instr.wf (.bfx (.g 4) (.g 5) 32 32) = false ∧ Instr.wf (.bfx (.g 4) (.g 5) 32 31) = true := by decide
theorem test_wf_bfi : Instr.wf (.bfi (.g 4) (.g 5) 63 1) = false ∧ Instr.wf (.bfi (.g 4) (.g 5) 63 0) = true := by decide
theorem test_wf_aenc : Instr.wf (.aenc .o32 1 2) = false ∧ Instr.wf (.aenc .c16 1 2) = true := by decide
theorem test_wf_arnd : Instr.wf (.arnd .bits .o32 1 (.g 4)) = false ∧ Instr.wf (.arnd .unif .oi 1 (.g 4)) = false ∧
    Instr.wf (.arnd .bits .oi 1 (.g 4)) = true := by decide
theorem test_wf_hset_slots : Instr.wf (.hset false 3 (.g 4) 0 1024) = false := by decide
theorem test_wf_hset_size : Instr.wf (.hset false 3 (.g 4) 4 0) = false ∧ Instr.wf (.hset false 3 (.g 4) 4 1040) = false ∧
    Instr.wf (.hset false 3 (.g 4) 4 1024) = true := by decide
theorem test_wf_waith : Instr.wf (.waith (.g 4) 3 0) = false ∧ Instr.wf (.waith (.g 4) 3 1) = true := by decide
theorem test_wf_advh : Instr.wf (.advh 3 0) = false ∧ Instr.wf (.advh 3 1) = true := by decide
theorem test_wf_stop : Instr.wf (.stop 3 0) = false ∧ Instr.wf (.stop 3 7) = true := by decide
theorem test_wf_swr : Instr.wf (.swr .cycle (.g 4)) = false ∧ Instr.wf (.swr .epc (.g 4)) = true := by decide
theorem test_wf_step : Instr.wf (.siteFire 0 0) = false ∧ Instr.wf .halt = true := by decide

/-! ### Words written out from the encodings -/

-- opcode [63:56], d [55:49], a [48:42], b [41:35], c [34:28] (R53, R57): add g4, g5, g6
theorem test_decode_add : decode (0x00 <<< 56 ||| 4 <<< 49 ||| 5 <<< 42 ||| 6 <<< 35) = .ok (.add (.g 4) (.g 5) (.g 6)) := by
  decide
-- the words that R56 to R66, R103, R113, R296 to R308 and R412 to R415 print
theorem test_decode_li : decode 0x1908_0000_89AB_CDEF = .ok (.li (.g 4) 0x89AB_CDEF) := by decide
theorem test_decode_minn : decode 0x0C08_1028_0000_0000 = .ok (.minn (.g 4) (.g 4) (.g 5)) := by decide
theorem test_decode_li_k : decode 0x1982_0000_0000_0818 = .ok (.li (.k 1) 0x818) := by decide
theorem test_decode_dbnz : decode 0x4600_1C00_FFFF_FFFD = .ok (.dbnz (.g 7) 0xFFFF_FFFD) := by decide
theorem test_decode_ld : decode 0x500E_2C33_0000_0000 = .ok (.ld .d false (some .quad) (.g 7) (.g 11) 0) := by decide
theorem test_decode_st : decode 0x510C_2C33_0000_0000 = .ok (.st .d false (some .quad) (.g 6) (.g 11) 0) := by decide
theorem test_decode_cas : decode 0x600E_2840_92A0_0000 = .ok (.amoCas (.acq .quad) (.g 7) (.g 10) (.g 8) (.g 9)) := by decide
theorem test_decode_fence : decode 0x6100_0000_0030_0000 = .ok (.fence .quad) := by decide
theorem test_decode_nma : decode 0x620C_3000_0000_0004 = .ok (.nma .fadd (.g 6) (.g 12) 4) := by decide
theorem test_decode_aadd : decode 0x7233_4000_0004_0000 = .ok (.aadd (some .o32) 3 3 4) := by decide
theorem test_decode_hset : decode 0x800C_1058_0000_0400 = .ok (.hset false 3 (.g 11) 4 1024) := by decide
theorem test_decode_advh : decode 0x830C_0400_0000_0000 = .ok (.advh 3 1) := by decide
theorem test_decode_kick : decode 0x8800_0000_0000_0000 = .ok (.kick 0) := by decide
theorem test_decode_cfgs : decode 0x9100_0000_0000_0010 = .ok (.cfgs 0 1) := by decide
theorem test_decode_gld : decode 0x9500_5000_0000_0000 = .ok (.gld (.g 20)) := by decide
theorem test_decode_grel : decode 0x9700_0000_0000_0001 = .ok (.grel 1) := by decide
theorem test_decode_dqsteal : decode 0xA208_3400_0000_0000 = .ok (.dqsteal (.g 4) (.g 13)) := by decide
theorem test_decode_notify : decode 0xA500_1838_0000_0000 = .ok (.notify (.g 6) (.g 7)) := by decide
theorem test_decode_bar : decode 0xA800_0000_0030_0000 = .ok (.bar .quad) := by decide
theorem test_decode_trap : decode 0xB000_0000_0000_0005 = .ok (.trap 5) := by decide
theorem test_decode_swr : decode 0xB301_0800_0000_0024 = .ok (.swr .epc (.k 2)) := by decide
theorem test_decode_eret : decode 0xB100_0000_0000_0000 = .ok .eret := by decide
-- R51, R52: the zero word, a set bit the row leaves unused, an opcode no row has
theorem test_reject_zero : decode 0 = .error .zeroWord := by decide
theorem test_reject_unused_bit : (decode 0xB100_0000_0000_0001).isOk = false := by decide
theorem test_reject_opcode : (decode 0xFF00_0000_0000_0000).isOk = false := by decide

/-! ### Steps, traps, memory -/

theorem test_step_runs_li : ok (step (base.withFetchWord 64 0x1908_0000_89AB_CDEF))
    (fun t => reg t (.g 4) = 0xFFFF_FFFF_89AB_CDEF && (t.pump 0).pc = 0x1008) = true := by decide

/-- The hypotheses of `StepRunsTheDecodedInstruction` hold of `base` with `li` at its pc. -/
theorem witness_StepRunsTheDecodedInstruction :
    let s := base.withFetchWord 64 0x1908_0000_89AB_CDEF
    let u := s.nextAct.1
    let v := { u with cur := (0 : CoreId) }
    s.nextAct = (u, .pump 0) ∧ v.shut = false ∧ (v.pump 0).run = .running ∧ (v.pump 0).block = none ∧
      (v.pump 0).page = none ∧ (v.pump 0).asyncs = [] ∧ (v.pump 0).ypend = false ∧ (v.launch 0).inCode (v.pump 0).pc = true ∧
      v.translate 0 (v.pump 0).pc .fetch = .at 0x1000 ∧ v.lineStop 0x1000 (v.pump 0).pc = none ∧
      decode (leWord (v.view 0 0x1000 8)) = .ok (.li (.g 4) 0x89AB_CDEF) :=
  ⟨Prod.ext rfl (by decide), by decide⟩
-- an event of the agenda, on a part that runs and on one that is shut down
theorem witness_StepRunsTheDecodedInstruction_event : let s (x : Bool) := { base with agenda := [{ dt := 7, act := .event .thermalShutdown }], shut := x }
    ((s false).nextAct).2 = .event .thermalShutdown ∧ ok (step (s false)) (fun t => t.shut && t.now = base.now + 7) = true ∧
    ok (step (s true)) (fun t => t.rings = base.rings) = true := by decide +kernel

theorem witness_UnfetchableWordsTrap_word :
    let u := base.nextAct.1
    let v := { u with cur := (0 : CoreId) }
    base.nextAct = (u, .pump 0) ∧ v.shut = false ∧ (v.pump 0).run = .running ∧ (v.pump 0).block = none ∧
      (v.pump 0).page = none ∧ (v.pump 0).asyncs = [] ∧ (v.pump 0).ypend = false ∧ (v.pump 0).ht = false ∧ (v.pump 0).tvec ≠ 0 ∧
      (v.launch 0).inCode (v.pump 0).pc = true ∧ v.translate 0 (v.pump 0).pc .fetch = .at 0x1000 ∧
      v.lineStop 0x1000 (v.pump 0).pc = none ∧ decode (leWord (v.view 0 0x1000 8)) = .error .zeroWord ∧
      ok (step base) (fun t => (t.pump 0).pc = 0x9000 && (t.pump 0).epc = 0x1000 && (t.pump 0).tcause.code = 1) = true :=
  ⟨Prod.ext rfl (by decide), by decide⟩

-- the first address after the code section
theorem witness_UnfetchableWordsTrap_outside :
    let s := withPump fun p => { p with pc := 0x2000 }
    let u := s.nextAct.1
    let v := { u with cur := (0 : CoreId) }
    s.nextAct = (u, .pump 0) ∧ v.shut = false ∧ (v.pump 0).run = .running ∧ (v.pump 0).block = none ∧
      (v.pump 0).page = none ∧ (v.pump 0).asyncs = [] ∧ (v.pump 0).ypend = false ∧ (v.pump 0).ht = false ∧ (v.pump 0).tvec ≠ 0 ∧
      (v.launch 0).inCode (v.pump 0).pc = false ∧
      ok (step s) (fun t => (t.pump 0).tcause = precise 4 0x2000 && (t.pump 0).epc = 0x2000) = true ∧
      traps .instructionFetch s 4 0x2000 = true :=
  ⟨Prod.ext rfl (by decide), by decide⟩

theorem witness_UnfetchableWordsTrap_exec :
    (base.pump 0).ht = false ∧ (base.pump 0).tvec ≠ 0 ∧ traps (.illegalInstruction 3) base 1 3 = true ∧
      (base.launch 0).inCode 0x1000 = true ∧ base.translate 0 0x1000 .fetch = .at 0x1000 ∧ base.lineStop 0x1000 0x1000 = none ∧
      ok (exec .instructionFetch base) (fun t => t.pump 0 = base.pump 0 && t.requests = []) = true := by decide

theorem witness_UnfetchableWordsTrap_absent :
    let s := withCore fun k => { k with tlb := [] }
    (s.launch s.cur).inCode (s.pump 0).pc = true ∧ s.translate 0 (s.pump 0).pc .fetch = .absent ∧
      ok (exec .instructionFetch s) (fun t => (t.pump 0).stallWhy = 8 && t.requests.length = 1) = true := by decide

theorem witness_DecodingInvertsEncoding :
    Instr.wf (.hset true 63 (.k 7) 255 0xF_FFE0) = true ∧
      decode (encode (.hset true 63 (.k 7) 255 0xF_FFE0)) = .ok (.hset true 63 (.k 7) 255 0xF_FFE0) := by decide

theorem reset_memory_wf : MemoryWf State.reset := by
  refine ⟨rfl, fun c => ?_⟩
  simp [State.core, State.reset, Core.reset, Memory.wf]

theorem witness_MemoryStaysCanonical : MemoryWf State.reset ∧ ok (step State.reset) (fun t => t.mem.wf) = true :=
  ⟨reset_memory_wf, by decide⟩

theorem test_memory_blank_entry_removed :
    Memory.write (Memory.write [] 8 [1, 2]) 8 [0] = [(9, 2)] ∧ Memory.wf [(8, 0)] = false ∧ Memory.wf [(9, 2), (8, 1)] = false := by
  decide

/-! ### Integer instructions (R101 to R104): g5 = 7, g6 = 9 -/

-- -1 + 1, 7 - 9, -8, sign extension of an immediate
theorem test_sums : gives (.add (.g 4) (.g 5) (.g 6)) (withG 5 0xFFFF_FFFF_FFFF_FFF7) 0 = true ∧
    gives (.sub (.g 4) (.g 5) (.g 6)) base 0xFFFF_FFFF_FFFF_FFFE = true ∧
    gives (.addi (.g 4) (.g 5) 0xFFFF_FFF8) base 0xFFFF_FFFF_FFFF_FFFF = true ∧
    gives (.agen (.g 4) 0xFFFF_FFF8) base 0xFF8 = true ∧ gives (.mov (.g 4) (.g 5)) base 7 = true := by decide
-- the constant of the worked example after R104: li, lih
theorem test_constants : gives (.li (.g 4) 0x89AB_CDEF) base 0xFFFF_FFFF_89AB_CDEF = true ∧
    gives (.lih (.g 4) 0x0123_4567) (withG 4 0xFFFF_FFFF_89AB_CDEF) 0x0123_4567_89AB_CDEF = true ∧
    gives (.movk (.g 4) 0xBEEF 2) (withG 4 0x1111_2222_3333_4444) 0x1111_BEEF_3333_4444 = true := by decide
theorem test_bitwise : gives (.and (.g 4) (.g 5) (.g 6)) base 1 = true ∧ gives (.or (.g 4) (.g 5) (.g 6)) base 15 = true ∧
    gives (.xor (.g 4) (.g 5) (.g 6)) base 14 = true ∧ gives (.andn (.g 4) (.g 5) (.g 6)) base 6 = true ∧
    gives (.andi (.g 4) (.g 5) 0xFFFF_FFFE) (withG 5 0xFFFF_FFFF_FFFF_FFFF) 0xFFFF_FFFE = true ∧
    gives (.ori (.g 4) (.g 5) 0x8000_0000) base 0x8000_0007 = true ∧
    gives (.xori (.g 4) (.g 5) 0x8000_0000) base 0x8000_0007 = true := by decide
-- the amount is b[5:0]: 65 shifts by 1
theorem test_shifts : gives (.shl (.g 4) (.g 5) (.g 6)) (withG 6 65) 14 = true ∧
    gives (.shr (.g 4) (.g 5) (.g 6)) (withG 6 65) 3 = true ∧
    gives (.sar (.g 4) (.g 5) (.g 5)) (withG 5 0x8000_0000_0000_0001) 0xC000_0000_0000_0000 = true ∧
    gives (.rol (.g 4) (.g 5) (.g 5)) (withG 5 0x8000_0000_0000_0001) 3 = true ∧
    gives (.shli (.g 4) (.g 5) 63) base 0x8000_0000_0000_0000 = true ∧ gives (.shri (.g 4) (.g 5) 1) base 3 = true ∧
    gives (.sari (.g 4) (.g 5) 63) (withG 5 0x8000_0000_0000_0000) 0xFFFF_FFFF_FFFF_FFFF = true ∧
    gives (.roli (.g 4) (.g 5) 0) base 7 = true := by decide
-- g5 = -1
theorem test_order : let s := withG 5 0xFFFF_FFFF_FFFF_FFFF
    gives (.min (.g 4) (.g 5) (.g 6)) s 0xFFFF_FFFF_FFFF_FFFF = true ∧ gives (.max (.g 4) (.g 5) (.g 6)) s 9 = true ∧
    gives (.minn (.g 4) (.g 5) (.g 6)) s 9 = true ∧ gives (.maxn (.g 4) (.g 5) (.g 6)) s 0xFFFF_FFFF_FFFF_FFFF = true ∧
    gives (.slt (.g 4) (.g 5) (.g 6)) s 1 = true ∧ gives (.sltn (.g 4) (.g 5) (.g 6)) s 0 = true ∧
    gives (.slti (.g 4) (.g 6) 0xFFFF_FFFF) s 0 = true ∧ gives (.seq (.g 4) (.g 5) (.g 5)) s 1 = true ∧
    gives (.sne (.g 4) (.g 5) (.g 5)) s 0 = true ∧ gives (.sel (.g 4) (.g 5) (.g 6) (.g 0)) s 9 = true := by decide
-- the corners of R102: division by zero, -2^63 / -1, a negative dividend
theorem test_divide : gives (.div (.g 4) (.g 5) (.g 0)) base 0xFFFF_FFFF_FFFF_FFFF = true ∧
    gives (.divn (.g 4) (.g 5) (.g 0)) base 0xFFFF_FFFF_FFFF_FFFF = true ∧ gives (.rem (.g 4) (.g 5) (.g 0)) base 7 = true ∧
    gives (.remn (.g 4) (.g 5) (.g 0)) base 7 = true ∧
    gives (.div (.g 4) (.k 0) (.k 1)) (withPump fun p => { p with k := setAt (setAt p.k 0 (1 <<< 63)) 1 (-1) }) (1 <<< 63) = true ∧
    gives (.rem (.g 4) (.k 0) (.k 1)) (withPump fun p => { p with k := setAt (setAt p.k 0 (1 <<< 63)) 1 (-1) }) 0 = true ∧
    gives (.div (.g 4) (.g 5) (.g 6)) (withG 5 (-20)) (-2) = true ∧ gives (.rem (.g 4) (.g 5) (.g 6)) (withG 5 (-20)) (-2) = true ∧
    gives (.remn (.g 4) (.g 6) (.g 5)) base 2 = true ∧ gives (.divn (.g 4) (.g 6) (.g 5)) base 1 = true := by decide
theorem test_multiply : gives (.mul (.g 4) (.g 5) (.g 6)) (withG 5 (-1)) (-9) = true ∧
    gives (.mulh (.g 4) (.g 5) (.g 6)) (withG 5 (-1)) (-1) = true ∧ gives (.mulhn (.g 4) (.g 5) (.g 6)) (withG 5 (-1)) 8 = true ∧
    gives (.madd (.g 4) (.g 5) (.g 6) (.g 5)) base 70 = true := by decide
theorem test_counts : gives (.clz (.g 4) (.g 5)) base 61 = true ∧ gives (.clz (.g 4) (.g 0)) base 64 = true ∧
    gives (.ctz (.g 4) (.g 5)) (withG 5 8) 3 = true ∧ gives (.ctz (.g 4) (.g 0)) base 64 = true ∧
    gives (.popc (.g 4) (.g 5)) base 3 = true := by decide
-- the limits of R57: the whole word, and one bit at the top
theorem witness_CountsAndFieldsOfBits : (0 : BitVec 6).toNat + (63 : BitVec 6).toNat + 1 ≤ 64 ∧
    (63 : BitVec 6).toNat + (0 : BitVec 6).toNat + 1 ≤ 64 ∧
    gives (.bfx (.g 4) (.g 5) 0 63) base 7 = true ∧ gives (.bfx (.g 4) (.g 5) 63 0) (withG 5 (1 <<< 63)) 1 = true ∧
    gives (.bfi (.g 4) (.g 5) 8 3) (withG 4 0xFFFF) 0xF7FF = true := by decide
-- g0 discards its write, and the result still reaches last (R92)
theorem test_g0 : ok (exec (.add (.g 0) (.g 5) (.g 6)) base) (fun t => reg t (.g 0) = 0 && reg t .last = 16) = true := by decide

/-! ### Scalar float: 1.0 is 0x3F80_0000, 2.0 is 0x4000_0000 -/

/-- `base` with g5 and g6. -/
def two (x y : Word) : State := withPump fun p => { p with g := setAt (setAt p.g 5 x) 6 y }

/-- `exec i s` writes `v` to g4 and leaves exactly the flags `f`. -/
def givesF (i : Instr) (s : State) (v : Word) (f : Flags) : Bool :=
  gives i s v && ok (exec i s) fun t => (t.pump 0).fflags = f

-- ∞ − ∞, 0 × ∞, 0/0, ∞/∞, √−1: NaN and nv; 1/0: ∞ and dz; −0 + −0 = −0, 1 − 1 = +0 (R106)
theorem witness_FloatSpecialValues_values : givesF (.fsub (.g 4) (.g 5) (.g 6)) (two 0x7F80_0000 0x7F80_0000) 0x7FC0_0000 0x10 = true ∧
    givesF (.fmul (.g 4) (.g 5) (.g 6)) (two 0 0xFF80_0000) 0x7FC0_0000 0x10 = true ∧
    givesF (.fdiv (.g 4) (.g 5) (.g 6)) (two 0 0) 0x7FC0_0000 0x10 = true ∧
    givesF (.fdiv (.g 4) (.g 5) (.g 6)) (two 0x7F80_0000 0x7F80_0000) 0x7FC0_0000 0x10 = true ∧
    givesF (.fsqrt (.g 4) (.g 5)) (two 0xBF80_0000 0) 0x7FC0_0000 0x10 = true ∧
    givesF (.fdiv (.g 4) (.g 5) (.g 6)) (two 0xBF80_0000 0) 0xFF80_0000 0x08 = true ∧
    givesF (.fadd (.g 4) (.g 5) (.g 6)) (two 0x8000_0000 0x8000_0000) 0x8000_0000 0 = true ∧
    givesF (.fadd (.g 4) (.g 5) (.g 6)) (two 0x3F80_0000 0xBF80_0000) 0 0 = true ∧
    givesF (.fadd (.g 4) (.g 5) (.g 6)) (two 0x7F80_0001 0x3F80_0000) 0x7FC0_0000 0x10 = true ∧
    givesF (.fadd (.g 4) (.g 5) (.g 6)) (two 0x7FC0_0001 0x3F80_0000) 0x7FC0_0000 0 = true ∧
    givesF (.ffma (.g 4) (.g 5) (.g 6) (.g 7)) (withPump fun p =>
      { p with g := setAt (setAt (setAt p.g 5 0) 6 0x7F80_0000) 7 0x7FC0_0000 }) 0x7FC0_0000 0x10 = true := by decide
-- −∞ × 2 + 1 = −∞, ∞ × ∞ − ∞: NaN and nv, −∞ × 2 + NaN: NaN
theorem witness_FloatSpecialValues_infinite_product : let s (x y z : Word) := withPump fun p =>
      { p with g := setAt (setAt (setAt p.g 5 x) 6 y) 7 z }
    givesF (.ffma (.g 4) (.g 5) (.g 6) (.g 7)) (s 0xFF80_0000 0x4000_0000 0x3F80_0000) 0xFF80_0000 0 = true ∧
    givesF (.ffma (.g 4) (.g 5) (.g 6) (.g 7)) (s 0x7F80_0000 0x7F80_0000 0xFF80_0000) 0x7FC0_0000 0x10 = true ∧
    givesF (.ffma (.g 4) (.g 5) (.g 6) (.g 7)) (s 0xFF80_0000 0x4000_0000 0x7FC0_0000) 0x7FC0_0000 0 = true := by decide

-- one operand of each sort that the clauses of the float statements speak of
theorem witness_FloatSpecialValues_operands :
    ((two 0x7F80_0001 0).pump 0).readF (.g 5) = .nan true ∧ ((two 0x7FC0_0000 0).pump 0).readF (.g 5) = .nan false ∧
    ((two 0xFF80_0000 0).pump 0).readF (.g 5) = .inf true ∧ ((two 0 0x8000_0000).pump 0).readF (.g 6) = .fin true 0 (-149) ∧
    ((two 0x4000_0000 0).pump 0).readF (.g 5) = .fin false 0x80_0000 (-22) := by decide

-- 1 + 2^-24: a tie to even; 0x7F7F_FFFF + itself overflows; the smallest normal halved is exact, a subnormal halved is not
theorem test_rounding : givesF (.fadd (.g 4) (.g 5) (.g 6)) (two 0x3F80_0000 0x3380_0000) 0x3F80_0000 0x01 = true ∧
    givesF (.fadd (.g 4) (.g 5) (.g 6)) (two 0x7F7F_FFFF 0x7F7F_FFFF) 0x7F80_0000 0x05 = true ∧
    givesF (.fmul (.g 4) (.g 5) (.g 6)) (two 0x0080_0000 0x3F00_0000) 0x0040_0000 0 = true ∧
    givesF (.fmul (.g 4) (.g 5) (.g 6)) (two 0x0000_0003 0x3F00_0000) 0x0000_0002 0x03 = true ∧
    givesF (.fdiv (.g 4) (.g 5) (.g 6)) (two 0x3F80_0000 0x4040_0000) 0x3EAA_AAAB 0x01 = true ∧
    givesF (.fsqrt (.g 4) (.g 5)) (two 0x4000_0000 0) 0x3FB5_04F3 0x01 = true := by decide

/-- The operands 3, 2 and 1 of `FloatResultsAreRoundedOnce` are finite, and none of the six results is zero. -/
theorem witness_FloatResultsAreRoundedOnce :
    let s := withPump fun p => { p with g := setAt (setAt (setAt p.g 5 0x4040_0000) 6 0x4000_0000) 7 0x3F80_0000 }
    let x := (s.pump 0).readF (.g 5)
    let y := (s.pump 0).readF (.g 6)
    let z := (s.pump 0).readF (.g 7)
    numFin x = true ∧ numFin y = true ∧ numFin z = true ∧ numRat x = 3 ∧ numRat y = 2 ∧ numRat z = 1 := by
  intro s x y z
  have hx : x = .fin false 0xC0_0000 (-22) := by decide
  have hy : y = .fin false 0x80_0000 (-22) := by decide
  have hz : z = .fin false 0x80_0000 (-23) := by decide
  rw [hx, hy, hz]
  refine ⟨rfl, rfl, rfl, ?_, ?_, ?_⟩ <;> norm_num [numRat]

-- R107 to R109: −0 below +0, a NaN beside a number, comparisons of NaNs, classes
theorem test_float_order : givesF (.fmin (.g 4) (.g 5) (.g 6)) (two 0 0x8000_0000) 0x8000_0000 0 = true ∧
    givesF (.fmax (.g 4) (.g 5) (.g 6)) (two 0x7FC0_0000 0x3F80_0000) 0x3F80_0000 0 = true ∧
    givesF (.fmax (.g 4) (.g 5) (.g 6)) (two 0x7F80_0001 0x7FC0_0000) 0x7FC0_0000 0x10 = true ∧
    givesF (.fcmp .eq (.g 4) (.g 5) (.g 6)) (two 0 0x8000_0000) 1 0 = true ∧
    givesF (.fcmp .lt (.g 4) (.g 5) (.g 6)) (two 0x7FC0_0000 0) 0 0x10 = true ∧
    givesF (.fcmp .le (.g 4) (.g 5) (.g 6)) (two 0xBF80_0000 0) 1 0 = true ∧
    givesF (.fcmp .un (.g 4) (.g 5) (.g 6)) (two 0x7FC0_0000 0) 1 0 = true := by decide
theorem test_fcls : gives (.fcls (.g 4) (.g 5)) (two 0xFF80_0000 0) 1 = true ∧ gives (.fcls (.g 4) (.g 5)) (two 0x8000_0001 0) 4 = true ∧
    gives (.fcls (.g 4) (.g 5)) (two 0x8000_0000 0) 8 = true ∧ gives (.fcls (.g 4) (.g 5)) (two 0x7F80_0001 0) 256 = true ∧
    gives (.fcls (.g 4) (.g 5)) (two 0xFFC0_0000 0) 512 = true := by decide
-- 3.0e9 to s32 (R110), −0.3 to n64 under RTZ, −1 to n64, 2^24 + 1 to FP32, overflow to FP16 in both modes, NaN
theorem test_fcvt : givesF (.fcvt .s32f32 false (.g 4) (.g 5)) (two 0x4F32_D05E 0) 0x7FFF_FFFF 0x10 = true ∧
    givesF (.fcvt .n64f32 true (.g 4) (.g 5)) (two 0xBE99_999A 0) 0 0x01 = true ∧
    givesF (.fcvt .n64f32 false (.g 4) (.g 5)) (two 0xBF80_0000 0) 0 0x10 = true ∧
    givesF (.fcvt .f32s64 false (.g 4) (.g 5)) (two 0x100_0001 0) 0x4B80_0000 0x01 = true ∧
    givesF (.fcvt .f16f32 false (.g 4) (.g 5)) (two 0x4780_0000 0) 0x7C00 0x05 = true ∧
    givesF (.fcvt .f16f32 true (.g 4) (.g 5)) (two 0xC780_0000 0) 0xFBFF 0x05 = true ∧
    givesF (.fcvt .bf16f32 false (.g 4) (.g 5)) (two 0x7F80_0001 0) 0x7FC0 0x10 = true ∧
    givesF (.fcvt .s64f32 false (.g 4) (.g 5)) (two 0x7FC0_0000 0) 0 0x10 = true ∧
    givesF (.fcvt .s32f32 false (.g 4) (.g 5)) (two 0xBF80_0000 0) 0xFFFF_FFFF_FFFF_FFFF 0 = true := by decide

/-! ### Control flow -/

/-- `exec i s` only goes to `a`. -/
def goes (i : Instr) (s : State) (a : Word) : Bool := ok (exec i s) fun t => t.pump 0 = { s.pump 0 with pc := a }

-- target: pc + 8 × offset; the offset −3 goes back 24 bytes
theorem test_branches : goes (.beq (.g 5) (.g 5) 0xFFFF_FFFD) base 0xFE8 = true ∧ goes (.beq (.g 5) (.g 6) 2) base 0x1008 = true ∧
    goes (.bne (.g 5) (.g 6) 2) base 0x1010 = true ∧ goes (.blt (.g 5) (.g 6) 2) (withG 5 (-1)) 0x1010 = true ∧
    goes (.bge (.g 5) (.g 6) 2) (withG 5 (-1)) 0x1008 = true ∧ goes (.bltn (.g 5) (.g 6) 2) (withG 5 (-1)) 0x1008 = true ∧
    goes (.bgen (.g 5) (.g 6) 2) (withG 5 (-1)) 0x1010 = true := by decide
theorem test_dbnz : ok (exec (.dbnz (.g 5) 0xFFFF_FFFE) (withG 5 1)) (fun t => reg t (.g 5) = 0 && (t.pump 0).pc = 0x1008) = true ∧
    ok (exec (.dbnz (.g 0) 0xFFFF_FFFE) base) (fun t => reg t .last = -1 && reg t (.g 0) = 0 && (t.pump 0).pc = 0xFF0) = true := by
  decide
theorem test_jumps : goes (.jmp 3) base 0x1018 = true ∧ goes .nop base 0x1008 = true ∧ goes (.land 9) base 0x1008 = true ∧
    goes (.pref .l2 (.g 5) 0) base 0x1008 = true ∧ goes (.fence .lane) base 0x1008 = true ∧
    ok (exec (.call 3) base) (fun t => reg t (.g 62) = 0x1008 && reg t .last = 0 && (t.pump 0).pc = 0x1018) = true := by decide
theorem witness_JumpsCallsAndReturns : (reg base (.g 62)).toNat % 8 = 0 ∧ goes (.ret (.g 62)) base 0x1040 = true ∧
    (reg base (.g 5)).toNat % 8 ≠ 0 ∧ (base.pump 0).ht = false ∧ (base.pump 0).tvec ≠ 0 ∧
    traps (.ret (.g 5)) base 2 7 = true := by decide

/-- A table record at 0x10040 with two entries of label 5; entry 0 is the `land 5` at 0x1100, entry 1 the value given.
The table list of the launch state is at 0x10000 (R75). -/
def withTable (entry1 i : Word) : State :=
  (paged [(0x10000, toLE 8 0x10040), (0x10040, toLE 8 (2 + 5 * 2 ^ 32) ++ toLE 8 0x1100 ++ toLE 8 entry1.toNat),
      (0x1100, bytesOfWord (encode (.land 5)))]).modCore 0 fun k =>
    { k with launch := { k.launch with tables := 0x10000, tableCount := 1 }, pump := { k.pump with g := setAt k.pump.g 5 i } }

theorem witness_TableJumps_taken : let s := withTable 0 0
    0 < (s.launch 0).tableCount ∧ s.tableWord 0 0x10000 = .ok 0x10040 ∧ s.tableWord 0 0x10040 = .ok 0x5_0000_0002 ∧
    s.tableWord 0 0x10048 = .ok 0x1100 ∧ (s.launch 0).inCode 0x1100 = true ∧ s.fetchWord 0 0x1100 = .ok (encode (.land 5)) ∧
    decode (encode (.land 5)) = .ok (.land 5) ∧ goes (.jt (.g 5) 0 5) s 0x1100 = true ∧
    ok (exec (.callt (.g 5) 0 5) s) (fun t => reg t (.g 62) = 0x1008 && (t.pump 0).pc = 0x1100) = true := by decide
-- each check at its boundary: table 1 of 1, index 2 of 2, another label, a target that is misaligned, outside, no land
theorem witness_TableJumps_checks : let s := withTable
    traps (.jt (.g 5) 1 5) (s 0 0) 6 0xFFFF_FFFF_FFFF_FFFF = true ∧ traps (.jt (.g 5) 0 5) (s 0 2) 6 2 = true ∧
    traps (.callt (.g 5) 0 6) (s 0 0) 5 0 = true ∧ (s 0x1104 1).tableWord 0 0x10050 = .ok 0x1104 ∧
    traps (.jt (.g 5) 0 5) (s 0x1104 1) 2 0x1104 = true ∧ ((s 0x2000 1).launch 0).inCode 0x2000 = false ∧
    traps (.jt (.g 5) 0 5) (s 0x2000 1) 4 0x2000 = true ∧ (s 0x1108 1).fetchWord 0 0x1108 = .ok 0 ∧
    traps (.callt (.g 5) 0 5) (s 0x1108 1) 5 0x1108 = true := by decide

/-! ### Traps and system instructions -/

theorem witness_SoftwareTraps : (base.pump 0).ht = false ∧ (base.pump 0).tvec ≠ 0 ∧
    ok (exec (.trap 5) base) (fun t => (t.pump 0).tcause = precise 8 5 && (t.pump 0).epc = 0x1008 && (t.pump 0).pc = 0x9000) = true ∧
    ok (exec .brk base) (fun t => (t.pump 0).tcause = precise 7 0 && (t.pump 0).epc = 0x1008) = true := by decide
-- inside a handler, and with no vector
theorem witness_SoftwareTraps_refused : ((withPump fun p => { p with ht := true }).pump 0).ht = true ∧
    ok (exec (.trap 5) (withPump fun p => { p with ht := true })) (fun t => (t.pump 0).run = .fatal) = true ∧
    ((withPump fun p => { p with tvec := 0 }).pump 0).tvec = 0 ∧
    ok (exec .brk (withPump fun p => { p with tvec := 0 })) (fun t => (t.pump 0).run = .fatal &&
      (t.pump 0).fatalBy = some (precise 7 0, 0x1008)) = true := by decide
theorem witness_Eret : (base.pump 0).ht = false ∧ (base.pump 0).tvec ≠ 0 ∧ traps .eret base 1 0xB100_0000_0000_0000 = true ∧
    ok (exec .eret (withPump fun p => { p with ht := true, pht := true, epc := 0x1100, savedLast := 3 }))
      (fun t => (t.pump 0).ht && !(t.pump 0).pht && reg t .last = 3 && (t.pump 0).pc = 0x1100) = true ∧
    ok (exec .eret (withPump fun p => { p with ht := true, epc := 0x1104 })) (fun t => (t.pump 0).run = .fatal) = true := by decide
-- JX3-4, package 2: s.isa 3.3.0, s.core, s.status, s.tcause of a fabric fault of region 3 with code 0x18
theorem test_srd : gives (.srd (.g 4) .isa) base 0x030300 = true ∧ gives (.srd (.g 4) .core) { base with pkg := 2 } 0x200 = true ∧
    gives (.srd (.g 4) .status) (withPump fun p => { p with pht := true, ypend := true }) 6 = true ∧
    gives (.srd (.g 4) .tcause) (withPump fun p => { p with tcause := { code := 0x18, fab := true, region := 3, tval := 9 } })
      0xB18 = true ∧
    gives (.srd (.g 4) .stall) (withPump fun p => { p with stallWhy := 3, stallCycles := 5 }) 0x3_0000_0005 = true := by decide
theorem test_feat : gives (.feat (.g 4) 0) base 1 = true ∧ gives (.feat (.g 4) 255) base 0 = true := by decide
-- a value that keeps its reserved bits, one that does not, and ypend of s.status, which a write leaves
theorem witness_SystemRegisterWrites : SReg.writable .fflags = true ∧ (0x3F : Word) &&& SReg.fflags.reserved = 0 ∧
    ok (exec (.swr .fflags (.g 5)) (withG 5 0x3F)) (fun t => t.readSReg 0 .fflags = 0x3F && reg t .last = 0) = true ∧
    (0x40 : Word) &&& SReg.fflags.reserved ≠ 0 ∧
    traps (.swr .fflags (.g 5)) (withG 5 0x40) 1 (encode (.swr .fflags (.g 5))) = true ∧
    ok (exec (.swr .status (.g 0)) (withPump fun p => { p with ypend := true })) (fun t => t.readSReg 0 .status = 4) = true := by
  decide

/-- A handle of `base` has no stream. -/
theorem base_no_handle (h : Fin 64) : (base.pump 0).handles[h] = none := by revert h; decide

theorem witness_Halt : (base.pump 0).load = none ∧ (base.pump 0).held = [] ∧
    (∀ r : Fin 8, (base.core 0).fab.regions[r].run = false) ∧
    (∀ h : Fin 64, ∀ x, (base.pump 0).handles[h] = some x → x.closing = false) ∧
    ok (exec .halt base) (fun t => (t.pump 0).run = .halted) = true := by
  refine ⟨by decide, by decide, by decide, ?_, by decide +kernel⟩
  intro h x e
  rw [base_no_handle h] at e
  cases e
/-- `base` with region 0 running. -/
def running : State := withFab fun f => { f with regions := setAt f.regions 0 { f.regions[(0 : Fin 8)] with run := true } }
theorem witness_Halt_waits : (running.core 0).fab.regions[(0 : Fin 8)].run = true ∧
    ok (exec .halt running) (fun t => (t.pump 0).block = some .halt) = true ∧
    ok (exec (.haltTakesEffect 0) (withPump fun p => { p with block := some .halt })) (fun t => (t.pump 0).run = .halted) = true := by
  decide +kernel
theorem witness_Yield : (base.pump 0).ypend = false ∧ goes .yield base 0x1008 = true ∧
    ok (exec .yield (withPump fun p => { p with ypend := true })) (fun t => (t.pump 0).run = .frozen && (t.pump 0).pc = 0x1008) = true := by
  decide

/-- Two asynchronous traps, of codes 0x20 and 0x18: the lower is taken first. -/
def asyncs : List Cause := [{ code := 0x20, fab := true, region := 1, tval := 1 }, { code := 0x18, fab := true, region := 2, tval := 2 }]
theorem witness_AsynchronousTraps : let s := withPump fun p => { p with asyncs := asyncs }
    (s.pump 0).run = .running ∧ (s.pump 0).tvec ≠ 0 ∧ (s.pump 0).abandonable = true ∧ (s.pump 0).block = none ∧
    (s.pump 0).page = none ∧ (∀ x ∈ (s.pump 0).asyncs, (0x18 : Code).toNat ≤ x.code.toNat) ∧ (s.pump 0).ht = false ∧
    ok (exec (.asyncTrapTaken 0) s) (fun t => (t.pump 0).tcause.code = 0x18 && (t.pump 0).asyncs.length = 1 &&
      (t.pump 0).epc = 0x1000) = true := by decide
theorem witness_AsynchronousTraps_handler : let s := withPump fun p => { p with asyncs := asyncs, ht := true }
    (s.pump 0).ht = true ∧ ok (exec (.asyncTrapTaken 0) s) (fun t => t.pump 0 = s.pump 0) = true := by decide
-- a misaligned load while they are pending (R449)
theorem witness_AsynchronousTraps_first : let s := withPump fun p => { p with asyncs := asyncs }
    let i : Instr := .ld .d false none (.g 4) (.g 7) 4
    accessOf (s.pump 0) i = some { ea := 0x1000C, size := 8, cistern := false, need := .rd } ∧ (s.pump 0).ht = false ∧
    (∀ x ∈ (s.pump 0).asyncs, (0x18 : Code).toNat ≤ x.code.toNat) ∧
    ok (exec i s) (fun t => (t.pump 0).tcause.code = 0x18 && (t.pump 0).epc = 0x1000 && (t.pump 0).asyncs.length = 1) = true := by
  decide

/-! ### Memory and cistern -/

-- misaligned; bits [63:56]; the code section; a read-only page; a cistern window that is not open (the first such address)
theorem witness_AccessesAreCheckedInOrder : let i (imm : BitVec 32) : Instr := .ld .d false none (.g 4) (.g 7) imm
    accessOf (base.pump 0) (i 4) = some { ea := 0x1000C, size := 8, cistern := false, need := .rd } ∧
    (base.pump 0).ht = false ∧ (base.pump 0).tvec ≠ 0 ∧ traps (i 4) base 2 0x1000C = true ∧
    traps (i 0) (withG 7 (1 <<< 56)) 4 (1 <<< 56) = true ∧ (base.launch 0).inCode 0x1FF8 = true ∧
    traps (i 0) (withG 7 0x1FF8) 4 0x1FF8 = true ∧ base.translate 0 0x20000 .wr = .forbidden ∧
    traps (.st .d false none (.g 5) (.g 7) 0) (withG 7 0x20000) 4 0x20000 = true ∧
    base.cisternPlace 0 0x20_0000 = .closed ∧ traps (.ld .d true none (.g 4) (.g 7) 0) (withG 7 0x20_0000) 4 0x20_0000 = true := by
  decide

/-- Memory with the bytes 0x88, 0x99, … at the physical address of 0x10008. -/
def loads : State := withMem 0x20008 [0x88, 0x99, 0xAA, 0xBB, 0xCC, 0xDD, 0xEE, 0xFF]
theorem witness_Loads_memory : loads.translate 0 0x10008 .rd = .at 0x20008 ∧ loads.lineStop 0x20008 0x10008 = none ∧
    gives (.ld .bz false none (.g 4) (.g 7) 0) loads 0x88 = true ∧
    gives (.ld .bs false none (.g 4) (.g 7) 0) loads 0xFFFF_FFFF_FFFF_FF88 = true ∧
    gives (.ld .hs false none (.g 4) (.g 7) 2) loads 0xFFFF_FFFF_FFFF_BBAA = true ∧
    gives (.ld .wz false (some .quad) (.g 4) (.g 7) 4) loads 0xFFEE_DDCC = true ∧
    gives (.ld .d false none (.g 4) (.g 7) 0) loads 0xFFEE_DDCC_BBAA_9988 = true ∧
    ok (exec (.ldq .o16 false 3 (.g 7) 0) loads) (fun t => (t.pump 0).q[(3 : Fin 16)] =
      { val := 0xFFEE_DDCC_BBAA_9988, tag := .o16 } && reg t .last = 0) = true := by decide
def loadsC : State := withCore fun k => { k with cistern := Memory.write [] 0x1F_FFF8 [1, 2, 3, 4, 5, 6, 7, 0x88] }
theorem witness_Loads_cistern : loadsC.cisternPlace 0 0x1F_FFF8 = .here 0 0x1F_FFF8 ∧
    loadsC.cisternStop 0 0x1F_FFF8 8 0x1F_FFF8 = none ∧
    gives (.ld .d true none (.g 4) (.g 0) 0x1F_FFF8) loadsC 0x8807_0605_0403_0201 = true ∧
    ok (exec (.ldq .c4 true 3 (.g 0) 0x1F_FFF8) loadsC) (fun t => (t.pump 0).q[(3 : Fin 16)] = { val := 0x201, tag := .c4 }) = true := by
  decide

-- the core sees its store at once; no byte is performed yet, and another core does not see it (R262)
theorem witness_StoresWriteMemory : let i : Instr := .st .w false none (.g 5) (.g 7) 4
    accessOf (base.pump 0) i = some { ea := 0x1000C, size := 4, cistern := false, need := .wr } ∧
    stores (base.pump 0) false i 4 7 ∧ (afterRelease base i).translate 0 0x1000C .wr = .at 0x2000C ∧
    ok (exec i base) (fun t => t.viewByte 0 0x2000C = 7 && t.viewByte 1 0x2000C = 0 && t.mem = [] && t.pending.length = 1) = true := by
  refine ⟨by decide, ⟨rfl, rfl, by decide⟩, by decide, by decide⟩
theorem witness_StoresWriteMemory_release : let i : Instr := .st .d false (some .quad) (.g 5) (.g 7) 0
    stores (base.pump 0) false i 8 7 ∧ (afterRelease base i).translate 0 0x10008 .wr = .at 0x20008 ∧
    ok (exec i base) (fun t => t.viewByte 0 0x20008 = 7) = true :=
  ⟨⟨rfl, rfl, by decide⟩, by decide, by decide⟩
theorem witness_StoresWriteTheCistern : stores (base.pump 0) true (.st .h true none (.g 5) (.g 0) 0x40) 2 7 ∧
    (afterRelease base (.st .h true none (.g 5) (.g 0) 0x40)).cisternPlace 0 0x40 = .here 0 0x40 ∧
    (let u := afterRelease base (.stf (.g 5) (.g 0) 0x40)
     u.cisternPlace 0 0x40 = .here 0 0x40 ∧ u.cisternDrops 0 0x40 8 = false ∧ (u.core 0).cistern.wf = true) ∧
    base.cisternDrops 0 0x40 2 = false ∧
    (base.core 0).cistern.wf = true ∧
    ok (exec (.st .h true none (.g 5) (.g 0) 0x40) base) (fun t => (t.core 0).cistern = [(0x40, 7)] && (t.core 0).full = []) = true ∧
    ok (exec (.stf (.g 5) (.g 0) 0x40) base) (fun t => (t.core 0).cistern = [(0x40, 7)] && (t.core 0).full = [8]) = true ∧
    ok (exec (.stq .o32 true 3 (.g 0) 0x40) (withPump fun p => { p with q := setAt p.q 3 { val := 1 <<< 120, tag := .o32 } }))
      (fun t => (t.core 0).cistern = [(0x4F, 1)]) = true :=
  ⟨⟨rfl, rfl, by decide⟩, by decide⟩

def fullWord : State := withCore fun k => { k with cistern := [(0x40, 5)], full := [8] }
theorem witness_Lds : fullWord.cisternPlace 0 0x40 = .here 0 0x40 ∧ 0x40 / 8 ∈ (fullWord.core 0).full ∧
    fullWord.cisternStop 0 0x40 8 0x40 = none ∧ gives (.lds (.g 4) (.g 0) 0x40) fullWord 5 = true ∧
    ok (exec (.lds (.g 4) (.g 0) 0x40) fullWord) (fun t => (t.core 0).full = [] && (t.core 0).cistern = [(0x40, 5)]) = true ∧
    ok (exec (.ldsResume 0) (fullWord.modPump 0 fun p => { p with block := some (.lds (.g 4) (.g 0) 0x40) }))
      (fun t => reg t (.g 4) = 5 && (t.core 0).full = [] && (t.pump 0).block = none) = true := by decide
theorem witness_Lds_waits : 0x40 / 8 ∉ (base.core 0).full ∧ waits (.lds (.g 4) (.g 0) 0x40) base 2 = true := by decide

/-- The word 5 at the physical address of 0x10008, g5 = −1, g6 = 9. -/
def word5 : State := (withMem 0x20008 [5]).modPump 0 fun p => { p with g := setAt p.g 5 (-1) }
/-- `exec i word5` gives the old value 5 and leaves the word `v`. -/
def rmw (i : Instr) (v : Word) : Bool := gives i word5 5 && ok (exec i word5) fun t => t.wordAt 0x20008 = v && t.pending = []
theorem witness_Atomics : word5.mem.wf = true ∧ word5.translate 0 0x10008 .rw = .at 0x20008 ∧
    word5.lineStop 0x20008 0x10008 = none ∧ word5.writeBind 0 0x20008 = none ∧ word5.pending = [] := by decide
theorem test_amo : rmw (.amo .add (.acq .quad) (.g 4) (.g 7) (.g 5)) 4 = true ∧ rmw (.amo .and .relaxed (.g 4) (.g 7) (.g 6)) 1 = true ∧
    rmw (.amo .or .relaxed (.g 4) (.g 7) (.g 6)) 13 = true ∧ rmw (.amo .xor .relaxed (.g 4) (.g 7) (.g 6)) 12 = true ∧
    rmw (.amo .min .relaxed (.g 4) (.g 7) (.g 5)) (-1) = true ∧ rmw (.amo .max .relaxed (.g 4) (.g 7) (.g 5)) 5 = true ∧
    rmw (.amo .minn .relaxed (.g 4) (.g 7) (.g 5)) 5 = true ∧ rmw (.amo .maxn .relaxed (.g 4) (.g 7) (.g 5)) (-1) = true ∧
    rmw (.amo .swp (.ar .pod) (.g 4) (.g 7) (.g 6)) 9 = true ∧
    rmw (.amoCas .relaxed (.g 4) (.g 7) (.g 6) (.g 5)) 5 = true := by decide
-- a compare that succeeds; 1.0 + 2.0 = 3.0 in the low 4 bytes
theorem test_amo_cas : let s := word5.modPump 0 fun p => { p with g := setAt p.g 6 5 }
    ok (exec (.amoCas (.acq .quad) (.g 4) (.g 7) (.g 6) (.g 5)) s) (fun t => t.wordAt 0x20008 = -1 && reg t (.g 4) = 5) = true := by
  decide
theorem test_amo_fadd : let s := (withMem 0x20008 [0, 0, 0x80, 0x3F, 1]).modPump 0 fun p => { p with g := setAt p.g 5 0x4000_0000 }
    ok (exec (.amo .fadd .relaxed (.g 4) (.g 7) (.g 5)) s) (fun t => t.wordAt 0x20008 = 0x1_4040_0000 && reg t (.g 4) = 0x3F80_0000) =
      true := by decide

/-- A store of the pump that is still under way. -/
def underWay : State :=
  { base with pending := [{ core := 0, bind := none, pa := 0x20008, va := 0x10008, bytes := [7], raw := false, by_ := .pump 0, rels := [] }] }
theorem witness_Fences : underWay.mem.wf = true ∧
    (∀ w ∈ underWay.pending, w.core = 0 → w.bind = none ∧ w.by_ = .pump 0 ∧ w.pa % 256 + w.bytes.length ≤ 256 ∧
      underWay.linePoisoned (lineOf w.pa) = false) ∧
    ((fins 64).all fun h => ((underWay.pump 0).streamOf (BitVec.ofNat 6 h.val)).isNone) = true ∧ underWay.stale = [] ∧
    ok (exec (.fence .core) underWay) (fun t => t.mem = [(0x20008, 7)] && t.pending = []) = true ∧
    ok (exec (.sbar (.g 5)) underWay) (fun t => t.mem = [(0x20008, 7)] && t.pending = []) = true := by decide

/-- The update of `nma.add` that core 0 has sent to the word 5. -/
def update : NmaOpPending := { core := 0, op := .add, pa := 0x20008, va := 0x10008, value := 0xFFFF_FFFF }
theorem witness_Nma_sends : base.translate 0 0x10008 .rw = .at 0x20008 ∧ base.recordsFull 0 = false ∧ base.nmas.length < 256 ∧
    ok (exec (.nma .add (.g 5) (.g 7) 0) base) (fun t => t.nmas = [{ update with value := 7 }] && (t.pump 0).pc = 0x1008) = true ∧
    ok (exec (.nmaLimitRelease 0) (withPump fun p => { p with block := some (.nma .add (.g 5) (.g 7) 0) }))
      (fun t => t.nmas.length = 1 && (t.pump 0).block = none) = true := by decide
-- 255 are sent on, 256 wait
theorem witness_Nma_limit : let s (n : Nat) := { base with nmas := List.replicate n update }
    (s 255).nmas.length < 256 ∧ ok (exec (.nma .add (.g 5) (.g 7) 0) (s 255)) (fun t => t.nmas.length = 256) = true ∧
    256 ≤ ((s 256).nmas.filter fun x => x.core = 0).length ∧ waits (.nma .add (.g 5) (.g 7) 0) (s 256) 5 = true := by
  decide +kernel
theorem witness_Nma_performs : let s := { withMem 0x20008 [5] with nmas := [update] }
    s.mem.wf = true ∧ s.nmas[0]? = some update ∧ s.linePoisoned (lineOf 0x20008) = false ∧
    ok (exec (.nmaPerform 0) s) (fun t => t.mem = [(0x20008, 4)] && t.nmas = []) = true := by decide
/-- A flow whose 256 completion records all wait (R359). -/
def fullFlow : Flow :=
  { num := 5, queue := 1, space := 0, rec_ := { Record.of [] with ring := true, ringCount := 256 }, cores := [0], state := .running
    order := 0, born := 0, kept := [], keptWeirs := [], keptSluice := [], fate := none, ringNext := 0
    due := List.replicate 256
      { kind := 2, status := 0, code := 0, flags := 0, amount := 1, core := 0, handle := 0, addr := 0, by_ := .near 0, upTo := 0 }
    page := none, cluster := none, slot := 0, lost := [], orphan := false }
theorem witness_Nmf_full : let s := { withPump fun p => { p with nmaBatch := 3, flow := 5 } with flows := [fullFlow] }
    let t := s.modCore 0 fun k => { k with launch := { k.launch with batches := true } }
    (t.launch 0).batches = true ∧ t.recordsFull 0 = true ∧ t.nmas = [] ∧ waits .nmf t 5 = true := by decide +kernel
theorem witness_Nmf : base.nmas = [] ∧ goes .nmf base 0x1008 = true ∧ waits .nmf { base with nmas := [update] } 5 = true ∧
    ok (exec (.nmfReturn 0) (withPump fun p => { p with block := some .nmf, nmaBatch := 3 }))
      (fun t => (t.pump 0).block = none && (t.pump 0).nmaBatch = 0 && (t.pump 0).pc = 0x1008) = true := by decide

/-! ### Atoms -/

theorem gain_c4_7C : (3 / 2 : ℚ) = gainRat .c4 0x7C := by
  show (3 / 2 : ℚ) = ((0x7C % 2 ^ 3 + 2 ^ 3 : ℕ) : ℚ) * 2 ^ (-17 + ((0x7C / 2 ^ 3 : ℕ) : ℤ) - 1)
  norm_num [zpow_neg]

/-- `base` with q1, q2, q3 and g9. -/
def atoms (a b c : QReg) (g9 : Word) : State :=
  withPump fun p => { p with q := setAt (setAt (setAt p.q 1 a) 2 b) 3 c, g := setAt p.g 9 g9 }

/-- `exec i s` writes the atom `v` of format `F` to q4 and leaves exactly the flags `f`. -/
def givesQ (i : Instr) (s : State) (F : Fmt) (v : BitVec 128) (f : Flags) : Bool :=
  ok (exec i s) fun t => (t.pump 0).q[(4 : Fin 16)] = { val := v, tag := F } && (t.pump 0).fflags = f && (t.pump 0).pc = 0x1008

/-- Four O32 or OI lanes. -/
def lanes (F : Fmt) (a b c d : BitVec 32) : QReg := { val := d ++ c ++ b ++ a, tag := F }

def ones : QReg := lanes .o32 0x3F80_0000 0x4000_0000 0xBF80_0000 0
def ints : QReg := lanes .oi 3 0xFFFF_FFFE 0x7FFF_FFFF 0

-- the example "A search, a mask and a zero" after R171: (3, 1, 1, −3)
theorem test_aenc : let s := atoms (lanes .o32 0x4040_0000 0x3F80_0000 0x3F80_0000 0xC040_0000) ones ones 1
    givesQ (.aenc .c4 4 1) s .c4 0xB57D 0x01 = true := by decide
theorem test_amsk : givesQ (.amsk none 4 1 (.g 9)) (atoms { val := 0xB57D, tag := .c4 } ones ones 1) .c4 0x7775 0 = true ∧
    givesQ (.amsk none 4 1 (.g 9)) (atoms { val := 0x7775, tag := .c4 } ones ones 0xA) .c4 0 0 = true := by decide
-- the example after R135: index 132 and gain 1.5 are (1.5, −3, +0, 1.5); its pattern is (1, −2, 0, 1)
theorem test_adec : let s := atoms { val := 0x847C, tag := .c4 } ones ones 0
    givesQ (.adec 4 1) s .o32 (lanes .o32 0x3FC0_0000 0xC040_0000 0 0x3FC0_0000).val 0 = true ∧
    givesQ (.apat 4 1) s .oi (lanes .oi 1 0xFFFF_FFFE 0 1).val 0 = true ∧ gives (.aidx (.g 4) 1) s 132 = true ∧
    gives (.again (.g 4) 1) s 0x3FC0_0000 = true := by decide
-- 0xC000 has index 192, which is reserved (R130)
theorem test_reserved_index : givesQ (.adec 4 1) (atoms { val := 0xC000, tag := .c4 } ones ones 0) .o32
    (lanes .o32 0x7FC0_0000 0x7FC0_0000 0x7FC0_0000 0x7FC0_0000).val 0x10 = true ∧
    givesQ (.apat 4 1) (atoms { val := 0xC000, tag := .c4 } ones ones 0) .oi 0 0x10 = true := by decide

theorem witness_OpenFormatLanesCompute_oi : let s := atoms ints ints ints 1
    (s.pump 0).q[(1 : Fin 16)].tag = .oi ∧ (s.pump 0).q[(2 : Fin 16)].tag = .oi ∧ (s.pump 0).q[(3 : Fin 16)].tag = .oi ∧
    givesQ (.aadd none 4 1 2) s .oi (lanes .oi 6 0xFFFF_FFFC 0xFFFF_FFFE 0).val 0 = true ∧
    givesQ (.asub (some .oi) 4 1 2) s .oi 0 0 = true ∧
    givesQ (.amul none 4 1 2) s .oi (lanes .oi 9 4 1 0).val 0 = true ∧
    givesQ (.afma none 4 1 2 3) s .oi (lanes .oi 12 2 0x8000_0000 0).val 0 = true ∧
    givesQ (.amap .relu none 4 1) s .oi (lanes .oi 3 0 0x7FFF_FFFF 0).val 0 = true ∧
    givesQ (.amap .neg none 4 1) s .oi (lanes .oi 0xFFFF_FFFD 2 0x8000_0001 0).val 0 = true ∧
    givesQ (.amsk none 4 1 (.g 9)) s .oi (lanes .oi 0 0xFFFF_FFFE 0x7FFF_FFFF 0).val 0 = true ∧
    gives (.acmp .eq (.g 4) 1 2) s 15 = true ∧ gives (.acmp .lt (.g 4) 1 2) (atoms ints (lanes .oi 4 0 0 0) ones 0) 3 = true := by
  decide
theorem witness_OpenFormatLanesCompute_o32 : let s := atoms ones ones ones 0
    (s.pump 0).q[(1 : Fin 16)].tag = .o32 ∧ (s.pump 0).q[(2 : Fin 16)].tag = .o32 ∧ (s.pump 0).q[(3 : Fin 16)].tag = .o32 ∧
    givesQ (.aadd none 4 1 2) s .o32 (lanes .o32 0x4000_0000 0x4080_0000 0xC000_0000 0).val 0 = true ∧
    givesQ (.afma none 4 1 2 3) s .o32 (lanes .o32 0x4000_0000 0x40C0_0000 0 0).val 0 = true := by decide
-- 1.5 and −2.5 to the nearest even, 3·2^30 beyond the range; 2^-24 units of 1.0 rounded to BF16; lanes times 2^−1
theorem witness_OpenFormatLanesCompute_rounds : let x := lanes .o32 0x3FC0_0000 0xC020_0000 0x4F40_0000 0x3F81_8000
    let s := atoms x x x 0xFFFF_FFFF_FFFF_FFFF
    (∀ j < 4, numFin (Num.ofCode f32 (x.val.extractLsb' (32 * j) 32).toNat) = true) ∧
    givesQ (.acvt .oi 4 1) s .oi (lanes .oi 2 0xFFFF_FFFE 0x7FFF_FFFF 1).val 0x11 = true ∧
    givesQ (.acvt .o16 4 1) s .o16 0x3F82_4F40_C020_3FC0 0x01 = true ∧
    givesQ (.ascl none 4 1 (.g 9)) s .o32 (lanes .o32 0x3F40_0000 0xBFA0_0000 0x4EC0_0000 0x3F01_8000).val 0 = true ∧
    gives (.adot (.g 4) 1 2) (atoms ones ones ones 0) 0x40C0_0000 = true := by decide +kernel
-- the scale of a faulty record is infinite (R144)
theorem witness_OpenFormatLanesCompute_import : let s := (withMem 0x20008 [0xF1, 0x7F]).modPump 0 fun p =>
      { p with q := setAt (setAt p.q 2 { val := 0x013C00, tag := .o32 }) 3 { val := 0x7C00, tag := .o32 } }
    s.translate 0 0x10008 .rd = .at 0x20008 ∧ s.lineStop 0x20008 0x10008 = none ∧
    givesQ (.aimp .int4 .o32 4 2 (.g 7)) s .o32 (lanes .o32 0 0xC000_0000 0xC000_0000 0x40C0_0000).val 0 = true ∧
    givesQ (.aimp .int4 .o32 4 3 (.g 7)) s .o32 (lanes .o32 0x7FC0_0000 0x7FC0_0000 0x7FC0_0000 0x7FC0_0000).val 0x10 = true := by
  decide +kernel
-- the coded atoms of the example after R135, and of the last index of C16; (1.5, −3, 0, 1.5) · (1, 2, −1, 0) = −4.5
theorem witness_CodedAtomFields_coded : CodedAs { val := 0x847C, tag := .c4 } [1, -2, 0, 1] (3 / 2) ∧
    CodedAs { val := (11007 <<< 18) ||| 1, tag := .c16 } [16, 0, 0, 0] (gainRat .c16 1) ∧
    gives (.adot (.g 4) 1 2) (atoms { val := 0x847C, tag := .c4 } ones ones 0) 0xC090_0000 = true ∧
    gives (.adot (.g 4) 1 2) (atoms { val := 0x847C, tag := .c4 } { val := 0x847C, tag := .c4 } ones 0) 0x4158_0000 = true :=
  ⟨⟨.inl rfl, by decide, gain_c4_7C.trans (congrArg _ (by decide)), rfl, rfl, by decide⟩,
    ⟨.inr rfl, by decide, congrArg _ (by decide), rfl, rfl, by decide⟩, by decide +kernel⟩
-- tags of both sorts, and the last valid and the first invalid index of each coded format
theorem witness_CodedAtomFields : let s (v : BitVec 128) (F : Fmt) := atoms { val := v, tag := F } ones ones 0
    givesQ (.apat 4 1) (s 0xBF7C .c4) .oi (lanes .oi 4 0 0 0).val 0 = true ∧
    givesQ (.apat 4 1) (s ((11007 <<< 18) ||| 1) .c16) .oi (lanes .oi 16 0 0 0).val 0 = true ∧
    givesQ (.apat 4 1) (s ((11008 <<< 18) ||| 1) .c16) .oi 0 0x10 = true ∧
    givesF (.aidx (.g 4) 1) (s 5 .oi) 0xFFFF_FFFF_FFFF_FFFF 0x10 = true ∧ givesF (.again (.g 4) 1) (s 5 .o32) 0x7FC0_0000 0x10 = true ∧
    givesQ (.apat 4 1) (s 5 .o16) .oi 0 0x10 = true := by decide
-- a NaN lane, and all zeros; 1·1 + 2·2 + (−1)·(−1) = 6
theorem witness_AtomResults : nanCode32 0x7F80_0001 = true ∧
    givesQ (.aenc .c16 4 1) (atoms (lanes .o32 0 0 0x7FC0_0000 0) ones ones 0) .c16 0xFFFC_FFFF 0 = true ∧
    givesQ (.aenc .c4 4 1) (atoms (lanes .o32 0 0 0 0) ones ones 0) .c4 0 0 = true ∧
    gives (.adot (.g 4) 1 2) (atoms ones ones ones 0) 0x40C0_0000 = true ∧
    givesQ (.ascl none 4 1 (.g 9)) (atoms ones ones ones 1) .o32
      (lanes .o32 0x4000_0000 0x4080_0000 0xC000_0000 0).val 0 = true ∧
    givesQ (.acvt .o32 4 1) (atoms ones ones ones 0) .o32 ones.val 0 = true ∧
    ok (exec (.arnd .unif .o32 4 (.g 9)) base) (fun t => (t.pump 0).q[(4 : Fin 16)].tag = .o32) = true := by decide +kernel
-- INT8 elements 1, −1, 127, −128 with scale 1.0 (0x3C00) and zero point 0 (R144, R145), at 0x10008
theorem witness_AtomResults_memory : let s := (withMem 0x20008 [1, 0xFF, 0x7F, 0x80]).modPump 0 fun p =>
      { p with q := setAt (setAt p.q 2 { val := 0x3C00, tag := .o32 }) 1 ones }
    (0x10008 : Word).toNat % 4 = 0 ∧ s.translate 0 0x10008 .rd = .at 0x20008 ∧ s.translate 0 0x10008 .wr = .at 0x20008 ∧
    s.lineStop 0x20008 0x10008 = none ∧
    givesQ (.aimp .int8 .o32 4 2 (.g 7)) s .o32 (lanes .o32 0x3F80_0000 0xBF80_0000 0x42FE_0000 0xC300_0000).val 0 = true ∧
    ok (exec (.aexp .int8 1 2 (.g 7)) s) (fun t => t.view 0 0x20008 4 = [1, 2, 0xFF, 0]) = true := by decide
-- the known answer of Philox4x32-10 for key 0 and counter 0, as its authors publish it (R169)
theorem test_arnd : ok (exec (.arnd .bits .oi 4 (.g 0)) base)
    (fun t => (t.pump 0).q[(4 : Fin 16)].val.extractLsb' 0 32 = 0x6627_E8D5) = true := by decide +kernel

/-! ### Handles and streams -/

/-- A stream on AG site 2, and handles over it: an input ring of 4 slots of 64 bytes at offset 0x100, two of them filled,
and an output ring of the same shape with one slot published. -/
def stream0 (kind : StreamKind) : Stream :=
  { kind := kind, desc := 0x10000, ag := 2, region := 0, fmt := none, cmp := false, record := false, bind := 0, int := 0,
    rnd := 16, stop := 1, cons := 1, addr := 0x10000, counters := [], ptr2 := 0, ctx := none, fold := none, ended := false,
    committed := 96, origin := 0, pos := 0, round := [], releases := [], taken := 0, flags := 0, fault := none, movedAt := 0 }
def inRing : Handle :=
  { out := false, base := 0x100, slots := 4, size := 64, fill := 2, free := 0, freed := 0, joined := none,
    stream := some (stream0 .input), items := [], openData := 0, filledAt := [0, 0, 0, 0] }
def outRing : Handle := { inRing with out := true, fill := 1, stream := some (stream0 .output), items := [.slot 0 0], openData := 2 }

/-- `base` with handle 3. -/
def withHandle (x : Handle) : State := withPump fun p => { p with handles := setAt p.handles 3 (some x) }
/-- `exec i s` goes on and leaves handle 3 with the property. -/
def sets (i : Instr) (s : State) (f : Handle → Bool) : Bool :=
  ok (exec i s) fun t => (t.pump 0).pc = 0x1008 && (((t.pump 0).handle 3).map f).getD false

-- a misaligned base; a ring that ends one byte, and exactly, at the end of the cistern; a live stream; a ring to join
theorem witness_HsetMakesARing : let i (n : BitVec 8) : Instr := .hset false 3 (.g 5) n 0x400
    traps (i 4) (withG 5 16) 2 16 = true ∧ traps (i 4) (withG 5 0x1F_F020) 4 0x1F_F020 = true ∧
    0x1F_F000 + 4 * 0x400 ≤ 0x20_0000 ∧ liveStream ((base.pump 0).streamOf 3) = false ∧
    sets (i 4) (withG 5 0x1F_F000) (fun x => x.base = 0x1F_F000 && x.slots = 4 && x.size = 0x400 && x.fill = 0 && x.joined = none) = true ∧
    liveStream (((withHandle inRing).pump 0).streamOf 3) = true ∧
    ok (exec (.hset false 3 (.g 0) 4 64) (withHandle inRing)) (fun t => (t.pump 0).tcause.code = 1) = true ∧
    ok (exec (.hset false 5 (.g 5) 4 64) ((withHandle { inRing with freed := 1 }).modPump 0 fun p => { p with g := setAt p.g 5 0x100 }))
      (fun t => (((t.pump 0).handle 5).map fun x => x.joined = some 3 && x.free = 1).getD false) = true := by decide +kernel

-- two slots are filled: 2 is ready, 3 waits; three are free on the output: 3 is ready, 4 waits; after the end, all ones
theorem witness_Waith : ((withHandle inRing).pump 0).bound 3 = true ∧ gives (.waith (.g 4) 3 2) (withHandle inRing) 0x100 = true ∧
    waits (.waith (.g 4) 3 3) (withHandle inRing) 1 = true ∧
    gives (.waith (.g 4) 3 3) (withHandle { inRing with stream := some { stream0 .input with ended := true } }) (-1) = true ∧
    gives (.waith (.g 4) 3 1) (withHandle { inRing with fill := 6, free := 5 }) 0x140 = true ∧
    gives (.waith (.g 4) 3 3) (withHandle outRing) 0x140 = true ∧ waits (.waith (.g 4) 3 4) (withHandle outRing) 1 = true ∧
    (((withHandle outRing).pump 0).ringStream 3).map (·.fault) = some none ∧
    ok (exec (.waithResume 0) ((withHandle inRing).modPump 0 fun p => { p with block := some (.waith (.g 4) 3 2) }))
      (fun t => reg t (.g 4) = 0x100 && (t.pump 0).block = none) = true := by decide +kernel

theorem witness_HandlesPublishAndRelease :
    sets (.advh 3 2) (withHandle inRing) (fun x => x.free = 2 && x.freed = 2 && x.fill = 2) = true ∧
    ok (exec (.advh 3 3) (withHandle inRing)) (fun t => (t.pump 0).tcause.code = 1) = true ∧
    sets (.advh 3 3) (withHandle outRing) (fun x => x.fill = 4 && x.openData = 8 && x.items.length = 4) = true ∧
    sets (.advh 3 1) (withHandle { outRing with openData := 1022 }) (fun x => x.openData = 1024) = true ∧
    traps (.advh 3 1) (withHandle { outRing with openData := 1023 }) 0x10 3 = true ∧
    sets (.mark 3) (withHandle outRing) (fun x => x.items = [.slot 0 0, .mark 2] && x.openData = 0) = true ∧
    sets (.mark 3) (withHandle { outRing with openData := 0 }) (fun x => x.items = [.slot 0 0]) = true ∧
    sets (.stop 3 2) (withHandle outRing) (fun x => x.items = [.slot 0 0, .mark 2, .stop 2]) = true ∧
    gives (.wptr (.g 4) 3) (withHandle outRing) 96 = true := by decide +kernel

-- `sbar` waits for a read of the stream on handle 3 that has not returned (g8 = 8 names it)
theorem witness_Fences_waits : let s := ((withHandle inRing).modPump 0 fun p => { p with g := setAt p.g 8 8 }).modFab 0 fun f =>
      { f with ags := setAt f.ags 2 { f.ags[(2 : Fin 8)] with reads := [(0, some 0x10000, false)] } }
    ((s.pump 0).read (.g 8)).toNat / 2 ^ 3 % 2 = 1 ∧ ((s.pump 0).streamOf 3).isSome = true ∧
    s.outstanding 0 3 (stream0 .input) = true ∧
    ok (exec (.sbar (.g 8)) s) (fun t => (t.pump 0).block = some (.sbar (.g 8)) && (t.pump 0).pc = 0x1000) = true := by decide +kernel

/-- The descriptor of an input stream on AG site 2: rnd 16, stop 1, cons 1, at 0x10000, 8 tokens of 32 bytes (R309). -/
def desc : List Byte :=
  [1, 2, 0, 0, 16, 0, 1, 1] ++ toLE 8 0x10000 ++ toLE 8 (7 + 32 * 2 ^ 16) ++ toLE 8 0 ++ toLE 8 0 ++ toLE 8 0 ++ toLE 8 0 ++ toLE 8 0
def described : State :=
  (withHandle { inRing with stream := none }).modPump 0 fun p => { p with g := setAt p.g 5 0x10000 }
theorem witness_Strm : let s := { described with mem := Memory.write [] 0x20000 desc }
    s.pending = [] ∧ (s.pump 0).handle 3 = some { inRing with stream := none } ∧ s.loadWords 0 0x10000 8 = .ok desc ∧
    streamKind? (fieldAt desc 0 1) = some .input ∧ descBad desc false false none (s.hasRing 0) = false ∧
    fieldAt desc 3 1 = 0 ∧ fieldAt desc 0x38 8 = 0 ∧ (s.core 0).fab.ags[(2 : Fin 8)].use = .free ∧
    ok (exec (.strm 3 (.g 5) none) s) (fun t => (t.core 0).fab.ags[(2 : Fin 8)].use = .stream 3 &&
      liveStream ((t.pump 0).streamOf 3) && (t.pump 0).pc = 0x1008) = true := by decide +kernel

/-! ### Regions and loads -/

/-- A frame by its fields, each with its lowest bit (R78). -/
def frame (fs : List (Nat × Nat)) : Frame := BitVec.ofNat 256 (fs.map fun f => f.2 * 2 ^ f.1).sum

/-- `base` with a region 0, and with a plane 1 of these frames. -/
def withRegion (x : Region) : State := withFab fun f => { f with regions := setAt f.regions 0 x }
def selected : Region := { Region.reset with sel := some 1 }
def ran : Region := { selected with run := true }
def withPlane (x : Region) (fs : List Frame) : State :=
  withFab fun f => { f with regions := setAt f.regions 0 x, planes := setAt f.planes 1 { Plane.reset with frames := fs } }

/-- `exec i s` goes on and leaves region 0 with the property. -/
def region (i : Instr) (s : State) (f : Region → Bool) : Bool :=
  ok (exec i s) fun t => (t.pump 0).pc = 0x1008 && f (t.core 0).fab.regions[(0 : Fin 8)]

theorem witness_Regions : (base.pump 0).load = none ∧ (base.pump 0).held = [] ∧
    ((base.core 0).fab.conflict 0 (base.core 0).fab.planes[(1 : Fin 4)]).isNone = true ∧
    (base.core 0).fab.awakeIn 0 (base.core 0).fab.planes[(1 : Fin 4)] = true ∧
    region (.cfgs 0 1) base (fun x => x.sel = some 1) = true ∧ waits (.cfgs 0 1) (withRegion ran) 3 = true ∧
    region (.cfgp 0 2 3) (withRegion ran) (fun x => x.armed = some (2, 3)) = true ∧
    traps (.cfgp 0 2 3) (withRegion selected) 0x10 0 = true ∧
    goes (.drain 0) (withRegion selected) 0x1008 = true ∧ waits (.drain 0) (withRegion ran) 3 = true ∧
    region (.drain 0) (withRegion { ran with stray := true }) (fun x => !x.run && !x.stray && x.sel = some 1) = true := by
  decide +kernel
-- flags 0x21, sel, pred, run and plane 1 (R327)
theorem test_cfgq : gives (.cfgq (.g 4) 0) (withRegion { ran with pred := true, flags := 0x21 }) 0x2100_0000_0095 = true := by
  decide +kernel
theorem witness_Regions_resume : ok (exec (.cfgsSelect 0) (withPump fun p => { p with block := some (.cfgs 0 1) }))
      (fun t => (t.core 0).fab.regions[(0 : Fin 8)].sel = some 1 && (t.pump 0).block = none) = true ∧
    ok (exec (.drainReturn 0) (withPump fun p => { p with block := some (.drain 0) })) (fun t => (t.pump 0).pc = 0x1008) = true := by
  decide +kernel

-- a plane without AG sites; a plane that binds what another region holds; no plane; a running region; a load of it
theorem witness_Kick : let s := withPlane selected []
    (s.core 0).fab.planes[(1 : Fin 4)].bad = false ∧
    s.agsUnready 0 ((s.core 0).fab.planes[(1 : Fin 4)].agsOf 0) = false ∧
    s.regionBinds 0 0 ((s.core 0).fab.planes[(1 : Fin 4)].agsOf 0) = .ok [] ∧ s.bindsConflict [] = none ∧
    (s.pump 0).loading 1 = false ∧
    region (.kick 0) (s.modPump 0 fun p => { p with seed := 5 }) (fun x => x.run && x.sel = some 1 && x.seed = 5) = true ∧
    traps (.kick 0) base 0x10 0 = true ∧ traps (.kick 0) (withRegion ran) 0x10 0 = true := by decide +kernel

/-- A header of kind 1 for plane 1 with one frame, and a `mem.wr` frame for memory site 0 and one slot (R79, R83). -/
def header : Frame := frame [(248, 1), (232, 1), (228, 1)]
def memWr : Frame := frame [(252, 2), (248, 1), (228, 1)]
def load1 : Load := { offset := 0, sluice := false, plane := 1, header := header, frames := [memWr] }
def blockAt : State :=
  { withPump fun p => { p with g := setAt p.g 5 0x10000 } with
    mem := Memory.write [] 0x20000 (toLE 32 header.toNat ++ toLE 32 memWr.toNat) }
theorem witness_Loads_cfgl : blockAt.loadWords 0 0x10000 4 = .ok (toLE 32 header.toNat) ∧
    (blockAt.headerStop 0 header 0).isNone = true ∧ blockAt.loadWords 0 0x10020 (4 * siteOf header) = .ok (toLE 32 memWr.toNat) ∧
    ok (exec (.cfgl (.g 5)) blockAt) (fun t => (t.pump 0).load = some load1 && (t.pump 0).pc = 0x1008) = true ∧
    traps (.cfgl (.g 5)) (withG 5 0x10010) 2 0x10010 = true ∧
    waits (.cfgl (.g 5)) (blockAt.modPump 0 fun p => { p with load := some load1 }) 7 = true := by decide +kernel
theorem witness_Loads_complete : let s := withPump fun p => { p with load := some load1 }
    let bad := withPump fun p => { p with load := some { load1 with frames := [frame [(252, 2), (248, 1), (228, 7)]] } }
    s.loadFault 0 load1 = none ∧ (s.core 0).fab.planeRuns 1 = false ∧
    ok (exec (.configLoadComplete 0) s) (fun t => (t.core 0).fab.planes[(1 : Fin 4)].frames = [memWr] && (t.pump 0).load = none) = true ∧
    ok (exec (.configLoadComplete 0) bad) (fun t => (t.core 0).fab.planes[(1 : Fin 4)].frames = [] &&
      (t.pump 0).held = [{ code := 0x10, sluice := false, plane := 1, offset := 32 }]) = true := by decide +kernel
theorem witness_Kick_loading : (((withPlane selected []).modPump 0 fun p => { p with load := some load1 }).pump 0).loading 1 = true ∧
    waits (.kick 0) ((withPlane selected []).modPump 0 fun p => { p with load := some load1 }) 7 = true := by decide +kernel

-- region 0 runs an empty plane and has drained; a domain with 2 and with 3 aborts
theorem witness_RegionDrain : let s := withPlane ran []
    s.shut = false ∧ ((s.core 0).fab.runPlane 0).isSome = true ∧ ran.moves = true ∧ ran.page = none ∧ ran.armed = none ∧
    s.drains 0 0 { Plane.reset with frames := [] } = true ∧
    ok (exec (.regionDrain 0 0) s) (fun t => !(t.core 0).fab.regions[(0 : Fin 8)].run &&
      (t.core 0).fab.regions[(0 : Fin 8)].sel = some 1) = true := by decide +kernel
theorem witness_Abort : let s (n : Nat) := withPlane { ran with aborts := n } []
    (s 2).domainCommits ((s 2).domain 0 0) = 0 ∧ (s 3).domainCommits ((s 3).domain 0 0) = 0 ∧
    Token.ofWord? 0 0 false = none ∧
    ok (exec (.checkFailureAbort 0 0 (.token 0) 5) (s 2)) (fun t => (t.core 0).fab.regions[(0 : Fin 8)].aborts = 3 &&
      (t.pump 0).asyncs = []) = true ∧
    ok (exec (.checkFailureAbort 0 0 (.residue 5 0) 5) (s 3)) (fun t => (t.core 0).fab.regions[(0 : Fin 8)].stray &&
      (t.pump 0).asyncs = [{ code := 0x23, fab := true, region := 0, tval := 5 }]) = true := by decide +kernel
-- a fault of the open round that is pending at the pump (R457)
theorem witness_Abort_delivered : let e : Cause := { code := 0x14, fab := true, region := 0, tval := 0 }
    let s := (withPlane { ran with stray := true, fault := some e } []).modPump 0 fun p => { p with asyncs := [e] }
    e ∈ (s.pump 0).asyncs ∧ (∀ c : CoreId, ∀ j : Fin 8, (c ≠ 0 ∨ j ≠ 0) → ((s.core c).fab.regions[j]).fault = none) ∧
    ok (exec (.checkFailureAbort 0 0 (.residue 5 0) 5) s) (fun t => !(t.core 0).fab.regions[(0 : Fin 8)].stray &&
      (t.core 0).fab.regions[(0 : Fin 8)].run && (t.pump 0).asyncs = []) = true := by decide +kernel
-- a sink that no token reaches: after W = 65,536 cycles code 0x19, and one cycle earlier nothing
def still (now : Nat) : State :=
  { (withPlane ran [memWr]).modCore 0 fun k => { k with launch := { k.launch with diag := 0x10000 } } with now := now }
theorem witness_Still : let s := still 65536
    let u := (s.seen 0).seeWeir (weirOf 0)
    ((u.stillFault 0 0).map (·.1)) = some 0x19 ∧ ran.due = none ∧ s.translate 0 (s.launch 0).slotAddr .wr = .at 0x20000 ∧
    (u.stallRecord 0 0 ((s.core 0).fab.planes[(1 : Fin 4)]) 0x19).length = 48 ∧ (s.launch 0).slotAddr.toNat = 0x10000 ∧
    (s.codes, s.badMeta) = ([], []) ∧
    ok (exec (.stillWindowExpiry 0 0) s) (fun t => (t.core 0).fab.regions[(0 : Fin 8)].stray &&
      (t.pump 0).asyncs = [{ code := 0x19, fab := true, region := 0, tval := 0x10000 }] && t.mem.get 0x20000 = 0x19) = true ∧
    ok (exec (.stillWindowExpiry 0 0) (still 65535)) (fun t => (t.pump 0).asyncs = []) = true := by decide +kernel

-- AG site 2 with a read bind over the line of 0x10000, which a stream holds for writing
def agIn : List Frame :=
  [frame [(252, 4), (248, 1), (232, 2), (168, 0x10000)], frame [(252, 4), (248, 1), (232, 258), (154, 16), (151, 1), (145, 1)]]
theorem witness_Kick_conflict : let s := (withPlane selected agIn).modFab 0 fun f =>
      { f with binds := [{ owner := .stream 5, ag := 3, write := true, ranges := [(0x200, 0x201, 0x10000)], copied := [] }] }
    let b : Bind := { owner := .frame 0, ag := 2, write := false, ranges := [(0x200, 0x201, 0x10000)], copied := [] }
    s.agsUnready 0 ((s.core 0).fab.planes[(1 : Fin 4)].agsOf 0) = false ∧
    s.regionBinds 0 0 ((s.core 0).fab.planes[(1 : Fin 4)].agsOf 0) = .ok [b] ∧ s.bindsConflict [b] = some 0x10000 ∧
    traps (.kick 0) s 0x1B 0x10000 = true := by decide +kernel

def joinAt0 : Frame := frame [(252, 1), (248, 1), (228, 12), (224, 1), (192, 4), (188, 4)]
theorem witness_FrameFetch : let s := withFab fun f =>
      { f with planes := setAt f.planes 1 { Plane.reset with frames := [joinAt0], absent := [0, 5] } }
    let p := (s.core 0).fab.planes[(1 : Fin 4)]
    let va := (s.launch 0).image + p.frameAt 0
    p.page = none ∧ va = 0x10020 ∧ s.translate 0 va .rd = .at 0x20020 ∧ s.lineStop 0x20020 va = none ∧
    ok (exec (.frameFetchComplete 0 1 0 .fetched) s) (fun t => (t.core 0).fab.planes[(1 : Fin 4)].absent = [5]) = true := by
  decide +kernel
-- a frame of a page that no entry maps: its page is asked for
theorem witness_FrameFetch_absent : let s := withFab fun f =>
      { f with planes := setAt f.planes 1 { Plane.reset with frames := [joinAt0], absent := [0, 5], offset := 0x40000 } }
    let p := (s.core 0).fab.planes[(1 : Fin 4)]
    0 ∈ p.absent ∧ p.page = none ∧ s.translate 0 ((s.launch 0).image + p.frameAt 0) .rd = .absent ∧
    ok (exec (.frameFetchComplete 0 1 0 .fetched) s) (fun t => t.requests.map (·.va) = [0x50000]) = true := by
  decide +kernel
-- 2^20 cycles after the last record, and one cycle earlier
theorem witness_Coalesce : let e (n : Nat) : Coalesced := { kind := 4, where_ := 0, core := 0, space := 0, flow := 0, count := n, since := 0 }
    let s (now n : Nat) := { base with now := now, coalesced := [e n] }
    ok (exec (.recoveryCoalesceExpiry 0) (s (2 ^ 20 - 1) 3)) (fun t => t.coalesced = [e 3]) = true ∧
    ok (exec (.recoveryCoalesceExpiry 0) (s (2 ^ 20) 0)) (fun t => t.coalesced = []) = true ∧
    (base.rings[(2 : Fin 3)]).base = none ∧
    ok (exec (.recoveryCoalesceExpiry 0) (s (2 ^ 20) 3)) (fun t => t.coalesced = [{ e 0 with since := 2 ^ 20 }] &&
      (t.rings[(2 : Fin 3)]).waiting.map (fun bs => fieldAt bs 0x18 4) = [3]) = true := by decide +kernel

/-! ### Weirs -/

/-- The header of a graph image (R212): its node words at 0x40, its input map at 0x50, its output map at 0x54. -/
def graphHeader : List Byte :=
  toLE 4 0x5752_4A58 ++ toLE 2 0x0300 ++ toLE 2 0 ++ toLE 4 2 ++ toLE 2 1 ++ toLE 2 1 ++ toLE 2 32 ++ toLE 2 8 ++ [1, 0, 1, 0] ++
    toLE 8 0x40 ++ toLE 8 0x50 ++ toLE 8 0x54 ++ toLE 16 0
/-- A graph of an input node for lane 0 and an output node for output lane 0: 32 lanes, 8 outputs, fed by core 0
(R89, R212 to R214). -/
def graph0 : Graph :=
  { header := graphHeader, nodes := [(1 <<< 60) ||| (16 <<< 54), 5 <<< 60], inMap := [0], outMap := [0], nl := 32, nout := 8, ins := 1, ocore := 0, lvl := 1 }
/-- `base` with a Weir 0. -/
def withWeir (w : Weir) : State := { base with weirs := setAt base.weirs 0 w }
def shadowed : Weir := { Weir.reset with ctx := setAt Weir.reset.ctx 1 (some graph0) }
def activeW : Weir := { Weir.reset with ctx := setAt Weir.reset.ctx 0 (some graph0) }
def both : Weir := { shadowed with ctx := setAt shadowed.ctx 0 (some graph0), openVec := [0] }
/-- `exec i s` leaves Weir 0 with the property. -/
def weir (i : Instr) (s : State) (f : Weir → Bool) : Bool := ok (exec i s) fun t => f t.weirs[(0 : Fin 64)]

-- an empty and a loaded shadow; at rest and not; a pending swap; a group that lacks core 3; a part without Weirs
theorem witness_WeirContexts : base.part.hasWeir = true ∧ (∀ j : Fin 4, coreOf (weirOf 0) j.val ∈ (base.launch 0).group) ∧
    gives (.gq (.g 4)) (withWeir activeW) 32766 = true ∧ gives (.gq (.g 4)) (withWeir shadowed) 0 = true ∧
    weir .gsw base (fun w => w = Weir.reset) = true ∧ weir .gsw (withWeir shadowed) (fun w => w.active = 1 && !w.swap) = true ∧
    weir .gsw (withWeir both) (fun w => w.active = 0 && w.swap) = true ∧
    weir (.grel 1) base (fun w => w = Weir.reset) = true ∧ weir (.grel 1) (withWeir both) (fun w => w.ctx[(1 : Fin 2)] = none) = true ∧
    weir (.grel 0) (withWeir activeW) (fun w => w.ctx[(0 : Fin 2)] = none) = true ∧
    weir (.grel 0) (withWeir both) (fun w => w.release && (w.ctx[(0 : Fin 2)]).isSome) = true ∧
    weir (.weirRestSwap 0) (withWeir { shadowed with swap := true }) (fun w => w.active = 1 && !w.swap) = true ∧
    weir (.weirRestSwap 0) (withWeir { both with swap := true }) (fun w => w.active = 0 && w.swap) = true := by decide +kernel
theorem witness_WeirContexts_traps :
    traps .gsw (withCore fun k => { k with launch := { k.launch with group := [0, 1, 2] } }) 4 0 = true ∧
    Part.hasWeir .jx34e = false ∧ traps .gsw { base with part := .jx34e } 0x12 (encode .gsw) = true := by decide +kernel

/-- The image at 0x10000 with that header. -/
def graphAt (h : List Byte) : State :=
  { withG 5 0x10000 with
    mem := Memory.write [] 0x20000 (h ++ (graph0.nodes.map fun n => toLE 8 n.toNat).flatten ++ toLE 2 0 ++ toLE 2 0 ++ toLE 4 0) }
theorem witness_Gld : let s := graphAt graphHeader
    s.loadWords 0 0x10000 8 = .ok graphHeader ∧ graphHeaderBad graphHeader = false ∧
    s.loadImage 0 0x10050 2 = .ok (toLE 2 0) ∧ s.loadImage 0 0x10054 4 = .ok (toLE 4 0) ∧
    s.loadImage 0 0x10040 16 = .ok (graph0.nodes.map fun n => toLE 8 n.toNat).flatten ∧
    (nodesFault graph0.inMap 1 graph0.nodes { nodes := #[], outs := [] }).toOption.map (·.outs) = some [0] ∧
    weir (.gld (.g 5)) s (fun w => w.ctx[(1 : Fin 2)] = some graph0 && w.ctx[(0 : Fin 2)] = none) = true ∧
    weir (.gldComplete 0) (s.modPump 0 fun p => { p with block := some (.gld (.g 5)) })
      (fun w => w.ctx[(1 : Fin 2)] = some graph0) = true ∧
    traps (.gld (.g 5)) (withG 5 0x10020) 2 0x10020 = true ∧
    traps (.gld (.g 5)) { s with weirs := setAt s.weirs 0 shadowed } 0x13 0x2_0000 = true ∧
    graphHeaderBad (0 :: graphHeader.drop 1) = true ∧ traps (.gld (.g 5)) (graphAt (0 :: graphHeader.drop 1)) 0x10 0 = true := by
  decide +kernel

/-! ### Work -/

/-- `base` with a deque of core 0. -/
def withDeque (d : List Word) : State := withCore fun k => { k with deque := d }
theorem witness_Deque : goes (.dqpush (.g 0)) base 0x1008 = true ∧
    ok (exec (.dqpush (.g 5)) (withDeque [1])) (fun t => (t.core 0).deque = [1, 7]) = true ∧
    ok (exec (.dqpop (.g 4)) (withDeque [1, 2])) (fun t => reg t (.g 4) = 2 && (t.core 0).deque = [1]) = true ∧
    gives (.dqpop (.g 4)) base 0 = true ∧ (0 : CoreId) ∈ (base.launch 0).group ∧
    ok (exec (.dqsteal (.g 4) (.g 0)) (withDeque [1, 2])) (fun t => reg t (.g 4) = 1 && (t.core 0).deque = [2]) = true ∧
    gives (.dqlen (.g 4)) (withDeque [1, 2]) 2 = true ∧ traps (.dqsteal (.g 4) (.g 5)) (withG 5 4) 4 4 = true ∧
    traps (.dqsteal (.g 4) (.g 5)) (withG 5 256) 4 256 = true := by decide
-- the last free place of the hardware part, and a full deque without a spill area
theorem witness_Deque_full : let s (n : Nat) := withDeque (List.replicate n 1)
    ((s 255).core 0).deque.length < 256 ∧ ok (exec (.dqpush (.g 5)) (s 255)) (fun t => (t.core 0).deque.length = 256) = true ∧
    256 + ((s 256).launch 0).spillWords ≤ ((s 256).core 0).dequeLen ∧ traps (.dqpush (.g 5)) (s 256) 4 0 = true := by
  decide +kernel

/-- Queue 1 of space 0: 4 records of 256 bytes at 0x20000, its doorbell at 0x30000 (R399, R402). -/
def queue1 : Queue :=
  { num := 1, space := 0, base := 0x20000, log2n := 2, doorbell := 0x30000, head := 0, code := 0, err := false, rejected := false,
    fresh := false, cluster := none, slot := 0, waiting := [], page := none }
/-- Core 0 runs a flow of queue 1; the doorbell reads `tail`, and the record to be launched lies at 0x10000. -/
def queued (tail : Word) : State :=
  { (paged [(0x30000, toLE 8 tail.toNat), (0x10000, [5]), (0x100FF, [6])]).modCore 0 fun k =>
      { k with launch := { k.launch with queue := 1 }, pump := { k.pump with g := setAt (setAt k.pump.g 8 0x10000) 5 1 } } with
    queues := [queue1] }
theorem witness_Launch : let s := queued 3
    s.mem.wf = true ∧ s.pending = [] ∧ s.linePoisoned (lineOf 0x30000) = false ∧ s.ownQueue 0 = some queue1 ∧
    s.translateIn 0 0x30000 .rw = .at 0x30000 ∧ s.bellAt queue1 0x30000 = 3 ∧ (3 : Word).toNat < 2 ^ queue1.log2n ∧
    s.loadWords 0 0x10000 32 = .ok (5 :: (List.replicate 254 0 ++ [6])) ∧ queue1.recordAt 3 = 0x20300 ∧
    s.translateIn 0 0x20300 .wr = .at 0x20300 ∧ s.mappedAt 1 = none ∧ lineOf 0x20300 ≠ lineOf 0x30000 ∧ queue1.page = none ∧
    ok (exec (.launch (.g 8)) s) (fun t => t.wordAt 0x30000 = 4 && t.mem.get 0x203FF = 6 && t.mem.get 0x20400 = 0) = true ∧
    ok (exec (.launchResume 0) (s.modPump 0 fun p => { p with block := some (.launch (.g 8)) }))
      (fun t => t.wordAt 0x30000 = 4 && (t.pump 0).block = none) = true ∧
    ok (exec (.launch (.g 8)) (queued 4)) (fun t => (t.pump 0).block = some (.launch (.g 8))) = true ∧
    traps (.launch (.g 5)) s 2 1 = true := by decide +kernel
-- the larger value stays; a queue number beyond the 256, and one of no queue
theorem witness_Notify : (queued 3).mappedAt 1 = none ∧ (queued 3).queue? 1 = some queue1 ∧ queue1.fresh = false ∧
    ok (exec (.notify (.g 5) (.g 6)) (queued 3)) (fun t => t.wordAt 0x30000 = 9) = true ∧
    ok (exec (.notify (.g 5) (.g 6)) (queued 12)) (fun t => t.wordAt 0x30000 = 12) = true ∧
    traps (.notify (.g 8) (.g 6)) (queued 3) 4 0x10000 = true ∧ traps (.notify (.g 6) (.g 6)) (queued 3) 4 9 = true := by
  decide +kernel

/-! ### Barriers: the quad of core 0 is cores 0 to 3 -/

def bar1 : Barrier := { arrivals := 1, waits := 0, abandoned := false }
/-- `base` with the quad count of core 0 at `x`, and those of cores 1 to 3 at `y`, whose pumps do `r`. -/
def quad (x y : Barrier) (r : Run) : State :=
  let set (s : State) (c : CoreId) (b : Barrier) : State :=
    s.modPump c fun p => { p with bars := setAt p.bars (scopeIndex .quad) b }
  let peer (s : State) (c : CoreId) : State := (set s c y).modPump c fun p => { p with run := r }
  set ([1, 2, 3].foldl peer base) 0 x
def barOf (i : Instr) (s : State) (b : Barrier) : Bool := ok (exec i s) fun t => t.bar 0 .quad = b && (t.pump 0).pc = 0x1008
theorem witness_Barriers : let z := Barrier.reset
    base.members 0 .quad = [0, 1, 2, 3] ∧ barOf (.bara .quad) base bar1 = true ∧
    traps (.bara .quad) (quad bar1 z .running) 1 (encode (.bara .quad)) = true ∧
    traps (.barw .quad) base 1 (encode (.barw .quad)) = true ∧
    barOf (.barw .quad) (quad bar1 bar1 .running) { bar1 with waits := 1 } = true ∧
    waits (.barw .quad) (quad bar1 z .running) 4 = true ∧ traps (.barw .quad) (quad bar1 z .halted) 0x19 1 = true ∧
    barOf (.bar .quad) (quad z bar1 .running) { bar1 with waits := 1 } = true ∧
    waits (.bar .quad) (quad z z .running) 4 = true ∧
    ok (exec (.barwRelease 0) ((quad bar1 bar1 .running).modPump 0 fun p => { p with block := some (.bar .quad) }))
      (fun t => t.bar 0 .quad = { bar1 with waits := 1 } && (t.pump 0).block = none) = true := by decide +kernel
theorem witness_Barriers_abandoned : let a : Barrier := { bar1 with abandoned := true }
    let s := (quad bar1 Barrier.reset .running).modPump 0 fun p => { p with block := some (.bar .quad), asyncs := asyncs.take 1 }
    ok (exec (.asyncTrapTaken 0) s) (fun t => t.bar 0 .quad = a && (t.pump 0).epc = 0x1000 && (t.pump 0).pc = 0x9000) = true ∧
    barOf (.bar .quad) (quad a bar1 .running) { bar1 with waits := 1 } = true := by decide +kernel

-- W = 65,536 cycles without progress, and one cycle less
theorem witness_StillWaits_lds : let s (now : Nat) := { withPump fun p => { p with block := some (.lds (.g 4) (.g 0) 0x40) } with now := now }
    (s 65536).cisternPlace 0 0x40 = .here 0 0x40 ∧ 0x40 / 8 ∉ ((s 65536).core 0).full ∧ ((s 65536).pump 0).streaming = false ∧
    (s 65536).peerWindow 0 = false ∧ (∀ r : Fin 8, ((s 65536).core 0).fab.regions[r].run = false) ∧
    traps (.ldsStillTimeout 0) (s 65536) 0x19 0x40 = true ∧
    ok (exec (.ldsStillTimeout 0) (s 65535)) (fun t => !(t.pump 0).ht) = true := by decide +kernel
theorem witness_StillWaits_waith : let s : State :=
      { (withHandle outRing).modPump 0 fun p => { p with block := some (.waith (.g 4) 3 4) } with now := 65536 }
    outRing.slots - (outRing.fill - outRing.free) < 4 ∧ ((s.pump 0).ringStream 3).map (·.fault) = some none ∧
    s.streamStill 0 3 65536 = true ∧ traps (.waithStillTimeout 0) s 0x18 3 = true := by decide +kernel
theorem witness_StillWaits_waith_input : let s : State :=
      { (withHandle inRing).modPump 0 fun p => { p with block := some (.waith (.g 4) 3 3) } with now := 65536 }
    (s.pump 0).fillOf 3 - inRing.free < 3 ∧ liveStream ((s.pump 0).ringStream 3) = true ∧ s.streamStill 0 3 65536 = true ∧
    traps (.waithStillTimeout 0) s 0x18 3 = true := by decide +kernel
theorem witness_StillWaits_launch : let s : State :=
      { (queued 4).modPump 0 fun p => { p with block := some (.launch (.g 8)) } with now := 65536 }
    s.ownQueue 0 = some queue1 ∧ s.translateIn 0 0x30000 .rw = .at 0x30000 ∧ 2 ^ queue1.log2n ≤ (s.bellAt queue1 0x30000).toNat ∧
    traps (.launchStillTimeout 0) s 0x18 0x10000 = true := by decide +kernel

/-! ### The polder: region 0 runs plane 1 -/

/-- `mem.rd` of two slots at memory site 0 (R83, R330), and a switch at site 0 that leads W to E (R84). -/
def memRd : Frame := frame [(252, 2), (248, 1), (195, 1)]
def westToEast : Frame := frame [(252, 3), (248, 1), (226, 4)]
def tok (n : Nat) : Token := { kind := .data, seq := 0, payload := BitVec.ofNat 256 n, scale := 0, poison := false }
/-- `withPlane ran fs` with another core 0, at a moment. -/
def polder (fs : List Frame) (f : Core → Core) (now : Nat := 0) : State := { (withPlane ran fs).modCore 0 f with now := now }
def site0 (f : Site → Site) (k : Core) : Core := k.modSite 0 fun s => f { s with gate := .awake }

theorem witness_Tokens_link : let s := polder [memRd, westToEast] fun k => k.modLink 0 3 fun _ => [tok 5, tok 6]
    ((s.core 0).bufOwner 0 3).map (·.1) = some 0 ∧ (s.core 0).fab.regions[(0 : Fin 8)].moves = true ∧
    ((s.core 0).fab.planes[(1 : Fin 4)]).resident 0 = true ∧ ((s.core 0).fab.planes[(1 : Fin 4)]).dsts 0 4 = [.link 1 3] ∧
    (s.core 0).room ((s.core 0).fab.planes[(1 : Fin 4)]) (.link 1 3) = true ∧
    ok (exec (.tokenHop 0 (.link 0 .w)) s) (fun t => (t.core 0).fab.links[linkIx 0 3] = [tok 6] &&
      (t.core 0).fab.links[linkIx 1 3] = [tok 5]) = true := by decide +kernel
theorem witness_Tokens_out : let s := polder [joinAt0] (site0 fun x => { x with outq := setAt x.outq 1 [tok 5] })
    ((s.core 0).siteOwner 0).map (·.1) = some 0 ∧ farDst 0 1 = some (.link 1 3) ∧
    ok (exec (.tokenHop 0 (.out 0 .e)) s) (fun t => (t.core 0).fab.links[linkIx 1 3] = [tok 5] &&
      (t.core 0).fab.sites[(0 : Fin 64)].outq[(1 : Fin 4)] = []) = true := by decide +kernel
theorem witness_Tokens_fire : let s := polder [joinAt0] (site0 fun x => { x with inReg := setAt x.inReg 3 (some (tok 5)) }) 9
    let k := CompCfg.of joinAt0
    ((s.core 0).siteOwner 0) = some (0, (s.core 0).fab.planes[(1 : Fin 4)], k) ∧ k.site = 0 ∧
    (match (s.core 0).firing 0 ((s.core 0).fab.planes[(1 : Fin 4)]) k 9 with
      | .fire f => !f.commit && (f.ports k).all fun q => (s.core 0).outFree ((s.core 0).fab.planes[(1 : Fin 4)]) 0 q
      | _ => false) = true ∧
    ok (exec (.siteFire 0 0) s) (fun t => (t.core 0).fab.links[linkIx 1 3] = [tok 5] &&
      (t.core 0).fab.sites[(0 : Fin 64)].inReg[(3 : Fin 4)] = none && (t.core 0).fab.sites[(0 : Fin 64)].firedAt = 9) = true := by
  decide +kernel
-- 64 cycles without a firing, and 63
theorem witness_Tokens_gates : let gate (s : Out) : Option Gate := match s with
      | .next t => some (t.core 0).fab.sites[(0 : Fin 64)].gate
      | _ => none
    gate (exec (.clockGate 0 0) (polder [joinAt0] (site0 id) 64)) = some .clock ∧
    gate (exec (.clockGate 0 0) (polder [joinAt0] (site0 id) 63)) = some .awake ∧
    gate (exec (.siteWake 0 0) (polder [joinAt0] (site0 fun x => { x with gate := .called, inReg := setAt x.inReg 3 (some (tok 5)) }))) =
      some .awake ∧
    gate (exec (.sitePowerWake 0 0) (polder [joinAt0] (site0 fun x => { x with gate := .waking 1024 }) 1024)) = some .awake := by
  decide +kernel

theorem witness_Sources_mem : let s := polder [memRd] fun k => { k with cistern := [(0x1F, 1)] }
    let g := MemCfg.of memRd
    ((s.core 0).memOwner 0) = some (0, (s.core 0).fab.planes[(1 : Fin 4)], g) ∧ g.mode = 0 ∧ g.len = 2 ∧
    ((s.core 0).fab.planes[(1 : Fin 4)]).permitMem 0 = false ∧ ((s.core 0).fab.planes[(1 : Fin 4)]).bad = false ∧
    ran.stopping = none ∧ (s.core 0).fab.mems[(0 : Fin 8)] = MemSite.reset ∧ (s.core 0).bad = [] ∧ (s.core 0).latent = [] ∧
    ok (exec (.memorySiteAccess 0 0) s) (fun t => (t.core 0).fab.mems[(0 : Fin 8)].outq = [tok (2 ^ 248)] &&
      (t.core 0).fab.mems[(0 : Fin 8)].pos = 1) = true := by decide +kernel
theorem witness_Sinks_mem : let s (x : Token) (h : List Token) := polder [memWr] (fun k =>
      k.modMem 0 fun m => { m with inReg := some x, hold := h })
    (((s (tok 5) []).core 0).memOwner 0).map (·.2.2.mode) = some 1 ∧
    ok (exec (.memorySiteAccess 0 0) (s (tok 5) [])) (fun t => (t.core 0).fab.mems[(0 : Fin 8)].hold = [tok 5] &&
      (t.core 0).cistern = []) = true ∧
    ok (exec (.memorySiteAccess 0 0) (s (plainTok .mark) [tok 5])) (fun t => (t.core 0).cistern = [(0, 5)] &&
      (t.core 0).full = [0, 1, 2, 3]) = true := by decide +kernel
/-- `ag.in` and `ag.out` of 8 tokens of 32 bytes from 0x10000 on AG site 2 (R85, R86). -/
def agFrames (mode : Nat) : List Frame :=
  [frame [(252, 4), (248, 1), (232, 2), (228, mode), (168, 0x10000), (152, 7), (128, 32)],
   frame [(252, 4), (248, 1), (232, 258), (154, 16), (151, 1)]]
theorem witness_Sources_ag : let s (rs : List (Nat × Option Word × Bool)) := { polder (agFrames 0) fun k =>
      k.modAg 2 fun x => { x with use := .frame 0, pos := 1, reads := rs } with mem := [(0x20020, 9)] }
    (((s []).core 0).agRun 2).map (·.2.mode) = some 0 ∧ ((s []).core 0).agMoves (.frame 0 (((s []).core 0).fab.planes[(1 : Fin 4)])) = true ∧
    ok (exec (.agStreamAccess 0 2) (s [])) (fun t => (t.core 0).fab.ags[(2 : Fin 8)].reads = [(1, some 0x10020, false)] &&
      (t.core 0).fab.ags[(2 : Fin 8)].pos = 2) = true ∧
    (s []).translate 0 0x10020 .rd = .at 0x20020 ∧ (s []).lineStop 0x20020 0 = none ∧ (s []).wayUp 0 0x20020 = true ∧
    (((s []).core 0).agRun 2).map (fun q => (q.2.ctx.isNone, q.2.int, q.2.use2, patternLen q.2.counters, q.2.rnd)) = some (true, 0, 0, 8, 16) ∧
    ok (exec (.agReadReturn 0 2) (s [(1, some 0x10020, false)])) (fun t => (t.core 0).fab.ags[(2 : Fin 8)].reads = [] &&
      (t.core 0).fab.ags[(2 : Fin 8)].outq = [tok 9]) = true := by decide +kernel
theorem witness_Sinks_ag : let s := polder (agFrames 1) fun k => k.modAg 2 fun x => { x with use := .frame 0, inReg := some (tok 5) }
    ((s.core 0).agRun 2).map (·.2.mode) = some 1 ∧
    ok (exec (.agStreamAccess 0 2) s) (fun t => (t.core 0).fab.ags[(2 : Fin 8)].hold = [tok 5]) = true := by decide +kernel

theorem witness_Sources_shut : let s := { polder (agFrames 1) id with shut := true }
    (polder (agFrames 1) id).shut = false ∧
    ([.memorySiteAccess 0 0, .agStreamAccess 0 2, .agReadReturn 0 2].all fun i => ok (exec i s) fun t => t.shut && t.mem = s.mem) = true := by
  decide +kernel

/-! ### Operators -/

/-- A frame of kind `k` and mode `m` that reads its ports in this order; `fire` is what its operator does. -/
def cfg (k m : Nat) (order : List (Fin 4)) (raw : Frame := 0) : CompCfg :=
  { site := 0, kind := k, mode := m, region := 0, order := order, outA := 4, outB := 0, fmtA := 4, fmtB := 4, fmtO := 4, raw := raw }
def env : FireEnv := { seed := 0, now := 100, afree := true, rfree := true, busy := false, poison := false }
def fires (k : CompCfg) (inp : Vector (Option Token) 4) (op : OpState) (f : Fired → Bool) : Bool :=
  match fireOp k env inp op with
  | .fire x => f x
  | _ => false
def two' (a b : Token) : Vector (Option Token) 4 := setAt (setAt (Vector.replicate 4 none) 3 (some a)) 0 (some b)
-- 1.0 + 2.0 in lane 0
theorem witness_Operators_red : let k := cfg 2 4 [3, 0]
    k.fa = .o32 ∧ k.fo = .o32 ∧ (headsOf (two' (tok 0x3F80_0000) (tok 0x4000_0000)) k.ports).toOption = some [tok 0x3F80_0000, tok 0x4000_0000] ∧
    fires k (two' (tok 0x3F80_0000) (tok 0x4000_0000)) OpState.reset (fun f =>
      f.outs.map (fun o => bits o.2.payload 0 32) = [0x4040_0000] && f.reads = [3, 0]) = true := by decide +kernel
-- a block of 2 × 2 at its fourth token (param [171:167] is n − 1)
theorem witness_Operators_turn : let k := cfg 11 0 [3] (frame [(167, 1)])
    (cfg 11 0 [3] (frame [(167, 1)])).param 167 5 + 1 = 2 ∧
    fires k (two' (tok 4) (tok 0)) { OpState.reset with store := [tok 1, tok 2, tok 3] } (fun f =>
      f.outs.map (·.2) = [tok 1, tok 3, tok 2, tok 4, plainTok .mark] && f.commit) = true := by decide +kernel
-- a token that arrived exactly its delay ago
theorem witness_Operators_fifo : let k := cfg 10 0 [3] (frame [(153, 60)])
    k.param 153 10 = 60 ∧ fires k (Vector.replicate 4 none) { OpState.reset with store := [tok 1, tok 2], stamps := [40, 41] } (fun f =>
      f.outs = [(.a, tok 1)] && f.op.store = [tok 2]) = true := by decide +kernel
theorem witness_Operators_join : let m := { plainTok .mark with seq := 0 }
    fires (cfg 12 0 [3, 0]) (two' m m) { OpState.reset with n := setAt (setAt OpState.reset.n 3 1) 0 2 } (fun f =>
      f.outs = [(.a, dataTok 0 0 false), (.a, plainTok .mark)] && f.commit && f.flags ≠ 0) = true ∧
    fires (cfg 12 1 [3]) (two' (tok 5) m) OpState.reset (fun f => f.outs = [(.a, tok 5)] && f.op.latch = some 5) = true ∧
    fires (cfg 12 1 [3]) (two' m m) { OpState.reset with latch := some 5 } (fun f => f.pred = some true && f.commit) = true := by
  decide +kernel

/-! ### Weir vectors, folds, sluice lines -/

/-- Frames of an AG site 3 that feeds the Weir (R225). -/
def weirFeed : List Frame :=
  [frame [(252, 4), (248, 1), (232, 3), (168, 0x10000)], frame [(252, 4), (248, 1), (232, 259), (154, 16), (151, 1), (144, 1)]]
-- 1.0 in BF16 lane 0 comes out as 1.0 in FP32 lane 0 (R208); the first token of two opens the vector
theorem witness_WeirVector : let s (v : List Frame) := { polder weirFeed id with
      weirs := setAt base.weirs 0 { activeW with openVec := v, inReg := setAt activeW.inReg 0 (some (tok 0x3F80)) } }
    (s []).weirHome 0 graph0 = some (0, 0) ∧ graph0.feeders = [0] ∧
    weir (.weirVector 0) (s []) (fun w => w.openVec = [0x3F80] && w.outq = []) = true ∧
    weir (.weirVector 0) { s [0x3F80] with weirs := setAt base.weirs 0 { activeW with openVec := [0x3F80], inReg := setAt activeW.inReg 0 (some (tok 0)) } }
      (fun w => w.openVec = [] && w.outq.map (fun t => bits t.payload 0 64) = [0x3F80_0000]) = true := by decide +kernel

/-- A chain of two integer members with one shard each, and a station of two shards at one port (R246 to R248); their
streams run on handles 3 and 5 of core 0. -/
def fold (h : BitVec 6) (r : FoldRec) (parts : List Frame) : Fold :=
  { core := 0, h := h, rec_ := r, addr := 0x10000, counters := [{ bound := 4, stride := 32 }], raw := false, pos := 0, member := some 0, pa := 0x20000
    die := 0, pend := [], parts := parts, running := [], outs := [], next := none, flags := 0, rounds := 0 }
def head : FoldRec :=
  { station := false, integer := true, head := true, shards := 2, first := 0, count := 1, blk := 1, members := [], buffer := 0 }
def second : FoldRec := { head with head := false, first := 1 }
def station : FoldRec := { head with station := true, head := false, count := 0, members := [(0x2000, 2)], buffer := 0x10400 }
def cross (b : List Token) : Crossing :=
  { port := 0x2000, leg := 0, capacity := 64, credits := 60, buffer := b, fold := 0, movedAt := 0 }
def folding (r : FoldRec) (fs : List Fold) (xs : List Crossing) : State :=
  let handle (r : FoldRec) : Option Handle := some { outRing with stream := some { stream0 .output with fold := some r } }
  { withPump fun p => { p with handles := setAt (setAt p.handles 3 (handle r)) 5 (handle second) } with folds := fs, crossings := xs }
theorem witness_ChainFold : let f := fold 3 head [5]
    let s := folding head [f, fold 5 second []] []
    (s.foldStream f).isSome = true ∧ (s.core 0).fab.ags[(2 : Fin 8)].page = none ∧ s.chainNext f = .member 0 5 ∧
    s.foldOf 0 5 = some 1 ∧ s.legsTo f (fold 5 second []) = [] ∧ s.legsClear 0 = true ∧
    ok (exec (.chainFold 0) s) (fun t => (t.folds.map (·.parts)) = [[], []] && t.folds.map (·.running) = [[], [5]]) = true := by
  decide +kernel
theorem witness_StationFold : let f := fold 3 station [5, 6]
    let s := folding station [f] [cross []]
    s.stationMembers station = [some 0] ∧ s.stationFull station = true ∧ f.member = some station.receiver ∧ f.need = 2 ∧
    f.outs = [] ∧ s.legsToSink f = [] ∧
    (foldShards true 1 2 [0] [5, 6]).1 = [11] ∧ (s.foldStream f).isSome = true ∧
    (s.foldWrite f [11]).toOption.map (·.2.1) = some [] ∧
    ok (exec (.stationFold 0) s) (fun t => t.folds.map (fun f => (f.parts, f.pos)) = [([], 1)] && t.mem.get 0x20000 = 11) = true := by
  decide +kernel
theorem witness_Crossing : let s (r : FoldRec) (b : List Token) := folding r [{ fold 3 r [] with pend := [(0, 7, false)] }] [cross b]
    (s head []).portUp 0x2000 = true ∧
    ok (exec (.tokenHop 0 (.crossing 0)) (s head [tok 5])) (fun t => t.crossings.map (fun x => (x.credits, x.buffer)) = [(61, [])] &&
      t.folds.map (·.pend) = [[(0, 7, false), (0, 5, false)]]) = true ∧
    ok (exec (.tokenHop 0 (.crossing 0)) (s head [plainTok .mark])) (fun t => t.folds.map (fun f => (f.pend, f.parts)) = [([], [7])] &&
      t.mem = []) = true ∧
    ok (exec (.tokenHop 0 (.crossing 0)) (s station [plainTok .mark])) (fun t => t.folds.map (fun f => (f.pend, f.parts)) = [([], [7])] &&
      t.mem = [(0x20400, 7)] && t.crossings.map (·.credits) = [60]) = true := by
  decide +kernel
/-- A context that leads every token from the W link of site 0.0 to the E link of site 0.3 (R350). -/
def straight : List Frame := [0, 1, 2, 3].map fun i => frame [(252, 3), (232, i), (226, 4)]
theorem witness_SluiceLine : let s := { polder (agFrames 1) fun k => k.modAg 2 fun x => { x with use := .frame 0 } with
      sluice := setAt base.sluice 0 (some { owner := 0, frames := straight, offset := 0 })
      jobs := [{ core := 0, ag := 2, ctx := 0, write := true, tokens := [(0x20020, 5, false)], index := [], raw := false, aborts := 0 }] }
    (sluicePass straight [(5, false)]).fault = none ∧ (sluicePass straight [(5, false)]).tokens = [(5, false)] ∧
    ((s.core 0).agRun 2).isSome = true ∧ (s.core 0).fab.ags[(2 : Fin 8)].dropped = [] ∧ (s.core 0).fab.ags[(2 : Fin 8)].page = none ∧
    ok (exec (.sluiceLine 0) s) (fun t => t.jobs = [] && t.mem = [(0x20020, 5)]) = true := by decide +kernel

/-! ### Writes performed, records, verdicts -/

def pend1 : Pending :=
  { core := 0, pa := 0x20010, va := 0x10010, bytes := [7, 8], raw := false, bind := none, by_ := .pump 0, rels := [] }
theorem witness_Writes_perform : let s := { base with pending := [pend1] }
    s.mem.wf = true ∧ pend1.pa % 256 + pend1.bytes.length ≤ 256 ∧ s.linePoisoned (lineOf pend1.pa) = false ∧
    ok (exec (.writePerform 0) s) (fun t => t.pending = [] && t.mem = [(0x20010, 7), (0x20011, 8)]) = true := by decide +kernel

/-- The bytes of a launch record, by offset and value (R402), and the image header at 0x10000: code and entry at 0x1000 of it
(R76). -/
def recordBytes (fs : List (Nat × Nat)) : List Byte := toLE 256 (fs.foldl (fun n f => n + f.2 * 2 ^ (8 * f.1)) 0)
def goodRecord : List (Nat × Nat) := [(0, 0x10000), (8, 77), (0x45, 1), (0x47, 2), (0x4A, 1)]
def image1 : List Byte := toLE 4 0x4D49_584A ++ toLE 4 0x0300 ++ toLE 8 0x1000 ++ toLE 8 0x1000 ++ toLE 8 0x100

/-- A flow of queue 1 on core 0 with a completion ring of one record at 0x40 of its cistern (R357 to R359). -/
def flow1 : Flow :=
  { num := 5, queue := 1, space := 0, rec_ := { Record.of (recordBytes goodRecord) with ring := true, ringOffset := 0x40, ringCount := 1 }
    cores := [0], state := .running, order := 0, born := 0, kept := [], keptWeirs := [], keptSluice := [], fate := none, ringNext := 0, due := [], page := none
    cluster := none, slot := 0, lost := [], orphan := false }
def due1 : DueRecord :=
  { kind := 1, status := 0, code := 0, flags := 0, amount := 3, core := 0, handle := 2, addr := 0x9000, by_ := .ag 0 2, upTo := 0 }
theorem witness_Writes_completion : let f := { flow1 with due := [due1] }
    let s (n : Nat) := { base with flows := [{ f with ringNext := n }] }
    (s 0).flow? (BitVec.ofNat 32 5) = some f ∧ ((s 0).core 0).cistern.wf = true ∧ 0 < f.rec_.ringCount ∧ f.rec_.ring = true ∧
    ok (exec (.completionRecordWrite 5) (s 0)) (fun t => ((t.core 0).cistern.read 0x60 9) = [1, 0, 0, 0, 1, 0, 0, 0, 3] &&
      (t.core 0).full = [12, 13, 14, 15] && t.flows = [{ f with due := [], ringNext := 1 }]) = true ∧
    ok (exec (.completionRecordWrite 5) (s 1)) (fun t => t.flows = [{ f with ringNext := 1 }]) = true := by decide +kernel

def asked : PageReq := { id := 9, va := 0x50000, access := 1, requester := 0, space := 0, flow := 0, core := some 0, postedAt := 10 }
/-- Core 0 waits on request 9. -/
def asking (now : Nat) : State :=
  { (withPump fun p => { p with page := some (9, 0x50008), block := none }) with requests := [asked], now := now }
theorem witness_Writes_verdict : let s := asking 11
    s.requests.find? (fun x => x.id = 9) = some asked ∧ asked.requester ≠ 4 ∧ asked.requester ≠ 5 ∧
    ((fins 256).all fun d => (fins 8).all fun a => ((s.core d).fab.ags[a]).page = none && ((s.core d).fab.regions[a]).page = none &&
      ((s.core d).fab.regions[a]).due = none) = true ∧
    ((fins 256).all fun d => (fins 4).all fun a => ((s.core d).fab.planes[a]).page = none) = true ∧ s.queues = [] ∧ s.flows = [] ∧
    s.launchBell 0 0x50008 = none ∧
    ((fins 4).all fun e => (fins 16).all fun k => s.slotAt e k = none) = true ∧ (s.pump 0).page = some (9, 0x50008) := by
  decide +kernel
theorem witness_Writes_verdict_trap : CanTrap ((asking 11).pump 0) := can_trap (c := 0) (by decide)
theorem test_verdict_ok : (((asking 11).pumpVerdict 0 9 false).pump 0).page = none ∧
    (((asking 11).pumpVerdict 0 9 false).pump 0).pc = 0x1000 := by decide +kernel
theorem test_verdict_fail : let t := (asking 11).pumpVerdict 0 9 true
    (t.pump 0).tcause.word = 0x03 ∧ (t.pump 0).tcause.tval = 0x50008 ∧ (t.pump 0).epc = 0x1000 ∧ (t.pump 0).pc = 0x9000 := by
  decide +kernel
theorem test_verdict_unknown : ok (exec (.pageRequestVerdict 8 true) (asking 11)) (fun t => t.requests = [asked] && t.pump 0 = (asking 11).pump 0) =
    true := by decide +kernel
-- one cycle before the 2^32 cycles
theorem test_verdict_timeout : ok (exec (.pageRequestTimeout 9) (asking (9 + 2 ^ 32))) (fun t => t.requests = [asked]) = true := by
  decide +kernel
theorem witness_Writes_notify : let s := queued 4
    s.mappedAt 1 = none ∧ s.queue? 1 = some queue1 ∧ s.stage = 4 ∧ queue1.page = none ∧ queue1.fresh = false ∧ s.translateIn 0 0x30000 .rw = .at 0x30000 ∧
    s.mem.wf = true ∧ s.linePoisoned (lineOf 0x30000) = false ∧
    ok (exec (.notifyRegisterWrite 1 9) s) (fun t => t.wordAt 0x30000 = 9) = true ∧
    ok (exec (.notifyRegisterWrite 1 3) s) (fun t => t.wordAt 0x30000 = 4) = true := by decide +kernel

/-! ### Queues and flows -/

/-- Queue 1 with one pending record; 4 MB map to themselves, so that the areas at 0 exist. -/
def house (fs : List (Nat × Nat)) : State :=
  { paged [(0x30000, toLE 8 1), (0x20000, recordBytes fs), (0x10000, image1), (0x40_2008, toLE 8 0x20_001F)] with
    queues := [queue1] }
def slot1 : Slot := { queue := 1, base := 2, effective := 2, passes := 0, ready := false, page := none }
def mapped (fs : List (Nat × Nat)) (x : Slot) : State := (house fs).modHouse 0 fun h => { h with slots := setAt h.slots 4 (some x) }

theorem witness_Records_map : let s := house goodRecord
    s.shut = false ∧ ((s.unmapStale 0).unmapped 0).filter (s.unmapStale 0).mappable = [1] ∧
    (fins 16).find? (fun i => ((s.unmapStale 0).slotAt 0 i).isNone) = some 0 ∧
    ok (exec (.queueMap 0) s) (fun t => t.slotAt 0 0 = some slot1 && (t.houses[(0 : Fin 4)]).lastMapped = 1) = true := by decide +kernel
theorem witness_Records_poll : let s := mapped goodRecord slot1
    s.slotAt 0 4 = some slot1 ∧ s.headOf 1 = .record (recordBytes goodRecord) ∧ s.queue? 1 = some queue1 ∧
    s.recordCheck 0 (recordBytes goodRecord) = .ok ∧
    ok (exec (.dependencePoll 0 4) s) (fun t => t.slotAt 0 4 = some { slot1 with ready := true }) = true := by decide +kernel
-- a dependence that is not met, and the count of cores out of its range
theorem test_poll_dependence : let fs := goodRecord ++ [(0x4B, 1), (0x60, 0x30000), (0x68, 2)]
    ok (exec (.dependencePoll 0 4) (mapped fs slot1)) (fun t => t.slotAt 0 4 = some slot1) = true := by decide +kernel
theorem witness_Records_reject : let fs := goodRecord ++ [(0x45, 4)]
    let s := mapped fs slot1
    s.headOf 1 = .record (recordBytes fs) ∧ s.recordCheck 0 (recordBytes fs) = .reject 0x10 ∧
    ok (exec (.dependencePoll 0 4) s) (fun t => t.slotAt 0 4 = none &&
      t.queues = [{ queue1 with err := true, code := 0x10, rejected := true }]) = true := by decide +kernel
theorem witness_Records_stuck : let s := { base with rings := setAt base.rings 1 { base.rings[(1 : Fin 3)] with waiting := List.replicate 1025 [] } }
    s.ringsStuck = true := by decide +kernel
theorem witness_Records_dispatch : let s := { mapped goodRecord { slot1 with ready := true } with cores := State.reset.cores }
    let u := (fins 16).foldl (fun s i => s.pollSlot 0 i) (s.unmapStale 0)
    s.ringsStuck = false ∧ u.pickSlot 0 = some 4 ∧ u.readyAt 0 4 = some (.record queue1 (recordBytes goodRecord)) ∧
    queue1.cluster = none ∧ u.placeOk [] (Record.of (recordBytes goodRecord)) 0 [6] = true ∧
    ok (exec (.dispatchDecision 0 [[6]]) s) (fun t => (t.pump 6).pc = 0x11000 && (t.pump 6).read (.g 1) = 77 &&
      (t.pump 6).read (.g 2) = 0 && (t.pump 6).read (.g 3) = 1 && (t.pump 6).run = .running && t.flows.map (·.cores) = [[6]]) = true := by
  decide +kernel

/-- Core 0 of flow 5 has halted. -/
def done (f : Flow) : State := { (house goodRecord).modPump 0 fun p => { p with run := .halted, flow := 5 } with flows := [f] }
def bare (f : Flow) : Flow := { f with rec_ := Record.of (recordBytes goodRecord) }
theorem witness_Flows_retire : let f := bare flow1
    let s := done f
    s.flow? (BitVec.ofNat 32 5) = some f ∧ s.retirable f = true ∧ s.pending = [] ∧ f.rec_.completion = 0 ∧ f.cluster = none ∧
    (∀ j : Fin 3, (s.rings[j]).base = none) ∧
    ok (exec (.flowRetire 5) s) (fun t => t.flows = [] && t.pump 0 = Pump.reset) = true := by decide +kernel
theorem witness_Flows_retire_completion : let f := { bare flow1 with rec_ := Record.of (recordBytes (goodRecord ++ [(0x10, 0x50000), (0x18, 3)])) }
    let s := done f
    s.flow? (BitVec.ofNat 32 5) = some f ∧ s.retirable f = true ∧ s.translateIn 0 f.rec_.completion .wr = .at 0x50000 ∧ s.mem.wf = true ∧
    s.linePoisoned (lineOf 0x50000) = false ∧
    ok (exec (.flowRetire 5) s) (fun t => t.flows = [] && t.wordAt 0x50000 = 3) = true := by decide +kernel
/-- Flow 5, of level 0, holds the only core that is usable, and queue 1 of level 2 waits. -/
def crowded : State :=
  let s := (mapped goodRecord { slot1 with ready := true }).modPump 0 fun p => { p with flow := 5 }
  { s with
    badCores := (fins 256).drop 1
    flows := [{ flow1 with queue := 2, rec_ := Record.of (recordBytes [(0, 0x10000), (0x45, 1), (0x4A, 1)]) }] }
theorem witness_Flows_preempt : let s := crowded
    (5 : BitVec 32) ∈ s.chosenVictims 0 4 ∧ (s.flow? 5).map (·.state) = some .running ∧ (s.flows.all fun f => !s.groupDone f && !s.doomed f) = true ∧
    ok (exec (.preemptRequest 5) s) (fun t => (t.flows.map (·.state) = [.freezing]) && (t.pump 0).ypend && (t.pump 0).run = .frozen &&
      (t.pump 0).pc = 0x1000) = true := by decide +kernel
theorem witness_Flows_save : let f := { bare flow1 with state := .freezing }
    let s := (done f).modPump 0 fun p => { p with run := .frozen }
    s.flow? (BitVec.ofNat 32 5) = some f ∧ s.nmas = [] ∧ s.pending = [] ∧ (s.pump 0).run = .frozen ∧ s.stilled 0 = true ∧ f.fate = none ∧
    f.page = none ∧ s.saveStop f .wr = none := by
  decide +kernel
/-- Core 0 of flow 5 has been stopped by a refused trap: code 0x01 of a first trap, then 0x10. -/
def refused : State := (done (bare flow1)).modPump 0 fun p =>
  { p with run := .fatal, fatalBy := some ({ code := 0x10, fab := false, region := 0, tval := 0 }, 0x1000) }
theorem witness_Flows_fatal : let s := refused
    s.fatalCore (bare flow1) = some (0, 0) ∧ (bare flow1).fate = none ∧ (bare flow1).orphan = false ∧ s.translateIn 0 ((bare flow1).slotAddr 0) .wr ≠ .absent ∧ s.nmas = [] ∧
    ok (exec (.fatalEnd 5) s) (fun t => t.flows = [] && t.pump 0 = Pump.reset &&
      t.queues = [{ queue1 with err := true, code := 0x10 }]) = true := by decide +kernel

/-! ### The host, the mailbox, bring-up -/

-- memory of the package, and an address that does not exist (R471)
theorem witness_Host_window : base.hostRange 0x20000 4 = true ∧ (∀ l ∈ linesOf 0x20000 4, base.linePoisoned l = false) ∧
    base.hostRange (2 ^ 52) 1 = false ∧ base.mem.wf = true ∧ base.mailbox.busy = false ∧ base.stage = 4 ∧
    windowWritable 0x1008 = false ∧ windowWritable 0x1100 = false ∧ windowWritable 0x1108 = true := by decide +kernel
theorem test_host_read : ok (exec (.hostCausewayAccess (.readMem 0x20000 3)) (withMem 0x20000 [1, 2, 3])) (fun t => t.hostRead = [1, 2, 3]) =
    true := by decide +kernel
theorem test_host_write : ok (exec (.hostCausewayAccess (.writeMem 0x20000 [1, 2])) base) (fun t => t.mem = [(0x20000, 1), (0x20001, 2)]) =
    true := by decide +kernel
theorem test_host_go : ok (exec (.hostCausewayAccess (.writeReg 0x1080 5)) { base with mailbox := { base.mailbox with busy := true } })
    (fun t => t.mailbox.overrun) = true := by decide +kernel
-- byte 3 of the command, and the last byte with one beyond it
theorem test_host_command : ok (exec (.hostCausewayAccess (.writeCommand 0x1043 [9])) base) (fun t => t.mailbox.command[3]? = some 9) = true ∧
    ok (exec (.hostCausewayAccess (.writeCommand 0x107F [9, 8])) base) (fun t => t.mailbox.command[63]? = some 9 && t.mailbox.command.length = 64) =
      true := by decide +kernel
theorem test_host_status : ok (exec (.hostCausewayAccess (.readReg 0x1088)) { base with mailbox := { base.mailbox with result := 2, overrun := true } })
    (fun t => t.hostRead = [2, 2, 0, 0, 0, 0, 0, 0]) = true := by decide +kernel
-- ring 1 holds 2^4 records, all unread; one is consumed
theorem test_ring_consumer : let r := { base.rings[(1 : Fin 3)] with base := some 0x40000, log2n := 4, producer := 16, waiting := [[1]] }
    ok (exec (.ringConsumerWrite 1 1) { base with rings := setAt base.rings 1 r }) (fun t => (t.rings[(1 : Fin 3)]).consumer = 1 &&
      (t.rings[(1 : Fin 3)]).producer = 17 && (t.rings[(1 : Fin 3)]).waiting = [] && t.mem = [(0x40000, 1)]) = true := by decide +kernel

/-- A command under way, its bytes by offset and value (R475). -/
def mail (fs : List (Nat × Nat)) : State :=
  { base with
    mailbox := { base.mailbox with busy := true, overrun := true, command := toLE 64 (fs.foldl (fun n f => n + f.2 * 2 ^ (8 * f.1)) 0) }
    queues := [queue1] }
/-- `exec i s` ends the command with the result, and leaves the property. -/
def ends (i : Instr) (s : State) (result : Byte) (f : State → Bool) : Bool :=
  ok (exec i s) fun t => t.mailbox = { s.mailbox with busy := false, overrun := false, result := result } && f t

def create2 : List (Nat × Nat) := [(0, 1), (8, 2), (0x0A, 7), (0x0B, 2), (0x0C, 0xFF), (0x10, 0x10_0000), (0x18, 0x4100), (0x20, 0x5008)]
theorem witness_Mailbox_create : (mail create2).holds 1 = true ∧ (mail create2).createOk = true ∧
    ends .createQueue (mail create2) 0 (fun t => t.queues.map (·.num) = [1, 2] && t.spaces = [(7, 0x10_0000)]) = true := by decide +kernel
-- a doorbell word that held 9 (R399)
theorem witness_Mailbox_create_doorbell : let t := mail [(0, 1), (8, 2), (0x0B, 2), (0x0C, 0xFF), (0x10, 0x40_0000), (0x18, 0x4100), (0x20, 0x5008)]
    let s := { t with mem := tables.write 0x5008 [9], spaces := [(0, 0x40_0000)] }
    s.createOk = true ∧ (s.rings[(1 : Fin 3)]).base = none ∧ s.mem.wf = true ∧ s.linePoisoned (lineOf 0x5008) = false ∧
    s.translateIn s.mailbox.newQueue.space s.mailbox.newQueue.doorbell .rw = .at 0x5008 ∧
    ends .createQueue s 0 (fun t => t.wordAt 0x5008 = 0 && t.mem = tables) = true := by decide +kernel
-- a queue that exists
theorem test_mailbox_create_bad : ends .createQueue (mail ((0, 1) :: (8, 1) :: create2.drop 2)) 1 (fun t => t.queues = [queue1]) = true := by
  decide +kernel
theorem witness_Mailbox_destroy : let s := mail [(0, 2), (8, 1)]
    s.holds 2 = true ∧ s.mailbox.clean [(8, 2)] = true ∧ s.queue? 1 = some queue1 ∧
    ends .destroyQueue s 0 (fun t => t.queues = []) = true := by decide +kernel
theorem test_mailbox_destroy_bad : ends .destroyQueue (mail [(0, 2), (8, 3)]) 1 (fun t => t.queues = [queue1]) = true := by decide +kernel
theorem witness_Mailbox_clear : let s := mail [(0, 3), (8, 1), (10, 1)]
    let q := { queue1 with err := true, code := 0x10, rejected := true, head := 4 }
    s.holds 3 = true ∧ s.mailbox.clean [(8, 2), (10, 1)] = true ∧
    ends .clearErrorState { s with queues := [q] } 0 (fun t => t.queues = [{ queue1 with head := 5 }]) = true ∧
    ends .clearErrorState { s with queues := [{ q with rejected := false }] } 0 (fun t => t.queues = [{ queue1 with head := 4 }]) = true := by
  decide +kernel
theorem witness_Mailbox_invalidate : let s := mail [(0, 4), (8, 0), (0x10, 0x1_0000), (0x18, 0x1_0000)]
    s.holds 4 = true ∧ s.invalidation = none ∧ s.mailbox.rangeOk = true ∧
    ok (exec .invalidateRange s) (fun t => t.invalidation = some { space := 0, lo := 0x1_0000, hi := 0x2_0000 } && t.mailbox.busy) = true ∧
    (let u := { s with invalidation := some { space := 0, lo := 0x1_0000, hi := 0x2_0000 } }
     u.oldWrites { space := 0, lo := 0x1_0000, hi := 0x2_0000 } = false ∧
     ends .invalidateComplete u 0 (fun t => (t.core 0).tlb.map (·.vbase) = [0, 0x20000]) = true) := by decide +kernel
theorem witness_Mailbox_preempt : let s := { mail [(0, 5), (8, 5)] with flows := [flow1] }
    s.holds 5 = true ∧ s.mailbox.clean [(8, 4)] = true ∧ s.flow? 5 = some flow1 ∧ s.groupDone flow1 = false ∧
    s.doomed flow1 = false ∧ flow1.cluster = none ∧
    ends .hostPreempt s 0 (fun t => t.flows.map (·.state) = [.freezing]) = true := by decide +kernel
theorem witness_Mailbox_join : let s := mail [(0, 6), (8, 63), (10, 5), (16, 9)]
    s.holds 6 = true ∧ s.mailbox.clean [(8, 1), (10, 2), (16, 8)] = true ∧ 5 < 2 ^ s.part.leveePorts ∧
    ends .joinPod s 0 (fun t => t.pkg = 63 && t.pod = some (9, 5)) = true ∧ ends .joinPod (mail [(0, 6), (8, 64)]) 1 (fun t => t.pkg = 0) = true := by
  decide +kernel
theorem witness_Mailbox_join_memory : let s := { mail [(0, 6), (8, 63)] with mem := [(0x20000, 7)] }
    s.holds 6 = true ∧ (s.rings[(1 : Fin 3)]).base = none ∧ s.mem.wf = true ∧
    ends .joinPod s 0 (fun t => t.mem.get (63 * 2 ^ 40 + 0x20000) = 7) = true := by decide +kernel
theorem witness_Mailbox_place : let s := mail [(0, 7), (8, 2), (9, 16), (16, 0x10_0000)]
    s.holds 7 = true ∧ s.mailbox.clean [(8, 1), (9, 1), (16, 8)] = true ∧ s.physOk 0x10_0000 = true ∧
    s.physOk (0x10_0000 + 32 * 2 ^ 16 - 1) = true ∧ (∀ i : Fin 3, (s.rings[i]).waiting = []) ∧
    (s.codes, s.badMeta) = ([], []) ∧
    ends .placeRing s 0 (fun t => (t.rings[(2 : Fin 3)]).base = some 0x10_0000 && (t.rings[(2 : Fin 3)]).log2n = 16) = true ∧
    ends .placeRing (mail [(0, 7), (8, 3), (9, 16)]) 1 (fun t => t.rings[(2 : Fin 3)] = s.rings[(2 : Fin 3)]) = true := by decide +kernel
-- a nonce of zeros asks for the public key, of 97 bytes
theorem witness_Mailbox_quote : let s := mail [(0, 8), (8, 0x20000)]
    s.holds 8 = true ∧ s.mailbox.clean [(8, 8), (32, 32)] = true ∧ (s.mailbox.command.drop 32).take 32 = List.replicate 32 0 := by
  decide +kernel
theorem witness_Mailbox_quote_range : let s := mail [(0, 8), (8, 0x20000)]
    s.hostRange 0x20000 (s.quote ((s.mailbox.command.drop 32).take 32)).length = true := by
  have h : (s : State) → (s.quote (List.replicate 32 0)).length = 97 := fun s => by
    simp [State.quote, fit]; omega
  have e : ((mail [(0, 8), (8, 0x20000)]).mailbox.command.drop 32).take 32 = List.replicate 32 0 := by decide +kernel
  show (mail [(0, 8), (8, 0x20000)]).hostRange 0x20000 ((mail [(0, 8), (8, 0x20000)]).quote _).length = true
  rw [e, h]; decide +kernel
theorem witness_Mailbox_quote_nonce : let s := mail [(0, 8), (8, 0x20000), (63, 1)]
    s.mailbox.clean [(8, 8), (32, 32)] = true ∧ ((s.mailbox.command.drop 32).take 32).all (· = 0) = false := by decide +kernel
theorem witness_Mailbox_extend : let s := mail [(0, 9), (8, 7), (16, 255)]
    s.holds 9 = true ∧ s.mailbox.clean [(8, 1), (16, 48)] = true ∧
    ends .extendRegister (mail [(0, 9), (8, 2)]) 1 (fun t => t.attest = s.attest) = true := by decide +kernel
theorem witness_Mailbox_power : let s := mail [(0, 10), (8, 600)]
    s.holds 10 = true ∧ s.mailbox.clean [(8, 4)] = true ∧ 600 ≤ s.part.watts ∧
    ends .setPowerCap s 0 (fun t => t.powerCap = 600) = true ∧
    ends .setPowerCap (mail [(0, 10), (8, 599)]) 1 (fun t => t.powerCap = s.powerCap) = true := by decide +kernel
theorem witness_Mailbox_unknown : ends .unknownCommand (mail [(0, 11)]) 2 (fun _ => true) = true ∧
    ends .unknownCommand (mail []) 2 (fun _ => true) = true ∧ (mail [(0, 10)]).unknown = false := by decide +kernel

/-- The boot ROM in a stage, with the image command of `n` bytes (R475, R479). -/
def rom (stage : Byte) (fs : List (Nat × Nat)) : State := { mail ((0, 11) :: fs) with stage := stage }
theorem witness_BringUp_training : ok (exec .linkTrainingDone State.reset) (fun t => t.stage = 1) = true ∧ State.reset.stage = 0 := by decide +kernel
theorem witness_BringUp_unclean : let s := rom 1 [(16, 1)]
    s.mailbox.busy = true ∧ s.mailbox.command.headD 0 = 11 ∧ s.mailbox.clean [(8, 8)] = false ∧
    ends .bootImage s 1 (fun t => t.stage = 1) = true := by decide +kernel
-- a header whose length is not that of the command
theorem witness_BringUp_rejected : let s (stage : Byte) := rom stage [(8, 256)]
    (s 0x0E).mailbox.clean [(8, 8)] = true ∧ ok (exec .bootImage (s 0x0E)) (fun t => t.stage = 2 && t.bootErr = 0 && t.mailbox.busy) = true ∧
    (s 2).imageErr 256 = some 1 ∧ ends .bootImage (s 2) 0 (fun t => t.stage = 0x0E && t.bootErr = 1) = true := by
  decide +kernel
theorem witness_BringUp_init : let s := rom 3 []
    ok (exec (.firmwareInitDone [] 7) s) (fun t => t.stage = 0x0F && t.bootErr = 7) = true ∧
    ok (exec (.firmwareInitDone [63, 0] 0) s) (fun t => t.stage = 4 && t.usable 0 && t.sitesOf 0 = 63 && !t.usable 1 && t.usable 2 &&
      t.sitesOf 2 = 64) = true := by decide +kernel
theorem witness_BringUp_links : base.flitPort 0x1000 = true ∧ (0x1000 : BitVec 16) ∉ base.linksDown ∧ base.crossings = [] ∧
    base.agsOn 0x1000 = [] ∧ ok (exec (.leveeFlitRetry 0x1000 true) base) (fun t => t.linksDown = [0x1000]) = true := by decide +kernel
theorem test_device_reset : ok (exec .deviceReset { mail [] with mem := [(0x20000, 7), (2 ^ 46, 8)] }) (fun t => t.stage = 0 && t.queues = [] &&
    t.mem = [(2 ^ 46, 8)]) = true := by decide +kernel
theorem test_thermal_shutdown : ok (exec .thermalShutdown base) (fun t => t.shut && (t.rings[(1 : Fin 3)]).waiting.length = 1) = true := by
  decide +kernel

end Sys2Proof.Tests
end

/-! The loads `ld` and `ldq` (R296, R299): the value they form from bytes, what a read and an acquire leave alone, and the
instructions themselves. -/

namespace Sys2Proof.Machine

open Sys2Proof

/-! ### The value of a row of bytes (R8, R296) -/

/-- Bit `j` of a number is bit `j % 8` of byte `j / 8`. -/
theorem testBit_leNat (bs : List Byte) (j : Nat) : (leNat bs).testBit j = (bs.getD (j / 8) 0).getLsbD (j % 8) := by
  induction bs generalizing j with
  | nil => simp [leNat]
  | cons b r ih =>
    have e : leNat (b :: r) = 2 ^ 8 * leNat r + b.toNat := by simp only [leNat]; omega
    rw [e, Nat.testBit_two_pow_mul_add _ b.isLt]
    split
    · next hj => simp [Nat.div_eq_of_lt hj, Nat.mod_eq_of_lt hj, BitVec.testBit_toNat]
    · next hj =>
      have hd : j / 8 = (j - 8) / 8 + 1 := by omega
      have hm : j % 8 = (j - 8) % 8 := by omega
      rw [ih, hd, hm, List.getD_cons_succ]

/-- The number that the bytes `byte 0`, …, `byte (n - 1)` hold. -/
theorem testBit_leNat_range (n : Nat) (byte : Nat → Byte) (j : Nat) :
    (leNat ((List.range n).map byte)).testBit j = if j < 8 * n then (byte (j / 8)).getLsbD (j % 8) else false := by
  rw [testBit_leNat]
  split
  · have hj : j / 8 < n := by omega
    simp [List.getD, hj]
  · have hj : n ≤ j / 8 := by omega
    simp [List.getD, hj]

/-- Bytes with zeros above them. -/
theorem getLsbD_ofNat_leNat (w n : Nat) (byte : Nat → Byte) (j : Nat) (hj : j < w) :
    (BitVec.ofNat w (leNat ((List.range n).map byte))).getLsbD j =
      if j < 8 * n then (byte (j / 8)).getLsbD (j % 8) else false := by
  rw [BitVec.getLsbD_ofNat, testBit_leNat_range]
  simp [hj]

/-- Bytes with copies of their top bit above them. -/
theorem getLsbD_signExtend_leNat (w n : Nat) (byte : Nat → Byte) (j : Nat) (hn : 0 < n) (hj : j < w) :
    ((BitVec.ofNat (8 * n) (leNat ((List.range n).map byte))).signExtend w).getLsbD j =
      if j < 8 * n then (byte (j / 8)).getLsbD (j % 8) else (byte (n - 1)).getLsbD 7 := by
  simp only [BitVec.getLsbD_signExtend, hj, decide_true, Bool.true_and]
  split
  · next h => rw [getLsbD_ofNat_leNat _ _ _ _ h, if_pos h]
  · have hd : (8 * n - 1) / 8 = n - 1 := by omega
    have hm : (8 * n - 1) % 8 = 7 := by omega
    have hl : 8 * n - 1 < 8 * n := by omega
    rw [BitVec.msb_eq_getLsbD_last, getLsbD_ofNat_leNat _ _ _ _ hl, if_pos hl, hd, hm]

/-! ### The bytes that a read takes (R262, R264) -/

theorem State.view_eq_map (s : State) (c : CoreId) (pa n : Nat) :
    s.view c pa n = (List.range n).map fun j => s.viewByte c (pa + j) := by
  induction n generalizing pa with
  | zero => rfl
  | succ n ih => simp [State.view, ih, List.range_succ_eq_map, Nat.add_assoc, Nat.add_comm 1]

theorem Memory.read_eq_map (m : Memory) (a n : Nat) : m.read a n = (List.range n).map fun j => m.get (a + j) := by
  induction n generalizing a with
  | zero => rfl
  | succ n ih => simp [Memory.read, ih, List.range_succ_eq_map, Nat.add_assoc, Nat.add_comm 1]

theorem State.viewCistern_eq_map (s : State) (c k : CoreId) (o n : Nat) :
    s.viewCistern c k o n = (List.range n).map fun j => cisternByte s c k (o + j) := by
  refine List.ext_getElem (by simp [State.viewCistern, Core.cisternRead]) fun j _ _ => ?_
  simp [State.viewCistern, Core.cisternRead, Memory.read_eq_map, cisternByte]

/-- An aligned load of memory that nothing stops (R295, R296). -/
theorem State.load_memory (s : State) (c : CoreId) (ea : Word) (n pa : Nat) (ha : ea.toNat % n = 0)
    (ht : s.translate c ea .rd = .at pa) (hs : s.lineStop pa ea = none) :
    s.load c false ea n = .ok ((List.range n).map fun j => s.viewByte c (pa + j)) := by
  rw [← State.view_eq_map]
  have hpa : s.paOf c ea .rd = .ok pa := by simp only [State.paOf, ht]
  simp only [State.load, State.loadV, ha, hpa]
  show (guardStop (s.lineStop pa ea) >>= fun _ => pure (s.view c pa n)) = _
  rw [hs]
  rfl

/-- An aligned load of a cistern that nothing stops (R295, R461). -/
theorem State.load_cistern (s : State) (c : CoreId) (ea : Word) (n : Nat) (k : CoreId) (o : Nat) (ha : ea.toNat % n = 0)
    (hp : s.cisternPlace c ea = .here k o) (hs : s.cisternStop k o n ea = none) :
    s.load c true ea n = .ok ((List.range n).map fun j => cisternByte s c k (o + j)) := by
  rw [← State.viewCistern_eq_map]
  have hc : s.cisternAt c ea n = .ok (k, o) := by simp only [State.cisternAt, ha, hp]; rfl
  simp only [State.load, State.loadC, hc]
  show (guardStop (s.cisternStop k o n ea) >>= fun _ => pure (s.viewCistern c k o n)) = _
  rw [hs]
  rfl

end Sys2Proof.Machine

namespace Sys2Proof

open Machine

/-! ### More is seen -/

theorem SeesMore.refl (s : State) : SeesMore s s := fun e he => ⟨e, he, rfl⟩

theorem SeesMore.trans {s t u : State} (h : SeesMore s t) (k : SeesMore t u) : SeesMore s u := by
  intro e he
  obtain ⟨e', he', hk⟩ := k e he
  obtain ⟨e'', he'', hh⟩ := h e' he'
  exact ⟨e'', he'', hk.trans hh⟩

/-- To note who knows a write shows nothing less of it. -/
theorem seesMore_map_stale {s t : State} (f : Stale → Stale) (ht : t.stale = s.stale.map f)
    (hf : ∀ e, { f e with known := [], via := [] } = { e with known := [], via := [] }) : SeesMore s t := by
  intro e he
  rw [ht] at he
  obtain ⟨e', he', rfl⟩ := List.mem_map.mp he
  exact ⟨e', he', hf e'⟩

theorem seesMore_learn (s : State) (v : Agent) (sel : Stale → Bool) : SeesMore s (s.learn v sel) := by
  refine .trans (t := { s with stale := _ }) (seesMore_map_stale _ rfl fun e => ?_) (seesMore_keepLag _ _)
  dsimp only
  split <;> rfl

theorem seesMore_noteRead (s : State) (v : Agent) (b : Bank) (lo n : Nat) : SeesMore s (s.noteRead v b lo n) := by
  refine seesMore_map_stale _ rfl fun e => ?_
  dsimp only
  split <;> rfl

/-! ### What a read leaves alone -/

theorem OnlyCoreAndOrder.trans {c : CoreId} {s t u : State} (h : OnlyCoreAndOrder c s t) (k : OnlyCoreAndOrder c t u) :
    OnlyCoreAndOrder c s u := by
  obtain ⟨ht, hs⟩ := h
  obtain ⟨hu, hm⟩ := k
  refine ⟨?_, hs.trans hm⟩
  calc u = orderedAs (t.setCore c (u.core c)) u := hu
    _ = orderedAs ((orderedAs (s.setCore c (t.core c)) t).setCore c (u.core c)) u := by rw [← ht]
    _ = orderedAs (s.setCore c (u.core c)) u := by simp [orderedAs, State.setCore, setAt_setAt]

theorem OnlyCore.andOrder {c : CoreId} {s t : State} (h : OnlyCore c s t) (hs : t.stale = s.stale) (hr : t.recent = s.recent)
    (hl : t.releases = s.releases) (hn : t.serial = s.serial) : OnlyCoreAndOrder c s t := by
  refine ⟨?_, fun e he => SeesMore.refl s e (hs ▸ he)⟩
  unfold OnlyCore at h
  rw [orderedAs, hs, hr, hl, hn]
  exact h

theorem OnlyRead.trans {c : CoreId} {s t u : State} (h : OnlyRead c s t) (k : OnlyRead c t u) : OnlyRead c s u := by
  obtain ⟨hto, htb, htc⟩ := h
  obtain ⟨huo, hub, huc⟩ := k
  refine ⟨hto.trans huo, hub.trans htb, ?_⟩
  rw [huc, htc]

theorem OnlyRead.cur {c : CoreId} {s t : State} (h : OnlyRead c s t) : t.cur = s.cur := by
  obtain ⟨⟨ht, -⟩, -⟩ := h
  rw [ht]
  rfl

/-- What is only ordered is left alone by a read. -/
theorem onlyRead_of_ordered (c : CoreId) {s t : State} (h : t = orderedAs s t) (hs : SeesMore s t) : OnlyRead c s t := by
  have hc : t.core c = s.core c := by rw [h]; rfl
  refine ⟨⟨?_, hs⟩, by rw [hc], ?_⟩
  · rw [hc, setCore_self]; exact h
  · simp only [State.pump, hc]

theorem OnlyPump.core_eq {c : CoreId} {s t : State} (h : OnlyPump c s t) : t.core c = { s.core c with pump := t.pump c } := by
  have := congrArg (fun u => State.core u c) h
  simpa [State.core_modPump_self] using this

theorem OnlyPump.onlyRead {c : CoreId} {s t : State} (h : OnlyPump c s t) : OnlyRead c s t := by
  refine ⟨h.onlyCore.andOrder ?_ ?_ ?_ ?_, by rw [h.core_eq], by rw [h.core_eq]⟩ <;> (rw [h]; rfl)

theorem core_copyLine (s : State) (c : CoreId) (pa : Nat) :
    (s.copyLine c pa).core c = { s.core c with
      fab := { (s.core c).fab with binds := ((s.copyLine c pa).core c).fab.binds } } := by
  simp [State.copyLine, State.modFab]

theorem pump_copyLine (s : State) (c : CoreId) (pa : Nat) : (s.copyLine c pa).pump c = s.pump c := by
  rw [State.pump, core_copyLine]; rfl

/-- A read through a read bind copies lines and nothing else (R274). -/
theorem onlyRead_copyLine (s : State) (c : CoreId) (pa : Nat) : OnlyRead c s (s.copyLine c pa) := by
  refine ⟨OnlyCore.andOrder ?core rfl rfl rfl rfl, ?uncopied, ?rest⟩
  case core => unfold State.copyLine State.modFab; exact onlyCore_modCore ..
  case uncopied =>
    simp only [State.copyLine, State.modFab, State.core_modCore_self, List.map_map]
    refine List.map_congr_left fun b _ => ?_
    dsimp only [Function.comp]
    split <;> rfl
  case rest => rw [pump_copyLine]; exact core_copyLine s c pa

theorem onlyRead_noteRead (s : State) (c : CoreId) (v : Agent) (b : Bank) (lo n : Nat) :
    OnlyRead c s (s.noteRead v b lo n) := onlyRead_of_ordered c rfl (seesMore_noteRead s v b lo n)

/-- An acquire orders and changes nothing else (R277, R278). -/
theorem onlyRead_acquire (s : State) (c : CoreId) (scope : Scope) (at_ : Option (Bank × Nat × Nat)) :
    OnlyRead c s (s.acquire c scope at_) := by
  cases at_ with
  | none => exact (OnlyPump.refl c s).onlyRead
  | some _ => exact onlyRead_of_ordered c rfl (seesMore_learn s _ _)

theorem pump_acquire (s : State) (c : CoreId) (scope : Scope) (at_ : Option (Bank × Nat × Nat)) :
    (s.acquire c scope at_).pump c = s.pump c := by
  cases at_ <;> rfl

theorem onlyRead_readThrough (s : State) (c : CoreId) (cistern : Bool) (ea : Word) (n : Nat) :
    OnlyRead c s (s.readThrough c cistern ea n) := by
  have refl : OnlyRead c s s := (OnlyPump.refl c s).onlyRead
  cases cistern with
  | true =>
    simp only [State.readThrough, if_true]
    split
    · exact onlyRead_noteRead ..
    · exact refl
  | false =>
    simp only [State.readThrough, Bool.false_eq_true, if_false]
    split
    · exact (onlyRead_noteRead ..).trans (onlyRead_copyLine ..)
    · exact refl

theorem pump_readThrough (s : State) (c : CoreId) (cistern : Bool) (ea : Word) (n : Nat) :
    (s.readThrough c cistern ea n).pump c = s.pump c := by
  cases cistern with
  | true =>
    simp only [State.readThrough, if_true]
    split <;> rfl
  | false =>
    simp only [State.readThrough, Bool.false_eq_true, if_false]
    split
    · exact pump_copyLine ..
    · rfl

/-! ### `ld` and `ldq` -/

/-- What `ld` makes of the bytes it reads (R296). -/
theorem LdSize.getLsbD_extend (size : LdSize) (byte : Nat → Byte) (j : Nat) (hj : j < 64) :
    (size.extend (leNat ((List.range size.bytes).map byte))).getLsbD j =
      if j < 8 * size.bytes then (byte (j / 8)).getLsbD (j % 8)
      else decide (size = .bs ∨ size = .hs ∨ size = .ws) && (byte (size.bytes - 1)).getLsbD 7 := by
  cases size with
  | bz => exact getLsbD_ofNat_leNat 64 1 byte j hj
  | hz => exact getLsbD_ofNat_leNat 64 2 byte j hj
  | wz => exact getLsbD_ofNat_leNat 64 4 byte j hj
  | d => exact getLsbD_ofNat_leNat 64 8 byte j hj
  | bs => exact getLsbD_signExtend_leNat 64 1 byte j (by decide) hj
  | hs => exact getLsbD_signExtend_leNat 64 2 byte j (by decide) hj
  | ws => exact getLsbD_signExtend_leNat 64 4 byte j (by decide) hj

/-- The state in which a load of core `c` gives its result: the read is made, and with an order it is an acquire. -/
def afterLoad (s : State) (c : CoreId) (cistern : Bool) (ea : Word) (n : Nat) : Option Scope → State
  | some scope => (s.readThrough c cistern ea n).acquire c scope (s.wordPlace c cistern ea n)
  | none => s.readThrough c cistern ea n

theorem onlyRead_afterLoad (s : State) (c : CoreId) (cistern : Bool) (ea : Word) (n : Nat) (acq : Option Scope) :
    OnlyRead c s (afterLoad s c cistern ea n acq) := by
  cases acq with
  | some _ => exact (onlyRead_readThrough ..).trans (onlyRead_acquire ..)
  | none => exact onlyRead_readThrough ..

theorem pump_afterLoad (s : State) (c : CoreId) (cistern : Bool) (ea : Word) (n : Nat) (acq : Option Scope) :
    (afterLoad s c cistern ea n acq).pump c = s.pump c := by
  cases acq with
  | some _ => exact (pump_acquire ..).trans (pump_readThrough ..)
  | none => exact pump_readThrough ..

theorem exec_ld_of_load {s : State} {size : LdSize} {cistern : Bool} {acq : Option Scope} {d a : Reg} {imm : BitVec 32}
    {bs : List Byte} (h : s.load s.cur cistern ((s.pump s.cur).ea a imm) size.bytes = .ok bs) :
    exec (.ld size cistern acq d a imm) s =
      .next ((afterLoad s s.cur cistern ((s.pump s.cur).ea a imm) size.bytes acq).giveResult s.cur d
        (size.extend (leNat bs))) := by
  show execLd size cistern acq d a imm s = _
  simp only [execLd, h]
  cases acq <;> rfl

theorem exec_ldq_of_load {s : State} {F : Fmt} {cistern : Bool} {q : BitVec 4} {a : Reg} {imm : BitVec 32}
    {bs : List Byte} (h : s.load s.cur cistern ((s.pump s.cur).ea a imm) F.bytes = .ok bs) :
    exec (.ldq F cistern q a imm) s =
      .next ((s.readThrough s.cur cistern ((s.pump s.cur).ea a imm) F.bytes).modPump s.cur fun p =>
        { p with q := setAt p.q q.toFin { val := BitVec.ofNat 128 (leNat bs), tag := F } }.advance) := by
  show execLdq F cistern q a imm s = _
  simp only [execLdq, h]
  rfl

/-- A load that gives the bytes `byte 0`, `byte 1`, … extends them into its destination (R296). -/
theorem computesRead_ld {s : State} {size : LdSize} {cistern : Bool} {acq : Option Scope} {d a : Reg} {imm : BitVec 32}
    {byte : Nat → Byte}
    (h : s.load s.cur cistern ((s.pump s.cur).ea a imm) size.bytes = .ok ((List.range size.bytes).map byte)) :
    ComputesRead (.ld size cistern acq d a imm) s d fun v => ∀ j < 64,
      v.getLsbD j = if j < 8 * size.bytes then (byte (j / 8)).getLsbD (j % 8)
        else decide (size = .bs ∨ size = .hs ∨ size = .ws) && (byte (size.bytes - 1)).getLsbD 7 := by
  refine ⟨_, _, exec_ld_of_load h, ?_, ?_, LdSize.getLsbD_extend size byte⟩
  · exact (onlyRead_afterLoad ..).trans (onlyPump_modPump ..).onlyRead
  · have hread := onlyRead_afterLoad s s.cur cistern ((s.pump s.cur).ea a imm) size.bytes acq
    obtain ⟨-, hgives⟩ := gives_giveResult (afterLoad s s.cur cistern ((s.pump s.cur).ea a imm) size.bytes acq) d
      (size.extend (leNat ((List.range size.bytes).map byte)))
    rwa [hread.cur, pump_afterLoad] at hgives

/-- An atom written into `q` by a pump that goes on (R92, R160). -/
theorem pumpGivesAtom_setAt (p : Pump) (q : BitVec 4) (F : Fmt) (v : BitVec 128) :
    PumpGivesAtom p { p with q := setAt p.q q.toFin { val := v, tag := F } }.advance q F v 0 := by
  refine ⟨by simp [Pump.advance], fun j => ?_⟩
  simp only [Pump.advance_q]
  split
  · next h => rw [h, getElem_setAt_self]
  · next h => exact getElem_setAt_ne _ _ _ _ fun e => h (BitVec.toFin_inj.mp e)

/-- A load that gives the bytes `byte 0`, `byte 1`, … puts them with zeros above them into its atom register (R299). -/
theorem readsAtom_ldq {s : State} {F : Fmt} {cistern : Bool} {q : BitVec 4} {a : Reg} {imm : BitVec 32} {byte : Nat → Byte}
    (h : s.load s.cur cistern ((s.pump s.cur).ea a imm) F.bytes = .ok ((List.range F.bytes).map byte)) :
    ∃ t v, exec (.ldq F cistern q a imm) s = .next t ∧ ReadsAtom s t q F v 0 ∧ ∀ j < 128,
      v.getLsbD j = if j < 8 * F.bytes then (byte (j / 8)).getLsbD (j % 8) else false := by
  refine ⟨_, _, exec_ldq_of_load h, ⟨?_, ?_⟩, getLsbD_ofNat_leNat 128 F.bytes byte⟩
  · exact (onlyRead_readThrough ..).trans (onlyPump_modPump ..).onlyRead
  · rw [State.pump_modPump_self, pump_readThrough]
    exact pumpGivesAtom_setAt ..

/-- Settles O27: in both spaces the load answers the bytes that the core sees, and the value and the frame follow from the
bytes alone. -/
theorem loadsReadTheBytesTheCoreSees : Obligations.LoadsReadTheBytesTheCoreSees := by
  unfold Obligations.LoadsReadTheBytesTheCoreSees
  intro s size F acq d a q imm pa k o ea sgn loaded loadedQ
  refine ⟨fun htrans hstop => ⟨fun ha => ?_, fun ha => ?_⟩, fun hplace => ⟨fun ha hstop => ?_, fun ha hstop => ?_⟩⟩
  · exact (computesRead_ld (State.load_memory s s.cur ea _ pa ha htrans hstop) :)
  · exact readsAtom_ldq (State.load_memory s s.cur ea _ pa ha htrans hstop)
  · exact (computesRead_ld (State.load_cistern s s.cur ea _ k o ha hplace hstop) :)
  · exact readsAtom_ldq (State.load_cistern s s.cur ea _ k o ha hplace hstop)

end Sys2Proof

/-! What the memory edge of a core can change (R449, R450, R477): the accesses, faults and ends of its streams. -/

namespace Sys2Proof

open Machine

/-- `t` is `s` but for the cores, the writes under way, the lines before a sluice context, the fold elements with their
windows, the flows (their completion records), and what `OnlyMemory` admits. -/
def OnlyEdge (s t : State) : Prop :=
  t = { s with cores := t.cores, pending := t.pending, jobs := t.jobs, folds := t.folds, crossings := t.crossings, flows := t.flows
               mem := t.mem, codes := t.codes, badMeta := t.badMeta, badData := t.badData, badCache := t.badCache
               rawByNma := t.rawByNma, stale := t.stale, recent := t.recent, releases := t.releases, serial := t.serial
               rings := t.rings }

theorem OnlyEdge.refl (s : State) : OnlyEdge s s := rfl

theorem OnlyEdge.trans {s t u : State} (h : OnlyEdge s t) (k : OnlyEdge t u) : OnlyEdge s u := by
  unfold OnlyEdge at *
  rw [h] at k
  exact k

theorem OnlyMemory.onlyEdge {s t : State} (h : OnlyMemory s t) : OnlyEdge s t := by
  unfold OnlyMemory at h
  unfold OnlyEdge
  rw [h]

theorem OnlyEdge.linksDown {s t : State} (h : OnlyEdge s t) : t.linksDown = s.linksDown := by rw [h]

theorem onlyEdge_foldl {β : Type} (f : State → β → State) (l : List β) (s : State) (h : ∀ s, ∀ x ∈ l, OnlyEdge s (f s x)) :
    OnlyEdge s (l.foldl f s) :=
  List.foldlRecOn l f (.refl s) fun t ht x hx => ht.trans (h t x hx)

theorem OnlyEdge.modCore {s t : State} (h : OnlyEdge s t) (c : CoreId) (f : Core → Core) : OnlyEdge s (t.modCore c f) :=
  h.trans rfl

theorem OnlyEdge.modFab {s t : State} (h : OnlyEdge s t) (c : CoreId) (f : Fabric → Fabric) : OnlyEdge s (t.modFab c f) :=
  h.trans rfl

theorem OnlyEdge.modHandle {s t : State} (h : OnlyEdge s t) (c : CoreId) (n : BitVec 6) (f : Handle → Handle) :
    OnlyEdge s (t.modHandle c n f) := h.trans rfl

theorem OnlyEdge.modStream {s t : State} (h : OnlyEdge s t) (c : CoreId) (n : BitVec 6) (f : Stream → Stream) :
    OnlyEdge s (t.modStream c n f) := h.trans rfl

/-! ### Writes -/

theorem onlyEdge_performPending (s : State) (w : Pending) : OnlyEdge s (s.performPending w) := by
  have h := (onlyMemory_perform s w.pa w.bytes w.raw w.by_ false w.rels (w.bind.map fun _ => w.core)).onlyEdge
  simp only [State.performPending]
  split
  · next heq => rw [heq] at h; exact h
  · next heq => rw [heq] at h; exact h.trans rfl

theorem onlyEdge_performAll (sel : Pending → Bool) (ws : List Pending) (s : State) : OnlyEdge s (performAll sel ws s) := by
  induction ws generalizing s with
  | nil => exact .refl _
  | cons w r ih =>
    simp only [performAll]
    split
    · exact (onlyEdge_performPending s w).trans (ih _)
    · exact .trans (t := { s with pending := s.pending ++ [w] }) rfl (ih _)

theorem OnlyEdge.performWhere {s t : State} (h : OnlyEdge s t) (sel : Pending → Bool) : OnlyEdge s (t.performWhere sel) :=
  h.trans (.trans (t := { t with pending := [] }) rfl (onlyEdge_performAll _ _ _))

theorem onlyEdge_streamWrite (s : State) (c : CoreId) (a : Fin 8) (pa : Nat) (bs : List Byte) (raw : Bool) :
    OnlyEdge s (s.streamWrite c a pa bs raw).1 := by
  unfold State.streamWrite
  split
  · rfl
  · exact (onlyMemory_perform ..).onlyEdge

theorem onlyEdge_streamEvents (c : CoreId) (a : Fin 8) (raw : Bool) (ws : List (Nat × List Byte)) (s : State) :
    OnlyEdge s (s.streamEvents c a raw ws).1 := by
  induction ws generalizing s with
  | nil => exact .refl _
  | cons w r ih => exact (onlyEdge_streamWrite ..).trans (ih _)

theorem onlyEdge_streamWrites (c : CoreId) (a : Fin 8) (raw : Bool) (ws : List (Nat × List Byte)) (s : State) :
    OnlyEdge s (s.streamWrites c a raw ws).1 := by
  induction ws generalizing s with
  | nil => exact .refl _
  | cons w r ih => exact (onlyEdge_streamEvents ..).trans (ih _)

theorem onlyEdge_agSticky (s : State) (c : CoreId) (f : Flags) (run : AgRun) : OnlyEdge s (s.agSticky c f run) := by
  cases run <;> rfl

theorem onlyEdge_addCommitted (s : State) (c : CoreId) (n : Nat) (run : AgRun) : OnlyEdge s (s.addCommitted c n run) := by
  cases run <;> rfl

/-- A line that passes its sluice context (R354). -/
theorem onlyEdge_passWrite (s : State) (j : SluiceJob) (run : AgRun) (int : Bool) (x : SluiceCtx) :
    OnlyEdge s (s.passWrite j run int x).1 := by
  unfold State.passWrite
  dsimp only
  split
  · exact .refl _
  · split
    · exact .refl _
    · dsimp only
      refine OnlyEdge.modCore ?_ _ _
      exact ((onlyEdge_streamWrites ..).trans (onlyEdge_agSticky ..)).trans (onlyEdge_addCommitted ..)

theorem onlyEdge_flushWrites (s : State) (c : CoreId) (a : Fin 8) (run : AgRun) : OnlyEdge s (s.flushWrites c a run) := by
  refine OnlyEdge.trans (onlyEdge_foldl _ s.jobs s fun t j _ => ?_) rfl
  split
  · split
    · exact onlyEdge_passWrite ..
    · exact .refl _
  · exact .refl _

theorem onlyEdge_flushJobs (s : State) (c : CoreId) (a : Fin 8) (run : AgRun) : OnlyEdge s (s.flushJobs c a run) :=
  (onlyEdge_flushWrites s c a run).trans rfl

/-! ### Ends and faults of streams -/

theorem OnlyEdge.dropFold {s t : State} (hst : OnlyEdge s t) (c : CoreId) (h : BitVec 6) : OnlyEdge s (t.dropFold c h) := by
  unfold State.dropFold
  split
  · exact hst
  · exact hst.trans rfl

theorem OnlyEdge.dropCopies {s t : State} (h : OnlyEdge s t) (c : CoreId) : OnlyEdge s (t.dropCopies c) := h.trans rfl

theorem OnlyEdge.addDue {s t : State} (h : OnlyEdge s t) (flow : BitVec 32) (r : DueRecord) : OnlyEdge s (t.addDue flow r) :=
  h.trans rfl

/-- A stream that ends (R311). -/
theorem onlyEdge_endStream (s : State) (c : CoreId) (h : BitVec 6) : OnlyEdge s (s.endStream c h) := by
  unfold State.endStream
  split
  · exact .refl _
  · split
    · exact .refl _
    · have he (f : Handle → Handle) (g : Fabric → Fabric) (sel : Pending → Bool) (k : Core → Core) :
          OnlyEdge s (((((s.modHandle c h f).modFab c g).performWhere sel).modCore c k |>.dropFold c h).dropCopies c) :=
        (((((OnlyEdge.refl s).modHandle c h f).modFab c g).performWhere sel).modCore c k |>.dropFold c h).dropCopies c
      dsimp only
      split
      · exact (he _ _ _ _).addDue _ _
      · exact he _ _ _ _

/-- A fault of what runs on an AG site (R449, R450). -/
theorem onlyEdge_agFault (s : State) (c : CoreId) (a : Fin 8) (code : Code) (tval : Word) (run : AgRun) :
    OnlyEdge s (s.agFault c a code tval run) := by
  unfold State.agFault
  split
  · rfl
  · split
    · rfl
    · exact (((onlyEdge_flushJobs s c a _).modStream c _ _).trans (onlyEdge_endStream ..)).modCore c _

/-- The fault 0x23 of an abort domain (R453). -/
theorem onlyEdge_domainFault (s : State) (c : CoreId) (r : Fin 8) (tval : Word) : OnlyEdge s (s.domainFault c r tval) := by
  unfold State.domainFault
  split
  · exact .refl _
  · exact ((OnlyEdge.refl s).modCore c _).trans (onlyEdge_foldl _ _ _ fun t q _ => (OnlyEdge.refl t).modCore _ _)


/-! Bring-up, links, reset and heat (R407, R477 to R481, R483). -/

@[simp] theorem getElem_mapVec {α β : Type} {n : Nat} (f : α → β) (v : Vector α n) (i : Fin n) : (mapVec f v)[i] = f v[i] := by
  simp [mapVec]

/-- The end of a command outside stage 4 is told to nobody (R476). -/
theorem answer_before_init (s : State) (r : Byte) (h : s.stage ≠ 4) :
    s.answer r = { s with mailbox := { s.mailbox with busy := false, overrun := false, result := r } } := by
  rw [State.answer]
  exact if_neg h

/-! ### The firmware image (R479 to R481) -/

/-- The boot ROM on an image command that is under way. -/
theorem execBootImage_of_command (s : State) (hb : s.mailbox.busy = true) (hc : s.mailbox.command.headD 0 = 11) :
    exec .bootImage s = .next (if s.stage = 2 then s.startImage
      else if s.stage ≠ 1 && s.stage ≠ 0x0E then s
      else if !s.mailbox.clean [(8, 8)] then s.answer 1
      else { s with stage := 2, bootErr := 0 }) := by
  show execBootImage s = _
  rw [execBootImage, if_neg (by rw [hb, hc]; decide)]

/-- In a stage that takes an image it looks at the operands. -/
theorem execBootImage_of_taken (s : State) (hb : s.mailbox.busy = true) (hc : s.mailbox.command.headD 0 = 11)
    (hs : s.stage = 1 ∨ s.stage = 0x0E) :
    exec .bootImage s = .next (if !s.mailbox.clean [(8, 8)] then
      { s with mailbox := { s.mailbox with busy := false, overrun := false, result := 1 } }
      else { s with stage := 2, bootErr := 0 }) := by
  rw [execBootImage_of_command s hb hc]
  rcases hs with h | h
  · rw [if_neg (by rw [h]; decide), if_neg (by rw [h]; decide), answer_before_init s 1 (by rw [h]; decide)]
  · rw [if_neg (by rw [h]; decide), if_neg (by rw [h]; decide), answer_before_init s 1 (by rw [h]; decide)]

theorem startImage_rejected (s : State) (e : Byte) (h : s.imageErr (s.mailbox.f 8 8) = some e) :
    s.startImage = { s with stage := 0x0E, bootErr := e, mailbox := { s.mailbox with busy := false, overrun := false, result := 0 } } := by
  simp [State.startImage, h, answer_before_init]

theorem startImage_verified (s : State) (h : s.imageErr (s.mailbox.f 8 8) = none) :
    s.startImage =
      { (s.extend 0 (Config.sha384 (s.imageBytes (s.mailbox.f 8 8)))).extend 1 Config.fusedKeyHash with
        stage := 3, bootErr := 0, mailbox := { s.mailbox with busy := false, overrun := false, result := 0 } } := by
  simp [State.startImage, h, answer_before_init, State.extend]

theorem attest_extend (s : State) (i : Fin 8) (d : List Byte) :
    (s.extend i d).attest[i] = fit 48 (Config.sha384 (s.attest[i] ++ d)) := getElem_setAt_self ..

theorem attest_extend_ne (s : State) (i j : Fin 8) (d : List Byte) (h : j ≠ i) : (s.extend i d).attest[j] = s.attest[j] :=
  getElem_setAt_ne _ _ _ _ h

/-! ### The defect map (R407) -/

/-- The usable sites that a defect map gives a core. -/
def mappedSites (defects : List Nat) (c : CoreId) : Nat := min (defects.getD c.val 64) 64

theorem mappedSites_eq_zero (defects : List Nat) (c : CoreId) : mappedSites defects c = 0 ↔ defects.getD c.val 64 = 0 := by
  unfold mappedSites
  omega

theorem usable_withDefects (s : State) (defects : List Nat) (c : CoreId) :
    (s.withDefects defects).usable c = true ↔ c.val < s.part.cores ∧ mappedSites defects c ≠ 0 := by
  simp only [State.usable, State.withDefects, fins, ← mappedSites.eq_def]
  simp only [Bool.and_eq_true, decide_eq_true_eq, Bool.not_eq_true', List.contains_eq_mem, decide_eq_false_iff_not, List.mem_filter,
    List.mem_finRange, true_and]
  tauto

/-- Of the entries `(c, f c)` of a list, the one found for `c` is its own. -/
theorem find_map_pair {α β : Type} [DecidableEq α] (f : α → β) (l : List α) (c : α) :
    (l.map fun c => (c, f c)).find? (·.1 = c) = if c ∈ l then some (c, f c) else none := by
  induction l with
  | nil => rfl
  | cons x r ih =>
    by_cases h : x = c
    · simp [h]
    · have h' : ¬ c = x := fun e => h e.symm
      simp [h, h', ih]

theorem sitesOf_withDefects (s : State) (defects : List Nat) (c : CoreId) (h : (s.withDefects defects).usable c = true) :
    (s.withDefects defects).sitesOf c = mappedSites defects c := by
  obtain ⟨hc, h0⟩ := (usable_withDefects s defects c).mp h
  simp only [State.sitesOf, State.withDefects, fins, ← mappedSites.eq_def, find_map_pair]
  by_cases h64 : mappedSites defects c = 64
  · simp [h64]
  · simp [hc, h0, h64]

/-! ### Links (R477) -/

/-- A retry that has not failed (R477, R463). -/
theorem onlyMemory_coalesce (s : State) (kind : Byte) (what : Word) (core space : BitVec 16) (flow : BitVec 32) :
    ∃ l, OnlyMemory { s with coalesced := l } (s.coalesce kind what core space flow) := by
  unfold State.coalesce
  split
  · exact ⟨_, onlyMemory_recovery ..⟩
  · dsimp only
    split
    · exact ⟨s.coalesced, .refl _⟩
    · split
      · exact ⟨_, onlyMemory_recovery ..⟩
      · exact ⟨_, .refl _⟩

theorem OnlyMemory.linksDown {s t : State} (h : OnlyMemory s t) : t.linksDown = s.linksDown := by rw [h]

/-- A link that goes down is listed last, whatever the faults of what uses it do (R477). -/
theorem linkDown_linksDown (s : State) (port : BitVec 16) : (s.linkDown port).linksDown = s.linksDown ++ [port] := by
  unfold State.linkDown
  dsimp only
  rw [(onlyMemory_hostEvent ..).linksDown, (onlyMemory_recovery ..).linksDown]
  refine congrArg (· ++ [port]) (OnlyEdge.linksDown (.trans (onlyEdge_foldl _ _ _ ?_) (onlyEdge_foldl _ _ _ ?_)))
  · exact fun t x _ => onlyEdge_domainFault ..
  · intro t x _
    split
    · exact .refl _
    · exact onlyEdge_agFault ..

/-- Where no AG site uses it, no core is concerned: nor has a fold element there a stream that joins it to a region. -/
theorem linkDown_cores_of_unused (s : State) (port : BitVec 16) (h : s.agsOn port = []) : (s.linkDown port).cores = s.cores := by
  have hf : ∀ f ∈ s.foldsOn port, s.foldStream f = none := by
    intro f hf
    simp only [State.agsOn, List.append_eq_nil_iff, List.filterMap_eq_nil_iff, Option.map_eq_none_iff] at h
    exact h.1 f hf
  have hj : ((s.foldsOn port).filterMap fun f => (s.foldStream f).bind fun x => (s.foldRegion f).map fun q => (q, x.1)) = [] := by
    rw [List.filterMap_eq_nil_iff]
    intro f hm
    rw [hf f hm]
    rfl
  unfold State.linkDown
  dsimp only
  rw [(onlyMemory_hostEvent ..).cores, (onlyMemory_recovery ..).cores, h, hj]
  rfl

theorem execLeveeFlitRetry_eq (s : State) (port : BitVec 16) (failed : Bool) (hp : s.flitPort port = true) (hd : port ∉ s.linksDown) :
    exec (.leveeFlitRetry port failed) s =
      .next (if failed then s.linkDown port else s.coalesce 6 (port.setWidth 64) 0xFFFF 0xFFFF 0) := by
  show execLeveeFlitRetry port failed s = _
  simp [execLeveeFlitRetry, hp, hd]

/-! ### Device reset and heat (R478, R483) -/

theorem get_hostMemory (m : Memory) (a : Nat) : (hostMemory m).get a = if a < 2 ^ 46 then Memory.blank else m.get a := by
  induction m with
  | nil => simp [hostMemory, Memory.get]
  | cons c r ih =>
    simp only [hostMemory, List.filter_cons, decide_eq_true_eq] at ih ⊢
    by_cases hc : 2 ^ 46 ≤ c.1
    · simp only [hc, if_true, Memory.get, ih]
      by_cases ha : c.1 = a
      · subst ha
        rw [if_pos rfl, if_pos rfl, if_neg (Nat.not_lt.mpr hc)]
      · simp [ha]
    · have hne : ¬ a < 2 ^ 46 → ¬ c.1 = a := by omega
      simp only [hc, if_false, Memory.get, ih]
      split
      · rfl
      · next h => simp [hne h]

theorem core_deviceReset (s : State) (c : CoreId) (t : State)
    (ht : t.cores = mapVec (fun k : Core => { k with resetAt := s.now }) State.reset.cores) :
    t.core c = { State.reset.core c with resetAt := s.now } := by
  simp only [State.core, ht, getElem_mapVec]

theorem turn_of_shut (s : State) (c : CoreId) (h : s.shut = true) : s.turn c = .rest := by
  simp [State.turn, h]

theorem OnlyMemory.shut {s t : State} (h : OnlyMemory s t) : t.shut = s.shut := by rw [h]

/-- Settles O60: each event of bring-up by its equation, a link that goes down through what faults of streams leave alone. -/
theorem bringUpResetAndHeat : Obligations.BringUpResetAndHeat := by
  unfold Obligations.BringUpResetAndHeat
  intro s defects failing port c on m n taken extended
  refine ⟨fun h => ?_, fun h => ?_, fun ⟨hb, hc, hs⟩ hcl => ?_, fun ⟨hb, hc, hs⟩ hcl => ?_,
    fun hb hc hs => ?_, fun hs hf => ?_, fun hs hf => ?_, fun hp hd => ⟨?_, ?_⟩, ?_, ⟨_, rfl, rfl⟩, fun hs => ?_⟩
  · show execLinkTrainingDone s = _
    rw [execLinkTrainingDone, if_pos h]
  · show execLinkTrainingDone s = _
    rw [execLinkTrainingDone, if_neg h]
  · refine ⟨_, execBootImage_of_taken s hb hc hs, ?_⟩
    rw [if_pos (by rw [hcl]; rfl)]
    exact ⟨rfl, rfl, rfl⟩
  · rw [execBootImage_of_taken s hb hc hs, if_neg (by rw [hcl]; decide)]
  · refine ⟨_, execBootImage_of_command s hb hc, ?_⟩
    rw [if_pos hs]
    cases he : s.imageErr n with
    | some e => rw [startImage_rejected s e he]; exact ⟨rfl, rfl, rfl, rfl, rfl⟩
    | none =>
      rw [startImage_verified s he]
      have h0 := (attest_extend_ne (s.extend 0 (Config.sha384 (s.imageBytes n))) 1 0 Config.fusedKeyHash (by decide)).trans
        (attest_extend ..)
      have h1 := attest_extend (s.extend 0 (Config.sha384 (s.imageBytes n))) 1 Config.fusedKeyHash
      rw [attest_extend_ne s 0 1 _ (by decide)] at h1
      exact ⟨rfl, rfl, rfl, rfl, h0, h1⟩
  · refine ⟨_, rfl, ?_⟩
    rw [if_neg (not_not.mpr hs), if_pos hf]
  · refine ⟨{ (s.withDefects defects).extend 2 (Config.sha384 (defects.map fun n => BitVec.ofNat 8 n)) with stage := 4 }, ?_, rfl,
      attest_extend .., rfl, fun hc => ?_, fun hu => sitesOf_withDefects s defects c hu⟩
    · show execFirmwareInitDone defects failing s = _
      rw [execFirmwareInitDone, if_neg (not_not.mpr hs), if_neg (not_not.mpr hf)]
    · exact (usable_withDefects s defects c).trans ((and_iff_right hc).trans (mappedSites_eq_zero defects c).not)
  · obtain ⟨l, h⟩ := onlyMemory_coalesce s 6 (port.setWidth 64) 0xFFFF 0xFFFF 0
    exact ⟨_, execLeveeFlitRetry_eq s port false hp hd, h.cores, by rw [if_neg (by simp), h], by rw [if_neg (by simp), h], h.linksDown⟩
  · exact ⟨_, execLeveeFlitRetry_eq s port true hp hd, linkDown_linksDown s port, linkDown_cores_of_unused s port⟩
  · have hk := fun t ht => core_deviceReset s c t ht
    refine ⟨_, rfl, ?_, ?_, rfl, rfl, rfl, rfl, rfl, rfl, rfl, rfl, fun a => get_hostMemory s.mem a⟩
    · rw [State.pump, hk _ rfl]; rfl
    · rw [State.cycleOf, hk _ rfl]; simp
  · refine ⟨_, rfl, ?_⟩
    have h := onlyMemory_hostEvent { s with shut := true } 6 0 0xFFFF 0 0
    simp only [hs, Bool.false_eq_true, if_false]
    exact ⟨h.shut, h.cores, turn_of_shut _ c h.shut⟩

end Sys2Proof

/-! A consumer index lets records wait no longer, and a record written can bring to light what a list of metadata codes holds
behind its first entry for a line (R339, R345, R476). -/

namespace Sys2Proof

open Machine

/-- Ring 0 lies on line 5, whose code the list of the state names twice: 0x2 first, an uncorrectable 0x1 behind it. Two records
of zeros wait, so the first one written leaves a line of zeros, whose code 0 takes the first entry away. -/
def lineNamedTwice : State :=
  { State.reset with
    codes := [(5, 2), (5, 1)]
    rings := setAt State.reset.rings 0
      { Ring.reset with base := some 0x500, log2n := 4, waiting := [List.replicate 32 0, List.replicate 32 0] } }

/-- No read meets the second entry of line 5: every line of the state is sound. -/
theorem lineNamedTwice_sound (l : Nat) : lineNamedTwice.linePoisoned l = false := by
  by_cases h : l = 5
  · subst h; decide
  · have h' : ¬ 5 = l := fun e => h e.symm
    have hc : codeOf lineNamedTwice.codes l = 0 := by simp [lineNamedTwice, codeOf, h']
    simp only [State.linePoisoned, hc]
    rfl

/-- The second record meets the uncorrectable code, and its drop is told in ring 2 (R345, R462). -/
theorem lineNamedTwice_tells : ((lineNamedTwice.consumerWrite 0 0).rings[(2 : Fin 3)]).seq = 1 := by decide +kernel

/-- Refutes O58 in its last clause: with every line sound, a consumer index of ring 0 can still change ring 2, where the list
of metadata codes is not canonical. `lineNamedTwice` names a line twice, which `State.codes` rules out by its comment and the
statement by no hypothesis; a record written there uncovers the second entry, which drops the next record. -/
theorem not_theHostReadsAndWritesThroughTheWindow : ¬ Obligations.TheHostReadsAndWritesThroughTheWindow := by
  unfold Obligations.TheHostReadsAndWritesThroughTheWindow
  intro h
  obtain ⟨-, -, -, -, -, -, -, -, -, -, -, -, t, ht, -, -, -, hrings, -⟩ := h lineNamedTwice 0 0 0 [] 0 0
  have hs : t = lineNamedTwice.consumerWrite 0 0 := (Host.Outcome.next.inj ht).symm
  have h2 := congrArg Ring.seq (hrings lineNamedTwice_sound 2 (by decide))
  rw [hs, lineNamedTwice_tells] at h2
  exact absurd h2 (by decide)

end Sys2Proof

/-! What a save writes (R417, R464, R485), and what a core that is scrubbed still had under way. -/

namespace Sys2Proof

open Machine

/-! ### The bytes of a save area -/

theorem State.engineWrite_wf (s : State) (v : Agent) (pa : Nat) (bs : List Byte) (rels : List Nat) (h : s.mem.wf = true) :
    (s.engineWrite v pa bs rels).mem.wf = true := by
  have hp := s.perform_wf pa bs false v false rels none h
  unfold State.engineWrite
  split
  · next heq => rw [heq] at hp; exact hp
  · next heq => rw [heq] at hp; exact hp

theorem State.writeIn_wf (n : Nat) (s : State) (space : BitVec 8) (va : Word) (bs : List Byte) (h : s.mem.wf = true) :
    (s.writeIn space va bs n).mem.wf = true := by
  induction n generalizing s va bs with
  | zero => exact h
  | succ n ih =>
    simp only [State.writeIn]
    split
    · exact h
    · split
      · exact ih _ _ _ (engineWrite_wf _ _ _ _ _ h)
      · exact h

theorem onlyMemory_writeIn (n : Nat) (s : State) (space : BitVec 8) (va : Word) (bs : List Byte) :
    OnlyMemory s (s.writeIn space va bs n) := by
  induction n generalizing s va bs with
  | zero => exact .refl _
  | succ n ih =>
    simp only [State.writeIn]
    split
    · exact .refl _
    · split
      · exact (onlyMemory_engineWrite _ _ _ _ _ (by simp)).trans (ih _ _ _)
      · exact .refl _

/-! ### A whole line that is performed (R342) -/

/-- A whole line replaces what was there, whatever its metadata said. -/
theorem performPending_wholeLine (s : State) (w : Pending) (ha : w.pa % 256 = 0) (hl : w.bytes.length = 256) :
    (s.performPending w).mem = s.mem.write w.pa w.bytes ∧ (s.performPending w).jobs = s.jobs := by
  simp [State.performPending, State.perform, State.mergeLine, ha, hl, State.noteWrite, State.tidy]

/-- The only write under way of a package is performed with those of its core. -/
theorem performWhere_single (s : State) (sel : Pending → Bool) (w : Pending) (hp : s.pending = [w]) (hs : sel w = true) :
    s.performWhere sel = { s with pending := [] }.performPending w := by
  simp [State.performWhere, hp, performAll, hs]

/-! ### Scrubbed cores (R442) -/

theorem flushWrites_of_no_jobs (s : State) (c : CoreId) (a : Fin 8) (run : AgRun) (h : s.jobs = []) : s.flushWrites c a run = s := by
  simp only [State.flushWrites, h, List.foldl_nil, List.filter_nil]
  rw [← h]

theorem flushCore_of_no_jobs (s : State) (c : CoreId) (h : (s.performWhere fun w => w.core = c).jobs = []) :
    s.flushCore c = s.performWhere fun w => w.core = c := by
  rw [State.flushCore]
  refine List.foldl_fixed' (fun a => ?_) _
  split
  · exact flushWrites_of_no_jobs _ _ _ _ h
  · rfl

/-- A core that has nothing under way but a whole line. -/
theorem flushCore_of_pendingLine (s : State) (c : CoreId) (w : Pending) (hp : s.pending = [w]) (hw : w.core = c)
    (hj : s.jobs = []) (ha : w.pa % 256 = 0) (hl : w.bytes.length = 256) : (s.flushCore c).mem = s.mem.write w.pa w.bytes := by
  have hperf := performWhere_single s (fun w => w.core = c) w hp (by simp [hw])
  obtain ⟨hmem, hjobs⟩ := performPending_wholeLine { s with pending := [] } w ha hl
  rw [flushCore_of_no_jobs s c (by rw [hperf, hjobs]; exact hj), hperf, hmem]

theorem dropFold_mem (s : State) (c : CoreId) (h : BitVec 6) : (s.dropFold c h).mem = s.mem := by
  unfold State.dropFold
  split <;> rfl

theorem foldl_mem {β : Type} (f : State → β → State) (h : ∀ t x, (f t x).mem = t.mem) (l : List β) (s : State) :
    (l.foldl f s).mem = s.mem := by
  induction l generalizing s with
  | nil => rfl
  | cons x r ih => exact (ih _).trans (h s x)

theorem settleCore_mem (s : State) (c : CoreId) : (s.settleCore c).mem = (s.flushCore c).mem := by
  unfold State.settleCore
  dsimp only
  exact foldl_mem _ (fun t h => dropFold_mem t c _) _ _

theorem clearLag_mem (s : State) (c : CoreId) : (s.clearLag c).mem = s.mem := rfl

theorem scrubCores_single_mem (s : State) (c : CoreId) : (s.scrubCores [c]).mem = (s.flushCore c).mem := by
  unfold State.scrubCores
  simp only [List.foldl_cons, List.foldl_nil]
  rw [foldl_mem]
  · rw [State.modCore_mem, clearLag_mem, settleCore_mem]
  · intro t q
    split <;> rfl

theorem readBellOf_mem (s : State) (q : Nat) : (s.readBellOf q).mem = s.mem := by
  unfold State.readBellOf
  cases s.queue? q with
  | none => rfl
  | some x =>
    simp only [Option.map_some, Option.getD_some, State.readBell]
    split <;> rfl

theorem newHead_mem (s : State) (q : Nat) : (s.newHead q).mem = s.mem := by
  unfold State.newHead
  split
  · exact readBellOf_mem s q
  · rfl

/-- The block of one core of group `f`, written into `t` at its rank (R464, R465). -/
def saveCore (s : State) (f : Flow) (t : State) (x : CoreId × Nat) : State :=
  { t with tick := t.tick + blockSize }.writeIn f.space (f.rec_.save + BitVec.ofNat 64 (blockSize * x.2))
    (t.saveBlock x.1 ((s.groupWeirs f).contains (weirOf x.1) && x.2 % 4 = 3)) (blockSize / 256 + 1)

/-- The blocks of a group are written, the host has been told, and nothing is cleared yet (R417). -/
def blocksWritten (s : State) (f : Flow) : State :=
  f.cores.foldl State.shareKnown
    ((f.cores.zipIdx.foldl (saveCore s f) s).hostEvent 2 0x30 (BitVec.ofNat 16 f.queue.val) f.num f.rec_.save)

theorem writeSave_mem (s : State) (f : Flow) : (s.writeSave f).mem = ((blocksWritten s f).scrubCores f.cores).mem := rfl

/-- `t` has the writes and the lines before a sluice context under way that `s` has, and its memory is canonical. -/
def SameUnderWay (s t : State) : Prop := t.pending = s.pending ∧ t.jobs = s.jobs ∧ t.mem.wf = true

theorem OnlyMemory.sameUnderWay {s t u : State} (h : OnlyMemory t u) (ht : SameUnderWay s t) (hm : u.mem.wf = true) :
    SameUnderWay s u := by
  obtain ⟨hp, hj, -⟩ := ht
  exact ⟨h.pending.trans hp, (congrArg State.jobs h).trans hj, hm⟩

/-- What is under way when a group is saved is still under way when its cores are scrubbed. -/
theorem sameUnderWay_blocksWritten (s : State) (f : Flow) (hm : s.mem.wf = true) : SameUnderWay s (blocksWritten s f) := by
  have hsaved : SameUnderWay s (f.cores.zipIdx.foldl (saveCore s f) s) :=
    List.foldlRecOn _ _ ⟨rfl, rfl, hm⟩ fun t ht x _ => by
      obtain ⟨-, -, hwf⟩ := id ht
      exact (onlyMemory_writeIn _ { t with tick := t.tick + blockSize } _ _ _).sameUnderWay ht (State.writeIn_wf _ _ _ _ _ hwf)
  obtain ⟨-, -, hwf⟩ := id hsaved
  have htold := (onlyMemory_hostEvent _ 2 0x30 (BitVec.ofNat 16 f.queue.val) f.num f.rec_.save).sameUnderWay hsaved
    (State.hostEvent_wf _ _ _ _ _ _ hwf)
  exact List.foldlRecOn _ _ htold fun t ht c _ => ht

/-- A group on one core whose save finds a whole line of the core under way: it is performed when the core is scrubbed, after
the blocks have been written. -/
theorem get_writeSave_of_pendingLine (s : State) (f : Flow) (c : CoreId) (w : Pending) (i : Nat) (hc : f.cores = [c])
    (hp : s.pending = [w]) (hw : w.core = c) (hj : s.jobs = []) (hm : s.mem.wf = true) (ha : w.pa % 256 = 0)
    (hl : w.bytes.length = 256) (hi : i < w.bytes.length) : (s.writeSave f).mem.get (w.pa + i) = w.bytes[i] := by
  obtain ⟨htp, htj, htm⟩ := sameUnderWay_blocksWritten s f hm
  rw [writeSave_mem, hc, scrubCores_single_mem, flushCore_of_pendingLine _ c w (htp.trans hp) hw (htj.trans hj) ha hl]
  exact Memory.get_write_inside _ _ _ _ htm hi

/-! ### Writes that keep what lies below them -/

/-- No ring of firmware has a place in memory: its records wait (R476). -/
def RingsUnplaced (s : State) : Prop := ∀ j : Fin 3, (s.rings[j]).base = none

theorem drainRing_of_unplaced (n : Nat) (s : State) (j : Fin 3) (h : (s.rings[j]).base = none) : drainRing n s j = s := by
  cases n with
  | zero => rfl
  | succ n =>
    simp only [drainRing, h]

/-- A ring that keeps its place, or its lack of one. -/
theorem RingsUnplaced.setAt {s : State} (h : RingsUnplaced s) (j : Fin 3) (r : Ring) (hr : r.base = none) (i : Fin 3) :
    ((setAt s.rings j r)[i]).base = none := by
  by_cases hij : i = j
  · subst hij; rw [getElem_setAt_self]; exact hr
  · rw [getElem_setAt_ne]
    · exact h i
    · exact hij

theorem postRecord_of_unplaced (s : State) (j : Fin 3) (bs : List Byte) (h : RingsUnplaced s) :
    (s.postRecord j bs).mem = s.mem ∧ RingsUnplaced (s.postRecord j bs) := by
  have hu := h.setAt j { s.rings[j] with waiting := (s.rings[j]).waiting ++ [bs] } (h j)
  simp only [State.postRecord, State.flushRing]
  rw [drainRing_of_unplaced _ _ _ (hu j)]
  exact ⟨rfl, hu⟩

theorem hostEvent_of_unplaced (s : State) (kind : Byte) (code : Code) (q : BitVec 16) (f : BitVec 32) (x : Word)
    (h : RingsUnplaced s) : (s.hostEvent kind code q f x).mem = s.mem ∧ RingsUnplaced (s.hostEvent kind code q f x) :=
  postRecord_of_unplaced _ _ _ (h.setAt 1 _ (h 1))

theorem recovery_of_unplaced (s : State) (kind sev : Byte) (code : Code) (what : Word) (core sp : BitVec 16) (f : BitVec 32)
    (n : Nat) (h : RingsUnplaced s) :
    (s.recovery kind sev code what core sp f n).mem = s.mem ∧ RingsUnplaced (s.recovery kind sev code what core sp f n) := by
  have hb : (s.rings[(2 : Fin 3)]).base.isSome = false := by rw [h 2]; rfl
  simp only [State.recovery, hb, Bool.false_and, Bool.false_eq_true, if_false]
  exact postRecord_of_unplaced _ _ _ (h.setAt 2 _ (h 2))

theorem mergeLine_frame (s : State) (pa : Nat) (bs : List Byte) (raw : Bool) (v : Agent) (rmw : Bool) (rels : List Nat)
    (bound : Option CoreId) : ((s.mergeLine pa bs raw v rmw rels bound).1.mem = s.mem ∨
      (s.mergeLine pa bs raw v rmw rels bound).1.mem = s.mem.write pa bs) ∧
      (s.mergeLine pa bs raw v rmw rels bound).1.rings = s.rings := by
  simp only [State.mergeLine]
  split
  · exact ⟨.inl rfl, rfl⟩
  · exact ⟨.inr rfl, rfl⟩

/-- What firmware writes at an address leaves the bytes below it. -/
theorem engineWrite_frame (s : State) (pa : Nat) (bs : List Byte) (rels : List Nat) (h : RingsUnplaced s) :
    RingsUnplaced (s.engineWrite .house pa bs rels) ∧ ∀ a < pa, (s.engineWrite .house pa bs rels).mem.get a = s.mem.get a := by
  obtain ⟨hmem, hrings⟩ := mergeLine_frame s pa bs false .house false rels none
  have hbelow : ∀ a < pa, (s.mergeLine pa bs false .house false rels none).1.mem.get a = s.mem.get a := fun a ha => by
    rcases hmem with hm | hm
    · rw [hm]
    · rw [hm]; exact Memory.get_write_outside _ _ _ _ (.inl ha)
  have hun : RingsUnplaced (s.mergeLine pa bs false .house false rels none).1 := fun j => by rw [hrings]; exact h j
  simp only [State.engineWrite, State.perform]
  cases hq : s.mergeLine pa bs false .house false rels none with
  | mk t x =>
    rw [hq] at hbelow hun
    cases x with
    | none => exact ⟨hun, hbelow⟩
    | some x =>
      obtain ⟨line, kind⟩ := x
      dsimp only
      split
      · exact ⟨hun, hbelow⟩
      · obtain ⟨hm, hr⟩ := recovery_of_unplaced t kind 1 0x22 (BitVec.ofNat 64 line) 0xFFFF 0xFFFF 0 1 hun
        exact ⟨hr, fun a ha => by rw [hm]; exact hbelow a ha⟩

/-! ### A space whose pages lie above 1 GB -/

/-- The page tables of a space whose root lies at 4 MB: its first 1 GB stands at the second 1 GB of memory (R428 to R430). -/
def savePages : Memory := (Memory.write [] 0x40_0000 (toLE 8 0x60_0001)).write 0x60_0000 (toLE 8 0x4000_000F)

/-- The space of `savePages` stands, and everything below 1 GB is as these tables leave it. -/
structure PagesStand (s : State) : Prop where
  spaces : s.spaces = [(0, 0x40_0000)]
  rings : RingsUnplaced s
  below : ∀ a < 2 ^ 30, s.mem.get a = savePages.get a

theorem savePages_eq : savePages = [(0x40_0000, 1), (0x40_0002, 0x60), (0x60_0000, 0x0F), (0x60_0003, 0x40)] := by decide

theorem PagesStand.read {s : State} (h : PagesStand s) (a n : Nat) (ha : a + n ≤ 2 ^ 30) : s.mem.read a n = savePages.read a n := by
  rw [Memory.read_eq_map, Memory.read_eq_map]
  refine List.map_congr_left fun j hj => h.below _ ?_
  have := List.mem_range.1 hj
  omega

/-- An entry of the tables beside their two. -/
theorem savePages_read_zero (a : Nat) (h : 0x40_0008 ≤ a) (h' : a < 0x60_0000 - 7 ∨ 0x60_0008 ≤ a) :
    leNat (savePages.read a 8) = 0 := by
  have hz (j : Nat) (hj : j < 8) : savePages.get (a + j) = 0 := by
    rw [savePages_eq]
    simp only [Memory.get]
    rw [if_neg (by omega), if_neg (by omega), if_neg (by omega), if_neg (by omega)]
    rfl
  rw [Memory.read_eq_map, List.map_congr_left (g := fun _ => 0) fun j hj => hz j (List.mem_range.1 hj)]
  rfl

theorem PagesStand.tableEntry_root {s : State} (h : PagesStand s) (space : BitVec 8) (va : Nat) :
    s.tableEntry space va 0x40_0000 0 = .end_ .absent ∨ s.tableEntry space va 0x40_0000 0 = .end_ .malformed ∨
      s.tableEntry space va 0x40_0000 0 = .table 0x60_0000 := by
  have hi : va / 2 ^ levelShift 0 % 131072 < 131072 := Nat.mod_lt _ (by decide)
  simp only [State.tableEntry, if_true]
  generalize va / 2 ^ levelShift 0 % 131072 = i at hi
  rw [h.read _ _ (by omega)]
  by_cases h0 : i = 0
  · have he : leNat (savePages.read (0x40_0000 + 8 * i) 8) = 0x60_0001 := by subst h0; decide
    rw [he]
    by_cases hp : s.physOk 0x60_0000 = true <;> simp [hp]
  · rw [savePages_read_zero _ (by omega) (by omega)]
    exact .inl rfl

theorem PagesStand.tableEntry_leaf {s : State} (h : PagesStand s) (space : BitVec 8) (va : Nat) :
    s.tableEntry space va 0x60_0000 1 = .end_ .absent ∨ s.tableEntry space va 0x60_0000 1 = .end_ .malformed ∨
      ∃ e : TlbEntry, s.tableEntry space va 0x60_0000 1 = .end_ (.page e) ∧ e.pbase = 2 ^ 30 := by
  have hi : va / 2 ^ levelShift 1 % 512 < 512 := Nat.mod_lt _ (by decide)
  simp only [State.tableEntry, Nat.one_ne_zero, if_false, show ¬ (1 = 3) by decide]
  generalize va / 2 ^ levelShift 1 % 512 = i at hi
  rw [h.read _ _ (by omega)]
  by_cases h0 : i = 0
  · have he : leNat (savePages.read (0x60_0000 + 8 * i) 8) = 0x4000_000F := by subst h0; decide
    rw [he]
    by_cases hp : s.physOk 1073741824 = true ∧ s.physOk 2147483647 = true <;> simp_all [levelShift]
  · rw [savePages_read_zero _ (by omega) (by omega)]
    exact .inl rfl

/-- No translation of the space gives an address below 1 GB. -/
theorem PagesStand.translateIn {s : State} (h : PagesStand s) (va : Word) (n : Need) (pa : Nat)
    (ht : s.translateIn 0 va n = .at pa) : 2 ^ 30 ≤ pa := by
  simp only [State.translateIn, State.walk, h.spaces, List.find?_cons, decide_true, State.walkFrom] at ht
  split at ht
  · cases ht
  · rcases h.tableEntry_root 0 va.toNat with hr | hr | hr <;> simp only [hr, Walk.trans, reduceCtorEq] at ht
    rcases h.tableEntry_leaf 0 va.toNat with hl | hl | ⟨e, hl, he⟩ <;> simp only [Nat.zero_add, hl, reduceCtorEq] at ht
    split at ht
    · cases ht; omega
    · cases ht

theorem PagesStand.writeIn {s : State} (h : PagesStand s) (n : Nat) (va : Word) (bs : List Byte) :
    PagesStand (s.writeIn 0 va bs n) := by
  induction n generalizing s va bs with
  | zero => exact h
  | succ n ih =>
    simp only [State.writeIn]
    split
    · exact h
    · split
      · next pa ht =>
        obtain ⟨hr, hb⟩ := engineWrite_frame s pa (bs.take (256 - va.toNat % 256)) [] h.rings
        have hs := (onlyMemory_engineWrite s .house pa (bs.take (256 - va.toNat % 256)) [] (by simp))
        refine ih ⟨?_, hr, fun a ha => ?_⟩ _ _
        · rw [hs]; exact h.spaces
        · rw [hb a (ha.trans_le (h.translateIn va .wr pa ht))]; exact h.below a ha
      · exact h
/-! ### A group that stands still with a passage into a bound line (R273, R417) -/

/-- The program of a sluice context that hands each word on as it came. -/
def straightFrames : List Frame :=
  [0, 1, 2, 3].map fun i => BitVec.ofNat 256 (3 * 2 ^ 252 + i * 2 ^ 232 + 4 * 2 ^ 226)

/-- An output stream through sluice context 0 into lines that a write bind holds. -/
def boundStream : Stream :=
  { kind := .output, desc := 0, ag := 0, region := 0, fmt := some .o32, cmp := true, record := false, bind := 2
    int := 0, rnd := 0, stop := 1, cons := 0, addr := 0x2_0000, counters := [], ptr2 := 0, ctx := some 0, fold := none
    ended := false, committed := 0, origin := 0, pos := 8, round := [], releases := [], taken := 0, flags := 0
    fault := none, movedAt := 0 }

/-- Its ring, of one slot of a line. -/
def boundHandle : Handle :=
  { out := true, base := 0, slots := 1, size := 256, fill := 1, free := 1, freed := 1, joined := none
    stream := some boundStream, items := [], openData := 0, filledAt := [0] }

/-- The core of the group: frozen, its stream on AG site 0 with one line bound. -/
def boundCore : Core :=
  { Core.reset with
    pump := { Pump.reset with run := .frozen, flow := 5, ypend := true, handles := setAt Pump.reset.handles 0 (some boundHandle) }
    fab := { Fabric.reset with
      ags := setAt Fabric.reset.ags 0 { AgSite.reset with use := .stream 0 }
      binds := [{ owner := .stream 0, ag := 0, write := true, ranges := [(0x200, 0x201, 0x2_0000)], copied := [] }] } }

/-- The launch record of a group of one core, whose save area lies at address 0 of its space. -/
def boundRecord : Record :=
  { image := 0, args := 0, completion := 0, value := 0, seed := 0, save := 0, diag := 0, spill := 0, spillWords := 0
    nq := 0, nc := 1, span := 0, prio := 0, still := 0, ring := false, batches := false, sites := 1, deps := []
    ringOffset := 0, ringCount := 0, ringCore := 0 }

/-- The group, which a request has told to freeze. -/
def boundFlow : Flow :=
  { num := 5, queue := 1, space := 0, rec_ := boundRecord, cores := [0], state := .freezing, order := 0, born := 0
    kept := [], keptWeirs := [], keptSluice := [], fate := none, ringNext := 0, due := [], page := none, cluster := none
    slot := 0, lost := [], orphan := false }

/-- The package: a whole line before the sluice context, for the bound line at 0x20000. -/
def boundState : State :=
  { State.reset with
    cores := setAt State.reset.cores 0 boundCore
    mem := savePages
    spaces := [(0, 0x40_0000)]
    sluice := setAt State.reset.sluice 0 (some { owner := 5, frames := straightFrames, offset := 0 })
    jobs := [{ core := 0, ag := 0, ctx := 0, write := true, index := [], raw := false, aborts := 0
               tokens := (List.range 8).map fun i => (0x2_0000 + 32 * i, BitVec.ofNat 256 (5), false) }]
    flows := [boundFlow] }

/-- The group stands still, its passage made. -/
def boundStill : State := boundFlow.cores.foldl State.flushCore (boundState.stillAll boundFlow)


/-- What the core still has to write when its group is saved: the bound line, which the passage before its frames has issued. -/
def boundLine : Pending :=
  { core := 0, bind := some 0, pa := 0x2_0000, va := 0x2_0000, bytes := ((List.range 8).map fun _ => toLE 32 5).flatten, raw := false
    rels := [], by_ := .ag 0 0 }

/-- The passage has issued the bound line, and nothing else has happened. -/
theorem boundStill_underWay : boundStill.pending = [boundLine] ∧ boundStill.jobs = [] ∧ boundStill.mem = savePages ∧
    boundStill.spaces = [(0, 0x40_0000)] ∧ (∀ j : Fin 3, (boundStill.rings[j]).base = none) ∧
    boundStill.saveStop boundFlow .wr = none := by decide +kernel

theorem boundStill_saveStop : boundStill.saveStop boundFlow .wr = none := by
  obtain ⟨-, -, -, -, -, h⟩ := boundStill_underWay
  exact h

theorem boundStill_pagesStand : PagesStand boundStill := by
  obtain ⟨-, -, hmem, hspaces, hrings, -⟩ := boundStill_underWay
  exact ⟨hspaces, hrings, fun _ _ => by rw [hmem]⟩

theorem saveFlow_boundState_mem : (boundState.saveFlow 5).mem = (boundStill.writeSave boundFlow).mem := by
  have hf : boundState.flow? 5 = some boundFlow := by decide +kernel
  have hg : (boundFlow.state ≠ .freezing || boundFlow.page.isSome || boundState.doomed boundFlow ||
      (boundState.nmas.any fun x => boundFlow.cores.contains x.core) || !boundFlow.cores.all boundState.stilled) = false := by
    decide +kernel
  have hs : (boundFlow.cores.foldl State.flushCore (boundState.stillAll boundFlow)).saveStop boundFlow .wr = none :=
    boundStill_saveStop
  unfold State.saveFlow
  simp only [hf, hg, hs, Bool.false_eq_true, if_false]
  split
  · exact newHead_mem _ _
  · rfl

/-- The bound line has reached memory when the group is saved. -/
theorem saveFlow_boundState_line : (boundState.saveFlow 5).mem.get 0x2_0000 = 5 := by
  obtain ⟨hpending, hjobs, hmem, -⟩ := boundStill_underWay
  have hwf : boundStill.mem.wf = true := by rw [hmem]; decide +kernel
  have hlen : boundLine.bytes.length = 256 := by decide +kernel
  rw [saveFlow_boundState_mem]
  exact get_writeSave_of_pendingLine boundStill boundFlow 0 boundLine 0 rfl hpending rfl hjobs hwf rfl hlen (by rw [hlen]; decide)

/-- The blocks that are written leave the line as it was. -/
theorem blocks_boundStill_line :
    (boundFlow.cores.zipIdx.foldl (saveCore boundState boundFlow) boundStill).mem.get 0x2_0000 = 0 := by
  have hp : PagesStand (boundFlow.cores.zipIdx.foldl (saveCore boundState boundFlow) boundStill) :=
    List.foldlRecOn _ _ boundStill_pagesStand fun t ht x _ =>
      PagesStand.writeIn (s := { t with tick := t.tick + blockSize }) ⟨ht.spaces, ht.rings, ht.below⟩ _ _ _
  rw [hp.below _ (by decide)]
  decide

/-- Refutes O57: a sluice context of group 5 holds the passage of a whole line into memory that a write bind of the core holds. The
group stands still, and its save area is mapped. The save performs the passage, so the bound line is issued; it is
performed only when the cores are scrubbed, after the blocks, so memory is not what the blocks alone make of it. -/
theorem not_flowsRetireFreezeSaveAndEnd : ¬ Obligations.FlowsRetireFreezeSaveAndEnd := by
  unfold Obligations.FlowsRetireFreezeSaveAndEnd
  intro h
  obtain ⟨-, -, hsave, -⟩ := h boundState 5 boundFlow 0 0 0 0 0 false (by decide +kernel)
    (by decide +kernel) (by decide +kernel) rfl
  obtain ⟨t, g, ht, -, -, -, hmem, -⟩ := hsave rfl rfl (by decide +kernel) (by decide +kernel) rfl (by decide +kernel)
    boundStill_saveStop
  have hsaved : boundState.saveFlow 5 = t := by injection ht
  have hline : t.mem.get 0x2_0000 = 0 := by
    rw [hmem (by decide +kernel)]
    exact blocks_boundStill_line
  rw [← hsaved, saveFlow_boundState_line] at hline
  exact absurd hline (by decide)

end Sys2Proof

/-! Queues are mapped, polled and dispatched (R39, R403 to R407, R410): what a pumphouse's reads and its slots leave alone, what
its checks find, and the cores of a record that is placed. -/

namespace Sys2Proof

open Machine

/-! ### Reads of a pumphouse, by the page tables and by what it has seen (R400, R428 to R430) -/

/-- `t` has the page tables of `s`. -/
structure SameTables (s t : State) : Prop where
  mem : t.mem = s.mem
  spaces : t.spaces = s.spaces
  physOk : t.physOk = s.physOk

theorem SameTables.walkFrom {s t : State} (h : SameTables s t) (space : BitVec 8) (va table fuel lv : Nat) :
    t.walkFrom space va table fuel lv = s.walkFrom space va table fuel lv := by
  induction fuel generalizing table lv with
  | zero => rfl
  | succ fuel ih =>
    have he : t.tableEntry space va table lv = s.tableEntry space va table lv := by
      simp only [State.tableEntry, h.mem, h.physOk]
    simp only [State.walkFrom, he, ih]

theorem SameTables.translateIn {s t : State} (h : SameTables s t) (space : BitVec 8) (va : Word) (n : Need) :
    t.translateIn space va n = s.translateIn space va n := by
  simp only [State.translateIn, State.walk, h.spaces, h.walkFrom]

theorem SameTables.houseBytes {s t : State} (h : SameTables s t) (hs : t.stale = s.stale) (pa n : Nat) :
    t.houseBytes pa n = s.houseBytes pa n := by
  induction n generalizing pa with
  | zero => rfl
  | succ n ih => simp only [State.houseBytes, State.staleByte, ih, h.mem, hs]

theorem SameTables.readPages {s t : State} (h : SameTables s t) (hs : t.stale = s.stale) (space : BitVec 8) (fuel : Nat)
    (va : Word) (n : Nat) : t.readPages space fuel va n = s.readPages space fuel va n := by
  induction fuel generalizing va n with
  | zero => rfl
  | succ fuel ih => simp only [State.readPages, h.translateIn, ih, h.houseBytes hs]

theorem SameTables.bytesIn {s t : State} (h : SameTables s t) (hs : t.stale = s.stale) (space : BitVec 8) (va : Word) (n : Nat) :
    t.bytesIn space va n = s.bytesIn space va n := by
  simp only [State.bytesIn, State.readIn, h.readPages hs]

/-! ### Accesses of a pumphouse, which only order (R404, R474, R485) -/

/-- `t` is `s` but for the order of its writes (log 7). -/
def OnlyOrder (s t : State) : Prop := t = orderedAs s t

theorem OnlyOrder.refl (s : State) : OnlyOrder s s := rfl

theorem OnlyOrder.trans {s t u : State} (h : OnlyOrder s t) (k : OnlyOrder t u) : OnlyOrder s u := by
  unfold OnlyOrder orderedAs at *
  rw [h] at k
  exact k

theorem OnlyOrder.houses {s t : State} (h : OnlyOrder s t) : t.houses = s.houses := by rw [h]; rfl
theorem OnlyOrder.slotAt {s t : State} (h : OnlyOrder s t) (d : Fin 4) (i : Fin 16) : t.slotAt d i = s.slotAt d i := by
  rw [h]; rfl
theorem OnlyOrder.queue? {s t : State} (h : OnlyOrder s t) (q : Nat) : t.queue? q = s.queue? q := by rw [h]; rfl

theorem OnlyOrder.sameTables {s t : State} (h : OnlyOrder s t) : SameTables s t := by
  rw [h]
  exact ⟨rfl, rfl, rfl⟩

theorem onlyOrder_foldl {β : Type} (f : State → β → State) (l : List β) (s : State) (h : ∀ t x, OnlyOrder t (f t x)) :
    OnlyOrder s (l.foldl f s) :=
  List.foldlRecOn l f (.refl s) fun t ht x _ => ht.trans (h t x)

theorem onlyOrder_passOn (s : State) (u v : Agent) (k : Nat) : OnlyOrder s (s.passOn u v k) := rfl

theorem onlyOrder_houseDone (s : State) : OnlyOrder s s.houseDone := rfl

theorem onlyOrder_readBell (s : State) (q : Queue) : OnlyOrder s (s.readBell q) := by
  unfold State.readBell
  split <;> rfl

theorem onlyOrder_readBellOf (s : State) (q : Nat) : OnlyOrder s (s.readBellOf q) := by
  unfold State.readBellOf
  cases s.queue? q with
  | none => exact .refl s
  | some x => exact onlyOrder_readBell s x

theorem onlyOrder_readDeps (s : State) (space : BitVec 8) (r : Record) : OnlyOrder s (s.readDeps space r) := by
  refine onlyOrder_foldl _ _ _ fun t e => ?_
  split <;> rfl

/-! ### Slots of a pumphouse -/

/-- `t` is `s` but for the pumphouses and the order of writes. -/
def OnlyHouses (s t : State) : Prop := t = orderedAs { s with houses := t.houses } t

theorem OnlyHouses.refl (s : State) : OnlyHouses s s := rfl

theorem OnlyHouses.trans {s t u : State} (h : OnlyHouses s t) (k : OnlyHouses t u) : OnlyHouses s u := by
  unfold OnlyHouses orderedAs at *
  rw [h] at k
  exact k

theorem OnlyOrder.onlyHouses {s t : State} (h : OnlyOrder s t) : OnlyHouses s t := by
  unfold OnlyHouses
  rw [h.houses]
  exact h

theorem OnlyHouses.cores {s t : State} (h : OnlyHouses s t) : t.cores = s.cores := by rw [h]; rfl
theorem OnlyHouses.flows {s t : State} (h : OnlyHouses s t) : t.flows = s.flows := by rw [h]; rfl
theorem OnlyHouses.queues {s t : State} (h : OnlyHouses s t) : t.queues = s.queues := by rw [h]; rfl
theorem OnlyHouses.nextFlow {s t : State} (h : OnlyHouses s t) : t.nextFlow = s.nextFlow := by rw [h]; rfl

theorem onlyHouses_foldl {β : Type} (f : State → β → State) (l : List β) (s : State) (h : ∀ t x, OnlyHouses t (f t x)) :
    OnlyHouses s (l.foldl f s) :=
  List.foldlRecOn l f (.refl s) fun t ht x _ => ht.trans (h t x)

theorem onlyHouses_modHouse (s : State) (d : Fin 4) (f : House → House) : OnlyHouses s (s.modHouse d f) := rfl

theorem onlyHouses_modSlot (s : State) (d : Fin 4) (i : Fin 16) (f : Slot → Option Slot) : OnlyHouses s (s.modSlot d i f) := rfl

theorem onlyHouses_unmap (s : State) (q : Nat) : OnlyHouses s (s.unmap q) := by
  unfold State.unmap
  split
  · exact onlyHouses_modSlot ..
  · exact .refl s

theorem onlyHouses_newHead (s : State) (q : Nat) : OnlyHouses s (s.newHead q) := by
  unfold State.newHead
  split
  · exact (onlyOrder_readBellOf s q).onlyHouses.trans (onlyHouses_modSlot ..)
  · exact .refl s

theorem houses_modHouse_self (s : State) (d : Fin 4) (f : House → House) : (s.modHouse d f).houses[d] = f s.houses[d] :=
  getElem_setAt_self ..

theorem houses_modHouse_ne (s : State) (d e : Fin 4) (f : House → House) (h : e ≠ d) :
    (s.modHouse d f).houses[e] = s.houses[e] := getElem_setAt_ne _ _ _ _ h

theorem slotAt_modSlot_self (s : State) (d : Fin 4) (i : Fin 16) (f : Slot → Option Slot) :
    (s.modSlot d i f).slotAt d i = (s.slotAt d i).bind f := by
  simp only [State.slotAt, State.modSlot, houses_modHouse_self, getElem_setAt_self]

/-! ### QUEUE_MAP (R403) -/

/-- The pumphouse reads the doorbell word of an unmapped queue, or asks for its page (R401, R474). -/
def bellRead (s : State) (q : Fin 256) : State :=
  match s.queue? q.val with
  | some x => (s.doorbellPage x).readBell x
  | none => s

/-- The state in which the pumphouse of a die chooses the queue it maps: stale slots are freed, and the doorbell words of the
unmapped queues are read or asked for (R403, R474). -/
def bellsRead (s : State) (d : Fin 4) : State :=
  ((s.unmapStale d).unmapped d).foldl bellRead (s.unmapStale d)

/-- The slot that a queue takes when it is mapped (R403, R405). -/
def freshSlot (s : State) (q : Fin 256) : Slot :=
  { queue := q, base := (s.headOf q.val).prio, effective := (s.headOf q.val).prio, passes := 0, ready := false, page := none }

/-- The only queue that may be mapped takes the first free slot. -/
theorem queueMap_of_single (s : State) (d : Fin 4) (q : Fin 256) (i : Fin 16)
    (hq : ((bellsRead s d).unmapped d).filter (bellsRead s d).mappable = [q])
    (hi : (fins 16).find? (fun i => ((bellsRead s d).slotAt d i).isNone) = some i) :
    s.queueMap d = (bellsRead s d).modHouse d fun h =>
      { h with slots := setAt h.slots i (some (freshSlot (bellsRead s d) q)), lastMapped := q } := by
  unfold State.queueMap
  extract_lets u m best
  have hm : m = bellsRead s d := rfl
  clear_value m
  subst hm
  have hb : best = some q := by simp only [best, hq]; rfl
  simp only [hb, hi]
  rfl

theorem exec_queueMap (s : State) (d : Fin 4) (h : s.shut = false) : exec (.queueMap d) s = .next (s.queueMap d).houseDone := by
  show execQueueMap d s = _
  simp [execQueueMap, h]

/-- What QUEUE_MAP does for the only queue that may be mapped. -/
theorem exec_queueMap_of_single (s : State) (d : Fin 4) (q : Fin 256) (i : Fin 16) (hs : s.shut = false)
    (hq : ((bellsRead s d).unmapped d).filter (bellsRead s d).mappable = [q])
    (hi : (fins 16).find? (fun i => ((bellsRead s d).slotAt d i).isNone) = some i) :
    ∃ t, exec (.queueMap d) s = .next t ∧ OnlyHouses (bellsRead s d) t ∧ (t.houses[d]).lastMapped = q ∧
      (∀ e : Fin 4, e ≠ d → t.houses[e] = (bellsRead s d).houses[e]) ∧
      (∀ j, j ≠ i → t.slotAt d j = (bellsRead s d).slotAt d j) ∧ t.slotAt d i = some (freshSlot (bellsRead s d) q) := by
  rw [exec_queueMap s d hs, queueMap_of_single s d q i hq hi]
  generalize bellsRead s d = m
  refine ⟨_, rfl, (onlyHouses_modHouse ..).trans (onlyOrder_houseDone _).onlyHouses, ?_, fun e he => ?_, fun j hj => ?_, ?_⟩
  · rw [(onlyOrder_houseDone _).houses, houses_modHouse_self]
  · rw [(onlyOrder_houseDone _).houses, houses_modHouse_ne _ _ _ _ he]
  · rw [(onlyOrder_houseDone _).slotAt, State.slotAt, houses_modHouse_self, State.slotAt, getElem_setAt_ne _ _ _ _ hj]
  · rw [(onlyOrder_houseDone _).slotAt, State.slotAt, houses_modHouse_self, getElem_setAt_self]

/-! ### DEPENDENCE_POLL (R404, R406) -/

theorem exec_dependencePoll (s : State) (d : Fin 4) (i : Fin 16) (h : s.shut = false) :
    exec (.dependencePoll d i) s = .next (s.pollSlot d i).houseDone := by
  show execDependencePoll d i s = _
  simp [execDependencePoll, h]

/-- The priority of a record that passes its checks is a level (R402, R405). -/
theorem prio_of_recordCheck_ok (s : State) (space : BitVec 8) (bs : List Byte) (h : s.recordCheck space bs = .ok) :
    (Head.record bs).prio = (Record.of bs).prio := by
  have hgood : recordBad bs = false := by
    by_contra hb
    simp [State.recordCheck, Bool.eq_true_of_not_eq_false hb] at h
  have hprio : (Record.of bs).prio ≤ 3 := by
    simp only [recordBad, Bool.or_eq_false_iff, decide_eq_false_iff_not] at hgood
    omega
  exact Nat.min_eq_left hprio

/-- The dependences of a record are compared with what the pumphouse sees (R404). -/
theorem depsMet_of_onlyOrder {s v : State} (h : OnlyOrder s v) (space : BitVec 8) (r : Record) :
    v.depsMet space r = r.deps.all fun e => match s.translateIn space e.1 .rd with
      | .at pa => e.2.toNat ≤ (leWord (v.houseBytes pa 8)).toNat
      | _ => false := by
  simp only [State.depsMet, h.sameTables.translateIn] <;> rfl

theorem Slot.level_eq (x : Slot) (prio : Nat) : x.level prio =
    { x with
      base := prio
      effective := if x.base = prio then x.effective else prio
      passes := if x.base = prio then x.passes else 0 } := by
  unfold Slot.level
  split
  · next h => rw [← h]
  · rfl

/-- A failed record changes neither cores nor flows, and its queue is in the error state with the code (R406). -/
theorem rejectRecord_eq (s : State) (q : Nat) (code : Code) :
    (s.rejectRecord q code).cores = s.cores ∧ (s.rejectRecord q code).flows = s.flows ∧
      (s.rejectRecord q code).queues =
        s.queues.map fun x => if x.num.val = q then { x with code := code, err := true, rejected := true } else x := by
  have hev := onlyMemory_hostEvent (s.modQueue q fun x => { x with code := code, err := true }) 1 code (BitVec.ofNat 16 q) 0 0
  have hun := onlyHouses_unmap ((s.queueError q code 0).modQueue q fun x => { x with rejected := true }) q
  refine ⟨hun.cores.trans hev.cores, hun.flows.trans hev.flows, hun.queues.trans ?_⟩
  simp only [State.modQueue, State.queueError] at hev ⊢
  rw [hev.queues, List.map_map]
  refine List.map_congr_left fun x _ => ?_
  by_cases hx : x.num.val = q <;> simp [hx]

/-- A slot whose record `bs` passes its checks, as a poll leaves it (R404, R405). -/
def polledSlot (s : State) (q : Queue) (bs : List Byte) (x : Slot) : Slot :=
  { x.level (Head.record bs).prio with ready := x.ready || s.depsMet q.space (Record.of bs) }

section
variable {s : State} {d : Fin 4} {i : Fin 16} {x : Slot} {q : Queue} {bs : List Byte} (hx : s.slotAt d i = some x)
  (hp : x.page = none) (hh : (s.readBellOf x.queue.val).headOf x.queue.val = .record bs) (hq : s.queue? x.queue.val = some q)
include hx hp hh hq

/-- A slot whose record passes its checks reads its dependences and gets its level. -/
theorem pollSlot_of_ok (hc : (s.readBellOf x.queue.val).recordCheck q.space bs = .ok) :
    s.pollSlot d i = ((s.readBellOf x.queue.val).readDeps q.space (Record.of bs)).modSlot d i fun y =>
      some (polledSlot (s.readBellOf x.queue.val) q bs y) := by
  simp only [State.pollSlot, hx, hp, hh, hc, (onlyOrder_readBellOf s _).queue?, hq, Option.isSome_none, Bool.false_eq_true,
    if_false]
  rfl

/-- A slot whose record fails a check. -/
theorem pollSlot_of_reject {code : Code} (hc : (s.readBellOf x.queue.val).recordCheck q.space bs = .reject code) :
    s.pollSlot d i = (s.readBellOf x.queue.val).rejectRecord x.queue.val code := by
  simp only [State.pollSlot, hx, hp, hh, hc, (onlyOrder_readBellOf s _).queue?, hq, Option.isSome_none, Bool.false_eq_true,
    if_false]

theorem exec_dependencePoll_of_ok (hs : s.shut = false) (hc : (s.readBellOf x.queue.val).recordCheck q.space bs = .ok) :
    ∃ t, exec (.dependencePoll d i) s = .next t ∧ OnlyHouses s t ∧
      t.slotAt d i = some (polledSlot (s.readBellOf x.queue.val) q bs x) := by
  have hread := (onlyOrder_readBellOf s x.queue.val).trans
    (onlyOrder_readDeps (s.readBellOf x.queue.val) q.space (Record.of bs))
  have hdone := onlyOrder_houseDone (s.pollSlot d i)
  have hpoll := pollSlot_of_ok hx hp hh hq hc
  refine ⟨_, exec_dependencePoll s d i hs, .trans ?_ hdone.onlyHouses, ?_⟩
  · rw [hpoll]
    exact hread.onlyHouses.trans (onlyHouses_modSlot ..)
  · rw [hdone.slotAt, hpoll, slotAt_modSlot_self, hread.slotAt, hx, Option.bind_some]

theorem exec_dependencePoll_of_reject {code : Code} (hs : s.shut = false)
    (hc : (s.readBellOf x.queue.val).recordCheck q.space bs = .reject code) :
    ∃ t, exec (.dependencePoll d i) s = .next t ∧ t.cores = s.cores ∧ t.flows = s.flows ∧
      ∀ y ∈ t.queues, y.num = x.queue → y.err = true ∧ y.code = code ∧ y.rejected = true := by
  have hread := (onlyOrder_readBellOf s x.queue.val).onlyHouses
  have hdone := (onlyOrder_houseDone (s.pollSlot d i)).onlyHouses
  obtain ⟨hcores, hflows, hqueues⟩ := rejectRecord_eq (s.readBellOf x.queue.val) x.queue.val code
  rw [← pollSlot_of_reject hx hp hh hq hc] at hcores hflows hqueues
  refine ⟨_, exec_dependencePoll s d i hs, hdone.cores.trans (hcores.trans hread.cores),
    hdone.flows.trans (hflows.trans hread.flows), fun y hy hn => ?_⟩
  rw [hdone.queues, hqueues] at hy
  obtain ⟨z, -, rfl⟩ := List.mem_map.mp hy
  by_cases hz : z.num.val = x.queue.val
  · simp [hz]
  · simp only [hz, if_false] at hn
    exact absurd (congrArg Fin.val hn) hz

end

/-- The level that a poll gives a slot is that of its record, and a level that changes starts its count of passes again. -/
theorem polledSlot_eq {s v : State} (h : OnlyOrder s v) (q : Queue) (bs : List Byte) (x : Slot)
    (hc : v.recordCheck q.space bs = .ok) : polledSlot v q bs x =
      { x with
        base := (Record.of bs).prio
        effective := if x.base = (Record.of bs).prio then x.effective else (Record.of bs).prio
        passes := if x.base = (Record.of bs).prio then x.passes else 0
        ready := x.ready || (Record.of bs).deps.all fun e => match s.translateIn q.space e.1 .rd with
          | .at pa => e.2.toNat ≤ (leWord (v.houseBytes pa 8)).toNat
          | _ => false } := by
  rw [polledSlot, prio_of_recordCheck_ok v q.space bs hc, depsMet_of_onlyOrder h, Slot.level_eq]

/-! ### The cores of a new group (R39, R97, R410) -/

/-- A core enters its flow: it is cleared, and its pump stands at the entry. -/
def enterCore (now : Nat) (entry : Nat → Pump) (launch : Nat → Launch) (t : State) (x : CoreId × Nat) : State :=
  (t.clearLag x.1).modCore x.1 fun k => { k.scrub now with pump := entry x.2, launch := launch x.2 }

/-- `t` is `s` but for the cores and the order of writes. -/
def OnlyCores (s t : State) : Prop := t = orderedAs { s with cores := t.cores } t

theorem OnlyCores.refl (s : State) : OnlyCores s s := rfl

theorem OnlyCores.trans {s t u : State} (h : OnlyCores s t) (k : OnlyCores t u) : OnlyCores s u := by
  unfold OnlyCores orderedAs at *
  rw [h] at k
  exact k

theorem OnlyCores.flows {s t : State} (h : OnlyCores s t) : t.flows = s.flows := by rw [h]; rfl
theorem OnlyCores.queues {s t : State} (h : OnlyCores s t) : t.queues = s.queues := by rw [h]; rfl
theorem OnlyCores.nextFlow {s t : State} (h : OnlyCores s t) : t.nextFlow = s.nextFlow := by rw [h]; rfl

theorem OnlyOrder.onlyCores {s t : State} (h : OnlyOrder s t) : OnlyCores s t := by
  have hc : t.cores = s.cores := by rw [h]; rfl
  unfold OnlyCores
  rw [hc]
  exact h

section
variable (now : Nat) (entry : Nat → Pump) (launch : Nat → Launch)

theorem onlyCores_enterCore (t : State) (x : CoreId × Nat) : OnlyCores t (enterCore now entry launch t x) := rfl

theorem onlyCores_enterCores (xs : List (CoreId × Nat)) (t : State) :
    OnlyCores t (xs.foldl (enterCore now entry launch) t) :=
  List.foldlRecOn xs _ (.refl t) fun u hu x _ => hu.trans (onlyCores_enterCore now entry launch u x)

theorem pump_enterCore_self (t : State) (x : CoreId × Nat) : (enterCore now entry launch t x).pump x.1 = entry x.2 := by
  simp only [State.pump, enterCore, State.core_modCore_self]

theorem pump_enterCore_ne (t : State) (x : CoreId × Nat) (c : CoreId) (h : c ≠ x.1) :
    (enterCore now entry launch t x).pump c = t.pump c := by
  simp only [State.pump, enterCore, State.core_modCore_ne _ _ _ _ h]
  rfl

theorem pump_enterCores_of_not_mem (xs : List (CoreId × Nat)) (t : State) (c : CoreId) (h : c ∉ xs.map (·.1)) :
    (xs.foldl (enterCore now entry launch) t).pump c = t.pump c := by
  induction xs generalizing t with
  | nil => rfl
  | cons x xs ih =>
    simp only [List.map_cons, List.mem_cons, not_or] at h
    obtain ⟨hx, hxs⟩ := h
    rw [List.foldl_cons, ih _ hxs, pump_enterCore_ne _ _ _ _ _ _ hx]

/-- Each core of a list without repeats stands at the entry of its own rank. -/
theorem pump_enterCores_of_mem (xs : List (CoreId × Nat)) (t : State) (x : CoreId × Nat) (hd : (xs.map (·.1)).Nodup) (hx : x ∈ xs) :
    (xs.foldl (enterCore now entry launch) t).pump x.1 = entry x.2 := by
  induction xs generalizing t with
  | nil => cases hx
  | cons y ys ih =>
    obtain ⟨hy, hys⟩ := List.nodup_cons.mp hd
    rw [List.foldl_cons]
    rcases List.mem_cons.mp hx with rfl | hx
    · rw [pump_enterCores_of_not_mem _ _ _ _ _ _ hy, pump_enterCore_self]
    · exact ih _ hys hx

end

/-- What the registers of a pump read at its entry: the arguments, the rank and the count of cores in g1 to g3 (R39). -/
theorem read_entryPump (r : Record) (num : BitVec 32) (rank count : Nat) (pc : Word) (now : Nat) (y : Reg) :
    (entryPump r num rank count pc now).read y =
      if y = .g 1 then r.args else if y = .g 2 then BitVec.ofNat 64 rank
      else if y = .g 3 then BitVec.ofNat 64 count else 0 := by
  cases y with
  | last => rfl
  | k j => simp [Pump.read, entryPump, Pump.reset]
  | g j =>
    have hset {v : Vector Word 64} {w : Word} (n : BitVec 6) :
        (setAt v n.toFin w)[j.toFin] = if j = n then w else v[j.toFin] := by
      split
      · next h => rw [h, getElem_setAt_self]
      · next h => exact getElem_setAt_ne _ _ _ _ fun e => h (BitVec.toFin_inj.mp e)
    have h1 : (1 : Fin 64) = (1 : BitVec 6).toFin := rfl
    have h2 : (2 : Fin 64) = (2 : BitVec 6).toFin := rfl
    have h3 : (3 : Fin 64) = (3 : BitVec 6).toFin := rfl
    simp only [Pump.read, entryPump, Pump.reset, h1, h2, h3, hset, Reg.g.injEq]
    by_cases e1 : j = 1
    · simp [e1]
    by_cases e2 : j = 2
    · simp [e2]
    by_cases e3 : j = 3
    · simp [e3]
    simp only [if_neg e1, if_neg e2, if_neg e3]
    simp

/-! ### DISPATCH_DECISION (R39, R405, R407, R410) -/

/-- A placement names no core twice (R407). -/
theorem nodup_of_placeOk {s : State} {taken : List CoreId} {r : Record} {d : Fin 4} {cs : List CoreId}
    (h : s.placeOk taken r d cs = true) : cs.Nodup := by
  have hrise : (cs.zip (cs.drop 1)).all (fun p => p.1 < p.2) = true := by
    simp only [State.placeOk, Bool.and_eq_true] at h
    obtain ⟨⟨⟨⟨-, hrise⟩, -⟩, -⟩, -⟩ := h
    exact hrise
  have hchain : cs.IsChain (· < ·) := by
    clear h
    induction cs with
    | nil => exact .nil
    | cons a cs ih =>
      cases cs with
      | nil => exact .singleton a
      | cons b cs =>
        simp only [List.drop_succ_cons, List.drop_zero, List.zip_cons_cons, List.all_cons, Bool.and_eq_true,
          decide_eq_true_eq] at hrise ih
        obtain ⟨hab, hrest⟩ := hrise
        exact .cons_cons hab (ih hrest)
  exact (List.isChain_iff_pairwise.mp hchain).imp ne_of_lt

/-- The relocations of an image are written (R47, R77). -/
theorem onlyMemory_relocate (s : State) (space : BitVec 8) (image : Word) (hdr : List Byte) :
    OnlyMemory s (s.relocate space image hdr) := by
  refine List.foldlRecOn _ _ (.refl s) fun t ht r _ => ?_
  split
  · exact ht.trans (onlyMemory_engineWrite _ _ _ _ _ (by simp))
  · exact ht

/-- The flow that a record becomes when it is placed (R410). -/
def placedFlow (s : State) (q : Queue) (bs : List Byte) (cores : List CoreId) (order : Nat) : Flow :=
  { num := s.nextFlow, queue := q.num, space := q.space, rec_ := Record.of bs, cores := cores, state := .running, order := order,
    born := order, kept := [], keptWeirs := [], keptSluice := [], fate := none, ringNext := 0, due := [], page := none,
    cluster := q.cluster, slot := q.slot, lost := [], orphan := false }

/-- The address at which the cores of a record begin (R76, R410). -/
def entryPc (s : State) (q : Queue) (bs : List Byte) : Word :=
  (Record.of bs).image + BitVec.ofNat 64 (fieldAt (s.bytesIn q.space (Record.of bs).image 160) 0x08 8)

/-- The record's flow is made, its image relocated. -/
def flowMade (s : State) (q : Queue) (bs : List Byte) (cores : List CoreId) (order : Nat) : State :=
  { s.relocate q.space (Record.of bs).image (s.bytesIn q.space (Record.of bs).image 160) with
    flows := s.flows ++ [placedFlow s q bs cores order], nextFlow := s.nextFlow + 1 }

/-- The cores of the record have entered the flow. -/
def coresEntered (s : State) (q : Queue) (bs : List Byte) (cores : List CoreId) (order : Nat) : State :=
  cores.zipIdx.foldl (enterCore s.now
    (fun rank => entryPump (Record.of bs) s.nextFlow rank cores.length (entryPc s q bs) s.now)
    (fun rank => launchOf (Record.of bs) (s.bytesIn q.space (Record.of bs).image 160) q.space q.num cores rank q.cluster q.slot))
    (flowMade s q bs cores order)

/-- A record is placed: its cores enter the flow and know what the pumphouse knows, and the head of its queue moves on. -/
theorem placeRecord_eq (s : State) (q : Queue) (bs : List Byte) (cores : List CoreId) (order : Nat) :
    s.placeRecord q bs cores order =
      ((cores.foldl (fun t c => t.passOn .house (.pump c)) (coresEntered s q bs cores order)).modQueue q.num.val
        fun y => { y with head := y.head + 1 }).newHead q.num.val := rfl

theorem onlyCores_coresEntered (s : State) (q : Queue) (bs : List Byte) (cores : List CoreId) (order : Nat) :
    OnlyCores (flowMade s q bs cores order)
      (cores.foldl (fun t c => t.passOn .house (.pump c)) (coresEntered s q bs cores order)) :=
  (onlyCores_enterCores ..).trans (onlyOrder_foldl _ _ _ fun t c => onlyOrder_passOn t .house (.pump c) _).onlyCores

theorem placeRecord_flows (s : State) (q : Queue) (bs : List Byte) (cores : List CoreId) (order : Nat) :
    (s.placeRecord q bs cores order).flows = s.flows ++ [placedFlow s q bs cores order] := by
  rw [placeRecord_eq, (onlyHouses_newHead _ _).flows]
  exact (onlyCores_coresEntered s q bs cores order).flows

theorem placeRecord_nextFlow (s : State) (q : Queue) (bs : List Byte) (cores : List CoreId) (order : Nat) :
    (s.placeRecord q bs cores order).nextFlow = s.nextFlow + 1 := by
  rw [placeRecord_eq, (onlyHouses_newHead _ _).nextFlow]
  exact (onlyCores_coresEntered s q bs cores order).nextFlow

theorem placeRecord_queues (s : State) (q : Queue) (bs : List Byte) (cores : List CoreId) (order : Nat) :
    (s.placeRecord q bs cores order).queues =
      s.queues.map fun y => if y.num.val = q.num.val then { y with head := y.head + 1 } else y := by
  have hmade : (flowMade s q bs cores order).queues = s.queues := (onlyMemory_relocate ..).queues
  rw [placeRecord_eq, (onlyHouses_newHead _ _).queues]
  simp only [State.modQueue, (onlyCores_coresEntered s q bs cores order).queues, hmade]

/-- Each core of the group stands at the entry of the image, with its own rank. -/
theorem placeRecord_pump (s : State) (q : Queue) (bs : List Byte) (cores : List CoreId) (order k : Nat) (c : CoreId)
    (hd : cores.Nodup) (hc : cores[k]? = some c) :
    (s.placeRecord q bs cores order).pump c =
      entryPump (Record.of bs) s.nextFlow k cores.length (entryPc s q bs) s.now := by
  have hpass : (cores.foldl (fun t c => t.passOn .house (.pump c)) (coresEntered s q bs cores order)).cores =
      (coresEntered s q bs cores order).cores := by
    rw [onlyOrder_foldl (fun (t : State) c => t.passOn .house (.pump c)) cores (coresEntered s q bs cores order)
      fun t c => onlyOrder_passOn t .house (.pump c) _]
    rfl
  have hcores : (s.placeRecord q bs cores order).cores = (coresEntered s q bs cores order).cores := by
    rw [placeRecord_eq, (onlyHouses_newHead _ _).cores, State.modQueue_cores, hpass]
  simp only [State.pump, State.core, hcores]
  exact pump_enterCores_of_mem _ _ _ cores.zipIdx _ (c, k) (by rwa [List.zipIdx_map_fst])
    (List.mem_zipIdx_iff_getElem?.mpr hc)

/-- The dispatch order of a decision is taken (R416). -/
def orderTaken (s : State) : State := { s with nextOrder := s.nextOrder + 1 }

theorem entryPc_orderTaken (s : State) (q : Queue) (bs : List Byte) : entryPc (orderTaken s) q bs = entryPc s q bs := by
  have ht : SameTables s (orderTaken s) := ⟨rfl, rfl, rfl⟩
  rw [entryPc, entryPc, ht.bytesIn rfl]

/-- The state in which the record of a decision has been placed, before the slots note it. -/
def recordPlaced (s : State) (q : Queue) (bs : List Byte) (cs : List CoreId) : State :=
  (orderTaken s).placeRecord q bs cs s.nextOrder

/-- A ready record of no cluster, with a placement offered, is placed; then levels and ages of slots change (R405). -/
theorem onlyHouses_decide_of_record {s : State} {d : Fin 4} {i : Fin 16} {q : Queue} {bs : List Byte} {cs : List CoreId}
    (hr : s.readyAt d i = some (.record q bs)) (hq : q.cluster = none)
    (hp : s.placeOk [] (Record.of bs) (Fin.ofNat 4 (q.num.val / 64)) cs = true) :
    OnlyHouses (recordPlaced s q bs cs) (s.decide d i [cs]) := by
  have hparty : (s.readyAt d i).bind s.party = some [.record q bs] := by
    simp only [hr, Option.bind_some, State.party, hq, Option.isNone_none, if_true]
  have hplace : s.placeParty [] [.record q bs] [cs] = some [(.record q bs, cs)] := by
    simp only [State.placeParty, List.head?_cons, State.choosePlace, Ready.rec_, Ready.die, Ready.queue, hp, if_true,
      Option.map_some]
  simp only [State.decide, hparty, hplace, Option.orElse, List.any_cons, List.any_nil, State.resumeStops, Bool.or_false,
    Bool.false_eq_true, if_false, List.foldl_cons, List.foldl_nil, State.dispatchOne, List.map_cons, List.map_nil]
  refine .trans (.trans ?_ (onlyHouses_foldl _ _ _ fun t j => onlyHouses_modSlot ..)) (onlyHouses_modHouse ..)
  split
  · exact onlyHouses_modSlot ..
  · exact .refl _

/-- The state in which a decision is made: stale slots are freed, and the slots polled (R405). -/
def slotsPolled (s : State) (d : Fin 4) : State := (fins 16).foldl (fun s i => s.pollSlot d i) (s.unmapStale d)

theorem dispatch_of_pick {s : State} {d : Fin 4} {i : Fin 16} {offers : List (List CoreId)} (hs : s.ringsStuck = false)
    (hi : (slotsPolled s d).pickSlot d = some i) :
    s.dispatch d offers = (((slotsPolled s d).decide d i offers).unmapStale d).houseDone := by
  unfold slotsPolled at *
  simp only [State.dispatch, hs, hi, Bool.false_eq_true, if_false]

theorem exec_dispatchDecision (s : State) (d : Fin 4) (offers : List (List CoreId)) (h : s.shut = false) :
    exec (.dispatchDecision d offers) s = .next (s.dispatch d offers) := by
  show execDispatchDecision d offers s = _
  simp [execDispatchDecision, h]

theorem exec_dispatchDecision_of_stuck (s : State) (d : Fin 4) (offers : List (List CoreId)) (h : s.shut = false)
    (hs : s.ringsStuck = true) : exec (.dispatchDecision d offers) s = .next s := by
  rw [exec_dispatchDecision s d offers h]
  simp only [State.dispatch, hs, if_true]

/-- What DISPATCH_DECISION does with a record of no cluster that it has picked and has a placement for. -/
theorem exec_dispatchDecision_of_record {s : State} {d : Fin 4} {i : Fin 16} {q : Queue} {bs : List Byte} {cs : List CoreId}
    (h : s.shut = false) (hs : s.ringsStuck = false) (hi : (slotsPolled s d).pickSlot d = some i)
    (hr : (slotsPolled s d).readyAt d i = some (.record q bs)) (hq : q.cluster = none)
    (hp : (slotsPolled s d).placeOk [] (Record.of bs) (Fin.ofNat 4 (q.num.val / 64)) cs = true) :
    ∃ t, exec (.dispatchDecision d [cs]) s = .next t ∧ OnlyHouses (recordPlaced (slotsPolled s d) q bs cs) t := by
  refine ⟨_, exec_dispatchDecision s d [cs] h, ?_⟩
  rw [dispatch_of_pick hs hi]
  exact ((onlyHouses_decide_of_record hr hq hp).trans (onlyHouses_modHouse ..)).trans (onlyOrder_houseDone _).onlyHouses

/-- The queue of a ready record is the created one of its number. -/
theorem queue?_of_readyAt {s : State} {d : Fin 4} {i : Fin 16} {q : Queue} {bs : List Byte}
    (h : s.readyAt d i = some (.record q bs)) : s.queue? q.num.val = some q := by
  have hq : ∃ n, s.queue? n = some q := by
    simp only [State.readyAt] at h
    split at h
    · cases h
    · next x _ =>
      refine ⟨x.queue.val, ?_⟩
      split at h
      · cases h
      · split at h
        · split at h <;> simp at h
        · next hq =>
          split at h
          · cases h; exact hq
          · cases h
        · cases h
  obtain ⟨n, hn⟩ := hq
  have hnum : q.num.val = n := by simpa using List.find?_some hn
  rw [hnum, hn]

/-- The queue of a number, where every queue of that number has been changed. -/
theorem queue?_of_queues_map {s t : State} (n : Nat) (f : Queue → Queue) (hf : ∀ x, (f x).num = x.num)
    (h : t.queues = s.queues.map fun x => if x.num.val = n then f x else x) : t.queue? n = (s.queue? n).map f := by
  simp only [State.queue?, h]
  induction s.queues with
  | nil => rfl
  | cons x xs ih =>
    by_cases hx : x.num.val = n
    · simp [hx, hf]
    · simp [hx, ih]

section
variable (s : State) (q : Queue) (bs : List Byte) (cs : List CoreId)

theorem recordPlaced_flows : (recordPlaced s q bs cs).flows = s.flows ++ [placedFlow s q bs cs s.nextOrder] :=
  placeRecord_flows ..

theorem recordPlaced_nextFlow : (recordPlaced s q bs cs).nextFlow = s.nextFlow + 1 := placeRecord_nextFlow ..

theorem recordPlaced_queue? : (recordPlaced s q bs cs).queue? q.num.val =
    (s.queue? q.num.val).map fun y => { y with head := y.head + 1 } :=
  queue?_of_queues_map (s := s) q.num.val _ (fun _ => rfl) (placeRecord_queues ..)

theorem recordPlaced_pump (k : Nat) (c : CoreId) (hd : cs.Nodup) (hc : cs[k]? = some c) :
    (recordPlaced s q bs cs).pump c = entryPump (Record.of bs) s.nextFlow k cs.length (entryPc s q bs) s.now := by
  rw [← entryPc_orderTaken]
  exact placeRecord_pump (orderTaken s) q bs cs s.nextOrder k c hd hc

end

/-- Settles O56: the queue that QUEUE_MAP maps, what a poll makes of a slot, and the cores of the record that a decision places,
each from the lemma above about that event. -/
theorem recordsAreMappedPolledAndDispatched : Obligations.RecordsAreMappedPolledAndDispatched := by
  unfold Obligations.RecordsAreMappedPolledAndDispatched
  intro s d i q bs x code cs r m v u hdr hs
  have hm : m = bellsRead s d := rfl
  have hu : u = slotsPolled s d := rfl
  refine ⟨?map, ?poll, exec_dispatchDecision_of_stuck s d [cs] hs, ?dispatch⟩
  case map =>
    rw [hm]
    intro hq hi
    obtain ⟨t, ht, hframe, hlast, hhouses, hslots, hslot⟩ := exec_queueMap_of_single s d q.num i hs hq hi
    exact ⟨t, ht, hframe, hlast, hhouses, hslots, _, hslot, rfl, rfl, rfl, rfl⟩
  case poll =>
    intro hx hp hh hq
    have hv : v = s.readBellOf x.queue.val := by simp only [v, hx]; rfl
    rw [hv] at hh ⊢
    refine ⟨fun hc => ?_, exec_dependencePoll_of_reject hx hp hh hq hs⟩
    obtain ⟨t, ht, hframe, hslot⟩ := exec_dependencePoll_of_ok hx hp hh hq hs hc
    exact ⟨t, ht, hframe, hslot.trans (congrArg some (polledSlot_eq (onlyOrder_readBellOf s _) q bs x hc))⟩
  case dispatch =>
    have hpc : r.image + BitVec.ofNat 64 (fieldAt hdr 0x08 8) = entryPc u q bs := rfl
    rw [hpc, hu]
    intro hstuck hpick hready hcluster hplace
    obtain ⟨t, ht, hframe⟩ := exec_dispatchDecision_of_record hs hstuck hpick hready hcluster hplace
    have hpumps := fun k c => recordPlaced_pump (slotsPolled s d) q bs cs k c (nodup_of_placeOk hplace)
    generalize slotsPolled s d = w at hready hframe hpumps ⊢
    have hhead : t.queue? q.num.val = (recordPlaced w q bs cs).queue? q.num.val := by
      rw [State.queue?, hframe.queues]; rfl
    refine ⟨t, placedFlow w q bs cs w.nextOrder, ht, ?_, rfl, rfl, rfl, rfl, rfl, ?_, ?_, fun k c hk => ?_⟩
    · rw [hframe.flows, recordPlaced_flows]
    · rw [hframe.nextFlow, recordPlaced_nextFlow]
    · rw [hhead, recordPlaced_queue?, queue?_of_readyAt hready]; rfl
    · have hpump := hpumps k c hk
      rw [State.pump, State.core, ← hframe.cores] at hpump
      rw [State.pump, State.core, hpump]
      exact ⟨rfl, rfl, rfl, rfl, rfl, rfl, fun y => read_entryPump ..⟩

end Sys2Proof

/-! Decoding inverts encoding (R50 to R72): the fields of a packed word, the codes of the operands, and each instruction read
back from its word. -/

namespace Sys2Proof

/-! ### Parts of a word -/

/-- The bits that a widening has kept. -/
theorem extractLsb'_zero_setWidth {n m : Nat} (x : BitVec n) (h : n ≤ m) : (x.setWidth m).extractLsb' 0 n = x := by
  rw [← BitVec.setWidth_eq_extractLsb' h, BitVec.setWidth_setWidth_of_le _ h, BitVec.setWidth_eq]

/-! ### The fields of the six formats (R50) -/

section
variable (opc : BitVec 8) (d a b c ga : BitVec 7) (m fmt n : BitVec 8) (imm : BitVec 32) (tbl : BitVec 10)
  (label fn : BitVec 16) (qd qa qb qc : BitVec 4) (h : BitVec 6) (size : BitVec 20)

@[simp] theorem opcField_packR : opcField (packR opc d a b c m) = opc := by
  unfold opcField packR
  repeat rw [BitVec.extractLsb'_append_eq_of_le (by omega)]
  exact BitVec.extractLsb'_eq_self

@[simp] theorem packR_registers :
    (packR opc d a b c m).extractLsb' 49 7 = d ∧ (packR opc d a b c m).extractLsb' 42 7 = a ∧
      (packR opc d a b c m).extractLsb' 35 7 = b ∧ (packR opc d a b c m).extractLsb' 28 7 = c := by
  unfold packR
  refine ⟨?_, ?_, ?_, ?_⟩
  all_goals
    repeat rw [BitVec.extractLsb'_append_eq_of_le (by omega)]
    exact BitVec.extractLsb'_append_eq_right

theorem packR_mod {j k : Nat} (hj : 20 ≤ j) (hk : j + k ≤ 28) :
    (packR opc d a b c m).extractLsb' j k = m.extractLsb' (j - 20) k := by
  unfold packR
  rw [BitVec.extractLsb'_append_eq_of_le hj, BitVec.extractLsb'_append_eq_of_add_le (by omega)]

@[simp] theorem packR_bit : (packR opc d a b c m)[24] = m[4] := by
  rw [← BitVec.getLsbD_eq_getElem, packR, BitVec.getLsbD_append, if_neg (by omega), BitVec.getLsbD_append, if_pos (by omega)]
  rfl

@[simp] theorem opcField_packI : opcField (packI opc d a m imm) = opc := by
  unfold opcField packI
  repeat rw [BitVec.extractLsb'_append_eq_of_le (by omega)]
  exact BitVec.extractLsb'_eq_self

@[simp] theorem packI_registers :
    (packI opc d a m imm).extractLsb' 49 7 = d ∧ (packI opc d a m imm).extractLsb' 42 7 = a := by
  unfold packI
  refine ⟨?_, ?_⟩
  all_goals
    repeat rw [BitVec.extractLsb'_append_eq_of_le (by omega)]
    exact BitVec.extractLsb'_append_eq_right

@[simp] theorem packI_atom (q : BitVec 4) : (packI opc (q.setWidth 7) a m imm).extractLsb' 49 4 = q := by
  unfold packI
  repeat rw [BitVec.extractLsb'_append_eq_of_le (by omega)]
  rw [BitVec.extractLsb'_append_eq_of_add_le (by omega)]
  exact extractLsb'_zero_setWidth q (by omega)

theorem packI_mod {j k : Nat} (hj : 32 ≤ j) (hk : j + k ≤ 40) :
    (packI opc d a m imm).extractLsb' j k = m.extractLsb' (j - 32) k := by
  unfold packI
  rw [BitVec.extractLsb'_append_eq_of_le hj, BitVec.extractLsb'_append_eq_of_add_le (by omega)]

theorem packI_bit {j : Nat} (hj : 32 ≤ j) (hk : j < 40) :
    (packI opc d a m imm)[j]'(by omega) = m[j - 32]'(by omega) := by
  rw [← BitVec.getLsbD_eq_getElem, packI, BitVec.getLsbD_append, if_neg (by omega), BitVec.getLsbD_append,
    if_pos (by omega), BitVec.getLsbD_eq_getElem]

theorem packI_imm {j k : Nat} (hk : j + k ≤ 32) : (packI opc d a m imm).extractLsb' j k = imm.extractLsb' j k := by
  unfold packI
  rw [BitVec.extractLsb'_append_eq_of_add_le hk]

@[simp] theorem imm32_packI : imm32 (packI opc d a m imm) = imm := BitVec.extractLsb'_append_eq_right

@[simp] theorem opcField_packB : opcField (packB opc a b imm) = opc := by
  unfold opcField packB
  repeat rw [BitVec.extractLsb'_append_eq_of_le (by omega)]
  exact BitVec.extractLsb'_eq_self

@[simp] theorem packB_registers :
    (packB opc a b imm).extractLsb' 42 7 = a ∧ (packB opc a b imm).extractLsb' 35 7 = b := by
  unfold packB
  refine ⟨?_, ?_⟩
  all_goals
    repeat rw [BitVec.extractLsb'_append_eq_of_le (by omega)]
    exact BitVec.extractLsb'_append_eq_right

@[simp] theorem imm32_packB : imm32 (packB opc a b imm) = imm := BitVec.extractLsb'_append_eq_right

@[simp] theorem opcField_packT : opcField (packT opc d a tbl label) = opc := by
  unfold opcField packT
  repeat rw [BitVec.extractLsb'_append_eq_of_le (by omega)]
  exact BitVec.extractLsb'_eq_self

@[simp] theorem packT_fields :
    (packT opc d a tbl label).extractLsb' 42 7 = a ∧ (packT opc d a tbl label).extractLsb' 32 10 = tbl ∧
      (packT opc d a tbl label).extractLsb' 16 16 = label := by
  unfold packT
  refine ⟨?_, ?_, ?_⟩
  all_goals
    repeat rw [BitVec.extractLsb'_append_eq_of_le (by omega)]
    exact BitVec.extractLsb'_append_eq_right

@[simp] theorem opcField_packQ : opcField (packQ opc qd qa qb qc ga fmt fn) = opc := by
  unfold opcField packQ
  repeat rw [BitVec.extractLsb'_append_eq_of_le (by omega)]
  exact BitVec.extractLsb'_eq_self

@[simp] theorem packQ_operands :
    qdF (packQ opc qd qa qb qc ga fmt fn) = qd ∧ qaF (packQ opc qd qa qb qc ga fmt fn) = qa ∧
      qbF (packQ opc qd qa qb qc ga fmt fn) = qb ∧ (packQ opc qd qa qb qc ga fmt fn).extractLsb' 40 4 = qc ∧
      (packQ opc qd qa qb qc ga fmt fn).extractLsb' 33 7 = ga ∧ fnField (packQ opc qd qa qb qc ga fmt fn) = fn := by
  unfold qdF qaF qbF fnField packQ
  refine ⟨?_, ?_, ?_, ?_, ?_, ?_⟩
  all_goals
    repeat rw [BitVec.extractLsb'_append_eq_of_le (by omega)]
    exact BitVec.extractLsb'_append_eq_right

@[simp] theorem packQ_fmt : (packQ opc qd qa qb qc ga fmt fn).extractLsb' 16 4 = fmt.extractLsb' 0 4 := by
  unfold packQ
  rw [BitVec.extractLsb'_append_eq_of_le (by omega), BitVec.extractLsb'_append_eq_of_add_le (by omega)]

theorem packQ_fn {k : Nat} (hk : k ≤ 16) :
    (packQ opc qd qa qb qc ga fmt fn).extractLsb' 0 k = fn.extractLsb' 0 k := by
  unfold packQ
  rw [BitVec.extractLsb'_append_eq_of_add_le (by omega)]

@[simp] theorem opcField_packS : opcField (packS opc h n a b m size) = opc := by
  unfold opcField packS
  repeat rw [BitVec.extractLsb'_append_eq_of_le (by omega)]
  exact BitVec.extractLsb'_eq_self

@[simp] theorem packS_fields :
    hF (packS opc h n a b m size) = h ∧ nF (packS opc h n a b m size) = n ∧
      (packS opc h n a b m size).extractLsb' 35 7 = a ∧ (packS opc h n a b m size).extractLsb' 0 20 = size := by
  unfold hF nF packS
  refine ⟨?_, ?_, ?_, ?_⟩
  all_goals
    repeat rw [BitVec.extractLsb'_append_eq_of_le (by omega)]
    exact BitVec.extractLsb'_append_eq_right

@[simp] theorem packS_level : (packS opc h n a b m size).extractLsb' 42 3 = n.extractLsb' 0 3 := by
  unfold packS
  repeat rw [BitVec.extractLsb'_append_eq_of_le (by omega)]
  rw [BitVec.extractLsb'_append_eq_of_add_le (by omega)]

@[simp] theorem packS_mod : (packS opc h n a b m size).extractLsb' 20 4 = m.extractLsb' 0 4 := by
  unfold packS
  rw [BitVec.extractLsb'_append_eq_of_le (by omega), BitVec.extractLsb'_append_eq_of_add_le (by omega)]

@[simp] theorem packS_bit : (packS opc h n a b m size)[20] = m[0] := by
  rw [← BitVec.getLsbD_eq_getElem, packS, BitVec.getLsbD_append, if_neg (by omega), BitVec.getLsbD_append, if_pos (by omega)]
  rfl

end

/-! ### Codes of the operand fields -/

@[simp] theorem Reg.ofCode?_code (r : Reg) : Reg.ofCode? r.code = some r := by
  unfold Reg.ofCode? Reg.code
  cases r with
  | g i => revert i; decide
  | k i => revert i; decide
  | last => decide

@[simp] theorem Scope.ofCode?_code (x : Scope) : Scope.ofCode? x.code = some x := by cases x <;> rfl
@[simp] theorem Fmt.ofCode?_code (x : Fmt) : Fmt.ofCode? x.code = some x := by cases x <;> rfl
@[simp] theorem Cond.ofCode_code (x : Cond) : Cond.ofCode x.code = x := by cases x <;> rfl
@[simp] theorem CvtKind.ofCode?_code (x : CvtKind) : CvtKind.ofCode? x.code = some x := by cases x <;> rfl
@[simp] theorem LdSize.ofCode?_code (x : LdSize) : LdSize.ofCode? x.code = some x := by cases x <;> rfl
@[simp] theorem StSize.ofCode?_code (x : StSize) : StSize.ofCode? x.code = some x := by cases x <;> rfl
@[simp] theorem PrefKind.ofCode?_code (x : PrefKind) : PrefKind.ofCode? x.code = some x := by cases x <;> rfl
@[simp] theorem IntFmt.ofCode?_code (x : IntFmt) : IntFmt.ofCode? (x.code.setWidth 16) = some x := by cases x <;> rfl
@[simp] theorem AmoOp.ofCode?_code (x : AmoOp) : AmoOp.ofCode? x.code = some x := by cases x <;> rfl
@[simp] theorem NmaOp.ofCode?_code (x : NmaOp) : NmaOp.ofCode? x.code = some x := by cases x <;> rfl
@[simp] theorem MapFn.ofCode?_code (x : MapFn) : MapFn.ofCode? x.code = some x := by cases x <;> rfl
@[simp] theorem Dist.ofCode_code (x : Dist) : Dist.ofCode x.code = x := by cases x <;> rfl
@[simp] theorem SReg.ofCode?_code (x : SReg) : SReg.ofCode? x.code = some x := by cases x <;> rfl

@[simp] theorem AmoOrd.ofCode_code (x : AmoOrd) : AmoOrd.ofCode x.code = x := by
  cases x with
  | relaxed => rfl
  | acq s => cases s <;> rfl
  | rel s => cases s <;> rfl
  | ar s => cases s <;> rfl

/-- The code of `cas` is that of no other operation (R70). -/
@[simp] theorem AmoOp.code_ne_cas (x : AmoOp) : x.code ≠ 0xA#4 := by cases x <;> decide

@[simp] theorem scope0?_scopeCode (x : Option Scope) : scope0? (scopeCode x) = some x := by
  cases x with
  | none => rfl
  | some s => cases s <;> rfl

/-! ### Fields of several parts -/

section
variable (opc : BitVec 8) (qd qa qb qc : BitVec 4) (ga : BitVec 7) (fn : BitVec 16)

@[simp] theorem fmtField?_packQ (f : Fmt) : fmtField? (packQ opc qd qa qb qc ga (f.code.setWidth 8) fn) = some f := by
  rw [fmtField?, packQ_fmt, extractLsb'_zero_setWidth _ (by omega), Fmt.ofCode?_code]

@[simp] theorem fmt0?_packQ (f : Option Fmt) : fmt0? (packQ opc qd qa qb qc ga (fmtCode0 f) fn) = some f := by
  unfold fmt0?
  cases f with
  | none => rw [packQ_fmt]; rfl
  | some f =>
    have hz : f.code ≠ 0#4 := by cases f <;> decide
    rw [packQ_fmt, fmtCode0, extractLsb'_zero_setWidth _ (by omega), if_neg hz, fmtField?_packQ, Option.map_some]

end

@[simp] theorem memMod_parts (scope size : BitVec 3) (cis : Bool) :
    (memMod scope cis size).extractLsb' 0 3 = size ∧ (memMod scope cis size)[3] = cis ∧
      (memMod scope cis size).extractLsb' 4 3 = scope := by
  revert scope size cis
  decide

/-- A four-bit code below one bit, as `fcvt`, `ldq` and `stq` carry it (R58, R62). -/
@[simp] theorem bitAndCode_parts (b : Bool) (x : BitVec 4) :
    ((BitVec.ofBool b ++ x).setWidth 8).extractLsb' 0 4 = x ∧ (BitVec.ofBool b ++ x)[4] = b := by
  revert b x
  decide

@[simp] theorem ordAndOp_parts (ord op : BitVec 4) :
    (ord ++ op : BitVec 8).extractLsb' 0 4 = op ∧ (ord ++ op : BitVec 8).extractLsb' 4 4 = ord :=
  ⟨BitVec.extractLsb'_append_eq_right, BitVec.extractLsb'_append_eq_left⟩

@[simp] theorem bitField_parts (lsb len : BitVec 6) :
    (len.setWidth 24 ++ lsb.setWidth 8 : BitVec 32).extractLsb' 0 6 = lsb ∧
      (len.setWidth 24 ++ lsb.setWidth 8 : BitVec 32).extractLsb' 8 6 = len := by
  constructor
  · rw [BitVec.extractLsb'_append_eq_of_add_le (by omega), extractLsb'_zero_setWidth _ (by omega)]
  · rw [BitVec.extractLsb'_append_eq_of_le (by omega), extractLsb'_zero_setWidth _ (by omega)]

@[simp] theorem ctx0_ctxCode (x : Option (BitVec 3)) : ctx0 ((ctxCode x).extractLsb' 0 4) = x := by
  cases x with
  | none => rfl
  | some c => revert c; decide

@[simp] theorem outBit (b : Bool) : ((BitVec.ofBool b).setWidth 8)[0] = b := by cases b <;> rfl

@[simp] theorem cfgs_parts (region : BitVec 3) (plane : BitVec 2) :
    ((plane ++ region.setWidth 4).setWidth 32).extractLsb' 0 3 = region ∧
      ((plane ++ region.setWidth 4).setWidth 32).extractLsb' 4 2 = plane := by
  revert region plane
  decide

@[simp] theorem cfgp_parts (region : BitVec 3) (pt pf : BitVec 2) :
    ((pf ++ (pt ++ region.setWidth 4).setWidth 8).setWidth 32).extractLsb' 0 3 = region ∧
      ((pf ++ (pt ++ region.setWidth 4).setWidth 8).setWidth 32).extractLsb' 4 2 = pt ∧
      ((pf ++ (pt ++ region.setWidth 4).setWidth 8).setWidth 32).extractLsb' 8 2 = pf := by
  revert region pt pf
  decide

/-! ### Reading back (R56 to R66) -/


/-- The fields of the word of a pump instruction are those of the instruction: by the major opcode the row is found, and in it
every field reads back what its format packed. -/
theorem fieldsOf_encode (i : Instr) (h : i.isPump = true) : fieldsOf (encode i) = some i := by
  cases i
  case nmf | gsw | eret | halt | yield | nop | brk =>
    change fieldsOf (packR _ _ _ _ _ _) = _
    rw [fieldsOf, opcField_packR]
    rfl
  case add | sub | and | or | xor | andn | shl | shr | sar | rol | min | max | minn | maxn | slt | sltn | mov | mul | mulh
      | mulhn | div | divn | rem | remn | madd | clz | ctz | popc | seq | sne | sel | fadd | fsub | fmul | ffma | fdiv | fsqrt
      | fmin | fmax | fcmp | fcvt | fcls | ret | fence | cfgl | gld | gq | dqpush | launch | dqpop | dqlen | dqsteal | notify
      | bara | barw | bar =>
    change fieldsOf (packR _ _ _ _ _ _) = _
    rw [fieldsOf, opcField_packR]
    change (_ >>= _) = _
    simp [packR_mod, extractLsb'_zero_setWidth]
  case amo | amoCas =>
    change fieldsOf (packR _ _ _ _ _ _) = _
    rw [fieldsOf, opcField_packR]
    change ite _ _ _ = _
    simp [packR_mod]
  case addi | andi | ori | xori | shli | shri | sari | roli | slti | li | lih | movk | agen | bfx | bfi | ld | st | lds | stf
      | ldq | stq | pref | nma | cfgq | srd | swr | feat =>
    change fieldsOf (packI _ _ _ _ _) = _
    rw [fieldsOf, opcField_packI]
    change (_ >>= _) = _
    simp [packI_mod, packI_bit, packI_imm, extractLsb'_zero_setWidth]
  case cfgs | cfgp | drain | grel | trap =>
    change fieldsOf (packI _ _ _ _ _) = _
    rw [fieldsOf, opcField_packI]
    change some _ = _
    simp [packI_imm, extractLsb'_zero_setWidth]
  case beq | bne | blt | bge | bltn | bgen | dbnz =>
    change fieldsOf (packB _ _ _ _) = _
    rw [fieldsOf, opcField_packB]
    change (_ >>= _) = _
    simp
  case jmp | call =>
    change fieldsOf (packB _ _ _ _) = _
    rw [fieldsOf, opcField_packB]
    change some _ = _
    simp
  case jt | callt =>
    change fieldsOf (packT _ _ _ _ _) = _
    rw [fieldsOf, opcField_packT]
    change (_ >>= _) = _
    simp
  case land =>
    change fieldsOf (packT _ _ _ _ _) = _
    rw [fieldsOf, opcField_packT]
    change some _ = _
    simp
  case aimp | aexp | aenc | aadd | asub | amul | afma | adot | amap | amsk | acmp | ascl | again | aidx | acvt | arnd =>
    change fieldsOf (packQ _ _ _ _ _ _ _ _) = _
    rw [fieldsOf, opcField_packQ]
    change (_ >>= _) = _
    simp [packQ_fn, extractLsb'_zero_setWidth]
  case adec | apat =>
    change fieldsOf (packQ _ _ _ _ _ _ _ _) = _
    rw [fieldsOf, opcField_packQ]
    change some _ = _
    simp
  case hset | strm | waith | wptr | sbar =>
    change fieldsOf (packS _ _ _ _ _ _ _) = _
    rw [fieldsOf, opcField_packS]
    change (_ >>= _) = _
    simp
  case advh | stop | mark | kick =>
    change fieldsOf (packS _ _ _ _ _ _ _) = _
    rw [fieldsOf, opcField_packS]
    change some _ = _
    simp [extractLsb'_zero_setWidth]
  all_goals cases h

/-- A word whose fields name an instruction has an opcode of the grid (R56). -/
theorem opcodeAssigned_of_fieldsOf {w : Word} {i : Instr} (h : fieldsOf w = some i) : opcodeAssigned (opcField w) = true := by
  unfold fieldsOf at h
  split at h
  case h_136 => cases h
  all_goals
    next e => rw [e]; rfl

theorem Instr.isPump_of_wf {i : Instr} (h : i.wf = true) : i.isPump = true := by
  cases i
  case add | bfx | bfi | aenc | arnd | hset | waith | advh | stop | swr => rfl
  all_goals exact h

/-- Settles O6: the word of an instruction holds its fields, so that its opcode is assigned, and only the excluded
`add g0, g0, g0` has the all-zero word (R52). -/
theorem decodingInvertsEncoding : Obligations.DecodingInvertsEncoding := by
  intro i hi
  have hf := fieldsOf_encode i (Instr.isPump_of_wf hi)
  have hz : encode i ≠ 0#64 := by
    intro h0
    rw [h0] at hf
    have : i = .add (.g 0) (.g 0) (.g 0) := Option.some.inj (hf.symm.trans (by decide))
    rw [this] at hi
    exact absurd hi (by decide)
  simp [decode, hz, opcodeAssigned_of_fieldsOf hf, hf, hi]

end Sys2Proof

/-! A pump's turn (R49, R98, R116): what its fetch reads, which instruction or event it runs, and the traps and the wait of a
fetch that gives no instruction. -/

namespace Sys2Proof

open Machine

/-! ### A fetch does not depend on the fields of a pump -/

@[simp] theorem launch_modPump_self (s : State) (c : CoreId) (f : Pump → Pump) : (s.modPump c f).launch c = s.launch c := by
  simp [State.launch, State.core_modPump_self]

theorem sameTables_modPump (s : State) (c : CoreId) (f : Pump → Pump) : SameTables s (s.modPump c f) := ⟨rfl, rfl, rfl⟩

theorem translate_modPump (s : State) (c : CoreId) (f : Pump → Pump) (va : Word) (n : Need) :
    (s.modPump c f).translate c va n = s.translate c va n := by
  have hspaces : (s.modPump c f).spaces = s.spaces := rfl
  simp only [State.translate, State.walkFor, State.walkStart, (sameTables_modPump s c f).walkFrom, launch_modPump_self,
    State.core_modPump_self, hspaces]

theorem view_modPump (s : State) (c d : CoreId) (f : Pump → Pump) (pa n : Nat) :
    (s.modPump d f).view c pa n = s.view c pa n := by
  rw [State.view_eq_map, State.view_eq_map]
  rfl

theorem fetchWord_modPump (s : State) (c : CoreId) (f : Pump → Pump) (a : Word) :
    (s.modPump c f).fetchWord c a = s.fetchWord c a := by
  simp only [State.fetchWord, State.paOf, translate_modPump, view_modPump]
  rfl

theorem fetchWord_of_at {s : State} {c : CoreId} {a : Word} {pa : Nat} (ht : s.translate c a .fetch = .at pa)
    (hl : s.lineStop pa a = none) : s.fetchWord c a = .ok (leWord (s.view c pa 8)) := by
  simp only [State.fetchWord, State.paOf, ht]
  change (guardStop (s.lineStop pa a) >>= fun _ => pure (leWord (s.view c pa 8))) = _
  rw [hl]
  rfl

theorem fetchTry_of_inCode {s : State} {c : CoreId} (h : (s.launch c).inCode (s.pump c).pc = true) :
    s.fetchTry c = s.fetchWord c (s.pump c).pc := if_pos h

theorem fetchTry_of_not_inCode {s : State} {c : CoreId} (h : (s.launch c).inCode (s.pump c).pc = false) :
    s.fetchTry c = .error (fault 0x04 (s.pump c).pc) := if_neg (by simp [h])

theorem fetchTry_of_at {s : State} {c : CoreId} {pa : Nat} (hc : (s.launch c).inCode (s.pump c).pc = true)
    (ht : s.translate c (s.pump c).pc .fetch = .at pa) (hl : s.lineStop pa (s.pump c).pc = none) :
    s.fetchTry c = .ok (leWord (s.view c pa 8)) := (fetchTry_of_inCode hc).trans (fetchWord_of_at ht hl)

theorem fetchTry_of_absent {s : State} {c : CoreId} (hc : (s.launch c).inCode (s.pump c).pc = true)
    (ht : s.translate c (s.pump c).pc .fetch = .absent) : s.fetchTry c = .error (.page (s.pump c).pc Need.fetch.access) := by
  rw [fetchTry_of_inCode hc]
  simp only [State.fetchWord, State.paOf, ht]
  rfl

/-! ### The turn of a pump that can issue (R98) -/

/-- The pump of core `c` runs and waits for nothing, no pre-emption and no asynchronous trap stands before its next
instruction (R98, R120, R417), and the part is not shut down (R483). -/
structure CanIssue (s : State) (c : CoreId) : Prop where
  shut : s.shut = false
  run : (s.pump c).run = .running
  block : (s.pump c).block = none
  page : (s.pump c).page = none
  asyncs : (s.pump c).ht = true ∨ (s.pump c).asyncs = []
  ypend : (s.pump c).ypend = false

/-- `s` at the moment when the pump of core `c` issues. -/
def issuing (s : State) (c : CoreId) : State := s.modPump c fun p => { p with issuedAt := s.now }

theorem pump_issuing (s : State) (c : CoreId) : (issuing s c).pump c = { s.pump c with issuedAt := s.now } :=
  State.pump_modPump_self s c _

theorem fetchTry_issuing (s : State) (c : CoreId) : (issuing s c).fetchTry c = s.fetchTry c := by
  simp only [issuing, State.fetchTry, launch_modPump_self, State.pump_modPump_self, fetchWord_modPump]

section
variable {s : State} {c : CoreId} (h : CanIssue s c)
include h

theorem CanIssue.not_asyncReady : (s.pump c).asyncReady = false := by
  rcases h.asyncs with ht | ha
  · simp [Pump.asyncReady, ht]
  · simp [Pump.asyncReady, ha]

/-- A pump that can issue runs the instruction that the word at its pc decodes to. -/
theorem turn_of_instruction {w : Word} {i : Instr} (hw : s.fetchTry c = .ok w) (hd : decode w = .ok i) :
    s.turn c = .run i ((issuing s c).issue c i) := by
  rw [← fetchTry_issuing, issuing] at hw
  simp only [State.turn, h.shut, h.run, h.block, h.page, h.ypend, h.not_asyncReady, hw, hd]
  rfl

theorem turn_of_illegal {w : Word} {e : Reject} (hw : s.fetchTry c = .ok w) (hd : decode w = .error e) :
    s.turn c = .run (.illegalInstruction w) (issuing s c) := by
  rw [← fetchTry_issuing, issuing] at hw
  simp only [State.turn, h.shut, h.run, h.block, h.page, h.ypend, h.not_asyncReady, hw, hd]
  rfl

theorem turn_of_no_word {e : Stop} (hw : s.fetchTry c = .error e) : s.turn c = .run .instructionFetch (issuing s c) := by
  rw [← fetchTry_issuing, issuing] at hw
  simp only [State.turn, h.shut, h.run, h.block, h.page, h.ypend, h.not_asyncReady, hw]
  rfl

end

theorem step_of_pump_turn {s u : State} {c : CoreId} {i : Instr} {t : State} (hn : s.nextAct = (u, .pump c))
    (ht : { u with cur := c }.turn c = .run i t) : step s = exec i t := by
  simp only [step, hn, pumpStep, ht]

theorem step_of_event {s u : State} {i : Instr} (hn : s.nextAct = (u, .event i)) :
    step s = if u.happens i then exec i u else .next u := by
  simp only [step, hn]

/-! ### The issue of an instruction (R485) -/

/-- An issue changes what the pump has loaded, and more is seen; nothing else. -/
theorem issue_spec (s : State) (c : CoreId) (i : Instr) : OnlyPumpAndOrder c s (s.issue c i) ∧
    (s.issue c i).pump c = { s.pump c with loads := ((s.issue c i).pump c).loads } := by
  unfold State.issue
  split
  · exact ⟨⟨OnlyPump.refl c s, SeesMore.refl s⟩, rfl⟩
  · refine ⟨⟨?_, fun e he => seesMore_keepLag s _ e he⟩, ?_⟩
    · simp only [State.pump_modPump_self]
      rfl
    · simp only [State.pump_modPump_self]
      rfl

theorem OnlyPump.trans_order {c : CoreId} {s t u : State} (h : OnlyPump c s t) (k : OnlyPumpAndOrder c t u) :
    OnlyPumpAndOrder c s u := by
  obtain ⟨hu, hs⟩ := k
  have hst : t.stale = s.stale := by rw [h]; rfl
  refine ⟨?_, fun e he => ?_⟩
  · rw [h, modPump_modPump] at hu
    exact hu
  · rw [SeesMore, hst] at hs
    exact hs e he

/-- Settles O3: a pump that can issue takes the word at its pc and runs the instruction that the word decodes to; an event
runs by the definition of a step. -/
theorem stepRunsTheDecodedInstruction : Obligations.StepRunsTheDecodedInstruction := by
  refine ⟨?_, fun s u i hn => step_of_event hn⟩
  intro s u c i pa hn v hshut hrun hblock hpage hasync hypend hcode htrans hline hdec w
  have hturn : v.turn c = .run i (w.issue c i) :=
    turn_of_instruction ⟨hshut, hrun, hblock, hpage, hasync, hypend⟩ (fetchTry_of_at hcode htrans hline) hdec
  obtain ⟨horder, hpump⟩ := issue_spec w c i
  refine ⟨step_of_pump_turn hn hturn, (onlyPump_modPump v c _).trans_order horder, ?_⟩
  exact hpump.trans (by rw [show w.pump c = _ from State.pump_modPump_self v c _])

/-! ### A fetch that gives no instruction (R51, R52, R116 to R118, R434) -/

theorem faults_illegalInstruction {s : State} (w : Word) (h : CanTrap (s.pump s.cur)) :
    Faults (.illegalInstruction w) s 0x01 w := faults_of _ _ _ _ (.error (fault 0x01 w)) rfl rfl h

theorem exec_instructionFetch_of_ok {s : State} {w : Word} (h : s.fetchTry s.cur = .ok w) :
    exec .instructionFetch s = .next s := by
  simp only [exec, execInstructionFetch, h]

theorem exec_instructionFetch_of_error {s : State} {e : Stop} (h : s.fetchTry s.cur = .error e) :
    exec .instructionFetch s = .next (s.fetchStop s.cur e) := by
  simp only [exec, execInstructionFetch, h]

theorem faults_instructionFetch {s : State} (hc : (s.launch s.cur).inCode (s.pump s.cur).pc = false)
    (h : CanTrap (s.pump s.cur)) : Faults .instructionFetch s 0x04 (s.pump s.cur).pc :=
  faults_of _ _ _ _ (.error (fault 0x04 (s.pump s.cur).pc)) (exec_instructionFetch_of_error (fetchTry_of_not_inCode hc)) rfl h

/-- A fault in the turn of a pump that issues is the step's, at the pc of the pump. -/
theorem step_faults_of_turn {s u : State} {c : CoreId} {i : Instr} {code : Code} {tval : Word}
    (hn : s.nextAct = (u, .pump c)) (ht : { u with cur := c }.turn c = .run i (issuing { u with cur := c } c))
    (hf : Faults i (issuing { u with cur := c } c) code tval) :
    ∃ t, step s = .next t ∧ OnlyPump c { u with cur := c } t ∧
      Entered { { u with cur := c }.pump c with issuedAt := { u with cur := c }.now } (t.pump c) (precise code tval)
        ({ u with cur := c }.pump c).pc := by
  obtain ⟨t, he, honly, hent⟩ := hf
  have hcur : (issuing { u with cur := c } c).cur = c := rfl
  rw [hcur] at honly hent
  rw [pump_issuing] at hent
  exact ⟨t, (step_of_pump_turn hn ht).trans he, (onlyPump_modPump _ c _).trans honly, hent⟩

theorem OnlyMemory.requests {s t : State} (h : OnlyMemory s t) : t.requests = s.requests := by rw [h]

section
variable (s : State) (va : Word) (access : BitVec 3) (requester : Byte) (space : BitVec 8) (flow : BitVec 32)
  (core : Option CoreId)

/-- The page of an address is asked for already, or a request of it is added and its record written (R434, R435, R476). -/
theorem postPage_cases : ∃ r t, s.postPage va access requester space flow core = (t, r.id) ∧
    r.va = va56 va &&& 0xFFFF_FFFF_FFFF_0000 ∧ r.space = space ∧
    (r ∈ s.requests ∧ t = s ∨
      OnlyMemory { s with requests := s.requests ++ [r], nextRequest := s.nextRequest + 1 } t) := by
  cases hf : s.requests.find? (fun r => r.va = va56 va &&& 0xFFFF_FFFF_FFFF_0000 && r.space = space) with
  | some r =>
    have hp := List.find?_some hf
    simp only [Bool.and_eq_true, decide_eq_true_eq] at hp
    exact ⟨r, s, by simp only [State.postPage, hf], hp.1, hp.2, .inl ⟨List.mem_of_find?_eq_some hf, rfl⟩⟩
  | none =>
    refine ⟨{ id := s.nextRequest, va := va56 va &&& 0xFFFF_FFFF_FFFF_0000, access := access, requester := requester,
              space := space, flow := flow, core := core, postedAt := s.now },
            (s.postPage va access requester space flow core).1, ?_, rfl, rfl, .inr ?_⟩
    · simp only [State.postPage, hf]
    · simp only [State.postPage, hf]
      exact (onlyMemory_postRecord _ _ _).trans (onlyMemory_hostEvent _ _ _ _ _ _)

theorem pump_postPage (c : CoreId) : (s.postPage va access requester space flow core).1.pump c = s.pump c := by
  obtain ⟨r, t, he, -, -, ⟨-, rfl⟩ | ht⟩ := postPage_cases s va access requester space flow core
  · rw [he]
  · rw [he]
    exact ht.pump c

/-- The request of a page is outstanding: the one that was, or the one that is posted (R434). -/
theorem request_postPage : ∃ r ∈ (s.postPage va access requester space flow core).1.requests,
    r.id = (s.postPage va access requester space flow core).2 ∧ r.va = va56 va &&& 0xFFFF_FFFF_FFFF_0000 ∧ r.space = space := by
  obtain ⟨r, t, he, hva, hspace, ⟨hr, rfl⟩ | ht⟩ := postPage_cases s va access requester space flow core
  · rw [he]
    exact ⟨r, hr, rfl, hva, hspace⟩
  · rw [he]
    exact ⟨r, by rw [ht.requests]; exact List.mem_append_right _ (List.mem_singleton_self r), rfl, hva, hspace⟩

end

/-- Settles O4: the turn of the pump runs ILLEGAL_INSTRUCTION or INSTRUCTION_FETCH, and each does what its lemma above says. -/
theorem unfetchableWordsTrap : Obligations.UnfetchableWordsTrap := by
  refine ⟨?step, ?events⟩
  case step =>
    intro s u c pa e hn v hshut hrun hblock hpage hasync hypend htrap
    have hissue : CanIssue v c := ⟨hshut, hrun, hblock, hpage, .inr hasync, hypend⟩
    have htrap' : CanTrap ((issuing v c).pump c) := by rw [pump_issuing]; exact htrap
    refine ⟨fun hcode htrans hline hdec => ?_, fun hcode => ?_⟩
    · exact step_faults_of_turn hn (turn_of_illegal hissue (fetchTry_of_at hcode htrans hline) hdec)
        (faults_illegalInstruction _ htrap')
    · have hpc : (v.pump c).pc = ((issuing v c).pump c).pc := by rw [pump_issuing]
      refine step_faults_of_turn hn (turn_of_no_word hissue (fetchTry_of_not_inCode hcode))
        (hpc ▸ faults_instructionFetch ?_ htrap')
      change ((issuing v c).launch c).inCode ((issuing v c).pump c).pc = false
      rw [← hpc, issuing, launch_modPump_self, hcode]
  case events =>
    intro s w pa p
    refine ⟨faults_illegalInstruction w, faults_instructionFetch,
      fun hcode htrans hline => exec_instructionFetch_of_ok (fetchTry_of_at hcode htrans hline), fun hcode htrans => ?_⟩
    obtain ⟨r, hr, hid, hva, hspace⟩ :=
      request_postPage s p.pc Need.fetch.access 0 (s.launch s.cur).space (s.pump s.cur).flow (some s.cur)
    refine ⟨_, _, exec_instructionFetch_of_error (fetchTry_of_absent hcode htrans), ?_, r, hr, hid, hva, hspace⟩
    simp only [State.fetchStop, State.pump_modPump_self, pump_postPage]
    rfl

/-- Settles O5: the decoder, evaluated on each word. -/
theorem wordsDecodeAsTheSpecEncodesThem : Obligations.WordsDecodeAsTheSpecEncodesThem := by
  unfold Obligations.WordsDecodeAsTheSpecEncodesThem
  and_intros
  all_goals decide

end Sys2Proof

/-! Table jumps (R75, R115): what the checks of `jt` and `callt` answer, one lemma per check, and what the two instructions make
of it. -/

namespace Sys2Proof

open Machine

/-! ### An attempt goes on, or ends (R117) -/

theorem except_ok_bind {ε α β : Type} (x : α) (f : α → Except ε β) : (Except.ok x >>= f) = f x := rfl
theorem except_throw_bind {ε α β : Type} (e : ε) (f : α → Except ε β) : ((throw e : Except ε α) >>= f) = .error e := rfl

/-! ### The checks of a table jump, in their order (R75, R115) -/

section
variable {s : State} {c : CoreId} {a : Reg} {tbl : BitVec 10} {label : BitVec 16} {rec_ head t w : Word}

theorem tableTarget_of_count (h : (s.launch c).tableCount ≤ tbl.toNat) :
    s.tableTarget c a tbl label = .error (fault 0x06 0xFFFF_FFFF_FFFF_FFFF) := by
  simp only [State.tableTarget, h, if_true]
  rfl

/-- The record of the table has been read: its head is `head`. -/
structure TableFound (s : State) (c : CoreId) (tbl : BitVec 10) (rec_ head : Word) : Prop where
  count : ¬ (s.launch c).tableCount ≤ tbl.toNat
  record : s.tableWord c ((s.launch c).tables + BitVec.ofNat 64 (8 * tbl.toNat)) = .ok rec_
  headWord : s.tableWord c rec_ = .ok head

theorem tableTarget_of_index (h : TableFound s c tbl rec_ head) (hi : head.toNat % 2 ^ 32 ≤ ((s.pump c).read a).toNat) :
    s.tableTarget c a tbl label = .error (fault 0x06 ((s.pump c).read a)) := by
  simp only [State.tableTarget, h.count, h.record, h.headWord, except_ok_bind, hi, if_true, if_false]
  rfl

theorem tableTarget_of_label (h : TableFound s c tbl rec_ head) (hi : ((s.pump c).read a).toNat < head.toNat % 2 ^ 32)
    (hl : head.extractLsb' 32 16 ≠ label) : s.tableTarget c a tbl label = .error (fault 0x05 0) := by
  simp only [State.tableTarget, h.count, h.record, h.headWord, except_ok_bind, Nat.not_le.mpr hi, if_false, if_pos hl]
  rfl

/-- The index is in bounds and the label is the table's: its entry is `t`. -/
structure EntryFound (s : State) (c : CoreId) (a : Reg) (tbl : BitVec 10) (label : BitVec 16) (rec_ head t : Word) : Prop
    extends TableFound s c tbl rec_ head where
  index : ¬ head.toNat % 2 ^ 32 ≤ ((s.pump c).read a).toNat
  label : ¬ head.extractLsb' 32 16 ≠ label
  entry : s.tableWord c (rec_ + 8 + 8 * (s.pump c).read a) = .ok t

theorem tableTarget_of_misaligned (h : EntryFound s c a tbl label rec_ head t) (h8 : t.toNat % 8 ≠ 0) :
    s.tableTarget c a tbl label = .error (fault 0x02 t) := by
  simp only [State.tableTarget, h.count, h.record, h.headWord, h.index, h.label, h.entry, except_ok_bind, if_false, if_pos h8]
  rfl

theorem tableTarget_of_outside (h : EntryFound s c a tbl label rec_ head t) (h8 : t.toNat % 8 = 0)
    (ho : (s.launch c).inCode t = false) : s.tableTarget c a tbl label = .error (fault 0x04 t) := by
  simp only [State.tableTarget, h.count, h.record, h.headWord, h.index, h.label, h.entry, except_ok_bind, if_false,
    if_neg (not_not.mpr h8), ho, Bool.not_false, if_true]
  rfl

/-- The entry lies in the code section, and `w` is the word there. -/
structure LandingFound (s : State) (c : CoreId) (a : Reg) (tbl : BitVec 10) (label : BitVec 16) (rec_ head t w : Word) : Prop
    extends EntryFound s c a tbl label rec_ head t where
  aligned : ¬ t.toNat % 8 ≠ 0
  inCode : (s.launch c).inCode t = true
  word : s.fetchWord c t = .ok w

theorem tableTarget_of_landing (h : LandingFound s c a tbl label rec_ head t w) : s.tableTarget c a tbl label =
    if decode w = .ok (.land label) then .ok t else .error (fault 0x05 t) := by
  simp only [State.tableTarget, h.count, h.record, h.headWord, h.index, h.label, h.entry, h.aligned, h.inCode, h.word,
    except_ok_bind, if_false, Bool.not_true, Bool.false_eq_true]
  split
  case h_1 lab hd =>
    rw [hd]
    by_cases hl : lab = label
    · simp only [hl, if_true]; rfl
    · simp only [hl, if_false, Except.ok.injEq, Instr.land.injEq]; rfl
  case h_2 hd => exact (if_neg fun h => hd label h).symm

end

/-! ### `jt` and `callt` -/

section
variable {s : State} {a : Reg} {tbl : BitVec 10} {label : BitVec 16} {t : Word}

theorem faults_tableJumps {code : Code} {tval : Word} (h : s.tableTarget s.cur a tbl label = .error (fault code tval))
    (hc : CanTrap (s.pump s.cur)) : Faults (.jt a tbl label) s code tval ∧ Faults (.callt a tbl label) s code tval :=
  ⟨faults_of _ _ _ _ _ rfl (by rw [h]; rfl) hc, faults_of _ _ _ _ _ rfl (by rw [h]; rfl) hc⟩

theorem jumps_jt (h : s.tableTarget s.cur a tbl label = .ok t) : Jumps (.jt a tbl label) s t := by
  refine jumps_of _ _ _ ?_
  simp only [exec, execJt, h]
  rfl

theorem exec_callt (h : s.tableTarget s.cur a tbl label = .ok t) :
    exec (.callt a tbl label) s = .next (s.modPump s.cur fun p => (p.write linkReg (p.pc + 8)).jump t) := by
  simp only [exec, execCallt, h]
  rfl

end

/-- Settles O19: one lemma above for each check that fails, and for the landing at the end of them. -/
theorem tableJumpsCheckTheirTarget : Obligations.TableJumpsCheckTheirTarget := by
  intro s a tbl label rec_ head t w p l i both
  refine ⟨fun hn hc => faults_tableJumps (tableTarget_of_count hn) hc, fun hn hr hh => ?_⟩
  have htable : TableFound s s.cur tbl rec_ head := ⟨Nat.not_le.mpr hn, hr, hh⟩
  refine ⟨fun hi hc => faults_tableJumps (tableTarget_of_index htable hi) hc, fun hi =>
    ⟨fun hl hc => faults_tableJumps (tableTarget_of_label htable hi hl) hc, fun hl ht => ?_⟩⟩
  have hentry : EntryFound s s.cur a tbl label rec_ head t := ⟨htable, Nat.not_le.mpr hi, not_not.mpr hl, ht⟩
  refine ⟨fun h8 hc => faults_tableJumps (tableTarget_of_misaligned hentry h8) hc,
    fun h8 ho hc => faults_tableJumps (tableTarget_of_outside hentry h8 ho) hc, fun h8 hin hw => ?_⟩
  have htarget := tableTarget_of_landing (⟨hentry, not_not.mpr h8, hin, hw⟩ : LandingFound s s.cur a tbl label rec_ head t w)
  refine ⟨fun hd hc => faults_tableJumps (htarget.trans (if_neg hd)) hc, fun hd => ?_⟩
  rw [if_pos hd] at htarget
  refine ⟨jumps_jt htarget, _, exec_callt htarget, onlyPump_modPump _ _ _, fun r => ?_, ?_⟩
  · simp only [State.pump_modPump_self]
    by_cases hr : r = .g 62
    · rw [if_pos hr, hr]
      exact Pump.read_write_self _ linkReg _ (by decide)
    · rw [if_neg hr]
      exact Pump.read_write_ne _ _ _ _ hr
  · simp only [State.pump_modPump_self]
    rfl

end Sys2Proof

/-! `cfgl` and CONFIG_LOAD_COMPLETE (R88, R321, R322): the block that a `cfgl` reads, the plane that a good block becomes, and what
the stall counters of a core leave alone while they are brought up to date. -/

namespace Sys2Proof

open Machine

/-! ### Stall counters and pauses are not shown (R391, R395) -/

/-- `l` is core `k` but for its stall counters, the pauses of its regions, and what a replay reads. -/
def ShownSame (k l : Core) : Prop := l = { k with fab := l.fab } ∧ shownFab l.fab = shownFab k.fab

theorem ShownSame.refl (k : Core) : ShownSame k k := ⟨rfl, rfl⟩

theorem ShownSame.trans {k l m : Core} (h : ShownSame k l) (h' : ShownSame l m) : ShownSame k m := by
  refine ⟨?_, h'.2.trans h.2⟩
  rw [h'.1, h.1]

theorem shownSame_foldl {β : Type} (f : Core → β → Core) (xs : List β) (k : Core) (h : ∀ l x, ShownSame l (f l x)) :
    ShownSame k (xs.foldl f k) := by
  induction xs generalizing k with
  | nil => exact .refl k
  | cons x xs ih => exact (h k x).trans (ih _)

/-- An entry that shows the same leaves the row as it shows. -/
theorem mapVec_setAt_of_eq {α β : Type} {n : Nat} {f : α → β} {v : Vector α n} {i : Fin n} {a : α} (h : f a = f v[i]) :
    mapVec f (setAt v i a) = mapVec f v := by
  apply Vector.ext
  intro j hj
  have hm := getElem_mapVec f v ⟨j, hj⟩
  have hs := getElem_mapVec f (setAt v i a) ⟨j, hj⟩
  by_cases hi : (⟨j, hj⟩ : Fin n) = i
  · subst hi
    rw [getElem_setAt_self, h] at hs
    exact hs.trans hm.symm
  · rw [getElem_setAt_ne v i _ a hi] at hs
    exact hs.trans hm.symm

theorem shownSame_modSite_stall (k : Core) (i : Fin 64) (f : Site → Stall) :
    ShownSame k (k.modSite i fun x => { x with stall := f x }) := by
  refine ⟨rfl, ?_⟩
  simp only [shownFab, Core.modSite, mapVec_setAt_of_eq]

theorem shownSame_modMem_stall (k : Core) (m : Fin 8) (f : MemSite → Stall) :
    ShownSame k (k.modMem m fun x => { x with stall := f x }) := by
  refine ⟨rfl, ?_⟩
  simp only [shownFab, Core.modMem, mapVec_setAt_of_eq]

theorem shownSame_modAg_stall (k : Core) (a : Fin 8) (f : AgSite → Stall) :
    ShownSame k (k.modAg a fun x => { x with stall := f x }) := by
  refine ⟨rfl, ?_⟩
  have h : shownAg { k.fab.ags[a] with stall := f k.fab.ags[a] } = shownAg k.fab.ags[a] := rfl
  simp only [shownFab, Core.modAg, mapVec_setAt_of_eq h]

theorem shownSame_modRegion {k : Core} {r : Fin 8} {f : Region → Region}
    (h : shownRegion (f k.fab.regions[r]) = shownRegion k.fab.regions[r]) : ShownSame k (k.modRegion r f) := by
  refine ⟨rfl, ?_⟩
  simp only [shownFab, Core.modRegion, mapVec_setAt_of_eq h]

theorem shownRegion_switches (x : Region) (v : Vector Stall 64) : shownRegion { x with switches := v } = shownRegion x := rfl

theorem shownRegion_seePause (x : Region) (on : Bool) (now : Nat) : shownRegion (x.seePause on now) = shownRegion x := by
  unfold Region.seePause
  split <;> rfl

theorem shownSame_seeCauses (k : Core) (weirFree : Bool) (now : Nat) : ShownSame k (k.seeCauses weirFree now) := by
  refine shownSame_foldl _ _ _ fun l r => ?_
  split
  · exact .refl l
  · refine .trans ?_ (shownSame_foldl _ _ _ fun m q => ?ags)
    refine .trans ?_ (shownSame_foldl _ _ _ fun m q => ?mems)
    refine .trans ?_ (shownSame_modRegion ?switches)
    refine shownSame_foldl _ _ _ fun m q => ?sites
    case ags =>
      generalize Core.agCause _ _ _ _ _ = e
      exact shownSame_modAg_stall _ _ _
    case mems =>
      generalize Core.memCause _ _ _ = e
      exact shownSame_modMem_stall _ _ _
    case switches => exact shownRegion_switches _ _
    case sites =>
      generalize Core.siteCause _ _ _ _ _ = e
      exact shownSame_modSite_stall _ _ _

theorem shownSame_seeStalls (k : Core) (weirFree : Bool) (now : Nat) : ShownSame k (k.seeStalls weirFree now) := by
  refine (shownSame_seeCauses k weirFree now).trans (shownSame_foldl _ _ _ fun l r => ?_)
  split
  · exact shownSame_modRegion (shownRegion_seePause _ _ _)
  · exact .refl l

theorem ShownSame.planes {k l : Core} (h : ShownSame k l) : l.fab.planes = k.fab.planes := by
  simpa only [shownFab] using congrArg Fabric.planes h.2

theorem ShownSame.pump {k l : Core} (h : ShownSame k l) : l.pump = k.pump := by rw [h.1]

theorem ShownSame.region {k l : Core} (h : ShownSame k l) (r : Fin 8) :
    shownRegion l.fab.regions[r] = shownRegion k.fab.regions[r] := by
  have hr := congrArg (fun f : Fabric => f.regions[r]) h.2
  simpa only [shownFab, getElem_mapVec] using hr

/-! ### The block that a `cfgl` reads (R88, R292, R321) -/

theorem except_bind_eq_ok {ε α β : Type} {x : Except ε α} {f : α → Except ε β} {b : β} (h : (x >>= f) = .ok b) :
    ∃ a, x = .ok a ∧ f a = .ok b := by
  cases x with
  | error e => cases h
  | ok a => exact ⟨a, rfl, h⟩

theorem length_view (s : State) (c : CoreId) (pa n : Nat) : (s.view c pa n).length = n := by
  rw [State.view_eq_map, List.length_map, List.length_range]

theorem length_of_loadV {s : State} {c : CoreId} {ea : Word} {n : Nat} {need : Need} {bs : List Byte}
    (h : s.loadV c ea n need = .ok bs) : bs.length = n := by
  unfold State.loadV at h
  split at h
  · cases h
  · obtain ⟨pa, -, h⟩ := except_bind_eq_ok h
    obtain ⟨-, -, h⟩ := except_bind_eq_ok h
    cases h
    exact length_view s c pa n

theorem length_of_loadWords {s : State} {c : CoreId} {ea : Word} {n : Nat} {bs : List Byte}
    (h : s.loadWords c ea n = .ok bs) : bs.length = 8 * n := by
  induction n generalizing ea bs with
  | zero => cases h; rfl
  | succ n ih =>
    obtain ⟨w, hw, h⟩ := except_bind_eq_ok h
    obtain ⟨r, hr, h⟩ := except_bind_eq_ok h
    cases h
    rw [List.length_append, length_of_loadV hw, ih hr]
    omega

/-- A list cut into `m` whole parts of `n`. -/
theorem chunks_eq_map {α : Type} {n m : Nat} {v : List α} (hn : 0 < n) (h : v.length = n * m) :
    chunks n v = (List.range m).map fun j => (v.drop (n * j)).take n := by
  have hm : (v.length + n - 1) / n = m := by
    rw [h, Nat.add_sub_assoc hn, Nat.mul_add_div hn, Nat.div_eq_of_lt (by omega), Nat.add_zero]
  rw [chunks, hm]

/-- What `cfgl` notes of a block at offset `off`: its header and its frames. -/
def noteOf (off : Word) (header : Frame) (bs : List Byte) : Load :=
  { offset := off, sluice := bits header 228 4 = 2, plane := BitVec.ofNat 3 (planeOf header), header := header,
    frames := (chunks 32 bs).map leFrame }

theorem exec_cfgl {s : State} {a : Reg} (h : (s.pump s.cur).load.isSome = true ∨ (s.pump s.cur).held = []) :
    exec (.cfgl a) s = s.outcome s.cur (.cfgl a) (s.cfglTry s.cur a) := by
  simp only [exec, execCfgl]
  split
  case h_1 hl hh =>
    rcases h with h | h
    · rw [hl] at h
      cases h
    · rw [Pump.heldAny, h] at hh
      cases hh
  case h_2 => rfl

section
variable {s : State} {c : CoreId} {a : Reg}

theorem cfglTry_of_loading (h : (s.pump c).load.isSome = true) : s.cfglTry c a = .error (.wait (some 7)) := by
  simp only [State.cfglTry, h, if_true]
  rfl

variable (hload : (s.pump c).load = none)
include hload

theorem cfglTry_of_misaligned (h : ((s.pump c).read a).toNat % 32 ≠ 0) :
    s.cfglTry c a = .error (fault 0x02 ((s.pump c).read a)) := by
  simp only [State.cfglTry, hload, Option.isSome_none, Bool.false_eq_true, if_false, if_pos h]
  rfl

theorem cfglTry_of_block {hb bs : List Byte} (h : ¬ ((s.pump c).read a).toNat % 32 ≠ 0)
    (hh : s.loadWords c ((s.pump c).read a) 4 = .ok hb)
    (hs : s.headerStop c (leFrame hb) (s.imageOffset c ((s.pump c).read a)) = none)
    (hw : s.loadWords c ((s.pump c).read a + 32) (4 * siteOf (leFrame hb)) = .ok bs) :
    s.cfglTry c a = .ok ((s.modPump c fun p =>
      { p with load := some (noteOf (s.imageOffset c ((s.pump c).read a)) (leFrame hb) bs) }).goOn c) := by
  simp only [State.cfglTry, hload, Option.isSome_none, Bool.false_eq_true, if_false, h, hh, hs, hw, except_ok_bind, guardStop]
  rfl

end

theorem exec_cfgl_of_block {s : State} {a : Reg} {hb bs : List Byte} (hl : (s.pump s.cur).load = none)
    (hh : (s.pump s.cur).held = []) (h : ((s.pump s.cur).read a).toNat % 32 = 0)
    (hhb : s.loadWords s.cur ((s.pump s.cur).read a) 4 = .ok hb)
    (hs : s.headerStop s.cur (leFrame hb) (s.imageOffset s.cur ((s.pump s.cur).read a)) = none)
    (hw : s.loadWords s.cur ((s.pump s.cur).read a + 32) (4 * siteOf (leFrame hb)) = .ok bs) :
    exec (.cfgl a) s = .next ((s.modPump s.cur fun p =>
      { p with load := some (noteOf (s.imageOffset s.cur ((s.pump s.cur).read a)) (leFrame hb) bs) }).goOn s.cur) := by
  rw [exec_cfgl (.inr hh), cfglTry_of_block hl (not_not.mpr h) hhb hs hw, State.outcome_ok]

/-! ### The completion of a load (R88, R321, R322, R397) -/

/-- Power gating leaves planes and regions alone. -/
theorem gatePower_keeps (f : Fabric) (now : Nat) :
    (f.gatePower now).planes = f.planes ∧ (f.gatePower now).regions = f.regions := by
  refine List.foldlRecOn _ _ (motive := fun g : Fabric => g.planes = f.planes ∧ g.regions = f.regions) ⟨rfl, rfl⟩
    fun g hg i _ => ?_
  dsimp only
  split
  · split
    · exact hg
    · exact hg
  · exact hg

theorem modPump_modFab (s : State) (c : CoreId) (g : Pump → Pump) (f : Fabric → Fabric) :
    (s.modPump c g).modFab c f = s.modCore c fun k => { k with pump := g k.pump, fab := f k.fab } := by
  simp only [State.modPump, State.modFab, State.modCore, setCore_setCore, State.core_setCore_self]

section
variable {s : State} {c : CoreId} {l : Load} (hl : (s.pump c).load = some l) (hs : l.sluice = false)
  (hr : (s.core c).fab.planeRuns (Fin.ofNat 4 l.plane.toNat) = false)
include hl hs hr

/-- The load of a plane that no running region has selected, its block good. -/
theorem loadDone_of_good (hf : s.loadFault c l = none) : s.loadDone c =
    s.modCore c fun k => { k with pump := { k.pump with load := none }, fab := k.fab.writePlane l [] s.now } := by
  rw [← modPump_modFab s c (fun p => { p with load := none }) (fun f => f.writePlane l [] s.now)]
  simp only [State.loadDone, hl, hs, hr, hf, Bool.and_false, Bool.false_eq_true, if_false, State.modPump_now]

theorem loadDone_of_bad {e : Code × Word} (hf : s.loadFault c l = some e) :
    s.loadDone c = s.modPump c fun p => p.holdLoad l e := by
  simp only [State.loadDone, hl, hs, hr, hf, Bool.and_false, Bool.false_eq_true, if_false]

end

/-- CONFIG_LOAD_COMPLETE makes of its core what `loadDone` does and brings its stall counters up to date. -/
theorem exec_configLoadComplete {s : State} {c : CoreId} {f : Core → Core} (h : s.loadDone c = s.modCore c f) : ∃ t,
    exec (.configLoadComplete c) s = .next t ∧ OnlyCore c s t ∧ ShownSame (f (s.core c)) (t.core c) := by
  refine ⟨(s.loadDone c).seen c, rfl, ?_, ?_⟩
  · rw [h]
    simp [OnlyCore, State.seen, State.modCore, setCore_setCore]
  · simp only [h, State.seen, State.core_modCore_self]
    exact shownSame_seeStalls _ _ _

/-- Settles O43: a `cfgl` by what its attempt answers; a completion by what `loadDone` makes of the core, of which the stall
counters, brought up to date with it, show nothing. -/
theorem loadsAreCheckedThenWrittenWhole : Obligations.LoadsAreCheckedThenWrittenWhole := by
  intro s a c l hb bs p v off header n f
  refine ⟨fun hl => waits_of _ _ _ _ (exec_cfgl (.inl hl)) (cfglTry_of_loading hl),
    fun hl hh hv hc => faults_of _ _ _ _ _ (exec_cfgl (.inr hh)) (cfglTry_of_misaligned hl hv) hc,
    ?block, fun hl hs hr => ⟨fun hf => ?good, fun e hf => ?bad⟩⟩
  case block =>
    intro hl hh hv hhb hstop hbs
    have hlen : bs.length = 32 * siteOf header := by rw [length_of_loadWords hbs]; omega
    refine ⟨_, noteOf off header bs, exec_cfgl_of_block hl hh hv hhb hstop hbs,
      (onlyPump_modPump _ _ _).trans (onlyPump_modPump _ _ _), ?_, rfl, rfl, BitVec.toNat_ofNat _ _, ?_, fun j hj => ?_⟩
    · simp only [State.goOn, State.pump_modPump_self]
      rfl
    · simp [noteOf, chunks_eq_map (by decide) hlen]
    · simp [noteOf, chunks_eq_map (by decide) hlen, List.getElem?_range hj]
  case good =>
    obtain ⟨t, ht, honly, hshown⟩ := exec_configLoadComplete (loadDone_of_good hl hs hr hf)
    obtain ⟨hplanes, hregions⟩ := gatePower_keeps
      { f with planes := setAt f.planes n { frames := l.frames, offset := l.offset, absent := [], page := none, bad := false } } s.now
    refine ⟨t, ht, honly, hshown.pump, ?_, fun m hm => ?_, fun r => ?_⟩
    · rw [hshown.planes]
      exact (congrArg (·[n]) hplanes).trans (getElem_setAt_self _ _ _)
    · rw [hshown.planes]
      exact (congrArg (·[m]) hplanes).trans (getElem_setAt_ne _ _ _ _ hm)
    · rw [hshown.region]
      exact congrArg (fun v : Vector Region 8 => shownRegion v[r]) hregions
  case bad =>
    obtain ⟨t, ht, honly, hshown⟩ := exec_configLoadComplete (loadDone_of_bad hl hs hr hf)
    have hpump : t.pump c = (s.pump c).holdLoad l e := hshown.pump
    refine ⟨t, ht, honly, ?_, hshown.2, ?_⟩
    · rw [hpump]
      exact hshown.1
    · rw [hpump, Pump.holdLoad, hs]

end Sys2Proof

/-! Integer instructions (R100 to R104): the functions of `Integer.lean` bit by bit or as numbers, and the instructions that
compute them. -/

namespace Sys2Proof

open Machine

/-! ### Sums, comparisons and choices (R101, R103) -/

theorem toInt_sext32 (imm : BitVec 32) : (sext32 imm).toInt = imm.toInt := by
  rw [sext32, BitVec.toInt_signExtend_of_le (by decide)]

theorem toInt_pick_slt (x y : Word) : (pick (x.slt y) x y).toInt = min x.toInt y.toInt := by
  simp only [pick, BitVec.slt, decide_eq_true_eq]
  split <;> omega

theorem toInt_pick_slt_max (x y : Word) : (pick (x.slt y) y x).toInt = max x.toInt y.toInt := by
  simp only [pick, BitVec.slt, decide_eq_true_eq]
  split <;> omega

theorem toNat_pick_ult (x y : Word) : (pick (x.ult y) x y).toNat = min x.toNat y.toNat := by
  simp only [pick, BitVec.ult, decide_eq_true_eq]
  split <;> omega

theorem toNat_pick_ult_max (x y : Word) : (pick (x.ult y) y x).toNat = max x.toNat y.toNat := by
  simp only [pick, BitVec.ult, decide_eq_true_eq]
  split <;> omega

theorem truth_slt (x y : Word) : truth (x.slt y) = if x.toInt < y.toInt then 1 else 0 := by
  simp only [truth, BitVec.slt, decide_eq_true_eq]

theorem truth_ult (x y : Word) : truth (x.ult y) = if x.toNat < y.toNat then 1 else 0 := by
  simp only [truth, BitVec.ult, decide_eq_true_eq]

/-- Settles O8: each instruction gives the value of its function, which the lemmas above read as a number. -/
theorem integerResultsWrapAndCompare : Obligations.IntegerResultsWrapAndCompare := by
  intro s d a b c imm p x y z
  refine ⟨computes_of _ _ _ (x + y) _ rfl ?add, computes_of _ _ _ (x - y) _ rfl ?sub,
    computes_of _ _ _ (x + sext32 imm) _ rfl ?addi, computes_of _ _ _ (sext32 imm) _ rfl (toInt_sext32 imm),
    computes_of _ _ _ (p.pc + sext32 imm) _ rfl ?agen, computes_of _ _ _ x _ rfl rfl,
    computes_of _ _ _ _ _ rfl (toInt_pick_slt x y), computes_of _ _ _ _ _ rfl (toInt_pick_slt_max x y),
    computes_of _ _ _ _ _ rfl (toNat_pick_ult x y), computes_of _ _ _ _ _ rfl (toNat_pick_ult_max x y),
    computes_of _ _ _ _ _ rfl (truth_slt x y), computes_of _ _ _ _ _ rfl (truth_ult x y),
    computes_of _ _ _ (truth (x.slt (sext32 imm))) _ rfl ?slti, computes_of _ _ _ (truth (x = y)) _ rfl ?seq,
    computes_of _ _ _ (truth (x ≠ y)) _ rfl ?sne, computes_of _ _ _ (if z ≠ 0 then x else y) _ rfl ?sel⟩
  case add => exact BitVec.toNat_add x y
  case sub => rw [BitVec.toNat_sub]; congr 1; omega
  case addi => rw [BitVec.toInt_add, toInt_sext32]
  case agen => rw [BitVec.toInt_add, toInt_sext32]
  case slti => rw [truth_slt, toInt_sext32]
  case seq => simp [truth]
  case sne => simp [truth]
  case sel => simp only [ne_eq, ite_not]

/-! ### Bits (R100, R101, R103) -/

theorem getLsbD_zext32 (imm : BitVec 32) (n : Nat) (hn : n < 64) :
    (zext32 imm).getLsbD n = (decide (n < 32) && imm.getLsbD n) := by
  by_cases h : n < 32
  · simp [zext32, hn, h]
  · simp [zext32, h, BitVec.getLsbD_of_ge imm n (by omega)]

section
variable (x : Word) (k n : Nat)

theorem getLsbD_shl (hn : n < 64) : (x <<< k).getLsbD n = (decide (k ≤ n) && x.getLsbD (n - k)) := by
  rw [BitVec.getLsbD_shiftLeft, decide_eq_true hn, Bool.true_and, ← decide_not]
  simp only [Nat.not_lt]

theorem getLsbD_shr : (x >>> k).getLsbD n = (decide (n + k < 64) && x.getLsbD (n + k)) := by
  rw [BitVec.getLsbD_ushiftRight, Nat.add_comm]
  by_cases h : n + k < 64
  · simp [h]
  · simp [h, BitVec.getLsbD_of_ge x (n + k) (by omega)]

theorem getLsbD_sar (hn : n < 64) : (x.sshiftRight k).getLsbD n = x.getLsbD (min (n + k) 63) := by
  rw [BitVec.getLsbD_sshiftRight, Nat.add_comm k, BitVec.msb_eq_getLsbD_last]
  by_cases h : n + k < 64
  · simp [h, show ¬ 64 ≤ n by omega, show min (n + k) 63 = n + k by omega]
  · simp [h, show ¬ 64 ≤ n by omega, show min (n + k) 63 = 63 by omega]

theorem getLsbD_rol (hk : k < 64) (hn : n < 64) : (x.rotateLeft k).getLsbD n = x.getLsbD ((n + 64 - k) % 64) := by
  rw [BitVec.getLsbD_rotateLeft, Nat.mod_eq_of_lt hk]
  by_cases h : n < k
  · simp [h, show (n + 64 - k) % 64 = 64 - k + n by omega]
  · simp [h, hn, show (n + 64 - k) % 64 = n - k by omega]

end

/-- Settles O9: each instruction gives the value of its function, which the lemmas above read bit by bit. -/
theorem bitwiseFormsActBitByBit : Obligations.BitwiseFormsActBitByBit := by
  intro s d a b imm m p x y k
  have hk : k < 64 := Nat.mod_lt _ (by decide)
  have hm : m.toNat < 64 := m.isLt
  refine ⟨computes_of _ _ _ (x &&& y) _ rfl fun n _ => BitVec.getLsbD_and,
    computes_of _ _ _ (x ||| y) _ rfl fun n _ => BitVec.getLsbD_or,
    computes_of _ _ _ (x ^^^ y) _ rfl fun n _ => BitVec.getLsbD_xor,
    computes_of _ _ _ (x &&& ~~~y) _ rfl fun n hn => ?andn,
    computes_of _ _ _ (x &&& zext32 imm) _ rfl fun n hn => ?andi,
    computes_of _ _ _ (x ||| zext32 imm) _ rfl fun n hn => ?ori,
    computes_of _ _ _ (x ^^^ zext32 imm) _ rfl fun n hn => ?xori,
    computes_of _ _ _ _ _ rfl fun n hn => getLsbD_shl x k n hn,
    computes_of _ _ _ _ _ rfl fun n _ => getLsbD_shr x k n,
    computes_of _ _ _ _ _ rfl fun n hn => getLsbD_sar x k n hn,
    computes_of _ _ _ _ _ rfl fun n hn => getLsbD_rol x k n hk hn,
    computes_of _ _ _ _ _ rfl fun n hn => getLsbD_shl x m.toNat n hn,
    computes_of _ _ _ _ _ rfl fun n _ => getLsbD_shr x m.toNat n,
    computes_of _ _ _ _ _ rfl fun n hn => getLsbD_sar x m.toNat n hn,
    computes_of _ _ _ _ _ rfl fun n hn => getLsbD_rol x m.toNat n hm hn⟩
  case andn => simp [hn]
  case andi => rw [BitVec.getLsbD_and, getLsbD_zext32 imm n hn]
  case ori => rw [BitVec.getLsbD_or, getLsbD_zext32 imm n hn]
  case xori => rw [BitVec.getLsbD_xor, getLsbD_zext32 imm n hn]

/-! ### Products and quotients (R102) -/

theorem toNat_mulHU (x y : Word) : (mulHU x y).toNat = x.toNat * y.toNat / 2 ^ 64 := by
  have hx := x.isLt
  have hy := y.isLt
  have hxy : x.toNat * y.toNat < 2 ^ 128 := by
    calc x.toNat * y.toNat < 2 ^ 64 * 2 ^ 64 := Nat.mul_lt_mul'' hx hy
      _ = 2 ^ 128 := by norm_num
  simp only [mulHU, BitVec.extractLsb'_toNat, BitVec.toNat_mul, BitVec.toNat_setWidth]
  rw [Nat.mod_eq_of_lt (show x.toNat < 2 ^ 128 by omega), Nat.mod_eq_of_lt (show y.toNat < 2 ^ 128 by omega),
    Nat.mod_eq_of_lt hxy, Nat.shiftRight_eq_div_pow, Nat.mod_eq_of_lt (by omega)]

/-- The high half of a number of 128 bits, signed. -/
theorem toInt_extractLsb'_high (v : BitVec 128) : (v.extractLsb' 64 64).toInt = v.toInt / 2 ^ 64 := by
  have hv := v.isLt
  rw [BitVec.toInt_eq_toNat_bmod, BitVec.toInt_eq_toNat_cond, BitVec.extractLsb'_toNat, Nat.shiftRight_eq_div_pow]
  simp only [Int.bmod]
  split <;> split <;> omega

theorem toInt_mulHS (x y : Word) : (mulHS x y).toInt = x.toInt * y.toInt / 2 ^ 64 := by
  have hb (v : Word) : -2 ^ 63 ≤ v.toInt ∧ v.toInt < 2 ^ 63 := ⟨BitVec.le_toInt v, BitVec.toInt_lt⟩
  have habs : |x.toInt * y.toInt| ≤ 2 ^ 63 * 2 ^ 63 := by
    rw [abs_mul]
    exact mul_le_mul (abs_le.mpr ⟨(hb x).1, (hb x).2.le⟩) (abs_le.mpr ⟨(hb y).1, (hb y).2.le⟩) (abs_nonneg _) (by norm_num)
  obtain ⟨hlo, hhi⟩ := abs_le.mp habs
  rw [mulHS, toInt_extractLsb'_high, BitVec.toInt_mul, BitVec.toInt_signExtend_of_le (by decide),
    BitVec.toInt_signExtend_of_le (by decide), Int.bmod_eq_of_le (by norm_num at hlo ⊢; omega) (by norm_num at hhi ⊢; omega)]

/-- A signed quotient of two words is a word but for −2^63 / −1. -/
theorem toInt_divS {x y : Word} (hy : y ≠ 0) (h : ¬ (x.toInt = -2 ^ 63 ∧ y.toInt = -1)) :
    (divS x y).toInt = x.toInt.tdiv y.toInt := by
  have hne : ¬ (x = BitVec.intMin 64 ∧ y = -1#64) := fun ⟨hx, hy'⟩ => h ⟨by rw [hx]; rfl, by rw [hy']; rfl⟩
  rw [divS, if_neg hy, ← BitVec.toInt_sdiv_of_ne_or_ne x y (not_and_or.mp hne), BitVec.ofInt_toInt]

theorem toInt_remS {x y : Word} (hy : y ≠ 0) : (remS x y).toInt = x.toInt.tmod y.toInt := by
  rw [remS, if_neg hy, ← BitVec.toInt_srem, BitVec.ofInt_toInt]

/-- Settles O10: the corners of the quotients and remainders by cases, everything else by the lemmas above. -/
theorem multiplyAndDivideNeverTrap : Obligations.MultiplyAndDivideNeverTrap := by
  intro s d a b c p x y
  refine ⟨computes_of _ _ _ (x * y) _ rfl (BitVec.toNat_mul x y), computes_of _ _ _ _ _ rfl (toInt_mulHS x y),
    computes_of _ _ _ _ _ rfl (toNat_mulHU x y), computes_of _ _ _ (x * y + p.read c) _ rfl ?madd,
    computes_of _ _ _ (divS x y) _ rfl ?div, computes_of _ _ _ (divU x y) _ rfl ?divn,
    computes_of _ _ _ (remS x y) _ rfl ?rem, computes_of _ _ _ (remU x y) _ rfl ?remn⟩
  case madd => rw [BitVec.toNat_add, BitVec.toNat_mul, Nat.mod_add_mod]
  case div =>
    split
    case isTrue hy => rw [divS, if_pos hy]; rfl
    case isFalse hy =>
      split
      case isTrue h => rw [divS, if_neg hy, h.1, h.2]; rfl
      case isFalse h => exact toInt_divS hy h
  case divn =>
    split
    case isTrue hy => rw [divU, if_pos hy]; rfl
    case isFalse hy => rw [divU, if_neg hy, BitVec.toNat_udiv]
  case rem =>
    split
    case isTrue hy => rw [remS, if_pos hy]
    case isFalse hy =>
      split
      case isTrue h => rw [remS, if_neg hy, h.1, h.2]; rfl
      case isFalse h => rw [toInt_remS hy, Int.tmod_def]
  case remn =>
    split
    case isTrue hy => rw [remU, if_pos hy]
    case isFalse hy => rw [remU, if_neg hy, BitVec.toNat_umod, Nat.mod_def]

end Sys2Proof

/-! Counts and fields of bits (R101, R103, R104). -/

namespace Sys2Proof

open Machine

/-! ### Counts (R101) -/

theorem bitsUsed_le (n v : Nat) : leadingZeros.bitsUsed n v ≤ n := by
  induction n generalizing v with
  | zero => exact Nat.le_refl 0
  | succ n ih =>
    simp only [leadingZeros.bitsUsed]
    split
    · exact Nat.zero_le _
    · have := ih (v / 2)
      omega

/-- No bit of a number lies at or above the bits that it uses. -/
theorem testBit_ge_bitsUsed {n v : Nat} (hv : v < 2 ^ n) {j : Nat} (hj : leadingZeros.bitsUsed n v ≤ j) :
    v.testBit j = false := by
  induction n generalizing v j with
  | zero =>
    obtain rfl : v = 0 := by omega
    exact Nat.zero_testBit j
  | succ n ih =>
    simp only [leadingZeros.bitsUsed] at hj
    split at hj
    · next h => rw [h, Nat.zero_testBit]
    · obtain ⟨i, rfl⟩ : ∃ i, j = i + 1 := ⟨j - 1, by omega⟩
      rw [Nat.testBit_succ]
      exact ih (by omega) (by omega)

/-- The highest bit that a number uses is one. -/
theorem testBit_bitsUsed {n v j : Nat} (hv : v < 2 ^ n) (hj : leadingZeros.bitsUsed n v = j + 1) : v.testBit j = true := by
  induction n generalizing v j with
  | zero => simp [leadingZeros.bitsUsed] at hj
  | succ n ih =>
    simp only [leadingZeros.bitsUsed] at hj
    split at hj
    · simp at hj
    · next h =>
      cases j with
      | zero =>
        have h0 : (v / 2).testBit 0 = false := testBit_ge_bitsUsed (n := n) (by omega) (by omega)
        by_contra hb
        have hhalf : v / 2 = 0 := Nat.eq_of_testBit_eq fun i => by
          rw [testBit_ge_bitsUsed (n := n) (by omega) (by omega), Nat.zero_testBit]
        rw [Nat.testBit_zero, decide_eq_true_eq] at hb
        omega
      | succ i =>
        rw [Nat.testBit_succ]
        exact ih (by omega) (by omega)

theorem trailingZeros_le (n v : Nat) : trailingZeros n v ≤ n := by
  induction n generalizing v with
  | zero => exact Nat.le_refl 0
  | succ n ih =>
    simp only [trailingZeros]
    split
    · exact Nat.zero_le _
    · have := ih (v / 2)
      omega

theorem testBit_lt_trailingZeros {n v j : Nat} (hj : j < trailingZeros n v) : v.testBit j = false := by
  induction n generalizing v j with
  | zero => simp [trailingZeros] at hj
  | succ n ih =>
    simp only [trailingZeros] at hj
    split at hj
    · omega
    · next h =>
      cases j with
      | zero => simp [h]
      | succ i =>
        rw [Nat.testBit_succ]
        exact ih (by omega)

theorem testBit_trailingZeros {n v : Nat} (h : trailingZeros n v < n) : v.testBit (trailingZeros n v) = true := by
  induction n generalizing v with
  | zero => omega
  | succ n ih =>
    simp only [trailingZeros] at h ⊢
    split
    · next h1 => simp [h1]
    · next h0 =>
      rw [if_neg h0] at h
      rw [Nat.add_comm, Nat.testBit_succ]
      exact ih (by omega)

theorem onesCount_eq_countP (n v : Nat) : onesCount n v = (List.range n).countP fun j => v.testBit j := by
  induction n generalizing v with
  | zero => rfl
  | succ n ih =>
    simp only [onesCount, ih, List.range_succ_eq_map, List.countP_cons, List.countP_map, Nat.testBit_zero]
    have h : ((fun j => v.testBit j) ∘ Nat.succ) = fun j => (v / 2).testBit j := by
      funext j
      exact Nat.testBit_succ v j
    rw [h, Nat.add_comm]
    congr 1
    rcases Nat.mod_two_eq_zero_or_one v with h | h <;> simp [h]

theorem leadingZeros_spec (x : Word) : (leadingZeros x).toNat ≤ 64 ∧
    (∀ n < (leadingZeros x).toNat, x.getLsbD (63 - n) = false) ∧
    ((leadingZeros x).toNat < 64 → x.getLsbD (63 - (leadingZeros x).toNat) = true) := by
  have hle := bitsUsed_le 64 x.toNat
  have hn : (leadingZeros x).toNat = 64 - leadingZeros.bitsUsed 64 x.toNat := by
    rw [leadingZeros, BitVec.toNat_ofNat, Nat.mod_eq_of_lt (by omega)]
  rw [hn]
  refine ⟨by omega, fun n hn => ?_, fun h => ?_⟩
  · exact testBit_ge_bitsUsed x.isLt (by omega)
  · exact testBit_bitsUsed x.isLt (by omega)

theorem trailingZeros_spec (x : Word) : (BitVec.ofNat 64 (trailingZeros 64 x.toNat)).toNat ≤ 64 ∧
    (∀ n < (BitVec.ofNat 64 (trailingZeros 64 x.toNat)).toNat, x.getLsbD n = false) ∧
    ((BitVec.ofNat 64 (trailingZeros 64 x.toNat)).toNat < 64 →
      x.getLsbD (BitVec.ofNat 64 (trailingZeros 64 x.toNat)).toNat = true) := by
  have hle := trailingZeros_le 64 x.toNat
  rw [BitVec.toNat_ofNat, Nat.mod_eq_of_lt (by omega)]
  exact ⟨hle, fun n hn => testBit_lt_trailingZeros hn, testBit_trailingZeros⟩

theorem toNat_onesCount (x : Word) :
    (BitVec.ofNat 64 (onesCount 64 x.toNat)).toNat = (List.range 64).countP fun n => x.getLsbD n := by
  have hle : onesCount 64 x.toNat ≤ 64 := by
    rw [onesCount_eq_countP]
    exact List.countP_le_length.trans_eq List.length_range
  rw [BitVec.toNat_ofNat, Nat.mod_eq_of_lt (by omega), onesCount_eq_countP]
  rfl

/-! ### Fields (R103, R104) -/

/-- The low `len` bits are one. -/
theorem getLsbD_lowMask (len n : Nat) (hn : n < 64) :
    (BitVec.ofNat 64 (2 ^ len - 1)).getLsbD n = decide (n < len) := by
  rw [BitVec.getLsbD_ofNat, Nat.testBit_two_pow_sub_one, decide_eq_true hn, Bool.true_and]

theorem getLsbD_fieldOf (x : Word) (lsb len n : Nat) (hn : n < 64) :
    (fieldOf x lsb len).getLsbD n = (decide (n < len) && x.getLsbD (lsb + n)) := by
  rw [fieldOf, BitVec.getLsbD_and, BitVec.getLsbD_ushiftRight, getLsbD_lowMask len n hn, Bool.and_comm]

theorem getLsbD_insertField (d a : Word) (lsb len n : Nat) (hn : n < 64) : (insertField d a lsb len).getLsbD n =
    if lsb ≤ n ∧ n < lsb + len then a.getLsbD (n - lsb) else d.getLsbD n := by
  have hmask : (BitVec.ofNat 64 (2 ^ len - 1) <<< lsb).getLsbD n = decide (lsb ≤ n ∧ n < lsb + len) := by
    rw [getLsbD_shl _ _ _ hn, getLsbD_lowMask len _ (by omega), ← Bool.decide_and]
    congr 1
    apply propext
    omega
  simp only [insertField, BitVec.getLsbD_or, BitVec.getLsbD_and, BitVec.getLsbD_not, hmask, getLsbD_shl a lsb n hn, hn,
    decide_true, Bool.true_and]
  by_cases h : lsb ≤ n ∧ n < lsb + len
  · simp [h]
  · simp [h]

/-- The high half of d replaced (R103). -/
theorem getLsbD_lih (y : Word) (imm : BitVec 32) (n : Nat) (hn : n < 64) :
    ((zext32 imm <<< 32) ||| (y &&& 0xFFFF_FFFF)).getLsbD n = if n < 32 then y.getLsbD n else imm.getLsbD (n - 32) := by
  rw [BitVec.getLsbD_or, BitVec.getLsbD_and, getLsbD_shl _ _ _ hn, getLsbD_zext32 imm _ (by omega)]
  rw [show (0xFFFF_FFFF : Word) = BitVec.ofNat 64 (2 ^ 32 - 1) from rfl, getLsbD_lowMask 32 n hn]
  by_cases h : n < 32
  · simp [h]
  · simp [h, show 32 ≤ n by omega, show n - 32 < 32 by omega]

/-- Settles O11: each instruction gives the value of its function, which the lemmas above read bit by bit. -/
theorem countsAndFieldsOfBits : Obligations.CountsAndFieldsOfBits := by
  intro s d a imm imm16 lane lsb lenM1 _ p x y len
  refine ⟨computes_of _ _ _ _ _ rfl (leadingZeros_spec x), computes_of _ _ _ _ _ rfl (trailingZeros_spec x),
    computes_of _ _ _ _ _ rfl (toNat_onesCount x), computes_of _ _ _ _ _ rfl fun n hn => getLsbD_lih y imm n hn,
    computes_of _ _ _ (insertField y (imm16.setWidth 64) (16 * lane.toNat) 16) _ rfl fun n hn => ?movk,
    computes_of _ _ _ _ _ rfl fun n hn => getLsbD_fieldOf x lsb.toNat len n hn,
    computes_of _ _ _ _ _ rfl fun n hn => getLsbD_insertField y x lsb.toNat len n hn⟩
  case movk =>
    rw [getLsbD_insertField _ _ _ _ _ hn, BitVec.getLsbD_setWidth]
    by_cases h : n / 16 = lane.toNat
    · rw [if_pos (by omega), if_pos h, show n - 16 * lane.toNat = n % 16 by omega]
      simp [show n % 16 < 64 by omega]
    · rw [if_neg (by omega), if_neg h]

end Sys2Proof

/-! Control flow (R112 to R115) and the instructions that only go on (R123, R279, R300). -/

namespace Sys2Proof

open Machine

/-! ### Branches (R112, R113) -/

/-- A conditional branch goes to its target or to the next instruction. -/
theorem jumps_branch (i : Instr) (s : State) (a b : Reg) (off : BitVec 32) (cond : Word → Word → Bool) (C : Prop) [Decidable C]
    (h : exec i s = s.branch a b off cond) (hc : cond ((s.pump s.cur).read a) ((s.pump s.cur).read b) = decide C) :
    Jumps i s (if C then (s.pump s.cur).pc + 8 * off.signExtend 64 else nextPc s) := by
  refine jumps_of i s _ (h.trans (congrArg Host.Outcome.next (modPump_congr s s.cur ?_)))
  rw [hc]
  by_cases hC : C
  · simp only [hC, decide_true, if_true]
    rfl
  · simp only [hC, decide_false, if_false, Bool.false_eq_true]
    rfl

theorem not_slt (x y : Word) : (!x.slt y) = decide (y.toInt ≤ x.toInt) := by
  simp only [BitVec.slt, ← decide_not, not_lt]

theorem not_ult (x y : Word) : (!x.ult y) = decide (y.toNat ≤ x.toNat) := by
  simp only [BitVec.ult, ← decide_not, not_lt]

/-- Settles O16: each branch by the condition that its order computes. -/
theorem branchesGoWhereTheirConditionSays : Obligations.BranchesGoWhereTheirConditionSays := by
  intro s a b off p x y goal
  exact ⟨jumps_branch _ s a b off (fun u v => u = v) _ rfl rfl, jumps_branch _ s a b off (fun u v => u ≠ v) _ rfl rfl,
    jumps_branch _ s a b off _ _ rfl rfl,
    jumps_branch _ s a b off (fun u v => !u.slt v) _ rfl (not_slt x y),
    jumps_branch _ s a b off _ _ rfl rfl,
    jumps_branch _ s a b off (fun u v => !u.ult v) _ rfl (not_ult x y)⟩

/-- What a written result leaves in a pump beside `g`, `k` and `last` (R92). -/
theorem result_eq (p : Pump) (d : Reg) (v : Word) :
    p.result d v = { p with g := (p.result d v).g, k := (p.result d v).k, last := v } := by
  cases d with
  | g i =>
    simp only [Pump.result, Pump.write]
    split <;> rfl
  | k i => rfl
  | last => rfl

/-- The pump after `dbnz` (R113). -/
theorem exec_dbnz (a : Reg) (off : BitVec 32) (s : State) : exec (.dbnz a off) s = .next (s.modPump s.cur fun p =>
    { p.result a (p.read a - 1) with pc := if p.read a - 1 ≠ 0 then p.pc + 8 * off.signExtend 64 else p.pc + 8 }) := by
  refine congrArg Host.Outcome.next (modPump_congr s s.cur ?_)
  by_cases h : (s.pump s.cur).read a - 1 = 0
  · simp only [h, ne_eq, not_true, if_false, Pump.advance, Pump.result_pc]
  · simp only [h, ne_eq, not_false_iff, if_true]
    rfl

/-- Settles O17: the pump after `dbnz` is `exec_dbnz`; through g0 the value is 0 − 1. -/
theorem dbnzDecrementsAndBranches : Obligations.DbnzDecrementsAndBranches := by
  intro s a off p v
  refine ⟨fun ha => by subst ha; rfl, _, exec_dbnz a off s, onlyPump_modPump _ _ _, fun r => ?reads, ?pc, ?rest⟩
  case reads =>
    rw [State.pump_modPump_self, ← Pump.read_result p a r v]
    cases r <;> rfl
  case pc => rw [State.pump_modPump_self]; rfl
  case rest =>
    rw [State.pump_modPump_self, result_eq]

/-! ### Jumps, and the instructions that only go on (R114, R115, R123, R279, R300) -/

theorem jumps_ret (s : State) (a : Reg) (h : ((s.pump s.cur).read a).toNat % 8 = 0) :
    Jumps (.ret a) s ((s.pump s.cur).read a) := by
  refine jumps_of _ _ _ ?_
  simp only [exec, execRet, h, ne_eq, not_true, if_false]
  rfl

theorem faults_ret (s : State) (a : Reg) (h : ((s.pump s.cur).read a).toNat % 8 ≠ 0) (hc : CanTrap (s.pump s.cur)) :
    Faults (.ret a) s 0x02 ((s.pump s.cur).read a) := faults_of _ _ _ _ _ rfl (if_pos h) hc

/-- A prefetch goes on, and of its core changes the translations alone (R300). -/
theorem exec_pref (kind : PrefKind) (a : Reg) (imm : BitVec 32) (s : State) : ∃ l : List TlbEntry,
    exec (.pref kind a imm) s = .next (s.modCore s.cur fun k => { k with pump := k.pump.advance, tlb := l }) := by
  have hgo : s.goOn s.cur = s.modCore s.cur fun k => { k with pump := k.pump.advance, tlb := (s.core s.cur).tlb } := rfl
  cases kind with
  | l2 => exact ⟨_, congrArg Host.Outcome.next hgo⟩
  | xl =>
    simp only [exec, execPref]
    split
    · exact ⟨_, congrArg Host.Outcome.next hgo⟩
    · split
      · next e _ =>
        rw [State.modCore, hgo, State.core_modCore_self]
        by_cases he : (s.core s.cur).tlb.contains e = true
        · simp only [he, if_true]
          exact ⟨_, congrArg Host.Outcome.next (setCore_setCore _ _ _ _)⟩
        · simp only [he]
          exact ⟨_, congrArg Host.Outcome.next (setCore_setCore _ _ _ _)⟩
      · exact ⟨_, congrArg Host.Outcome.next hgo⟩

/-- Settles O18: the jumps and the instructions that go on by what they make of the pc, `call` by its write of the link
register, and the prefetches by `exec_pref`. -/
theorem jumpsCallsAndReturns : Obligations.JumpsCallsAndReturns := by
  intro s a off imm label kind p goal
  refine ⟨jumps_of _ _ _ rfl, ⟨_, rfl, onlyPump_modPump _ _ _, fun r => ?callReads, ?callRest⟩, jumps_ret s a,
    faults_ret s a, jumps_goOn _ _ rfl, jumps_goOn _ _ rfl, jumps_goOn _ _ rfl, jumps_goOn _ _ rfl, ?pref⟩
  case callReads =>
    rw [State.pump_modPump_self]
    change (p.write linkReg (p.pc + 8)).read r = _
    split
    · next h => rw [h]; exact Pump.read_write_self _ linkReg _ (by decide)
    · next h => exact Pump.read_write_ne _ _ _ _ h
  case callRest => rw [State.pump_modPump_self]; rfl
  case pref =>
    obtain ⟨l, hl⟩ := exec_pref kind a imm s
    refine ⟨_, hl, onlyCore_modCore _ _ _, ?_⟩
    rw [State.core_modCore_self]
    rfl

end Sys2Proof

/-! Traps that are taken and traps that are refused (R117, R119, R121, R446): `trap`, `brk` and `eret`. -/

namespace Sys2Proof

open Machine

/-! ### A trap that can be taken (R117) -/

theorem refuses_eq_false {p : Pump} (hht : p.ht = false) (htvec : p.tvec ≠ 0) : p.refuses = false := by
  simp only [Pump.refuses, hht, Bool.false_or, decide_eq_false_iff_not]
  exact htvec

theorem refuses_unblock (p : Pump) (now : Nat) : (p.unblock now).refuses = p.refuses := by
  simp [Pump.refuses]

/-- A pump that does not refuse traps enters one as R117 says, whatever traps are pending. -/
theorem entered_of_not_refuses {p : Pump} (now : Nat) (cause : Cause) (epc : Word) (h : p.refuses = false) :
    Entered p ((p.unblock now).takeTrap cause epc) cause epc := by
  have e : (p.unblock now).takeTrap cause epc =
      { p.unblock now with
        tcause := cause, epc := va56 epc, savedLast := p.last, pht := p.ht, ht := true, pc := p.tvec, block := none, page := none } := by
    rw [Pump.takeTrap, refuses_unblock, h]
    simp
  rw [e]
  unfold Pump.unblock
  split
  · exact ⟨rfl, rfl, rfl, rfl, rfl, rfl, rfl, fun a b => by simp_all⟩
  · exact ⟨rfl, rfl, rfl, rfl, rfl, rfl, rfl, fun _ _ => rfl⟩

theorem takeTrap_of_not_refuses (s : State) (c : CoreId) (cause : Cause) (epc : Word) (h : (s.pump c).refuses = false) :
    s.takeTrap c cause epc = s.modPump c fun p => (p.unblock s.now).takeTrap cause epc := by
  rw [State.takeTrap, h]
  rfl

/-- An instruction that takes a trap in a pump that does not refuse it. -/
theorem trapsOn_of_not_refuses (c : CoreId) (i : Instr) (s : State) (cause : Cause) (epc : Word)
    (h : (s.pump c).refuses = false) (e : exec i s = .next (s.takeTrap c cause epc)) : TrapsOn c i s cause epc := by
  refine ⟨_, by rw [e, takeTrap_of_not_refuses s c cause epc h], onlyPump_modPump _ _ _, ?_⟩
  rw [State.pump_modPump_self]
  exact entered_of_not_refuses _ _ _ h

/-! ### A trap that is refused (R121, R446) -/

theorem haltAll_haltAll (k : Core) : k.haltAll.haltAll = k.haltAll := by
  have hpump : k.haltAll.haltAll.pump = k.haltAll.pump := by
    by_cases h : k.pump.run = .running ∨ k.pump.run = .frozen
    · simp [Core.haltAll, h]
    · simp [Core.haltAll, h]
  have hfab : k.haltAll.haltAll.fab = k.haltAll.fab := by
    simp [Core.haltAll, mapVec, Function.comp_def]
  calc k.haltAll.haltAll = { k.haltAll with pump := k.haltAll.haltAll.pump, fab := k.haltAll.haltAll.fab } := rfl
    _ = k.haltAll := by rw [hpump, hfab]

theorem core_haltCores (s : State) (cs : List CoreId) (d : CoreId) :
    (s.haltCores cs).core d = if d ∈ cs then (s.core d).haltAll else s.core d := by
  induction cs generalizing s with
  | nil => rfl
  | cons c r ih =>
    have ih' : (s.haltCores (c :: r)).core d = _ := ih (s.modCore c Core.haltAll)
    rw [ih']
    by_cases hd : d = c
    · subst hd
      simp only [State.core_modCore_self, haltAll_haltAll, List.mem_cons, true_or, if_true, ite_self]
    · simp only [State.core_modCore_ne _ _ _ _ hd, List.mem_cons, hd, false_or]

theorem haltCores_eq (s : State) (cs : List CoreId) : s.haltCores cs = { s with cores := (s.haltCores cs).cores } := by
  induction cs generalizing s with
  | nil => rfl
  | cons c r ih => exact ih (s.modCore c Core.haltAll)

/-- The pump after a trap that it refuses. -/
def refusedPump (p : Pump) (now : Nat) (cause : Cause) (epc : Word) : Pump :=
  { p.unblock now with run := .fatal, fatalBy := some (cause, va56 epc), block := none, page := none }

theorem takeTrap_unblock_of_refuses {p : Pump} (now : Nat) (cause : Cause) (epc : Word) (h : p.refuses = true) :
    (p.unblock now).takeTrap cause epc = refusedPump p now cause epc := by
  rw [Pump.takeTrap, refuses_unblock, h]
  rfl

theorem refusedPump_eq (p : Pump) (now : Nat) (cause : Cause) (epc : Word) : refusedPump p now cause epc =
    { p with run := .fatal, fatalBy := some (cause, va56 epc), block := none, page := none,
             stallCycles := (refusedPump p now cause epc).stallCycles } := by
  unfold refusedPump Pump.unblock
  split <;> rfl

/-- A pump that has stopped for a fatal end stays as it is when its group stops. -/
theorem pump_haltAll_of_fatal {k : Core} (h : k.pump.run = .fatal) : k.haltAll.pump = k.pump := by
  simp [Core.haltAll, h]

/-- The cores of the flow that core `c` serves. -/
def groupOf (s : State) (c : CoreId) : List CoreId := ((s.flowOf c).map Flow.cores).getD []

theorem haltGroup_eq (s : State) (c : CoreId) : s.haltGroup c = s.haltCores (groupOf s c) := by
  rw [State.haltGroup, groupOf]
  cases s.flowOf c <;> rfl

section
variable {s : State} {c : CoreId} (h : (s.pump c).refuses = true) (cause : Cause) (epc : Word)
include h

theorem takeTrap_of_refuses : s.takeTrap c cause epc =
    (s.modPump c fun p => refusedPump p s.now cause epc).haltCores (groupOf s c) := by
  have hmod : (s.modPump c fun p => (p.unblock s.now).takeTrap cause epc) = s.modPump c fun p => refusedPump p s.now cause epc :=
    modPump_congr s c (takeTrap_unblock_of_refuses _ _ _ h)
  have hgroup : groupOf (s.modPump c fun p => refusedPump p s.now cause epc) c = groupOf s c := by
    simp only [groupOf, State.flowOf, State.modPump_flows, State.pump_modPump_self, refusedPump, Pump.unblock_flow]
  rw [State.takeTrap, hmod, h, if_pos rfl, haltGroup_eq, hgroup]

theorem core_takeTrap_of_refuses (d : CoreId) : (s.takeTrap c cause epc).core d =
    let k := if d = c then { s.core c with pump := refusedPump (s.pump c) s.now cause epc } else s.core d
    if d ∈ groupOf s c then k.haltAll else k := by
  rw [takeTrap_of_refuses h, core_haltCores]
  by_cases hd : d = c
  · subst hd
    rw [State.core_modPump_self, if_pos rfl]
  · rw [State.core_modPump_ne _ _ _ _ hd, if_neg hd]

theorem pump_takeTrap_of_refuses : (s.takeTrap c cause epc).pump c = refusedPump (s.pump c) s.now cause epc := by
  rw [State.pump, core_takeTrap_of_refuses h]
  simp only [if_true]
  split
  · exact pump_haltAll_of_fatal rfl
  · rfl

/-- A refused trap stops the group and nothing else (R121, R446). -/
theorem groupStops_takeTrap : GroupStops c s (s.takeTrap c cause epc) := by
  refine ⟨?_, fun d => ?_⟩
  · rw [takeTrap_of_refuses h]
    exact haltCores_eq (s.modPump c fun p => refusedPump p s.now cause epc) (groupOf s c)
  · rw [core_takeTrap_of_refuses h, pump_takeTrap_of_refuses h, groupOf]
    cases s.flowOf c with
    | none => exact if_neg List.not_mem_nil
    | some f => rfl

end

theorem turn_of_not_running {s : State} {c : CoreId} (h : (s.pump c).run ≠ .running) : s.turn c = .rest := by
  simp [State.turn, h]

/-! ### `trap`, `brk` and `eret` -/

/-- Settles O20: both take their trap at the next instruction, which the pump enters or refuses. -/
theorem softwareTrapsEnterTheHandler : Obligations.SoftwareTrapsEnterTheHandler := by
  intro s imm p
  refine ⟨fun hht htvec => ?_, fun hrefuse i cause hi => ?_⟩
  · have h := refuses_eq_false hht htvec
    exact ⟨trapsOn_of_not_refuses _ _ s _ _ h rfl, trapsOn_of_not_refuses _ _ s _ _ h rfl⟩
  · have h : p.refuses = true := by
      simpa only [Pump.refuses, Bool.or_eq_true, decide_eq_true_eq] using hrefuse
    have hexec : exec i s = .next (s.takeTrap s.cur cause (nextPc s)) := by
      obtain ⟨rfl, rfl⟩ | ⟨rfl, rfl⟩ := hi
      · rfl
      · rfl
    have hpump := pump_takeTrap_of_refuses h cause (nextPc s)
    refine ⟨_, hexec, groupStops_takeTrap h _ _, by rw [hpump]; rfl, by rw [hpump]; rfl, ?_, turn_of_not_running ?_⟩
    · rw [hpump]
      exact refusedPump_eq _ _ _ _
    · rw [hpump]
      exact Run.noConfusion

/-- In a handler a fault is refused, whatever traps are pending (R121, R449). -/
theorem takeFault_of_ht {s : State} {c : CoreId} (h : (s.pump c).ht = true) (cause : Cause) (epc : Word) :
    s.takeFault c cause epc = s.takeTrap c cause epc := by
  rw [State.takeFault]
  split
  · rw [if_pos h]
  · rfl

theorem exec_eret_outside {s : State} (h : (s.pump s.cur).ht = false) :
    exec .eret s = s.outcome s.cur .eret (.error (illegal .eret)) := by
  simp only [exec, execEret, h, Bool.not_false, if_true]

theorem exec_eret_misaligned {s : State} (h : (s.pump s.cur).ht = true) (h8 : (s.pump s.cur).epc.toNat % 8 ≠ 0) :
    exec .eret s = s.outcome s.cur .eret (.error (fault 0x02 (s.pump s.cur).epc)) := by
  simp only [exec, execEret, h, Bool.not_true, Bool.false_eq_true, if_false, if_pos h8]

theorem exec_eret_aligned {s : State} (h : (s.pump s.cur).ht = true) (h8 : (s.pump s.cur).epc.toNat % 8 = 0) :
    exec .eret s = .next (s.modPump s.cur Pump.returnFromTrap) := by
  simp only [exec, execEret, h, h8, Bool.not_true, Bool.false_eq_true, if_false, ne_eq, not_true]
  rfl

/-- Settles O21: the two checks of `eret`, the second of which fails in a handler and so is refused. -/
theorem eretRestoresTheInterruptedFlow : Obligations.EretRestoresTheInterruptedFlow := by
  intro s p
  refine ⟨fun hc => ?outside, fun hht h8 => ?aligned, fun hht h8 => ?misaligned⟩
  case outside => exact faults_of _ _ _ _ _ (exec_eret_outside hc.1) rfl hc
  case aligned => exact ⟨_, exec_eret_aligned hht h8, onlyPump_modPump _ _ _, State.pump_modPump_self _ _ _⟩
  case misaligned =>
    have h : p.refuses = true := by
      rw [Pump.refuses, hht, Bool.true_or]
    have hpump := pump_takeTrap_of_refuses h (precise 0x02 p.epc) p.pc
    refine ⟨s.takeTrap s.cur (precise 0x02 p.epc) p.pc, ?_, groupStops_takeTrap h _ _, by rw [hpump]; rfl, by rw [hpump]; rfl⟩
    rw [exec_eret_misaligned hht h8, State.outcome_error]
    exact congrArg Host.Outcome.next (takeFault_of_ht hht _ _)

end Sys2Proof

/-! System registers (R96, R123, R126): their words as numbers, and what a write leaves in each of them. -/

namespace Sys2Proof

open Machine

/-! ### Words made of fields -/

theorem toNat_append_eq {m n : Nat} (x : BitVec m) (y : BitVec n) : (x ++ y).toNat = 2 ^ n * x.toNat + y.toNat := by
  rw [BitVec.toNat_append, ← Nat.shiftLeft_add_eq_or_of_lt y.isLt, Nat.shiftLeft_eq, Nat.mul_comm]

theorem toNat_ofBool_eq (b : Bool) : (BitVec.ofBool b).toNat = if b then 1 else 0 := by
  cases b <;> rfl

theorem toNat_status (p : Pump) : p.status.toNat =
    (if p.ht then 1 else 0) + 2 * (if p.pht then 1 else 0) + 4 * (if p.ypend then 1 else 0) := by
  simp only [Pump.status, toNat_append_eq, toNat_ofBool_eq, BitVec.toNat_ofNat]
  omega

theorem toNat_causeWord (c : Cause) :
    c.word.toNat = c.code.toNat + 256 * c.region.toNat + 2048 * if c.fab then 1 else 0 := by
  simp only [Cause.word, toNat_append_eq, toNat_ofBool_eq, BitVec.toNat_ofNat]
  omega

theorem toNat_coreWord (s : State) (c : CoreId) : (s.coreWord c).toNat = 256 * s.pkg.toNat + c.val := by
  have hc := c.isLt
  simp only [State.coreWord, toNat_append_eq, BitVec.toNat_ofNat]
  omega

theorem toNat_flowWord (p : Pump) : p.flowWord.toNat = 2 ^ 32 * p.prio.toNat + p.flow.toNat := by
  simp only [Pump.flowWord, toNat_append_eq, BitVec.toNat_ofNat]
  omega

theorem toNat_stallWord (p : Pump) : p.stallWord.toNat = 2 ^ 32 * p.stallWhy.toNat + p.stallCycles.toNat := by
  simp only [Pump.stallWord, toNat_append_eq, BitVec.toNat_ofNat]
  omega

theorem toNat_fflagsWord (f : Flags) : (f.setWidth 64 : Word).toNat = f.toNat := by
  have hf := f.isLt
  rw [BitVec.toNat_setWidth, Nat.mod_eq_of_lt (by omega)]

/-- Settles O22: `srd` gives the word of its register, which the lemmas above read as a number. -/
theorem systemRegistersReadByTheirLayout : Obligations.SystemRegistersReadByTheirLayout := by
  intro s d n p c bit reads
  have reads_of (r : SReg) (v : Nat) (h : (s.readSReg s.cur r).toNat = v) : reads r v := computes_of _ _ _ _ _ rfl h
  refine ⟨reads_of .isa _ rfl, reads_of .feat0 _ rfl, reads_of .feat1 _ rfl, reads_of .feat2 _ rfl, reads_of .feat3 _ rfl,
    reads_of .core _ (toNat_coreWord s s.cur), reads_of .flow _ (toNat_flowWord p), reads_of .status _ (toNat_status p),
    reads_of .tvec _ rfl, reads_of .tcause _ (toNat_causeWord c), reads_of .tval _ rfl, reads_of .epc _ rfl,
    reads_of .cycle _ (BitVec.toNat_ofNat _ _), reads_of .fflags _ (toNat_fflagsWord p.fflags), reads_of .seed _ rfl,
    reads_of .stall _ (toNat_stallWord p),
    computes_of _ _ _ (if s.part.feature n.toNat = true then 1 else 0) _ rfl ?feat⟩
  case feat => simp only [Part.feature, Bool.and_eq_true, decide_eq_true_eq]

/-! ### Writes (R123) -/

/-- A word whose bits from `k` up are reserved and zero. -/
theorem toNat_lt_of_reserved {v : Word} (k : Nat) (h : v &&& ~~~BitVec.ofNat 64 (2 ^ k - 1) = 0) : v.toNat < 2 ^ k := by
  refine Nat.lt_pow_two_of_testBit _ fun i hi => ?_
  by_cases hlt : i < 64
  · have hbit := congrArg (fun w => BitVec.getLsbD w i) h
    have hlow : (BitVec.ofNat 64 (2 ^ k - 1)).getLsbD i = false := by
      rw [getLsbD_lowMask k i hlt, decide_eq_false_iff_not]
      omega
    rw [BitVec.getLsbD_and, BitVec.getLsbD_not, hlow, decide_eq_true hlt] at hbit
    change v.getLsbD i = false
    simpa only [Bool.not_false, Bool.and_true] using hbit.trans BitVec.getLsbD_zero
  · exact BitVec.getLsbD_of_ge v i (by omega)

theorem toNat_ofBool_getLsbD (v : Word) (i : Nat) : (BitVec.ofBool (v.getLsbD i)).toNat = v.toNat / 2 ^ i % 2 := by
  rw [BitVec.toNat_ofBool]
  exact Nat.toNat_testBit v.toNat i

theorem status_of_word (v : Word) (y : Bool) :
    (0#61 ++ BitVec.ofBool y ++ BitVec.ofBool (v.getLsbD 1) ++ BitVec.ofBool (v.getLsbD 0) : BitVec 64) =
      v &&& 3 ||| if y then 4 else 0 := by
  apply BitVec.eq_of_toNat_eq
  have hand : (v &&& 3).toNat = v.toNat % 4 := Nat.and_two_pow_sub_one_eq_mod v.toNat 2
  have hlt : v.toNat % 4 < 2 ^ 2 := Nat.mod_lt _ (by decide)
  simp only [toNat_append_eq, toNat_ofBool_getLsbD, BitVec.toNat_or, hand]
  cases y with
  | false =>
    have hor : v.toNat % 4 ||| (0 : Word).toNat = v.toNat % 4 := Nat.or_zero _
    simp only [toNat_ofBool_eq, Bool.false_eq_true, if_false, BitVec.toNat_ofNat, hor]
    omega
  | true =>
    have hor : v.toNat % 4 ||| (4 : Word).toNat = 4 + v.toNat % 4 :=
      (Nat.or_comm _ _).trans (Nat.two_pow_add_eq_or_of_lt hlt 1).symm
    simp only [toNat_ofBool_eq, if_true, BitVec.toNat_ofNat, hor]
    omega

theorem causeWord_of_word {v : Word} (hv : v.toNat < 2 ^ 12) :
    (0#52 ++ BitVec.ofBool (v.getLsbD 11) ++ v.extractLsb' 8 3 ++ v.setWidth 8 : BitVec 64) = v := by
  apply BitVec.eq_of_toNat_eq
  simp only [toNat_append_eq, toNat_ofBool_getLsbD, BitVec.extractLsb'_toNat, BitVec.toNat_setWidth, BitVec.toNat_ofNat,
    Nat.shiftRight_eq_div_pow]
  omega

/-- The pump after a write of a system register reads its g, k and `last` as before. -/
theorem read_writeSReg (p : Pump) (r : SReg) (v : Word) (x : Reg) : (p.writeSReg r v).read x = p.read x := by
  cases r <;> cases x <;> rfl

/-- A write of a system register leaves the pc and the registers that are none. -/
theorem writeSReg_keeps (p : Pump) (r : SReg) (v : Word) : (p.writeSReg r v).q = p.q ∧ (p.writeSReg r v).pc = p.pc ∧
    (p.writeSReg r v).savedLast = p.savedLast ∧ (p.writeSReg r v).handles = p.handles := by
  cases r <;> exact ⟨rfl, rfl, rfl, rfl⟩

/-- The state after an `swr` that is not refused. -/
def afterSwr (s : State) (r : SReg) (v : Word) : State := s.modPump s.cur fun p => (p.writeSReg r v).advance

theorem pump_afterSwr (s : State) (r : SReg) (v : Word) :
    (afterSwr s r v).pump s.cur = ((s.pump s.cur).writeSReg r v).advance := State.pump_modPump_self _ _ _

theorem cycleOf_afterSwr (s : State) (r : SReg) (v : Word) : (afterSwr s r v).cycleOf s.cur = s.cycleOf s.cur := by
  simp only [afterSwr, State.cycleOf, State.core_modPump_self, State.modPump_now]

/-- A written register reads the value, but for ypend of `s.status`, where its reserved bits are zero. -/
theorem readSReg_afterSwr_self {s : State} {r : SReg} {v : Word} (hw : r.writable = true) (hv : v &&& r.reserved = 0) :
    (afterSwr s r v).readSReg s.cur r =
      if r = .status then v &&& 3 ||| (if (s.pump s.cur).ypend then 4 else 0) else v := by
  simp only [State.readSReg, pump_afterSwr]
  cases r with
  | status => exact status_of_word v _
  | tcause => exact causeWord_of_word (toNat_lt_of_reserved 12 hv)
  | fflags =>
    have hlt : v.toNat < 2 ^ 6 := toNat_lt_of_reserved 6 hv
    refine BitVec.eq_of_toNat_eq ((toNat_fflagsWord _).trans ?_)
    change (v.setWidth 6).toNat = v.toNat
    rw [BitVec.toNat_setWidth, Nat.mod_eq_of_lt hlt]
  | tvec => rfl
  | tval => rfl
  | epc => rfl
  | seed => rfl
  | _ => exact absurd hw Bool.false_ne_true

/-- The other system registers read as before. -/
theorem readSReg_afterSwr_ne {s : State} {r x : SReg} {v : Word} (h : x ≠ r) :
    (afterSwr s r v).readSReg s.cur x = s.readSReg s.cur x := by
  simp only [State.readSReg, pump_afterSwr, cycleOf_afterSwr]
  cases r with
  | status =>
    cases x with
    | status => exact absurd rfl h
    | _ => rfl
  | tvec =>
    cases x with
    | tvec => exact absurd rfl h
    | _ => rfl
  | tcause =>
    cases x with
    | tcause => exact absurd rfl h
    | _ => rfl
  | tval =>
    cases x with
    | tval => exact absurd rfl h
    | _ => rfl
  | epc =>
    cases x with
    | epc => exact absurd rfl h
    | _ => rfl
  | fflags =>
    cases x with
    | fflags => exact absurd rfl h
    | _ => rfl
  | seed =>
    cases x with
    | seed => exact absurd rfl h
    | _ => rfl
  | _ => cases x <;> rfl

theorem exec_swr_of_reserved {s : State} {r : SReg} {a : Reg} (h : (s.pump s.cur).read a &&& r.reserved ≠ 0) :
    exec (.swr r a) s = s.outcome s.cur (.swr r a) (.error (illegal (.swr r a))) := by
  simp only [exec, execSwr, if_pos h]

theorem exec_swr {s : State} {r : SReg} {a : Reg} (h : (s.pump s.cur).read a &&& r.reserved = 0) :
    exec (.swr r a) s = .next (afterSwr s r ((s.pump s.cur).read a)) := by
  simp only [exec, execSwr, h, ne_eq, not_true, if_false]
  rfl

/-- Settles O23: a write by the two lemmas on what reads of system registers see of it, a refused one by its fault. -/
theorem systemRegisterWritesGoFieldByField : Obligations.SystemRegisterWritesGoFieldByField := by
  intro s r a hw p v
  refine ⟨fun hv => ?_, fun hv hc => faults_of _ _ _ _ _ (exec_swr_of_reserved hv) rfl hc⟩
  obtain ⟨hq, hpc, hlast, hhandles⟩ := writeSReg_keeps p r v
  refine ⟨_, exec_swr hv, onlyPump_modPump _ _ _, readSReg_afterSwr_self hw hv, fun x hx => readSReg_afterSwr_ne hx,
    fun x => ?_, ?_, ?_, ?_, ?_⟩ <;> rw [pump_afterSwr]
  · exact (Pump.read_advance _ x).trans (read_writeSReg p r v x)
  · exact hq
  · exact congrArg (· + 8) hpc
  · exact hlast
  · exact hhandles

end Sys2Proof

/-! The checks of pump accesses (R116, R295): what denies an access, and the fault that each instruction takes for it. -/

namespace Sys2Proof

open Machine

/-! ### What the performing of stores leaves alone (R276, R345) -/

/-- `t` is `s` after stores have been performed: the flows stand, and of each core only the pending asynchronous traps of its pump
may have changed. -/
structure StoresPerformed (s t : State) : Prop where
  flows : t.flows = s.flows
  core : ∀ d, t.core d = { s.core d with pump := { s.pump d with asyncs := (t.pump d).asyncs } }

theorem StoresPerformed.refl (s : State) : StoresPerformed s s := ⟨rfl, fun _ => rfl⟩

theorem StoresPerformed.trans {s t u : State} (h : StoresPerformed s t) (k : StoresPerformed t u) : StoresPerformed s u := by
  refine ⟨k.flows.trans h.flows, fun d => ?_⟩
  rw [k.core d, State.pump, h.core d]

theorem storesPerformed_of_cores {s t : State} (hf : t.flows = s.flows) (hc : t.cores = s.cores) : StoresPerformed s t := by
  refine ⟨hf, fun d => ?_⟩
  simp only [State.pump, State.core, hc]

theorem storesPerformed_postAsync (s : State) (c : CoreId) (cause : Cause) : StoresPerformed s (s.postAsync c cause) := by
  refine ⟨rfl, fun d => ?_⟩
  by_cases hd : d = c
  · subst hd
    simp only [State.postAsync, State.core_modPump_self, State.pump_modPump_self]
  · simp only [State.postAsync, State.pump, State.core_modPump_ne _ _ _ _ hd]

theorem storesPerformed_performPending (s : State) (w : Pending) : StoresPerformed s (s.performPending w) := by
  have h := onlyMemory_perform s w.pa w.bytes w.raw w.by_ false w.rels (w.bind.map fun _ => w.core)
  unfold State.performPending
  split
  · next heq =>
    rw [heq] at h
    exact storesPerformed_of_cores h.flows h.cores
  · next heq =>
    rw [heq] at h
    exact (storesPerformed_of_cores h.flows h.cores).trans (storesPerformed_postAsync _ _ _)

theorem storesPerformed_performAll (sel : Pending → Bool) (ws : List Pending) (s : State) :
    StoresPerformed s (performAll sel ws s) := by
  induction ws generalizing s with
  | nil => exact .refl s
  | cons w r ih =>
    simp only [performAll]
    split
    · exact (storesPerformed_performPending s w).trans (ih _)
    · exact .trans (t := { s with pending := s.pending ++ [w] }) (storesPerformed_of_cores rfl rfl) (ih _)

theorem storesPerformed_performWhere (s : State) (sel : Pending → Bool) : StoresPerformed s (s.performWhere sel) :=
  .trans (t := { s with pending := [] }) (storesPerformed_of_cores rfl rfl) (storesPerformed_performAll _ _ _)

theorem storesPerformed_markRelease (s : State) (c : CoreId) (scope : Scope) (kind : Carrier) :
    StoresPerformed s (s.markRelease c scope kind) := by
  unfold State.markRelease State.addRelease
  split
  · exact .refl s
  · split
    · exact storesPerformed_of_cores rfl rfl
    · exact .refl s

theorem storesPerformed_releaseAt (s : State) (c : CoreId) (scope : Scope) (kind : Carrier) :
    StoresPerformed s (s.releaseAt c scope kind) := by
  unfold State.releaseAt
  split
  · exact .refl s
  · exact (storesPerformed_performWhere _ _).trans (storesPerformed_markRelease _ _ _ _)

theorem storesPerformed_afterRelease (s : State) (i : Instr) : StoresPerformed s (afterRelease s i) := by
  unfold afterRelease
  split
  · exact storesPerformed_releaseAt _ _ _ _
  · exact storesPerformed_releaseAt _ _ _ _
  · exact .refl s

section
variable {s t : State} (h : StoresPerformed s t)
include h

theorem StoresPerformed.launch (d : CoreId) : t.launch d = s.launch d := by
  rw [State.launch, h.core d]
  rfl

theorem StoresPerformed.cisternPlace (c : CoreId) (ea : Word) : t.cisternPlace c ea = s.cisternPlace c ea := by
  have hflow : t.flowOf c = s.flowOf c := by
    rw [State.flowOf, State.flowOf, h.flows, State.pump, h.core c]
  simp only [State.cisternPlace, hflow, h.flows]

end

/-! ### What denies an access (R295) -/

/-- The access `x` of core `c` ends in the fault `code`: it is misaligned, or its page forbids it, or it names no open window. -/
def Denied (s : State) (c : CoreId) (x : Access) (code : Code) : Prop :=
  x.ea.toNat % x.size ≠ 0 ∧ code = 0x02 ∨
    x.ea.toNat % x.size = 0 ∧ code = 0x04 ∧
      if x.cistern then s.cisternPlace c x.ea = .closed else s.translate c x.ea x.need = .forbidden

section
variable {s : State} {c : CoreId} {ea : Word} {n : Nat} {code : Code}

theorem paOf_of_forbidden {need : Need} (h : s.translate c ea need = .forbidden) : s.paOf c ea need = .error (fault 0x04 ea) := by
  rw [State.paOf, h]

theorem loadV_of_denied (h : Denied s c ⟨ea, n, false, .rd⟩ code) : s.loadV c ea n = .error (fault code ea) := by
  obtain ⟨ha, rfl⟩ | ⟨ha, rfl, hf⟩ := h
  · simp only [State.loadV, if_pos ha]
    rfl
  · simp only [State.loadV, if_neg (not_not.mpr ha), paOf_of_forbidden hf]
    rfl

theorem cisternAt_of_denied {need : Need} (h : Denied s c ⟨ea, n, true, need⟩ code) :
    s.cisternAt c ea n = .error (fault code ea) := by
  obtain ⟨ha, rfl⟩ | ⟨ha, rfl, hf⟩ := h
  · simp only [State.cisternAt, if_pos ha]
    rfl
  · have hp : s.cisternPlace c ea = .closed := hf
    simp only [State.cisternAt, if_neg (not_not.mpr ha), hp]
    rfl

theorem load_of_denied {cistern : Bool} (h : Denied s c ⟨ea, n, cistern, .rd⟩ code) :
    s.load c cistern ea n = .error (fault code ea) := by
  cases cistern with
  | false => exact loadV_of_denied h
  | true =>
    simp only [State.load, if_true, State.loadC, cisternAt_of_denied h]
    rfl

theorem storeV_of_denied {bytes : List Byte} (h : Denied s c ⟨ea, bytes.length, false, .wr⟩ code) :
    s.storeV c ea bytes = .error (fault code ea) := by
  obtain ⟨ha, rfl⟩ | ⟨ha, rfl, hf⟩ := h
  · simp only [State.storeV, if_pos ha]
    rfl
  · simp only [State.storeV, if_neg (not_not.mpr ha), paOf_of_forbidden hf]
    rfl

theorem store_of_denied {cistern : Bool} {bytes : List Byte} (h : Denied s c ⟨ea, bytes.length, cistern, .wr⟩ code) :
    s.store c cistern ea bytes = .error (fault code ea) := by
  cases cistern with
  | false => exact storeV_of_denied h
  | true =>
    obtain ⟨ha, rfl⟩ | ⟨ha, rfl, hf⟩ := h
    · simp only [State.store, if_true, State.storeC, if_pos ha]
      rfl
    · have hp : s.cisternPlace c ea = .closed := hf
      simp only [State.store, if_true, State.storeC, if_neg (not_not.mpr ha), hp]
      rfl

theorem amo_of_denied {d a : Reg} {ord : AmoOrd} {new : Word → Option Word}
    (h : Denied s c ⟨(s.pump c).read a, n, false, .rw⟩ code) :
    s.amo c d a n ord new = .error (fault code ((s.pump c).read a)) := by
  obtain ⟨ha, rfl⟩ | ⟨ha, rfl, hf⟩ := h
  · simp only [State.amo, if_pos ha]
    rfl
  · simp only [State.amo, if_neg (not_not.mpr ha), paOf_of_forbidden hf]
    rfl

theorem feature_nma (p : Part) : p.feature 18 = true := by
  cases p <;> rfl

theorem nmaTry_of_denied {op : NmaOp} {d a : Reg} {imm : BitVec 32}
    (h : Denied s c ⟨(s.pump c).ea a imm, 4, false, .rw⟩ code) :
    s.nmaTry c op d a imm = .error (fault code ((s.pump c).ea a imm)) := by
  obtain ⟨ha, rfl⟩ | ⟨ha, rfl, hf⟩ := h
  · simp only [State.nmaTry, feature_nma, if_pos ha]
    rfl
  · simp only [State.nmaTry, feature_nma, if_neg (not_not.mpr ha), paOf_of_forbidden hf]
    rfl

end

@[simp] theorem length_toLE (n v : Nat) : (toLE n v).length = n := by
  induction n generalizing v with
  | zero => rfl
  | succ n ih => simp [toLE, ih]

/-- An instruction whose access is denied in the state in which it acts ends in that fault. -/
theorem exec_of_denied {s : State} {i : Instr} {x : Access} {code : Code} (hi : accessOf (s.pump s.cur) i = some x)
    (h : Denied (afterRelease s i) s.cur x code) : exec i s = s.outcome s.cur i (.error (fault code x.ea)) := by
  cases i with
  | ld size cis acq d a imm =>
    cases hi
    have hload := load_of_denied (s := s) (ea := (s.pump s.cur).ea a imm) h
    simp only [exec, execLd, hload]
    rfl
  | ldq f cis q a imm =>
    cases hi
    have hload := load_of_denied (s := s) (ea := (s.pump s.cur).ea a imm) h
    simp only [exec, execLdq, hload]
    rfl
  | aimp t f qd qa ga =>
    cases hi
    have hload := loadV_of_denied (s := s) h
    have hb : elementBytes (decide (t = .int4)) = if t = .int4 then 2 else 4 := by cases t <;> rfl
    simp only [exec, execAimp, hb, hload]
    rfl
  | lds d a imm =>
    cases hi
    have hplace := cisternAt_of_denied (s := s) (ea := (s.pump s.cur).ea a imm) h
    simp only [exec, execLds, State.ldsTry, hplace]
    rfl
  | st size cis rel d a imm =>
    cases hi
    have hstore := store_of_denied (s := afterRelease s (.st size cis rel d a imm)) (ea := (s.pump s.cur).ea a imm)
      (bytes := toLE size.bytes ((s.pump s.cur).read d).toNat) (code := code) (by rw [length_toLE]; exact h)
    cases rel with
    | none =>
      simp only [afterRelease] at hstore
      simp only [exec, execSt, hstore]
      rfl
    | some scope =>
      simp only [afterRelease] at hstore
      simp only [exec, execSt, hstore]
      rfl
  | stq f cis q a imm =>
    cases hi
    have hstore := store_of_denied (s := s) (ea := (s.pump s.cur).ea a imm)
      (bytes := toLE f.bytes (s.pump s.cur).q[q.toFin].val.toNat) (code := code) (by rw [length_toLE]; exact h)
    simp only [exec, execStq, hstore]
    rfl
  | aexp t qa qb ga =>
    cases hi
    have hb : elementBytes (decide (t = .int4)) = if t = .int4 then 2 else 4 := by cases t <;> rfl
    simp only [exec, execAexp]
    rw [storeV_of_denied (code := code) (by rw [length_toLE, hb]; exact h)]
    rfl
  | stf d a imm =>
    cases hi
    change Denied _ _ ⟨(s.pump s.cur).ea a imm, 8, true, .wr⟩ code at h
    obtain ⟨ha, rfl⟩ | ⟨ha, rfl, hp⟩ := h
    · simp only [exec, execStf, if_pos ha]
      rfl
    · have hplace : s.cisternPlace s.cur ((s.pump s.cur).ea a imm) = .closed :=
        ((storesPerformed_afterRelease s (.stf d a imm)).cisternPlace _ _).symm.trans hp
      simp only [exec, execStf, if_neg (not_not.mpr ha), hplace]
      rfl
  | amo op ord d a b =>
    cases hi
    have hb : op.bytes = if op = .fadd then 4 else 8 := by cases op <;> rfl
    simp only [exec, execAmo, hb]
    rw [amo_of_denied (s := s) h]
  | amoCas ord d a b c =>
    cases hi
    simp only [exec, execAmoCas]
    rw [amo_of_denied (s := s) h]
  | nma op d a imm =>
    cases hi
    simp only [exec, execNma]
    rw [nmaTry_of_denied (s := s) h]
    rfl
  | _ => cases hi

/-! ### The faults -/

theorem translate_of_outside {s : State} {c : CoreId} {ea : Word} {n : Need} (hn : (n.r || n.w) = true)
    (h : 2 ^ 56 ≤ ea.toNat ∨ (s.launch c).inCode ea = true) : s.translate c ea n = .forbidden := by
  by_cases h56 : 2 ^ 56 ≤ ea.toNat
  · simp only [State.translate, ge_iff_le, if_pos h56]
  · have hcode : (s.launch c).inCode ea = true := h.resolve_left h56
    simp only [Launch.inCode] at hcode
    simp only [State.translate, ge_iff_le, if_neg h56, hn, Bool.true_and, hcode, if_true]

/-- Every access reads or writes. -/
theorem need_of_accessOf {p : Pump} {i : Instr} {x : Access} (h : accessOf p i = some x) : (x.need.r || x.need.w) = true := by
  cases i <;> cases h <;> rfl

/-- Only a `st` as a release, and `stf`, perform stores before their access. -/
theorem afterRelease_eq_self {s : State} {p : Pump} {i : Instr} {x : Access} (h : accessOf p i = some x) (hx : x.cistern = false)
    (hst : ∀ sz c sc d a imm, i ≠ .st sz c (some sc) d a imm) : afterRelease s i = s := by
  unfold afterRelease
  split
  · exact absurd rfl (hst _ _ _ _ _ _)
  · cases h
    cases hx
  · rfl

/-- Settles O26: each condition denies the access in the state in which it acts. -/
theorem accessesAreCheckedInOrder : Obligations.AccessesAreCheckedInOrder := by
  intro s i x hi hc
  have hperf := storesPerformed_afterRelease s i
  have faults {code : Code} (h : Denied (afterRelease s i) s.cur x code) : Faults i s code x.ea :=
    faults_of _ _ _ _ _ (exec_of_denied hi h) rfl hc
  refine ⟨fun ha => faults (.inl ⟨ha, rfl⟩), fun ha hx hout => faults (.inr ⟨ha, rfl, ?_⟩),
    fun ha hx hst hf => faults (.inr ⟨ha, rfl, ?_⟩), fun ha hx hp => faults (.inr ⟨ha, rfl, ?_⟩)⟩
  · rw [hx]
    exact translate_of_outside (need_of_accessOf hi) (by rwa [hperf.launch])
  · rw [hx, afterRelease_eq_self hi hx hst]
    exact hf
  · rw [hx]
    exact (hperf.cisternPlace _ _).trans hp

end Sys2Proof

/-! Asynchronous traps (R120, R121, R449): which pending trap is taken, and where. -/

namespace Sys2Proof

open Machine

/-! ### The first of the pending traps (R120) -/

theorem dropFirst_eq_erase (x : Cause) (l : List Cause) : dropFirst x l = l.erase x := by
  induction l with
  | nil => rfl
  | cons y r ih =>
    simp only [dropFirst, List.erase_cons, beq_iff_eq, ih]

/-- Of the traps pending one of the lowest code is taken. -/
theorem firstCause_spec {l : List Cause} {z : Cause} (hz : z ∈ l) :
    ∃ x, firstCause l = some x ∧ x ∈ l ∧ ∀ y ∈ l, x.code.toNat ≤ y.code.toNat := by
  induction l generalizing z with
  | nil => cases hz
  | cons a r ih =>
    cases r with
    | nil => exact ⟨a, rfl, List.mem_singleton_self a, fun y hy => by rw [List.mem_singleton.mp hy]⟩
    | cons b r =>
      obtain ⟨x, hx, hmem, hmin⟩ := ih (List.mem_cons_self (a := b))
      by_cases hlt : x.code.ult a.code = true
      · refine ⟨x, by simp only [firstCause] at hx ⊢; simp only [hx, hlt, if_true], List.mem_cons_of_mem a hmem, fun y hy => ?_⟩
        rcases List.mem_cons.mp hy with rfl | hy
        · simp only [BitVec.ult, decide_eq_true_eq] at hlt
          omega
        · exact hmin y hy
      · refine ⟨a, by simp only [firstCause] at hx ⊢; simp only [hx, hlt]; rfl, List.mem_cons_self, fun y hy => ?_⟩
        rcases List.mem_cons.mp hy with rfl | hy
        · exact Nat.le_refl _
        · have := hmin y hy
          simp only [BitVec.ult, decide_eq_true_eq] at hlt
          omega

/-- Where `cause` is a pending trap of the lowest code, the one taken has that code. -/
theorem firstCause_of_lowest {l : List Cause} {cause : Cause} (hc : cause ∈ l)
    (hmin : ∀ x ∈ l, cause.code.toNat ≤ x.code.toNat) : ∃ x, firstCause l = some x ∧ x ∈ l ∧ x.code = cause.code := by
  obtain ⟨x, hx, hmem, hlow⟩ := firstCause_spec hc
  exact ⟨x, hx, hmem, BitVec.eq_of_toNat_eq (Nat.le_antisymm (hlow cause hc) (hmin x hmem))⟩

/-! ### Taking it (R117, R120) -/

/-- `t` is `s` after core `c` has taken the pending asynchronous trap `x` at `epc`. -/
structure AsyncTaken (c : CoreId) (s t : State) (x : Cause) (epc : Word) : Prop where
  only : OnlyPump c s t
  asyncs : (t.pump c).asyncs = (s.pump c).asyncs.erase x
  entered : Entered { s.pump c with asyncs := (t.pump c).asyncs } (t.pump c) x epc

theorem asyncTaken_takeAsync {s : State} {c : CoreId} (hht : (s.pump c).ht = false) (htvec : (s.pump c).tvec ≠ 0)
    (x : Cause) (epc : Word) : AsyncTaken c s (s.takeAsync c x epc) x epc := by
  have hpump : (s.modPump c fun q => { q with asyncs := dropFirst x q.asyncs }).pump c =
      { s.pump c with asyncs := (s.pump c).asyncs.erase x } := by
    rw [State.pump_modPump_self, dropFirst_eq_erase]
  have hrefuses : ((s.modPump c fun q => { q with asyncs := dropFirst x q.asyncs }).pump c).refuses = false := by
    rw [hpump]
    exact refuses_eq_false hht htvec
  have htake : s.takeAsync c x epc = _ := takeTrap_of_not_refuses _ c x epc hrefuses
  have hent := entered_of_not_refuses s.now x epc hrefuses
  have hasyncs : ((s.takeAsync c x epc).pump c).asyncs = (s.pump c).asyncs.erase x := by
    rw [htake, State.pump_modPump_self]
    rw [hpump] at hent ⊢
    exact congrArg Pump.asyncs hent.rest
  refine ⟨?_, hasyncs, ?_⟩
  · rw [htake]
    exact (onlyPump_modPump _ _ _).trans (onlyPump_modPump _ _ _)
  · rw [hasyncs, htake, State.pump_modPump_self]
    rwa [hpump] at hent ⊢

/-! ### ASYNC_TRAP_TAKEN (R120, R121) -/

theorem asyncReady_of_ht {p : Pump} (h : p.ht = true) : p.asyncReady = false := by
  simp [Pump.asyncReady, h]

theorem asyncReady_of_mem {p : Pump} {x : Cause} (hht : p.ht = false) (hb : p.abandonable = true) (hp : p.page = none)
    (hx : x ∈ p.asyncs) : p.asyncReady = true := by
  have hne : p.asyncs.isEmpty = false := List.isEmpty_eq_false_iff_exists_mem.mpr ⟨x, hx⟩
  simp [Pump.asyncReady, Pump.pageFree, hht, hb, hp, hne]

/-- Only an abandoned `bar` is marked (R319). -/
theorem abandon_of_not_bar {s : State} {c : CoreId} (h : ∀ scope, (s.pump c).block ≠ some (.bar scope)) : s.abandon c = s := by
  unfold State.abandon
  split
  · next heq => exact absurd heq (h _)
  · rfl

theorem exec_asyncTrapTaken_of_not_ready {s : State} {c : CoreId} (h : (s.pump c).asyncReady = false) :
    exec (.asyncTrapTaken c) s = .next s := by
  simp only [exec, execAsyncTrapTaken, h, Bool.not_false, Bool.or_true, if_true]
  split <;> rfl

theorem exec_asyncTrapTaken_of_ready {s : State} {c : CoreId} {x : Cause} (hx : firstCause (s.pump c).asyncs = some x)
    (hrun : (s.pump c).run = .running) (h : (s.pump c).asyncReady = true)
    (hbar : ∀ scope, (s.pump c).block ≠ some (.bar scope)) :
    exec (.asyncTrapTaken c) s = .next (s.takeAsync c x (s.pump c).pc) := by
  simp only [exec, execAsyncTrapTaken, hx, hrun, h, abandon_of_not_bar hbar, ne_eq, not_true, decide_false, Bool.not_true,
    Bool.or_false, Bool.false_eq_true, if_false]

/-! ### An asynchronous trap before a fault (R449) -/

theorem takeFault_of_pending {s : State} {c : CoreId} {x : Cause} (hx : firstCause (s.pump c).asyncs = some x)
    (hht : (s.pump c).ht = false) (cause : Cause) (epc : Word) : s.takeFault c cause epc = s.takeAsync c x epc := by
  simp only [State.takeFault, hx, hht, Bool.false_eq_true, if_false]

/-- Settles O25: the trap taken is the first of those pending, at its own boundary and in the place of a fault. -/
theorem asynchronousTrapsAreTakenInCodeOrder : Obligations.AsynchronousTrapsAreTakenInCodeOrder := by
  refine ⟨?boundary, ?fault⟩
  case boundary =>
    intro s c cause p hrun htvec hb hbar hp hc hmin
    refine ⟨fun hht => exec_asyncTrapTaken_of_not_ready (asyncReady_of_ht hht), fun hht => ?_⟩
    obtain ⟨x, hx, hmem, hcode⟩ := firstCause_of_lowest hc hmin
    obtain ⟨honly, hasyncs, hent⟩ := asyncTaken_takeAsync hht htvec x p.pc
    exact ⟨_, x, exec_asyncTrapTaken_of_ready hx hrun (asyncReady_of_mem hht hb hp hc) hbar, honly, hmem, hcode, hasyncs, hent⟩
  case fault =>
    intro s i a cause c p hi ha hht htvec hc hmin
    obtain ⟨x, hx, hmem, hcode⟩ := firstCause_of_lowest hc hmin
    obtain ⟨honly, hasyncs, hent⟩ := asyncTaken_takeAsync hht htvec x p.pc
    refine ⟨_, x, ?_, honly, hmem, hcode, hasyncs, hent⟩
    rw [exec_of_denied hi (.inl ⟨ha, rfl⟩), State.outcome_error]
    exact congrArg Host.Outcome.next (takeFault_of_pending hx hht _ _)

end Sys2Proof

/-! `yield` and `halt` (R124, R125, R318, R322): when a `halt` waits, and what the ends of its streams leave of the registers. -/

namespace Sys2Proof

open Machine

/-! ### The ends of streams leave the registers (R311, R318) -/

/-- The registers that a specifier can name stand in `t` as in `s`, for the pump of core `c`. -/
def SameReads (c : CoreId) (s t : State) : Prop := ∀ r, (t.pump c).read r = (s.pump c).read r

theorem SameReads.refl (c : CoreId) (s : State) : SameReads c s s := fun _ => rfl

theorem SameReads.trans {c : CoreId} {s t u : State} (h : SameReads c s t) (k : SameReads c t u) : SameReads c s u :=
  fun r => (k r).trans (h r)

theorem sameReads_of_pump {c : CoreId} {s t : State} (h : t.pump c = s.pump c) : SameReads c s t := fun r => by rw [h]

theorem sameReads_modPump {c : CoreId} {s : State} {f : Pump → Pump} (h : ∀ p r, (f p).read r = p.read r) :
    SameReads c s (s.modPump c f) := fun r => by rw [State.pump_modPump_self, h]

theorem sameReads_modCore {c : CoreId} {s : State} {f : Core → Core} (h : ∀ k, (f k).pump = k.pump) :
    SameReads c s (s.modCore c f) := sameReads_of_pump (by rw [State.pump, State.core_modCore_self, h]; rfl)

theorem StoresPerformed.sameReads {s t : State} (h : StoresPerformed s t) (c : CoreId) : SameReads c s t := by
  intro r
  rw [State.pump, h.core c]
  cases r <;> rfl

theorem sameReads_modHandle (c : CoreId) (s : State) (h : BitVec 6) (f : Handle → Handle) : SameReads c s (s.modHandle c h f) :=
  sameReads_modPump fun p r => by cases r <;> rfl

theorem sameReads_modStream (c : CoreId) (s : State) (h : BitVec 6) (f : Stream → Stream) : SameReads c s (s.modStream c h f) :=
  sameReads_modHandle c s h _

theorem sameReads_dropFold (c : CoreId) (s : State) (h : BitVec 6) : SameReads c s (s.dropFold c h) := by
  unfold State.dropFold
  split
  · exact .refl c s
  · exact sameReads_of_pump rfl

theorem sameReads_endStream (c : CoreId) (s : State) (h : BitVec 6) : SameReads c s (s.endStream c h) := by
  unfold State.endStream
  split
  · exact .refl c s
  · split
    · exact .refl c s
    · have ended (f : Handle → Handle) (g : Fabric → Fabric) (sel : Pending → Bool) (now : Nat) :
          SameReads c s (((((s.modHandle c h f).modFab c g).performWhere sel).modCore c
            (fun k => { k with activeAt := now }) |>.dropFold c h).dropCopies c) := by
        refine (sameReads_modHandle c s h f).trans ?_
        refine (sameReads_modCore (f := fun k => { k with fab := g k.fab }) fun _ => rfl).trans ?_
        refine ((storesPerformed_performWhere _ sel).sameReads c).trans ?_
        refine (sameReads_modCore (f := fun k => { k with activeAt := now }) fun _ => rfl).trans ?_
        exact (sameReads_dropFold c _ h).trans (sameReads_of_pump rfl)
      dsimp only
      split
      · exact (ended _ _ _ _).trans (sameReads_of_pump rfl)
      · exact ended _ _ _ _

theorem sameReads_haltStream (c : CoreId) (s : State) (h : BitVec 6) : SameReads c s (s.haltStream c h) := by
  unfold State.haltStream
  split
  · exact .refl c s
  · split
    · exact .refl c s
    · split
      · exact .refl c s
      · exact (sameReads_modStream c s h _).trans (sameReads_endStream c _ h)

/-- A `halt` that takes effect: the pump executes nothing further, and its registers stand. -/
theorem haltNow_spec (s : State) (c : CoreId) : ((s.haltNow c).pump c).run = .halted ∧ (s.haltNow c).turn c = .rest ∧
    SameReads c s (s.haltNow c) := by
  have hrun : ((s.haltNow c).pump c).run = .halted := by
    rw [State.haltNow, State.pump_modPump_self]
  refine ⟨hrun, turn_of_not_running (by rw [hrun]; exact Run.noConfusion), ?_⟩
  have hstreams : SameReads c s ((fins 64).foldl (fun t h => t.haltStream c (BitVec.ofNat 6 h.val)) s) :=
    List.foldlRecOn _ _ (.refl c s) fun t ht h _ => ht.trans (sameReads_haltStream c t _)
  exact hstreams.trans (sameReads_modPump (f := fun p => { p with run := .halted, block := none }) fun p r => by cases r <;> rfl)

/-! ### When a `halt` waits (R124, R318, R322, R359) -/

theorem anyRunning_eq_true {f : Fabric} : f.anyRunning = true ↔ ∃ r : Fin 8, f.regions[r].run = true := by
  simp [Fabric.anyRunning, fins]

theorem haltTry_of_running {s : State} {c : CoreId} (hl : (s.pump c).load = none)
    (h : ∃ r : Fin 8, (s.core c).fab.regions[r].run = true) : s.haltTry c = .error (.wait none) := by
  have hl' : (s.core c).pump.load = none := hl
  simp only [State.haltTry, hl', anyRunning_eq_true.mpr h, Bool.true_or, if_true, Option.isSome_none, Bool.false_eq_true, if_false]

/-- Nothing keeps core `c` from halting. -/
structure CanHalt (s : State) (c : CoreId) : Prop where
  load : (s.pump c).load = none
  regions : ∀ r : Fin 8, (s.core c).fab.regions[r].run = false
  streams : ∀ h : Fin 64, s.halting c (BitVec.ofNat 6 h.val) = false
  records : s.haltHeld c = false

theorem haltTry_of_canHalt {s : State} {c : CoreId} (h : CanHalt s c) : s.haltTry c = .ok (s.haltNow c) := by
  have hl : (s.core c).pump.load = none := h.load
  have hr : (s.core c).fab.anyRunning = false := by
    rw [← Bool.not_eq_true, anyRunning_eq_true]
    rintro ⟨r, hr⟩
    rw [h.regions r] at hr
    cases hr
  have hs : ((fins 64).any fun h => s.halting c (BitVec.ofNat 6 h.val)) = false := by
    rw [List.any_eq_false]
    intro n _
    rw [h.streams n]
    exact Bool.false_ne_true
  simp only [State.haltTry, hl, hr, hs, h.records, Option.isSome_none, Bool.or_self, Bool.false_eq_true, if_false]

/-- A `halt` that waits no longer is tried with its wait over: nothing that could keep it changes. -/
theorem CanHalt.unblocked {s : State} {c : CoreId} (h : CanHalt s c) : CanHalt (unblocked s c) c := by
  have hp : (Sys2Proof.unblocked s c).pump c = (s.pump c).unblock s.now := State.pump_modPump_self _ _ _
  refine ⟨?_, fun r => ?_, fun n => ?_, ?_⟩
  · rw [hp, Pump.unblock_load]
    exact h.load
  · rw [Sys2Proof.unblocked, State.core_modPump_self]
    exact h.regions r
  · rw [← h.streams n]
    simp only [State.halting, hp, Pump.handle, Pump.unblock_handles]
    rfl
  · rw [← h.records]
    simp only [State.haltHeld, State.flowOf, hp, Pump.unblock_handles, Pump.unblock_flow]
    rfl

theorem exec_halt_of_no_held {s : State} (hl : (s.pump s.cur).load = none) (h : (s.pump s.cur).held = []) :
    exec .halt s = s.outcome s.cur .halt (s.haltTry s.cur) := by
  have hh : (s.pump s.cur).heldAny = none := by rw [Pump.heldAny, h]; rfl
  simp only [exec, execHalt, hl, hh]

theorem exec_haltTakesEffect {s : State} {c : CoreId} (hl : (s.pump c).load = none) (h : (s.pump c).held = []) (hb : (s.pump c).block = some .halt) :
    exec (.haltTakesEffect c) s = .next (s.retry c .halt fun t => t.haltTry c) := by
  have hh : (s.pump c).heldAny = none := by rw [Pump.heldAny, h]; rfl
  simp only [exec, execHaltTakesEffect, hb, hl, hh]

theorem retry_halt_of_canHalt {s : State} {c : CoreId} (h : CanHalt s c) :
    (s.retry c .halt fun t => t.haltTry c) = (unblocked s c).haltNow c := by
  have ht : (s.modPump c fun p => p.unblock s.now).haltTry c = .ok ((unblocked s c).haltNow c) := haltTry_of_canHalt h.unblocked
  simp only [State.retry, ht]

theorem sameReads_unblocked (s : State) (c : CoreId) : SameReads c s (unblocked s c) :=
  sameReads_modPump fun p r => by cases r <;> simp [Pump.read]

/-! ### `yield` (R125) -/

theorem exec_yield (s : State) : exec .yield s = .next (s.modPump s.cur fun p =>
    if p.ypend then { p with pc := p.pc + 8, run := .frozen } else { p with pc := p.pc + 8 }) := rfl

theorem jumps_yield {s : State} (h : (s.pump s.cur).ypend = false) : Jumps .yield s (nextPc s) := by
  refine jumps_of _ _ _ ((exec_yield s).trans (congrArg Host.Outcome.next (modPump_congr s s.cur ?_)))
  rw [h]
  rfl

/-- Settles O24: `yield` by its equation, `halt` by its attempt, which waits or ends the streams of the core. -/
theorem haltAndYieldStopThePump : Obligations.HaltAndYieldStopThePump := by
  intro s c p
  refine ⟨jumps_yield, fun hy => ?yields, fun hl hh => ⟨fun hr => ?waits, fun hr hs hrec => ?halts⟩⟩
  case yields =>
    have hpump : (s.modPump c fun p => if p.ypend then { p with pc := p.pc + 8, run := .frozen } else { p with pc := p.pc + 8 }).pump
        c = { p with pc := nextPc s, run := .frozen } := by
      rw [State.pump_modPump_self, if_pos hy]
      rfl
    exact ⟨_, exec_yield s, onlyPump_modPump _ _ _, hpump, turn_of_not_running (by rw [hpump]; exact Run.noConfusion)⟩
  case waits => exact waits_of _ _ _ _ (exec_halt_of_no_held hl hh) (haltTry_of_running hl hr)
  case halts =>
    have hcan : CanHalt s c := ⟨hl, hr, hs, hrec⟩
    refine ⟨⟨s.haltNow c, ?_, haltNow_spec s c⟩, fun hb => ?_⟩
    · rw [exec_halt_of_no_held hl hh, haltTry_of_canHalt hcan]
      rfl
    · obtain ⟨hrun, hturn, hreads⟩ := haltNow_spec (unblocked s c) c
      exact ⟨_, (exec_haltTakesEffect hl hh hb).trans (congrArg Host.Outcome.next (retry_halt_of_canHalt hcan)), hrun, hturn,
        (sameReads_unblocked s c).trans hreads⟩

end Sys2Proof

/-! Rounding to an integer (R106, R110): what `RoundedInt` determines, and that `roundShift` is such a rounding. -/

namespace Sys2Proof

open Machine

/-! ### What a rounding to an integer determines -/

section
variable {rtz : Bool} {y : ℚ} {k : ℤ}

theorem roundedInt_nearest : RoundedInt false y k ↔ |y - k| ≤ 1 / 2 ∧ (|y - k| = 1 / 2 → k % 2 = 0) := Iff.rfl

theorem roundedInt_toward (hy : 0 ≤ y) : RoundedInt true y k ↔ (k : ℚ) ≤ y ∧ y < k + 1 := by
  have hdef : RoundedInt true y k ↔ |(k : ℚ)| ≤ |y| ∧ |y - k| < 1 ∧ 0 ≤ y * k := Iff.rfl
  rw [hdef, abs_of_nonneg hy, abs_lt]
  constructor
  · rintro ⟨hle, ⟨-, hlt⟩, -⟩
    exact ⟨(le_abs_self _).trans hle, by linarith⟩
  · rintro ⟨hle, hlt⟩
    have hk : (0 : ℚ) ≤ k := by
      have hk1 : (-1 : ℚ) < k := by linarith
      have hk2 : (-1 : ℤ) < k := by exact_mod_cast hk1
      exact_mod_cast (show (0 : ℤ) ≤ k by omega)
    exact ⟨by rwa [abs_of_nonneg hk], ⟨by linarith, by linarith⟩, mul_nonneg hy hk⟩

/-- A rounding lies within one of the number. -/
theorem RoundedInt.abs_sub_lt (hy : 0 ≤ y) (h : RoundedInt rtz y k) : |y - k| < 1 := by
  cases rtz with
  | false => exact (roundedInt_nearest.mp h).1.trans_lt (by norm_num)
  | true =>
    obtain ⟨hle, hlt⟩ := (roundedInt_toward hy).mp h
    exact abs_lt.mpr ⟨by linarith, by linarith⟩

/-- A rounding stays at or above every integer that the number is at or above. -/
theorem RoundedInt.le_of_le (hy : 0 ≤ y) (h : RoundedInt rtz y k) {a : ℤ} (ha : (a : ℚ) ≤ y) : a ≤ k := by
  obtain ⟨-, hlt⟩ := abs_lt.mp (h.abs_sub_lt hy)
  have : (a : ℚ) < k + 1 := by linarith
  have : a < k + 1 := by exact_mod_cast this
  omega

/-- A rounding stays at or below every integer that the number is at or below. -/
theorem RoundedInt.ge_of_ge (hy : 0 ≤ y) (h : RoundedInt rtz y k) {a : ℤ} (ha : y ≤ a) : k ≤ a := by
  obtain ⟨hlt, -⟩ := abs_lt.mp (h.abs_sub_lt hy)
  have : (k : ℚ) < a + 1 := by linarith
  have : k < a + 1 := by exact_mod_cast this
  omega

/-- A rounding reaches an even integer where the number does, and to nearest from half below it. -/
theorem RoundedInt.lt_iff (hy : 0 ≤ y) (h : RoundedInt rtz y k) {a : ℤ} (ha : a % 2 = 0) :
    k < a ↔ y < a - if rtz then 0 else 1 / 2 := by
  cases rtz with
  | true =>
    obtain ⟨hle, hlt⟩ := (roundedInt_toward hy).mp h
    simp only [if_true, sub_zero]
    constructor
    · intro hk
      have : (k : ℚ) + 1 ≤ a := by exact_mod_cast hk
      linarith
    · intro hya
      have : (k : ℚ) < a := by linarith
      exact_mod_cast this
  | false =>
    obtain ⟨habs, htie⟩ := roundedInt_nearest.mp h
    obtain ⟨hlo, hhi⟩ := abs_le.mp habs
    simp only [Bool.false_eq_true, if_false]
    constructor
    · intro hk
      have hk1 : (k : ℚ) + 1 ≤ a := by exact_mod_cast hk
      rcases lt_or_eq_of_le (show y ≤ a - 1 / 2 by linarith) with hlt | heq
      · exact hlt
      · exfalso
        have hka : (k : ℚ) + 1 = a := by linarith
        have hka' : k + 1 = a := by exact_mod_cast hka
        have hhalf : y - k = 1 / 2 := by linarith
        have := htie (by rw [hhalf]; norm_num)
        omega
    · intro hya
      have : (k : ℚ) < a := by linarith
      exact_mod_cast this

/-- A rounding to nearest is as near as any integer, and another integer is as near only where it is even. -/
theorem RoundedInt.nearest (h : RoundedInt false y k) (j : ℤ) :
    |k - y| ≤ |j - y| ∧ (|k - y| = |j - y| → j ≠ k → k % 2 = 0) := by
  obtain ⟨habs, htie⟩ := roundedInt_nearest.mp h
  rw [abs_sub_comm] at habs htie
  by_cases hjk : j = k
  · subst hjk
    exact ⟨le_refl _, fun _ hne => absurd rfl hne⟩
  · have hone : (1 : ℚ) ≤ |(j : ℚ) - k| := by exact_mod_cast Int.one_le_abs (sub_ne_zero.mpr hjk)
    have htri : |(j : ℚ) - k| ≤ |(j : ℚ) - y| + |(k : ℚ) - y| := by
      rw [abs_sub_comm (k : ℚ) y]
      exact abs_sub_le _ _ _
    exact ⟨by linarith, fun heq _ => htie (by linarith)⟩

end

end Sys2Proof

namespace Sys2Proof.Machine

open Sys2Proof

/-! ### `roundShift` -/

/-- The number `z` that `m` stands for: `m` itself, or with `sticky` one above it and below the next multiple of `2 ^ j`, of which
`m` is one. -/
structure StandsFor (m : Nat) (sticky : Bool) (j : Nat) (z : ℚ) : Prop where
  exact : sticky = false → z = m
  above : sticky = true → (m : ℚ) < z ∧ z < m + 2 ^ j
  multiple : sticky = true → 2 ^ j ∣ m

section
variable {m : Nat} {sticky : Bool} {j : Nat} {z : ℚ}

theorem StandsFor.le (h : StandsFor m sticky j z) : (m : ℚ) ≤ z := by
  cases sticky with
  | false => exact (h.exact rfl).ge
  | true => exact (h.above rfl).1.le

/-- A multiple of `2 ^ j` above `m` is above what `m` stands for. -/
theorem StandsFor.lt_of_lt (h : StandsFor m sticky j z) {n : Nat} (hn : m < n) (hd : sticky = true → 2 ^ j ∣ n) : z < n := by
  cases sticky with
  | false =>
    rw [h.exact rfl]
    exact_mod_cast hn
  | true =>
    have hle : m + 2 ^ j ≤ n := by
      obtain ⟨a, rfl⟩ := h.multiple rfl
      obtain ⟨b, rfl⟩ := hd rfl
      have hab : a < b := Nat.lt_of_mul_lt_mul_left hn
      calc 2 ^ j * a + 2 ^ j = 2 ^ j * (a + 1) := by ring
        _ ≤ 2 ^ j * b := Nat.mul_le_mul_left _ hab
    have hle' : (m : ℚ) + 2 ^ j ≤ n := by exact_mod_cast hle
    exact (h.above rfl).2.trans_le hle'

end

/-- The quotient of what `m` stands for by `2 ^ sh`: the kept part, and what is left of it. -/
theorem StandsFor.mod {m : Nat} {sticky : Bool} {j sh : Nat} {z : ℚ} (h : StandsFor m sticky j z) (hj : sticky = true → j ≤ sh) :
    StandsFor (m % 2 ^ sh) sticky j (z - 2 ^ sh * (m / 2 ^ sh : Nat)) := by
  have hm : (m : ℚ) = 2 ^ sh * (m / 2 ^ sh : Nat) + (m % 2 ^ sh : Nat) := by exact_mod_cast (Nat.div_add_mod m (2 ^ sh)).symm
  refine ⟨fun hs => ?_, fun hs => ?_, fun hs => ?_⟩
  · rw [h.exact hs]
    linarith
  · obtain ⟨hlt, hgt⟩ := h.above hs
    exact ⟨by linarith, by linarith⟩
  · exact (Nat.dvd_mod_iff (pow_dvd_pow 2 (hj hs))).mpr (h.multiple hs)

/-- Whether the kept part `k` is rounded up, where the bits `r` are left of it. -/
def roundsUp (rtz : Bool) (k r sh : Nat) (sticky : Bool) : Bool :=
  if rtz then false
  else if sh = 0 then false
  else 2 ^ (sh - 1) < r || (r = 2 ^ (sh - 1) && (sticky || k % 2 = 1))

theorem roundShift_eq (rtz : Bool) (m sh : Nat) (sticky : Bool) : roundShift rtz m sh sticky =
    (m / 2 ^ sh + (if roundsUp rtz (m / 2 ^ sh) (m % 2 ^ sh) sh sticky then 1 else 0), m % 2 ^ sh ≠ 0 || sticky) := rfl

theorem roundsUp_zero (rtz : Bool) (k sh : Nat) : roundsUp rtz k 0 sh false = false := by
  have hne : ¬ 0 = 2 ^ (sh - 1) := (Nat.two_pow_pos _).ne
  simp [roundsUp, hne]

section
variable {k r sh : Nat} {sticky : Bool} {j : Nat} {t : ℚ} (h : StandsFor r sticky j t) (hr : r < 2 ^ sh)
  (hj : sticky = true → j < sh)
include h hr hj

theorem StandsFor.lt_two_pow : t < 2 ^ sh := by
  exact_mod_cast h.lt_of_lt hr fun hs => pow_dvd_pow 2 (hj hs).le

/-- What is left counts up above half of the place, and at half where the kept part is odd. -/
theorem roundsUp_iff : roundsUp false k r sh sticky = true ↔ 1 / 2 < t / 2 ^ sh ∨ t / 2 ^ sh = 1 / 2 ∧ k % 2 = 1 := by
  rcases Nat.eq_zero_or_pos sh with rfl | hsh
  · -- nothing is left
    obtain rfl : sticky = false := Bool.eq_false_iff.mpr fun hs => Nat.not_lt_zero j (hj hs)
    obtain rfl : r = 0 := by omega
    rw [roundsUp_zero, h.exact rfl]
    norm_num
  · have hp : (0 : ℚ) < 2 ^ (sh - 1) := by positivity
    have hhalf : t / 2 ^ sh = 1 / 2 * (t / 2 ^ (sh - 1)) := by
      rw [← Nat.sub_add_cancel hsh, pow_succ, Nat.add_sub_cancel]
      field_simp
    have hgt : 1 / 2 < t / 2 ^ sh ↔ (2 ^ (sh - 1) : ℕ) < t := by
      rw [hhalf, lt_mul_iff_one_lt_right (by norm_num), one_lt_div hp]
      push_cast
      rfl
    have heq : t / 2 ^ sh = 1 / 2 ↔ t = (2 ^ (sh - 1) : ℕ) := by
      rw [hhalf, mul_eq_left₀ (by norm_num), div_eq_one_iff_eq hp.ne']
      push_cast
      rfl
    have hdvd (hs : sticky = true) : 2 ^ j ∣ 2 ^ (sh - 1) := pow_dvd_pow 2 (Nat.le_sub_one_of_lt (hj hs))
    rw [hgt, heq, roundsUp, if_neg Bool.false_ne_true, if_neg hsh.ne']
    generalize 2 ^ (sh - 1) = half at hdvd ⊢
    rcases lt_trichotomy r half with hlt | rfl | hlt
    · have ht := h.lt_of_lt hlt hdvd
      simp [hlt.ne, hlt.not_gt, ht.ne, ht.not_gt]
    · cases sticky with
      | false =>
        rw [h.exact rfl]
        simp
      | true => simp [(h.above rfl).1]
    · have ht : (half : ℚ) < t := (Nat.cast_lt.mpr hlt).trans_le h.le
      simp [hlt, ht]

/-- The kept part with its carry rounds the quotient to nearest even, or toward zero. -/
theorem roundedInt_roundsUp (rtz : Bool) :
    RoundedInt rtz (k + t / 2 ^ sh) ((k + if roundsUp rtz k r sh sticky then 1 else 0 : Nat) : ℤ) := by
  have hd : (0 : ℚ) < 2 ^ sh := by positivity
  have hq1 : t / 2 ^ sh < 1 := (div_lt_one hd).mpr (h.lt_two_pow hr hj)
  have hq0 : 0 ≤ t / 2 ^ sh := div_nonneg ((Nat.cast_nonneg r).trans h.le) hd.le
  cases rtz with
  | true =>
    refine (roundedInt_toward (by positivity)).mpr ?_
    simp only [roundsUp, if_true, Bool.false_eq_true, if_false, Nat.add_zero, Int.cast_natCast]
    exact ⟨by linarith, by linarith⟩
  | false =>
    have hup := roundsUp_iff (k := k) h hr hj
    rw [roundedInt_nearest]
    split
    next hc =>
      have habs : |(k : ℚ) + t / 2 ^ sh - ((k + 1 : ℕ) : ℤ)| = 1 - t / 2 ^ sh := by
        push_cast
        rw [abs_of_nonpos (by linarith)]
        ring
      rw [habs]
      rcases hup.mp hc with hlt | ⟨heq, hodd⟩
      · exact ⟨by linarith, fun hq => by linarith⟩
      · exact ⟨by linarith, fun _ => by omega⟩
    next hc =>
      have hle : t / 2 ^ sh ≤ 1 / 2 := not_lt.mp fun hlt => hc (hup.mpr (.inl hlt))
      rw [Nat.add_zero, Int.cast_natCast, add_sub_cancel_left, abs_of_nonneg hq0]
      refine ⟨hle, fun heq => ?_⟩
      have : ¬ k % 2 = 1 := fun hodd => hc (hup.mpr (.inr ⟨heq, hodd⟩))
      omega

/-- The rounding is exact where nothing is left of the kept part. -/
theorem inexact_iff_roundsUp (rtz : Bool) : (decide (r ≠ 0) || sticky) = true ↔
    ((k + if roundsUp rtz k r sh sticky then 1 else 0 : Nat) : ℚ) ≠ k + t / 2 ^ sh := by
  have hd : (0 : ℚ) < 2 ^ sh := by positivity
  constructor
  · intro hin heq
    have ht0 : 0 < t := by
      cases sticky with
      | true => exact (Nat.cast_nonneg r).trans_lt (h.above rfl).1
      | false =>
        rw [h.exact rfl]
        simp only [ne_eq, Bool.or_false, decide_eq_true_eq] at hin
        exact_mod_cast Nat.pos_of_ne_zero hin
    have hq0 : 0 < t / 2 ^ sh := div_pos ht0 hd
    have hq1 : t / 2 ^ sh < 1 := (div_lt_one hd).mpr (h.lt_two_pow hr hj)
    split at heq
    · push_cast at heq
      linarith
    · push_cast at heq
      linarith
  · intro hne
    by_contra hex
    simp only [ne_eq, Bool.or_eq_true, decide_eq_true_eq, not_or, not_not, Bool.not_eq_true] at hex
    obtain ⟨rfl, rfl⟩ := hex
    rw [roundsUp_zero, h.exact rfl] at hne
    simp at hne

end

/-- `roundShift` rounds what `m` stands for to a multiple of `2 ^ sh`, and says whether it is none. -/
theorem roundShift_spec (rtz : Bool) {m sh : Nat} {sticky : Bool} {j : Nat} {z : ℚ} (h : StandsFor m sticky j z)
    (hj : sticky = true → j < sh) :
    RoundedInt rtz (z / 2 ^ sh) (roundShift rtz m sh sticky).1 ∧
      ((roundShift rtz m sh sticky).2 = true ↔ ((roundShift rtz m sh sticky).1 : ℚ) ≠ z / 2 ^ sh) := by
  have hmod := h.mod fun hs => (hj hs).le
  have hr : m % 2 ^ sh < 2 ^ sh := Nat.mod_lt _ (Nat.two_pow_pos sh)
  have hz : z / 2 ^ sh = (m / 2 ^ sh : Nat) + (z - 2 ^ sh * (m / 2 ^ sh : Nat)) / 2 ^ sh := by
    field_simp
    ring
  rw [roundShift_eq, hz]
  exact ⟨roundedInt_roundsUp hmod hr hj rtz, inexact_iff_roundsUp hmod hr hj rtz⟩

end Sys2Proof.Machine

/-! Codes of a binary format as numbers (R105, R106): the sign and the magnitude of a code, the magnitudes in rising order, and the
grid that they lie on. -/

namespace Sys2Proof.Machine

open Sys2Proof

/-- The widths of a format leave room for a fraction, and for exponents of normal numbers. -/
structure FloatFmt.Sane (F : FloatFmt) : Prop where
  p : 2 ≤ F.p
  ebits : 2 ≤ F.ebits

theorem sane_f32 : f32.Sane := ⟨by decide, by decide⟩
theorem sane_f16 : f16.Sane := ⟨by decide, by decide⟩
theorem sane_bf16 : bf16.Sane := ⟨by decide, by decide⟩

/-! ### Magnitudes -/

/-- The exponent of the smallest subnormal number. -/
def FloatFmt.ulpExp (F : FloatFmt) : ℤ := F.emin - (F.p - 1)

/-- The magnitude of a code without its sign, in units of the smallest subnormal number. -/
def FloatFmt.magNat (F : FloatFmt) (c : Nat) : Nat :=
  if c < 2 ^ (F.p - 1) then c else (c % 2 ^ (F.p - 1) + 2 ^ (F.p - 1)) * 2 ^ (c / 2 ^ (F.p - 1) - 1)

/-- The code of an infinity without its sign. -/
def FloatFmt.infMag (F : FloatFmt) : Nat := (2 ^ F.ebits - 1) * 2 ^ (F.p - 1)

section
variable (F : FloatFmt)

theorem FloatFmt.magNat_of_lt {c : Nat} (h : c < 2 ^ (F.p - 1)) : F.magNat c = c := if_pos h

theorem FloatFmt.magNat_normal (a : Nat) {b : Nat} (h : b < 2 ^ (F.p - 1)) :
    F.magNat (2 ^ (F.p - 1) * (a + 1) + b) = (b + 2 ^ (F.p - 1)) * 2 ^ a := by
  have hge : ¬ 2 ^ (F.p - 1) * (a + 1) + b < 2 ^ (F.p - 1) := by
    rw [Nat.mul_add, Nat.mul_one]
    omega
  rw [FloatFmt.magNat, if_neg hge, Nat.mul_add_mod, Nat.mod_eq_of_lt h, Nat.mul_add_div (Nat.two_pow_pos _),
    Nat.div_eq_of_lt h, Nat.add_zero, Nat.add_sub_cancel]

/-- A code is below `2 ^ (p - 1)`, or has an exponent field above 0 and a fraction. -/
theorem FloatFmt.code_cases (c : Nat) : c < 2 ^ (F.p - 1) ∨
    ∃ a b, b < 2 ^ (F.p - 1) ∧ c = 2 ^ (F.p - 1) * (a + 1) + b := by
  rcases Nat.lt_or_ge c (2 ^ (F.p - 1)) with h | h
  · exact .inl h
  · have hpos : 1 ≤ c / 2 ^ (F.p - 1) := (Nat.one_le_div_iff (Nat.two_pow_pos _)).mpr h
    refine .inr ⟨c / 2 ^ (F.p - 1) - 1, c % 2 ^ (F.p - 1), Nat.mod_lt _ (Nat.two_pow_pos _), ?_⟩
    rw [Nat.sub_add_cancel hpos, Nat.div_add_mod]

/-- A greater code has a greater magnitude. -/
theorem FloatFmt.magNat_strictMono : StrictMono F.magNat := by
  refine strictMono_nat_of_lt_succ fun c => ?_
  rcases F.code_cases c with h | ⟨a, b, hb, rfl⟩
  · rw [F.magNat_of_lt h]
    rcases Nat.lt_or_ge (c + 1) (2 ^ (F.p - 1)) with h1 | h1
    · rw [F.magNat_of_lt h1]
      exact Nat.lt_succ_self c
    · have hc : c + 1 = 2 ^ (F.p - 1) * (0 + 1) + 0 := by omega
      rw [hc, F.magNat_normal 0 (Nat.two_pow_pos _)]
      omega
  · rw [F.magNat_normal a hb]
    rcases Nat.lt_or_ge (b + 1) (2 ^ (F.p - 1)) with h1 | h1
    · rw [Nat.add_assoc, F.magNat_normal a h1]
      exact Nat.mul_lt_mul_of_pos_right (by omega) (Nat.two_pow_pos a)
    · have hc : 2 ^ (F.p - 1) * (a + 1) + b + 1 = 2 ^ (F.p - 1) * (a + 1 + 1) + 0 := by
        rw [Nat.mul_add _ (a + 1), Nat.mul_one]
        omega
      rw [hc, F.magNat_normal (a + 1) (Nat.two_pow_pos _), pow_succ, Nat.mul_comm (2 ^ a), ← Nat.mul_assoc]
      exact Nat.mul_lt_mul_of_pos_right (by omega) (Nat.two_pow_pos a)

/-- The code that rounding forms from a significand `k` and an exponent field `f`, with the carry of a significand `2 ^ p`. -/
theorem FloatFmt.magNat_significand {k f : Nat} (hp : 1 ≤ F.p) (hk : k ≤ 2 ^ F.p) (hf : f = 0 ∨ 2 ^ (F.p - 1) ≤ k) :
    F.magNat (k + f * 2 ^ (F.p - 1)) = k * 2 ^ f := by
  have hp2 : 2 ^ F.p = 2 * 2 ^ (F.p - 1) := by rw [← pow_succ', Nat.sub_add_cancel hp]
  rcases Nat.lt_or_ge k (2 ^ (F.p - 1)) with h | h
  · obtain rfl : f = 0 := hf.resolve_right (by omega)
    rw [Nat.zero_mul, Nat.add_zero, F.magNat_of_lt h, pow_zero, Nat.mul_one]
  · rcases Nat.lt_or_ge k (2 ^ F.p) with h1 | h1
    · have hc : k + f * 2 ^ (F.p - 1) = 2 ^ (F.p - 1) * (f + 1) + (k - 2 ^ (F.p - 1)) := by
        rw [Nat.mul_add, Nat.mul_comm f]
        omega
      rw [hc, F.magNat_normal f (by omega), Nat.sub_add_cancel h]
    · have hk2 : k = 2 * 2 ^ (F.p - 1) := by omega
      have hc : k + f * 2 ^ (F.p - 1) = 2 ^ (F.p - 1) * (f + 1 + 1) + 0 := by
        rw [hk2]
        ring
      rw [hc, F.magNat_normal (f + 1) (Nat.two_pow_pos _), hk2, pow_succ]
      ring

/-- A magnitude of the binade `2 ^ (p - 1 + f)` or above is a multiple of `2 ^ f`. -/
theorem FloatFmt.magNat_grid (c f : Nat) : F.magNat c < 2 ^ (F.p - 1) * 2 ^ f ∨ 2 ^ f ∣ F.magNat c := by
  rcases F.code_cases c with h | ⟨a, b, hb, rfl⟩
  · rw [F.magNat_of_lt h]
    exact .inl (h.trans_le (Nat.le_mul_of_pos_right _ (Nat.two_pow_pos f)))
  · rw [F.magNat_normal a hb]
    rcases Nat.lt_or_ge a f with h | h
    · refine .inl ?_
      calc (b + 2 ^ (F.p - 1)) * 2 ^ a < (2 ^ (F.p - 1) * 2) * 2 ^ a :=
            Nat.mul_lt_mul_of_pos_right (by omega) (Nat.two_pow_pos a)
        _ = 2 ^ (F.p - 1) * 2 ^ (a + 1) := by ring
        _ ≤ 2 ^ (F.p - 1) * 2 ^ f := Nat.mul_le_mul_left _ (Nat.pow_le_pow_right (by decide) h)
    · exact .inr (dvd_mul_of_dvd_right (pow_dvd_pow 2 h) _)

/-! ### Codes with their signs -/

/-- The value of a code by its sign and the rest of its bits. -/
def FloatFmt.valueOf (F : FloatFmt) (neg : Bool) (c : Nat) : Num :=
  if c / 2 ^ (F.p - 1) = 2 ^ F.ebits - 1 then
    if c % 2 ^ (F.p - 1) = 0 then .inf neg else .nan (c % 2 ^ (F.p - 1) < 2 ^ (F.p - 2))
  else if c / 2 ^ (F.p - 1) = 0 then .fin neg (c % 2 ^ (F.p - 1)) F.ulpExp
  else .fin neg (c % 2 ^ (F.p - 1) + 2 ^ (F.p - 1)) ((c / 2 ^ (F.p - 1) : Nat) - F.bias - (F.p - 1))

theorem FloatFmt.two_pow_signBit : 2 ^ F.signBit = 2 ^ (F.p - 1) * 2 ^ F.ebits := by
  rw [FloatFmt.signBit, pow_add]

theorem Num.ofCode_eq (n : Nat) : Num.ofCode F n = F.valueOf (decide (n / 2 ^ F.signBit % 2 = 1)) (n % 2 ^ F.signBit) := by
  have hex : n / 2 ^ (F.p - 1) % 2 ^ F.ebits = n % 2 ^ F.signBit / 2 ^ (F.p - 1) := by
    rw [F.two_pow_signBit, Nat.mod_mul_right_div_self]
  have hfr : n % 2 ^ (F.p - 1) = n % 2 ^ F.signBit % 2 ^ (F.p - 1) := by
    rw [F.two_pow_signBit, Nat.mod_mul_right_mod]
  simp only [Num.ofCode, FloatFmt.valueOf, hex, hfr, FloatFmt.ulpExp]

theorem Num.ofCode_add_zeroCode {c : Nat} (hc : c < 2 ^ F.signBit) (neg : Bool) :
    Num.ofCode F (c + F.zeroCode neg) = F.valueOf neg c := by
  rw [Num.ofCode_eq]
  cases neg with
  | false =>
    rw [FloatFmt.zeroCode, if_neg Bool.false_ne_true, Nat.add_zero, Nat.div_eq_of_lt hc, Nat.mod_eq_of_lt hc]
    rfl
  | true =>
    rw [FloatFmt.zeroCode, if_pos rfl, Nat.add_div_right _ (Nat.two_pow_pos _), Nat.div_eq_of_lt hc, Nat.add_mod_right,
      Nat.mod_eq_of_lt hc]
    rfl

/-- The sign bit of a code with a sign. -/
theorem codeNeg_add_zeroCode {c : Nat} (hc : c < 2 ^ F.signBit) (neg : Bool) : codeNeg F (c + F.zeroCode neg) = neg := by
  cases neg with
  | false =>
    rw [codeNeg, FloatFmt.zeroCode, if_neg Bool.false_ne_true, Nat.add_zero, Nat.div_eq_of_lt hc]
    rfl
  | true =>
    rw [codeNeg, FloatFmt.zeroCode, if_pos rfl, Nat.add_div_right _ (Nat.two_pow_pos _), Nat.div_eq_of_lt hc]
    rfl

/-- A code is the rest of its bits with a sign. -/
theorem FloatFmt.code_eq {n : Nat} (hp : 1 ≤ F.p) (hn : n < 2 ^ (F.p + F.ebits)) :
    n = n % 2 ^ F.signBit + F.zeroCode (decide (n / 2 ^ F.signBit % 2 = 1)) := by
  have h2 : 2 ^ (F.p + F.ebits) = 2 * 2 ^ F.signBit := by
    rw [FloatFmt.signBit, ← pow_succ']
    congr 1
    omega
  have hdiv : n / 2 ^ F.signBit < 2 := by
    rw [Nat.div_lt_iff_lt_mul (Nat.two_pow_pos _)]
    omega
  have hsplit := Nat.div_add_mod n (2 ^ F.signBit)
  rw [FloatFmt.zeroCode]
  generalize n / 2 ^ F.signBit = q at hdiv hsplit
  obtain rfl | rfl : q = 0 ∨ q = 1 := by omega
  · simp only [Nat.zero_mod, zero_ne_one, decide_false, Bool.false_eq_true, if_false]
    omega
  · simp only [Nat.one_mod, decide_true, if_true]
    omega

theorem FloatFmt.infMag_lt : F.infMag < 2 ^ F.signBit := by
  rw [F.two_pow_signBit, FloatFmt.infMag, Nat.mul_comm]
  exact Nat.mul_lt_mul_of_pos_left (Nat.sub_lt (Nat.two_pow_pos _) Nat.one_pos) (Nat.two_pow_pos _)

theorem FloatFmt.infCode_eq (neg : Bool) : F.infCode neg = F.infMag + F.zeroCode neg := rfl

end

section
variable {F : FloatFmt} {c : Nat}

theorem FloatFmt.div_lt_of_lt_infMag (hc : c < F.infMag) : c / 2 ^ (F.p - 1) < 2 ^ F.ebits - 1 :=
  (Nat.div_lt_iff_lt_mul (Nat.two_pow_pos _)).mpr hc

/-- A code below the infinity is finite, of its magnitude. -/
theorem FloatFmt.valueOf_of_lt (hc : c < F.infMag) (neg : Bool) : ∃ m e, F.valueOf neg c = .fin neg m e ∧
    (m : ℚ) * 2 ^ e = F.magNat c * 2 ^ F.ulpExp := by
  have hex : c / 2 ^ (F.p - 1) ≠ 2 ^ F.ebits - 1 := (F.div_lt_of_lt_infMag hc).ne
  rw [FloatFmt.valueOf, if_neg hex]
  rcases F.code_cases c with h | ⟨a, b, hb, rfl⟩
  · rw [if_pos (Nat.div_eq_of_lt h), Nat.mod_eq_of_lt h, F.magNat_of_lt h]
    exact ⟨_, _, rfl, rfl⟩
  · have hdiv : (2 ^ (F.p - 1) * (a + 1) + b) / 2 ^ (F.p - 1) = a + 1 := by
      rw [Nat.mul_add_div (Nat.two_pow_pos _), Nat.div_eq_of_lt hb, Nat.add_zero]
    rw [hdiv, if_neg (Nat.succ_ne_zero a), F.magNat_normal a hb, Nat.mul_add_mod, Nat.mod_eq_of_lt hb]
    refine ⟨_, _, rfl, ?_⟩
    have hexp : ((a + 1 : ℕ) : ℤ) - F.bias - (F.p - 1) = a + F.ulpExp := by
      rw [FloatFmt.ulpExp, FloatFmt.emin]
      push_cast
      ring
    rw [hexp, zpow_add₀ (by norm_num), zpow_natCast]
    push_cast
    ring

theorem FloatFmt.valueOf_infMag (neg : Bool) : F.valueOf neg F.infMag = .inf neg := by
  rw [FloatFmt.valueOf, FloatFmt.infMag, Nat.mul_div_cancel _ (Nat.two_pow_pos _), if_pos rfl, Nat.mul_mod_left, if_pos rfl]

/-- A code above the infinity is a NaN, signalling where the top bit of its fraction is 0. -/
theorem FloatFmt.valueOf_of_gt (hc : F.infMag < c) (hs : c < 2 ^ F.signBit) (neg : Bool) :
    F.valueOf neg c = .nan (c - F.infMag < 2 ^ (F.p - 2)) := by
  have hlt : c - F.infMag < 2 ^ (F.p - 1) := by
    have : 2 ^ F.signBit = F.infMag + 2 ^ (F.p - 1) := by
      rw [F.two_pow_signBit, FloatFmt.infMag, Nat.mul_comm, Nat.sub_one_mul,
        Nat.sub_add_cancel (Nat.le_mul_of_pos_left _ (Nat.two_pow_pos _))]
    omega
  obtain ⟨b, rfl⟩ : ∃ b, c = F.infMag + b := ⟨c - F.infMag, by omega⟩
  rw [Nat.add_sub_cancel_left] at hlt ⊢
  have hdiv : (F.infMag + b) / 2 ^ (F.p - 1) = 2 ^ F.ebits - 1 := by
    rw [FloatFmt.infMag, Nat.mul_comm, Nat.mul_add_div (Nat.two_pow_pos _), Nat.div_eq_of_lt hlt, Nat.add_zero]
  have hmod : (F.infMag + b) % 2 ^ (F.p - 1) = b := by
    rw [FloatFmt.infMag, Nat.mul_add_mod', Nat.mod_eq_of_lt hlt]
  rw [FloatFmt.valueOf, hdiv, if_pos rfl, hmod, if_neg (by omega)]

/-- The number of a finite code with its sign. -/
theorem numRat_code (hc : c < F.infMag) (neg : Bool) : numFin (Num.ofCode F (c + F.zeroCode neg)) = true ∧
    numRat (Num.ofCode F (c + F.zeroCode neg)) = (if neg then -1 else 1) * (F.magNat c * 2 ^ F.ulpExp) := by
  obtain ⟨m, e, hv, hm⟩ := F.valueOf_of_lt hc neg
  rw [Num.ofCode_add_zeroCode F (hc.trans F.infMag_lt), hv, ← hm]
  exact ⟨rfl, by rw [numRat]; ring⟩

/-- A finite code is a sign and a code below the infinity. -/
theorem code_of_numFin {n : Nat} (hp : 1 ≤ F.p) (hn : n < 2 ^ (F.p + F.ebits)) (hfin : numFin (Num.ofCode F n) = true) :
    ∃ neg c, c < F.infMag ∧ n = c + F.zeroCode neg := by
  refine ⟨_, n % 2 ^ F.signBit, ?_, F.code_eq hp hn⟩
  have hs : n % 2 ^ F.signBit < 2 ^ F.signBit := Nat.mod_lt _ (Nat.two_pow_pos _)
  rw [Num.ofCode_eq] at hfin
  rcases lt_trichotomy (n % 2 ^ F.signBit) F.infMag with h | h | h
  · exact h
  · rw [h, F.valueOf_infMag] at hfin
    exact absurd hfin Bool.false_ne_true
  · rw [F.valueOf_of_gt h hs] at hfin
    exact absurd hfin Bool.false_ne_true

end

end Sys2Proof.Machine

/-! A number rounded once into a format (R105, R106, R110): where a rounding lies among the codes of the format. -/

namespace Sys2Proof.Machine

open Sys2Proof

/-! ### Powers of two -/

theorem two_zpow_pos (e : ℤ) : (0 : ℚ) < 2 ^ e := zpow_pos (by norm_num) e

theorem two_zpow_add (a b : ℤ) : (2 : ℚ) ^ (a + b) = 2 ^ a * 2 ^ b := zpow_add₀ (by norm_num) a b

theorem two_zpow_le {a b : ℤ} (h : a ≤ b) : (2 : ℚ) ^ a ≤ 2 ^ b := zpow_le_zpow_right₀ (by norm_num) h

theorem two_zpow_sub_one (a : ℤ) : (2 : ℚ) ^ a = 2 * 2 ^ (a - 1) := by
  rw [← zpow_one_add₀ (by norm_num)]
  congr 1
  ring

theorem lt_bitLen {n m : Nat} : n < bitLen m ↔ 2 ^ n ≤ m := by
  rcases Nat.eq_zero_or_pos m with rfl | h
  · simp [bitLen]
  · rw [bitLen, if_neg h.ne', Nat.lt_succ_iff, Nat.le_log2 h.ne']

theorem bitLen_pos {m : Nat} (h : 0 < m) : 0 < bitLen m := lt_bitLen.mpr (by rwa [pow_zero])

theorem lt_two_pow_bitLen (m : Nat) : m < 2 ^ bitLen m := by
  by_contra h
  exact (lt_bitLen.mpr (Nat.not_lt.mp h)).false

theorem two_pow_bitLen_le {m : Nat} (h : 0 < m) : 2 ^ (bitLen m - 1) ≤ m := by
  have := bitLen_pos h
  exact lt_bitLen.mp (by omega)

theorem bitLen_mul_two_pow {m : Nat} (h : 0 < m) (k : Nat) : bitLen (m * 2 ^ k) = bitLen m + k := by
  have hpos := bitLen_pos h
  refine eq_of_forall_lt_iff fun n => ?_
  rw [lt_bitLen]
  rcases Nat.lt_or_ge n k with hn | hn
  · refine iff_of_true ?_ (by omega)
    exact (Nat.pow_le_pow_right (by decide) hn.le).trans (Nat.le_mul_of_pos_left _ h)
  · obtain ⟨j, rfl⟩ := Nat.exists_eq_add_of_le' hn
    rw [pow_add, Nat.mul_le_mul_right_iff (Nat.two_pow_pos k), ← lt_bitLen]
    omega

/-- The exponent of the top bit of `k * 2 ^ q`. -/
theorem top_lt_iff {k : Nat} {q t : ℤ} (h0 : k = 0 → q ≤ t) : q + bitLen k - 1 < t ↔ (k : ℚ) * 2 ^ q < 2 ^ t := by
  rcases Nat.eq_zero_or_pos k with rfl | hk
  · refine iff_of_true ?_ ?_
    · have := h0 rfl
      simp only [bitLen, if_true, Nat.cast_zero]
      omega
    · rw [Nat.cast_zero, zero_mul]
      exact two_zpow_pos t
  · have hpos := bitLen_pos hk
    rcases Int.lt_or_le t q with hlt | hle
    · refine iff_of_false (by omega) (not_lt.mpr ?_)
      have hk1 : (1 : ℚ) ≤ k := by exact_mod_cast hk
      calc (2 : ℚ) ^ t ≤ 2 ^ q := two_zpow_le hlt.le
        _ ≤ k * 2 ^ q := le_mul_of_one_le_left (two_zpow_pos q).le hk1
    · obtain ⟨n, rfl⟩ : ∃ n : ℕ, t = q + n := ⟨(t - q).toNat, by omega⟩
      have hbit : q + bitLen k - 1 < q + n ↔ k < 2 ^ n := by
        rw [← Nat.not_le, ← lt_bitLen]
        omega
      rw [hbit, two_zpow_add, mul_comm (2 ^ q), mul_lt_mul_iff_left₀ (two_zpow_pos q), zpow_natCast]
      exact_mod_cast Iff.rfl

/-! ### Rounding in a binade -/

/-- The numbers below this round to less than `2 ^ t`, with `p` bits, toward zero or to nearest. -/
def roundLimit (p : Nat) (rtz : Bool) (t : ℤ) : ℚ := 2 ^ t - if rtz then 0 else 2 ^ (t - p - 1)

theorem roundLimit_le (p : Nat) (rtz : Bool) (t : ℤ) : roundLimit p rtz t ≤ 2 ^ t := by
  have := two_zpow_pos (t - p - 1)
  rw [roundLimit]
  split <;> linarith

/-- Half of the power lies below the limit. -/
theorem le_roundLimit (p : Nat) (rtz : Bool) (t : ℤ) : 2 ^ (t - 1) ≤ roundLimit p rtz t := by
  have hhalf := two_zpow_sub_one t
  have hle : (2 : ℚ) ^ (t - p - 1) ≤ 2 ^ (t - 1) := two_zpow_le (by omega)
  have := two_zpow_pos (t - 1)
  rw [roundLimit]
  split <;> linarith

/-- A number `a` of the binade of `2 ^ (p - 1 + q)`, rounded to a multiple of `2 ^ q`: it reaches a power of two where the number
is not below its limit. -/
theorem rounded_lt_iff {p k : Nat} {rtz : Bool} {a : ℚ} {q t : ℤ} (hp : 2 ≤ p) (ha : 0 < a)
    (hlo : (2 : ℚ) ^ (p - 1) ≤ a / 2 ^ q) (hhi : a / 2 ^ q < 2 ^ p) (hk : RoundedInt rtz (a / 2 ^ q) k) :
    (k : ℚ) * 2 ^ q < 2 ^ t ↔ a < roundLimit p rtz t := by
  have hq := two_zpow_pos q
  have hy : 0 ≤ a / 2 ^ q := (div_pos ha hq).le
  have haq : a / 2 ^ q * 2 ^ q = a := div_mul_cancel₀ a hq.ne'
  have hkhi : (k : ℚ) ≤ 2 ^ p := by
    exact_mod_cast hk.ge_of_ge hy (a := (2 ^ p : ℕ)) (by push_cast; exact hhi.le)
  have hklo : (2 : ℚ) ^ (p - 1) ≤ k := by
    exact_mod_cast hk.le_of_le hy (a := (2 ^ (p - 1) : ℕ)) (by push_cast; exact hlo)
  have hpq : (2 : ℚ) ^ (p + q) = 2 ^ p * 2 ^ q := by rw [two_zpow_add, zpow_natCast]
  have hp1 : (2 : ℚ) ^ p = 2 * 2 ^ (p - 1) := by rw [← pow_succ', Nat.sub_add_cancel (by omega)]
  rcases lt_trichotomy t (p + q) with hlt | heq | hgt
  · refine iff_of_false (not_lt.mpr ?_) (not_lt.mpr ?_)
    · calc (2 : ℚ) ^ t ≤ 2 ^ (p + q - 1) := two_zpow_le (by omega)
        _ = 2 ^ (p - 1) * 2 ^ q := by have := two_zpow_sub_one (p + q); rw [hpq, hp1] at this; linarith
        _ ≤ k * 2 ^ q := mul_le_mul_of_nonneg_right hklo hq.le
    · calc roundLimit p rtz t ≤ 2 ^ t := roundLimit_le p rtz t
        _ ≤ 2 ^ (p + q - 1) := two_zpow_le (by omega)
        _ = 2 ^ (p - 1) * 2 ^ q := by have := two_zpow_sub_one (p + q); rw [hpq, hp1] at this; linarith
        _ ≤ a / 2 ^ q * 2 ^ q := mul_le_mul_of_nonneg_right hlo hq.le
        _ = a := haq
  · have heven : ((2 ^ p : ℕ) : ℤ) % 2 = 0 := by
      obtain ⟨n, rfl⟩ : ∃ n, p = n + 1 := ⟨p - 1, by omega⟩
      rw [pow_succ]
      omega
    have hlim : roundLimit p rtz t = (2 ^ p - if rtz then 0 else 1 / 2) * 2 ^ q := by
      have hhalf : (2 : ℚ) ^ (t - p - 1) = 1 / 2 * 2 ^ q := by
        have := two_zpow_sub_one q
        rw [heq, show (p : ℤ) + q - p - 1 = q - 1 by ring]
        linarith
      rw [roundLimit, hhalf, heq, hpq]
      cases rtz
      · simp only [Bool.false_eq_true, if_false]
        ring
      · simp only [if_true]
        ring
    have hint : (k : ℚ) < 2 ^ p ↔ a / 2 ^ q < 2 ^ p - if rtz then 0 else 1 / 2 := by
      have := hk.lt_iff hy heven
      push_cast at this
      rw [← this]
      exact_mod_cast Iff.rfl
    rw [hlim, heq, hpq, mul_lt_mul_iff_left₀ hq, hint, div_lt_iff₀ hq]
  · refine iff_of_true ?_ ?_
    · calc (k : ℚ) * 2 ^ q ≤ 2 ^ p * 2 ^ q := mul_le_mul_of_nonneg_right hkhi hq.le
        _ = 2 ^ (p + q) := hpq.symm
        _ < 2 ^ t := zpow_lt_zpow_right₀ (by norm_num) hgt
    · calc a = a / 2 ^ q * 2 ^ q := haq.symm
        _ < 2 ^ p * 2 ^ q := mul_lt_mul_of_pos_right hhi hq
        _ = 2 ^ (p + q) := hpq.symm
        _ ≤ 2 ^ (t - 1) := two_zpow_le (by omega)
        _ ≤ roundLimit p rtz t := le_roundLimit p rtz t

/-! ### A rounding in its place among the codes -/

/-- The number `a` rounded to the multiple `k` of `2 ^ f` smallest subnormal numbers: `f` is 0, or `a` is a normal number of the
binade of exponent field `f + 1`. -/
structure Placed (F : FloatFmt) (rtz : Bool) (a : ℚ) (k f : Nat) : Prop where
  pos : 0 < a
  rounded : RoundedInt rtz (a / 2 ^ (f + F.ulpExp)) k
  below : a / 2 ^ (f + F.ulpExp) < 2 ^ F.p
  normal : f = 0 ∨ (2 : ℚ) ^ (F.p - 1) ≤ a / 2 ^ (f + F.ulpExp)

/-- The code of a rounding, without its sign. -/
def FloatFmt.placedCode (F : FloatFmt) (k f : Nat) : Nat := k + f * 2 ^ (F.p - 1)

theorem FloatFmt.two_bias (F : FloatFmt) (hF : F.Sane) : (2 : ℤ) ^ F.ebits = 2 * (F.bias + 1) := by
  rw [FloatFmt.bias, sub_add_cancel, ← pow_succ', Nat.sub_add_cancel (by have := hF.ebits; omega)]

theorem FloatFmt.one_le_bias {F : FloatFmt} (hF : F.Sane) : 1 ≤ F.bias := by
  have hle : (2 : ℤ) ^ 1 ≤ 2 ^ (F.ebits - 1) := pow_le_pow_right₀ (by decide) (by have := hF.ebits; omega)
  rw [FloatFmt.bias]
  omega

/-- The magnitude of the infinity's code is the power of two behind the largest binade. -/
theorem FloatFmt.magNat_infMag {F : FloatFmt} (hF : F.Sane) :
    (F.magNat F.infMag : ℚ) * 2 ^ F.ulpExp = 2 ^ (F.bias + 1) := by
  have he : 2 ^ 2 ≤ 2 ^ F.ebits := Nat.pow_le_pow_right (by decide) hF.ebits
  have hmag : F.magNat F.infMag = 2 ^ (F.p - 1) * 2 ^ (2 ^ F.ebits - 2) := by
    have hc : F.infMag = 2 ^ (F.p - 1) * (2 ^ F.ebits - 2 + 1) + 0 := by
      rw [FloatFmt.infMag, Nat.mul_comm, Nat.add_zero]
      congr 1
      omega
    rw [hc, F.magNat_normal _ (Nat.two_pow_pos _), Nat.zero_add]
  have hbias := F.two_bias hF
  have hcast : ((2 ^ F.ebits - 2 : ℕ) : ℤ) = 2 * F.bias := by
    rw [Nat.cast_sub (by omega)]
    push_cast
    linarith
  have hp := hF.p
  rw [hmag]
  push_cast
  rw [← zpow_natCast (2 : ℚ) (F.p - 1), ← zpow_natCast (2 : ℚ) (2 ^ F.ebits - 2), ← two_zpow_add, ← two_zpow_add, hcast]
  congr 1
  rw [FloatFmt.ulpExp, FloatFmt.emin, Nat.cast_sub (by omega)]
  push_cast
  ring

section
variable {F : FloatFmt} {rtz : Bool} {a : ℚ} {k f : Nat} (hF : F.Sane) (h : Placed F rtz a k f)
include h

theorem Placed.quotient_nonneg : 0 ≤ a / 2 ^ (f + F.ulpExp) := (div_pos h.pos (two_zpow_pos _)).le

theorem Placed.le_two_pow : k ≤ 2 ^ F.p := by
  exact_mod_cast h.rounded.ge_of_ge h.quotient_nonneg (a := (2 ^ F.p : ℕ)) (by push_cast; exact h.below.le)

theorem Placed.two_pow_le (hn : (2 : ℚ) ^ (F.p - 1) ≤ a / 2 ^ (f + F.ulpExp)) : 2 ^ (F.p - 1) ≤ k := by
  exact_mod_cast h.rounded.le_of_le h.quotient_nonneg (a := (2 ^ (F.p - 1) : ℕ)) (by push_cast; exact hn)

/-- Every finite number of the format is a multiple of `2 ^ f` smallest subnormal numbers, or lies below the binade of `a`. -/
theorem Placed.grid (neg : Bool) (c : Nat) : (∃ j : ℤ, (if neg then -1 else 1) * (F.magNat c * 2 ^ F.ulpExp : ℚ) =
      j * 2 ^ (f + F.ulpExp)) ∨
    (2 : ℚ) ^ (F.p - 1) ≤ a / 2 ^ (f + F.ulpExp) ∧ (F.magNat c : ℚ) * 2 ^ F.ulpExp < 2 ^ (F.p - 1) * 2 ^ (f + F.ulpExp) := by
  have hmul : (2 : ℚ) ^ (f + F.ulpExp) = 2 ^ f * 2 ^ F.ulpExp := by rw [two_zpow_add, zpow_natCast]
  have multiple (hd : 2 ^ f ∣ F.magNat c) : ∃ j : ℤ, (if neg then -1 else 1) * (F.magNat c * 2 ^ F.ulpExp : ℚ) =
      j * 2 ^ (f + F.ulpExp) := by
    obtain ⟨n, hn⟩ := hd
    refine ⟨if neg then -n else n, ?_⟩
    rw [hn, hmul]
    cases neg
    · simp only [Bool.false_eq_true, if_false]
      push_cast
      ring
    · simp only [if_true]
      push_cast
      ring
  rcases h.normal with hf | hn
  · exact .inl (multiple (by rw [hf]; exact one_dvd _))
  · rcases F.magNat_grid c f with hlt | hd
    · refine .inr ⟨hn, ?_⟩
      rw [hmul, ← mul_assoc, mul_lt_mul_iff_left₀ (two_zpow_pos _)]
      exact_mod_cast hlt
    · exact .inl (multiple hd)

include hF

/-- The code of a rounding has its magnitude. -/
theorem Placed.magNat : F.magNat (F.placedCode k f) = k * 2 ^ f :=
  F.magNat_significand (by have := hF.p; omega) h.le_two_pow (h.normal.imp_right h.two_pow_le)

theorem Placed.value : (F.magNat (F.placedCode k f) : ℚ) * 2 ^ F.ulpExp = k * 2 ^ (f + F.ulpExp) := by
  rw [h.magNat hF, two_zpow_add, zpow_natCast]
  push_cast
  ring

/-- A rounding below the power of two behind the largest binade has a finite code. -/
theorem Placed.code_lt_iff : F.placedCode k f < F.infMag ↔ (k : ℚ) * 2 ^ (f + F.ulpExp) < 2 ^ (F.bias + 1) := by
  rw [← h.value hF, ← F.magNat_infMag hF, mul_lt_mul_iff_left₀ (two_zpow_pos _), Nat.cast_lt, F.magNat_strictMono.lt_iff_lt]

/-- A rounding overflows where the number is not below the limit of the format. -/
theorem Placed.fits_iff : (k : ℚ) * 2 ^ (f + F.ulpExp) < 2 ^ (F.bias + 1) ↔ a < roundLimit F.p rtz (F.bias + 1) := by
  by_cases hn : (2 : ℚ) ^ (F.p - 1) ≤ a / 2 ^ (f + F.ulpExp)
  · exact rounded_lt_iff hF.p h.pos hn h.below h.rounded
  · have hf : f = 0 := h.normal.resolve_right hn
    have hu := two_zpow_pos (f + F.ulpExp)
    have hp := hF.p
    have hbias := FloatFmt.one_le_bias hF
    have hemin : (2 : ℚ) ^ (F.p - 1) * 2 ^ (f + F.ulpExp) ≤ 2 ^ F.bias := by
      rw [← zpow_natCast, ← two_zpow_add]
      refine two_zpow_le ?_
      rw [hf, FloatFmt.ulpExp, FloatFmt.emin, Nat.cast_sub (by omega)]
      push_cast
      linarith
    have hk : (k : ℚ) ≤ 2 ^ (F.p - 1) := by
      exact_mod_cast h.rounded.ge_of_ge h.quotient_nonneg (a := (2 ^ (F.p - 1) : ℕ)) (by push_cast; exact (not_le.mp hn).le)
    refine iff_of_true ?_ ?_
    · calc (k : ℚ) * 2 ^ (f + F.ulpExp) ≤ 2 ^ (F.p - 1) * 2 ^ (f + F.ulpExp) := mul_le_mul_of_nonneg_right hk hu.le
        _ ≤ 2 ^ F.bias := hemin
        _ < 2 ^ (F.bias + 1) := zpow_lt_zpow_right₀ (by norm_num) (by omega)
    · calc a < 2 ^ (F.p - 1) * 2 ^ (f + F.ulpExp) := (div_lt_iff₀ hu).mp (not_le.mp hn)
        _ ≤ 2 ^ F.bias := hemin
        _ = 2 ^ (F.bias + 1 - 1) := by rw [add_sub_cancel_right]
        _ ≤ roundLimit F.p rtz (F.bias + 1) := le_roundLimit _ _ _

end

end Sys2Proof.Machine

/-! `roundTo` is a rounding of the number that it is given (R105, R106, R110). -/

namespace Sys2Proof.Machine

open Sys2Proof

/-! ### The conditions of `Rounded` for a placed rounding -/

/-- A positive number with a sign. -/
def withSign (neg : Bool) (a : ℚ) : ℚ := (if neg then -1 else 1) * a

@[simp] theorem abs_withSign {a : ℚ} (ha : 0 ≤ a) (neg : Bool) : |withSign neg a| = a := by
  rw [withSign, abs_mul, abs_of_nonneg ha]
  cases neg <;> simp

theorem withSign_lt_zero {a : ℚ} (ha : 0 < a) (neg : Bool) : withSign neg a < 0 ↔ neg = true := by
  cases neg <;> simp [withSign, ha, ha.le]

theorem withSign_sub (neg : Bool) (a b : ℚ) : withSign neg a - withSign neg b = withSign neg (a - b) := by
  rw [withSign, withSign, withSign, mul_sub]

theorem abs_withSign_eq (neg : Bool) (a : ℚ) : |withSign neg a| = |a| := by
  cases neg <;> simp [withSign]

theorem withSign_inj (neg : Bool) {a b : ℚ} : withSign neg a = withSign neg b ↔ a = b := by
  cases neg <;> simp [withSign]

theorem withSign_withSign (neg : Bool) (a : ℚ) : withSign neg (withSign neg a) = a := by
  cases neg <;> simp [withSign]

theorem withSign_mul (neg : Bool) (a b : ℚ) : withSign neg (a * b) = withSign neg a * b := by
  rw [withSign, withSign, mul_assoc]

/-- An error in units of the last place. -/
theorem abs_withSign_mul_sub (neg : Bool) (a j : ℚ) (q : ℤ) :
    |withSign neg (j * 2 ^ q) - withSign neg a| = |j - a / 2 ^ q| * 2 ^ q := by
  have hu := two_zpow_pos q
  rw [withSign_sub, abs_withSign_eq, ← abs_of_pos hu, ← abs_mul, abs_of_pos hu, sub_mul, div_mul_cancel₀ a hu.ne']

theorem roundLimit_emax (F : FloatFmt) (rtz : Bool) : roundLimit F.p rtz (F.bias + 1) =
    if rtz then (2 : ℚ) ^ (F.bias + 1) else 2 ^ (F.bias + 1) - 2 ^ (F.bias - F.p) := by
  rw [roundLimit, show F.bias + 1 - F.p - 1 = F.bias - F.p by ring]
  cases rtz <;> simp

theorem roundLimit_emin (F : FloatFmt) (rtz : Bool) : roundLimit F.p rtz F.emin =
    if rtz then (2 : ℚ) ^ F.emin else 2 ^ F.emin - 2 ^ (F.emin - F.p - 1) := by
  rw [roundLimit]
  cases rtz <;> simp

theorem FloatFmt.two_pow_width {F : FloatFmt} (hF : F.Sane) : 2 ^ (F.p + F.ebits) = 2 ^ F.signBit + 2 ^ F.signBit := by
  have := hF.p
  rw [FloatFmt.signBit, ← Nat.two_mul, ← pow_succ']
  congr 1
  omega

theorem FloatFmt.add_zeroCode_lt {F : FloatFmt} (hF : F.Sane) {c : Nat} (hc : c < 2 ^ F.signBit) (neg : Bool) :
    c + F.zeroCode neg < 2 ^ (F.p + F.ebits) := by
  have := F.two_pow_width hF
  cases neg
  · rw [FloatFmt.zeroCode, if_neg Bool.false_ne_true]
    omega
  · rw [FloatFmt.zeroCode, if_pos rfl]
    omega

theorem FloatFmt.zeroCode_even {F : FloatFmt} (hF : F.Sane) (neg : Bool) : 2 ∣ F.zeroCode neg := by
  have := hF.ebits
  rw [FloatFmt.zeroCode]
  split
  · exact dvd_pow_self 2 (by rw [FloatFmt.signBit]; omega)
  · exact dvd_zero 2

theorem FloatFmt.placedCode_mod_two {F : FloatFmt} (hF : F.Sane) (k f : Nat) (neg : Bool) :
    (F.placedCode k f + F.zeroCode neg) % 2 = k % 2 := by
  have hp := hF.p
  have hfield : 2 ∣ f * 2 ^ (F.p - 1) := dvd_mul_of_dvd_right (dvd_pow_self 2 (by omega)) f
  have := F.zeroCode_even hF neg
  rw [FloatFmt.placedCode]
  omega

/-- An overflow rounds to the infinity, or toward zero to the largest finite number. -/
theorem rounded_of_overflow {F : FloatFmt} (hF : F.Sane) {rtz : Bool} {a : ℚ} (neg : Bool) (ha : 0 < a)
    (hge : roundLimit F.p rtz (F.bias + 1) ≤ a) :
    Rounded F rtz (withSign neg a) (if rtz then F.maxCode neg else F.infCode neg) (fOf ||| fNx) := by
  have hinf : F.infCode neg < 2 ^ (F.p + F.ebits) := F.add_zeroCode_lt hF F.infMag_lt neg
  have hneg : decide (withSign neg a < 0) = neg := by rw [Bool.eq_iff_iff, decide_eq_true_iff, withSign_lt_zero ha]
  have hlim := roundLimit_emax F rtz
  refine ⟨?_, fun _ => ?_, fun hlt => ?_, fun hr hlt => ?_, fun hr hlt => ?_⟩
  · split
    · exact (Nat.sub_le _ _).trans_lt hinf
    · exact hinf
  · rw [hneg]
    exact ⟨rfl, rfl⟩
  · rw [abs_withSign ha.le, ← hlim] at hlt
    exact absurd hge (not_le.mpr hlt)
  · rw [hr, if_neg Bool.false_ne_true] at hlim
    subst hr
    rw [abs_withSign ha.le, ← hlim] at hlt
    exact absurd hge (not_le.mpr hlt)
  · subst hr
    rw [if_pos rfl] at hlim
    rw [abs_withSign ha.le, ← hlim] at hlt
    exact absurd hge (not_le.mpr hlt)

section
variable {F : FloatFmt} {rtz : Bool} {a : ℚ} {k f : Nat} (hF : F.Sane) (h : Placed F rtz a k f)
include hF h

/-- The number of a placed rounding that does not overflow. -/
theorem Placed.numRat_code (hfit : a < roundLimit F.p rtz (F.bias + 1)) (neg : Bool) :
    F.placedCode k f < F.infMag ∧ numFin (Num.ofCode F (F.placedCode k f + F.zeroCode neg)) = true ∧
      numRat (Num.ofCode F (F.placedCode k f + F.zeroCode neg)) = withSign neg (k * 2 ^ (f + F.ulpExp)) := by
  have hlt : F.placedCode k f < F.infMag := (h.code_lt_iff hF).mpr ((h.fits_iff hF).mpr hfit)
  obtain ⟨hfin, hval⟩ := Sys2Proof.Machine.numRat_code hlt neg
  exact ⟨hlt, hfin, by rw [hval, h.value hF, withSign]⟩

/-- No number of the format is nearer than a rounding to nearest, and one as near only where the rounding is even. -/
theorem Placed.nearest (hr : rtz = false) (neg : Bool) {w : Nat} (hw : w < 2 ^ (F.p + F.ebits))
    (hfin : numFin (Num.ofCode F w) = true) :
    |withSign neg (k * 2 ^ (f + F.ulpExp)) - withSign neg a| ≤ |numRat (Num.ofCode F w) - withSign neg a| ∧
      (|withSign neg (k * 2 ^ (f + F.ulpExp)) - withSign neg a| = |numRat (Num.ofCode F w) - withSign neg a| →
        numRat (Num.ofCode F w) ≠ withSign neg (k * 2 ^ (f + F.ulpExp)) → k % 2 = 0) := by
  subst hr
  have hu := two_zpow_pos (f + F.ulpExp)
  obtain ⟨wneg, c, hc, rfl⟩ := code_of_numFin (by have := hF.p; omega) hw hfin
  rw [(Sys2Proof.Machine.numRat_code hc wneg).2]
  rcases h.grid wneg c with ⟨j, hj⟩ | ⟨hn, hlt⟩
  · have hsig : (j : ℚ) * 2 ^ (f + F.ulpExp) = withSign neg (withSign neg j * 2 ^ (f + F.ulpExp)) := by
      rw [← withSign_mul, withSign_withSign]
    obtain ⟨i, hi⟩ : ∃ i : ℤ, withSign neg j = i := by
      refine ⟨if neg then -j else j, ?_⟩
      cases neg <;> simp [withSign]
    obtain ⟨hle, htie⟩ := h.rounded.nearest i
    rw [Int.cast_natCast] at hle htie
    rw [hj, hsig, hi, abs_withSign_mul_sub, abs_withSign_mul_sub, mul_left_inj' hu.ne', ne_eq, withSign_inj, mul_left_inj' hu.ne']
    refine ⟨mul_le_mul_of_nonneg_right hle hu.le, fun heq hne => ?_⟩
    have := htie heq fun hik => hne (by rw [hik, Int.cast_natCast])
    omega
  · -- a number below the binade is farther away than the power of two at the foot of the binade
    have hfoot := (h.rounded.nearest (2 ^ (F.p - 1) : ℕ)).1
    have hpos : 0 < a := h.pos
    have haq : a / 2 ^ (f + F.ulpExp) * 2 ^ (f + F.ulpExp) = a := div_mul_cancel₀ a hu.ne'
    have hstrict : |withSign neg (k * 2 ^ (f + F.ulpExp)) - withSign neg a| <
        |(if wneg then -1 else 1) * ((F.magNat c : ℚ) * 2 ^ F.ulpExp) - withSign neg a| := by
      have hnear : |(k : ℚ) - a / 2 ^ (f + F.ulpExp)| ≤ a / 2 ^ (f + F.ulpExp) - 2 ^ (F.p - 1) := by
        rw [Int.cast_natCast, Int.cast_natCast, abs_sub_comm (((2 ^ (F.p - 1) : ℕ)) : ℚ)] at hfoot
        push_cast at hfoot
        rwa [abs_of_nonneg (sub_nonneg.mpr hn)] at hfoot
      have hnonneg : (0 : ℚ) ≤ F.magNat c * 2 ^ F.ulpExp := mul_nonneg (Nat.cast_nonneg _) (two_zpow_pos _).le
      calc |withSign neg (k * 2 ^ (f + F.ulpExp)) - withSign neg a|
          ≤ (a / 2 ^ (f + F.ulpExp) - 2 ^ (F.p - 1)) * 2 ^ (f + F.ulpExp) := by
            rw [abs_withSign_mul_sub]
            exact mul_le_mul_of_nonneg_right hnear hu.le
        _ < a - F.magNat c * 2 ^ F.ulpExp := by rw [sub_mul, haq]; linarith
        _ = |withSign neg a| - |withSign wneg (F.magNat c * 2 ^ F.ulpExp)| := by rw [abs_withSign hpos.le, abs_withSign hnonneg]
        _ ≤ |withSign neg a - withSign wneg (F.magNat c * 2 ^ F.ulpExp)| := abs_sub_abs_le_abs_sub _ _
        _ = _ := by rw [abs_sub_comm, withSign]
    exact ⟨hstrict.le, fun heq => absurd heq hstrict.ne⟩

/-- A rounding toward zero is the largest magnitude of the format that does not exceed the number. -/
theorem Placed.toward (hr : rtz = true) :
    (k : ℚ) * 2 ^ (f + F.ulpExp) ≤ a ∧ ∀ w < 2 ^ (F.p + F.ebits), numFin (Num.ofCode F w) = true →
      |numRat (Num.ofCode F w)| ≤ a → |numRat (Num.ofCode F w)| ≤ k * 2 ^ (f + F.ulpExp) := by
  subst hr
  have hu := two_zpow_pos (f + F.ulpExp)
  obtain ⟨hle, -⟩ := (roundedInt_toward h.quotient_nonneg).mp h.rounded
  refine ⟨(le_div_iff₀ hu).mp (by exact_mod_cast hle), fun w hw hfin hwa => ?_⟩
  obtain ⟨wneg, c, hc, rfl⟩ := code_of_numFin (by have := hF.p; omega) hw hfin
  have hnonneg : (0 : ℚ) ≤ F.magNat c * 2 ^ F.ulpExp := mul_nonneg (Nat.cast_nonneg _) (two_zpow_pos _).le
  have habs : |numRat (Num.ofCode F (c + F.zeroCode wneg))| = F.magNat c * 2 ^ F.ulpExp := by
    rw [(Sys2Proof.Machine.numRat_code hc wneg).2]
    exact abs_withSign hnonneg wneg
  rw [habs] at hwa ⊢
  rcases h.grid false c with ⟨j, hj⟩ | ⟨hn, hlt⟩
  · rw [if_neg Bool.false_ne_true, one_mul] at hj
    rw [hj] at hwa ⊢
    have hjk : j ≤ k := h.rounded.le_of_le h.quotient_nonneg ((le_div_iff₀ hu).mpr hwa)
    exact mul_le_mul_of_nonneg_right (by exact_mod_cast hjk) hu.le
  · have hk : ((2 ^ (F.p - 1) : ℕ) : ℚ) ≤ k := by exact_mod_cast h.two_pow_le hn
    push_cast at hk
    exact hlt.le.trans (mul_le_mul_of_nonneg_right hk hu.le)

/-- A placed rounding that does not overflow, with its sign and its flags, is the number rounded once. -/
theorem Placed.rounded_code (hfit : a < roundLimit F.p rtz (F.bias + 1)) (neg : Bool) {inexact tiny : Bool}
    (hin : inexact = true ↔ (k : ℚ) ≠ a / 2 ^ (f + F.ulpExp)) (htiny : tiny = true ↔ a < roundLimit F.p rtz F.emin) :
    Rounded F rtz (withSign neg a) (F.placedCode k f + F.zeroCode neg) (flagIf (tiny && inexact) fUf ||| flagIf inexact fNx) := by
  obtain ⟨hlt, hfin, hval⟩ := h.numRat_code hF hfit neg
  have hu := two_zpow_pos (f + F.ulpExp)
  have hpos : 0 < a := h.pos
  have hk : (0 : ℚ) ≤ k * 2 ^ (f + F.ulpExp) := mul_nonneg (Nat.cast_nonneg _) hu.le
  have hne : withSign neg (k * 2 ^ (f + F.ulpExp)) ≠ withSign neg a ↔ inexact = true := by
    rw [hin, ne_eq, ne_eq, withSign_inj, eq_div_iff hu.ne']
  refine ⟨F.add_zeroCode_lt hF (hlt.trans F.infMag_lt) neg, fun hge => ?_, fun _ => ⟨hfin, ?_, ?_⟩, fun hr _ w hw hwfin => ?_,
    fun hr _ => ?_⟩
  · rw [abs_withSign hpos.le, ← roundLimit_emax] at hge
    exact absurd hfit (not_lt.mpr hge)
  · rw [codeNeg_add_zeroCode F (hlt.trans F.infMag_lt), Bool.eq_iff_iff, decide_eq_true_iff, withSign_lt_zero hpos]
  · rw [hval, abs_withSign hpos.le, ← roundLimit_emin]
    simp only [hne, ← htiny]
    cases tiny <;> cases inexact <;> decide
  · rw [hval, F.placedCode_mod_two hF]
    exact h.nearest hF hr neg hw hwfin
  · rw [hval, abs_withSign hk, abs_withSign hpos.le]
    exact h.toward hF hr

end

/-! ### `roundTo` -/

theorem StandsFor.scale {m : Nat} {sticky : Bool} {z : ℚ} (h : StandsFor m sticky 0 z) (j : Nat) :
    StandsFor (m * 2 ^ j) sticky j (z * 2 ^ j) := by
  have hj : (0 : ℚ) < 2 ^ j := by positivity
  refine ⟨fun hs => ?_, fun hs => ?_, fun _ => dvd_mul_left _ _⟩
  · rw [h.exact hs]
    push_cast
    rfl
  · obtain ⟨hlt, hgt⟩ := h.above hs
    push_cast
    refine ⟨mul_lt_mul_of_pos_right hlt hj, ?_⟩
    calc z * 2 ^ j < (m + 2 ^ 0) * 2 ^ j := mul_lt_mul_of_pos_right hgt hj
      _ = m * 2 ^ j + 2 ^ j := by ring

/-- The rounding of `m * 2 ^ e` to a multiple of `2 ^ q`, as `roundTo` makes it. -/
def FloatFmt.shiftTo (F : FloatFmt) (rtz : Bool) (m : Nat) (e : Int) (sticky : Bool) (q : Int) : Nat × Bool :=
  roundShift rtz (m * 2 ^ (F.p + 2)) (q - (e - (F.p + 2))).toNat sticky

/-- The exponent of the last place in the binade of `m * 2 ^ e`. -/
def FloatFmt.lastPlace (F : FloatFmt) (m : Nat) (e : Int) : Int := e + bitLen m - F.p

theorem roundTo_eq (F : FloatFmt) (rtz neg : Bool) {m : Nat} (hm : 0 < m) (e : Int) (sticky : Bool) :
    roundTo F rtz neg m e sticky =
      if F.bias < max (F.lastPlace m e) F.ulpExp +
          bitLen (F.shiftTo rtz m e sticky (max (F.lastPlace m e) F.ulpExp)).1 - 1 then
        (if rtz then F.maxCode neg else F.infCode neg, fOf ||| fNx)
      else
        (F.placedCode (F.shiftTo rtz m e sticky (max (F.lastPlace m e) F.ulpExp)).1
            (max (F.lastPlace m e) F.ulpExp - F.ulpExp).toNat + F.zeroCode neg,
          flagIf (decide (F.lastPlace m e + bitLen (F.shiftTo rtz m e sticky (F.lastPlace m e)).1 - 1 < F.emin) &&
            (F.shiftTo rtz m e sticky (max (F.lastPlace m e) F.ulpExp)).2) fUf |||
          flagIf (F.shiftTo rtz m e sticky (max (F.lastPlace m e) F.ulpExp)).2 fNx) := by
  have hlast : e - (F.p + 2) + bitLen (m * 2 ^ (F.p + 2)) - 1 - (F.p - 1) = F.lastPlace m e := by
    rw [bitLen_mul_two_pow hm, FloatFmt.lastPlace]
    push_cast
    ring
  have hz : ¬ ((decide (m = 0) && !sticky) = true) := by simp [hm.ne']
  rw [roundTo, if_neg hz]
  simp only [hlast]
  rfl

section
variable {F : FloatFmt} {rtz sticky : Bool} {m : Nat} {e : Int} {z : ℚ} (hF : F.Sane) (hz : StandsFor m sticky 0 z) (hm : 0 < m)
  (hs : sticky = true → F.p + 1 ≤ bitLen m)
include hz hm

theorem StandsFor.pos : 0 < z := (Nat.cast_pos.mpr hm).trans_le hz.le

/-- The number lies in the binade of its last place. -/
theorem StandsFor.binade : (2 : ℚ) ^ (F.lastPlace m e + F.p - 1) ≤ z * 2 ^ e ∧ z * 2 ^ e < 2 ^ (F.lastPlace m e + F.p) := by
  have he := two_zpow_pos e
  have hpos := bitLen_pos hm
  have hlo : ((2 ^ (bitLen m - 1) : ℕ) : ℚ) ≤ z := (Nat.cast_le.mpr (two_pow_bitLen_le hm)).trans hz.le
  have hhi : z < (2 ^ bitLen m : ℕ) := hz.lt_of_lt (lt_two_pow_bitLen m) fun _ => one_dvd _
  have htop : F.lastPlace m e + F.p = bitLen m + e := by rw [FloatFmt.lastPlace]; ring
  have hfoot : F.lastPlace m e + F.p - 1 = (bitLen m - 1 : ℕ) + e := by
    rw [htop, Nat.cast_sub hpos]
    push_cast
    ring
  rw [hfoot, htop, two_zpow_add, two_zpow_add, zpow_natCast, zpow_natCast]
  push_cast at hlo hhi
  exact ⟨mul_le_mul_of_nonneg_right hlo he.le, mul_lt_mul_of_pos_right hhi he⟩

include hs

/-- What `roundTo` shifts is rounded to a multiple of `2 ^ q`. -/
theorem StandsFor.shiftTo {q : Int} (hq : F.lastPlace m e ≤ q) :
    RoundedInt rtz (z * 2 ^ e / 2 ^ q) (F.shiftTo rtz m e sticky q).1 ∧
      ((F.shiftTo rtz m e sticky q).2 = true ↔ ((F.shiftTo rtz m e sticky q).1 : ℚ) ≠ z * 2 ^ e / 2 ^ q) := by
  have hlen := bitLen_pos hm
  obtain ⟨n, hn⟩ : ∃ n : ℕ, q - (e - (F.p + 2)) = n := by
    refine ⟨(q - (e - (F.p + 2))).toNat, ?_⟩
    rw [FloatFmt.lastPlace] at hq
    omega
  have hdiv : z * 2 ^ e / 2 ^ q = z * 2 ^ (F.p + 2) / 2 ^ n := by
    have hqe : q + (F.p + 2 : ℕ) = n + e := by
      push_cast
      omega
    have hpow : (2 : ℚ) ^ q * 2 ^ (F.p + 2) = 2 ^ n * 2 ^ e := by
      rw [← zpow_natCast, ← zpow_natCast, ← two_zpow_add, ← two_zpow_add, hqe]
    rw [div_eq_div_iff (two_zpow_pos q).ne' (by positivity)]
    linear_combination -z * hpow
  rw [hdiv, FloatFmt.shiftTo, hn, Int.toNat_natCast]
  refine roundShift_spec rtz (hz.scale (F.p + 2)) fun hst => ?_
  have := hs hst
  rw [FloatFmt.lastPlace] at hq
  omega

/-- What `roundTo` keeps is a rounding in its place. -/
theorem StandsFor.placed (hF : F.Sane) : Placed F rtz (z * 2 ^ e) (F.shiftTo rtz m e sticky (max (F.lastPlace m e) F.ulpExp)).1
    (max (F.lastPlace m e) F.ulpExp - F.ulpExp).toNat := by
  have hp := hF.p
  have hq : (((max (F.lastPlace m e) F.ulpExp - F.ulpExp).toNat : ℕ) : ℤ) + F.ulpExp = max (F.lastPlace m e) F.ulpExp := by
    have := le_max_right (F.lastPlace m e) F.ulpExp
    omega
  obtain ⟨hlo, hhi⟩ := hz.binade (F := F) (e := e) hm
  refine ⟨mul_pos (hz.pos hm) (two_zpow_pos e), ?_, ?_, ?_⟩
  · rw [hq]
    exact (hz.shiftTo hm hs (le_max_left _ _)).1
  · rw [hq, div_lt_iff₀ (two_zpow_pos _), ← zpow_natCast, ← two_zpow_add]
    exact hhi.trans_le (two_zpow_le (by have := le_max_left (F.lastPlace m e) F.ulpExp; omega))
  · rcases le_total (F.lastPlace m e) F.ulpExp with hle | hge
    · left
      rw [max_eq_right hle]
      omega
    · right
      rw [hq, max_eq_left hge, le_div_iff₀ (two_zpow_pos _), ← zpow_natCast, ← two_zpow_add]
      have : (((F.p - 1 : ℕ) : ℤ)) + F.lastPlace m e = F.lastPlace m e + F.p - 1 := by omega
      rwa [this]

/-- With an unbounded exponent, the rounding of a number is below a power of two where the number is below its limit. -/
theorem StandsFor.unbounded_lt_iff (hF : F.Sane) (t : Int) :
    F.lastPlace m e + bitLen (F.shiftTo rtz m e sticky (F.lastPlace m e)).1 - 1 < t ↔ z * 2 ^ e < roundLimit F.p rtz t := by
  have hp := hF.p
  have hu := two_zpow_pos (F.lastPlace m e)
  obtain ⟨hlo, hhi⟩ := hz.binade (F := F) (e := e) hm
  have hround := (hz.shiftTo (rtz := rtz) hm hs (le_refl (F.lastPlace m e))).1
  have hpos : 0 < z * 2 ^ e := mul_pos (hz.pos hm) (two_zpow_pos e)
  have hlo' : (2 : ℚ) ^ (F.p - 1) ≤ z * 2 ^ e / 2 ^ F.lastPlace m e := by
    have : (((F.p - 1 : ℕ) : ℤ)) + F.lastPlace m e = F.lastPlace m e + F.p - 1 := by omega
    rwa [le_div_iff₀ hu, ← zpow_natCast, ← two_zpow_add, this]
  have hhi' : z * 2 ^ e / 2 ^ F.lastPlace m e < 2 ^ F.p := by
    rwa [div_lt_iff₀ hu, ← zpow_natCast, ← two_zpow_add, add_comm]
  have hk : (F.shiftTo rtz m e sticky (F.lastPlace m e)).1 ≠ 0 := by
    have hle := hround.le_of_le (div_pos hpos hu).le (a := 1) (by
      push_cast
      exact (one_le_pow₀ (by norm_num)).trans hlo')
    omega
  rw [top_lt_iff fun h0 => absurd h0 hk]
  exact rounded_lt_iff hp hpos hlo' hhi' hround

/-- `roundTo` rounds once. -/
theorem roundTo_rounded (hF : F.Sane) (neg : Bool) :
    Rounded F rtz (withSign neg (z * 2 ^ e)) (roundTo F rtz neg m e sticky).1 (roundTo F rtz neg m e sticky).2 := by
  have hplaced := hz.placed (rtz := rtz) (e := e) hm hs hF
  have hq : (((max (F.lastPlace m e) F.ulpExp - F.ulpExp).toNat : ℕ) : ℤ) + F.ulpExp = max (F.lastPlace m e) F.ulpExp := by
    have := le_max_right (F.lastPlace m e) F.ulpExp
    omega
  obtain ⟨-, hexact⟩ := hz.shiftTo (rtz := rtz) (e := e) hm hs (le_max_left (F.lastPlace m e) F.ulpExp)
  have htiny := hz.unbounded_lt_iff (rtz := rtz) (e := e) hm hs hF F.emin
  have hover : max (F.lastPlace m e) F.ulpExp + bitLen (F.shiftTo rtz m e sticky (max (F.lastPlace m e) F.ulpExp)).1 - 1 <
      F.bias + 1 ↔ z * 2 ^ e < roundLimit F.p rtz (F.bias + 1) := by
    rw [← hplaced.fits_iff hF, hq]
    refine top_lt_iff fun h0 => ?_
    -- a rounding to 0 is one of a subnormal number
    have hn : ¬ (2 : ℚ) ^ (F.p - 1) ≤ z * 2 ^ e / 2 ^ (((max (F.lastPlace m e) F.ulpExp - F.ulpExp).toNat : ℕ) + F.ulpExp) :=
      fun hn => by
        have := hplaced.two_pow_le hn
        have := Nat.two_pow_pos (F.p - 1)
        omega
    have hf := hplaced.normal.resolve_right hn
    have := FloatFmt.one_le_bias hF
    have := hF.p
    rw [← hq, hf, FloatFmt.ulpExp, FloatFmt.emin]
    omega
  rw [roundTo_eq F rtz neg hm e sticky]
  split
  next hlt =>
    refine rounded_of_overflow hF neg (mul_pos (hz.pos hm) (two_zpow_pos e)) ?_
    have := hover.not.mp (by omega)
    exact not_lt.mp this
  next hge =>
    refine hplaced.rounded_code hF (hover.mp (by omega)) neg ?_ ?_
    · rw [hq]
      exact hexact
    · rw [decide_eq_true_iff]
      exact htiny

end

theorem roundTo_exact (F : FloatFmt) (hF : F.Sane) (rtz neg : Bool) {m : Nat} (hm : 0 < m) (e : Int) :
    Rounded F rtz (numRat (.fin neg m e)) (roundTo F rtz neg m e false).1 (roundTo F rtz neg m e false).2 := by
  have hz : StandsFor m false 0 m := ⟨fun _ => rfl, nofun, nofun⟩
  have hval : numRat (.fin neg m e) = withSign neg (m * 2 ^ e) := by rw [numRat, withSign, mul_assoc]
  rw [hval]
  exact roundTo_rounded hz hm nofun hF neg

theorem roundTo_zero (F : FloatFmt) (rtz neg : Bool) (e : Int) : roundTo F rtz neg 0 e false = (F.zeroCode neg, 0) := rfl

end Sys2Proof.Machine

/-! Float results in registers (R105, R111), and `fcvt` (R110). -/

namespace Sys2Proof

open Machine

/-! ### Results with flags -/

/-- A result with flags, written through `d` (R92, R111). -/
theorem gives_giveFloat (s : State) (d : Reg) (r : Nat × Flags) :
    Gives s (s.giveFloat s.cur d r) d (BitVec.ofNat 64 r.1) r.2 := by
  refine ⟨onlyPump_modPump _ _ _, ⟨fun r' => ?_, ?_, ?_, ?_⟩⟩
  · simp only [State.giveFloat, State.pump_modPump_self]
    exact (s.pump s.cur).read_result d r' _
  · simp [State.giveFloat, Pump.advance, Pump.raise, Pump.result]
  · simp [State.giveFloat, Pump.advance, Pump.raise, Pump.result]
  · simp only [State.giveFloat, State.pump_modPump_self, Pump.advance, Pump.raise, Pump.result]
    cases d with
    | g i => simp only [Pump.write]; split <;> rfl
    | k i => rfl
    | last => rfl

/-- A meaning that writes a code of at most 64 bits with its flags computes them. -/
theorem computesFlags_of {i : Instr} {s : State} {d : Reg} {r : Nat × Flags} {P : Word → Flags → Prop}
    (h : exec i s = .next (s.giveFloat s.cur d r)) (hr : r.1 < 2 ^ 64) (hP : ∀ v : Word, v.toNat = r.1 → P v r.2) :
    ComputesFlags i s d P :=
  ⟨_, _, _, h, gives_giveFloat s d r, hP _ (by rw [BitVec.toNat_ofNat, Nat.mod_eq_of_lt hr])⟩

end Sys2Proof

namespace Sys2Proof.Machine

open Sys2Proof

/-! ### Rounding a value -/

section
variable {F : FloatFmt} (hF : F.Sane)
include hF

theorem FloatFmt.infCode_lt (neg : Bool) : F.infCode neg < 2 ^ (F.p + F.ebits) := F.add_zeroCode_lt hF F.infMag_lt neg

theorem FloatFmt.zeroCode_lt (neg : Bool) : F.zeroCode neg < 2 ^ (F.p + F.ebits) := by
  have := F.add_zeroCode_lt hF (Nat.two_pow_pos F.signBit) neg
  rwa [Nat.zero_add] at this

theorem FloatFmt.nanCode_lt : F.nanCode < 2 ^ (F.p + F.ebits) := by
  have hp : 2 ^ (F.p - 2) < 2 ^ (F.p - 1) := Nat.pow_lt_pow_right (by decide) (by have := hF.p; omega)
  have hs : 2 ^ F.signBit = F.infMag + 2 ^ (F.p - 1) := by
    rw [F.two_pow_signBit, FloatFmt.infMag, Nat.mul_comm, Nat.sub_one_mul,
      Nat.sub_add_cancel (Nat.le_mul_of_pos_left _ (Nat.two_pow_pos _))]
  have hn : F.nanCode = F.infMag + 2 ^ (F.p - 2) := rfl
  have := F.add_zeroCode_lt hF (c := F.nanCode) (by omega) false
  exact this

theorem roundTo_lt (rtz neg : Bool) (m : Nat) (e : Int) : (roundTo F rtz neg m e false).1 < 2 ^ (F.p + F.ebits) := by
  rcases Nat.eq_zero_or_pos m with rfl | hm
  · exact F.zeroCode_lt hF neg
  · exact (roundTo_exact F hF rtz neg hm e).width

theorem Num.round_lt (rtz : Bool) (x : Num) : (x.round F rtz).1 < 2 ^ (F.p + F.ebits) := by
  cases x with
  | nan sig => exact F.nanCode_lt hF
  | inf neg => exact F.infCode_lt hF neg
  | fin neg m e => exact roundTo_lt hF rtz neg m e

/-- A finite value other than 0 is rounded once. -/
theorem Num.round_rounded (rtz : Bool) {x : Num} (hfin : numFin x = true) (hx : numRat x ≠ 0) :
    Rounded F rtz (numRat x) (x.round F rtz).1 (x.round F rtz).2 := by
  cases x with
  | nan sig => exact absurd hfin Bool.false_ne_true
  | inf neg => exact absurd hfin Bool.false_ne_true
  | fin neg m e =>
    refine roundTo_exact F hF rtz neg (Nat.pos_of_ne_zero ?_) e
    rintro rfl
    simp [numRat] at hx

end

/-! ### Rounding to an integer -/

theorem signInt_cast (neg : Bool) (k : Nat) : ((signInt neg k : ℤ) : ℚ) = withSign neg k := by
  cases neg <;> simp [signInt, withSign]

theorem numRat_fin (neg : Bool) (m : Nat) (e : Int) : numRat (.fin neg m e) = withSign neg (m * 2 ^ e) := by
  rw [numRat, withSign, mul_assoc]

/-- Both roundings are symmetric. -/
theorem roundedInt_signInt {rtz : Bool} {y : ℚ} {k : Nat} (h : RoundedInt rtz y k) (neg : Bool) :
    RoundedInt rtz (withSign neg y) (signInt neg k) := by
  cases neg with
  | false =>
    rw [withSign, if_neg Bool.false_ne_true, one_mul]
    exact h
  | true =>
    have hneg : |-y + (k : ℚ)| = |y - k| := by rw [← abs_neg]; congr 1; ring
    cases rtz with
    | false =>
      rw [roundedInt_nearest] at h ⊢
      simp only [withSign, signInt, if_true, neg_one_mul, Int.cast_neg, Int.cast_natCast, sub_neg_eq_add, hneg] at h ⊢
      exact ⟨h.1, fun ht => by have := h.2 ht; omega⟩
    | true =>
      simpa [RoundedInt, withSign, signInt, hneg] using h

/-- `toInteger` rounds a finite value, and says whether that is inexact. -/
theorem toInteger_spec (rtz neg : Bool) (m : Nat) (e : Int) :
    RoundedInt rtz (numRat (.fin neg m e)) (toInteger rtz neg m e).1 ∧
      ((toInteger rtz neg m e).2 = true ↔ ((toInteger rtz neg m e).1 : ℚ) ≠ numRat (.fin neg m e)) := by
  rw [numRat_fin]
  by_cases he : 0 ≤ e
  · obtain ⟨n, rfl⟩ := Int.eq_ofNat_of_zero_le he
    have hval : (((m * 2 ^ n : ℕ) : ℤ) : ℚ) = m * 2 ^ (n : ℤ) := by push_cast; rfl
    have hround : RoundedInt rtz (m * 2 ^ (n : ℤ)) ((m * 2 ^ n : ℕ) : ℤ) := by
      rw [← hval]
      simp [RoundedInt, ← pow_two, sq_nonneg]
    rw [toInteger, if_pos he, Int.toNat_natCast]
    refine ⟨roundedInt_signInt hround neg, ?_⟩
    rw [signInt_cast, ← hval, Int.cast_natCast]
    simp
  · obtain ⟨n, hn⟩ : ∃ n : ℕ, -e = n := ⟨(-e).toNat, by omega⟩
    have hval : (m : ℚ) * 2 ^ e = m / 2 ^ n := by
      rw [show e = -n by omega, zpow_neg, zpow_natCast, div_eq_mul_inv]
    obtain ⟨hround, hexact⟩ := roundShift_spec rtz (sh := n) (⟨fun _ => rfl, nofun, nofun⟩ : StandsFor m false 0 m) nofun
    rw [toInteger, if_neg he, hn, Int.toNat_natCast, hval]
    refine ⟨roundedInt_signInt hround neg, ?_⟩
    rw [signInt_cast, ne_eq, withSign_inj]
    exact hexact

theorem ofInt_of_emod (v : Word) (n : Int) (h : v.toNat = (n % 2 ^ 64).toNat) : v = BitVec.ofInt 64 n := by
  refine BitVec.eq_of_toNat_eq ?_
  rw [h, BitVec.toNat_ofInt]
  rfl

end Sys2Proof.Machine

namespace Sys2Proof

open Machine

/-! ### `fcvt` (R110) -/

/-- A conversion into a float format. -/
theorem computesFlags_round {F : FloatFmt} (hF : F.Sane) (hw : F.p + F.ebits ≤ 64) {i : Instr} {s : State} {d : Reg} {rtz : Bool}
    {x : Machine.Num} (h : exec i s = .next (s.giveFloat s.cur d (x.round F rtz))) : ComputesFlags i s d fun v f =>
      (x.isNan = true → v.toNat = F.nanCode ∧ f = if x.sig then 0x10 else 0) ∧
      (∀ n, x = .inf n → v.toNat = F.infCode n ∧ f = 0) ∧
      (∀ n e, x = .fin n 0 e → v.toNat = F.zeroCode n ∧ f = 0) ∧
      (numFin x = true → numRat x ≠ 0 → Rounded F rtz (numRat x) v.toNat f) := by
  refine computesFlags_of h ((x.round_lt hF rtz).trans_le (Nat.pow_le_pow_right (by decide) hw)) fun v hv => ?_
  rw [hv]
  refine ⟨fun hnan => ?_, ?_, ?_, x.round_rounded hF rtz⟩
  · cases x with
    | nan sig => exact ⟨rfl, rfl⟩
    | inf neg => exact absurd hnan Bool.false_ne_true
    | fin neg m e => exact absurd hnan Bool.false_ne_true
  · rintro n rfl
    exact ⟨rfl, rfl⟩
  · rintro n e rfl
    exact ⟨rfl, rfl⟩

/-- A conversion into an integer of the range from `lo` to `hi`. -/
theorem computesFlags_toInt {i : Instr} {s : State} {d : Reg} {rtz : Bool} {lo hi : Int} {x : Machine.Num}
    (h : exec i s = .next (s.giveFloat s.cur d (((toIntRange rtz lo hi x).1 % 2 ^ 64).toNat, (toIntRange rtz lo hi x).2))) :
    ComputesFlags i s d fun v f =>
      (x.isNan = true → v = 0 ∧ f = 0x10) ∧
      (∀ n, x = .inf n → v = BitVec.ofInt 64 (if n then lo else hi) ∧ f = 0x10) ∧
      (numFin x = true → ∃ n : Int, RoundedInt rtz (numRat x) n ∧
        if n < lo then v = BitVec.ofInt 64 lo ∧ f = 0x10
        else if hi < n then v = BitVec.ofInt 64 hi ∧ f = 0x10
        else v = BitVec.ofInt 64 n ∧ f = if (n : ℚ) = numRat x then 0 else 0x01) := by
  have hlt : ((toIntRange rtz lo hi x).1 % 2 ^ 64).toNat < 2 ^ 64 := by omega
  refine computesFlags_of h hlt fun v hv => ?_
  have hv' := ofInt_of_emod v _ hv
  cases x with
  | nan sig => exact ⟨fun _ => ⟨hv', rfl⟩, nofun, nofun⟩
  | inf neg =>
    refine ⟨nofun, ?_, nofun⟩
    rintro _ ⟨⟩
    exact ⟨hv', rfl⟩
  | fin neg m e =>
    refine ⟨nofun, nofun, fun _ => ?_⟩
    obtain ⟨hround, hexact⟩ := toInteger_spec rtz neg m e
    refine ⟨_, hround, ?_⟩
    simp only [toIntRange] at hv' ⊢
    split
    next hlo => rw [if_pos hlo] at hv'; exact ⟨hv', rfl⟩
    next hlo =>
      rw [if_neg hlo] at hv'
      split
      next hhi => rw [if_pos hhi] at hv'; exact ⟨hv', rfl⟩
      next hhi =>
        rw [if_neg hhi] at hv'
        refine ⟨hv', ?_⟩
        by_cases heq : ((toInteger rtz neg m e).1 : ℚ) = numRat (.fin neg m e)
        · have hin : (toInteger rtz neg m e).2 = false := by simpa using hexact.not.mpr (not_not.mpr heq)
          rw [if_pos heq, hin]
          rfl
        · rw [if_neg heq, hexact.mpr heq]
          rfl

/-- Settles O15: a conversion into a float format is `Num.round`, which rounds once; one into an integer is `toIntRange`, which
rounds by `toInteger` and keeps to the range. -/
theorem conversionsRoundByTheirMode : Obligations.ConversionsRoundByTheirMode := by
  intro s d a rtz r toFloat ofInt toInt w h
  exact ⟨computesFlags_round (x := ofInt r.toInt) sane_f32 (by decide) rfl,
    computesFlags_round (x := ofInt r.toNat) sane_f32 (by decide) rfl,
    computesFlags_round (x := ofInt (BitVec.ofNat 32 w).toInt) sane_f32 (by decide) rfl,
    computesFlags_round sane_f32 (by decide) rfl, computesFlags_round sane_f32 (by decide) rfl,
    computesFlags_round sane_f16 (by decide) rfl, computesFlags_round sane_bf16 (by decide) rfl,
    computesFlags_toInt rfl, computesFlags_toInt rfl, computesFlags_toInt rfl⟩

end Sys2Proof

/-! The order and the classes of FP32 codes (R107, R108, R109): a code as a sign and the rest of its bits, and what the comparisons
of values say of such codes. -/

namespace Sys2Proof.Machine

open Sys2Proof

/-! ### Comparisons of values by sign and magnitude -/

/-- A finite value is an integer in units of any smaller power of two. -/
theorem numRat_scaled (neg : Bool) (m : Nat) {e e0 : Int} (h : e0 ≤ e) :
    ((signInt neg m * 2 ^ (e - e0).toNat : ℤ) : ℚ) * 2 ^ e0 = numRat (.fin neg m e) := by
  obtain ⟨n, hn⟩ : ∃ n : ℕ, e - e0 = n := ⟨(e - e0).toNat, by omega⟩
  rw [show e = n + e0 by omega, add_sub_cancel_right, Int.toNat_natCast, numRat_fin, two_zpow_add, zpow_natCast]
  push_cast
  rw [signInt_cast, withSign, withSign]
  ring

/-- The order of finite values: as numbers, and a zero of sign − below one of sign +. -/
theorem Num.ltTotal_fin (n1 : Bool) (m1 : Nat) (e1 : Int) (n2 : Bool) (m2 : Nat) (e2 : Int) :
    Num.ltTotal (.fin n1 m1 e1) (.fin n2 m2 e2) = true ↔ numRat (.fin n1 m1 e1) < numRat (.fin n2 m2 e2) ∨
      numRat (.fin n1 m1 e1) = numRat (.fin n2 m2 e2) ∧ m1 = 0 ∧ n1 = true ∧ n2 = false := by
  have hpow := two_zpow_pos (min e1 e2)
  rw [← numRat_scaled n1 m1 (min_le_left e1 e2), ← numRat_scaled n2 m2 (min_le_right e1 e2), mul_lt_mul_iff_left₀ hpow,
    mul_left_inj' hpow.ne', Int.cast_lt, Int.cast_inj]
  simp only [Num.ltTotal, Bool.or_eq_true, Bool.and_eq_true, decide_eq_true_eq, Bool.not_eq_true', and_assoc]

/-- The key that orders the codes of a format that are no NaN, −0 below +0. -/
def signKey (neg : Bool) (c : Nat) : Int := if neg then -(c : Int) - 1 else c

section
variable {F : FloatFmt} {c c1 c2 : Nat} (n n1 n2 : Bool)

theorem FloatFmt.magNat_eq_zero : F.magNat c = 0 ↔ c = 0 := by
  have h0 : F.magNat 0 = 0 := F.magNat_of_lt (Nat.two_pow_pos _)
  rw [← F.magNat_strictMono.injective.eq_iff (a := c) (b := 0), h0]

/-- A code below the infinity is finite, of its magnitude, and zero where the code is. -/
theorem FloatFmt.valueOf_fin (hc : c < F.infMag) : ∃ m e, F.valueOf n c = .fin n m e ∧
    numRat (.fin n m e) = ((signInt n (F.magNat c) : ℤ) : ℚ) * 2 ^ F.ulpExp ∧ (m = 0 ↔ c = 0) := by
  obtain ⟨m, e, hv, hm⟩ := F.valueOf_of_lt hc n
  refine ⟨m, e, hv, ?_, ?_⟩
  · rw [numRat_fin, hm, signInt_cast, withSign_mul]
  · have hzero : (m : ℚ) * 2 ^ e = 0 ↔ (F.magNat c : ℚ) * 2 ^ F.ulpExp = 0 := by rw [hm]
    rw [mul_eq_zero_iff_right (two_zpow_pos e).ne', mul_eq_zero_iff_right (two_zpow_pos _).ne', Nat.cast_eq_zero,
      Nat.cast_eq_zero, F.magNat_eq_zero] at hzero
    exact hzero

theorem signInt_lt_iff (hmono : StrictMono F.magNat) :
    signInt n1 (F.magNat c1) < signInt n2 (F.magNat c2) ∨
      signInt n1 (F.magNat c1) = signInt n2 (F.magNat c2) ∧ c1 = 0 ∧ n1 = true ∧ n2 = false ↔ signKey n1 c1 < signKey n2 c2 := by
  have hlt := hmono.lt_iff_lt (a := c1) (b := c2)
  have hgt := hmono.lt_iff_lt (a := c2) (b := c1)
  have hz1 : F.magNat c1 = 0 ↔ c1 = 0 := F.magNat_eq_zero
  cases n1 <;> cases n2 <;> simp [signInt, signKey] <;> omega

/-- Values of codes that are no NaN are in the order of their keys. -/
theorem FloatFmt.ltTotal_valueOf (h1 : c1 ≤ F.infMag) (h2 : c2 ≤ F.infMag) :
    (F.valueOf n1 c1).ltTotal (F.valueOf n2 c2) = decide (signKey n1 c1 < signKey n2 c2) := by
  rw [Bool.eq_iff_iff, decide_eq_true_iff]
  rcases h1.lt_or_eq with h1 | rfl
  · obtain ⟨m1, e1, hv1, hr1, hz1⟩ := F.valueOf_fin n1 h1
    rcases h2.lt_or_eq with h2 | rfl
    · obtain ⟨m2, e2, hv2, hr2, -⟩ := F.valueOf_fin n2 h2
      have hpow := two_zpow_pos F.ulpExp
      rw [hv1, hv2, Num.ltTotal_fin, hr1, hr2, mul_lt_mul_iff_left₀ hpow, mul_left_inj' hpow.ne', Int.cast_lt, Int.cast_inj, hz1,
        signInt_lt_iff n1 n2 F.magNat_strictMono]
    · rw [hv1, F.valueOf_infMag]
      cases n1 <;> cases n2 <;> simp [Num.ltTotal, signKey] <;> omega
  · rw [F.valueOf_infMag]
    rcases h2.lt_or_eq with h2 | rfl
    · obtain ⟨m2, e2, hv2, -, -⟩ := F.valueOf_fin n2 h2
      rw [hv2]
      cases n1 <;> cases n2 <;> simp [Num.ltTotal, signKey] <;> omega
    · rw [F.valueOf_infMag]
      cases n1 <;> cases n2 <;> simp [Num.ltTotal, signKey]
      omega

/-- The values of zeros are those of the codes 0. -/
theorem FloatFmt.eq_zero_of_valueOf {n' : Bool} {e : Int} (hc : c ≤ F.infMag) (h : F.valueOf n c = .fin n' 0 e) : c = 0 := by
  rcases hc.lt_or_eq with hlt | rfl
  · obtain ⟨m, e', hv, -, hz⟩ := F.valueOf_fin n hlt
    rw [hv] at h
    cases h
    exact hz.mp rfl
  · rw [F.valueOf_infMag] at h
    cases h

theorem FloatFmt.infMag_pos (hF : F.Sane) : 0 < F.infMag :=
  Nat.mul_pos (Nat.sub_pos_of_lt (Nat.one_lt_two_pow (by have := hF.ebits; omega))) (Nat.two_pow_pos _)

theorem FloatFmt.valueOf_zero (hF : F.Sane) : ∃ e, F.valueOf n 0 = .fin n 0 e := by
  obtain ⟨m, e, hv, -, hz⟩ := F.valueOf_fin n (F.infMag_pos hF)
  obtain rfl := hz.mpr rfl
  exact ⟨e, hv⟩

theorem Num.lt_of_not_zeros {a b : Num} (h : ∀ n1 e1 n2 e2, ¬ (a = .fin n1 0 e1 ∧ b = .fin n2 0 e2)) : a.lt b = a.ltTotal b := by
  rw [Num.lt.eq_def]
  split
  · exact absurd ⟨rfl, rfl⟩ (h _ _ _ _)
  · rfl

/-- With −0 equal to +0, values of codes that are no NaN are in the order of their signed magnitudes. -/
theorem FloatFmt.lt_valueOf (hF : F.Sane) (h1 : c1 ≤ F.infMag) (h2 : c2 ≤ F.infMag) :
    (F.valueOf n1 c1).lt (F.valueOf n2 c2) = decide (signInt n1 c1 < signInt n2 c2) := by
  by_cases hz : c1 = 0 ∧ c2 = 0
  · obtain ⟨rfl, rfl⟩ := hz
    obtain ⟨e1, hv1⟩ := F.valueOf_zero n1 hF
    obtain ⟨e2, hv2⟩ := F.valueOf_zero n2 hF
    rw [hv1, hv2]
    cases n1 <;> cases n2 <;> rfl
  · have hne : ∀ n1' e1 n2' e2, ¬ (F.valueOf n1 c1 = .fin n1' 0 e1 ∧ F.valueOf n2 c2 = .fin n2' 0 e2) :=
      fun _ _ _ _ ⟨ha, hb⟩ => hz ⟨F.eq_zero_of_valueOf n1 h1 ha, F.eq_zero_of_valueOf n2 h2 hb⟩
    rw [Num.lt_of_not_zeros hne, F.ltTotal_valueOf n1 n2 h1 h2, decide_eq_decide]
    cases n1 <;> cases n2 <;> simp [signInt, signKey] <;> omega

/-! ### NaNs and classes -/

theorem FloatFmt.isNan_valueOf (hs : c < 2 ^ F.signBit) : (F.valueOf n c).isNan = decide (F.infMag < c) := by
  rcases lt_trichotomy c F.infMag with h | rfl | h
  · obtain ⟨m, e, hv, -⟩ := F.valueOf_fin n h
    rw [hv, decide_eq_false h.not_gt]
    rfl
  · rw [F.valueOf_infMag, decide_eq_false (lt_irrefl _)]
    rfl
  · rw [F.valueOf_of_gt h hs, decide_eq_true h]
    rfl

theorem FloatFmt.sig_valueOf (hs : c < 2 ^ F.signBit) :
    (F.valueOf n c).sig = decide (F.infMag < c ∧ c < F.infMag + 2 ^ (F.p - 2)) := by
  rcases lt_trichotomy c F.infMag with h | rfl | h
  · obtain ⟨m, e, hv, -⟩ := F.valueOf_fin n h
    rw [hv, decide_eq_false fun hc => h.not_gt hc.1]
    rfl
  · rw [F.valueOf_infMag, decide_eq_false fun hc => lt_irrefl _ hc.1]
    rfl
  · rw [F.valueOf_of_gt h hs, Num.sig, decide_eq_decide]
    omega

end

/-! ### FP32 -/

section
variable {x y : Nat}

/-- The sign of an FP32 code. -/
def neg32 (x : Nat) : Bool := decide (x / 2 ^ 31 % 2 = 1)

theorem ofCode_f32 (x : Nat) : Num.ofCode f32 x = f32.valueOf (neg32 x) (x % 2 ^ 31) := Num.ofCode_eq f32 x

theorem mod_lt_f32 (x : Nat) : x % 2 ^ 31 < 2 ^ f32.signBit := Nat.mod_lt _ (Nat.two_pow_pos 31)

theorem infMag_f32 : f32.infMag = 0x7F80_0000 := by decide

theorem isNan_f32 (x : Nat) : (Num.ofCode f32 x).isNan = nanCode32 x := by
  rw [ofCode_f32, FloatFmt.isNan_valueOf _ (mod_lt_f32 x), infMag_f32]
  rfl

theorem sig_f32 (x : Nat) : (Num.ofCode f32 x).sig = snanCode32 x := by
  rw [ofCode_f32, FloatFmt.sig_valueOf _ (mod_lt_f32 x), infMag_f32, snanCode32, Bool.decide_and]
  rfl

theorem le_infMag_of_not_nan (hx : nanCode32 x = false) : x % 2 ^ 31 ≤ f32.infMag := by
  rw [nanCode32, decide_eq_false_iff_not, not_lt] at hx
  rwa [infMag_f32]

theorem codeKey_eq (hx : x < 2 ^ 32) : codeKey x = signKey (neg32 x) (x % 2 ^ 31) := by
  rw [codeKey, signKey, neg32]
  simp only [decide_eq_true_eq]
  split <;> split <;> omega

theorem codeKeyZero_eq (hx : x < 2 ^ 32) : codeKeyZero x = signInt (neg32 x) (x % 2 ^ 31) := by
  rw [codeKeyZero, signInt, neg32]
  simp only [decide_eq_true_eq]
  split <;> split <;> omega

theorem ltTotal_f32 (hx : x < 2 ^ 32) (hy : y < 2 ^ 32) (hnx : nanCode32 x = false) (hny : nanCode32 y = false) :
    (Num.ofCode f32 x).ltTotal (Num.ofCode f32 y) = decide (codeKey x < codeKey y) := by
  rw [ofCode_f32, ofCode_f32, f32.ltTotal_valueOf _ _ (le_infMag_of_not_nan hnx) (le_infMag_of_not_nan hny), codeKey_eq hx,
    codeKey_eq hy]

theorem lt_f32 (hx : x < 2 ^ 32) (hy : y < 2 ^ 32) (hnx : nanCode32 x = false) (hny : nanCode32 y = false) :
    (Num.ofCode f32 x).lt (Num.ofCode f32 y) = decide (codeKeyZero x < codeKeyZero y) := by
  rw [ofCode_f32, ofCode_f32, f32.lt_valueOf _ _ sane_f32 (le_infMag_of_not_nan hnx) (le_infMag_of_not_nan hny), codeKeyZero_eq hx,
    codeKeyZero_eq hy]

theorem eq_f32 (hx : x < 2 ^ 32) (hy : y < 2 ^ 32) (hnx : nanCode32 x = false) (hny : nanCode32 y = false) :
    (Num.ofCode f32 x).eq (Num.ofCode f32 y) = decide (codeKeyZero x = codeKeyZero y) := by
  rw [Num.eq, lt_f32 hx hy hnx hny, lt_f32 hy hx hny hnx, ← decide_not, ← decide_not, ← Bool.decide_and, decide_eq_decide]
  omega

/-- `fmin` and `fmax` choose by the keys. -/
theorem minMax_f32 (larger : Bool) (hx : x < 2 ^ 32) (hy : y < 2 ^ 32) :
    minMax f32 larger x y =
      (if nanCode32 x && nanCode32 y then 0x7FC0_0000
        else if nanCode32 x then y else if nanCode32 y then x
        else if (bif larger then decide (codeKey y ≤ codeKey x) else decide (codeKey x ≤ codeKey y)) then x else y,
       if snanCode32 x || snanCode32 y then 0x10 else 0) := by
  have hfl : flagIf (snanCode32 x || snanCode32 y) fNv = if snanCode32 x || snanCode32 y then 0x10 else 0 := rfl
  simp only [minMax, isNan_f32, sig_f32, hfl]
  cases hnx : nanCode32 x <;> cases hny : nanCode32 y
  · cases larger <;>
      simp only [ltTotal_f32 hx hy hnx hny, ltTotal_f32 hy hx hny hnx, ← not_lt, Bool.false_eq_true, Bool.and_self, if_false,
        if_true, cond_true, cond_false, decide_eq_true_eq, ite_not] <;> split <;> rfl
  all_goals rfl

theorem minMax_f32_lt (larger : Bool) (hx : x < 2 ^ 32) (hy : y < 2 ^ 32) : (minMax f32 larger x y).1 < 2 ^ 32 := by
  rw [minMax_f32 larger hx hy]
  split_ifs <;> omega

/-- The comparisons of values are those of the keys, unordered where an operand is a NaN. -/
theorem compare_f32 (hx : x < 2 ^ 32) (hy : y < 2 ^ 32) :
    let un := nanCode32 x || nanCode32 y
    let sig : Flags := if snanCode32 x || snanCode32 y then 0x10 else 0
    let order (cond : Cond) := compare cond (Num.ofCode f32 x) (Num.ofCode f32 y)
    order .eq = (!un && decide (codeKeyZero x = codeKeyZero y), sig) ∧
    order .lt = (!un && decide (codeKeyZero x < codeKeyZero y), if un then 0x10 else 0) ∧
    order .le = (!un && decide (codeKeyZero x ≤ codeKeyZero y), if un then 0x10 else 0) ∧
    order .un = (un, sig) := by
  simp only [compare, isNan_f32, sig_f32]
  cases hnx : nanCode32 x
  · cases hny : nanCode32 y
    · have hnot : decide (¬ codeKeyZero y < codeKeyZero x) = decide (codeKeyZero x ≤ codeKeyZero y) := decide_eq_decide.mpr not_lt
      rw [eq_f32 hx hy hnx hny, lt_f32 hx hy hnx hny, lt_f32 hy hx hny hnx, ← decide_not, hnot]
      exact ⟨rfl, rfl, rfl, rfl⟩
    · exact ⟨rfl, rfl, rfl, rfl⟩
  · exact ⟨rfl, rfl, rfl, rfl⟩

/-- The magnitude of an FP32 code is zero, subnormal, normal, infinite, or a signalling or quiet NaN. -/
theorem classOf_f32 (hx : x < 2 ^ 32) : classOf f32 x =
    if x % 2 ^ 31 = 0 then (if 2 ^ 31 ≤ x then 3 else 4)
    else if x % 2 ^ 31 < 0x80_0000 then (if 2 ^ 31 ≤ x then 2 else 5)
    else if x % 2 ^ 31 < 0x7F80_0000 then (if 2 ^ 31 ≤ x then 1 else 6)
    else if x % 2 ^ 31 = 0x7F80_0000 then (if 2 ^ 31 ≤ x then 0 else 7)
    else if x % 2 ^ 31 < 0x7FC0_0000 then 8 else 9 := by
  have hneg : neg32 x = decide (2 ^ 31 ≤ x) := by
    rw [neg32, decide_eq_decide]
    omega
  have hsub : x / 2 ^ (f32.p - 1) % 2 ^ f32.ebits = 0 ↔ x % 2 ^ 31 < 0x80_0000 := by
    show x / 2 ^ 23 % 2 ^ 8 = 0 ↔ _
    omega
  rw [classOf]
  simp only [hsub, ofCode_f32, hneg]
  rcases lt_trichotomy (x % 2 ^ 31) f32.infMag with h | h | h
  · obtain ⟨m, e, hv, -, hz⟩ := f32.valueOf_fin (decide (2 ^ 31 ≤ x)) h
    rw [infMag_f32] at h
    simp only [hv, hz, h, if_true, decide_eq_true_eq]
  · rw [h, f32.valueOf_infMag, infMag_f32]
    simp
  · rw [f32.valueOf_of_gt h (mod_lt_f32 x)]
    rw [infMag_f32] at h ⊢
    have hq : x % 2 ^ 31 - 0x7F80_0000 < 2 ^ (f32.p - 2) ↔ x % 2 ^ 31 < 0x7FC0_0000 := by
      show _ < 2 ^ 22 ↔ _
      omega
    rw [if_neg (by omega), if_neg (by omega), if_neg (by omega), if_neg (by omega)]
    simp only [hq, decide_eq_true_eq]

end

end Sys2Proof.Machine

namespace Sys2Proof

open Machine

/-! ### `fmin`, `fmax`, `fcmp` and `fcls` -/

/-- The word of a comparison. -/
def truthWord (r : Bool × Flags) : Word := if r.1 then 1 else 0

/-- A comparison gives 1 or 0. -/
theorem computesFlags_truth {i : Instr} {s : State} {d : Reg} {r : Bool × Flags} {P : Word → Flags → Prop}
    (h : exec i s = .next (s.giveFloat s.cur d (if r.1 then 1 else 0, r.2))) (hP : P (truthWord r) r.2) :
    ComputesFlags i s d P := by
  refine ⟨_, _, _, h, gives_giveFloat s d _, ?_⟩
  rw [apply_ite (BitVec.ofNat 64)]
  exact hP

/-- A result without flags. -/
theorem computes_of_code {i : Instr} {s : State} {d : Reg} {n : Nat} {P : Word → Prop}
    (h : exec i s = .next (s.giveFloat s.cur d (n, 0))) (hP : P (BitVec.ofNat 64 n)) : Computes i s d P :=
  ⟨_, _, h, gives_giveFloat s d _, hP⟩

/-- Settles O14: on codes that are no NaN, the orders of values are those of the keys; and a value knows the class of its code. -/
theorem floatOrderAndClasses : Obligations.FloatOrderAndClasses := by
  intro s d a b x y un sig choose
  have hx : x < 2 ^ 32 := Nat.mod_lt _ (Nat.two_pow_pos 32)
  have hy : y < 2 ^ 32 := Nat.mod_lt _ (Nat.two_pow_pos 32)
  have hlt (larger : Bool) : (minMax f32 larger x y).1 < 2 ^ 64 := (minMax_f32_lt larger hx hy).trans (by decide)
  obtain ⟨heq, hlt', hle, hun⟩ := compare_f32 hx hy
  refine ⟨computesFlags_of rfl (hlt false) fun v hv => ?fmin, computesFlags_of rfl (hlt true) fun v hv => ?fmax,
    computesFlags_truth rfl ?eq, computesFlags_truth rfl ?lt, computesFlags_truth rfl ?le, computesFlags_truth rfl ?un,
    computes_of_code rfl ?fcls⟩
  case fmin =>
    rw [hv, minMax_f32 false hx hy]
    exact ⟨rfl, rfl⟩
  case fmax =>
    rw [hv, minMax_f32 true hx hy]
    exact ⟨rfl, rfl⟩
  case eq => exact ⟨congrArg truthWord heq, congrArg Prod.snd heq⟩
  case lt => exact ⟨congrArg truthWord hlt', congrArg Prod.snd hlt'⟩
  case le => exact ⟨congrArg truthWord hle, congrArg Prod.snd hle⟩
  case un => exact ⟨congrArg truthWord hun, congrArg Prod.snd hun⟩
  case fcls =>
    refine BitVec.eq_of_toNat_eq ?_
    rw [classOf_f32 hx]
    simp only [apply_ite (fun n => BitVec.ofNat 64 (2 ^ n)), apply_ite BitVec.toNat, decide_eq_true_eq]
    rfl

end Sys2Proof

/-! The scalar float forms (R106): sums, products and quotients of finite values as exact numbers rounded once, and the results
that special values name. -/

namespace Sys2Proof.Machine

open Sys2Proof

/-! ### Kinds of values -/

section
variable {a : Num}

theorem Num.exists_nan (h : a.isNan = true) : ∃ s, a = .nan s := by
  cases a with
  | nan s => exact ⟨s, rfl⟩
  | inf n => exact absurd h Bool.false_ne_true
  | fin n m e => exact absurd h Bool.false_ne_true

theorem Num.exists_fin (h : numFin a = true) : ∃ n m e, a = .fin n m e := by
  cases a with
  | nan s => exact absurd h Bool.false_ne_true
  | inf n => exact absurd h Bool.false_ne_true
  | fin n m e => exact ⟨n, m, e, rfl⟩

end

/-! ### Exact sums, products and negatives -/

@[simp] theorem numRat_neg (x : Num) : numRat x.neg = -numRat x := by
  cases x with
  | nan s => simp [Num.neg, numRat]
  | inf n => simp [Num.neg, numRat]
  | fin n m e => cases n <;> simp [Num.neg, numRat]

@[simp] theorem numFin_neg (x : Num) : numFin x.neg = numFin x := by cases x <;> rfl

/-- The value that an integer and an exponent are. -/
theorem numRat_ofInt (v e : Int) : numRat (.fin (v < 0) v.natAbs e) = v * 2 ^ e := by
  rw [numRat_fin, withSign_mul, ← signInt_cast]
  congr 2
  rw [signInt]
  split
  next h => have := of_decide_eq_true h; omega
  next h => have : ¬ v < 0 := fun hv => h (decide_eq_true hv); omega

theorem numRat_sumExact (n1 : Bool) (m1 : Nat) (e1 : Int) (n2 : Bool) (m2 : Nat) (e2 : Int) :
    ((sumExact n1 m1 e1 n2 m2 e2).1 : ℚ) * 2 ^ (sumExact n1 m1 e1 n2 m2 e2).2 =
      numRat (.fin n1 m1 e1) + numRat (.fin n2 m2 e2) := by
  rw [← numRat_scaled n1 m1 (min_le_left e1 e2), ← numRat_scaled n2 m2 (min_le_right e1 e2), sumExact]
  push_cast
  ring

theorem numRat_mul (n1 : Bool) (m1 : Nat) (e1 : Int) (n2 : Bool) (m2 : Nat) (e2 : Int) :
    numRat (.fin (n1 != n2) (m1 * m2) (e1 + e2)) = numRat (.fin n1 m1 e1) * numRat (.fin n2 m2 e2) := by
  simp only [numRat, two_zpow_add]
  cases n1 <;> cases n2 <;> simp <;> ring

theorem numRat_eq_zero (n : Bool) (m : Nat) (e : Int) : numRat (.fin n m e) = 0 ↔ m = 0 := by
  have := (two_zpow_pos e).ne'
  cases n <;> simp [numRat, this]

/-! ### Sums -/

section
variable {F : FloatFmt} (hF : F.Sane)

theorem addNum_fin (n1 : Bool) (m1 : Nat) (e1 : Int) (n2 : Bool) (m2 : Nat) (e2 : Int) :
    addNum F (.fin n1 m1 e1) (.fin n2 m2 e2) =
      if (sumExact n1 m1 e1 n2 m2 e2).1 = 0 then (F.zeroCode (n1 && n2), 0)
      else roundTo F false ((sumExact n1 m1 e1 n2 m2 e2).1 < 0) (sumExact n1 m1 e1 n2 m2 e2).1.natAbs
        (sumExact n1 m1 e1 n2 m2 e2).2 false := rfl

/-- An exact zero sum. -/
theorem addNum_of_sum_zero {n1 n2 : Bool} {m1 m2 : Nat} {e1 e2 : Int}
    (h : numRat (.fin n1 m1 e1) + numRat (.fin n2 m2 e2) = 0) :
    addNum F (.fin n1 m1 e1) (.fin n2 m2 e2) = (F.zeroCode (n1 && n2), 0) := by
  rw [← numRat_sumExact, mul_eq_zero_iff_right (two_zpow_pos _).ne', Int.cast_eq_zero] at h
  rw [addNum_fin, if_pos h]

include hF

/-- A sum other than 0 is rounded once. -/
theorem addNum_rounded {a b : Num} (ha : numFin a = true) (hb : numFin b = true) (h : numRat a + numRat b ≠ 0) :
    Rounded F false (numRat a + numRat b) (addNum F a b).1 (addNum F a b).2 := by
  obtain ⟨n1, m1, e1, rfl⟩ := Num.exists_fin ha
  obtain ⟨n2, m2, e2, rfl⟩ := Num.exists_fin hb
  rw [← numRat_sumExact] at h ⊢
  have hs : (sumExact n1 m1 e1 n2 m2 e2).1 ≠ 0 := fun h0 => h (by rw [h0]; simp)
  rw [addNum_fin, if_neg hs, ← numRat_ofInt]
  exact roundTo_exact F hF false _ (Int.natAbs_pos.mpr hs) _

theorem addNum_lt (a b : Num) : (addNum F a b).1 < 2 ^ (F.p + F.ebits) := by
  cases a with
  | nan s => exact F.nanCode_lt hF
  | inf n1 =>
    cases b with
    | nan s => exact F.nanCode_lt hF
    | inf n2 =>
      rw [addNum]
      split
      · exact F.infCode_lt hF n1
      · exact F.nanCode_lt hF
    | fin n2 m2 e2 => exact F.infCode_lt hF n1
  | fin n1 m1 e1 =>
    cases b with
    | nan s => exact F.nanCode_lt hF
    | inf n2 => exact F.infCode_lt hF n2
    | fin n2 m2 e2 =>
      rw [addNum_fin]
      split
      · exact F.zeroCode_lt hF _
      · exact roundTo_lt hF false _ _ _

/-! ### Products -/

theorem mulNum_rounded {a b : Num} (ha : numFin a = true) (hb : numFin b = true) (h : numRat a * numRat b ≠ 0) :
    Rounded F false (numRat a * numRat b) (mulNum F a b).1 (mulNum F a b).2 := by
  obtain ⟨n1, m1, e1, rfl⟩ := Num.exists_fin ha
  obtain ⟨n2, m2, e2, rfl⟩ := Num.exists_fin hb
  rw [← numRat_mul] at h ⊢
  exact Num.round_rounded hF false rfl h

theorem mulNum_lt (a b : Num) : (mulNum F a b).1 < 2 ^ (F.p + F.ebits) := by
  rw [mulNum]
  split
  · exact F.nanCode_lt hF
  · exact Num.round_lt hF false _

theorem fmaNum_rounded {a b c : Num} (ha : numFin a = true) (hb : numFin b = true) (hc : numFin c = true)
    (h : numRat a * numRat b + numRat c ≠ 0) :
    Rounded F false (numRat a * numRat b + numRat c) (fmaNum F a b c).1 (fmaNum F a b c).2 := by
  obtain ⟨n1, m1, e1, rfl⟩ := Num.exists_fin ha
  obtain ⟨n2, m2, e2, rfl⟩ := Num.exists_fin hb
  rw [← numRat_mul] at h ⊢
  exact addNum_rounded hF rfl hc h

theorem fmaNum_lt (a b c : Num) : (fmaNum F a b c).1 < 2 ^ (F.p + F.ebits) := by
  rw [fmaNum]
  split
  · exact F.nanCode_lt hF
  · exact addNum_lt hF _ c

end

/-! ### Quotients -/

/-- The exponent that a quotient is scaled by before it is divided. -/
def FloatFmt.divScale (F : FloatFmt) (m2 : Nat) : Nat := F.p + 3 + bitLen m2

theorem divNum_fin (F : FloatFmt) (n1 : Bool) (m1 : Nat) (e1 : Int) (n2 : Bool) {m2 : Nat} (h2 : m2 ≠ 0) (e2 : Int) :
    divNum F (.fin n1 m1 e1) (.fin n2 m2 e2) = roundTo F false (n1 != n2) (m1 * 2 ^ F.divScale m2 / m2)
      (e1 - e2 - F.divScale m2) (m1 * 2 ^ F.divScale m2 % m2 ≠ 0) := by
  rw [divNum, if_neg h2]
  rfl

/-- An integer quotient and whether it leaves a rest stand for the rational quotient. -/
theorem standsFor_div (n : Nat) {d : Nat} (hd : 0 < d) : StandsFor (n / d) (n % d ≠ 0) 0 ((n : ℚ) / d) := by
  have hd' : (0 : ℚ) < d := Nat.cast_pos.mpr hd
  have hn : (n : ℚ) = d * (n / d : ℕ) + (n % d : ℕ) := by exact_mod_cast (Nat.div_add_mod n d).symm
  refine ⟨fun hs => ?_, fun hs => ⟨?_, ?_⟩, fun _ => one_dvd _⟩
  · have hr : n % d = 0 := by simpa using hs
    rw [hr, Nat.cast_zero, add_zero] at hn
    rw [div_eq_iff hd'.ne', hn]
    ring
  · have hr : (0 : ℚ) < (n % d : ℕ) := Nat.cast_pos.mpr (Nat.pos_of_ne_zero (of_decide_eq_true hs))
    rw [lt_div_iff₀ hd']
    linarith
  · have hr : ((n % d : ℕ) : ℚ) < d := Nat.cast_lt.mpr (Nat.mod_lt n hd)
    rw [div_lt_iff₀ hd', pow_zero]
    linarith

section
variable {F : FloatFmt} {m1 m2 : Nat} (h1 : 0 < m1) (h2 : 0 < m2)
include h1 h2

/-- The scaled quotient has more bits than the format. -/
theorem two_pow_le_div : 2 ^ F.p ≤ m1 * 2 ^ F.divScale m2 / m2 := by
  rw [Nat.le_div_iff_mul_le h2, FloatFmt.divScale]
  calc 2 ^ F.p * m2 ≤ 2 ^ F.p * 2 ^ bitLen m2 := Nat.mul_le_mul_left _ (lt_two_pow_bitLen m2).le
    _ = 2 ^ (F.p + bitLen m2) := (pow_add ..).symm
    _ ≤ 2 ^ (F.p + 3 + bitLen m2) := Nat.pow_le_pow_right (by decide) (by omega)
    _ ≤ m1 * 2 ^ (F.p + 3 + bitLen m2) := Nat.le_mul_of_pos_left _ h1

theorem divNum_rounded (hF : F.Sane) (n1 : Bool) (e1 : Int) (n2 : Bool) (e2 : Int) :
    Rounded F false (numRat (.fin n1 m1 e1) / numRat (.fin n2 m2 e2)) (divNum F (.fin n1 m1 e1) (.fin n2 m2 e2)).1
      (divNum F (.fin n1 m1 e1) (.fin n2 m2 e2)).2 := by
  have hle : 2 ^ F.p ≤ m1 * 2 ^ F.divScale m2 / m2 := two_pow_le_div h1 h2
  have hval : numRat (.fin n1 m1 e1) / numRat (.fin n2 m2 e2) =
      withSign (n1 != n2) (((m1 * 2 ^ F.divScale m2 : ℕ) : ℚ) / m2 * 2 ^ (e1 - e2 - F.divScale m2)) := by
    have hm2 : (m2 : ℚ) ≠ 0 := Nat.cast_ne_zero.mpr h2.ne'
    have he2 := (two_zpow_pos e2).ne'
    rw [numRat_fin, numRat_fin, sub_sub, zpow_sub₀ two_ne_zero, two_zpow_add, zpow_natCast]
    push_cast
    cases n1 <;> cases n2 <;> simp [withSign] <;> field_simp
  rw [hval, divNum_fin F n1 m1 e1 n2 h2.ne' e2]
  exact roundTo_rounded (standsFor_div _ h2) ((Nat.two_pow_pos _).trans_le hle) (fun _ => lt_bitLen.mpr hle) hF _

end

theorem divNum_zero (F : FloatFmt) (n1 : Bool) (e1 : Int) (n2 : Bool) {m2 : Nat} (h2 : m2 ≠ 0) (e2 : Int) :
    divNum F (.fin n1 0 e1) (.fin n2 m2 e2) = (F.zeroCode (n1 != n2), 0) := by
  rw [divNum_fin F n1 0 e1 n2 h2 e2]
  simp [roundTo]

theorem divNum_lt {F : FloatFmt} (hF : F.Sane) (a b : Num) : (divNum F a b).1 < 2 ^ (F.p + F.ebits) := by
  cases a with
  | nan s => exact F.nanCode_lt hF
  | inf n1 =>
    cases b with
    | nan s => exact F.nanCode_lt hF
    | inf n2 => exact F.nanCode_lt hF
    | fin n2 m2 e2 => exact F.infCode_lt hF _
  | fin n1 m1 e1 =>
    cases b with
    | nan s => exact F.nanCode_lt hF
    | inf n2 => exact F.zeroCode_lt hF _
    | fin n2 m2 e2 =>
      rcases Nat.eq_zero_or_pos m2 with rfl | h2
      · rw [divNum, if_pos rfl]
        split
        · exact F.nanCode_lt hF
        · exact F.infCode_lt hF _
      · rcases Nat.eq_zero_or_pos m1 with rfl | h1
        · rw [divNum_zero F n1 e1 n2 h2.ne' e2]
          exact F.zeroCode_lt hF _
        · exact (divNum_rounded h1 h2 hF n1 e1 n2 e2).width

end Sys2Proof.Machine

/-! `fsqrt` (R106): the integer square root, the rationals that it stands for, and the neighbours of the rounding. -/

namespace Sys2Proof.Machine

open Sys2Proof

/-! ### The integer square root -/

theorem isqrtFrom_spec (n k r : Nat) (hlo : r * r ≤ n) (hhi : n < (r + 2 ^ k) * (r + 2 ^ k)) :
    isqrtFrom n k r * isqrtFrom n k r ≤ n ∧ n < (isqrtFrom n k r + 1) * (isqrtFrom n k r + 1) := by
  induction k generalizing r with
  | zero => exact ⟨hlo, hhi⟩
  | succ k ih =>
    rw [isqrtFrom]
    split
    next h =>
      refine ih _ h ?_
      rwa [Nat.add_assoc, ← Nat.two_mul, ← pow_succ']
    next h => exact ih _ hlo (not_le.mp h)

theorem isqrt_spec (n : Nat) : isqrt n * isqrt n ≤ n ∧ n < (isqrt n + 1) * (isqrt n + 1) := by
  refine isqrtFrom_spec n _ 0 (Nat.zero_le n) ?_
  rw [Nat.zero_add, ← pow_add]
  exact (lt_two_pow_bitLen n).trans_le (Nat.pow_le_pow_right (by decide) (by omega))

/-! ### What an integer square root stands for -/

/-- The rationals that `r` stands for as the root of `n`: `r` where it is exact, else those between `r` and `r + 1`. -/
def RootLike (r n : Nat) (z : ℚ) : Prop := StandsFor r (r * r ≠ n) 0 z

section
variable {r n : Nat} {z c : ℚ}

theorem rootLike_exact (h : r * r = n) : RootLike r n z ↔ z = r := by
  have hs : decide (r * r ≠ n) = false := decide_eq_false (not_not.mpr h)
  rw [RootLike, hs]
  exact ⟨fun hz => hz.exact rfl, fun hz => ⟨fun _ => hz, nofun, nofun⟩⟩

theorem rootLike_inexact (h : r * r ≠ n) : RootLike r n z ↔ (r : ℚ) < z ∧ z < r + 1 := by
  have hs : decide (r * r ≠ n) = true := decide_eq_true h
  rw [RootLike, hs]
  exact ⟨fun hz => by simpa using hz.above rfl, fun hz => ⟨nofun, fun _ => by simpa using hz, fun _ => one_dvd _⟩⟩

theorem exists_rootLike (r n : Nat) : ∃ z, RootLike r n z := by
  by_cases hex : r * r = n
  · exact ⟨r, (rootLike_exact hex).mpr rfl⟩
  · exact ⟨r + 1 / 2, (rootLike_inexact hex).mpr ⟨by linarith, by linarith⟩⟩

/-- One of them is no given number whose square is not `n`. -/
theorem exists_rootLike_ne (h : c * c ≠ n) : ∃ z, RootLike r n z ∧ z ≠ c := by
  by_cases hex : r * r = n
  · refine ⟨r, (rootLike_exact hex).mpr rfl, ?_⟩
    rintro rfl
    exact h (by exact_mod_cast hex)
  · by_cases hc : c = r + 1 / 2
    · exact ⟨r + 1 / 3, (rootLike_inexact hex).mpr ⟨by linarith, by linarith⟩, by rw [hc]; intro h; linarith⟩
    · exact ⟨r + 1 / 2, (rootLike_inexact hex).mpr ⟨by linarith, by linarith⟩, fun h => hc h.symm⟩

/-- The root of a number that is no square lies above `r`. -/
theorem sq_lt_of_ne (hlo : r * r ≤ n) (h : r * r ≠ n) : (r : ℚ) * r < n := by exact_mod_cast lt_of_le_of_ne hlo h

variable (hlo : r * r ≤ n) (hhi : n < (r + 1) * (r + 1))
include hlo hhi

/-- A rational root is one of them. -/
theorem rootLike_of_sq (hc : 0 ≤ c) (h : c * c = n) : RootLike r n c := by
  have hr : (0 : ℚ) ≤ r := Nat.cast_nonneg r
  by_cases hex : r * r = n
  · rw [rootLike_exact hex, ← mul_self_inj hc hr, h]
    exact_mod_cast hex.symm
  · have hhi' : (n : ℚ) < (r + 1) * (r + 1) := by exact_mod_cast hhi
    rw [rootLike_inexact hex, mul_self_lt_mul_self_iff hr hc, mul_self_lt_mul_self_iff hc (by positivity), h]
    exact ⟨sq_lt_of_ne hlo hex, hhi'⟩

omit hhi in
/-- A lower bound of them all is one of the root. -/
theorem sq_le_of_le_rootLike (hc : 0 ≤ c) (h : ∀ z, RootLike r n z → c ≤ z) : c * c ≤ n := by
  have hle : c ≤ r := by
    by_cases hex : r * r = n
    · exact h r ((rootLike_exact hex).mpr rfl)
    · refine le_of_forall_gt_imp_ge_of_dense fun a ha => ?_
      have hmin := h (r + min (a - r) 1 / 2) ((rootLike_inexact hex).mpr ⟨?_, ?_⟩)
      · have := min_le_left (a - (r : ℚ)) 1
        linarith
      · have := lt_min (sub_pos.mpr ha) one_pos
        linarith
      · have := min_le_right (a - (r : ℚ)) 1
        linarith
  calc c * c ≤ r * r := mul_self_le_mul_self hc hle
    _ ≤ n := by exact_mod_cast hlo

omit hlo in
/-- An upper bound of them all is one of the root. -/
theorem le_sq_of_rootLike_le (h : ∀ z, RootLike r n z → z ≤ c) : n ≤ c * c := by
  by_cases hex : r * r = n
  · have hr := h r ((rootLike_exact hex).mpr rfl)
    calc (n : ℚ) = r * r := by exact_mod_cast hex.symm
      _ ≤ c * c := mul_self_le_mul_self (Nat.cast_nonneg r) hr
  · have hle : (r : ℚ) + 1 ≤ c := by
      refine le_of_forall_lt_imp_le_of_dense fun a ha => ?_
      have hmax := h (r + 1 - min (r + 1 - a) 1 / 2) ((rootLike_inexact hex).mpr ⟨?_, ?_⟩)
      · have := min_le_left (r + 1 - a) 1
        linarith
      · have := min_le_right (r + 1 - a) 1
        linarith
      · have := lt_min (sub_pos.mpr ha) one_pos
        linarith
    calc (n : ℚ) ≤ (r + 1) * (r + 1) := by exact_mod_cast hhi.le
      _ ≤ c * c := mul_self_le_mul_self (by positivity) hle

/-- They are near the root. -/
theorem RootLike.near (hr : 0 < r) (hz : RootLike r n z) : 0 < z ∧ (n : ℚ) ≤ 4 * (z * z) ∧ z * z ≤ 4 * n := by
  have hr1 : (1 : ℚ) ≤ r := by exact_mod_cast hr
  have hlo' : (r : ℚ) * r ≤ n := by exact_mod_cast hlo
  have hhi' : (n : ℚ) ≤ (r + 1) * (r + 1) := by exact_mod_cast hhi.le
  have hrz : (r : ℚ) ≤ z ∧ z ≤ r + 1 := by
    by_cases hex : r * r = n
    · rw [(rootLike_exact hex).mp hz]
      exact ⟨le_refl _, by linarith⟩
    · obtain ⟨h1, h2⟩ := (rootLike_inexact hex).mp hz
      exact ⟨h1.le, h2.le⟩
  obtain ⟨h1, h2⟩ := hrz
  refine ⟨by linarith, ?_, ?_⟩
  · calc (n : ℚ) ≤ (2 * z) * (2 * z) := hhi'.trans (mul_self_le_mul_self (by linarith) (by linarith))
      _ = 4 * (z * z) := by ring
  · calc z * z ≤ (2 * r) * (2 * r) := mul_self_le_mul_self (by linarith) (by linarith)
      _ ≤ 4 * n := by linarith

end

/-! ### The neighbours of a rounding to FP32 -/

theorem two_zpow_lt {a b : ℤ} (h : a < b) : (2 : ℚ) ^ a < 2 ^ b := zpow_lt_zpow_right₀ (by norm_num) h

theorem numRat_f32 {c : Nat} (hc : c < f32.infMag) : numFin (Num.ofCode f32 c) = true ∧
    numRat (Num.ofCode f32 c) = f32.magNat c * 2 ^ (-149 : ℤ) := by
  have hexp : f32.ulpExp = -149 := by decide
  obtain ⟨hfin, hval⟩ := numRat_code hc false
  rw [hexp, if_neg Bool.false_ne_true, one_mul] at hval
  exact ⟨hfin, hval⟩

/-- The finite FP32 codes of sign + are in the order of their numbers. -/
theorem numRat_f32_lt {c c' : Nat} (hc : c < c') (hc' : c' < f32.infMag) :
    numRat (Num.ofCode f32 c) < numRat (Num.ofCode f32 c') := by
  rw [(numRat_f32 (hc.trans hc')).2, (numRat_f32 hc').2]
  exact mul_lt_mul_of_pos_right (Nat.cast_lt.mpr (f32.magNat_strictMono hc)) (two_zpow_pos _)

theorem numRat_f32_zero : numRat (Num.ofCode f32 0) = 0 := by
  rw [(numRat_f32 (f32.infMag_pos sane_f32)).2, f32.magNat_eq_zero.mpr rfl, Nat.cast_zero, zero_mul]

theorem numRat_f32_pos {c : Nat} (h0 : 0 < c) (hc : c < f32.infMag) : 0 < numRat (Num.ofCode f32 c) := by
  have := numRat_f32_lt h0 hc
  rwa [numRat_f32_zero] at this

theorem numRat_f32_nonneg {c : Nat} (hc : c < f32.infMag) : 0 ≤ numRat (Num.ofCode f32 c) := by
  rw [(numRat_f32 hc).2]
  exact mul_nonneg (Nat.cast_nonneg _) (two_zpow_pos _).le

section
variable {a b y : ℚ}

/-- A number nearer to the greater of two lies above their midpoint. -/
theorem midpoint_le (h : b < a) (hn : |a - y| ≤ |b - y|) : (a + b) / 2 ≤ y := by
  by_contra hlt
  have : |b - y| < |a - y| := by
    rw [abs_of_pos (by linarith : 0 < a - y)]
    exact abs_lt.mpr ⟨by linarith, by linarith⟩
  exact absurd hn (not_le.mpr this)

/-- A number nearer to the less of two lies below their midpoint. -/
theorem le_midpoint (h : a < b) (hn : |a - y| ≤ |b - y|) : y ≤ (a + b) / 2 := by
  by_contra hlt
  have : |b - y| < |a - y| := by
    rw [abs_of_neg (by linarith : a - y < 0)]
    exact abs_lt.mpr ⟨by linarith, by linarith⟩
  exact absurd hn (not_le.mpr this)

theorem abs_sub_midpoint : |a - (a + b) / 2| = |b - (a + b) / 2| := by
  rw [← abs_neg]
  congr 1
  ring

end

/-- A number `y` of moderate size, rounded to nearest: the result and its two neighbours are finite and in order, `y` lies between
the midpoints, and where it is one of them the result is even; the rounding sets nx alone. -/
structure Between (y : ℚ) (v : Nat) (f : Flags) : Prop where
  pos : 0 < v
  next : v + 1 < f32.infMag
  lower : (numRat (Num.ofCode f32 v) + numRat (Num.ofCode f32 (v - 1))) / 2 ≤ y
  upper : y ≤ (numRat (Num.ofCode f32 v) + numRat (Num.ofCode f32 (v + 1))) / 2
  even : y = (numRat (Num.ofCode f32 v) + numRat (Num.ofCode f32 (v - 1))) / 2 ∨
    y = (numRat (Num.ofCode f32 v) + numRat (Num.ofCode f32 (v + 1))) / 2 → v % 2 = 0
  flags : f = if numRat (Num.ofCode f32 v) = y then 0 else fNx

section
variable {y : ℚ} {v : Nat} {f : Flags} (h : Rounded f32 false y v f) (hlo : (2 : ℚ) ^ (-100 : ℤ) ≤ y)
  (hhi : y ≤ (2 : ℚ) ^ (100 : ℤ))
include hlo hhi

theorem moderate_pos_fits : 0 < y ∧ |y| < 2 ^ (f32.bias + 1) - 2 ^ (f32.bias - f32.p) := by
  have hy : 0 < y := (two_zpow_pos _).trans_le hlo
  have h127 : f32.bias = 127 := by decide
  have hdouble := two_zpow_sub_one (127 + 1)
  have h1 : (2 : ℚ) ^ (100 : ℤ) < 2 ^ (127 : ℤ) := two_zpow_lt (by decide)
  have h2 : (2 : ℚ) ^ ((127 : ℤ) - f32.p) ≤ 2 ^ (127 : ℤ) := two_zpow_le (by decide)
  rw [abs_of_pos hy, h127]
  rw [add_sub_cancel_right] at hdouble
  exact ⟨hy, by linarith⟩

include h

theorem rounded_moderate_lt_infMag : v < f32.infMag := by
  obtain ⟨hy, hfit⟩ := moderate_pos_fits hlo hhi
  obtain ⟨hfin, hneg, -⟩ := h.finite hfit
  obtain ⟨neg, c, hc, rfl⟩ := code_of_numFin (by decide) h.width hfin
  rw [codeNeg_add_zeroCode f32 (hc.trans f32.infMag_lt), decide_eq_false hy.not_gt] at hneg
  rwa [hneg]

theorem rounded_moderate_nearest {w : Nat} (hw : w < f32.infMag) :
    |numRat (Num.ofCode f32 v) - y| ≤ |numRat (Num.ofCode f32 w) - y| ∧
      (|numRat (Num.ofCode f32 v) - y| = |numRat (Num.ofCode f32 w) - y| →
        numRat (Num.ofCode f32 w) ≠ numRat (Num.ofCode f32 v) → v % 2 = 0) :=
  h.nearest rfl (moderate_pos_fits hlo hhi).2 w (hw.trans (by rw [infMag_f32]; decide)) (numRat_f32 hw).1

/-- The smallest subnormal number is nearer than 0. -/
theorem rounded_moderate_pos : 0 < v := by
  obtain ⟨hy, -⟩ := moderate_pos_fits hlo hhi
  by_contra h0
  obtain rfl : v = 0 := by omega
  have h1 : (1 : Nat) < f32.infMag := by rw [infMag_f32]; decide
  have hone : numRat (Num.ofCode f32 1) = 2 ^ (-149 : ℤ) := by
    rw [(numRat_f32 h1).2, f32.magNat_of_lt (by decide), Nat.cast_one, one_mul]
  have hn := (rounded_moderate_nearest h hlo hhi h1).1
  have hsmall : (2 : ℚ) ^ (-149 : ℤ) < 2 ^ (-100 : ℤ) := two_zpow_lt (by decide)
  have := two_zpow_pos (-149)
  rw [numRat_f32_zero, hone, zero_sub, abs_neg, abs_of_pos hy, abs_of_neg (by linarith)] at hn
  linarith

/-- 0 is nearer than the largest finite number. -/
theorem rounded_moderate_next : v + 1 < f32.infMag := by
  obtain ⟨hy, -⟩ := moderate_pos_fits hlo hhi
  have hc := rounded_moderate_lt_infMag h hlo hhi
  by_contra hge
  have hv : v = 0x7F7F_FFFF := by rw [infMag_f32] at hge hc; omega
  have hn := (rounded_moderate_nearest h hlo hhi (f32.infMag_pos sane_f32)).1
  have hmag : f32.magNat 0x7F7F_FFFF = (2 ^ 24 - 1) * 2 ^ 253 := by decide
  have hbig : (2 : ℚ) ^ (102 : ℤ) ≤ numRat (Num.ofCode f32 v) := by
    rw [(numRat_f32 hc).2, hv, hmag]
    norm_num
  have hquad : (2 : ℚ) ^ (102 : ℤ) = 4 * 2 ^ (100 : ℤ) := by norm_num
  rw [numRat_f32_zero, zero_sub, abs_neg, abs_of_pos hy] at hn
  obtain ⟨-, hn⟩ := abs_le.mp hn
  have := two_zpow_pos 100
  linarith

theorem between_of_rounded : Between y v f := by
  obtain ⟨hy, hfit⟩ := moderate_pos_fits hlo hhi
  obtain ⟨-, -, hflags⟩ := h.finite hfit
  have hc := rounded_moderate_lt_infMag h hlo hhi
  have hpos := rounded_moderate_pos h hlo hhi
  have hnext := rounded_moderate_next h hlo hhi
  have hlt1 := numRat_f32_lt (Nat.sub_lt hpos Nat.one_pos) hc
  have hlt2 := numRat_f32_lt (Nat.lt_succ_self v) hnext
  obtain ⟨hn1, ht1⟩ := rounded_moderate_nearest h hlo hhi ((Nat.sub_le v 1).trans_lt hc)
  obtain ⟨hn2, ht2⟩ := rounded_moderate_nearest h hlo hhi hnext
  refine ⟨hpos, hnext, midpoint_le hlt1 hn1, le_midpoint hlt2 hn2, ?_, ?_⟩
  · rintro (rfl | rfl)
    · exact ht1 (by rw [abs_sub_midpoint]) hlt1.ne
    · exact ht2 (by rw [abs_sub_midpoint]) hlt2.ne'
  · have hnormal : ¬ |y| < 2 ^ f32.emin - 2 ^ (f32.emin - f32.p - 1) := by
      have h1 : (2 : ℚ) ^ f32.emin < 2 ^ (-100 : ℤ) := two_zpow_lt (by decide)
      have h2 := two_zpow_pos (f32.emin - f32.p - 1)
      rw [abs_of_pos hy]
      linarith
    rw [hflags]
    by_cases heq : numRat (Num.ofCode f32 v) = y
    · simp [heq, flagIf]
    · simp [heq, hnormal, flagIf]

end

/-- The positive finite FP32 numbers reach from the smallest subnormal number to below the power of two behind the largest. -/
theorem numRat_f32_bounds {w : Nat} (hw : w < 2 ^ 32) (hfin : numFin (Num.ofCode f32 w) = true)
    (hpos : 0 < numRat (Num.ofCode f32 w)) :
    (2 : ℚ) ^ (-149 : ℤ) ≤ numRat (Num.ofCode f32 w) ∧ numRat (Num.ofCode f32 w) < (2 : ℚ) ^ (128 : ℤ) := by
  have hu := two_zpow_pos f32.ulpExp
  have hulp : f32.ulpExp = -149 := by decide
  have htop : f32.bias + 1 = 128 := by decide
  obtain ⟨neg, c, hc, rfl⟩ := code_of_numFin (by decide) hw hfin
  obtain ⟨-, hval⟩ := numRat_code hc neg
  have hmag : (0 : ℚ) ≤ f32.magNat c := Nat.cast_nonneg _
  rw [hval] at hpos ⊢
  cases neg with
  | true =>
    have := mul_nonneg hmag hu.le
    rw [if_pos rfl] at hpos
    linarith
  | false =>
    rw [if_neg Bool.false_ne_true, one_mul] at hpos ⊢
    have hc0 : c ≠ 0 := by
      rintro rfl
      rw [f32.magNat_eq_zero.mpr rfl, Nat.cast_zero, zero_mul] at hpos
      exact lt_irrefl _ hpos
    have hone : (1 : ℚ) ≤ f32.magNat c := by exact_mod_cast Nat.pos_of_ne_zero (f32.magNat_eq_zero.not.mpr hc0)
    refine ⟨by rw [← hulp]; exact le_mul_of_one_le_left hu.le hone, ?_⟩
    rw [← htop, ← f32.magNat_infMag sane_f32]
    exact mul_lt_mul_of_pos_right (Nat.cast_lt.mpr (f32.magNat_strictMono hc)) hu

/-! ### Square roots -/

/-- The integer whose root `sqrtNum` takes. -/
def FloatFmt.rootArg (F : FloatFmt) (m : Nat) (e : Int) : Nat := (if e % 2 = 0 then m else 2 * m) * 2 ^ (2 * (F.p + 2))

/-- The exponent of that root. -/
def FloatFmt.rootExp (F : FloatFmt) (e : Int) : Int := (if e % 2 = 0 then e else e - 1) / 2 - (F.p + 2)

section
variable (F : FloatFmt) {m : Nat} (hm : 0 < m) (e : Int)

theorem rootArg_value : (F.rootArg m e : ℚ) * (2 ^ F.rootExp e * 2 ^ F.rootExp e) = m * 2 ^ e := by
  have hp : ((2 * (F.p + 2) : ℕ) : ℤ) = 2 * (F.p + 2) := by push_cast; ring
  rw [FloatFmt.rootArg, FloatFmt.rootExp, ← two_zpow_add]
  push_cast
  rw [← zpow_natCast (2 : ℚ) (2 * (F.p + 2)), hp, mul_assoc, ← two_zpow_add]
  split
  · congr 2
    omega
  · have hexp : 2 * ((F.p : ℤ) + 2) + ((e - 1) / 2 - (F.p + 2) + ((e - 1) / 2 - (F.p + 2))) = e - 1 := by omega
    rw [hexp, two_zpow_sub_one e]
    ring

include hm

theorem sqrtNum_fin : sqrtNum F (.fin false m e) = roundTo F false false (isqrt (F.rootArg m e)) (F.rootExp e)
    (isqrt (F.rootArg m e) * isqrt (F.rootArg m e) ≠ F.rootArg m e) := by
  rw [sqrtNum, if_neg hm.ne', if_neg Bool.false_ne_true]
  rfl

/-- The root has more bits than the format. -/
theorem two_pow_le_root : 2 ^ (F.p + 2) ≤ isqrt (F.rootArg m e) := by
  by_contra hlt
  have hm' : 0 < if e % 2 = 0 then m else 2 * m := by split <;> omega
  have hn : 2 ^ (F.p + 2) * 2 ^ (F.p + 2) ≤ F.rootArg m e := by
    rw [← pow_add, ← Nat.two_mul]
    exact Nat.le_mul_of_pos_left _ hm'
  have hr := (isqrt_spec (F.rootArg m e)).2
  have hsq := Nat.mul_le_mul (Nat.not_le.mp hlt) (Nat.not_le.mp hlt)
  exact absurd (hr.trans_le hsq) (not_lt.mpr hn)

/-- `sqrtNum` rounds every rational that the integer root stands for. -/
theorem sqrtNum_rounded (hF : F.Sane) {z : ℚ} (hz : RootLike (isqrt (F.rootArg m e)) (F.rootArg m e) z) :
    Rounded F false (z * 2 ^ F.rootExp e) (sqrtNum F (.fin false m e)).1 (sqrtNum F (.fin false m e)).2 := by
  have hr := two_pow_le_root F hm e
  have hpow : 2 ^ F.p ≤ 2 ^ (F.p + 2) := Nat.pow_le_pow_right (by decide) (by omega)
  rw [sqrtNum_fin F hm e]
  have := roundTo_rounded (e := F.rootExp e) (rtz := false) hz ((Nat.two_pow_pos _).trans_le hr)
    (fun _ => lt_bitLen.mpr (hpow.trans hr)) hF false
  rwa [withSign, if_neg Bool.false_ne_true, one_mul] at this

end

/-- Where the rounding lies between its neighbours for every rational that an integer root stands for, the midpoints bound the
root itself. -/
theorem root_of_between {x : ℚ} {n r : Nat} {E : Int} {v : Nat} {f : Flags} (hlo : r * r ≤ n) (hhi : n < (r + 1) * (r + 1))
    (hx : (n : ℚ) * (2 ^ E * 2 ^ E) = x) (h : ∀ z, RootLike r n z → Between (z * 2 ^ E) v f) :
    let R := numRat (Num.ofCode f32 v)
    let lo := (R + numRat (Num.ofCode f32 (v - 1))) / 2
    let hi := (R + numRat (Num.ofCode f32 (v + 1))) / 2
    0 < R ∧ lo * lo ≤ x ∧ x ≤ hi * hi ∧ (x = lo * lo ∨ x = hi * hi → v % 2 = 0) ∧ f = if R * R = x then 0 else 0x01 := by
  intro R lo hi
  have hE := two_zpow_pos E
  have hscale (c : ℚ) : c / 2 ^ E * 2 ^ E = c := div_mul_cancel₀ c hE.ne'
  have hsq (c : ℚ) : c * c = c / 2 ^ E * (c / 2 ^ E) * (2 ^ E * 2 ^ E) := by field_simp
  have hEE : (0 : ℚ) < 2 ^ E * 2 ^ E := mul_pos hE hE
  -- a rational root is one of the rationals that the integer root stands for
  have hroot {c : ℚ} (hc : 0 ≤ c) (hcx : c * c = x) : Between c v f := by
    rw [← hx, hsq, mul_left_inj' hEE.ne'] at hcx
    have := h _ (rootLike_of_sq hlo hhi (div_nonneg hc hE.le) hcx)
    rwa [hscale] at this
  obtain ⟨z0, hz0⟩ := exists_rootLike r n
  have hR : 0 < R := numRat_f32_pos (h z0 hz0).pos ((Nat.lt_succ_self v).trans (h z0 hz0).next)
  have hlo0 : 0 ≤ lo := by
    have := numRat_f32_nonneg ((Nat.sub_le v 1).trans_lt ((Nat.lt_succ_self v).trans (h z0 hz0).next))
    exact div_nonneg (add_nonneg hR.le this) two_pos.le
  have hhi0 : 0 ≤ hi := div_nonneg (add_nonneg hR.le (numRat_f32_nonneg (h z0 hz0).next)) two_pos.le
  refine ⟨hR, ?_, ?_, ?_, ?_⟩
  · rw [hsq, ← hx]
    refine mul_le_mul_of_nonneg_right (sq_le_of_le_rootLike hlo (div_nonneg hlo0 hE.le) fun z hz => ?_) hEE.le
    exact (div_le_iff₀ hE).mpr (h z hz).lower
  · rw [hsq hi, ← hx]
    refine mul_le_mul_of_nonneg_right (le_sq_of_rootLike_le hhi fun z hz => ?_) hEE.le
    exact (le_div_iff₀ hE).mpr (h z hz).upper
  · rintro (hx' | hx')
    · exact (hroot hlo0 hx'.symm).even (.inl rfl)
    · exact (hroot hhi0 hx'.symm).even (.inr rfl)
  · by_cases heq : R * R = x
    · have hf := (hroot hR.le heq).flags
      rw [if_pos rfl] at hf
      rw [if_pos heq, hf]
    · have hne : R / 2 ^ E * (R / 2 ^ E) ≠ n := fun hn => heq (by rw [hsq, hn, hx])
      obtain ⟨z, hz, hzR⟩ := exists_rootLike_ne (r := r) hne
      have hf := (h z hz).flags
      have hRz : R ≠ z * 2 ^ E := fun hRz => hzR (by rw [hRz, mul_div_cancel_right₀ z hE.ne'])
      rw [if_neg hRz] at hf
      rw [if_neg heq, hf]
      rfl

theorem divNum_rounded_of_ne {F : FloatFmt} (hF : F.Sane) {a b : Num} (ha : numFin a = true) (hb : numFin b = true)
    (ha0 : numRat a ≠ 0) (hb0 : numRat b ≠ 0) :
    Rounded F false (numRat a / numRat b) (divNum F a b).1 (divNum F a b).2 := by
  obtain ⟨n1, m1, e1, rfl⟩ := Num.exists_fin ha
  obtain ⟨n2, m2, e2, rfl⟩ := Num.exists_fin hb
  rw [ne_eq, numRat_eq_zero] at ha0 hb0
  exact divNum_rounded (Nat.pos_of_ne_zero ha0) (Nat.pos_of_ne_zero hb0) hF n1 e1 n2 e2

/-- The root of a positive FP32 number, between the neighbours of its rounding. -/
theorem sqrtNum_between {w : Nat} (hw : w < 2 ^ 32) (hfin : numFin (Num.ofCode f32 w) = true)
    (hpos : 0 < numRat (Num.ofCode f32 w)) :
    let v := (sqrtNum f32 (Num.ofCode f32 w)).1
    let x := numRat (Num.ofCode f32 w)
    let R := numRat (Num.ofCode f32 v)
    let lo := (R + numRat (Num.ofCode f32 (v - 1))) / 2
    let hi := (R + numRat (Num.ofCode f32 (v + 1))) / 2
    v < 2 ^ (f32.p + f32.ebits) ∧ 0 < R ∧ lo * lo ≤ x ∧ x ≤ hi * hi ∧ (x = lo * lo ∨ x = hi * hi → v % 2 = 0) ∧
      (sqrtNum f32 (Num.ofCode f32 w)).2 = if R * R = x then 0 else 0x01 := by
  obtain ⟨hxlo, hxhi⟩ := numRat_f32_bounds hw hfin hpos
  generalize Num.ofCode f32 w = X at hfin hpos hxlo hxhi ⊢
  obtain ⟨neg, m, e, rfl⟩ := Num.exists_fin hfin
  have hm : 0 < m := Nat.pos_of_ne_zero fun h0 => hpos.ne' ((numRat_eq_zero neg m e).mpr h0)
  obtain rfl : neg = false := by
    have := (withSign_lt_zero (mul_pos (Nat.cast_pos.mpr hm) (two_zpow_pos e)) neg).not.mp
    rw [← numRat_fin] at this
    simpa using this hpos.not_gt
  have hval : numRat (.fin false m e) = f32.rootArg m e * (2 ^ f32.rootExp e * 2 ^ f32.rootExp e) := by
    rw [rootArg_value, numRat_fin, withSign, if_neg Bool.false_ne_true, one_mul]
  obtain ⟨hlo, hhi⟩ := isqrt_spec (f32.rootArg m e)
  have hr0 : 0 < isqrt (f32.rootArg m e) := (Nat.two_pow_pos _).trans_le (two_pow_le_root f32 hm e)
  have hbetween (z : ℚ) (hz : RootLike (isqrt (f32.rootArg m e)) (f32.rootArg m e) z) :
      Between (z * 2 ^ f32.rootExp e) (sqrtNum f32 (.fin false m e)).1 (sqrtNum f32 (.fin false m e)).2 := by
    have hE := two_zpow_pos (f32.rootExp e)
    obtain ⟨hz0, hnear1, hnear2⟩ := hz.near hlo hhi hr0
    have hy : 0 < z * 2 ^ f32.rootExp e := mul_pos hz0 hE
    have hsq : z * 2 ^ f32.rootExp e * (z * 2 ^ f32.rootExp e) = z * z * (2 ^ f32.rootExp e * 2 ^ f32.rootExp e) := by ring
    have hx1 := mul_le_mul_of_nonneg_right hnear1 (mul_pos hE hE).le
    have hx2 := mul_le_mul_of_nonneg_right hnear2 (mul_pos hE hE).le
    rw [← hval, mul_assoc, ← hsq] at hx1
    rw [← hsq, mul_assoc (4 : ℚ), ← hval] at hx2
    refine between_of_rounded (sqrtNum_rounded f32 hm e sane_f32 hz) ?_ ?_
    · rw [mul_self_le_mul_self_iff (two_zpow_pos _).le hy.le, ← two_zpow_add]
      have h1 : (4 : ℚ) * 2 ^ ((-100 : ℤ) + -100) ≤ 2 ^ (-149 : ℤ) := by norm_num
      linarith
    · rw [mul_self_le_mul_self_iff hy.le (two_zpow_pos _).le, ← two_zpow_add]
      have h1 : (4 : ℚ) * 2 ^ (128 : ℤ) ≤ 2 ^ ((100 : ℤ) + 100) := by norm_num
      linarith
  obtain ⟨z, hz⟩ := exists_rootLike (isqrt (f32.rootArg m e)) (f32.rootArg m e)
  exact ⟨(sqrtNum_rounded f32 hm e sane_f32 hz).width, root_of_between hlo hhi hval.symm hbetween⟩

end Sys2Proof.Machine

namespace Sys2Proof

open Machine

/-- Settles O13: sums, products and quotients hand `roundTo` the exact number, or an integer quotient that stands for it; the root's
integer stands for rationals on both sides of it, so that its neighbours bound it. -/
theorem floatResultsAreRoundedOnce : Obligations.FloatResultsAreRoundedOnce := by
  intro s d a b c A B C x y z hA hB hC
  have hw {n : Nat} (h : n < 2 ^ (f32.p + f32.ebits)) : n < 2 ^ 64 := h.trans (by decide)
  refine ⟨fun h => ?add, fun h => ?sub, fun h => ?mul, fun h => ?fma, fun hx hy => ?div, fun hx => ?sqrt⟩
  case add =>
    have hr := addNum_rounded sane_f32 hA hB h
    exact computesFlags_of rfl (hw hr.width) fun v hv => by rw [hv]; exact hr
  case sub =>
    rw [sub_eq_add_neg, ← numRat_neg] at h
    have hr := addNum_rounded sane_f32 hA ((numFin_neg B).trans hB) h
    refine computesFlags_of rfl (hw hr.width) fun v hv => ?_
    rw [hv, sub_eq_add_neg, ← numRat_neg]
    exact hr
  case mul =>
    have hr := mulNum_rounded sane_f32 hA hB h
    exact computesFlags_of rfl (hw hr.width) fun v hv => by rw [hv]; exact hr
  case fma =>
    have hr := fmaNum_rounded sane_f32 hA hB hC h
    exact computesFlags_of rfl (hw hr.width) fun v hv => by rw [hv]; exact hr
  case div =>
    have hr := divNum_rounded_of_ne sane_f32 hA hB hx hy
    exact computesFlags_of rfl (hw hr.width) fun v hv => by rw [hv]; exact hr
  case sqrt =>
    have hr := sqrtNum_between (Nat.mod_lt _ (Nat.two_pow_pos 32)) hA hx
    refine computesFlags_of rfl (hw hr.1) fun v hv => ?_
    rw [hv]
    exact hr.2

end Sys2Proof

/-! NaNs, infinities, zeros and invalid operations of the scalar float forms (R105, R106). -/

namespace Sys2Proof.Machine

open Sys2Proof

/-! ### Operands that are NaNs, and infinite products -/

section
variable (F : FloatFmt) {a b : Num}

theorem Num.sig_eq_false (h : a.isNan = false) : a.sig = false := by
  cases a with
  | nan s => exact absurd h.symm Bool.false_ne_true
  | inf n => rfl
  | fin n m e => rfl

theorem Num.isNan_of_numFin (h : numFin a = true) : a.isNan = false := by
  cases a with
  | nan s => exact absurd h Bool.false_ne_true
  | inf n => rfl
  | fin n m e => rfl

theorem addNum_of_nan (h : (a.isNan || b.isNan) = true) : addNum F a b = nanOf F (a.sig || b.sig) := by
  cases a with
  | nan s => rfl
  | inf n =>
    obtain ⟨t, rfl⟩ := Num.exists_nan (a := b) h
    rfl
  | fin n m e =>
    obtain ⟨t, rfl⟩ := Num.exists_nan (a := b) h
    rfl

theorem divNum_of_nan (h : (a.isNan || b.isNan) = true) : divNum F a b = nanOf F (a.sig || b.sig) := by
  cases a with
  | nan s => rfl
  | inf n =>
    obtain ⟨t, rfl⟩ := Num.exists_nan (a := b) h
    rfl
  | fin n m e =>
    obtain ⟨t, rfl⟩ := Num.exists_nan (a := b) h
    rfl

theorem mulExact_of_nan (h : (a.isNan || b.isNan) = true) : mulExact a b = some (.nan (a.sig || b.sig)) := by
  cases a with
  | nan s => rfl
  | inf n =>
    obtain ⟨t, rfl⟩ := Num.exists_nan (a := b) h
    simp [mulExact, Num.sig]
  | fin n m e =>
    obtain ⟨t, rfl⟩ := Num.exists_nan (a := b) h
    simp [mulExact, Num.sig]

theorem mulExact_inf_fin (m n : Bool) (i : Nat) (e : Int) :
    mulExact (.inf m) (.fin n i e) = if i = 0 then none else some (.inf (m != n)) := rfl

theorem mulExact_fin_inf (m n : Bool) (i : Nat) (e : Int) :
    mulExact (.fin n i e) (.inf m) = if i = 0 then none else some (.inf (n != m)) := rfl

theorem mulNum_of_none (h : mulExact a b = none) : mulNum F a b = (F.nanCode, fNv) := by
  rw [mulNum, h]
  rfl

theorem mulNum_of_some {v : Num} (h : mulExact a b = some v) : mulNum F a b = v.round F false := by rw [mulNum, h]

theorem fmaNum_of_none (c : Num) (h : mulExact a b = none) : fmaNum F a b c = (F.nanCode, fNv) := by
  rw [fmaNum, h]
  rfl

theorem fmaNum_of_some (c : Num) {v : Num} (h : mulExact a b = some v) : fmaNum F a b c = addNum F v c := by rw [fmaNum, h]

end

/-- The exact product of `a` and `b` is an infinity of sign `p`. -/
theorem mulExact_infinite {a b : Num} {p : Bool} (h : (∃ m n, a = .inf m ∧ b = .inf n ∧ p = (m != n)) ∨
    ∃ m n i e, i ≠ 0 ∧ p = (m != n) ∧ ((a = .inf m ∧ b = .fin n i e) ∨ (a = .fin m i e ∧ b = .inf n))) :
    mulExact a b = some (.inf p) := by
  rcases h with ⟨m, n, rfl, rfl, rfl⟩ | ⟨m, n, i, e, hi, rfl, ⟨rfl, rfl⟩ | ⟨rfl, rfl⟩⟩
  · rfl
  · rw [mulExact_inf_fin, if_neg hi]
  · rw [mulExact_fin_inf, if_neg hi]

/-- The integer root of a positive number, or a special value, fits the format. -/
theorem sqrtNum_lt {F : FloatFmt} (hF : F.Sane) (a : Num) : (sqrtNum F a).1 < 2 ^ (F.p + F.ebits) := by
  cases a with
  | nan s => exact F.nanCode_lt hF
  | inf n =>
    cases n
    · exact F.infCode_lt hF false
    · exact F.nanCode_lt hF
  | fin n m e =>
    rcases Nat.eq_zero_or_pos m with rfl | hm
    · exact F.zeroCode_lt hF n
    · cases n
      · obtain ⟨z, hz⟩ := exists_rootLike (isqrt (F.rootArg m e)) (F.rootArg m e)
        exact (sqrtNum_rounded F hm e hF hz).width
      · rw [sqrtNum, if_neg hm.ne', if_pos rfl]
        exact F.nanCode_lt hF

/-! ### Special values of FP32 as words -/

def nan32 : Word := 0x7FC0_0000
def inf32 (neg : Bool) : Word := if neg then 0xFF80_0000 else 0x7F80_0000
def zero32 (neg : Bool) : Word := if neg then 0x8000_0000 else 0

/-- A word whose code and flags a float form answers. -/
theorem word_of_code {r : Nat × Flags} {v n : Word} {f : Flags} (hv : v.toNat = r.1) (hr : r = (n.toNat, f)) :
    v = n ∧ r.2 = f := by
  subst hr
  exact ⟨BitVec.eq_of_toNat_eq hv, rfl⟩

section
variable {r : Nat × Flags} {v : Word} (hv : v.toNat = r.1)
include hv

theorem word_of_nanOf {sig : Bool} (hr : r = nanOf f32 sig) : v = nan32 ∧ r.2 = if sig then 0x10 else 0 :=
  word_of_code hv hr

theorem word_of_invalid (hr : r = (f32.nanCode, fNv)) : v = nan32 ∧ r.2 = 0x10 := word_of_code hv hr

theorem word_of_inf {neg : Bool} {f : Flags} (hr : r = (f32.infCode neg, f)) : v = inf32 neg ∧ r.2 = f := by
  refine word_of_code hv ?_
  rw [hr]
  cases neg <;> rfl

theorem word_of_zero {neg : Bool} (hr : r = (f32.zeroCode neg, 0)) : v = zero32 neg ∧ r.2 = 0 := by
  refine word_of_code hv ?_
  rw [hr]
  cases neg <;> rfl

end

/-! ### Sums -/

theorem addNum_special (X Y : Num) (v : Word) (hv : v.toNat = (addNum f32 X Y).1) :
    v.toNat < 2 ^ 32 ∧
    ((X.isNan || Y.isNan) = true → v = nan32 ∧ (addNum f32 X Y).2 = if X.sig || Y.sig then 0x10 else 0) ∧
    (∀ m n, X = .inf m → Y = .inf n →
      if m = n then v = inf32 m ∧ (addNum f32 X Y).2 = 0 else v = nan32 ∧ (addNum f32 X Y).2 = 0x10) ∧
    (∀ m, X = .inf m → numFin Y = true → v = inf32 m ∧ (addNum f32 X Y).2 = 0) ∧
    (∀ m, Y = .inf m → numFin X = true → v = inf32 m ∧ (addNum f32 X Y).2 = 0) ∧
    (∀ m i e n j h, X = .fin m i e → Y = .fin n j h → numRat X + numRat Y = 0 →
      v = zero32 (m && n) ∧ (addNum f32 X Y).2 = 0) := by
  refine ⟨?_, fun h => ?_, ?_, ?_, ?_, ?_⟩
  · rw [hv]
    exact addNum_lt sane_f32 X Y
  · exact word_of_nanOf hv (addNum_of_nan f32 h)
  · rintro m n rfl rfl
    split
    next h => exact word_of_inf hv (if_pos h)
    next h => exact word_of_invalid hv (if_neg h)
  · rintro m rfl hY
    obtain ⟨n, i, e, rfl⟩ := Num.exists_fin hY
    exact word_of_inf hv rfl
  · rintro m rfl hX
    obtain ⟨n, i, e, rfl⟩ := Num.exists_fin hX
    exact word_of_inf hv rfl
  · rintro m i e n j h rfl rfl hsum
    exact word_of_zero hv (addNum_of_sum_zero hsum)

/-! ### Products -/

theorem mulNum_special (X Y : Num) (v : Word) (hv : v.toNat = (mulNum f32 X Y).1) :
    v.toNat < 2 ^ 32 ∧
    ((X.isNan || Y.isNan) = true → v = nan32 ∧ (mulNum f32 X Y).2 = if X.sig || Y.sig then 0x10 else 0) ∧
    (∀ m n, X = .inf m → Y = .inf n → v = inf32 (m != n) ∧ (mulNum f32 X Y).2 = 0) ∧
    (∀ m n i e, X = .inf m → Y = .fin n i e →
      if i = 0 then v = nan32 ∧ (mulNum f32 X Y).2 = 0x10 else v = inf32 (m != n) ∧ (mulNum f32 X Y).2 = 0) ∧
    (∀ m n i e, Y = .inf m → X = .fin n i e →
      if i = 0 then v = nan32 ∧ (mulNum f32 X Y).2 = 0x10 else v = inf32 (n != m) ∧ (mulNum f32 X Y).2 = 0) ∧
    (∀ m i e n j h, X = .fin m i e → Y = .fin n j h → i * j = 0 → v = zero32 (m != n) ∧ (mulNum f32 X Y).2 = 0) := by
  refine ⟨?_, fun h => ?_, ?_, ?_, ?_, ?_⟩
  · rw [hv]
    exact mulNum_lt sane_f32 X Y
  · exact word_of_nanOf hv (mulNum_of_some f32 (mulExact_of_nan h))
  · rintro m n rfl rfl
    exact word_of_inf hv rfl
  · rintro m n i e rfl rfl
    have hmul := mulExact_inf_fin m n i e
    split
    next h => exact word_of_invalid hv (mulNum_of_none f32 (hmul.trans (if_pos h)))
    next h => exact word_of_inf hv (mulNum_of_some f32 (hmul.trans (if_neg h)))
  · rintro m n i e rfl rfl
    have hmul := mulExact_fin_inf m n i e
    split
    next h => exact word_of_invalid hv (mulNum_of_none f32 (hmul.trans (if_pos h)))
    next h => exact word_of_inf hv (mulNum_of_some f32 (hmul.trans (if_neg h)))
  · rintro m i e n j h rfl rfl hij
    refine word_of_zero hv ((mulNum_of_some f32 rfl).trans ?_)
    rw [hij]
    exact roundTo_zero f32 false _ _

theorem fmaNum_special (X Y Z : Num) (v : Word) (hv : v.toNat = (fmaNum f32 X Y Z).1) :
    v.toNat < 2 ^ 32 ∧
    (∀ m n e, (X = .inf m ∧ Y = .fin n 0 e) ∨ (Y = .inf m ∧ X = .fin n 0 e) → v = nan32 ∧ (fmaNum f32 X Y Z).2 = 0x10) ∧
    ((X.isNan || Y.isNan) = true → v = nan32 ∧ (fmaNum f32 X Y Z).2 = if X.sig || Y.sig || Z.sig then 0x10 else 0) ∧
    (Z.isNan = true → numFin X = true → numFin Y = true → v = nan32 ∧ (fmaNum f32 X Y Z).2 = if Z.sig then 0x10 else 0) ∧
    (∀ p, ((∃ m n, X = .inf m ∧ Y = .inf n ∧ p = (m != n)) ∨
        ∃ m n i e, i ≠ 0 ∧ p = (m != n) ∧ ((X = .inf m ∧ Y = .fin n i e) ∨ (X = .fin m i e ∧ Y = .inf n))) →
      (Z.isNan = true → v = nan32 ∧ (fmaNum f32 X Y Z).2 = if Z.sig then 0x10 else 0) ∧
      (numFin Z = true → v = inf32 p ∧ (fmaNum f32 X Y Z).2 = 0) ∧
      ∀ k, Z = .inf k → if p = k then v = inf32 k ∧ (fmaNum f32 X Y Z).2 = 0 else v = nan32 ∧ (fmaNum f32 X Y Z).2 = 0x10) ∧
    (∀ k, Z = .inf k → numFin X = true → numFin Y = true → v = inf32 k ∧ (fmaNum f32 X Y Z).2 = 0) ∧
    (∀ m i e n j h k l g, X = .fin m i e → Y = .fin n j h → Z = .fin k l g → numRat X * numRat Y + numRat Z = 0 →
      v = zero32 ((m != n) && k) ∧ (fmaNum f32 X Y Z).2 = 0) := by
  refine ⟨?_, ?_, fun h => ?_, ?_, fun p hp => ?_, ?_, ?_⟩
  · rw [hv]
    exact fmaNum_lt sane_f32 X Y Z
  · rintro m n e (⟨rfl, rfl⟩ | ⟨rfl, rfl⟩)
    · exact word_of_invalid hv (fmaNum_of_none f32 Z (mulExact_inf_fin m n 0 e))
    · exact word_of_invalid hv (fmaNum_of_none f32 Z (mulExact_fin_inf m n 0 e))
  · exact word_of_nanOf hv (fmaNum_of_some f32 Z (mulExact_of_nan h))
  · intro hZ hX hY
    obtain ⟨m, i, e, rfl⟩ := Num.exists_fin hX
    obtain ⟨n, j, h, rfl⟩ := Num.exists_fin hY
    exact word_of_nanOf hv (addNum_of_nan f32 (a := .fin (m != n) (i * j) (e + h)) hZ)
  · have hsum : fmaNum f32 X Y Z = addNum f32 (.inf p) Z := fmaNum_of_some f32 Z (mulExact_infinite hp)
    rw [hsum] at hv ⊢
    obtain ⟨-, hnan, hinf, hfin, -, -⟩ := addNum_special (.inf p) Z v hv
    exact ⟨hnan, hfin p rfl, fun k hk => by
      have := hinf p k rfl hk
      split at this
      next h => rw [if_pos h, ← h]; exact this
      next h => rw [if_neg h]; exact this⟩
  · rintro k rfl hX hY
    obtain ⟨m, i, e, rfl⟩ := Num.exists_fin hX
    obtain ⟨n, j, h, rfl⟩ := Num.exists_fin hY
    exact word_of_inf hv rfl
  · rintro m i e n j h k l g rfl rfl rfl hzero
    rw [← numRat_mul] at hzero
    exact word_of_zero hv ((fmaNum_of_some f32 _ rfl).trans (addNum_of_sum_zero hzero))

/-! ### Quotients and roots -/

theorem divNum_by_zero (F : FloatFmt) (m : Bool) (i : Nat) (e : Int) (n : Bool) (h : Int) :
    divNum F (.fin m i e) (.fin n 0 h) = if i = 0 then (F.nanCode, fNv) else (F.infCode (m != n), fDz) := by
  rw [divNum, if_pos rfl]
  rfl

theorem divNum_special (X Y : Num) (v : Word) (hv : v.toNat = (divNum f32 X Y).1) :
    v.toNat < 2 ^ 32 ∧
    ((X.isNan || Y.isNan) = true → v = nan32 ∧ (divNum f32 X Y).2 = if X.sig || Y.sig then 0x10 else 0) ∧
    (∀ m n, X = .inf m → Y = .inf n → v = nan32 ∧ (divNum f32 X Y).2 = 0x10) ∧
    (∀ m n i e, X = .inf m → Y = .fin n i e → v = inf32 (m != n) ∧ (divNum f32 X Y).2 = 0) ∧
    (∀ m n i e, X = .fin m i e → Y = .inf n → v = zero32 (m != n) ∧ (divNum f32 X Y).2 = 0) ∧
    (∀ m i e n h, X = .fin m i e → Y = .fin n 0 h →
      if i = 0 then v = nan32 ∧ (divNum f32 X Y).2 = 0x10 else v = inf32 (m != n) ∧ (divNum f32 X Y).2 = 0x08) ∧
    (∀ m e n j h, X = .fin m 0 e → Y = .fin n j h → j ≠ 0 → v = zero32 (m != n) ∧ (divNum f32 X Y).2 = 0) := by
  refine ⟨?_, fun h => ?_, ?_, ?_, ?_, ?_, ?_⟩
  · rw [hv]
    exact divNum_lt sane_f32 X Y
  · exact word_of_nanOf hv (divNum_of_nan f32 h)
  · rintro m n rfl rfl
    exact word_of_invalid hv rfl
  · rintro m n i e rfl rfl
    exact word_of_inf hv rfl
  · rintro m n i e rfl rfl
    exact word_of_zero hv rfl
  · rintro m i e n h rfl rfl
    split
    next hi => exact word_of_invalid hv ((divNum_by_zero f32 m i e n h).trans (if_pos hi))
    next hi => exact word_of_inf hv ((divNum_by_zero f32 m i e n h).trans (if_neg hi))
  · rintro m e n j h rfl rfl hj
    exact word_of_zero hv (divNum_zero f32 m e n hj h)

theorem sqrtNum_special (X : Num) (v : Word) (hv : v.toNat = (sqrtNum f32 X).1) :
    v.toNat < 2 ^ 32 ∧
    (X.isNan = true → v = nan32 ∧ (sqrtNum f32 X).2 = if X.sig then 0x10 else 0) ∧
    (∀ m, X = .inf m → if m then v = nan32 ∧ (sqrtNum f32 X).2 = 0x10 else v = inf32 false ∧ (sqrtNum f32 X).2 = 0) ∧
    (∀ m i e, X = .fin m i e → (i = 0 → v = zero32 m ∧ (sqrtNum f32 X).2 = 0) ∧
      (i ≠ 0 → m = true → v = nan32 ∧ (sqrtNum f32 X).2 = 0x10)) := by
  refine ⟨?_, fun h => ?_, ?_, ?_⟩
  · rw [hv]
    exact sqrtNum_lt sane_f32 X
  · obtain ⟨s, rfl⟩ := Num.exists_nan h
    exact word_of_nanOf hv rfl
  · rintro m rfl
    split
    next h => exact word_of_invalid hv (if_pos h)
    next h => exact word_of_inf hv (if_neg h)
  · rintro m i e rfl
    refine ⟨fun hi => word_of_zero hv (if_pos hi), ?_⟩
    rintro hi rfl
    exact word_of_invalid hv (if_neg hi)

end Sys2Proof.Machine

namespace Sys2Proof

open Machine

/-- Settles O12: the forms branch on the special values before they round; where the rounding is reached with an exact 0, it gives
the zero of the sign. -/
theorem floatSpecialValues : Obligations.FloatSpecialValues := by
  intro s d a b c A B C nan inf zero invalidIf infinite sum
  have hw {n : Nat} (h : n < 2 ^ (f32.p + f32.ebits)) : n < 2 ^ 64 := h.trans (by decide)
  exact ⟨computesFlags_of rfl (hw (addNum_lt sane_f32 A B)) (addNum_special A B),
    computesFlags_of rfl (hw (addNum_lt sane_f32 A B.neg)) (addNum_special A B.neg),
    computesFlags_of rfl (hw (mulNum_lt sane_f32 A B)) (mulNum_special A B),
    computesFlags_of rfl (hw (fmaNum_lt sane_f32 A B C)) (fmaNum_special A B C),
    computesFlags_of rfl (hw (divNum_lt sane_f32 A B)) (divNum_special A B),
    computesFlags_of rfl (hw (sqrtNum_lt sane_f32 A)) (sqrtNum_special A)⟩

end Sys2Proof

/-! The results of atom instructions (R94, R140, R151, R152, R160): an atom written into its register, and atoms lane by lane. -/

namespace Sys2Proof.Machine

open Sys2Proof

/-! ### Atoms in registers -/

/-- A result in an atom register with its flags, of a pump that goes on (R92, R160). -/
theorem pumpGivesAtom_raise (p : Pump) (q : BitVec 4) (F : Fmt) (n : Nat) (f : Flags) :
    PumpGivesAtom p ((p.setAtom q F n).raise f).advance q F (BitVec.ofNat 128 n) f := by
  obtain ⟨-, hq⟩ := pumpGivesAtom_setAt p q F (BitVec.ofNat 128 n)
  exact ⟨rfl, hq⟩

theorem givesAtom_giveAtom (s : State) (q : BitVec 4) (F : Fmt) (r : Nat × Flags) :
    GivesAtom s (s.giveAtom s.cur q F r) q F (BitVec.ofNat 128 r.1) r.2 := by
  refine ⟨onlyPump_modPump _ _ _, ?_⟩
  rw [State.giveAtom, State.pump_modPump_self]
  exact pumpGivesAtom_raise ..

/-- A load that ends in an atom. -/
theorem readsAtom_giveAtom (s : State) (ea : Word) (n : Nat) (q : BitVec 4) (F : Fmt) (r : Nat × Flags) :
    ReadsAtom s ((s.readThrough s.cur false ea n).giveAtom s.cur q F r) q F (BitVec.ofNat 128 r.1) r.2 := by
  refine ⟨(onlyRead_readThrough ..).trans (onlyPump_modPump ..).onlyRead, ?_⟩
  rw [State.giveAtom, State.pump_modPump_self, pump_readThrough]
  exact pumpGivesAtom_raise ..

/-! ### Packed lanes -/

theorem packLanes_lt (w : Nat) {v : List Nat} (h : ∀ x ∈ v, x < 2 ^ w) : packLanes w v < 2 ^ (w * v.length) := by
  induction v with
  | nil => exact Nat.one_pos
  | cons x r ih =>
    have hx := h x List.mem_cons_self
    have hr := ih fun y hy => h y (List.mem_cons_of_mem _ hy)
    rw [packLanes, List.length_cons, Nat.mul_add, Nat.mul_one, Nat.add_comm (w * r.length), pow_add]
    calc x + 2 ^ w * packLanes w r < 2 ^ w + 2 ^ w * packLanes w r := Nat.add_lt_add_right hx _
      _ = 2 ^ w * (packLanes w r + 1) := by ring
      _ ≤ 2 ^ w * 2 ^ (w * r.length) := Nat.mul_le_mul_left _ hr

/-- Lane `i` of packed lanes. -/
theorem packLanes_div_mod (w : Nat) {v : List Nat} (h : ∀ x ∈ v, x < 2 ^ w) (i : Nat) :
    packLanes w v / 2 ^ (w * i) % 2 ^ w = v.getD i 0 := by
  induction v generalizing i with
  | nil => simp [packLanes]
  | cons x r ih =>
    have hx := h x List.mem_cons_self
    cases i with
    | zero =>
      rw [packLanes, Nat.mul_zero, pow_zero, Nat.div_one, Nat.add_mul_mod_self_left, Nat.mod_eq_of_lt hx, List.getD_cons_zero]
    | succ i =>
      rw [packLanes, Nat.mul_succ, Nat.add_comm (w * i), pow_add, ← Nat.div_div_eq_div_mul,
        Nat.add_mul_div_left _ _ (Nat.two_pow_pos w), Nat.div_eq_of_lt hx, Nat.zero_add, List.getD_cons_succ]
      exact ih (fun y hy => h y (List.mem_cons_of_mem _ hy)) i

theorem toNat_extractLsb' {m : Nat} (v : BitVec m) (lo w : Nat) : (v.extractLsb' lo w).toNat = v.toNat / 2 ^ lo % 2 ^ w := by
  rw [BitVec.extractLsb'_toNat, Nat.shiftRight_eq_div_pow]

/-! ### Four lanes -/

/-- An atom of four lanes of `w` bits, each with its code and its flags. -/
def laneAtom (w : Nat) (r : Nat → Nat × Flags) : Nat × Flags :=
  (packLanes w ((List.range 4).map fun j => (r j).1), (r 0).2 ||| (r 1).2 ||| (r 2).2 ||| (r 3).2)

/-- The lanes of an atom of codes that fit. -/
theorem laneAtom_lane {w : Nat} (hw : w ≤ 32) {r : Nat → Nat × Flags} (hr : ∀ j, (r j).1 < 2 ^ w) {j : Nat} (hj : j < 4) :
    ((BitVec.ofNat 128 (laneAtom w r).1).extractLsb' (w * j) w).toNat = (r j).1 := by
  have hlt : ∀ x ∈ (List.range 4).map fun j => (r j).1, x < 2 ^ w := List.forall_mem_map.mpr fun j _ => hr j
  have h128 : packLanes w ((List.range 4).map fun j => (r j).1) < 2 ^ 128 :=
    (packLanes_lt w hlt).trans_le (Nat.pow_le_pow_right (by decide) (by rw [List.length_map, List.length_range]; omega))
  rw [laneAtom, toNat_extractLsb', BitVec.toNat_ofNat, Nat.mod_eq_of_lt h128, packLanes_div_mod w hlt,
    List.getD_eq_getElem _ _ (by simpa using hj)]
  simp

/-- A meaning that writes four lanes. -/
theorem givesAtom_of_lanes {i : Instr} {s : State} {q : BitVec 4} {F : Fmt} {w : Nat} {r : Nat → Nat × Flags}
    (h : exec i s = .next (s.giveAtom s.cur q F (laneAtom w r))) (hw : w ≤ 32) (hr : ∀ j, (r j).1 < 2 ^ w) :
    ∃ t v, exec i s = .next t ∧ GivesAtom s t q F v ((r 0).2 ||| (r 1).2 ||| (r 2).2 ||| (r 3).2) ∧
      ∀ j < 4, (v.extractLsb' (w * j) w).toNat = (r j).1 :=
  ⟨_, _, h, givesAtom_giveAtom s q F (laneAtom w r), fun _ hj => laneAtom_lane hw hr hj⟩

/-- Lane `j` of an atom register as 32 bits. -/
def Pump.lane (p : Pump) (q : BitVec 4) (j : Nat) : BitVec 32 := p.q[q.toFin].val.extractLsb' (32 * j) 32

/-- The FP32 number in lane `j` of an atom register (R140). -/
def Pump.laneNum (p : Pump) (q : BitVec 4) (j : Nat) : Num := Num.ofCode f32 (p.lane q j).toNat

section
variable (p : Pump) (q : BitVec 4)

theorem Pump.openLane_toNat (j : Nat) {F : Fmt} (hF : F ≠ .o16) : openLane F (p.atom q) j = (p.lane q j).toNat := by
  rw [openLane, if_neg hF, Pump.lane, toNat_extractLsb', Pump.atom]

theorem Pump.intLanes_eq : p.intLanes q = (List.range 4).map (p.lane q) := by
  refine List.map_congr_left fun j _ => ?_
  rw [Pump.openLane_toNat p q j (by decide), BitVec.ofNat_toNat, BitVec.setWidth_eq]

variable {p q}

theorem Pump.lanesOf_o32 (h : p.tag q = .o32) : p.lanesOf q = ((List.range 4).map (p.laneNum q), 0) := by
  have hlane (j : Nat) : Num.ofCode f32 (openLane .o32 (p.atom q) j) = p.laneNum q j := by
    rw [Pump.openLane_toNat p q j (by decide), Pump.laneNum]
  simp only [Pump.lanesOf, h, lanes, hlane]

theorem Pump.lanesOf_oi (h : p.tag q = .oi) : p.lanesOf q = ((List.range 4).map fun j => Num.int (p.lane q j).toInt, 0) := by
  have hlane (j : Nat) : Num.int (intLane (openLane .oi (p.atom q) j)) = Num.int (p.lane q j).toInt := by
    rw [Pump.openLane_toNat p q j (by decide), intLane, BitVec.ofNat_toNat, BitVec.setWidth_eq]
  simp only [Pump.lanesOf, h, lanes, hlane]

end

theorem orFlags_range4 (g : Nat → Flags) : orFlags ((List.range 4).map g) = g 0 ||| g 1 ||| g 2 ||| g 3 := by
  simp [orFlags, List.range_succ]

/-- Four lanes of the integer domain, with no flag (R153). -/
theorem intAtom_eq (g : Nat → BitVec 32) : (intAtom ((List.range 4).map g), 0) = laneAtom 32 fun j => ((g j).toNat, 0) := by
  rw [intAtom, List.map_map, laneAtom]
  simp only [BitVec.or_self]
  rfl

/-- Four lanes stored into an open format (R152). -/
theorem storeAtom_o32 (h : Nat → Lane) : storeAtom .o32 ((List.range 4).map h) = laneAtom 32 fun j => (h j).round f32 := by
  simp only [storeAtom, List.map_map, orFlags_range4]
  rfl

theorem storeAtom_o16 (h : Nat → Lane) : storeAtom .o16 ((List.range 4).map h) = laneAtom 16 fun j => (h j).round bf16 := by
  simp only [storeAtom, List.map_map, orFlags_range4]
  rfl

theorem storeAtom_oi (h : Nat → Lane) : storeAtom .oi ((List.range 4).map h) = laneAtom 32 fun j => (h j).toInt32 := by
  simp only [storeAtom, List.map_map, orFlags_range4]
  rfl

theorem storeNums_map (F : Fmt) (x : Nat → Num) :
    storeNums F ((List.range 4).map x) = storeAtom F ((List.range 4).map fun j => .num (x j)) := by
  rw [storeNums, List.map_map]
  rfl

end Sys2Proof.Machine

/-! Rounding of numbers that a format holds, and of numbers far outside its range (R106, R152, R167). -/

namespace Sys2Proof.Machine

open Sys2Proof

/-! ### Numbers that a format holds -/

theorem int_eq_of_roundedInt {rtz : Bool} {n k : ℤ} (h : RoundedInt rtz (n : ℚ) k) : k = n := by
  have habs : |(n : ℚ) - k| < 1 := by
    cases rtz with
    | true => exact h.2.1
    | false => exact h.1.trans_lt (by norm_num)
  have hint : |n - k| < 1 := by exact_mod_cast habs
  have := Int.abs_lt_one_iff.mp hint
  omega

section
variable {F : FloatFmt}

/-- A number that some code of the format stands for is its own rounding. -/
theorem exact_of_rounded {x : ℚ} {v w : Nat} {f : Flags} (h : Rounded F false x v f)
    (hfit : |x| < roundLimit F.p false (F.bias + 1))
    (hw : w < 2 ^ (F.p + F.ebits)) (hfin : numFin (Num.ofCode F w) = true) (hx : numRat (Num.ofCode F w) = x) :
    numFin (Num.ofCode F v) = true ∧ numRat (Num.ofCode F v) = x ∧ f = 0 := by
  rw [roundLimit_emax, if_neg Bool.false_ne_true] at hfit
  obtain ⟨hle, -⟩ := h.nearest rfl hfit w hw hfin
  rw [hx, sub_self, abs_zero] at hle
  have hv : numRat (Num.ofCode F v) = x := sub_eq_zero.mp (abs_nonpos_iff.mp hle)
  obtain ⟨hvfin, -, hf⟩ := h.finite hfit
  exact ⟨hvfin, hv, by rw [hf]; simp [hv, flagIf]⟩

theorem numRat_zeroCode (hF : F.Sane) (neg : Bool) :
    numFin (Num.ofCode F (F.zeroCode neg)) = true ∧ numRat (Num.ofCode F (F.zeroCode neg)) = 0 := by
  have h := numRat_code (F.infMag_pos hF) neg
  rw [Nat.zero_add, F.magNat_eq_zero.mpr rfl, Nat.cast_zero, zero_mul, mul_zero] at h
  exact h

theorem bitLen_le_of_lt {m n : Nat} (h : m < 2 ^ n) : bitLen m ≤ n := by
  by_contra hn
  exact absurd (lt_bitLen.mp (not_le.mp hn)) (not_le.mpr h)

/-- Every number of at most `p` bits in the range of the format is that of some code. -/
theorem exists_code_of_fits (hF : F.Sane) (neg : Bool) {m : Nat} {e : Int} (h0 : 0 < m) (hm : m < 2 ^ F.p) (he : F.ulpExp ≤ e)
    (hfit : (m : ℚ) * 2 ^ e < roundLimit F.p false (F.bias + 1)) :
    ∃ w < 2 ^ (F.p + F.ebits), numFin (Num.ofCode F w) = true ∧ numRat (Num.ofCode F w) = numRat (.fin neg m e) := by
  have hz : StandsFor m false 0 m := ⟨fun _ => rfl, nofun, nofun⟩
  have hplaced := hz.placed (F := F) (rtz := false) (e := e) h0 nofun hF
  have hlast : F.lastPlace m e ≤ e := by
    have := bitLen_le_of_lt hm
    rw [FloatFmt.lastPlace]
    omega
  obtain ⟨hlt, hfin, hval⟩ := hplaced.numRat_code hF hfit neg
  refine ⟨_, F.add_zeroCode_lt hF (hlt.trans F.infMag_lt) neg, hfin, ?_⟩
  -- the last place of the rounding lies at or below that of the number
  have hq : (((max (F.lastPlace m e) F.ulpExp - F.ulpExp).toNat : ℕ) : ℤ) + F.ulpExp = max (F.lastPlace m e) F.ulpExp := by
    have := le_max_right (F.lastPlace m e) F.ulpExp
    omega
  obtain ⟨n, hn⟩ : ∃ n : ℕ, e = n + max (F.lastPlace m e) F.ulpExp :=
    ⟨(e - max (F.lastPlace m e) F.ulpExp).toNat, by have := max_le hlast he; omega⟩
  have hdiv : (m : ℚ) * 2 ^ e / 2 ^ max (F.lastPlace m e) F.ulpExp = ((m * 2 ^ n : ℕ) : ℤ) := by
    rw [div_eq_iff (two_zpow_pos _).ne']
    conv_lhs => rw [hn, two_zpow_add, zpow_natCast]
    push_cast
    ring
  have hround := hplaced.rounded
  rw [hq, hdiv] at hround
  rw [hval, hq, numRat_fin, withSign_inj, ← eq_div_iff (two_zpow_pos _).ne', hdiv, ← int_eq_of_roundedInt hround, Int.cast_natCast]

/-- A number of at most `p` bits in the range of the format is its own rounding. -/
theorem roundTo_of_fits (hF : F.Sane) (neg : Bool) {m : Nat} {e : Int} (hm : m < 2 ^ F.p) (he : F.ulpExp ≤ e)
    (hfit : (m : ℚ) * 2 ^ e < roundLimit F.p false (F.bias + 1)) :
    numFin (Num.ofCode F (roundTo F false neg m e false).1) = true ∧
      numRat (Num.ofCode F (roundTo F false neg m e false).1) = numRat (.fin neg m e) ∧ (roundTo F false neg m e false).2 = 0 := by
  rcases Nat.eq_zero_or_pos m with rfl | h0
  · rw [roundTo_zero, (numRat_eq_zero neg 0 e).mpr rfl]
    obtain ⟨hfin, hval⟩ := numRat_zeroCode hF neg
    exact ⟨hfin, hval, rfl⟩
  · obtain ⟨w, hw, hfin, hval⟩ := exists_code_of_fits hF neg h0 hm he hfit
    refine exact_of_rounded (roundTo_exact F hF false neg h0 e) ?_ hw hfin hval
    rwa [numRat_fin, abs_withSign (mul_nonneg (Nat.cast_nonneg m) (two_zpow_pos e).le)]

/-- The range of significands and exponents of finite codes. -/
theorem ofCode_fin_bounds (hF : F.Sane) {c m : Nat} {n : Bool} {e : Int} (h : Num.ofCode F c = .fin n m e) :
    m < 2 ^ F.p ∧ F.ulpExp ≤ e ∧ e + F.p ≤ F.bias + 1 := by
  have hp := hF.p
  have hbias := F.two_bias hF
  have hbias1 := FloatFmt.one_le_bias hF
  have hfr : c % 2 ^ (F.p - 1) < 2 ^ (F.p - 1) := Nat.mod_lt _ (Nat.two_pow_pos _)
  have hex : c / 2 ^ (F.p - 1) % 2 ^ F.ebits < 2 ^ F.ebits := Nat.mod_lt _ (Nat.two_pow_pos _)
  have hp2 : 2 ^ F.p = 2 * 2 ^ (F.p - 1) := by rw [← pow_succ', Nat.sub_add_cancel (by omega)]
  have hcast : ((2 ^ F.ebits : ℕ) : ℤ) = 2 * (F.bias + 1) := by push_cast; exact hbias
  simp only [Num.ofCode] at h
  split at h
  · split at h <;> cases h
  · next hinf =>
    split at h
    · next hsub =>
      cases h
      exact ⟨by omega, le_refl _, by rw [FloatFmt.emin]; omega⟩
    · next hsub =>
      cases h
      exact ⟨by omega, by rw [FloatFmt.ulpExp, FloatFmt.emin]; omega, by omega⟩

/-- Numbers below the power of two behind the largest binade fit, as do those of at most `p` bits up to the largest exponent. -/
theorem fits_of_lt_bias {m : Nat} {e : Int} (h : (m : ℚ) * 2 ^ e < 2 ^ F.bias) :
    (m : ℚ) * 2 ^ e < roundLimit F.p false (F.bias + 1) := by
  refine h.trans_le ?_
  have := le_roundLimit F.p false (F.bias + 1)
  rwa [add_sub_cancel_right] at this

theorem fits_of_le_emax {m : Nat} {e : Int} (hm : m < 2 ^ F.p) (he : e + F.p ≤ F.bias + 1) :
    (m : ℚ) * 2 ^ e < roundLimit F.p false (F.bias + 1) := by
  have hm' : (m : ℚ) ≤ 2 ^ F.p - 1 := by
    have : (m : ℚ) + 1 ≤ 2 ^ F.p := by exact_mod_cast hm
    linarith
  have hnn : (0 : ℚ) ≤ 2 ^ F.p - 1 := (Nat.cast_nonneg m).trans hm'
  have hlast : (2 : ℚ) ^ (F.bias + 1 - F.p) * 2 ^ F.p = 2 ^ (F.bias + 1) := by
    rw [← zpow_natCast, ← two_zpow_add]
    congr 1
    ring
  have hhalf := two_zpow_sub_one (F.bias + 1 - F.p)
  have hpos := two_zpow_pos (F.bias + 1 - F.p - 1)
  rw [roundLimit, if_neg Bool.false_ne_true]
  calc (m : ℚ) * 2 ^ e ≤ (2 ^ F.p - 1) * 2 ^ (F.bias + 1 - F.p) :=
        mul_le_mul hm' (two_zpow_le (by omega)) (two_zpow_pos e).le hnn
    _ = 2 ^ (F.bias + 1) - 2 ^ (F.bias + 1 - F.p) := by rw [sub_mul, one_mul, mul_comm, hlast]
    _ < 2 ^ (F.bias + 1) - 2 ^ (F.bias + 1 - F.p - 1) := by linarith

/-- The number of a finite code is its own rounding. -/
theorem round_ofCode (hF : F.Sane) {c : Nat} (hfin : numFin (Num.ofCode F c) = true) :
    numFin (Num.ofCode F ((Num.ofCode F c).round F false).1) = true ∧
      numRat (Num.ofCode F ((Num.ofCode F c).round F false).1) = numRat (Num.ofCode F c) ∧
      ((Num.ofCode F c).round F false).2 = 0 := by
  obtain ⟨n, m, e, hc⟩ := Num.exists_fin hfin
  obtain ⟨hm, he, hmax⟩ := ofCode_fin_bounds hF hc
  rw [hc]
  exact roundTo_of_fits hF n hm he (fits_of_le_emax hm hmax)

/-! ### Numbers far outside the range -/

/-- A number below half of the smallest subnormal number rounds to zero. -/
theorem rounded_of_tiny (hF : F.Sane) (neg : Bool) {a : ℚ} (ha : 0 < a) (hlt : a < 2 ^ (F.ulpExp - 1)) :
    Rounded F false (withSign neg a) (F.zeroCode neg) (fUf ||| fNx) := by
  have hu := two_zpow_pos F.ulpExp
  have hhalf := two_zpow_sub_one F.ulpExp
  have hq : a / 2 ^ (((0 : ℕ) : ℤ) + F.ulpExp) < 1 / 2 := by
    rw [Nat.cast_zero, zero_add, div_lt_iff₀ hu]
    linarith
  have hq0 : 0 < a / 2 ^ (((0 : ℕ) : ℤ) + F.ulpExp) := div_pos ha (two_zpow_pos _)
  have hplaced : Placed F false a 0 0 := by
    refine ⟨ha, roundedInt_nearest.mpr ⟨?_, fun _ => rfl⟩, ?_, .inl rfl⟩
    · rw [Nat.cast_zero, Int.cast_zero, sub_zero, ← Nat.cast_zero, abs_of_pos hq0]
      exact hq.le
    · exact hq.trans_le ((by norm_num : (1 : ℚ) / 2 ≤ 1).trans (one_le_pow₀ (by norm_num)))
  have hp := hF.p
  have hbias := FloatFmt.one_le_bias hF
  have hemin : a < roundLimit F.p false F.emin := by
    refine hlt.trans_le ((two_zpow_le ?_).trans (le_roundLimit F.p false F.emin))
    rw [FloatFmt.ulpExp]
    omega
  have hmax : a < roundLimit F.p false (F.bias + 1) := by
    refine hlt.trans_le ((two_zpow_le ?_).trans (le_roundLimit F.p false (F.bias + 1)))
    rw [FloatFmt.ulpExp, FloatFmt.emin]
    omega
  have hcode : F.placedCode 0 0 + F.zeroCode neg = F.zeroCode neg := by rw [FloatFmt.placedCode, Nat.zero_mul, Nat.zero_add]
  have h := hplaced.rounded_code hF hmax neg (inexact := true) (tiny := true) (iff_of_true rfl ?_) (iff_of_true rfl hemin)
  · rw [hcode] at h
    exact h
  · rw [Nat.cast_zero]
    exact hq0.ne

/-- A rounding of such a number is that zero. -/
theorem eq_zeroCode_of_tiny (hF : F.Sane) {neg : Bool} {a : ℚ} (ha : 0 < a) (hlt : a < 2 ^ (F.ulpExp - 1)) {v : Nat} {f : Flags}
    (h : Rounded F false (withSign neg a) v f) : v = F.zeroCode neg ∧ f = fUf ||| fNx := by
  have hu := two_zpow_pos F.ulpExp
  have hhalf := two_zpow_sub_one F.ulpExp
  have hp := hF.p
  have hbias := FloatFmt.one_le_bias hF
  have hemin : a < roundLimit F.p false F.emin := by
    refine hlt.trans_le ((two_zpow_le ?_).trans (le_roundLimit F.p false F.emin))
    rw [FloatFmt.ulpExp]
    omega
  have hmax : |withSign neg a| < roundLimit F.p false (F.bias + 1) := by
    rw [abs_withSign ha.le]
    refine hlt.trans_le ((two_zpow_le ?_).trans (le_roundLimit F.p false (F.bias + 1)))
    rw [FloatFmt.ulpExp, FloatFmt.emin]
    omega
  rw [roundLimit_emax, if_neg Bool.false_ne_true] at hmax
  rw [roundLimit_emin, if_neg Bool.false_ne_true] at hemin
  obtain ⟨hfin, hneg, hf⟩ := h.finite hmax
  obtain ⟨neg', c, hc, rfl⟩ := code_of_numFin (by omega) h.width hfin
  obtain ⟨-, hval⟩ := numRat_code hc neg'
  obtain ⟨hzfin, hz⟩ := numRat_zeroCode hF false
  -- zero is no farther away than `a`, so the rounding is less than the smallest subnormal number
  obtain ⟨hle, -⟩ := h.nearest rfl hmax _ (F.zeroCode_lt hF false) hzfin
  have hmag : (0 : ℚ) ≤ F.magNat c * 2 ^ F.ulpExp := mul_nonneg (Nat.cast_nonneg _) hu.le
  have hsmall : (F.magNat c : ℚ) * 2 ^ F.ulpExp < 1 * 2 ^ F.ulpExp := by
    have habs : |numRat (Num.ofCode F (c + F.zeroCode neg'))| = F.magNat c * 2 ^ F.ulpExp := by
      rw [hval]
      exact abs_withSign hmag neg'
    have htri := abs_sub_abs_le_abs_sub (numRat (Num.ofCode F (c + F.zeroCode neg'))) (withSign neg a)
    rw [hz, zero_sub, abs_neg, abs_withSign ha.le] at hle
    rw [habs, abs_withSign ha.le] at htri
    linarith
  have hc0 : c = 0 := by
    have : (F.magNat c : ℚ) < 1 := lt_of_mul_lt_mul_right hsmall hu.le
    rw [← F.magNat_eq_zero]
    exact Nat.lt_one_iff.mp (by exact_mod_cast this)
  subst hc0
  rw [codeNeg_add_zeroCode F (Nat.two_pow_pos _)] at hneg
  have hsign : neg' = neg := by
    rw [hneg, Bool.eq_iff_iff, decide_eq_true_iff, withSign_lt_zero ha]
  subst hsign
  rw [Nat.zero_add] at hf ⊢
  have hne : numRat (Num.ofCode F (F.zeroCode neg')) ≠ withSign neg' a := by
    rw [(numRat_zeroCode hF neg').2]
    intro h0
    have := abs_withSign ha.le neg'
    rw [← h0, abs_zero] at this
    exact ha.ne this
  refine ⟨rfl, ?_⟩
  rw [hf, abs_withSign ha.le]
  simp [hne, hemin, flagIf, BitVec.or_comm]

/-- A rounding of a number beyond the range is the infinity of its sign. -/
theorem eq_infCode_of_huge {neg : Bool} {a : ℚ} (ha : 2 ^ (F.bias + 1) ≤ a) {v : Nat} {f : Flags}
    (h : Rounded F false (withSign neg a) v f) : v = F.infCode neg ∧ f = fOf ||| fNx := by
  have hpos : 0 < a := (two_zpow_pos _).trans_le ha
  have hge : roundLimit F.p false (F.bias + 1) ≤ |withSign neg a| := by
    rw [abs_withSign hpos.le]
    exact (roundLimit_le _ _ _).trans ha
  rw [roundLimit_emax] at hge
  obtain ⟨hv, hf⟩ := h.overflow hge
  have hneg : decide (withSign neg a < 0) = neg := by rw [Bool.eq_iff_iff, decide_eq_true_iff, withSign_lt_zero hpos]
  rw [hneg, if_neg Bool.false_ne_true] at hv
  exact ⟨hv, hf⟩

end

end Sys2Proof.Machine

/-! Exact lane arithmetic (R153) and its roundings: sums and products of lanes, sums of many values (R157), and scaled lanes (R167). -/

namespace Sys2Proof.Machine

open Sys2Proof

/-! ### A lane result rounded to FP32 -/

theorem flags_zero_or (f : Flags) : 0 ||| f = f := BitVec.zero_or

/-- An exact lane result with its flags, stored as an FP32 code (R152). -/
def storeLane32 (r : Num × Flags) : Nat × Flags := ((r.1.round f32 false).1, r.2 ||| (r.1.round f32 false).2)

theorem storeLane32_num (x : Num) : storeLane32 (x, 0) = x.round f32 false := Prod.ext rfl (flags_zero_or _)

theorem storeLane32_invalid : storeLane32 (.nan false, fNv) = invalid f32 := by decide

/-- The exact sum, rounded, is the sum of `fadd` (R106, R162). -/
theorem storeLane32_addLane (a b : Num) : storeLane32 (addLane a b) = addNum f32 a b := by
  cases a with
  | nan s => cases b <;> exact storeLane32_num (.nan _)
  | inf n =>
    cases b with
    | nan s => exact (storeLane32_num (.nan _)).trans (congrArg (nanOf f32) (Bool.or_comm ..))
    | inf n' =>
      simp only [addLane, addNum]
      split
      · exact storeLane32_num (.inf n)
      · exact storeLane32_invalid
    | fin n' m' e' => exact storeLane32_num (.inf n)
  | fin n m e =>
    cases b with
    | nan s => exact (storeLane32_num (.nan _)).trans (congrArg (nanOf f32) (Bool.or_comm ..))
    | inf n' => exact storeLane32_num (.inf n')
    | fin n' m' e' =>
      simp only [addLane, addNum]
      split
      · exact storeLane32_num (.fin _ 0 0)
      · exact storeLane32_num _

theorem storeLane32_mulLane (a b : Num) : storeLane32 (mulLane a b) = mulNum f32 a b := by
  rw [mulLane, mulNum]
  cases mulExact a b with
  | none => exact storeLane32_invalid
  | some v => exact storeLane32_num v

theorem storeLane32_fmaLane (a b c : Num) : storeLane32 (fmaLane a b c) = fmaNum f32 a b c := by
  rw [fmaLane, fmaNum]
  cases mulExact a b with
  | none => exact storeLane32_invalid
  | some v => exact storeLane32_addLane v c

/-! ### Sums of finite values -/

theorem addLane_fin {a b : Num} (ha : numFin a = true) (hb : numFin b = true) :
    numFin (addLane a b).1 = true ∧ numRat (addLane a b).1 = numRat a + numRat b ∧ (addLane a b).2 = 0 := by
  obtain ⟨n1, m1, e1, rfl⟩ := Num.exists_fin ha
  obtain ⟨n2, m2, e2, rfl⟩ := Num.exists_fin hb
  rw [← numRat_sumExact]
  simp only [addLane]
  split
  next h => exact ⟨rfl, by rw [h, Int.cast_zero, zero_mul]; exact (numRat_eq_zero _ 0 0).mpr rfl, rfl⟩
  next h => exact ⟨rfl, numRat_ofInt _ _, rfl⟩

theorem mulLane_fin {a b : Num} (ha : numFin a = true) (hb : numFin b = true) :
    numFin (mulLane a b).1 = true ∧ numRat (mulLane a b).1 = numRat a * numRat b ∧ (mulLane a b).2 = 0 := by
  obtain ⟨n1, m1, e1, rfl⟩ := Num.exists_fin ha
  obtain ⟨n2, m2, e2, rfl⟩ := Num.exists_fin hb
  exact ⟨rfl, numRat_mul n1 m1 e1 n2 m2 e2, rfl⟩

/-- One step of the sum in `sumNums`. -/
def addStep (acc : Num × Flags) (v : Num) : Num × Flags := ((addLane acc.1 v).1, acc.2 ||| (addLane acc.1 v).2)

theorem foldl_addStep (vs : List Num) (hvs : ∀ v ∈ vs, numFin v = true) {acc : Num × Flags} (hacc : numFin acc.1 = true)
    (hfl : acc.2 = 0) : numFin (vs.foldl addStep acc).1 = true ∧
      numRat (vs.foldl addStep acc).1 = numRat acc.1 + (vs.map numRat).sum ∧ (vs.foldl addStep acc).2 = 0 := by
  induction vs generalizing acc with
  | nil => exact ⟨hacc, by simp, hfl⟩
  | cons v vs ih =>
    obtain ⟨hfin, hval, hf⟩ := addLane_fin hacc (hvs v List.mem_cons_self)
    obtain ⟨h1, h2, h3⟩ := ih (fun w hw => hvs w (List.mem_cons_of_mem _ hw)) (acc := addStep acc v) hfin
      (by rw [addStep, hfl, hf, BitVec.or_self])
    refine ⟨h1, ?_, h3⟩
    rw [List.foldl_cons, h2, addStep, hval, List.map_cons, List.sum_cons, add_assoc]

/-- A finite zero is +0, and every other value stays. -/
def Num.plusZero : Num → Num
  | .fin _ 0 _ => Num.zero
  | v => v

theorem numFin_plusZero (v : Num) : numFin v.plusZero = numFin v := by
  unfold Num.plusZero
  split <;> rfl

theorem numRat_plusZero (v : Num) : numRat v.plusZero = numRat v := by
  unfold Num.plusZero
  split
  next n e => rw [(numRat_eq_zero n 0 e).mpr rfl]; exact (numRat_eq_zero false 0 0).mpr rfl
  next => rfl

/-- The exact sum of finite values, with no flag. -/
theorem sumNums_of_fin {vs : List Num} (hvs : ∀ v ∈ vs, numFin v = true) :
    sumNums vs = ((vs.foldl addStep (Num.zero, 0)).1.plusZero, 0) := by
  have hnan : vs.any Num.isNan = false := List.any_eq_false.mpr fun v hv => by simp [Num.isNan_of_numFin (hvs v hv)]
  have hinf (n : Bool) : vs.contains (.inf n) = false := by
    simp only [List.contains_eq_mem, decide_eq_false_iff_not]
    exact fun hv => absurd (hvs _ hv) Bool.false_ne_true
  obtain ⟨-, -, hfl⟩ := foldl_addStep vs hvs (acc := (Num.zero, 0)) rfl rfl
  have hfold : vs.foldl (fun acc v => let (r, f) := addLane acc.1 v; (r, acc.2 ||| f)) (Num.zero, 0) =
      vs.foldl addStep (Num.zero, 0) := rfl
  simp only [sumNums, hnan, hinf, Bool.and_self, Bool.false_eq_true, if_false, hfold, hfl]
  cases (vs.foldl addStep (Num.zero, 0)).1 with
  | nan s => rfl
  | inf n => rfl
  | fin n m e => cases m <;> rfl

theorem sumNums_fin {vs : List Num} (hvs : ∀ v ∈ vs, numFin v = true) :
    numFin (sumNums vs).1 = true ∧ numRat (sumNums vs).1 = (vs.map numRat).sum ∧ (sumNums vs).2 = 0 := by
  obtain ⟨hfin, hval, -⟩ := foldl_addStep vs hvs (acc := (Num.zero, 0)) rfl rfl
  have hzero : numRat Num.zero = 0 := (numRat_eq_zero false 0 0).mpr rfl
  rw [hzero, zero_add] at hval
  rw [sumNums_of_fin hvs]
  exact ⟨(numFin_plusZero _).trans hfin, (numRat_plusZero _).trans hval, rfl⟩

/-- A finite sum of 0 is +0. -/
theorem sumNums_eq_zero {vs : List Num} (hvs : ∀ v ∈ vs, numFin v = true) (h : (vs.map numRat).sum = 0) :
    sumNums vs = (Num.zero, 0) := by
  obtain ⟨hfin, hval, -⟩ := foldl_addStep vs hvs (acc := (Num.zero, 0)) rfl rfl
  have hzero : numRat Num.zero = 0 := (numRat_eq_zero false 0 0).mpr rfl
  rw [hzero, zero_add, h] at hval
  rw [sumNums_of_fin hvs]
  obtain ⟨n, m, e, hv⟩ := Num.exists_fin hfin
  rw [hv] at hval ⊢
  rw [(numRat_eq_zero n m e).mp hval, Num.plusZero]

/-- The sum of finite values, rounded once to FP32 (R157). -/
theorem round_sumNums {vs : List Num} (hvs : ∀ v ∈ vs, numFin v = true) :
    ((vs.map numRat).sum = 0 → (sumNums vs).1.round f32 false = (0, 0)) ∧
      ((vs.map numRat).sum ≠ 0 → Rounded f32 false (vs.map numRat).sum ((sumNums vs).1.round f32 false).1
        ((sumNums vs).1.round f32 false).2) := by
  obtain ⟨hfin, hval, -⟩ := sumNums_fin hvs
  refine ⟨fun h => ?_, fun h => ?_⟩
  · rw [sumNums_eq_zero hvs h]
    rfl
  · rw [← hval] at h ⊢
    exact Num.round_rounded sane_f32 false hfin h

/-! ### Scaled lanes (R167) -/

/-- An exponent beyond ±1000 stores what ±1000 stores. -/
theorem round_scale {c : Nat} (hfin : numFin (Num.ofCode f32 c) = true) (h0 : numRat (Num.ofCode f32 c) ≠ 0) (E : Int) :
    Rounded f32 false (numRat (Num.ofCode f32 c) * 2 ^ E)
      (((Num.ofCode f32 c).scale (max (-1000) (min 1000 E))).round f32 false).1
      (((Num.ofCode f32 c).scale (max (-1000) (min 1000 E))).round f32 false).2 := by
  obtain ⟨n, m, e, hc⟩ := Num.exists_fin hfin
  obtain ⟨hm, he, hmax⟩ := ofCode_fin_bounds sane_f32 hc
  rw [hc] at h0 ⊢
  have hm0 : 0 < m := Nat.pos_of_ne_zero fun h => h0 ((numRat_eq_zero n m e).mpr h)
  have hulp : f32.ulpExp = -149 := by decide
  have hbias : f32.bias = 127 := by decide
  have hprec : f32.p = 24 := rfl
  rw [hulp] at he
  rw [hbias, hprec] at hmax
  rw [hprec] at hm
  have hround := roundTo_exact f32 sane_f32 false n hm0 (e + max (-1000) (min 1000 E))
  have hval (k : Int) : numRat (.fin n m e) * 2 ^ k = withSign n (m * 2 ^ (e + k)) := by
    rw [numRat_fin, two_zpow_add, ← mul_assoc, withSign_mul n (m * 2 ^ e)]
  have hlo (k : Int) : (2 : ℚ) ^ k ≤ m * 2 ^ k := le_mul_of_one_le_left (two_zpow_pos k).le (by exact_mod_cast hm0)
  have hhi (k : Int) : (m : ℚ) * 2 ^ k < 2 ^ (24 + k) := by
    rw [two_zpow_add]
    exact mul_lt_mul_of_pos_right (by exact_mod_cast hm) (two_zpow_pos k)
  rw [numRat_fin] at hround
  rw [hval]
  show Rounded f32 false _ (roundTo f32 false n m _ false).1 (roundTo f32 false n m _ false).2
  rcases lt_trichotomy E (-1000) with hE | hE | hE
  · rw [min_eq_right (by omega), max_eq_left (by omega)] at hround ⊢
    have htiny (k : Int) (hk : k ≤ -1000) : (m : ℚ) * 2 ^ (e + k) < 2 ^ (f32.ulpExp - 1) :=
      (hhi _).trans_le (two_zpow_le (by rw [hulp]; omega))
    obtain ⟨hv, hf⟩ := eq_zeroCode_of_tiny sane_f32 ((two_zpow_pos _).trans_le (hlo _)) (htiny _ le_rfl) hround
    rw [hv, hf]
    exact rounded_of_tiny sane_f32 n ((two_zpow_pos _).trans_le (hlo _)) (htiny E hE.le)
  · rw [hE] at hround ⊢
    exact hround
  · rcases le_or_gt E 1000 with hE1 | hE1
    · rw [min_eq_right hE1, max_eq_right hE.le] at hround ⊢
      exact hround
    · rw [min_eq_left hE1.le, max_eq_right (by omega)] at hround ⊢
      have hhuge (k : Int) (hk : 1000 ≤ k) : (2 : ℚ) ^ (f32.bias + 1) ≤ m * 2 ^ (e + k) :=
        (two_zpow_le (by rw [hbias]; omega)).trans (hlo _)
      obtain ⟨hv, hf⟩ := eq_infCode_of_huge (hhuge _ le_rfl) hround
      rw [hv, hf]
      exact rounded_of_overflow sane_f32 (rtz := false) n ((two_zpow_pos _).trans_le (hlo _))
        ((roundLimit_le _ _ _).trans (hhuge E hE1.le))

end Sys2Proof.Machine

/-! The atom instructions on lanes of the open formats (R153, R162 to R169): what each writes, lane by lane. -/

namespace Sys2Proof.Machine

open Sys2Proof

/-! ### The integer domain (R153) -/

section
variable {s : State} {f : Option Fmt} {qd qa qb qc : BitVec 4}

theorem fmtOr_eq {p : Pump} {F : Fmt} (hf : f = none ∨ f = some F) (ha : p.tag qa = F) : p.fmtOr f qa = F := by
  rcases hf with rfl | rfl
  · exact ha
  · rfl

theorem lanewise_oi {int : BitVec 32 → BitVec 32 → BitVec 32} {num : Num → Num → Num × Flags} (hf : f = none ∨ f = some .oi)
    (ha : (s.pump s.cur).tag qa = .oi) (hb : (s.pump s.cur).tag qb = .oi) :
    s.lanewise f qd qa qb int num = s.giveAtom s.cur qd .oi
      (laneAtom 32 fun j => ((int ((s.pump s.cur).lane qa j) ((s.pump s.cur).lane qb j)).toNat, 0)) := by
  have hdom : (s.pump s.cur).intDomain .oi [qa, qb] = true := by simp [Pump.intDomain, ha, hb]
  simp only [State.lanewise, fmtOr_eq hf ha, hdom, if_true, Pump.intLanes_eq, List.zip_map', List.map_map]
  exact congrArg _ (intAtom_eq _)

theorem exec_aadd_oi (hf : f = none ∨ f = some .oi) (ha : (s.pump s.cur).tag qa = .oi) (hb : (s.pump s.cur).tag qb = .oi) :
    exec (.aadd f qd qa qb) s = .next (s.giveAtom s.cur qd .oi
      (laneAtom 32 fun j => (((s.pump s.cur).lane qa j + (s.pump s.cur).lane qb j).toNat, 0))) :=
  congrArg Host.Outcome.next (lanewise_oi hf ha hb)

theorem exec_asub_oi (hf : f = none ∨ f = some .oi) (ha : (s.pump s.cur).tag qa = .oi) (hb : (s.pump s.cur).tag qb = .oi) :
    exec (.asub f qd qa qb) s = .next (s.giveAtom s.cur qd .oi
      (laneAtom 32 fun j => (((s.pump s.cur).lane qa j - (s.pump s.cur).lane qb j).toNat, 0))) :=
  congrArg Host.Outcome.next (lanewise_oi hf ha hb)

theorem exec_amul_oi (hf : f = none ∨ f = some .oi) (ha : (s.pump s.cur).tag qa = .oi) (hb : (s.pump s.cur).tag qb = .oi) :
    exec (.amul f qd qa qb) s = .next (s.giveAtom s.cur qd .oi
      (laneAtom 32 fun j => (((s.pump s.cur).lane qa j * (s.pump s.cur).lane qb j).toNat, 0))) :=
  congrArg Host.Outcome.next (lanewise_oi hf ha hb)

theorem exec_afma_oi (hf : f = none ∨ f = some .oi) (ha : (s.pump s.cur).tag qa = .oi) (hb : (s.pump s.cur).tag qb = .oi)
    (hc : (s.pump s.cur).tag qc = .oi) : exec (.afma f qd qa qb qc) s = .next (s.giveAtom s.cur qd .oi (laneAtom 32 fun j =>
      (((s.pump s.cur).lane qa j * (s.pump s.cur).lane qb j + (s.pump s.cur).lane qc j).toNat, 0))) := by
  have hdom : (s.pump s.cur).intDomain .oi [qa, qb, qc] = true := by simp [Pump.intDomain, ha, hb, hc]
  show execAfma f qd qa qb qc s = _
  simp only [execAfma, fmtOr_eq hf ha, hdom, if_true, Pump.intLanes_eq, List.zip_map', List.map_map]
  exact congrArg (fun r => Host.Outcome.next (s.giveAtom s.cur qd .oi r)) (intAtom_eq _)

theorem exec_amap_oi {fn : MapFn} (hfn : mapFnInt fn = true) (hf : f = none ∨ f = some .oi) (ha : (s.pump s.cur).tag qa = .oi) :
    exec (.amap fn f qd qa) s = .next (s.giveAtom s.cur qd .oi (laneAtom 32 fun j =>
      ((mapIntLane fn ((s.pump s.cur).lane qa j)).toNat, 0))) := by
  have hdom : (s.pump s.cur).intDomain .oi [qa] = true := by simp [Pump.intDomain, ha]
  show execAmap fn f qd qa s = _
  simp only [execAmap, fmtOr_eq hf ha, hdom, hfn, Bool.and_self, if_true, Pump.intLanes_eq, List.map_map]
  exact congrArg (fun r => Host.Outcome.next (s.giveAtom s.cur qd .oi r)) (intAtom_eq _)

theorem zipIdx_map_range4 {α : Type} (g : Nat → α) : ((List.range 4).map g).zipIdx = (List.range 4).map fun j => (g j, j) := rfl

theorem exec_amsk_oi {ga : Reg} (hf : f = none ∨ f = some .oi) (ha : (s.pump s.cur).tag qa = .oi) :
    exec (.amsk f qd qa ga) s = .next (s.giveAtom s.cur qd .oi (laneAtom 32 fun j =>
      ((if ((s.pump s.cur).read ga).getLsbD j then 0 else (s.pump s.cur).lane qa j : BitVec 32).toNat, 0))) := by
  have hdom : (s.pump s.cur).intDomain .oi [qa] = true := by simp [Pump.intDomain, ha]
  show execAmsk f qd qa ga s = _
  simp only [execAmsk, fmtOr_eq hf ha, hdom, if_true, Pump.intLanes_eq, zipIdx_map_range4, List.map_map]
  exact congrArg (fun r => Host.Outcome.next (s.giveAtom s.cur qd .oi r)) (intAtom_eq _)

/-- Lanes of 32 bits without flags. -/
theorem givesAtom_of_words {i : Instr} {F : Fmt} {g : Nat → BitVec 32}
    (h : exec i s = .next (s.giveAtom s.cur qd F (laneAtom 32 fun j => ((g j).toNat, 0)))) :
    ∃ t v, exec i s = .next t ∧ GivesAtom s t qd F v 0 ∧ ∀ j < 4, v.extractLsb' (32 * j) 32 = g j := by
  obtain ⟨t, v, ht, hv, hlanes⟩ := givesAtom_of_lanes h (le_refl 32) fun j => (g j).isLt
  simp only [BitVec.or_self] at hv
  exact ⟨t, v, ht, hv, fun j hj => BitVec.eq_of_toNat_eq (hlanes j hj)⟩

end

/-! ### Comparisons (R165) -/

@[simp] theorem numRat_int (v : Int) : numRat (Num.int v) = v := by
  rw [Num.int, numRat_ofInt, zpow_zero, mul_one]

/-- Integers are in the order of their values. -/
theorem Num.lt_int (x y : Int) : (Num.int x).lt (Num.int y) = decide (x < y) := by
  by_cases hz : x = 0 ∧ y = 0
  · obtain ⟨rfl, rfl⟩ := hz
    rfl
  · have hne : ∀ n1 e1 n2 e2, ¬ (Num.int x = .fin n1 0 e1 ∧ Num.int y = .fin n2 0 e2) := by
      rintro n1 e1 n2 e2 ⟨hx, hy⟩
      simp only [Num.int, Num.fin.injEq, Int.natAbs_eq_zero] at hx hy
      exact hz ⟨hx.2.1, hy.2.1⟩
    rw [Num.lt_of_not_zeros hne, Bool.eq_iff_iff, decide_eq_true_iff, Num.int, Num.int, Num.ltTotal_fin, numRat_ofInt, numRat_ofInt,
      zpow_zero, mul_one, mul_one, Int.cast_lt, Int.cast_inj]
    simp only [Int.natAbs_eq_zero, decide_eq_true_eq, decide_eq_false_iff_not]
    omega

theorem Num.eq_int (x y : Int) : (Num.int x).eq (Num.int y) = decide (x = y) := by
  rw [Num.eq, Num.lt_int, Num.lt_int, ← decide_not, ← decide_not, ← Bool.decide_and, decide_eq_decide]
  omega

theorem compare_int_lt (x y : Int) : compare .lt (Num.int x) (Num.int y) = (decide (x < y), 0) := Prod.ext (Num.lt_int x y) rfl

theorem compare_int_eq (x y : Int) : compare .eq (Num.int x) (Num.int y) = (decide (x = y), 0) := Prod.ext (Num.eq_int x y) rfl

/-- Four truth values as a lane mask (R165). -/
def laneMask (b : Nat → Bool) : Nat := packLanes 1 ((List.range 4).map fun j => if b j then 1 else 0)

theorem laneMask_bits (b : Nat → Bool) : ∀ x ∈ (List.range 4).map (fun j => if b j then 1 else 0), x < 2 ^ 1 := by
  refine List.forall_mem_map.mpr fun j _ => ?_
  split <;> decide

theorem getLsbD_laneMask (b : Nat → Bool) {j : Nat} (hj : j < 64) :
    (BitVec.ofNat 64 (laneMask b)).getLsbD j = decide (j < 4 ∧ b j = true) := by
  have hlane := packLanes_div_mod 1 (laneMask_bits b) j
  rw [Nat.one_mul, pow_one] at hlane
  rw [BitVec.getLsbD_ofNat, decide_eq_true hj, Bool.true_and, Nat.testBit_eq_decide_div_mod_eq, laneMask, hlane, decide_eq_decide]
  rcases Nat.lt_or_ge j 4 with h | h
  · rw [List.getD_eq_getElem _ _ (by simpa using h)]
    simp [h]
  · rw [List.getD_eq_default _ _ (by simpa using h)]
    simp [h]

section
variable {s : State} {ga : Reg} {qa qb : BitVec 4}

/-- A comparison of signed lanes that sets no flag. -/
theorem exec_acmp_oi {cond : Cond} {test : Int → Int → Bool} (hc : ∀ x y, compare cond (Num.int x) (Num.int y) = (test x y, 0))
    (ha : (s.pump s.cur).tag qa = .oi) (hb : (s.pump s.cur).tag qb = .oi) :
    exec (.acmp cond ga qa qb) s = .next (s.giveFloat s.cur ga
      (laneMask fun j => test ((s.pump s.cur).lane qa j).toInt ((s.pump s.cur).lane qb j).toInt, 0)) := by
  show execAcmp cond ga qa qb s = _
  simp only [execAcmp, Pump.lanesOf_oi ha, Pump.lanesOf_oi hb, List.zip_map', List.map_map, Function.comp_def, hc, orFlags_range4,
    BitVec.or_self]
  rfl

end

/-! ### FP32 lanes (R106, R152, R162) -/

section
variable {s : State} {f : Option Fmt} {qd qa qb qc : BitVec 4}

theorem storeNums_o32 (x : Nat → Num × Flags) :
    let r := storeNums .o32 ((List.range 4).map fun j => (x j).1)
    (r.1, orFlags ((List.range 4).map fun j => (x j).2) ||| r.2) = laneAtom 32 fun j => storeLane32 (x j) := by
  intro r
  have hr : r = laneAtom 32 fun j => (x j).1.round f32 false := by
    simp only [r, storeNums_map, storeAtom_o32]
    rfl
  rw [hr, orFlags_range4]
  refine Prod.ext rfl ?_
  simp only [laneAtom, storeLane32]
  ac_rfl

theorem lanewise_o32 {int : BitVec 32 → BitVec 32 → BitVec 32} {num : Num → Num → Num × Flags} (hf : f = none ∨ f = some .o32)
    (ha : (s.pump s.cur).tag qa = .o32) (hb : (s.pump s.cur).tag qb = .o32) :
    s.lanewise f qd qa qb int num = s.giveAtom s.cur qd .o32
      (laneAtom 32 fun j => storeLane32 (num ((s.pump s.cur).laneNum qa j) ((s.pump s.cur).laneNum qb j))) := by
  have hdom : (s.pump s.cur).intDomain .o32 [qa, qb] = false := rfl
  simp only [State.lanewise, fmtOr_eq hf ha, hdom, Bool.false_eq_true, if_false, Pump.lanesOf_o32 ha, Pump.lanesOf_o32 hb,
    List.zip_map', List.map_map, flags_zero_or]
  exact congrArg _ (storeNums_o32 _)

theorem exec_aadd_o32 (hf : f = none ∨ f = some .o32) (ha : (s.pump s.cur).tag qa = .o32) (hb : (s.pump s.cur).tag qb = .o32) :
    exec (.aadd f qd qa qb) s = .next (s.giveAtom s.cur qd .o32
      (laneAtom 32 fun j => addNum f32 ((s.pump s.cur).laneNum qa j) ((s.pump s.cur).laneNum qb j))) := by
  simp only [← storeLane32_addLane]
  exact congrArg Host.Outcome.next (lanewise_o32 hf ha hb)

theorem exec_asub_o32 (hf : f = none ∨ f = some .o32) (ha : (s.pump s.cur).tag qa = .o32) (hb : (s.pump s.cur).tag qb = .o32) :
    exec (.asub f qd qa qb) s = .next (s.giveAtom s.cur qd .o32
      (laneAtom 32 fun j => addNum f32 ((s.pump s.cur).laneNum qa j) ((s.pump s.cur).laneNum qb j).neg)) := by
  simp only [← storeLane32_addLane]
  exact congrArg Host.Outcome.next (lanewise_o32 hf ha hb)

theorem exec_amul_o32 (hf : f = none ∨ f = some .o32) (ha : (s.pump s.cur).tag qa = .o32) (hb : (s.pump s.cur).tag qb = .o32) :
    exec (.amul f qd qa qb) s = .next (s.giveAtom s.cur qd .o32
      (laneAtom 32 fun j => mulNum f32 ((s.pump s.cur).laneNum qa j) ((s.pump s.cur).laneNum qb j))) := by
  simp only [← storeLane32_mulLane]
  exact congrArg Host.Outcome.next (lanewise_o32 hf ha hb)

theorem exec_afma_o32 (hf : f = none ∨ f = some .o32) (ha : (s.pump s.cur).tag qa = .o32) (hb : (s.pump s.cur).tag qb = .o32)
    (hc : (s.pump s.cur).tag qc = .o32) : exec (.afma f qd qa qb qc) s = .next (s.giveAtom s.cur qd .o32 (laneAtom 32 fun j =>
      fmaNum f32 ((s.pump s.cur).laneNum qa j) ((s.pump s.cur).laneNum qb j) ((s.pump s.cur).laneNum qc j))) := by
  have hdom : (s.pump s.cur).intDomain .o32 [qa, qb, qc] = false := rfl
  simp only [← storeLane32_fmaLane]
  show execAfma f qd qa qb qc s = _
  simp only [execAfma, fmtOr_eq hf ha, hdom, Bool.false_eq_true, if_false, Pump.lanesOf_o32 ha, Pump.lanesOf_o32 hb,
    Pump.lanesOf_o32 hc, List.zip_map', List.map_map, flags_zero_or]
  exact congrArg (fun r => Host.Outcome.next (s.giveAtom s.cur qd .o32 r)) (storeNums_o32 _)

/-! ### Conversions and scaling of FP32 lanes (R161, R167) -/

theorem convertAtom_o32 {F : Fmt} {h : Lane → Nat × Flags} {w : Nat} (ha : (s.pump s.cur).tag qa = .o32)
    (hF : ∀ l : Nat → Lane, storeAtom F ((List.range 4).map l) = laneAtom w fun j => h (l j)) :
    s.convertAtom F qd qa = s.giveAtom s.cur qd F (laneAtom w fun j => h (.num ((s.pump s.cur).laneNum qa j))) := by
  have hdom : (decide (F = .oi) && decide ((s.pump s.cur).tag qa = .oi)) = false := by simp [ha]
  simp only [State.convertAtom, hdom, Bool.false_eq_true, if_false, Pump.lanesOf_o32 ha, storeNums_map, hF, flags_zero_or]

theorem exec_acvt_o16 (ha : (s.pump s.cur).tag qa = .o32) : exec (.acvt .o16 qd qa) s =
    .next (s.giveAtom s.cur qd .o16 (laneAtom 16 fun j => ((s.pump s.cur).laneNum qa j).round bf16 false)) :=
  congrArg Host.Outcome.next (convertAtom_o32 (h := Lane.round bf16) ha storeAtom_o16)

theorem exec_acvt_oi (ha : (s.pump s.cur).tag qa = .o32) : exec (.acvt .oi qd qa) s =
    .next (s.giveAtom s.cur qd .oi (laneAtom 32 fun j => Lane.toInt32 (.num ((s.pump s.cur).laneNum qa j)))) :=
  congrArg Host.Outcome.next (convertAtom_o32 (h := Lane.toInt32) ha storeAtom_oi)

theorem exec_ascl_o32 {ga : Reg} (hf : f = none ∨ f = some .o32) (ha : (s.pump s.cur).tag qa = .o32) :
    exec (.ascl f qd qa ga) s = .next (s.giveAtom s.cur qd .o32 (laneAtom 32 fun j =>
      (((s.pump s.cur).laneNum qa j).scale (max (-1000) (min 1000 ((s.pump s.cur).read ga).toInt))).round f32 false)) := by
  show execAscl f qd qa ga s = _
  simp only [execAscl, fmtOr_eq hf ha, Pump.lanesOf_o32 ha, List.map_map, Function.comp_def, storeNums_map, storeAtom_o32,
    flags_zero_or]
  rfl

end

theorem toInt_of_emod {n : Int} (hlo : -2 ^ 31 ≤ n) (hhi : n ≤ 2 ^ 31 - 1) {v : BitVec 32} (hv : v.toNat = (n % 2 ^ 32).toNat) :
    v.toInt = n := by
  rw [BitVec.toInt_eq_toNat_cond, hv]
  split <;> omega

theorem toInt32_num_lt (x : Num) : (Lane.toInt32 (.num x)).1 < 2 ^ 32 := by
  show ((toIntRange false (-2 ^ 31) (2 ^ 31 - 1) x).1 % 2 ^ 32).toNat < 2 ^ 32
  omega

/-- A finite lane stored as INT32 is rounded once and kept to the range. -/
theorem toInt32_fin {x : Num} (hfin : numFin x = true) {v : BitVec 32} (hv : v.toNat = (Lane.toInt32 (.num x)).1) :
    ∃ m : ℤ, RoundedInt false (numRat x) m ∧ v.toInt = max (-2 ^ 31) (min (2 ^ 31 - 1) m) ∧
      (Lane.toInt32 (.num x)).2 = if m < -2 ^ 31 ∨ 2 ^ 31 - 1 < m then 0x10 else if (m : ℚ) = numRat x then 0 else 0x01 := by
  obtain ⟨n, m, e, rfl⟩ := Num.exists_fin hfin
  obtain ⟨hround, hexact⟩ := toInteger_spec false n m e
  have hv' : v.toNat = ((toIntRange false (-2 ^ 31) (2 ^ 31 - 1) (.fin n m e)).1 % 2 ^ 32).toNat := hv
  have hfl : (Lane.toInt32 (.num (.fin n m e))).2 = (toIntRange false (-2 ^ 31) (2 ^ 31 - 1) (.fin n m e)).2 := rfl
  refine ⟨_, hround, ?_⟩
  rw [hfl]
  simp only [toIntRange] at hv' ⊢
  split at hv'
  next hlo => exact ⟨by rw [toInt_of_emod (by decide) (by decide) hv']; omega, by rw [if_pos hlo, if_pos (.inl hlo)]; rfl⟩
  next hlo =>
    split at hv'
    next hhi =>
      exact ⟨by rw [toInt_of_emod (by decide) (by decide) hv']; omega, by rw [if_neg hlo, if_pos hhi, if_pos (.inr hhi)]; rfl⟩
    next hhi =>
      refine ⟨by rw [toInt_of_emod (by omega) (by omega) hv']; omega, ?_⟩
      rw [if_neg hlo, if_neg hhi, if_neg (by omega)]
      by_cases heq : ((toInteger false n m e).1 : ℚ) = numRat (.fin n m e)
      · have hin : (toInteger false n m e).2 = false := by simpa using hexact.not.mpr (not_not.mpr heq)
        rw [if_pos heq, hin]
        rfl
      · rw [if_neg heq, hexact.mpr heq]
        rfl

/-! ### DOT of FP32 lanes (R157, R166) -/

/-- The products of two rows of finite lanes. -/
theorem mulLane_rows_fin {x y : Nat → Num} (hx : ∀ j < 4, numFin (x j) = true) (hy : ∀ j < 4, numFin (y j) = true) :
    ∀ v ∈ (List.range 4).map fun j => (mulLane (x j) (y j)).1, numFin v = true := by
  refine List.forall_mem_map.mpr fun j hj => ?_
  have hj4 := List.mem_range.mp hj
  exact (mulLane_fin (hx j hj4) (hy j hj4)).1

theorem sum_mulLane_rows {x y : Nat → Num} (hx : ∀ j < 4, numFin (x j) = true) (hy : ∀ j < 4, numFin (y j) = true) :
    (((List.range 4).map fun j => (mulLane (x j) (y j)).1).map numRat).sum =
      numRat (x 0) * numRat (y 0) + numRat (x 1) * numRat (y 1) + numRat (x 2) * numRat (y 2) + numRat (x 3) * numRat (y 3) := by
  have hval (j : Nat) (hj : j < 4) := (mulLane_fin (hx j hj) (hy j hj)).2.1
  simp only [List.range_succ, List.range_zero, List.nil_append, List.cons_append, List.map_cons, List.map_nil, List.sum_cons,
    List.sum_nil, hval 0 (by decide), hval 1 (by decide), hval 2 (by decide), hval 3 (by decide)]
  ring

/-- DOT of finite lanes is the exact sum of their products, rounded once. -/
theorem dotAtoms_open {x y : Nat → Num} (hx : ∀ j < 4, numFin (x j) = true) (hy : ∀ j < 4, numFin (y j) = true) :
    dotAtoms (.open_ ((List.range 4).map x)) (.open_ ((List.range 4).map y)) =
      (sumNums ((List.range 4).map fun j => (mulLane (x j) (y j)).1)).1.round f32 false := by
  have hfl (j : Nat) (hj : j < 4) := (mulLane_fin (hx j hj) (hy j hj)).2.2
  have hflags : orFlags ((List.range 4).map fun j => (mulLane (x j) (y j)).2) = 0 := by
    rw [orFlags_range4, hfl 0 (by decide), hfl 1 (by decide), hfl 2 (by decide), hfl 3 (by decide)]
    decide
  have hsig : ((List.range 4).map x ++ (List.range 4).map y).any Num.sig = false := by
    refine List.any_eq_false.mpr fun v hv => ?_
    rw [Bool.not_eq_true]
    refine Num.sig_eq_false (Num.isNan_of_numFin ?_)
    rcases List.mem_append.mp hv with h | h
    · obtain ⟨j, hj, rfl⟩ := List.mem_map.mp h
      exact hx j (List.mem_range.mp hj)
    · obtain ⟨j, hj, rfl⟩ := List.mem_map.mp h
      exact hy j (List.mem_range.mp hj)
  obtain ⟨-, -, hsum⟩ := sumNums_fin (mulLane_rows_fin hx hy)
  simp only [dotAtoms, List.zip_map', List.map_map, Function.comp_def, hflags, hsig, hsum, flagIf, Bool.false_eq_true, if_false,
    flags_zero_or]

theorem dotArg_o32 {p : Pump} {q : BitVec 4} (h : p.tag q = .o32) :
    dotArg (p.tag q) (p.atom q) 0 = .open_ ((List.range 4).map (p.laneNum q)) := by
  have hl := Pump.lanesOf_o32 h
  rw [Pump.lanesOf, h] at hl
  rw [h, dotArg, if_neg (by decide), hl]

/-- `adot` of two atoms of finite FP32 lanes. -/
theorem dotAtoms_o32 {p : Pump} {qa qb : BitVec 4} (ha : p.tag qa = .o32) (hb : p.tag qb = .o32)
    (hfin : ∀ j < 4, numFin (p.laneNum qa j) = true ∧ numFin (p.laneNum qb j) = true) :
    let r := dotAtoms (dotArg (p.tag qa) (p.atom qa) 0) (dotArg (p.tag qb) (p.atom qb) 0)
    let x (j : Nat) : ℚ := numRat (p.laneNum qa j)
    let y (j : Nat) : ℚ := numRat (p.laneNum qb j)
    let dot := x 0 * y 0 + x 1 * y 1 + x 2 * y 2 + x 3 * y 3
    r.1 < 2 ^ 32 ∧ (dot = 0 → r = (0, 0)) ∧ (dot ≠ 0 → Rounded f32 false dot r.1 r.2) := by
  intro r x y dot
  have hx (j : Nat) (hj : j < 4) := (hfin j hj).1
  have hy (j : Nat) (hj : j < 4) := (hfin j hj).2
  have hr : r = (sumNums ((List.range 4).map fun j => (mulLane (p.laneNum qa j) (p.laneNum qb j)).1)).1.round f32 false := by
    simp only [r, dotArg_o32 ha, dotArg_o32 hb]
    exact dotAtoms_open hx hy
  obtain ⟨hzero, hround⟩ := round_sumNums (mulLane_rows_fin hx hy)
  rw [sum_mulLane_rows hx hy, ← hr] at hzero hround
  exact ⟨hr ▸ Num.round_lt sane_f32 false _, hzero, hround⟩

/-! ### Random words (R169) -/

theorem uniformLane_o32 (u : BitVec 32) : uniformLane .o32 u < 2 ^ 32 ∧
    numRat (Num.ofCode f32 (uniformLane .o32 u)) = ((u.toNat / 2 ^ 8 : ℕ) : ℚ) / 2 ^ 24 := by
  have hm : u.toNat / 2 ^ 8 < 2 ^ f32.p := by
    show _ < 2 ^ 24
    omega
  obtain ⟨-, hval, -⟩ := roundTo_of_fits sane_f32 false (e := -24) hm (by decide) (fits_of_le_emax hm (by decide))
  refine ⟨roundTo_lt sane_f32 false false _ _, hval.trans ?_⟩
  rw [numRat_fin, withSign, if_neg Bool.false_ne_true, one_mul]
  rfl

theorem uniformLane_o16 (u : BitVec 32) : uniformLane .o16 u < 2 ^ 16 ∧
    numRat (Num.ofCode bf16 (uniformLane .o16 u)) = ((u.toNat / 2 ^ 24 : ℕ) : ℚ) / 2 ^ 8 := by
  have hm : u.toNat / 2 ^ 24 < 2 ^ bf16.p := by
    show _ < 2 ^ 8
    omega
  obtain ⟨-, hval, -⟩ := roundTo_of_fits sane_bf16 false (e := -8) hm (by decide) (fits_of_le_emax hm (by decide))
  refine ⟨roundTo_lt sane_bf16 false false _ _, hval.trans ?_⟩
  rw [numRat_fin, withSign, if_neg Bool.false_ne_true, one_mul]
  rfl

/-- Lanes of `arnd` set no flag. -/
theorem packLanes_eq_laneAtom (w : Nat) (g : Nat → Nat) :
    (packLanes w ((List.range 4).map g), (0 : Flags)) = laneAtom w fun j => (g j, 0) := by
  simp only [laneAtom, BitVec.or_self]

section
variable (s : State) (qd : BitVec 4) (ga : Reg)

/-- The random word of lane `j` (R169). -/
def Pump.randLane (p : Pump) (ga : Reg) (j : Nat) : BitVec 32 := randw p.seed ((p.read ga).toNat + j)

theorem exec_arnd_unif_o32 : exec (.arnd .unif .o32 qd ga) s = .next (s.giveAtom s.cur qd .o32
    (laneAtom 32 fun j => (uniformLane .o32 ((s.pump s.cur).randLane ga j), 0))) := by
  rw [← packLanes_eq_laneAtom]
  rfl

theorem exec_arnd_unif_o16 : exec (.arnd .unif .o16 qd ga) s = .next (s.giveAtom s.cur qd .o16
    (laneAtom 16 fun j => (uniformLane .o16 ((s.pump s.cur).randLane ga j), 0))) := by
  rw [← packLanes_eq_laneAtom]
  rfl

theorem exec_arnd_bits_oi : exec (.arnd .bits .oi qd ga) s = .next (s.giveAtom s.cur qd .oi
    (laneAtom 32 fun j => (((s.pump s.cur).randLane ga j).toNat, 0))) := by
  rw [← packLanes_eq_laneAtom]
  rfl

end

end Sys2Proof.Machine

/-! Import of INT elements (R142 to R144, R170). -/

namespace Sys2Proof.Machine

open Sys2Proof

/-! ### Elements (R142) -/

theorem signed_toNat {w : Nat} (v : BitVec (w + 1)) : signed (w + 1) v.toNat = v.toInt := by
  rw [signed, BitVec.toInt_eq_toNat_cond, Nat.add_sub_cancel, pow_succ]
  have : ((2 ^ w * 2 : ℕ) : ℤ) = (2 : ℤ) ^ w * 2 := by push_cast; rfl
  split <;> split <;> omega

/-- Element `i` of the bytes `byte 0`, `byte 1`, …: a byte, or a half of one. -/
def elementAt (int4 : Bool) (byte : Nat → Byte) (i : Nat) : ℤ :=
  if int4 then ((byte (i / 2)).extractLsb' (4 * (i % 2)) 4).toInt else (byte i).toInt

/-- The bytes of four elements hold the elements. -/
theorem elementsOf_bytes (int4 : Bool) (byte : Nat → Byte) :
    elementsOf int4 (leNat ((List.range (elementBytes int4)).map byte)) = (List.range 4).map (elementAt int4 byte) := by
  have hb (i : Nat) : (byte i).toNat < 256 := (byte i).isLt
  refine List.map_congr_left fun i hi => ?_
  have hi4 := List.mem_range.mp hi
  cases int4 with
  | false =>
    have hcode : leNat ((List.range 4).map byte) / 2 ^ (8 * i) % 256 = (byte i).toNat := by
      have := hb 0; have := hb 1; have := hb 2; have := hb 3
      simp only [List.range_succ, List.range_zero, List.nil_append, List.cons_append, List.map_cons, List.map_nil, leNat]
      interval_cases i <;> omega
    simp only [elementInt, elementAt, elementBytes, Bool.false_eq_true, if_false, hcode]
    exact signed_toNat (w := 7) (byte i)
  | true =>
    have hcode : leNat ((List.range 2).map byte) / 2 ^ (4 * i) % 16 = ((byte (i / 2)).extractLsb' (4 * (i % 2)) 4).toNat := by
      have := hb 0; have := hb 1
      rw [toNat_extractLsb']
      simp only [List.range_succ, List.range_zero, List.nil_append, List.cons_append, List.map_cons, List.map_nil, leNat]
      interval_cases i <;> simp only [Nat.reduceDiv, Nat.reduceMod, Nat.reduceMul, Nat.reducePow] <;> omega
    simp only [elementInt, elementAt, elementBytes, if_true, hcode]
    exact signed_toNat (w := 3) _

theorem elementAt_bounds (int4 : Bool) (byte : Nat → Byte) (i : Nat) :
    -128 ≤ elementAt int4 byte i ∧ elementAt int4 byte i ≤ 127 := by
  cases int4 with
  | false =>
    have h1 := (byte i).le_toInt
    have h2 := (byte i).toInt_lt
    simp only [elementAt, Bool.false_eq_true, if_false]
    omega
  | true =>
    have h1 := ((byte (i / 2)).extractLsb' (4 * (i % 2)) 4).le_toInt
    have h2 := ((byte (i / 2)).extractLsb' (4 * (i % 2)) 4).toInt_lt
    simp only [elementAt, if_true]
    omega

/-! ### Group records (R143, R144) -/

/-- The zero point of a record. -/
def recordZp (r : Nat) : ℤ := (BitVec.ofNat 8 (r / 2 ^ 16)).toInt

theorem recordZp_bounds (r : Nat) : -128 ≤ recordZp r ∧ recordZp r ≤ 127 := by
  have h1 := (BitVec.ofNat 8 (r / 2 ^ 16)).le_toInt
  have h2 := (BitVec.ofNat 8 (r / 2 ^ 16)).toInt_lt
  rw [recordZp]
  omega

/-- The zero point that lies in an atom register. -/
theorem recordZp_atom (a : BitVec 128) : recordZp (a.toNat % 2 ^ 32) = (a.extractLsb' 16 8).toInt := by
  rw [recordZp]
  congr 1
  refine BitVec.eq_of_toNat_eq ?_
  rw [BitVec.toNat_ofNat, toNat_extractLsb']
  omega

theorem recordFaulty_iff {int4 : Bool} {r : Nat} (hr : r < 2 ^ 32) : recordFaulty int4 r = true ↔
    numFin (Num.ofCode f16 (r % 2 ^ 16)) = false ∨ 2 ^ 24 ≤ r ∨ int4 = true ∧ (recordZp r < -8 ∨ 7 < recordZp r) := by
  have hhi : r / 2 ^ 24 % 256 ≠ 0 ↔ 2 ^ 24 ≤ r := by omega
  simp only [recordFaulty, Bool.or_eq_true, Bool.and_eq_true, decide_eq_true_eq, hhi, or_assoc, recordZp]
  refine or_congr_left ?_
  cases Num.ofCode f16 (r % 2 ^ 16) <;> simp [numFin]

/-- An element that a sound record imports is scale × (q − z), which FP32 holds. -/
theorem round_importLane {int4 : Bool} {r : Nat} {q : ℤ} (h : recordFaulty int4 r = false)
    (hfin : numFin (Num.ofCode f16 (r % 2 ^ 16)) = true) (hq : -128 ≤ q ∧ q ≤ 127) :
    numFin (Num.ofCode f32 ((importLane int4 r q).round f32 false).1) = true ∧
      numRat (Num.ofCode f32 ((importLane int4 r q).round f32 false).1) = numRat (Num.ofCode f16 (r % 2 ^ 16)) * (q - recordZp r : ℤ) ∧
      ((importLane int4 r q).round f32 false).2 = 0 := by
  have hz := recordZp_bounds r
  obtain ⟨n, m, e, hc⟩ := Num.exists_fin hfin
  obtain ⟨hm, he, hmax⟩ := ofCode_fin_bounds sane_f16 hc
  have hulp : f16.ulpExp = -24 := by decide
  have hbias : f16.bias = 15 := by decide
  have hprec : f16.p = 11 := rfl
  have hbias32 : f32.bias = 127 := by decide
  have hulp32 : f32.ulpExp = -149 := by decide
  have hprec32 : f32.p = 24 := rfl
  rw [hulp] at he
  rw [hbias, hprec] at hmax
  rw [hprec] at hm
  have hval : numRat (.fin n m e) * (q - recordZp r : ℤ) =
      numRat (.fin (n != decide (q - recordZp r < 0)) (m * (q - recordZp r).natAbs) (e + 0)) := by
    rw [numRat_mul, ← Num.int, numRat_int]
  have himport : importLane int4 r q = (Num.fin (n != decide (q - recordZp r < 0)) (m * (q - recordZp r).natAbs) (e + 0)).plusZero := by
    rw [importLane, if_neg (by rw [h]; exact Bool.false_ne_true), hc]
    rfl
  rw [himport, hc, hval]
  have hprod : m * (q - recordZp r).natAbs < 2 ^ f32.p := by
    have hd : (q - recordZp r).natAbs < 2 ^ 8 := by omega
    calc m * (q - recordZp r).natAbs ≤ 2 ^ 11 * 2 ^ 8 := Nat.mul_le_mul hm.le hd.le
      _ < 2 ^ f32.p := by rw [hprec32]; decide
  have hround := roundTo_of_fits sane_f32 (n != decide (q - recordZp r < 0)) (e := e + 0) hprod (by omega)
    (fits_of_le_emax hprod (by omega))
  generalize m * (q - recordZp r).natAbs = k at hround ⊢
  cases k with
  | zero =>
    rw [(numRat_eq_zero _ 0 _).mpr rfl]
    exact ⟨(numRat_zeroCode sane_f32 false).1, (numRat_zeroCode sane_f32 false).2, rfl⟩
  | succ k => exact hround

/-! ### `aimp` (R170) -/

theorem exec_aimp {s : State} {t : IntFmt} {F : Fmt} {qd qa : BitVec 4} {ga : Reg} {pa : Nat}
    (ha : ((s.pump s.cur).read ga).toNat % (if t = .int4 then 2 else 4) = 0)
    (ht : s.translate s.cur ((s.pump s.cur).read ga) .rd = .at pa) (hs : s.lineStop pa ((s.pump s.cur).read ga) = none) :
    let i4 := decide (t = .int4)
    let rc := (s.pump s.cur).q[qa.toFin].val.toNat % 2 ^ 32
    let r := storeNums F ((List.range 4).map fun i => importLane i4 rc (elementAt i4 (fun j => s.viewByte s.cur (pa + j)) i))
    exec (.aimp t F qd qa ga) s = .next ((s.readThrough s.cur false ((s.pump s.cur).read ga) (elementBytes i4)).giveAtom s.cur qd F
      (r.1, flagIf (recordFaulty i4 rc) fNv ||| r.2)) := by
  intro i4 rc r
  have hn : (if t = .int4 then 2 else 4) = elementBytes i4 := by cases t <;> rfl
  have hload : s.loadV s.cur ((s.pump s.cur).read ga) (elementBytes i4) =
      .ok ((List.range (elementBytes i4)).map fun j => s.viewByte s.cur (pa + j)) :=
    State.load_memory s s.cur _ _ pa (hn ▸ ha) ht hs
  have hr : storeNums F ((elementsOf i4 (leNat ((List.range (elementBytes i4)).map fun j => s.viewByte s.cur (pa + j)))).map
      (importLane i4 rc)) = r := by
    rw [elementsOf_bytes, List.map_map]
    rfl
  show execAimp t F qd qa ga s = _
  simp only [execAimp, Pump.atom]
  show s.outcome s.cur _ (s.loadV s.cur ((s.pump s.cur).read ga) (elementBytes i4) >>= _) = _
  rw [hload, ← hr]
  rfl

end Sys2Proof.Machine

/-! The atom instructions on open formats, together (O34). -/

namespace Sys2Proof.Machine

open Sys2Proof

theorem mapIntLane_relu (x : BitVec 32) : mapIntLane .relu x = if x.toInt < 0 then 0 else x := by
  simp [mapIntLane, BitVec.slt]

theorem mapIntLane_abs (x : BitVec 32) : mapIntLane .abs x = if x.toInt < 0 then -x else x := by
  simp [mapIntLane, BitVec.slt]

/-- A NaN lane in a format. -/
theorem round_of_nan (F : FloatFmt) {x : Num} (h : x.isNan = true) : x.round F false = (F.nanCode, if x.sig then 0x10 else 0) := by
  obtain ⟨s, rfl⟩ := Num.exists_nan h
  rfl

theorem toInt32_of_nan {x : Num} (h : x.isNan = true) : Lane.toInt32 (.num x) = (0, 0x10) := by
  obtain ⟨s, rfl⟩ := Num.exists_nan h
  rfl

/-- Import by a faulty record (R144). -/
theorem round_importLane_faulty {int4 : Bool} {r : Nat} (h : recordFaulty int4 r = true) (q : ℤ) :
    (importLane int4 r q).round f32 false = (0x7FC0_0000, 0) := by
  rw [importLane, if_pos h]
  rfl

/-- `aimp` into O32 (R144, R170). -/
theorem aimp_o32 {s : State} {t4 : IntFmt} {qd qa : BitVec 4} {ga : Reg} {pa : Nat}
    (ha : ((s.pump s.cur).read ga).toNat % (if t4 = .int4 then 2 else 4) = 0)
    (ht : s.translate s.cur ((s.pump s.cur).read ga) .rd = .at pa) (hs : s.lineStop pa ((s.pump s.cur).read ga) = none) :
    let i4 := decide (t4 = .int4)
    let rc := (s.pump s.cur).q[qa.toFin].val.toNat % 2 ^ 32
    let lane (v : BitVec 128) (j : Nat) : BitVec 32 := v.extractLsb' (32 * j) 32
    ∃ t v fl, exec (.aimp t4 .o32 qd qa ga) s = .next t ∧ ReadsAtom s t qd .o32 v fl ∧
      (recordFaulty i4 rc = true → fl = 0x10 ∧ ∀ j < 4, lane v j = 0x7FC0_0000) ∧
      (recordFaulty i4 rc = false → fl = 0 ∧ ∀ j < 4, numFin (Num.ofCode f32 (lane v j).toNat) = true ∧
        numRat (Num.ofCode f32 (lane v j).toNat) =
          numRat (Num.ofCode f16 (rc % 2 ^ 16)) * (elementAt i4 (fun i => s.viewByte s.cur (pa + i)) j - recordZp rc : ℤ)) := by
  intro i4 rc lane
  let x (j : Nat) : Num := importLane i4 rc (elementAt i4 (fun i => s.viewByte s.cur (pa + i)) j)
  have hstore : storeNums .o32 ((List.range 4).map x) = laneAtom 32 fun j => (x j).round f32 false := by
    rw [storeNums_map, storeAtom_o32]
    rfl
  have hlane {j : Nat} (hj : j < 4) : (lane (BitVec.ofNat 128 (storeNums .o32 ((List.range 4).map x)).1) j).toNat =
      ((x j).round f32 false).1 := by
    rw [hstore]
    exact laneAtom_lane (le_refl 32) (fun j => Num.round_lt sane_f32 false (x j)) hj
  refine ⟨_, _, _, exec_aimp ha ht hs, readsAtom_giveAtom .., fun hf => ⟨?_, fun j hj => BitVec.eq_of_toNat_eq ?_⟩,
    fun hf => ⟨?_, fun j hj => ?_⟩⟩
  · show flagIf (recordFaulty i4 rc) fNv ||| (storeNums .o32 ((List.range 4).map x)).2 = 0x10
    rw [hstore, hf]
    simp only [laneAtom, x, round_importLane_faulty hf]
    decide
  · exact (hlane hj).trans (congrArg Prod.fst (round_importLane_faulty hf _))
  · have hfin : numFin (Num.ofCode f16 (rc % 2 ^ 16)) = true := by
      by_contra hfin
      rw [(recordFaulty_iff (Nat.mod_lt _ (by decide))).mpr (.inl (Bool.eq_false_iff.mpr hfin))] at hf
      exact absurd hf.symm Bool.false_ne_true
    have hfl (j : Nat) : ((x j).round f32 false).2 = 0 := (round_importLane hf hfin (elementAt_bounds ..)).2.2
    show flagIf (recordFaulty i4 rc) fNv ||| (storeNums .o32 ((List.range 4).map x)).2 = 0
    rw [hstore, hf]
    simp only [laneAtom, hfl]
    decide
  · have hfin : numFin (Num.ofCode f16 (rc % 2 ^ 16)) = true := by
      by_contra hfin
      rw [(recordFaulty_iff (Nat.mod_lt _ (by decide))).mpr (.inl (Bool.eq_false_iff.mpr hfin))] at hf
      exact absurd hf.symm Bool.false_ne_true
    obtain ⟨h1, h2, -⟩ := round_importLane (q := elementAt i4 (fun i => s.viewByte s.cur (pa + i)) j) hf hfin (elementAt_bounds ..)
    have hl := hlane hj
    rw [← hl] at h1 h2
    exact ⟨h1, h2⟩

end Sys2Proof.Machine

namespace Sys2Proof

open Machine

/-- Settles O34: each instruction writes an atom of four lanes, whose codes and flags the lemmas above read as integers, as the
results of the scalar forms, and as numbers rounded once. -/
theorem openFormatLanesCompute : Obligations.OpenFormatLanesCompute := by
  refine ⟨?integers, ?floats, ?conversions⟩
  case integers =>
    intro s f qd qa qb qc ga p lane a b c gives hf ha hb hc
    have hrelu := exec_amap_oi (qd := qd) (fn := .relu) rfl hf ha
    have habs := exec_amap_oi (qd := qd) (fn := .abs) rfl hf ha
    simp only [mapIntLane_relu, mapIntLane_abs] at hrelu habs
    refine ⟨givesAtom_of_words (exec_aadd_oi hf ha hb), givesAtom_of_words (exec_asub_oi hf ha hb),
      givesAtom_of_words (exec_amul_oi hf ha hb), givesAtom_of_words (exec_afma_oi hf ha hb hc), givesAtom_of_words hrelu,
      givesAtom_of_words habs, givesAtom_of_words (exec_amap_oi rfl hf ha), givesAtom_of_words (exec_amsk_oi hf ha),
      ⟨_, _, _, exec_acmp_oi compare_int_lt ha hb, gives_giveFloat s ga _, rfl, fun j hj => ?lt⟩,
      ⟨_, _, _, exec_acmp_oi compare_int_eq ha hb, gives_giveFloat s ga _, rfl, fun j hj => ?eq⟩⟩
    case lt =>
      rw [getLsbD_laneMask _ hj]
      simp only [decide_eq_true_eq]
      rfl
    case eq =>
      rw [getLsbD_laneMask _ hj]
      simp only [decide_eq_true_eq, BitVec.toInt_inj]
      rfl
  case floats =>
    intro s f qd qa qb qc p code num a b c gives hf ha hb hc
    have hadd := givesAtom_of_lanes (exec_aadd_o32 (qd := qd) hf ha hb) (le_refl 32) fun j => addNum_lt sane_f32 _ _
    have hsub := givesAtom_of_lanes (exec_asub_o32 (qd := qd) hf ha hb) (le_refl 32) fun j => addNum_lt sane_f32 _ _
    have hmul := givesAtom_of_lanes (exec_amul_o32 (qd := qd) hf ha hb) (le_refl 32) fun j => mulNum_lt sane_f32 _ _
    have hfma := givesAtom_of_lanes (exec_afma_o32 (qd := qd) hf ha hb hc) (le_refl 32) fun j => fmaNum_lt sane_f32 _ _ _
    exact ⟨hadd, hsub, hmul, hfma⟩
  case conversions =>
    intro s f t4 qd qa qb ga pa p a lane half num x y dot u gives rc zp n byte element faulty
    refine ⟨fun ha => ⟨?o16, ?oi, fun hf => ?scaled, fun hb hfin => ?dot⟩, ?unif32, ?unif16, ?bits, fun hal ht hs => ?imported⟩
    case o16 =>
      obtain ⟨t, v, ht, hv, hl⟩ := givesAtom_of_lanes (exec_acvt_o16 (qd := qd) ha) (by decide)
        fun j => Num.round_lt sane_bf16 false _
      refine ⟨t, v, fun j => ((num a.val j).round bf16 false).2, ht, hv, fun j hj => ⟨fun hnan => ?_, fun hfin h0 => ?_⟩⟩
      · have hr := round_of_nan bf16 hnan
        exact ⟨BitVec.eq_of_toNat_eq ((hl j hj).trans (congrArg Prod.fst hr)), congrArg Prod.snd hr⟩
      · have hcode : (half v j).toNat = ((num a.val j).round bf16 false).1 := hl j hj
        rw [hcode]
        exact Num.round_rounded sane_bf16 false hfin h0
    case oi =>
      obtain ⟨t, v, ht, hv, hl⟩ := givesAtom_of_lanes (exec_acvt_oi (qd := qd) ha) (le_refl 32) fun j => toInt32_num_lt _
      refine ⟨t, v, fun j => (Lane.toInt32 (.num (num a.val j))).2, ht, hv,
        fun j hj => ⟨fun hnan => ?_, fun hfin => toInt32_fin hfin (hl j hj)⟩⟩
      have hr := toInt32_of_nan hnan
      exact ⟨BitVec.eq_of_toNat_eq ((hl j hj).trans (congrArg Prod.fst hr)), congrArg Prod.snd hr⟩
    case scaled =>
      obtain ⟨t, v, ht, hv, hl⟩ := givesAtom_of_lanes (exec_ascl_o32 (qd := qd) (ga := ga) hf ha) (le_refl 32)
        fun j => Num.round_lt sane_f32 false _
      let r (j : Nat) := ((num a.val j).scale (max (-1000) (min 1000 (p.read ga).toInt))).round f32 false
      refine ⟨t, v, fun j => (r j).2, ht, hv, fun j hj hfin h0 => ?_⟩
      have hcode : (lane v j).toNat = (r j).1 := hl j hj
      rw [hcode]
      exact round_scale hfin h0 _
    case dot =>
      obtain ⟨hlt, hzero, hround⟩ := dotAtoms_o32 ha hb hfin
      refine computesFlags_of rfl (hlt.trans (by decide)) fun v hv => ⟨fun h => ?_, fun h => ?_⟩
      · have hr := hzero h
        rw [hr] at hv ⊢
        exact ⟨BitVec.eq_of_toNat_eq hv, rfl⟩
      · rw [hv]
        exact hround h
    case unif32 =>
      obtain ⟨t, v, ht, hv, hl⟩ := givesAtom_of_lanes (exec_arnd_unif_o32 s qd ga) (le_refl 32) fun j => (uniformLane_o32 _).1
      refine ⟨t, v, fun _ => 0, ht, hv, fun j hj => ⟨rfl, ?_⟩⟩
      have hcode : (lane v j).toNat = uniformLane .o32 (u j) := hl j hj
      show numRat (Num.ofCode f32 (lane v j).toNat) = _
      rw [hcode]
      exact (uniformLane_o32 (u j)).2
    case unif16 =>
      obtain ⟨t, v, ht, hv, hl⟩ := givesAtom_of_lanes (exec_arnd_unif_o16 s qd ga) (by decide) fun j => (uniformLane_o16 _).1
      refine ⟨t, v, fun _ => 0, ht, hv, fun j hj => ⟨rfl, ?_⟩⟩
      have hcode : (half v j).toNat = uniformLane .o16 (u j) := hl j hj
      rw [hcode]
      exact (uniformLane_o16 (u j)).2
    case bits =>
      obtain ⟨t, v, ht, hv, hl⟩ := givesAtom_of_lanes (exec_arnd_bits_oi s qd ga) (le_refl 32) fun j => BitVec.isLt _
      exact ⟨t, v, fun _ => 0, ht, hv, fun j hj => ⟨rfl, BitVec.eq_of_toNat_eq (hl j hj)⟩⟩
    case imported =>
      obtain ⟨t, v, fl, hexec, hreads, hbad, hgood⟩ := aimp_o32 hal ht hs (qd := qd) (qa := qa)
      have hrec := recordFaulty_iff (int4 := decide (t4 = .int4)) (show rc < 2 ^ 32 from Nat.mod_lt _ (by decide))
      have hzp : recordZp rc = zp := recordZp_atom a.val
      rw [hzp, decide_eq_true_iff] at hrec
      refine ⟨t, v, fl, hexec, hreads, fun hf => hbad (hrec.mpr hf), fun hf => ?_⟩
      have hsound : recordFaulty (decide (t4 = .int4)) rc = false := Bool.eq_false_iff.mpr fun h => hf (hrec.mp h)
      obtain ⟨hfl, hlanes⟩ := hgood hsound
      refine ⟨hfl, fun j hj => ?_⟩
      have helement : elementAt (decide (t4 = .int4)) (fun i => s.viewByte s.cur (pa + i)) j = element j := by
        simp only [elementAt, decide_eq_true_eq]
        rfl
      rw [← helement, ← hzp]
      exact hlanes j hj

end Sys2Proof

/-! The atom instructions in every format (R152, R160 to R171): what they write, and what they leave alone. -/

namespace Sys2Proof.Machine

open Sys2Proof

/-! ### Each atom instruction writes one atom -/

section
variable (s : State) (f : Option Fmt) (F : Fmt) (qd qa qb qc : BitVec 4) (ga : Reg)

theorem lanewise_eq_giveAtom (int : BitVec 32 → BitVec 32 → BitVec 32) (num : Num → Num → Num × Flags) :
    ∃ r, s.lanewise f qd qa qb int num = s.giveAtom s.cur qd ((s.pump s.cur).fmtOr f qa) r := by
  simp only [State.lanewise]
  split
  · exact ⟨_, rfl⟩
  · exact ⟨_, rfl⟩

theorem convertAtom_eq_giveAtom : ∃ r, s.convertAtom F qd qa = s.giveAtom s.cur qd F r := by
  simp only [State.convertAtom]
  split
  next h =>
    simp only [Bool.and_eq_true, decide_eq_true_eq] at h
    exact ⟨_, by rw [h.1]⟩
  · exact ⟨_, rfl⟩

theorem exec_afma_eq_giveAtom : ∃ r, exec (.afma f qd qa qb qc) s = .next (s.giveAtom s.cur qd ((s.pump s.cur).fmtOr f qa) r) := by
  show ∃ r, execAfma f qd qa qb qc s = _
  simp only [execAfma]
  split
  · exact ⟨_, rfl⟩
  · exact ⟨_, rfl⟩

theorem exec_amap_eq_giveAtom (fn : MapFn) :
    ∃ r, exec (.amap fn f qd qa) s = .next (s.giveAtom s.cur qd ((s.pump s.cur).fmtOr f qa) r) := by
  show ∃ r, execAmap fn f qd qa s = _
  simp only [execAmap]
  split
  · exact ⟨_, rfl⟩
  · exact ⟨_, rfl⟩

theorem exec_amsk_eq_giveAtom : ∃ r, exec (.amsk f qd qa ga) s = .next (s.giveAtom s.cur qd ((s.pump s.cur).fmtOr f qa) r) := by
  show ∃ r, execAmsk f qd qa ga s = _
  simp only [execAmsk]
  split
  · exact ⟨_, rfl⟩
  · exact ⟨_, rfl⟩

theorem exec_apat_eq_giveAtom : ∃ r, exec (.apat qd qa) s = .next (s.giveAtom s.cur qd .oi r) := by
  show ∃ r, execApat qd qa s = _
  simp only [execApat]
  split
  · exact ⟨_, rfl⟩
  · exact ⟨_, rfl⟩

theorem exec_again_eq_giveFloat : ∃ r, exec (.again ga qa) s = .next (s.giveFloat s.cur ga r) := by
  show ∃ r, execAgain ga qa s = _
  simp only [execAgain]
  split
  · exact ⟨_, rfl⟩
  · exact ⟨_, rfl⟩

theorem exec_aidx_eq_giveFloat : ∃ r, exec (.aidx ga qa) s = .next (s.giveFloat s.cur ga r) := by
  show ∃ r, execAidx ga qa s = _
  simp only [execAidx]
  split
  · exact ⟨_, rfl⟩
  · exact ⟨_, rfl⟩

end

/-- An instruction that writes an atom completes, and writes nothing else (R160). -/
theorem givesAtom_of_exec {i : Instr} {s : State} {qd : BitVec 4} {F : Fmt} (h : ∃ r, exec i s = .next (s.giveAtom s.cur qd F r)) :
    ∃ t v fl, exec i s = .next t ∧ GivesAtom s t qd F v fl := by
  obtain ⟨r, hr⟩ := h
  exact ⟨_, _, _, hr, givesAtom_giveAtom s qd F r⟩

theorem computesFlags_of_exec {i : Instr} {s : State} {d : Reg} (h : ∃ r, exec i s = .next (s.giveFloat s.cur d r)) :
    ComputesFlags i s d fun _ _ => True := by
  obtain ⟨r, hr⟩ := h
  exact ⟨_, _, _, hr, gives_giveFloat s d r, trivial⟩

/-! ### Lane masks (R165) -/

theorem length_unrankFrom (n k i : Nat) : (unrankFrom n k i).length = n := by
  induction n generalizing k i with
  | zero => rfl
  | succ n ih => exact congrArg (· + 1) (ih _ _)

theorem length_decodeAtom (F : Fmt) (a : Nat) (e : Int) : (decodeAtom F a e).1.length = 4 := by
  have hp {p : List Int} {gc : Nat} (h : checkCoded F a e = .ok p gc) : p.length = 4 := by
    simp only [checkCoded] at h
    split_ifs at h <;> cases h <;> exact length_unrankFrom ..
  simp only [decodeAtom]
  split
  next h => rfl
  next p gc h => rw [List.length_map, hp h]

theorem length_lanes (F : Fmt) (a : Nat) (e : Int) : (lanes F a e).1.length = 4 := by
  cases F with
  | c4 => exact length_decodeAtom ..
  | c16 => exact length_decodeAtom ..
  | _ => rfl

theorem packLanes_one_lt {b : List Bool} (h : b.length = 4) : packLanes 1 (b.map fun x => if x then 1 else 0) < 16 := by
  have hbits : ∀ x ∈ b.map (fun x => if x then 1 else 0), x < 2 ^ 1 := by
    refine List.forall_mem_map.mpr fun x _ => ?_
    split <;> decide
  have := packLanes_lt 1 hbits
  rwa [List.length_map, h] at this

theorem acmp_mask_lt (cond : Cond) (s : State) (ga : Reg) (qa qb : BitVec 4) :
    ComputesFlags (.acmp cond ga qa qb) s ga fun v _ => v.toNat < 16 := by
  let bits := (((s.pump s.cur).lanesOf qa).1.zip ((s.pump s.cur).lanesOf qb).1).map fun x => (compare cond x.1 x.2).1
  have hlt : packLanes 1 (bits.map fun x => if x then 1 else 0) < 16 := by
    refine packLanes_one_lt ?_
    rw [List.length_map, List.length_zip, Pump.lanesOf, Pump.lanesOf, length_lanes, length_lanes, min_self]
  obtain ⟨fl, hexec⟩ : ∃ fl, exec (.acmp cond ga qa qb) s =
      .next (s.giveFloat s.cur ga (packLanes 1 (bits.map fun x => if x then 1 else 0), fl)) := by
    refine ⟨((s.pump s.cur).lanesOf qa).2 ||| ((s.pump s.cur).lanesOf qb).2 |||
      orFlags ((((s.pump s.cur).lanesOf qa).1.zip ((s.pump s.cur).lanesOf qb).1).map fun x => (compare cond x.1 x.2).2), ?_⟩
    show execAcmp cond ga qa qb s = _
    simp only [execAcmp, bits, List.map_map]
    rfl
  refine computesFlags_of hexec (hlt.trans (by decide)) fun v hv => ?_
  rw [hv]
  exact hlt

/-! ### Stores of the pump (R170, R262) -/

/-- A write under way is seen by its core alone, before every other value. -/
theorem viewByte_issueWrite (s : State) (c d : CoreId) (pa a : Nat) (bytes : List Byte) (raw : Bool) (va : Word) :
    (s.issueWrite c pa bytes raw va).viewByte d a =
      if c = d ∧ pa ≤ a ∧ a < pa + bytes.length then bytes.getD (a - pa) 0 else s.viewByte d a := by
  have hview (w : Pending) (h : w.core = c) (hp : w.pa = pa) (hb : w.bytes = bytes) :
      State.viewByte { s with pending := s.pending ++ [w] } d a =
        if c = d ∧ pa ≤ a ∧ a < pa + bytes.length then bytes.getD (a - pa) 0 else s.viewByte d a := by
    have hstale : State.staleByte { s with pending := s.pending ++ [w] } = s.staleByte := rfl
    simp only [State.viewByte, List.reverse_append, List.reverse_singleton, List.singleton_append, List.filter_cons, h, hstale,
      decide_eq_true_eq]
    by_cases hc : c = d
    · rw [if_pos hc, List.findSome?_cons, Pending.byteAt, hp, hb]
      by_cases hle : pa ≤ a
      · rw [if_pos hle]
        by_cases hlt : a < pa + bytes.length
        · have hget : a - pa < bytes.length := by omega
          rw [if_pos ⟨hc, hle, hlt⟩, List.getElem?_eq_getElem hget, List.getD_eq_getElem _ _ hget]
        · rw [if_neg fun h => hlt h.2.2, List.getElem?_eq_none (by omega)]
      · rw [if_neg hle, if_neg fun h => hle h.2.1]
    · rw [if_neg hc, if_neg fun h => hc h.1]
  exact hview _ rfl rfl rfl

theorem getD_toLE (n v : Nat) {j : Nat} (hj : j < n) : (toLE n v).getD j 0 = BitVec.ofNat 8 (v / 2 ^ (8 * j) % 2 ^ 8) := by
  induction n generalizing v j with
  | zero => omega
  | succ n ih =>
    cases j with
    | zero => simp [toLE]
    | succ j =>
      rw [toLE, List.getD_cons_succ, ih _ (by omega), Nat.div_div_eq_div_mul, Nat.mul_succ, Nat.add_comm (8 * j), pow_add]
      rfl

/-- An aligned store of fewer than 16 bytes waits to be performed (R295, R296). -/
theorem storeV_eq_issueWrite {s : State} {c : CoreId} {ea : Word} {pa : Nat} {bytes : List Byte} (hlen : bytes.length ≠ 16)
    (ha : ea.toNat % bytes.length = 0) (ht : s.translate c ea .wr = .at pa) :
    s.storeV c ea bytes = .ok (s.issueWrite c pa bytes false ea) := by
  have hpa : s.paOf c ea .wr = .ok pa := by rw [State.paOf, ht]
  simp only [State.storeV, if_neg (not_not.mpr ha), hpa]
  show (if bytes.length = 16 then _ else _) = _
  rw [if_neg hlen]
  rfl

/-! ### `aexp` (R145, R170) -/

section
variable (int4 : Bool) (p : Pump) (qa qb : BitVec 4)

/-- The exported lanes of `aexp` with their flags. -/
def exportLanes : List (Int × Flags) := (p.lanesOf qa).1.map (exportLane int4 (p.atom qb % 2 ^ 32))

/-- The bytes that `aexp` stores. -/
def exportBytes : List Byte :=
  toLE (elementBytes int4) (packLanes (if int4 then 4 else 8) ((exportLanes int4 p qa qb).map fun q => elementCode int4 q.1))

/-- The flags that `aexp` raises. -/
def exportFlags : Flags := (p.lanesOf qa).2 ||| orFlags ((exportLanes int4 p qa qb).map (·.2))

theorem length_exportBytes : (exportBytes int4 p qa qb).length = elementBytes int4 := length_toLE _ _

theorem ofNat_elementCode (v : Int) : BitVec.ofNat 8 (elementCode false v) = BitVec.ofInt 8 v := by
  refine BitVec.eq_of_toNat_eq ?_
  rw [BitVec.toNat_ofNat, BitVec.toNat_ofInt, elementCode, if_neg Bool.false_ne_true]
  show (v % 256).toNat % 256 = (v % 256).toNat
  omega

variable {p qa}

/-- A byte that `aexp.int8` stores of FP32 lanes. -/
theorem getD_exportBytes (ha : p.tag qa = .o32) {j : Nat} (hj : j < 4) : (exportBytes false p qa qb).getD j 0 =
    BitVec.ofInt 8 (exportLane false (p.atom qb % 2 ^ 32) (p.laneNum qa j)).1 := by
  have hcodes : (exportLanes false p qa qb).map (fun q => elementCode false q.1) =
      (List.range 4).map fun j => elementCode false (exportLane false (p.atom qb % 2 ^ 32) (p.laneNum qa j)).1 := by
    rw [exportLanes, Pump.lanesOf_o32 ha, List.map_map, List.map_map]
    rfl
  have hlt : ∀ x ∈ (exportLanes false p qa qb).map (fun q => elementCode false q.1), x < 2 ^ 8 := by
    refine List.forall_mem_map.mpr fun q _ => ?_
    rw [elementCode, if_neg Bool.false_ne_true]
    omega
  have hbytes : exportBytes false p qa qb = toLE 4 (packLanes 8 ((exportLanes false p qa qb).map fun q => elementCode false q.1)) := rfl
  rw [hbytes, getD_toLE 4 _ hj, packLanes_div_mod 8 hlt, hcodes, List.getD_eq_getElem _ _ (by simpa using hj), List.getElem_map,
    List.getElem_range, ofNat_elementCode]

end

/-- `aexp` issues one store, raises its flags and goes on. -/
theorem exec_aexp {s : State} {t4 : IntFmt} {qa qb : BitVec 4} {ga : Reg} {pa : Nat}
    (ha : ((s.pump s.cur).read ga).toNat % (if t4 = .int4 then 2 else 4) = 0)
    (ht : s.translate s.cur ((s.pump s.cur).read ga) .wr = .at pa) :
    exec (.aexp t4 qa qb ga) s = .next (((s.issueWrite s.cur pa (exportBytes (decide (t4 = .int4)) (s.pump s.cur) qa qb) false
      ((s.pump s.cur).read ga)).modPump s.cur
        fun p => p.raise (exportFlags (decide (t4 = .int4)) (s.pump s.cur) qa qb)).goOn s.cur) := by
  have hn : (exportBytes (decide (t4 = .int4)) (s.pump s.cur) qa qb).length = if t4 = .int4 then 2 else 4 := by
    rw [length_exportBytes]
    cases t4 <;> rfl
  have hstore := storeV_eq_issueWrite (bytes := exportBytes (decide (t4 = .int4)) (s.pump s.cur) qa qb)
    (by rw [hn]; split <;> decide) (hn ▸ ha) ht
  simp only [exportBytes, exportLanes, decide_eq_true_eq] at hstore
  simp only [exec, execAexp]
  rw [hstore]
  simp only [exportBytes, exportFlags, exportLanes, decide_eq_true_eq]
  rfl

/-! ### The coded results of NaNs and of zeros (R131, R154) -/

/-- The FP32 lanes of STORE in a coded format. -/
def roundedLanes (h : Nat → Lane) : List Num := (List.range 4).map fun j => Num.ofCode f32 ((h j).round f32).1

theorem storeAtom_coded {G : Fmt} (hG : G = .c4 ∨ G = .c16) (h : Nat → Lane) : storeAtom G ((List.range 4).map h) =
    ((encodeAtom G (roundedLanes h)).1,
      orFlags ((List.range 4).map fun j => ((h j).round f32).2) ||| (encodeAtom G (roundedLanes h)).2) := by
  rcases hG with rfl | rfl
  · simp only [storeAtom, List.map_map]
    rfl
  · simp only [storeAtom, List.map_map]
    rfl

theorem exec_aenc_o32 {s : State} {G : Fmt} {qd qa : BitVec 4} (hG : G = .c4 ∨ G = .c16) (ha : (s.pump s.cur).tag qa = .o32) :
    exec (.aenc G qd qa) s = .next (s.giveAtom s.cur qd G
      ((encodeAtom G (roundedLanes fun j => .num ((s.pump s.cur).laneNum qa j))).1,
        orFlags ((List.range 4).map fun j => (((s.pump s.cur).laneNum qa j).round f32 false).2) |||
          (encodeAtom G (roundedLanes fun j => .num ((s.pump s.cur).laneNum qa j))).2)) := by
  have hdom : (decide (G = .oi) && decide ((s.pump s.cur).tag qa = .oi)) = false := by simp [ha]
  show Host.Outcome.next (s.convertAtom G qd qa) = _
  simp only [State.convertAtom, hdom, Bool.false_eq_true, if_false, Pump.lanesOf_o32 ha, storeNums_map, storeAtom_coded hG,
    flags_zero_or]
  rfl

theorem encodeAtom_of_nan {G : Fmt} {x : List Num} (h : x.any Num.isNan = true) : (encodeAtom G x).1 = nanAtom G := by
  rw [encodeAtom, if_pos h]

theorem isNan_nanCode : (Num.ofCode f32 f32.nanCode).isNan = true := by decide

/-- A NaN stays a NaN when it is stored. -/
theorem any_isNan_roundedLanes {x : Nat → Num} {j : Nat} (hj : j < 4) (h : (x j).isNan = true) :
    (roundedLanes fun j => .num (x j)).any Num.isNan = true := by
  refine List.any_eq_true.mpr ⟨_, List.mem_map_of_mem (List.mem_range.mpr hj), ?_⟩
  have hr : ((Lane.num (x j)).round f32).1 = f32.nanCode := congrArg Prod.fst (round_of_nan f32 h)
  rw [hr]
  exact isNan_nanCode

/-- An atom of zeros is the word 0, with no flag. -/
theorem encode_zeros {G : Fmt} (hG : G = .c4 ∨ G = .c16) {x : Nat → Num} (hx : ∀ j, x j = Num.ofCode f32 0) :
    ((encodeAtom G (roundedLanes fun j => .num (x j))).1, orFlags ((List.range 4).map fun j => ((x j).round f32 false).2) |||
      (encodeAtom G (roundedLanes fun j => .num (x j))).2) = (0, 0) := by
  simp only [hx, roundedLanes]
  rcases hG with rfl | rfl <;> decide

end Sys2Proof.Machine

namespace Sys2Proof

open Machine

/-- Settles O36: every atom instruction ends in `giveAtom` or `giveFloat`, `aimp` after a load, and `aexp` in one store; the encoder
answers a NaN lane and an atom of zeros before it searches. -/
theorem atomResultsAndTheirFrames : Obligations.AtomResultsAndTheirFrames := by
  intro s f F G fn cond dist t4 qd qa qb qc ga pa p R n gives
  have convert (H : Fmt) : ∃ r, (.next (s.convertAtom H qd qa) : Out) = .next (s.giveAtom s.cur qd H r) :=
    (convertAtom_eq_giveAtom s H qd qa).imp fun r hr => congrArg _ hr
  have lanewise (int num) : ∃ r, (.next (s.lanewise f qd qa qb int num) : Out) = .next (s.giveAtom s.cur qd R r) :=
    (lanewise_eq_giveAtom s f qd qa qb int num).imp fun r hr => congrArg _ hr
  refine ⟨givesAtom_of_exec (convert F), givesAtom_of_exec (convert .o32), givesAtom_of_exec (convert F),
    givesAtom_of_exec (lanewise _ _), givesAtom_of_exec (lanewise _ _), givesAtom_of_exec (lanewise _ _),
    givesAtom_of_exec (exec_afma_eq_giveAtom ..), givesAtom_of_exec (exec_amap_eq_giveAtom ..),
    givesAtom_of_exec (exec_amsk_eq_giveAtom ..), givesAtom_of_exec ⟨_, rfl⟩, givesAtom_of_exec ⟨_, rfl⟩,
    givesAtom_of_exec (exec_apat_eq_giveAtom ..), computesFlags_of_exec ⟨_, rfl⟩, acmp_mask_lt cond s ga qa qb,
    computesFlags_of_exec (exec_again_eq_giveFloat ..), computesFlags_of_exec (exec_aidx_eq_giveFloat ..),
    fun hal ht hs => ⟨_, _, _, exec_aimp hal ht hs, readsAtom_giveAtom ..⟩, fun hal ht => ?stored, fun hG ha => ⟨?nan, ?zeros⟩⟩
  case stored =>
    have hlen : (exportBytes (decide (t4 = .int4)) p qa qb).length = n := by
      rw [length_exportBytes]
      cases t4 <;> rfl
    have hview (d : CoreId) (a : Nat) :=
      viewByte_issueWrite s s.cur d pa a (exportBytes (decide (t4 = .int4)) p qa qb) false (p.read ga)
    rw [hlen] at hview
    refine ⟨_, exportFlags (decide (t4 = .int4)) p qa qb, exec_aexp hal ht, rfl, fun a hout => ?_, fun c a hc => ?_, ?_, ?_⟩
    · exact (hview s.cur a).trans (if_neg (by omega))
    · exact (hview c a).trans (if_neg fun h => hc h.1.symm)
    · rw [State.goOn, modPump_modPump]
      rfl
    · rintro rfl htag j hj
      refine (hview s.cur (pa + j)).trans ((if_pos ⟨rfl, by omega, Nat.add_lt_add_left hj pa⟩).trans ?_)
      rw [Nat.add_sub_cancel_left]
      exact getD_exportBytes qb htag hj
  case nan =>
    rintro ⟨j, hj, hnan⟩
    have hany := any_isNan_roundedLanes (x := p.laneNum qa) hj ((isNan_f32 _).trans hnan)
    have hval : BitVec.ofNat 128 (nanAtom G) = if G = .c16 then 0xFFFC_FFFF else 0xFFFF := by
      rw [nanAtom, apply_ite (BitVec.ofNat 128)]
      rfl
    obtain ⟨fl, hexec⟩ : ∃ fl, exec (.aenc G qd qa) s =
        .next (s.giveAtom s.cur qd G ((encodeAtom G (roundedLanes fun j => .num (p.laneNum qa j))).1, fl)) :=
      ⟨_, exec_aenc_o32 hG ha⟩
    rw [encodeAtom_of_nan hany] at hexec
    refine ⟨_, fl, hexec, ?_⟩
    rw [← hval]
    exact givesAtom_giveAtom s qd G (nanAtom G, fl)
  case zeros =>
    intro hzero
    have hexec := exec_aenc_o32 (qd := qd) hG ha
    have hlane (j : Nat) : p.laneNum qa j = Num.ofCode f32 0 := by
      rw [Pump.laneNum, Pump.lane, toNat_extractLsb', hzero]
      simp
    rw [encode_zeros hG hlane] at hexec
    exact ⟨_, hexec, givesAtom_giveAtom s qd G (0, 0)⟩

end Sys2Proof

/-! The enumeration of the patterns (R133, R134): RANK and UNRANK are each other's inverses. -/

namespace Sys2Proof.Machine

open Sys2Proof

/-- V(n + 1, k) counts the patterns by their first lane (R133). -/
theorem sum_countV : ∀ n < 4, ∀ k ≤ 16, ((lanesUpTo k).map fun v => countV n (k - v.natAbs)).sum = countV (n + 1) k := by decide

theorem mem_lanesUpTo {k : Nat} {v : Int} : v ∈ lanesUpTo k ↔ v.natAbs ≤ k := by
  simp only [lanesUpTo, List.mem_map, List.mem_range]
  constructor
  · rintro ⟨i, hi, rfl⟩
    omega
  · intro h
    exact ⟨(v + k).toNat, by omega, by omega⟩

theorem pairwise_lanesUpTo (k : Nat) : (lanesUpTo k).Pairwise (· < ·) :=
  List.pairwise_map.mpr (List.pairwise_lt_range.imp fun h => by omega)

/-- The lanes below `v` are those in front of it. -/
theorem filter_lt_of_lanesUpTo {k : Nat} {front back : List Int} {v : Int} (h : lanesUpTo k = front ++ v :: back) :
    (lanesUpTo k).filter (· < v) = front := by
  have hsorted := pairwise_lanesUpTo k
  rw [h] at hsorted ⊢
  obtain ⟨-, hback, hfront⟩ := List.pairwise_append.mp hsorted
  rw [List.filter_append, List.filter_eq_self.mpr fun u hu => decide_eq_true (hfront u hu v List.mem_cons_self),
    List.filter_eq_nil_iff.mpr ?_, List.append_nil]
  intro u hu
  rcases List.mem_cons.mp hu with rfl | hu
  · simp
  · have := (List.pairwise_cons.mp hback).1 u hu
    simpa using this.le

section
variable (n k : Nat)

/-- `unrankLane` finds the lane whose range holds the index. -/
theorem unrankLane_append (front back : List Int) (v : Int) {j : Nat} (hj : j < countV n (k - v.natAbs)) :
    unrankLane n k (front ++ v :: back) ((front.map fun u => countV n (k - u.natAbs)).sum + j) = (v, j) := by
  induction front with
  | nil =>
    simp only [List.nil_append, unrankLane, List.map_nil, List.sum_nil, Nat.zero_add]
    rw [if_pos hj]
  | cons u front ih =>
    simp only [List.cons_append, unrankLane, List.map_cons, List.sum_cons]
    rw [if_neg (by omega), ← ih]
    congr 1
    omega

/-- Every index below the sum of the ranges lies in one of them. -/
theorem exists_range (l : List Int) {i : Nat} (hi : i < (l.map fun u => countV n (k - u.natAbs)).sum) :
    ∃ front v back j, l = front ++ v :: back ∧ j < countV n (k - v.natAbs) ∧
      i = (front.map fun u => countV n (k - u.natAbs)).sum + j := by
  induction l generalizing i with
  | nil => simp at hi
  | cons v l ih =>
    rw [List.map_cons, List.sum_cons] at hi
    rcases Nat.lt_or_ge i (countV n (k - v.natAbs)) with h | h
    · exact ⟨[], v, l, i, rfl, h, (Nat.zero_add i).symm⟩
    · obtain ⟨front, u, back, j, rfl, hj, hij⟩ := ih (i := i - countV n (k - v.natAbs)) (by omega)
      refine ⟨v :: front, u, back, j, rfl, hj, ?_⟩
      rw [List.map_cons, List.sum_cons]
      omega

variable {n k}

/-- UNRANK gives the pattern of its rank. -/
theorem rankFrom_unrankFrom (hn : n ≤ 4) (hk : k ≤ 16) {i : Nat} (hi : i < countV n k) :
    rankFrom k (unrankFrom n k i) = i ∧ ((unrankFrom n k i).map Int.natAbs).sum = k := by
  induction n generalizing k i with
  | zero =>
    cases k with
    | zero => exact ⟨(Nat.lt_one_iff.mp hi).symm, rfl⟩
    | succ k => exact absurd hi (Nat.not_lt_zero i)
  | succ n ih =>
    rw [← sum_countV n hn k hk] at hi
    obtain ⟨front, v, back, j, hl, hj, rfl⟩ := exists_range n k _ hi
    have hv : v.natAbs ≤ k := mem_lanesUpTo.mp (by rw [hl]; simp)
    obtain ⟨hrank, hsum⟩ := ih (by omega) (by omega) hj
    have hunrank := unrankLane_append n k front back v hj
    rw [← hl] at hunrank
    simp only [unrankFrom, hunrank, rankFrom, filter_lt_of_lanesUpTo hl, length_unrankFrom, hrank, List.map_cons, List.sum_cons, hsum]
    exact ⟨trivial, by omega⟩

/-- RANK numbers the patterns of `k` pulses. -/
theorem unrankFrom_rankFrom {p : List Int} (hp : p.length ≤ 4) (hk : k ≤ 16) (hsum : (p.map Int.natAbs).sum = k) :
    rankFrom k p < countV p.length k ∧ unrankFrom p.length k (rankFrom k p) = p := by
  induction p generalizing k with
  | nil =>
    subst hsum
    exact ⟨Nat.one_pos, rfl⟩
  | cons v p ih =>
    rw [List.map_cons, List.sum_cons] at hsum
    rw [List.length_cons] at hp
    obtain ⟨hlt, hunrank⟩ := ih (k := k - v.natAbs) (by omega) (by omega) (by omega)
    obtain ⟨front, back, hl⟩ := List.append_of_mem (mem_lanesUpTo.mpr (by omega : v.natAbs ≤ k))
    have hlane := unrankLane_append p.length k front back v hlt
    have htotal := sum_countV p.length hp k hk
    rw [hl, List.map_append, List.sum_append, List.map_cons, List.sum_cons] at htotal
    rw [← hl] at hlane
    simp only [rankFrom, filter_lt_of_lanesUpTo hl, List.length_cons, unrankFrom, hlane, hunrank]
    exact ⟨by omega, trivial⟩

end

/-- UNRANK of a valid index of a coded format. -/
theorem unrank_spec {f : Fmt} (hf : f = .c4 ∨ f = .c16) {i : Nat} (hi : i < validIdx f) :
    rank (pulses f) (unrank (pulses f) i) = i ∧ ((unrank (pulses f) i).map Int.natAbs).sum = pulses f := by
  have hcount : validIdx f = countV 4 (pulses f) := by rcases hf with rfl | rfl <;> rfl
  rw [hcount] at hi
  exact rankFrom_unrankFrom le_rfl (by rw [pulses]; split <;> decide) hi

/-- RANK of a pattern of a coded format. -/
theorem rank_spec {f : Fmt} (hf : f = .c4 ∨ f = .c16) {p : List Int} (hp : p.length = 4)
    (hsum : (p.map Int.natAbs).sum = pulses f) : rank (pulses f) p < validIdx f ∧ unrank (pulses f) (rank (pulses f) p) = p := by
  have hcount : validIdx f = countV 4 (pulses f) := by rcases hf with rfl | rfl <;> rfl
  rw [hcount, ← hp, unrank, ← hp]
  exact unrankFrom_rankFrom hp.le (by rw [pulses]; split <;> decide) hsum

end Sys2Proof.Machine

/-! The fields of a coded atom and its decoded lanes (R127 to R130, R168). -/

namespace Sys2Proof.Machine

open Sys2Proof

/-! ### The fields in the register -/

theorem coded_iff {F : Fmt} : F.coded = true ↔ F = .c4 ∨ F = .c16 := by cases F <;> decide

section
variable (F : Fmt) (v : BitVec 128)

theorem idxOf_eq : idxOf F v.toNat = if F = .c16 then (v.extractLsb' 18 14).toNat else (v.extractLsb' 8 8).toNat := by
  rw [idxOf, toNat_extractLsb', toNat_extractLsb']

theorem gainOf_eq : gainOf F v.toNat = if F = .c16 then (v.extractLsb' 0 16).toNat else (v.extractLsb' 0 8).toNat := by
  rw [gainOf, toNat_extractLsb', toNat_extractLsb', pow_zero, Nat.div_one]

theorem idxOf_lt (a : Nat) : idxOf F a < 2 ^ 64 := by
  rw [idxOf]
  split <;> omega

theorem gainOf_le (a : Nat) : gainOf F a ≤ gainMax F := by
  rw [gainOf, gainMax]
  split <;> omega

end

/-! ### Gains (R128) -/

section
variable {F : Fmt} {gc : Nat}

theorem gainRat_eq (F : Fmt) (gc : Nat) : gainRat F gc = if gc / 2 ^ gainBits F = 0 then (gc : ℚ) * 2 ^ gainMin F
    else ((gc % 2 ^ gainBits F + 2 ^ gainBits F : ℕ) : ℚ) * 2 ^ (gainMin F + (gc / 2 ^ gainBits F : ℕ) - 1) := rfl

theorem gainValue_rat (F : Fmt) (gc : Nat) : ((gainValue F gc).1 : ℚ) * 2 ^ (gainValue F gc).2 = gainRat F gc := by
  simp only [gainValue, gainRat_eq]
  split
  next h => rw [Nat.mod_eq_of_lt (Nat.lt_of_div_eq_zero (Nat.two_pow_pos _) h)]
  next h => rfl

/-- A gain has at most 9 bits and lies far inside the range of FP32. -/
theorem gainValue_bounds (h : gc ≤ gainMax F) :
    (gainValue F gc).1 < 2 ^ 9 ∧ -142 ≤ (gainValue F gc).2 ∧ (gainValue F gc).2 ≤ 112 := by
  rw [gainMax] at h
  simp only [gainValue, gainBits, gainMin]
  by_cases hF : F = .c16
  · simp only [if_pos hF] at h ⊢
    split
    · exact ⟨by omega, by omega, by omega⟩
    · exact ⟨by omega, by omega, by omega⟩
  · simp only [if_neg hF] at h ⊢
    split
    · exact ⟨by omega, by omega, by omega⟩
    · exact ⟨by omega, by omega, by omega⟩

/-- FP32 holds the product of a gain and a small integer. -/
theorem round_gain (h : gc ≤ gainMax F) (neg : Bool) {k : Nat} (hk : k ≤ 16) :
    let r := roundTo f32 false neg ((gainValue F gc).1 * k) (gainValue F gc).2 false
    numFin (Num.ofCode f32 r.1) = true ∧ numRat (Num.ofCode f32 r.1) = withSign neg (gainRat F gc * k) ∧ r.2 = 0 := by
  intro r
  obtain ⟨hm, hlo, hhi⟩ := gainValue_bounds h
  have hmk : (gainValue F gc).1 * k < 2 ^ 14 :=
    calc (gainValue F gc).1 * k ≤ (gainValue F gc).1 * 16 := Nat.mul_le_mul_left _ hk
      _ < 2 ^ 9 * 16 := Nat.mul_lt_mul_of_pos_right hm (by decide)
      _ < 2 ^ 14 := by decide
  have hfit : (((gainValue F gc).1 * k : ℕ) : ℚ) * 2 ^ (gainValue F gc).2 < 2 ^ f32.bias :=
    calc (((gainValue F gc).1 * k : ℕ) : ℚ) * 2 ^ (gainValue F gc).2 < 2 ^ (14 : ℤ) * 2 ^ (gainValue F gc).2 :=
          mul_lt_mul_of_pos_right (by exact_mod_cast hmk) (two_zpow_pos _)
      _ = 2 ^ (14 + (gainValue F gc).2) := (two_zpow_add _ _).symm
      _ ≤ 2 ^ f32.bias := two_zpow_le (by have : f32.bias = 127 := by decide
                                          omega)
  have hulp : f32.ulpExp ≤ (gainValue F gc).2 := by
    have : f32.ulpExp = -149 := by decide
    omega
  obtain ⟨hfin, hval, hfl⟩ := roundTo_of_fits sane_f32 neg (hmk.trans (by decide)) hulp (fits_of_lt_bias hfit)
  refine ⟨hfin, hval.trans ?_, hfl⟩
  rw [numRat_fin, ← gainValue_rat, Nat.cast_mul, mul_right_comm]

theorem again_gain (h : gc ≤ gainMax F) :
    numRat (Num.ofCode f32 (roundTo f32 false false (gainValue F gc).1 (gainValue F gc).2 false).1) = gainRat F gc := by
  obtain ⟨-, hval, -⟩ := round_gain h false (k := 1) (by decide)
  rw [Nat.mul_one, Nat.cast_one, mul_one] at hval
  exact hval.trans (one_mul _)

theorem gainRat_zero (F : Fmt) : gainRat F 0 = 0 := by
  rw [← gainValue_rat]
  have h : (gainValue F 0).1 = 0 := by cases F <;> rfl
  rw [h, Nat.cast_zero, zero_mul]

end

/-! ### The instructions that read a field (R168) -/

section
variable {s : State} {ga : Reg} {qd qa : BitVec 4}

theorem exec_aidx_coded (h : ((s.pump s.cur).tag qa).coded = true) :
    exec (.aidx ga qa) s = .next (s.giveFloat s.cur ga (idxOf ((s.pump s.cur).tag qa) ((s.pump s.cur).atom qa), 0)) :=
  if_pos h

theorem exec_aidx_open (h : ((s.pump s.cur).tag qa).coded = false) :
    exec (.aidx ga qa) s = .next (s.giveFloat s.cur ga (0xFFFF_FFFF_FFFF_FFFF, fNv)) :=
  if_neg (ne_true_of_eq_false h)

theorem exec_again_coded (h : ((s.pump s.cur).tag qa).coded = true) :
    let v := gainValue ((s.pump s.cur).tag qa) (gainOf ((s.pump s.cur).tag qa) ((s.pump s.cur).atom qa))
    exec (.again ga qa) s = .next (s.giveFloat s.cur ga ((roundTo f32 false false v.1 v.2 false).1, 0)) :=
  if_pos h

theorem exec_again_open (h : ((s.pump s.cur).tag qa).coded = false) :
    exec (.again ga qa) s = .next (s.giveFloat s.cur ga (0x7FC0_0000, fNv)) :=
  if_neg (ne_true_of_eq_false h)

/-- Four entries of a list by their places. -/
theorem eq_map_getD {α : Type} (d : α) {l : List α} (h : l.length = 4) : l = (List.range 4).map fun j => l.getD j d := by
  refine List.ext_getElem (by simpa using h) fun j h1 h2 => ?_
  rw [List.getElem_map, List.getElem_range, List.getD_eq_getElem _ _ h1]

theorem exec_apat_valid (h : ((s.pump s.cur).tag qa).coded = true)
    (hi : idxOf ((s.pump s.cur).tag qa) ((s.pump s.cur).atom qa) < validIdx ((s.pump s.cur).tag qa)) {l : List Int}
    (hl : unrank (pulses ((s.pump s.cur).tag qa)) (idxOf ((s.pump s.cur).tag qa) ((s.pump s.cur).atom qa)) = l) :
    exec (.apat qd qa) s = .next (s.giveAtom s.cur qd .oi (laneAtom 32 fun j => ((BitVec.ofInt 32 (l.getD j 0)).toNat, 0))) := by
  have hlen : l.length = 4 := hl ▸ length_unrankFrom ..
  have hval : exec (.apat qd qa) s = .next (s.giveAtom s.cur qd .oi (intAtom (l.map (BitVec.ofInt 32)), 0)) := by
    rw [← hl]
    exact if_pos (by simp [h, hi])
  rw [hval, ← intAtom_eq]
  conv_lhs => rw [eq_map_getD 0 hlen, List.map_map]
  rfl

theorem exec_apat_invalid (h : ((s.pump s.cur).tag qa).coded = false ∨
      validIdx ((s.pump s.cur).tag qa) ≤ idxOf ((s.pump s.cur).tag qa) ((s.pump s.cur).atom qa)) :
    exec (.apat qd qa) s = .next (s.giveAtom s.cur qd .oi (0, fNv)) := by
  refine if_neg ?_
  rcases h with h | h
  · simp [h]
  · simp [h]

/-- A list of four integers that fit is read back from the lanes of its codes. -/
theorem toInt_ofInt32 {z : Int} (h : z.natAbs ≤ 16) : (BitVec.ofInt 32 z).toInt = z := by
  rw [BitVec.toInt_ofInt]
  exact Int.bmod_eq_of_le (by omega) (by omega)

end

/-! ### Valid coded atoms (R127, R130) -/

section
variable {p : Pump} {q : BitVec 4} {l : List Int} {g : ℚ}

/-- The gain code in the register. -/
def Pump.gainCode (p : Pump) (q : BitVec 4) : Nat := gainOf (p.tag q) (p.atom q)

theorem tag_of_codedAs (h : CodedAs p.q[q.toFin] l g) : p.tag q = .c4 ∨ p.tag q = .c16 := h.tag

theorem gain_of_codedAs (h : CodedAs p.q[q.toFin] l g) : g = gainRat (p.tag q) (p.gainCode q) := by
  rw [h.gain, ← gainOf_eq]
  rfl

/-- What DECODE finds in a valid coded atom. -/
theorem checkCoded_of_codedAs (h : CodedAs p.q[q.toFin] l g) : checkCoded (p.tag q) (p.atom q) 0 = .ok l (p.gainCode q) := by
  have hidx : rank (pulses (p.tag q)) l = idxOf (p.tag q) (p.atom q) := h.index.trans (idxOf_eq ..).symm
  obtain ⟨hlt, hunrank⟩ : rank (pulses (p.tag q)) l < validIdx (p.tag q) ∧
      unrank (pulses (p.tag q)) (rank (pulses (p.tag q)) l) = l := rank_spec h.tag h.lanes h.sum
  rw [hidx] at hlt hunrank
  rw [Pump.gainCode]
  have hz : p.tag q = .c16 → p.atom q / 2 ^ 16 % 4 = 0 := fun ht => by
    have := congrArg BitVec.toNat (h.zero ht)
    rwa [toNat_extractLsb'] at this
  rcases tag_of_codedAs h with ht | ht
  · rw [ht] at hlt hunrank ⊢
    change _ < 192 at hlt
    simp only [checkCoded, if_neg (show Fmt.c4 ≠ .c16 by decide)]
    rw [if_neg (by simp; omega), if_neg (by omega), if_neg (by decide)]
    exact congrArg (Coded.ok · _) hunrank
  · have hz := hz ht
    rw [ht] at hlt hunrank ⊢
    change _ < 11008 at hlt
    simp only [checkCoded, if_true]
    rw [if_neg (by simp; omega), if_neg (by simp; omega)]
    exact congrArg (Coded.ok · _) hunrank

theorem natAbs_le_of_sum {K : Nat} (h : (l.map Int.natAbs).sum = K) (j : Nat) : (l.getD j 0).natAbs ≤ K := by
  rcases Nat.lt_or_ge j l.length with hj | hj
  · rw [List.getD_eq_getElem _ _ hj, ← h]
    exact List.le_sum_of_mem (List.mem_map_of_mem (List.getElem_mem hj))
  · rw [List.getD_eq_default _ _ hj]
    exact Nat.zero_le K

theorem pulses_le (F : Fmt) : pulses F ≤ 16 := by
  rw [pulses]
  split <;> decide

/-- A lane of DECODE: gain times pulses. -/
def decodedLane (F : Fmt) (gc : Nat) (v : Int) : Num :=
  if gc = 0 || v = 0 then Num.zero else .fin (v < 0) ((gainValue F gc).1 * v.natAbs) ((gainValue F gc).2 + 0)

theorem round_decodedLane {F : Fmt} {gc : Nat} (hgc : gc ≤ gainMax F) {v : Int} (hv : v.natAbs ≤ 16) :
    numFin (Num.ofCode f32 ((decodedLane F gc v).round f32 false).1) = true ∧
      numRat (Num.ofCode f32 ((decodedLane F gc v).round f32 false).1) = gainRat F gc * v ∧
      ((decodedLane F gc v).round f32 false).2 = 0 := by
  rw [decodedLane]
  split
  next h =>
    have hzero : gainRat F gc * v = 0 := by
      rw [Bool.or_eq_true, decide_eq_true_eq, decide_eq_true_eq] at h
      rcases h with rfl | rfl
      · rw [gainRat_zero, zero_mul]
      · rw [Int.cast_zero, mul_zero]
    obtain ⟨hfin, hval⟩ := numRat_zeroCode sane_f32 false
    exact ⟨hfin, hval.trans hzero.symm, rfl⟩
  next h =>
    rw [add_zero]
    obtain ⟨hfin, hval, hfl⟩ := round_gain hgc (v < 0) hv
    refine ⟨hfin, hval.trans ?_, hfl⟩
    have hsign := numRat_ofInt v 0
    rw [numRat_fin, zpow_zero, mul_one, mul_one] at hsign
    rw [mul_comm, withSign_mul, hsign, mul_comm]

theorem lanes_coded {F : Fmt} (hF : F = .c4 ∨ F = .c16) (a : Nat) : lanes F a = decodeAtom F a 0 := by
  rcases hF with rfl | rfl
  · rfl
  · rfl

theorem lanesOf_of_codedAs (h : CodedAs p.q[q.toFin] l g) :
    p.lanesOf q = ((List.range 4).map fun j => decodedLane (p.tag q) (p.gainCode q) (l.getD j 0), 0) := by
  have hcheck := checkCoded_of_codedAs h
  have hdecode : decodeAtom (p.tag q) (p.atom q) 0 = (l.map (decodedLane (p.tag q) (p.gainCode q)), 0) := by
    rw [decodeAtom, hcheck]
    rfl
  rw [Pump.lanesOf, lanes_coded (tag_of_codedAs h), hdecode]
  conv_lhs => rw [eq_map_getD 0 h.lanes, List.map_map]
  rfl

end

theorem exec_adec_coded {s : State} {qd qa : BitVec 4} {l : List Int} {g : ℚ} (h : CodedAs (s.pump s.cur).q[qa.toFin] l g) :
    exec (.adec qd qa) s = .next (s.giveAtom s.cur qd .o32 (laneAtom 32 fun j =>
      (decodedLane ((s.pump s.cur).tag qa) ((s.pump s.cur).gainCode qa) (l.getD j 0)).round f32 false)) := by
  show Host.Outcome.next (s.convertAtom .o32 qd qa) = _
  have hdom : (decide (Fmt.o32 = .oi) && decide ((s.pump s.cur).tag qa = .oi)) = false := rfl
  simp only [State.convertAtom, hdom, Bool.false_eq_true, if_false, lanesOf_of_codedAs h, storeNums_map, storeAtom_o32, flags_zero_or]
  rfl

end Sys2Proof.Machine

/-! DOT with coded operands (R157, R166). -/

namespace Sys2Proof.Machine

open Sys2Proof

/-! ### Coded operands -/

theorem gainValue_eq_zero {F : Fmt} {gc : Nat} : (gainValue F gc).1 = 0 ↔ gc = 0 := by
  have hpos := Nat.two_pow_pos (gainBits F)
  simp only [gainValue]
  split
  next h =>
    show gc % 2 ^ gainBits F = 0 ↔ gc = 0
    rw [Nat.mod_eq_of_lt (Nat.lt_of_div_eq_zero hpos h)]
  next h =>
    show gc % 2 ^ gainBits F + 2 ^ gainBits F = 0 ↔ gc = 0
    refine iff_of_false (by omega) ?_
    rintro rfl
    exact h (Nat.zero_div _)

theorem gainRat_eq_zero {F : Fmt} {gc : Nat} : gainRat F gc = 0 ↔ gc = 0 := by
  rw [← gainValue_rat, mul_eq_zero, Nat.cast_eq_zero, gainValue_eq_zero, or_iff_left (two_zpow_pos _).ne']

theorem dotArg_of_codedAs {p : Pump} {q : BitVec 4} {l : List Int} {g : ℚ} (h : CodedAs p.q[q.toFin] l g) :
    dotArg (p.tag q) (p.atom q) 0 = .coded l (gainValue (p.tag q) (p.gainCode q)).1 (gainValue (p.tag q) (p.gainCode q)).2
      (p.gainCode q = 0) := by
  have hs : (if p.tag q = .c4 then (0 : Int) else 0) = 0 := ite_self 0
  rw [dotArg, if_pos (coded_iff.mpr (tag_of_codedAs h)), checkCoded_of_codedAs h]
  simp only [hs, add_zero]

theorem sum_range4 {α : Type} [AddCommMonoid α] (z : Nat → α) : ((List.range 4).map z).sum = z 0 + z 1 + z 2 + z 3 := by
  simp only [List.range_succ, List.range_zero, List.nil_append, List.cons_append, List.map_cons, List.map_nil, List.sum_cons,
    List.sum_nil, add_zero, add_assoc]

/-- DOT of two coded atoms is the product of their gains and of the dot product of their pulses, rounded once. -/
theorem dotAtoms_coded {p : Pump} {qa qb : BitVec 4} {l m : List Int} {g h : ℚ} (ha : CodedAs p.q[qa.toFin] l g)
    (hb : CodedAs p.q[qb.toFin] m h) :
    let r := dotAtoms (dotArg (p.tag qa) (p.atom qa) 0) (dotArg (p.tag qb) (p.atom qb) 0)
    let at_ (l : List Int) (j : Nat) : ℚ := (l.getD j 0 : ℤ)
    let t := g * h * (at_ l 0 * at_ m 0 + at_ l 1 * at_ m 1 + at_ l 2 * at_ m 2 + at_ l 3 * at_ m 3)
    r.1 < 2 ^ 32 ∧ (t = 0 → r = (0, 0)) ∧ (t ≠ 0 → Rounded f32 false t r.1 r.2) := by
  intro r at_ t
  let T : Int := ((l.zip m).map fun q => q.1 * q.2).sum
  have hT : (T : ℚ) = at_ l 0 * at_ m 0 + at_ l 1 * at_ m 1 + at_ l 2 * at_ m 2 + at_ l 3 * at_ m 3 := by
    have hzip : T = ((List.range 4).map fun j => l.getD j 0 * m.getD j 0).sum := by
      show ((l.zip m).map fun q => q.1 * q.2).sum = _
      conv_lhs => rw [eq_map_getD 0 ha.lanes, eq_map_getD 0 hb.lanes, List.zip_map', List.map_map]
      rfl
    rw [hzip, sum_range4]
    push_cast
    rfl
  have ht : t = g * h * T := congrArg (g * h * ·) hT.symm
  have hg := gain_of_codedAs ha
  have hh := gain_of_codedAs hb
  have hzero : t = 0 ↔ (p.gainCode qa = 0 ∨ p.gainCode qb = 0) ∨ T = 0 := by
    rw [ht, hg, hh, mul_eq_zero, mul_eq_zero, gainRat_eq_zero, gainRat_eq_zero, Int.cast_eq_zero]
  have hr : r = if t = 0 then (0, 0) else roundTo f32 false (T < 0)
      ((gainValue (p.tag qa) (p.gainCode qa)).1 * (gainValue (p.tag qb) (p.gainCode qb)).1 * T.natAbs)
      ((gainValue (p.tag qa) (p.gainCode qa)).2 + (gainValue (p.tag qb) (p.gainCode qb)).2) false := by
    simp only [r, dotArg_of_codedAs ha, dotArg_of_codedAs hb, dotAtoms, hzero, Bool.or_eq_true, decide_eq_true_eq]
    rfl
  rw [hr]
  by_cases h0 : t = 0
  · rw [if_pos h0]
    exact ⟨by decide, fun _ => rfl, fun h => absurd h0 h⟩
  · rw [if_neg h0]
    refine ⟨roundTo_lt sane_f32 .., fun h => absurd h h0, fun _ => ?_⟩
    rw [hzero, not_or, not_or] at h0
    obtain ⟨⟨ha0, hb0⟩, hT0⟩ := h0
    have hpos : 0 < (gainValue (p.tag qa) (p.gainCode qa)).1 * (gainValue (p.tag qb) (p.gainCode qb)).1 * T.natAbs :=
      Nat.pos_of_ne_zero (mul_ne_zero (mul_ne_zero (gainValue_eq_zero.not.mpr ha0) (gainValue_eq_zero.not.mpr hb0))
        (Int.natAbs_ne_zero.mpr hT0))
    have hval : t = numRat (.fin (T < 0)
        ((gainValue (p.tag qa) (p.gainCode qa)).1 * (gainValue (p.tag qb) (p.gainCode qb)).1 * T.natAbs)
        ((gainValue (p.tag qa) (p.gainCode qa)).2 + (gainValue (p.tag qb) (p.gainCode qb)).2)) := by
      have hsign := numRat_ofInt T 0
      rw [numRat_fin, zpow_zero, mul_one, mul_one] at hsign
      rw [ht, hg, hh, ← gainValue_rat, ← gainValue_rat, numRat_fin, two_zpow_add, ← hsign, mul_comm, ← withSign_mul]
      push_cast
      congr 1
      ring
    rw [hval]
    exact roundTo_exact f32 sane_f32 false _ hpos _

/-! ### A coded and an open operand -/

/-- The products of nonzero pulses with their lanes. -/
def pulseTerms (p : List Int) (v : List Num) : List Num :=
  (p.zip v).filterMap fun q => if q.1 = 0 then none else some (mulLane (Num.int q.1) q.2).1

theorem numFin_pulseTerms (p : List Int) {v : List Num} (hv : ∀ x ∈ v, numFin x = true) :
    ∀ x ∈ pulseTerms p v, numFin x = true := by
  intro x hx
  obtain ⟨⟨k, y⟩, hmem, hy⟩ := List.mem_filterMap.mp hx
  rw [Option.ite_none_left_eq_some, Option.some.injEq] at hy
  obtain ⟨-, rfl⟩ := hy
  exact (mulLane_fin rfl (hv y (List.of_mem_zip hmem).2)).1

/-- The lanes without a pulse add nothing. -/
theorem sum_pulseTerms (p : List Int) {v : List Num} (hv : ∀ x ∈ v, numFin x = true) :
    ((pulseTerms p v).map numRat).sum = ((p.zip v).map fun q => (q.1 : ℚ) * numRat q.2).sum := by
  induction p generalizing v with
  | nil => rfl
  | cons k p ih =>
    cases v with
    | nil => rfl
    | cons x v =>
      have hrest := ih fun y hy => hv y (List.mem_cons_of_mem _ hy)
      have hx := (mulLane_fin (a := Num.int k) rfl (hv x List.mem_cons_self)).2.1
      rw [numRat_int] at hx
      rw [List.zip_cons_cons, List.map_cons, List.sum_cons, ← hrest]
      simp only [pulseTerms, List.zip_cons_cons, List.filterMap_cons]
      by_cases hk : k = 0
      · simp [hk]
      · rw [if_neg hk, List.map_cons, List.sum_cons, hx]

/-- t of the coded and open row (R157). -/
theorem pulseSum_spec (p : List Int) {v : List Num} (hv : ∀ x ∈ v, numFin x = true) :
    let t := ((p.zip v).map fun q => (q.1 : ℚ) * numRat q.2).sum
    (t = 0 → pulseSum p v = (0, 0)) ∧ (t ≠ 0 → Rounded f32 false t (pulseSum p v).1 (pulseSum p v).2) := by
  have hfin := numFin_pulseTerms p hv
  have hsum : pulseSum p v = (sumNums (pulseTerms p v)).1.round f32 false := by
    rw [← storeLane32_num]
    obtain ⟨-, -, hfl⟩ := sumNums_fin hfin
    rw [← hfl]
    rfl
  rw [hsum, ← sum_pulseTerms p hv]
  exact round_sumNums hfin

/-- Steps 4 to 6 of the coded and open row (R157): the gain, and the second rounding. -/
theorem gainTimes_spec (m : Nat) (e : Int) {z : Bool} (hz : z = true → m = 0) (t : Nat × Flags) :
    (gainTimes m e z t).1 < 2 ^ 32 ∧ ∃ f, (gainTimes m e z t).2 = t.2 ||| f ∧ (numFin (Num.ofCode f32 t.1) = true →
      m * 2 ^ e * numRat (Num.ofCode f32 t.1) ≠ 0 →
        Rounded f32 false (m * 2 ^ e * numRat (Num.ofCode f32 t.1)) (gainTimes m e z t).1 f) := by
  rw [gainTimes]
  cases Num.ofCode f32 t.1 with
  | nan sig => exact ⟨f32.nanCode_lt sane_f32, 0, BitVec.or_zero.symm, nofun⟩
  | inf neg =>
    cases z with
    | true => exact ⟨f32.nanCode_lt sane_f32, fNv, rfl, nofun⟩
    | false => exact ⟨f32.infCode_lt sane_f32 neg, 0, BitVec.or_zero.symm, nofun⟩
  | fin neg tm te =>
    have hval : (m : ℚ) * 2 ^ e * numRat (.fin neg tm te) = numRat (.fin neg (m * tm) (e + te)) := by
      rw [numRat_fin, numRat_fin, two_zpow_add, mul_comm, ← withSign_mul]
      push_cast
      congr 1
      ring
    rw [hval]
    dsimp only
    by_cases h0 : z = true ∨ tm = 0
    · have hzero : m * tm = 0 := mul_eq_zero.mpr (h0.imp_left hz)
      rw [if_pos (by simpa using h0)]
      exact ⟨Nat.two_pow_pos 32, 0, BitVec.or_zero.symm, fun _ h => absurd ((numRat_eq_zero ..).mpr hzero) h⟩
    · rw [if_neg (by simpa using h0)]
      refine ⟨roundTo_lt sane_f32 .., _, rfl, fun _ h => ?_⟩
      exact roundTo_exact f32 sane_f32 false _ (Nat.pos_of_ne_zero fun h' => h ((numRat_eq_zero ..).mpr h')) _

/-- What R157 says of the dot product of a coded atom of gain `g` and an open one, whose sum of pulses and lanes is `t`. -/
def DotRounds (t g : ℚ) (r : Nat × Flags) : Prop :=
  (t = 0 → r = (0, 0)) ∧ (t ≠ 0 → ∃ c f₁ f₂, Rounded f32 false t c f₁ ∧ r.2 = f₁ ||| f₂ ∧
    (numFin (Num.ofCode f32 c) = true → g * numRat (Num.ofCode f32 c) ≠ 0 →
      Rounded f32 false (g * numRat (Num.ofCode f32 c)) r.1 f₂))

theorem gainTimes_pulseSum {p : Pump} {qa qb : BitVec 4} {l : List Int} {g : ℚ} (ha : CodedAs p.q[qa.toFin] l g)
    (hfin : ∀ j < 4, numFin (p.laneNum qb j) = true) :
    let v := gainValue (p.tag qa) (p.gainCode qa)
    let r := gainTimes v.1 v.2 (p.gainCode qa = 0) (pulseSum l ((List.range 4).map (p.laneNum qb)))
    let t (j : Nat) : ℚ := (l.getD j 0 : ℤ) * numRat (p.laneNum qb j)
    r.1 < 2 ^ 32 ∧ DotRounds (t 0 + t 1 + t 2 + t 3) g r := by
  intro v r t
  have hsum : ((l.zip ((List.range 4).map (p.laneNum qb))).map fun q => (q.1 : ℚ) * numRat q.2).sum = t 0 + t 1 + t 2 + t 3 := by
    conv_lhs => rw [eq_map_getD 0 ha.lanes, List.zip_map', List.map_map]
    exact sum_range4 _
  obtain ⟨hzero, hround⟩ := pulseSum_spec l (v := (List.range 4).map (p.laneNum qb))
    (List.forall_mem_map.mpr fun j hj => hfin j (List.mem_range.mp hj))
  rw [hsum] at hzero hround
  have hz : decide (p.gainCode qa = 0) = true → v.1 = 0 := fun h => gainValue_eq_zero.mpr (of_decide_eq_true h)
  obtain ⟨hlt, f, hf, hgain⟩ := gainTimes_spec v.1 v.2 hz (pulseSum l ((List.range 4).map (p.laneNum qb)))
  rw [gainValue_rat, ← gain_of_codedAs ha] at hgain
  refine ⟨hlt, fun h => ?_, fun h => ⟨_, _, f, hround h, hf, hgain⟩⟩
  have hcode : Num.ofCode f32 0 = .fin false 0 (-149) := by decide
  simp only [r, hzero h, gainTimes, hcode]
  simp

end Sys2Proof.Machine

/-! The gain of the encoder (R154): `gainRne` rounds a positive rational to the nearest gain code. -/

namespace Sys2Proof.Machine

open Sys2Proof

/-! ### Gain codes as the codes of a binary format -/

/-- The format whose codes are the gain codes, with room above them for the open exponent range of R154. -/
def gainFmt (G : Fmt) : FloatFmt := { p := gainBits G + 1, ebits := 9 }

theorem one_le_gainBits (G : Fmt) : 1 ≤ gainBits G := by
  rw [gainBits]
  split <;> decide

theorem gainFmt_sane (G : Fmt) : (gainFmt G).Sane := ⟨Nat.succ_le_succ (one_le_gainBits G), (by decide : 2 ≤ 9)⟩

theorem gainMax_lt_infMag (G : Fmt) : gainMax G < (gainFmt G).infMag := by cases G <;> decide

/-- A gain in units of the smallest. -/
theorem gainRat_eq_magNat (G : Fmt) (gc : Nat) : gainRat G gc = (gainFmt G).magNat gc * 2 ^ gainMin G := by
  have hpos := Nat.two_pow_pos (gainBits G)
  have hdiv : gc / 2 ^ gainBits G = 0 ↔ gc < 2 ^ gainBits G := Nat.div_eq_zero_iff.trans (or_iff_right hpos.ne')
  rw [gainRat_eq]
  show _ = ((if gc < 2 ^ gainBits G then gc
    else (gc % 2 ^ gainBits G + 2 ^ gainBits G) * 2 ^ (gc / 2 ^ gainBits G - 1) : ℕ) : ℚ) * _
  by_cases h : gc < 2 ^ gainBits G
  · rw [if_pos h, if_pos (hdiv.mpr h)]
  · have hexp : gainMin G + ((gc / 2 ^ gainBits G : ℕ) : ℤ) - 1 = ((gc / 2 ^ gainBits G - 1 : ℕ) : ℤ) + gainMin G := by
      rw [Nat.cast_sub (Nat.one_le_iff_ne_zero.mpr (hdiv.not.mpr h))]
      push_cast
      ring
    rw [if_neg h, if_neg (hdiv.not.mpr h), hexp, two_zpow_add, zpow_natCast]
    push_cast
    ring

theorem gainRat_strictMono (G : Fmt) : StrictMono (gainRat G) := fun c d h => by
  rw [gainRat_eq_magNat, gainRat_eq_magNat]
  exact mul_lt_mul_of_pos_right (by exact_mod_cast (gainFmt G).magNat_strictMono h) (two_zpow_pos _)

/-! ### The nearest gain code -/

/-- `gc` is the gain code nearest to `y` among those of the format, an even one where two are as near (R154). -/
def NearestGain (G : Fmt) (y : ℚ) (gc : Nat) : Prop :=
  ∀ w ≤ gainMax G, |gainRat G gc - y| ≤ |gainRat G w - y| ∧ (|gainRat G gc - y| = |gainRat G w - y| → w ≠ gc → gc % 2 = 0)

section
variable {G : Fmt} {y : ℚ} {k : Nat} {q : Int}

/-- A rounding in the binade of the number gives the nearest gain code, before saturation. -/
theorem nearestGain_of_rounded (hy : 0 < y) (hk : RoundedInt false (y / 2 ^ q) k) (hlt : y / 2 ^ q < 2 ^ (gainBits G + 1))
    (hq : gainMin G ≤ q) (hn : q = gainMin G ∨ (2 : ℚ) ^ gainBits G ≤ y / 2 ^ q) :
    NearestGain G y (k + (q - gainMin G).toNat * 2 ^ gainBits G) := by
  -- the same numbers in units of the smallest number of the binary format
  have hscale (z : ℚ) :
      z * 2 ^ ((gainFmt G).ulpExp - gainMin G) / 2 ^ (((q - gainMin G).toNat : ℕ) + (gainFmt G).ulpExp) = z / 2 ^ q := by
    have hexp : (((q - gainMin G).toNat : ℕ) : ℤ) + (gainFmt G).ulpExp = ((gainFmt G).ulpExp - gainMin G) + q := by omega
    rw [hexp, two_zpow_add, mul_comm z, mul_div_mul_left _ _ (two_zpow_pos _).ne']
  have hplaced : Placed (gainFmt G) false (y * 2 ^ ((gainFmt G).ulpExp - gainMin G)) k (q - gainMin G).toNat := by
    refine ⟨mul_pos hy (two_zpow_pos _), ?_, ?_, ?_⟩
    · rwa [hscale]
    · rwa [hscale]
    · rw [hscale]
      exact hn.imp_left fun h => by rw [h, sub_self]; rfl
  have hgain (c : Nat) : (gainFmt G).magNat c * 2 ^ (gainFmt G).ulpExp = gainRat G c * 2 ^ ((gainFmt G).ulpExp - gainMin G) := by
    rw [gainRat_eq_magNat, mul_assoc, ← two_zpow_add, add_sub_cancel]
  have hcode : (k : ℚ) * 2 ^ (((q - gainMin G).toNat : ℕ) + (gainFmt G).ulpExp) =
      gainRat G (k + (q - gainMin G).toNat * 2 ^ gainBits G) * 2 ^ ((gainFmt G).ulpExp - gainMin G) := by
    rw [← hplaced.value (gainFmt_sane G), hgain]
    rfl
  have hu := two_zpow_pos ((gainFmt G).ulpExp - gainMin G)
  intro w hw
  have hwinf : w < (gainFmt G).infMag := hw.trans_lt (gainMax_lt_infMag G)
  obtain ⟨hfin, hval⟩ := numRat_code hwinf false
  obtain ⟨hle, htie⟩ := hplaced.nearest (gainFmt_sane G) rfl false
    ((gainFmt G).add_zeroCode_lt (gainFmt_sane G) (hwinf.trans (gainFmt G).infMag_lt) false) hfin
  have hval' : numRat (Num.ofCode (gainFmt G) (w + (gainFmt G).zeroCode false)) =
      withSign false (gainRat G w * 2 ^ ((gainFmt G).ulpExp - gainMin G)) := by rw [hval, ← hgain]; rfl
  have habs (z : ℚ) : |withSign false (z * 2 ^ ((gainFmt G).ulpExp - gainMin G)) -
      withSign false (y * 2 ^ ((gainFmt G).ulpExp - gainMin G))| = |z - y| * 2 ^ ((gainFmt G).ulpExp - gainMin G) := by
    rw [withSign_sub, abs_withSign_eq, ← sub_mul, abs_mul, abs_of_pos hu]
  rw [hval', hcode, habs, habs] at hle htie
  rw [ne_eq, withSign_inj, mul_left_inj' hu.ne', mul_left_inj' hu.ne'] at htie
  refine ⟨le_of_mul_le_mul_right hle hu, fun heq hne => ?_⟩
  have hodd := htie heq fun h => hne ((gainRat_strictMono G).injective h)
  have hfield : 2 ∣ (q - gainMin G).toNat * 2 ^ gainBits G :=
    dvd_mul_of_dvd_right (dvd_pow_self 2 (by have := one_le_gainBits G; omega)) _
  omega

/-- The largest gain code is the nearest one to a number beyond it. -/
theorem NearestGain.saturate {gc : Nat} (h : NearestGain G y gc) : NearestGain G y (min gc (gainMax G)) := by
  rcases Nat.le_total gc (gainMax G) with hle | hle
  · rwa [min_eq_left hle]
  · rcases hle.eq_or_lt with heq | hlt
    · rw [← heq, min_self]
      rwa [← heq] at h
    · rw [min_eq_right hle]
      have hmid := midpoint_le (gainRat_strictMono G hlt) (h _ le_rfl).1
      have htop : gainRat G (gainMax G) < y := by
        have := gainRat_strictMono G hlt
        linarith
      intro w hw
      have hwle : gainRat G w ≤ gainRat G (gainMax G) := (gainRat_strictMono G).monotone hw
      rw [abs_of_neg (by linarith : gainRat G (gainMax G) - y < 0), abs_of_neg (by linarith : gainRat G w - y < 0)]
      refine ⟨by linarith, fun heq hne => ?_⟩
      exact absurd ((gainRat_strictMono G).injective (by linarith)) hne

end

/-! ### `gainRne` -/

/-- Numerator and denominator of `n / d / 2 ^ sh`. -/
def scaledNum (n : Nat) (sh : Int) : Nat := if sh < 0 then n * 2 ^ (-sh).toNat else n

def scaledDen (d : Nat) (sh : Int) : Nat := if sh < 0 then d else d * 2 ^ sh.toNat

/-- The exponent of the binade of `n / d`. -/
def ratioLog (n d : Nat) : Int :=
  if scaledNum n (bitLen n - bitLen d) < scaledDen d (bitLen n - bitLen d) then (bitLen n : Int) - bitLen d - 1
  else bitLen n - bitLen d

/-- A quotient of natural numbers, rounded to the nearest integer, to even on a tie. -/
def divRne (n d : Nat) : Nat := if d < 2 * (n % d) || (2 * (n % d) = d && n / d % 2 = 1) then n / d + 1 else n / d

theorem gainRne_eq (G : Fmt) (n d : Nat) (e : Int) :
    let q := max (ratioLog n d + e - gainBits G) (gainMin G)
    gainRne G n d e = divRne (scaledNum n (q - e)) (scaledDen d (q - e)) + (q - gainMin G).toNat * 2 ^ gainBits G := by
  have hlog : (if (if 0 ≤ (bitLen n : Int) - bitLen d then decide (n < d * 2 ^ ((bitLen n : Int) - bitLen d).toNat)
      else decide (n * 2 ^ (-((bitLen n : Int) - bitLen d)).toNat < d)) = true then (bitLen n : Int) - bitLen d - 1
      else (bitLen n : Int) - bitLen d) = ratioLog n d := by
    rw [ratioLog, scaledNum, scaledDen]
    rcases lt_or_ge ((bitLen n : Int) - bitLen d) 0 with h | h
    · simp only [if_neg (not_le.mpr h), if_pos h, decide_eq_true_eq]
    · simp only [if_pos h, if_neg (not_lt.mpr h), decide_eq_true_eq]
  intro q
  rw [gainRne]
  simp only [hlog]
  rfl

section
variable {n d : Nat} (hn : 0 < n) (hd : 0 < d)
include hd

theorem scaledDen_pos (sh : Int) : 0 < scaledDen d sh := by
  rw [scaledDen]
  split
  · exact hd
  · exact Nat.mul_pos hd (Nat.two_pow_pos _)

theorem scaled_ratio (n : Nat) (sh : Int) : (scaledNum n sh : ℚ) / scaledDen d sh = n / d / 2 ^ sh := by
  have hd' : (d : ℚ) ≠ 0 := by exact_mod_cast hd.ne'
  rcases lt_or_ge sh 0 with h | h
  · obtain ⟨m, rfl⟩ : ∃ m : ℕ, sh = -m := ⟨(-sh).toNat, by omega⟩
    rw [scaledNum, scaledDen, if_pos h, if_pos h, neg_neg, Int.toNat_natCast, zpow_neg, zpow_natCast, div_inv_eq_mul]
    push_cast
    ring
  · obtain ⟨m, rfl⟩ : ∃ m : ℕ, sh = m := ⟨sh.toNat, by omega⟩
    rw [scaledNum, scaledDen, if_neg (not_lt.mpr h), if_neg (not_lt.mpr h), Int.toNat_natCast, zpow_natCast, div_div]
    push_cast
    rfl

/-- `divRne` rounds. -/
theorem rounded_divRne (n : Nat) : RoundedInt false ((n : ℚ) / d) (divRne n d : ℕ) := by
  have hd' : (0 : ℚ) < d := Nat.cast_pos.mpr hd
  have hlt := Nat.mod_lt n hd
  have hsplit : (n : ℚ) / d = (n / d : ℕ) + (n % d : ℕ) / d := by
    rw [div_eq_iff hd'.ne', add_mul, div_mul_cancel₀ _ hd'.ne']
    exact_mod_cast (Nat.div_add_mod' n d).symm
  have hfrac0 : (0 : ℚ) ≤ (n % d : ℕ) / d := by positivity
  have hfrac1 : ((n % d : ℕ) : ℚ) / d < 1 := (div_lt_one hd').mpr (by exact_mod_cast hlt)
  have hhalf : ((n % d : ℕ) : ℚ) / d < 1 / 2 ↔ 2 * (n % d) < d := by
    rw [div_lt_div_iff₀ hd' two_pos, one_mul, mul_comm]
    exact_mod_cast Iff.rfl
  have hhalf' : (1 : ℚ) / 2 < (n % d : ℕ) / d ↔ d < 2 * (n % d) := by
    rw [div_lt_div_iff₀ two_pos hd', one_mul, mul_comm]
    exact_mod_cast Iff.rfl
  rw [roundedInt_nearest, Int.cast_natCast, divRne, hsplit]
  split
  next h =>
    rw [Bool.or_eq_true, Bool.and_eq_true, decide_eq_true_eq, decide_eq_true_eq, decide_eq_true_eq] at h
    have hge : (1 : ℚ) / 2 ≤ (n % d : ℕ) / d := not_lt.mp fun hl => by
      have := hhalf.mp hl
      omega
    have habs : |((n / d : ℕ) : ℚ) + (n % d : ℕ) / d - ((n / d + 1 : ℕ) : ℚ)| = 1 - (n % d : ℕ) / d := by
      push_cast
      rw [add_sub_add_left_eq_sub, abs_sub_comm, abs_of_pos (sub_pos.mpr hfrac1)]
    rw [habs]
    refine ⟨by linarith, fun heq => ?_⟩
    have hnot : ¬ d < 2 * (n % d) := fun hl => by
      have := hhalf'.mpr hl
      linarith
    omega
  next h =>
    rw [Bool.or_eq_true, Bool.and_eq_true, decide_eq_true_eq, decide_eq_true_eq, decide_eq_true_eq, not_or] at h
    obtain ⟨hle, hodd⟩ := h
    have hle' : ((n % d : ℕ) : ℚ) / d ≤ 1 / 2 := not_lt.mp (hhalf'.not.mpr hle)
    rw [add_sub_cancel_left, abs_of_nonneg hfrac0]
    refine ⟨hle', fun heq => ?_⟩
    have hnot : ¬ 2 * (n % d) < d := hhalf.not.mp (by rw [heq]; exact lt_irrefl _)
    omega

include hn

theorem ratioLog_spec : (2 : ℚ) ^ ratioLog n d ≤ n / d ∧ (n : ℚ) / d < 2 ^ (ratioLog n d + 1) := by
  have hd' : (0 : ℚ) < d := Nat.cast_pos.mpr hd
  have hnlo : (2 : ℚ) ^ ((bitLen n : ℤ) - 1) ≤ n := by
    have h := bitLen_pos hn
    have : (2 ^ (bitLen n - 1) : ℕ) ≤ n := two_pow_bitLen_le hn
    rw [← Nat.cast_one, ← Nat.cast_sub h, zpow_natCast]
    exact_mod_cast this
  have hnhi : (n : ℚ) < 2 ^ (bitLen n : ℤ) := by
    rw [zpow_natCast]
    exact_mod_cast lt_two_pow_bitLen n
  have hdlo : (2 : ℚ) ^ ((bitLen d : ℤ) - 1) ≤ d := by
    have h := bitLen_pos hd
    have : (2 ^ (bitLen d - 1) : ℕ) ≤ d := two_pow_bitLen_le hd
    rw [← Nat.cast_one, ← Nat.cast_sub h, zpow_natCast]
    exact_mod_cast this
  have hdhi : (d : ℚ) < 2 ^ (bitLen d : ℤ) := by
    rw [zpow_natCast]
    exact_mod_cast lt_two_pow_bitLen d
  have hlow : (2 : ℚ) ^ ((bitLen n : ℤ) - bitLen d - 1) ≤ n / d := by
    rw [le_div_iff₀ hd']
    calc (2 : ℚ) ^ ((bitLen n : ℤ) - bitLen d - 1) * d ≤ 2 ^ ((bitLen n : ℤ) - bitLen d - 1) * 2 ^ (bitLen d : ℤ) :=
          mul_le_mul_of_nonneg_left hdhi.le (two_zpow_pos _).le
      _ = 2 ^ ((bitLen n : ℤ) - 1) := by rw [← two_zpow_add]; congr 1; ring
      _ ≤ n := hnlo
  have hhigh : (n : ℚ) / d < 2 ^ ((bitLen n : ℤ) - bitLen d + 1) := by
    rw [div_lt_iff₀ hd']
    calc (n : ℚ) < 2 ^ (bitLen n : ℤ) := hnhi
      _ = 2 ^ ((bitLen n : ℤ) - bitLen d + 1) * 2 ^ ((bitLen d : ℤ) - 1) := by rw [← two_zpow_add]; congr 1; ring
      _ ≤ 2 ^ ((bitLen n : ℤ) - bitLen d + 1) * d := mul_le_mul_of_nonneg_left hdlo (two_zpow_pos _).le
  -- the test compares the ratio with the power of two that the lengths suggest
  have htest : scaledNum n (bitLen n - bitLen d) < scaledDen d (bitLen n - bitLen d) ↔
      (n : ℚ) / d < 2 ^ ((bitLen n : ℤ) - bitLen d) := by
    rw [← Nat.cast_lt (α := ℚ), ← div_lt_one (Nat.cast_pos.mpr (scaledDen_pos hd _)), scaled_ratio hd,
      div_lt_one (two_zpow_pos _)]
  rw [ratioLog]
  split
  next h => exact ⟨hlow, by rw [sub_add_cancel]; exact htest.mp h⟩
  next h => exact ⟨not_lt.mp (htest.not.mp h), hhigh⟩

/-- `gainRne`, saturated, gives the gain code nearest to `n / d * 2 ^ e` (R154). -/
theorem nearestGain_gainRne (G : Fmt) (e : Int) : NearestGain G (n / d * 2 ^ e) (min (gainRne G n d e) (gainMax G)) := by
  have hd' : (0 : ℚ) < d := Nat.cast_pos.mpr hd
  obtain ⟨hlo, hhi⟩ := ratioLog_spec hn hd
  obtain ⟨q, hq⟩ : ∃ q, q = max (ratioLog n d + e - gainBits G) (gainMin G) := ⟨_, rfl⟩
  have hshift : (n : ℚ) / d / 2 ^ (q - e) = n / d * 2 ^ e / 2 ^ q := by
    rw [zpow_sub₀ two_ne_zero, div_div_eq_mul_div]
  have hround := rounded_divRne (scaledDen_pos hd (q - e)) (scaledNum n (q - e))
  rw [scaled_ratio hd, hshift] at hround
  rw [gainRne_eq, ← hq]
  refine (nearestGain_of_rounded (mul_pos (div_pos (Nat.cast_pos.mpr hn) hd') (two_zpow_pos e)) hround ?_ ?_ ?_).saturate
  · rw [← hshift, div_lt_iff₀ (two_zpow_pos _), ← zpow_natCast, ← two_zpow_add]
    refine hhi.trans_le (two_zpow_le ?_)
    push_cast
    omega
  · exact hq ▸ le_max_right _ _
  · rcases le_total (ratioLog n d + e - gainBits G) (gainMin G) with h | h
    · exact .inl (hq.trans (max_eq_right h))
    · rw [max_eq_left h] at hq
      refine .inr ?_
      rw [← hshift, le_div_iff₀ (two_zpow_pos _), ← zpow_natCast, ← two_zpow_add]
      refine le_trans (two_zpow_le ?_) hlo
      omega

end

end Sys2Proof.Machine

/-! The pulses that the encoder hands out by largest remainder (R154). -/

namespace Sys2Proof.Machine

open Sys2Proof

/-! ### The largest remainder -/

/-- The largest remainder of the lanes not chosen, from `b` on. -/
def bestRem (b : Nat) (l : List (Nat × Bool)) : Nat := l.foldl (fun b p => if p.2 then b else max b p.1) b

theorem bestRem_spec (l : List (Nat × Bool)) (b : Nat) : b ≤ bestRem b l ∧ (∀ p ∈ l, p.2 = false → p.1 ≤ bestRem b l) ∧
    (bestRem b l = b ∨ ∃ p ∈ l, p.2 = false ∧ p.1 = bestRem b l) := by
  induction l generalizing b with
  | nil => exact ⟨le_rfl, nofun, .inl rfl⟩
  | cons p l ih =>
    have hstep : bestRem b (p :: l) = bestRem (if p.2 then b else max b p.1) l := rfl
    obtain ⟨hle, hall, hex⟩ := ih (if p.2 then b else max b p.1)
    rw [hstep]
    rw [List.forall_mem_cons]
    cases hp : p.2 with
    | true =>
      rw [hp, if_pos rfl] at hle hall hex
      rw [if_pos rfl]
      exact ⟨hle, ⟨nofun, hall⟩, hex.imp_right fun ⟨q, hq, h⟩ => ⟨q, List.mem_cons_of_mem _ hq, h⟩⟩
    | false =>
      rw [hp, if_neg Bool.false_ne_true] at hle hall hex
      rw [if_neg Bool.false_ne_true]
      refine ⟨(le_max_left _ _).trans hle, ⟨fun _ => (le_max_right _ _).trans hle, hall⟩, ?_⟩
      rcases hex with heq | ⟨q, hq, h⟩
      · rcases le_total b p.1 with hb | hb
        · rw [heq, max_eq_right hb]
          exact .inr ⟨p, List.mem_cons_self, hp, rfl⟩
        · rw [heq, max_eq_left hb]
          exact .inl rfl
      · exact .inr ⟨q, List.mem_cons_of_mem _ hq, h⟩

/-- The first of the lanes not chosen that have the largest remainder. -/
theorem largestRem_spec {rm : List Nat} {ch : List Bool} (hlen : rm.length = ch.length) (hex : false ∈ ch) :
    largestRem rm ch < ch.length ∧ ch.getD (largestRem rm ch) true = false ∧
      ∀ j < ch.length, ch.getD j true = false → rm.getD j 0 < rm.getD (largestRem rm ch) 0 ∨
        (rm.getD j 0 = rm.getD (largestRem rm ch) 0 ∧ largestRem rm ch ≤ j) := by
  obtain ⟨-, hall, hbest⟩ := bestRem_spec (rm.zip ch) 0
  have hzip : (rm.zip ch).length = ch.length := by rw [List.length_zip, hlen, min_self]
  have hget (j : Nat) (hj : j < (rm.zip ch).length) : (rm.zip ch)[j] = (rm.getD j 0, ch.getD j true) := by
    rw [List.getElem_zip, List.getD_eq_getElem _ _ (by omega), List.getD_eq_getElem _ _ (by omega)]
  have hle (j : Nat) (hj : j < ch.length) (hc : ch.getD j true = false) : rm.getD j 0 ≤ bestRem 0 (rm.zip ch) := by
    have hj' : j < (rm.zip ch).length := by omega
    have := hall _ (List.getElem_mem hj')
    rw [hget j hj'] at this
    exact this hc
  -- some lane not chosen has the best remainder
  obtain ⟨p, hp, hpc, hpb⟩ : ∃ p ∈ rm.zip ch, p.2 = false ∧ p.1 = bestRem 0 (rm.zip ch) := by
    rcases hbest with h0 | h
    · obtain ⟨j, hj, hc⟩ := List.getElem_of_mem hex
      have hj' : j < (rm.zip ch).length := by omega
      have hcj : ch.getD j true = false := by rw [List.getD_eq_getElem _ _ hj, hc]
      refine ⟨_, List.getElem_mem hj', ?_⟩
      rw [hget j hj']
      exact ⟨hcj, Nat.le_antisymm (hle j hj hcj) (by rw [h0]; exact Nat.zero_le _)⟩
    · exact h
  obtain ⟨i, hi⟩ : ∃ i, (rm.zip ch).findIdx? (fun p => !p.2 && p.1 = bestRem 0 (rm.zip ch)) = some i := by
    refine Option.isSome_iff_exists.mp ?_
    rw [List.findIdx?_isSome]
    exact List.any_eq_true.mpr ⟨p, hp, by simp [hpc, hpb]⟩
  have hrem : largestRem rm ch = i := congrArg (Option.getD · 0) hi
  obtain ⟨hilt, hpi, hfirst⟩ := List.findIdx?_eq_some_iff_getElem.mp hi
  have hentry (j : Nat) (hj : j < (rm.zip ch).length) :
      (!(rm.zip ch)[j].2 && decide ((rm.zip ch)[j].1 = bestRem 0 (rm.zip ch))) = true ↔
      ch.getD j true = false ∧ rm.getD j 0 = bestRem 0 (rm.zip ch) := by
    rw [hget j hj, Bool.and_eq_true, Bool.not_eq_true', decide_eq_true_eq]
  obtain ⟨hci, hbi⟩ := (hentry i hilt).mp hpi
  rw [hrem]
  refine ⟨by omega, hci, fun j hj hc => ?_⟩
  rw [hbi]
  rcases (hle j hj hc).lt_or_eq with hlt | heq
  · exact .inl hlt
  · refine .inr ⟨heq, ?_⟩
    by_contra hji
    exact hfirst j (not_le.mp hji) ((hentry j (by omega)).mpr ⟨hc, heq⟩)

/-! ### What is handed out -/

/-- The sum of the remainders of the lanes not chosen. -/
def remLeft (rm : List Nat) (ch : List Bool) : Nat := ((rm.zip ch).map fun p => if p.2 then 0 else p.1).sum

theorem remLeft_set {rm : List Nat} {ch : List Bool} (hlen : rm.length = ch.length) {j : Nat} (hj : ch.getD j true = false) :
    remLeft rm (ch.set j true) + rm.getD j 0 = remLeft rm ch := by
  induction rm generalizing ch j with
  | nil =>
    obtain rfl : ch = [] := List.length_eq_zero_iff.mp hlen.symm
    exact absurd hj (by simp)
  | cons r rm ih =>
    cases ch with
    | nil => exact absurd hlen (by simp)
    | cons c ch =>
      simp only [List.length_cons, Nat.add_right_cancel_iff] at hlen
      cases j with
      | zero =>
        rw [List.getD_cons_zero] at hj
        simp [remLeft, hj, Nat.add_comm]
      | succ j =>
        rw [List.getD_cons_succ] at hj
        have := ih hlen hj
        simp only [remLeft] at this
        simp only [remLeft, List.set_cons_succ, List.zip_cons_cons, List.map_cons, List.sum_cons, List.getD_cons_succ]
        omega

theorem remLeft_eq_zero {rm : List Nat} {ch : List Bool} (h : ∀ j < ch.length, ch.getD j true = false → rm.getD j 0 = 0) :
    remLeft rm ch = 0 := by
  refine List.sum_eq_zero (List.forall_mem_map.mpr fun p hp => ?_)
  obtain ⟨j, hj, rfl⟩ := List.getElem_of_mem hp
  rw [List.length_zip] at hj
  have hj := h j (by omega)
  rw [List.getD_eq_getElem _ _ (by omega), List.getD_eq_getElem _ _ (by omega)] at hj
  rw [List.getElem_zip]
  dsimp only
  split
  next => rfl
  next hc => exact hj (Bool.eq_false_of_not_eq_true hc)

theorem getD_set {α : Type} (d : α) (l : List α) (i j : Nat) (v : α) (hi : i < l.length) :
    (l.set i v).getD j d = if j = i then v else l.getD j d := by
  rw [List.getD_eq_getElem?_getD, List.getD_eq_getElem?_getD, List.getElem?_set]
  by_cases h : i = j
  · subst h
    rw [if_pos rfl, if_pos hi, if_pos rfl, Option.getD_some]
  · rw [if_neg h, if_neg (Ne.symm h)]

theorem sum_set_succ (l : List Nat) {j : Nat} (hj : j < l.length) : (l.set j (l.getD j 0 + 1)).sum = l.sum + 1 := by
  induction l generalizing j with
  | nil => exact absurd hj (Nat.not_lt_zero j)
  | cons x l ih =>
    cases j with
    | zero =>
      rw [List.getD_cons_zero, List.set_cons_zero, List.sum_cons, List.sum_cons]
      omega
    | succ j =>
      rw [List.getD_cons_succ, List.set_cons_succ, List.sum_cons, List.sum_cons, ih (Nat.lt_of_succ_lt_succ hj)]
      omega

/-- `fl'` is `fl` with one more pulse for some of the lanes not chosen in `ch`, all of a positive remainder, and of a larger one
than the lanes without it, the lowest index on a tie. -/
structure HandedOut (rm fl fl' : List Nat) (ch : List Bool) : Prop where
  length : fl'.length = fl.length
  lane : ∀ j, fl'.getD j 0 = fl.getD j 0 ∨
    (fl'.getD j 0 = fl.getD j 0 + 1 ∧ ch.getD j true = false ∧ 0 < rm.getD j 0)
  order : ∀ i j, fl'.getD i 0 = fl.getD i 0 + 1 → fl'.getD j 0 = fl.getD j 0 → j < ch.length → ch.getD j true = false →
    rm.getD j 0 < rm.getD i 0 ∨ (rm.getD j 0 = rm.getD i 0 ∧ i < j)

/-- The lanes not chosen have remainders enough for every pulse that is left, each remainder being less than `s`. -/
theorem handOut_spec {rm : List Nat} {s : Nat} (hs : 0 < s) (hrm : ∀ j, rm.getD j 0 < s) (n : Nat) {fl : List Nat} {ch : List Bool}
    (hch : rm.length = ch.length) (hfl : fl.length = ch.length) (hleft : n * s ≤ remLeft rm ch) :
    HandedOut rm fl (handOut rm n fl ch) ch ∧ (handOut rm n fl ch).sum = fl.sum + n := by
  induction n generalizing fl ch with
  | zero => exact ⟨⟨rfl, fun _ => .inl rfl, fun i _ h => by rw [handOut] at h; omega⟩, rfl⟩
  | succ n ih =>
    rw [Nat.succ_mul] at hleft
    have hex : false ∈ ch := by
      by_contra hno
      have hzero : remLeft rm ch = 0 := remLeft_eq_zero fun j hj hc => by
        rw [List.getD_eq_getElem _ _ hj] at hc
        exact absurd (hc ▸ List.getElem_mem hj) hno
      omega
    obtain ⟨hlt, hc, hmax⟩ := largestRem_spec hch hex
    rw [handOut]
    generalize largestRem rm ch = i at hlt hc hmax ⊢
    have hset := remLeft_set hch hc
    have hpos : 0 < rm.getD i 0 := by
      rw [Nat.pos_iff_ne_zero]
      intro h0
      have hzero : remLeft rm ch = 0 := remLeft_eq_zero fun j hj hcj => by
        have := hmax j hj hcj
        omega
      omega
    have hi := hrm i
    obtain ⟨⟨hlen, hlane, horder⟩, hsum⟩ := ih (fl := fl.set i (fl.getD i 0 + 1)) (ch := ch.set i true)
      (by rw [List.length_set]; exact hch) (by rw [List.length_set, List.length_set]; exact hfl) (by omega)
    simp only [getD_set 0 fl i _ _ (hfl ▸ hlt), getD_set true ch i _ _ hlt, List.length_set] at hlane horder hlen
    rw [sum_set_succ fl (hfl ▸ hlt)] at hsum
    refine ⟨⟨hlen, fun j => ?_, fun j' j hj' hj hjlt hcj => ?_⟩, by rw [hsum]; omega⟩
    · have := hlane j
      split_ifs at this with hji
      · subst hji
        exact .inr ⟨this.resolve_right fun h => absurd h.2.1 (by decide), hc, hpos⟩
      · exact this
    · have hji : j ≠ i := by
        rintro rfl
        have := hlane j
        rw [if_pos rfl, if_pos rfl] at this
        omega
      by_cases hj'i : j' = i
      · subst hj'i
        rcases hmax j hjlt hcj with h | ⟨h, hle⟩
        · exact .inl h
        · exact .inr ⟨h, by omega⟩
      · have := horder j' j
        rw [if_neg hj'i, if_neg hji, if_neg hji] at this
        exact this hj' hj hjlt hcj

end Sys2Proof.Machine

/-! The encoding search on finite lanes (R154, R155): what `encodeAtom` does, step by step. -/

namespace Sys2Proof.Machine

open Sys2Proof

/-! ### The steps of the search -/

/-- An infinity. -/
def Num.infinite : Num → Bool
  | .inf _ => true
  | _ => false

/-- The magnitude of a value in units of `2 ^ e`. -/
def Num.magAt (e : Int) : Num → Nat
  | .fin _ m e' => if m = 0 then 0 else m * 2 ^ (e' - e).toNat
  | _ => 0

/-- The smaller of an exponent and that of a value other than 0. -/
def Num.minExp (e : Int) : Num → Int
  | .fin _ m e' => if m = 0 then e else min e e'
  | _ => e

/-- An exponent at or below that of every lane. -/
def commonExp (y : List Num) : Int := y.foldl Num.minExp 1000

/-- The magnitudes of the lanes in one unit. -/
def encMags (y : List Num) : List Nat := y.map (Num.magAt (commonExp y))

/-- The pulses of each lane without their signs. -/
def encPulses (f : Fmt) (a : List Nat) : List Nat :=
  handOut (a.map fun v => pulses f * v % a.sum) (pulses f - (a.map fun v => pulses f * v / a.sum).sum)
    (a.map fun v => pulses f * v / a.sum) (a.map fun _ => false)

/-- The pattern that the search finds. -/
def encPattern (f : Fmt) (y : List Num) : List Int := ((encPulses f (encMags y)).zip y).map fun q => q.2.sign * (q.1 : Int)

/-- The gain that the search finds, before saturation. -/
def encGain (f : Fmt) (y : List Num) : Nat :=
  gainRne f (((encPulses f (encMags y)).zip (encMags y)).map fun q => q.1 * q.2).sum
    (((encPulses f (encMags y)).map fun q => q * q).sum) (commonExp y)

/-- The search once the infinite lanes of `x` are replaced, `sat` saying that there were some. -/
def encodeFrom (f : Fmt) (x : List Num) (sat : Bool) (y : List Num) : Nat × Flags :=
  if y.all (·.sign = 0) then (0, 0)
  else
    let gain := if sat then gainMax f else encGain f y
    let gc := min gain (gainMax f)
    if gc = 0 then (0, fUf ||| fNx)
    else
      let r := codedAtom f (rank (pulses f) (encPattern f y)) gc
      (r, flagIf (sat || gainMax f < gain) fSat ||| flagIf (!sameLanes (decodeAtom f r 0).1 x) fNx)

theorem encodeAtom_eq (f : Fmt) (x : List Num) : encodeAtom f x =
    if x.any Num.isNan then (nanAtom f, flagIf (x.any Num.sig) fNv)
    else encodeFrom f x (x.any Num.infinite)
      (if x.any Num.infinite then x.map fun v => if v.infinite then Num.int v.sign else Num.zero else x) := rfl

/-- The encoding of finite lanes that are not all zero. -/
theorem encodeAtom_fin (f : Fmt) {x : List Num} (hfin : ∀ v ∈ x, numFin v = true) (hne : ∃ v ∈ x, v.sign ≠ 0) :
    (encodeAtom f x).1 = if min (encGain f x) (gainMax f) = 0 then 0
      else codedAtom f (rank (pulses f) (encPattern f x)) (min (encGain f x) (gainMax f)) := by
  have hnan : x.any Num.isNan = false := List.any_eq_false.mpr fun v hv => by simp [Num.isNan_of_numFin (hfin v hv)]
  have hinf : x.any Num.infinite = false := List.any_eq_false.mpr fun v hv => by
    obtain ⟨n, m, e, rfl⟩ := Num.exists_fin (hfin v hv)
    exact Bool.false_ne_true
  have hzero : ¬ (x.all (·.sign = 0) = true) := by
    obtain ⟨v, hv, hs⟩ := hne
    exact fun h => hs (of_decide_eq_true (List.all_eq_true.mp h v hv))
  simp only [encodeAtom_eq, hnan, hinf, encodeFrom, if_neg hzero, Bool.false_eq_true, if_false]
  split
  · rfl
  · rfl

/-! ### Signs and magnitudes of finite values -/

section
variable {v : Num} (hv : numFin v = true)
include hv

theorem Num.sign_mul_numRat : (v.sign : ℚ) * numRat v = |numRat v| := by
  obtain ⟨n, m, e, rfl⟩ := Num.exists_fin hv
  have hnn : (0 : ℚ) ≤ m * 2 ^ e := mul_nonneg (Nat.cast_nonneg m) (two_zpow_pos e).le
  rw [numRat_fin, abs_withSign hnn]
  by_cases hm : m = 0
  · simp [hm, withSign]
  · cases n <;> simp [Num.sign, hm, withSign]

theorem Num.sign_eq_zero : v.sign = 0 ↔ numRat v = 0 := by
  obtain ⟨n, m, e, rfl⟩ := Num.exists_fin hv
  rw [numRat_eq_zero]
  by_cases hm : m = 0
  · simp [Num.sign, hm]
  · cases n <;> simp [Num.sign, hm]

theorem Num.natAbs_sign (h : numRat v ≠ 0) : v.sign.natAbs = 1 := by
  obtain ⟨n, m, e, rfl⟩ := Num.exists_fin hv
  rw [ne_eq, numRat_eq_zero] at h
  cases n <;> simp [Num.sign, h]

end

theorem foldl_minExp_le (y : List Num) (e : Int) : y.foldl Num.minExp e ≤ e := by
  induction y generalizing e with
  | nil => exact le_rfl
  | cons v y ih =>
    refine (ih _).trans ?_
    cases v with
    | nan s => exact le_rfl
    | inf n => exact le_rfl
    | fin n m e' =>
      rw [Num.minExp]
      split
      · exact le_rfl
      · exact min_le_left _ _

theorem foldl_minExp_le_of_mem {y : List Num} {n : Bool} {m : Nat} {e : Int} (hm : m ≠ 0) (h : Num.fin n m e ∈ y) (e₀ : Int) :
    y.foldl Num.minExp e₀ ≤ e := by
  induction y generalizing e₀ with
  | nil => exact absurd h List.not_mem_nil
  | cons v y ih =>
    rcases List.mem_cons.mp h with rfl | h
    · refine (foldl_minExp_le y _).trans ?_
      rw [Num.minExp, if_neg hm]
      exact min_le_right _ _
    · exact ih h _

/-- The magnitudes of finite lanes are exact. -/
theorem magAt_commonExp {y : List Num} {v : Num} (hmem : v ∈ y) (hv : numFin v = true) :
    (v.magAt (commonExp y) : ℚ) * 2 ^ commonExp y = |numRat v| := by
  obtain ⟨n, m, e, rfl⟩ := Num.exists_fin hv
  rw [numRat_fin, abs_withSign (mul_nonneg (Nat.cast_nonneg m) (two_zpow_pos e).le), Num.magAt]
  split
  next h => rw [h, Nat.cast_zero, zero_mul, zero_mul]
  next h =>
    have hle : commonExp y ≤ e := foldl_minExp_le_of_mem h hmem 1000
    have hexp : e = ((e - commonExp y).toNat : ℕ) + commonExp y := by omega
    conv_rhs => rw [hexp, two_zpow_add, zpow_natCast, ← mul_assoc]
    push_cast
    rfl

/-! ### The pulses -/

theorem sum_mod_add_sum_div (k s : Nat) (a : List Nat) :
    (a.map fun v => k * v % s).sum + s * (a.map fun v => k * v / s).sum = k * a.sum := by
  induction a with
  | nil => rfl
  | cons v a ih =>
    have := Nat.mod_add_div (k * v) s
    simp only [List.map_cons, List.sum_cons, Nat.mul_add]
    omega

/-- Every lane gets its share of the pulses, and the largest remainders one more (R154). -/
theorem encPulses_spec (f : Fmt) {a : List Nat} (hs : 0 < a.sum) :
    HandedOut (a.map fun v => pulses f * v % a.sum) (a.map fun v => pulses f * v / a.sum) (encPulses f a) (a.map fun _ => false) ∧
      (encPulses f a).sum = pulses f := by
  have hrm (j : Nat) : (a.map fun v => pulses f * v % a.sum).getD j 0 < a.sum := by
    have hmap := List.getD_map (l := a) (d := 0) (n := j) (fun v => pulses f * v % a.sum)
    rw [Nat.mul_zero, Nat.zero_mod] at hmap
    rw [hmap]
    exact Nat.mod_lt _ hs
  have hleft : remLeft (a.map fun v => pulses f * v % a.sum) (a.map fun _ => false) = (a.map fun v => pulses f * v % a.sum).sum := by
    rw [remLeft, List.zip_map', List.map_map]
    rfl
  have hsplit := sum_mod_add_sum_div (pulses f) a.sum a
  have hle : (a.map fun v => pulses f * v / a.sum).sum ≤ pulses f := by
    refine le_of_mul_le_mul_left (a := a.sum) ?_ hs
    rw [Nat.mul_comm a.sum (pulses f)]
    omega
  obtain ⟨hgiven, hsum⟩ := handOut_spec hs hrm (pulses f - (a.map fun v => pulses f * v / a.sum).sum)
    (fl := a.map fun v => pulses f * v / a.sum) (ch := a.map fun _ => false) (by rw [List.length_map, List.length_map])
    (by rw [List.length_map, List.length_map])
    (by rw [hleft, Nat.sub_mul, Nat.mul_comm _ a.sum, Nat.mul_comm _ a.sum, Nat.mul_comm a.sum (pulses f)]; omega)
  exact ⟨hgiven, hsum.trans (by omega)⟩

end Sys2Proof.Machine

/-! What the encoder finds for four finite lanes that are not all zero (R154): pattern and gain. -/

namespace Sys2Proof.Machine

open Sys2Proof

/-- The number in a lane. -/
def laneRat (x : List Num) (j : Nat) : ℚ := numRat (x.getD j Num.zero)

/-- The sum of the magnitudes of four lanes. -/
def magSum (x : List Num) : ℚ := |laneRat x 0| + |laneRat x 1| + |laneRat x 2| + |laneRat x 3|

/-- The pulses that a lane gets. -/
def pulseAt (G : Fmt) (x : List Num) (j : Nat) : Nat := (encPulses G (encMags x)).getD j 0

/-- The magnitude of a lane in the common unit. -/
def magOf (x : List Num) (j : Nat) : Nat := (encMags x).getD j 0

theorem pulses_pos (G : Fmt) : 0 < pulses G := by
  rw [pulses]
  split <;> decide

section
variable {G : Fmt} {x : List Num} (hlen : x.length = 4) (hfin : ∀ v ∈ x, numFin v = true)

include hlen in
theorem length_encMags : (encMags x).length = 4 := by rw [encMags, List.length_map, hlen]

include hlen in
theorem getD_mem {j : Nat} (hj : j < 4) : x.getD j Num.zero ∈ x := by
  rw [List.getD_eq_getElem _ _ (hlen ▸ hj)]
  exact List.getElem_mem _

include hlen in
theorem sum_encMags : (encMags x).sum = magOf x 0 + magOf x 1 + magOf x 2 + magOf x 3 := by
  conv_lhs => rw [eq_map_getD 0 (length_encMags hlen)]
  exact sum_range4 _

include hlen hfin

theorem magOf_mul {j : Nat} (hj : j < 4) : (magOf x j : ℚ) * 2 ^ commonExp x = |laneRat x j| := by
  have hmag : magOf x j = (x.getD j Num.zero).magAt (commonExp x) := List.getD_map x Num.zero (Num.magAt (commonExp x))
  have hmem := getD_mem hlen hj
  rw [hmag]
  exact magAt_commonExp hmem (hfin _ hmem)

theorem sum_encMags_mul : ((encMags x).sum : ℚ) * 2 ^ commonExp x = magSum x := by
  rw [sum_encMags hlen, magSum, ← magOf_mul hlen hfin (j := 0) (by decide), ← magOf_mul hlen hfin (j := 1) (by decide),
    ← magOf_mul hlen hfin (j := 2) (by decide), ← magOf_mul hlen hfin (j := 3) (by decide)]
  push_cast
  ring

theorem magOf_eq_zero {j : Nat} (hj : j < 4) : magOf x j = 0 ↔ laneRat x j = 0 := by
  rw [← abs_eq_zero, ← magOf_mul hlen hfin hj, mul_eq_zero, or_iff_left (two_zpow_pos _).ne', Nat.cast_eq_zero]

/-- The share of a lane in the pulses, rounded down. -/
theorem floor_share {j : Nat} (hj : j < 4) :
    ⌊(pulses G : ℚ) * |laneRat x j| / magSum x⌋ = (pulses G * magOf x j / (encMags x).sum : ℕ) := by
  rw [← magOf_mul hlen hfin hj, ← sum_encMags_mul hlen hfin, ← mul_assoc, mul_div_mul_right _ _ (two_zpow_pos _).ne',
    ← Nat.cast_mul, Rat.floor_natCast_div_natCast]
  rfl

/-- What the share of a lane leaves, in the common unit. -/
theorem rem_share {j : Nat} (hj : j < 4) :
    (pulses G : ℚ) * |laneRat x j| - magSum x * ⌊(pulses G : ℚ) * |laneRat x j| / magSum x⌋ =
    (pulses G * magOf x j % (encMags x).sum : ℕ) * 2 ^ commonExp x := by
  have hsplit : (pulses G : ℚ) * magOf x j = (pulses G * magOf x j % (encMags x).sum : ℕ) +
      (encMags x).sum * (pulses G * magOf x j / (encMags x).sum : ℕ) := by
    exact_mod_cast (Nat.mod_add_div _ _).symm
  rw [floor_share hlen hfin hj, Int.cast_natCast, ← magOf_mul hlen hfin hj, ← sum_encMags_mul hlen hfin, ← mul_assoc, hsplit]
  ring

variable (hS : magSum x ≠ 0)
include hS

theorem sum_encMags_pos : 0 < (encMags x).sum := by
  refine Nat.pos_of_ne_zero fun h => hS ?_
  rw [← sum_encMags_mul hlen hfin, h, Nat.cast_zero, zero_mul]

theorem exists_sign_ne_zero : ∃ v ∈ x, v.sign ≠ 0 := by
  by_contra hno
  have hzero (j : Nat) (hj : j < 4) : |laneRat x j| = 0 := by
    have hmem := getD_mem hlen hj
    rw [abs_eq_zero, laneRat, ← Num.sign_eq_zero (hfin _ hmem)]
    by_contra hs
    exact hno ⟨_, hmem, hs⟩
  refine hS ?_
  rw [magSum, hzero 0 (by decide), hzero 1 (by decide), hzero 2 (by decide), hzero 3 (by decide)]
  norm_num

/-! ### Pulses and pattern -/

theorem length_encPulses : (encPulses G (encMags x)).length = 4 := by
  rw [(encPulses_spec G (sum_encMags_pos hlen hfin hS)).1.length, List.length_map, length_encMags hlen]

theorem sum_pulseAt : pulseAt G x 0 + pulseAt G x 1 + pulseAt G x 2 + pulseAt G x 3 = pulses G := by
  have hsum := (encPulses_spec G (sum_encMags_pos hlen hfin hS)).2
  rw [eq_map_getD 0 (length_encPulses hlen hfin hS), sum_range4] at hsum
  exact hsum

theorem pulseAt_spec (j : Nat) : pulseAt G x j = pulses G * magOf x j / (encMags x).sum ∨
    (pulseAt G x j = pulses G * magOf x j / (encMags x).sum + 1 ∧ 0 < pulses G * magOf x j % (encMags x).sum) := by
  obtain ⟨⟨-, hlane, -⟩, -⟩ := encPulses_spec G (sum_encMags_pos hlen hfin hS)
  have hdiv := List.getD_map (l := encMags x) (d := 0) (n := j) fun v => pulses G * v / (encMags x).sum
  have hmod := List.getD_map (l := encMags x) (d := 0) (n := j) fun v => pulses G * v % (encMags x).sum
  rw [Nat.mul_zero, Nat.zero_div] at hdiv
  rw [Nat.mul_zero, Nat.zero_mod] at hmod
  have := hlane j
  rw [hdiv, hmod] at this
  exact this.imp_right fun ⟨h1, _, h2⟩ => ⟨h1, h2⟩

theorem pulseAt_order {i j : Nat} (hj : j < 4) (hi : pulseAt G x i = pulses G * magOf x i / (encMags x).sum + 1)
    (hno : pulseAt G x j = pulses G * magOf x j / (encMags x).sum) :
    pulses G * magOf x j % (encMags x).sum < pulses G * magOf x i % (encMags x).sum ∨
      (pulses G * magOf x j % (encMags x).sum = pulses G * magOf x i % (encMags x).sum ∧ i < j) := by
  obtain ⟨⟨-, -, horder⟩, -⟩ := encPulses_spec G (sum_encMags_pos hlen hfin hS)
  have hdiv (n : Nat) := List.getD_map (l := encMags x) (d := 0) (n := n) fun v => pulses G * v / (encMags x).sum
  have hmod (n : Nat) := List.getD_map (l := encMags x) (d := 0) (n := n) fun v => pulses G * v % (encMags x).sum
  simp only [Nat.mul_zero, Nat.zero_div] at hdiv
  simp only [Nat.mul_zero, Nat.zero_mod] at hmod
  have hlt : j < ((encMags x).map fun _ => false).length := by rwa [List.length_map, length_encMags hlen]
  have := horder i j (by rw [hdiv]; exact hi) (by rw [hdiv]; exact hno) hlt (by rw [List.getD_eq_getElem _ _ hlt, List.getElem_map])
  rwa [hmod, hmod] at this

/-- A lane of zero gets no pulse. -/
theorem pulseAt_eq_zero {j : Nat} (h : magOf x j = 0) : pulseAt G x j = 0 := by
  have := pulseAt_spec (G := G) hlen hfin hS j
  rw [h, Nat.mul_zero, Nat.zero_div, Nat.zero_mod] at this
  exact this.resolve_right fun h => absurd h.2 (lt_irrefl 0)

theorem length_encPattern : (encPattern G x).length = 4 := by
  rw [encPattern, List.length_map, List.length_zip, length_encPulses hlen hfin hS, hlen, min_self]

theorem getD_encPattern {j : Nat} (hj : j < 4) : (encPattern G x).getD j 0 = (x.getD j Num.zero).sign * (pulseAt G x j : ℤ) := by
  have hp := length_encPulses (G := G) hlen hfin hS
  rw [pulseAt, List.getD_eq_getElem _ _ (by rwa [length_encPattern hlen hfin hS]), List.getD_eq_getElem _ _ (by omega),
    List.getD_eq_getElem _ _ (by omega)]
  simp only [encPattern, List.getElem_map, List.getElem_zip]

theorem natAbs_encPattern {j : Nat} (hj : j < 4) : ((encPattern G x).getD j 0).natAbs = pulseAt G x j := by
  have hv := hfin _ (getD_mem hlen hj)
  rw [getD_encPattern hlen hfin hS hj, Int.natAbs_mul, Int.natAbs_natCast]
  by_cases h0 : laneRat x j = 0
  · rw [pulseAt_eq_zero hlen hfin hS ((magOf_eq_zero hlen hfin hj).mpr h0), Nat.mul_zero]
  · rw [Num.natAbs_sign hv h0, Nat.one_mul]

theorem sum_natAbs_encPattern : ((encPattern G x).map Int.natAbs).sum = pulses G := by
  conv_lhs => rw [eq_map_getD 0 (length_encPattern hlen hfin hS), List.map_map]
  refine (sum_range4 _).trans ?_
  rw [← sum_pulseAt hlen hfin hS]
  simp only [Function.comp_def, natAbs_encPattern hlen hfin hS (show 0 < 4 by decide),
    natAbs_encPattern hlen hfin hS (show 1 < 4 by decide), natAbs_encPattern hlen hfin hS (show 2 < 4 by decide),
    natAbs_encPattern hlen hfin hS (show 3 < 4 by decide)]

/-- The product of a lane with its pulses. -/
theorem encPattern_mul {j : Nat} (hj : j < 4) :
    (((encPattern G x).getD j 0 : ℤ) : ℚ) * laneRat x j = pulseAt G x j * |laneRat x j| := by
  rw [getD_encPattern hlen hfin hS hj]
  push_cast
  rw [mul_right_comm, laneRat, Num.sign_mul_numRat (hfin _ (getD_mem hlen hj)), mul_comm]

theorem encPattern_sq {j : Nat} (hj : j < 4) :
    (((encPattern G x).getD j 0 : ℤ) : ℚ) ^ 2 = (pulseAt G x j * pulseAt G x j : ℕ) := by
  have h := Int.natAbs_mul_self' ((encPattern G x).getD j 0)
  rw [natAbs_encPattern hlen hfin hS hj] at h
  rw [sq]
  exact_mod_cast h.symm

/-! ### The gain -/

/-- The search takes the gain code nearest to Σ p x / Σ p². -/
theorem nearestGain_encGain :
    let l (j : Nat) : ℚ := ((encPattern G x).getD j 0 : ℤ)
    NearestGain G ((l 0 * laneRat x 0 + l 1 * laneRat x 1 + l 2 * laneRat x 2 + l 3 * laneRat x 3) /
      (l 0 ^ 2 + l 1 ^ 2 + l 2 ^ 2 + l 3 ^ 2)) (min (encGain G x) (gainMax G)) := by
  intro l
  let p := pulseAt G x
  let n := p 0 * magOf x 0 + p 1 * magOf x 1 + p 2 * magOf x 2 + p 3 * magOf x 3
  let d := p 0 * p 0 + p 1 * p 1 + p 2 * p 2 + p 3 * p 3
  have hgain : encGain G x = gainRne G n d (commonExp x) := by
    rw [encGain, eq_map_getD 0 (length_encPulses (G := G) hlen hfin hS)]
    conv_lhs =>
      enter [2, 1, 2, 2]
      rw [eq_map_getD 0 (length_encMags hlen)]
    rw [List.zip_map', List.map_map, List.map_map, sum_range4, sum_range4]
    rfl
  have hsum : p 0 + p 1 + p 2 + p 3 = pulses G := sum_pulseAt hlen hfin hS
  have hpos := pulses_pos G
  have hd : 0 < d := by
    have hle (j : Nat) : p j ≤ p j * p j := Nat.le_mul_self _
    have := hle 0
    have := hle 1
    have := hle 2
    have := hle 3
    omega
  have hn : 0 < n := by
    have hle (j : Nat) : p j ≤ p j * magOf x j * p j := by
      rcases Nat.eq_zero_or_pos (magOf x j) with h | h
      · have : p j = 0 := pulseAt_eq_zero hlen hfin hS h
        omega
      · rw [Nat.mul_right_comm]
        exact (Nat.le_mul_self _).trans (Nat.le_mul_of_pos_right _ h)
    by_contra h0
    have hz (j : Nat) (h : p j * magOf x j = 0) : p j = 0 := by
      have := hle j
      rw [h, Nat.zero_mul] at this
      omega
    have := hz 0 (by omega)
    have := hz 1 (by omega)
    have := hz 2 (by omega)
    have := hz 3 (by omega)
    omega
  have hterm (j : Nat) (hj : j < 4) : l j * laneRat x j = p j * magOf x j * 2 ^ commonExp x := by
    rw [mul_assoc, magOf_mul hlen hfin hj]
    exact encPattern_mul hlen hfin hS hj
  have hsq (j : Nat) (hj : j < 4) : l j ^ 2 = (p j * p j : ℕ) := encPattern_sq hlen hfin hS hj
  have hvalue : (l 0 * laneRat x 0 + l 1 * laneRat x 1 + l 2 * laneRat x 2 + l 3 * laneRat x 3) /
      (l 0 ^ 2 + l 1 ^ 2 + l 2 ^ 2 + l 3 ^ 2) = (n : ℚ) / d * 2 ^ commonExp x := by
    rw [hterm 0 (by decide), hterm 1 (by decide), hterm 2 (by decide), hterm 3 (by decide), hsq 0 (by decide), hsq 1 (by decide),
      hsq 2 (by decide), hsq 3 (by decide), div_mul_eq_mul_div]
    simp only [n, d]
    push_cast
    ring
  rw [hvalue, hgain]
  exact nearestGain_gainRne hn hd G _

end

end Sys2Proof.Machine

/-! Coded atoms: their fields, their values, their dot products and their encoding (R127 to R134, R154, R157, R168). -/

namespace Sys2Proof.Machine

open Sys2Proof

section
variable {s : State} {ga : Reg} {qd qa qb : BitVec 4}

/-! ### Fields -/

theorem aidx_coded (h : ((s.pump s.cur).tag qa).coded = true) : ComputesFlags (.aidx ga qa) s ga fun v f =>
    v.toNat = idxOf ((s.pump s.cur).tag qa) ((s.pump s.cur).atom qa) ∧ f = 0 :=
  computesFlags_of (exec_aidx_coded h) (idxOf_lt _ _) fun _ hv => ⟨hv, rfl⟩

theorem again_coded (h : ((s.pump s.cur).tag qa).coded = true) : ComputesFlags (.again ga qa) s ga fun v f =>
    f = 0 ∧ v.toNat < 2 ^ 32 ∧ numRat (Num.ofCode f32 v.toNat) = gainRat ((s.pump s.cur).tag qa) ((s.pump s.cur).gainCode qa) := by
  have hlt := roundTo_lt sane_f32 false false (gainValue ((s.pump s.cur).tag qa) ((s.pump s.cur).gainCode qa)).1
    (gainValue ((s.pump s.cur).tag qa) ((s.pump s.cur).gainCode qa)).2
  refine computesFlags_of (exec_again_coded h) (hlt.trans (by decide)) fun v hv => ⟨rfl, hv ▸ hlt, ?_⟩
  rw [hv]
  exact again_gain (gainOf_le _ _)

theorem natAbs_sum4 {l : List Int} (h : l.length = 4) : (l.map Int.natAbs).sum =
    (l.getD 0 0).natAbs + (l.getD 1 0).natAbs + (l.getD 2 0).natAbs + (l.getD 3 0).natAbs := by
  conv_lhs => rw [eq_map_getD 0 h, List.map_map]
  exact sum_range4 _

/-- `apat` of a valid index writes the pattern of that rank. -/
theorem apat_valid {F : Fmt} (hF : (s.pump s.cur).tag qa = F) (h : F = .c4 ∨ F = .c16)
    (hi : idxOf F ((s.pump s.cur).atom qa) < validIdx F) :
    ∃ (t : State) (v : BitVec 128), exec (.apat qd qa) s = .next t ∧ GivesAtom s t qd .oi v 0 ∧
      let pulse (j : Nat) : Int := (v.extractLsb' (32 * j) 32).toInt
      (pulse 0).natAbs + (pulse 1).natAbs + (pulse 2).natAbs + (pulse 3).natAbs = pulses F ∧
        rank (pulses F) [pulse 0, pulse 1, pulse 2, pulse 3] = idxOf F ((s.pump s.cur).atom qa) := by
  obtain ⟨l, hl⟩ : ∃ l, unrank (pulses F) (idxOf F ((s.pump s.cur).atom qa)) = l := ⟨_, rfl⟩
  obtain ⟨hrank, hsum⟩ := unrank_spec h hi
  rw [hl] at hrank hsum
  have hlen : l.length = 4 := hl ▸ length_unrankFrom ..
  subst hF
  obtain ⟨t, v, ht, hv, hlane⟩ := givesAtom_of_words (exec_apat_valid (qd := qd) (coded_iff.mpr h) hi hl)
  have hpulse (j : Nat) (hj : j < 4) : (v.extractLsb' (32 * j) 32).toInt = l.getD j 0 := by
    rw [hlane j hj]
    exact toInt_ofInt32 ((natAbs_le_of_sum hsum j).trans (pulses_le _))
  refine ⟨t, v, ht, hv, ?_⟩
  simp only [hpulse 0 (by decide), hpulse 1 (by decide), hpulse 2 (by decide), hpulse 3 (by decide)]
  refine ⟨(natAbs_sum4 hlen).symm.trans hsum, ?_⟩
  have hl : [l.getD 0 0, l.getD 1 0, l.getD 2 0, l.getD 3 0] = l := (eq_map_getD 0 hlen).symm
  rw [hl, hrank]

/-! ### Values -/

theorem adec_coded {l : List Int} {g : ℚ} (h : CodedAs (s.pump s.cur).q[qa.toFin] l g) :
    ∃ (t : State) (v : BitVec 128), exec (.adec qd qa) s = .next t ∧ GivesAtom s t qd .o32 v 0 ∧
      ∀ j < 4, numFin (Num.ofCode f32 (v.extractLsb' (32 * j) 32).toNat) = true ∧
        numRat (Num.ofCode f32 (v.extractLsb' (32 * j) 32).toNat) = g * (l.getD j 0 : ℤ) := by
  have hround (j : Nat) := round_decodedLane (gainOf_le ((s.pump s.cur).tag qa) ((s.pump s.cur).atom qa))
    ((natAbs_le_of_sum h.sum j).trans (pulses_le _))
  obtain ⟨t, v, ht, hv, hlane⟩ := givesAtom_of_lanes (exec_adec_coded (qd := qd) h) (le_refl 32)
    fun _ => Num.round_lt sane_f32 false _
  have hfl (j : Nat) : ((decodedLane ((s.pump s.cur).tag qa) ((s.pump s.cur).gainCode qa) (l.getD j 0)).round f32 false).2 = 0 :=
    (hround j).2.2
  simp only [hfl, BitVec.or_self] at hv
  refine ⟨t, v, ht, hv, fun j hj => ?_⟩
  obtain ⟨hfin, hval, -⟩ := hround j
  rw [hlane j hj, gain_of_codedAs h]
  exact ⟨hfin, hval⟩

theorem adot_coded {l m : List Int} {g h : ℚ} (ha : CodedAs (s.pump s.cur).q[qa.toFin] l g)
    (hb : CodedAs (s.pump s.cur).q[qb.toFin] m h) :
    let at_ (l : List Int) (j : Nat) : ℚ := (l.getD j 0 : ℤ)
    let t := g * h * (at_ l 0 * at_ m 0 + at_ l 1 * at_ m 1 + at_ l 2 * at_ m 2 + at_ l 3 * at_ m 3)
    ComputesFlags (.adot ga qa qb) s ga fun v f => (t = 0 → v = 0 ∧ f = 0) ∧ (t ≠ 0 → Rounded f32 false t v.toNat f) := by
  intro at_ t
  obtain ⟨hlt, hzero, hround⟩ := dotAtoms_coded ha hb
  refine computesFlags_of rfl (hlt.trans (by decide)) fun v hv => ⟨fun h => ?_, fun h => hv ▸ hround h⟩
  rw [hzero h] at hv ⊢
  exact ⟨BitVec.eq_of_toNat_eq hv, rfl⟩

theorem computesFlags_of_dotRounds {i : Instr} {r : Nat × Flags} {t g : ℚ} (h : exec i s = .next (s.giveFloat s.cur ga r))
    (hlt : r.1 < 2 ^ 32) (hr : DotRounds t g r) : ComputesFlags i s ga fun v f => (t = 0 → v = 0 ∧ f = 0) ∧
      (t ≠ 0 → ∃ c f₁ f₂, Rounded f32 false t c f₁ ∧ f = f₁ ||| f₂ ∧
        (numFin (Num.ofCode f32 c) = true → g * numRat (Num.ofCode f32 c) ≠ 0 →
          Rounded f32 false (g * numRat (Num.ofCode f32 c)) v.toNat f₂)) := by
  obtain ⟨hzero, hround⟩ := hr
  refine computesFlags_of h (hlt.trans (by decide)) fun v hv => ⟨fun h0 => ?_, fun h0 => ?_⟩
  · rw [hzero h0] at hv ⊢
    exact ⟨BitVec.eq_of_toNat_eq hv, rfl⟩
  · rw [hv]
    exact hround h0

theorem exec_adot_coded_open {l : List Int} {g : ℚ} (ha : CodedAs (s.pump s.cur).q[qa.toFin] l g)
    (hb : (s.pump s.cur).tag qb = .o32) :
    let v := gainValue ((s.pump s.cur).tag qa) ((s.pump s.cur).gainCode qa)
    let r := gainTimes v.1 v.2 ((s.pump s.cur).gainCode qa = 0) (pulseSum l ((List.range 4).map ((s.pump s.cur).laneNum qb)))
    exec (.adot ga qa qb) s = .next (s.giveFloat s.cur ga r) ∧ exec (.adot ga qb qa) s = .next (s.giveFloat s.cur ga r) := by
  constructor
  · show Host.Outcome.next (s.giveFloat s.cur ga (dotAtoms _ _)) = _
    rw [dotArg_of_codedAs ha, dotArg_o32 hb]
    rfl
  · show Host.Outcome.next (s.giveFloat s.cur ga (dotAtoms _ _)) = _
    rw [dotArg_of_codedAs ha, dotArg_o32 hb]
    rfl

end

/-! ### Encoded lanes -/

section
variable {x : Nat → Num} {j : Nat}

theorem getD_roundedLanes (hj : j < 4) :
    (roundedLanes fun j => .num (x j)).getD j Num.zero = Num.ofCode f32 ((x j).round f32 false).1 := by
  have hlen : j < (roundedLanes fun j => .num (x j)).length := hj
  rw [List.getD_eq_getElem _ _ hlen]
  simp only [roundedLanes, List.getElem_map, List.getElem_range]
  rfl

end

/-- Finite FP32 lanes keep their values when they are rounded again. -/
theorem roundedLanes_laneNum {p : Pump} {q : BitVec 4} (hfin : ∀ j < 4, numFin (p.laneNum q j) = true) :
    (∀ v ∈ roundedLanes fun j => .num (p.laneNum q j), numFin v = true) ∧
      ∀ j < 4, laneRat (roundedLanes fun j => .num (p.laneNum q j)) j = numRat (p.laneNum q j) := by
  refine ⟨List.forall_mem_map.mpr fun j hj => (round_ofCode sane_f32 (hfin j (List.mem_range.mp hj))).1, fun j hj => ?_⟩
  rw [laneRat, getD_roundedLanes hj]
  exact (round_ofCode sane_f32 (hfin j hj)).2.1

theorem codedAtom_eq (G : Fmt) (idx gc : Nat) : codedAtom G idx gc = idx * 2 ^ (if G = .c16 then 18 else 8) + gc := by
  rw [codedAtom]
  split
  · rfl
  · rfl

end Sys2Proof.Machine

namespace Sys2Proof

open Machine

/-- Settles O35: UNRANK inverts RANK; FP32 holds every gain and every product of gain and pulses; the shares of the pulses are handed
out by `handOut_spec`, and `gainRne` rounds in the binade of its number. -/
theorem codedAtomFields : Obligations.CodedAtomFields := by
  intro s qd qa qb ga G p a b num at_ total dots idx K pulse
  have hidx : idxOf (p.tag qa) (p.atom qa) = idx := idxOf_eq ..
  refine ⟨fun htag => ⟨?aidx, ?again, ?apat⟩, fun h4 h16 => ?open_, fun l g ha => ⟨adec_coded ha, fun m h hb => adot_coded ha hb,
    fun hb hfin => ?dots⟩, ?enc⟩
  case aidx =>
    have h := aidx_coded (ga := ga) (coded_iff.mpr htag)
    rwa [hidx] at h
  case again =>
    have h := again_coded (ga := ga) (coded_iff.mpr htag)
    have hgain : p.gainCode qa = if a.tag = .c16 then (a.val.extractLsb' 0 16).toNat else (a.val.extractLsb' 0 8).toNat := gainOf_eq ..
    rwa [hgain] at h
  case apat =>
    rcases Nat.lt_or_ge (idxOf (p.tag qa) (p.atom qa)) (validIdx (p.tag qa)) with hi | hi
    · obtain ⟨t, v, ht, hv, hsum, hrank⟩ := apat_valid (qd := qd) rfl htag hi
      exact ⟨t, v, 0, ht, hv, fun _ => ⟨rfl, hsum, hrank.trans hidx⟩, fun h => absurd hi (not_lt.mpr (hidx ▸ h))⟩
    · exact ⟨_, 0, 0x10, exec_apat_invalid (.inr hi), givesAtom_giveAtom s qd .oi (0, fNv),
        fun h => absurd hi (not_le.mpr (hidx ▸ h)), fun _ => ⟨rfl, rfl⟩⟩
  case open_ =>
    have hopen : (p.tag qa).coded = false := Bool.eq_false_of_not_eq_true fun h => (coded_iff.mp h).elim h4 h16
    refine ⟨computesFlags_of (exec_aidx_open hopen) (by decide) fun v hv => ⟨BitVec.eq_of_toNat_eq hv, rfl⟩,
      computesFlags_of (exec_again_open hopen) (by decide) fun v hv => ⟨BitVec.eq_of_toNat_eq hv, rfl⟩,
      _, exec_apat_invalid (.inl hopen), givesAtom_giveAtom s qd .oi (0, fNv)⟩
  case dots =>
    obtain ⟨hlt, hround⟩ := gainTimes_pulseSum ha (qb := qb) hfin
    obtain ⟨hab, hba⟩ := exec_adot_coded_open (ga := ga) ha hb
    exact ⟨computesFlags_of_dotRounds hab hlt hround, computesFlags_of_dotRounds hba hlt hround⟩
  case enc =>
    intro hG ha hfin x S Kq share rem top hS
    obtain ⟨hfin', hrat⟩ := roundedLanes_laneNum (q := qa) hfin
    obtain ⟨fl, hexec⟩ : ∃ fl, exec (.aenc G qd qa) s =
        .next (s.giveAtom s.cur qd G ((encodeAtom G (roundedLanes fun j => .num (p.laneNum qa j))).1, fl)) :=
      ⟨_, exec_aenc_o32 hG ha⟩
    have hlen : (roundedLanes fun j => .num (p.laneNum qa j)).length = 4 := rfl
    generalize (roundedLanes fun j => .num (p.laneNum qa j)) = y at hfin' hrat hexec hlen
    have hx (j : Nat) (hj : j < 4) : laneRat y j = x j := hrat j hj
    have hsum : magSum y = S := by
      rw [magSum, hx 0 (by decide), hx 1 (by decide), hx 2 (by decide), hx 3 (by decide)]
    have hS' : magSum y ≠ 0 := hsum ▸ hS
    have hshare (j : Nat) (hj : j < 4) : share j = (pulses G * magOf y j / (encMags y).sum : ℕ) := by
      have := floor_share (G := G) hlen hfin' hj
      rwa [hx j hj, hsum] at this
    have hrem (j : Nat) (hj : j < 4) : rem j = (pulses G * magOf y j % (encMags y).sum : ℕ) * 2 ^ commonExp y := by
      have := rem_share (G := G) hlen hfin' hj
      rwa [hx j hj, hsum] at this
    refine ⟨_, BitVec.ofNat 128 (encodeAtom G y).1, fl, encPattern G y, min (encGain G y) (gainMax G), hexec,
      givesAtom_giveAtom s qd G ((encodeAtom G y).1, fl), length_encPattern hlen hfin' hS', sum_natAbs_encPattern hlen hfin' hS',
      fun j hj => ⟨?sign, ?zero, ?share⟩, fun i hi j hj hmore hless => ?order, min_le_right _ _, ?gain, ?word⟩
    case sign =>
      have hmul := encPattern_mul (G := G) hlen hfin' hS' hj
      rw [hx j hj] at hmul
      exact hmul ▸ mul_nonneg (Nat.cast_nonneg _) (abs_nonneg _)
    case zero =>
      intro h0
      have habs := natAbs_encPattern (G := G) hlen hfin' hS' hj
      rw [pulseAt_eq_zero hlen hfin' hS' ((magOf_eq_zero hlen hfin' hj).mpr ((hx j hj).trans h0)), Int.natAbs_eq_zero] at habs
      exact Int.cast_eq_zero.mpr habs
    case share =>
      rw [natAbs_encPattern hlen hfin' hS' hj, hshare j hj]
      exact_mod_cast (pulseAt_spec (G := G) hlen hfin' hS' j).imp_right And.left
    case order =>
      rw [natAbs_encPattern hlen hfin' hS' hi, hshare i hi] at hmore
      rw [natAbs_encPattern hlen hfin' hS' hj, hshare j hj] at hless
      have hu := two_zpow_pos (commonExp y)
      rw [hrem i hi, hrem j hj, mul_lt_mul_iff_left₀ hu, mul_left_inj' hu.ne', Nat.cast_lt, Nat.cast_inj]
      exact pulseAt_order hlen hfin' hS' hj (by exact_mod_cast hmore) (by exact_mod_cast hless)
    case gain =>
      have hnear := nearestGain_encGain (G := G) hlen hfin' hS'
      rw [hx 0 (by decide), hx 1 (by decide), hx 2 (by decide), hx 3 (by decide)] at hnear
      exact hnear
    case word =>
      rw [encodeAtom_fin G hfin' (exists_sign_ne_zero hlen hfin' hS'), codedAtom_eq, apply_ite (BitVec.ofNat 128)]
      rfl

end Sys2Proof

/-! Codes that a rounding has given are their own rounding (R106, R152). -/

namespace Sys2Proof.Machine

open Sys2Proof

section
variable {F : FloatFmt}

theorem numRat_code_eq_signInt {c : Nat} (hc : c < F.infMag) (neg : Bool) :
    numRat (Num.ofCode F (c + F.zeroCode neg)) = (signInt neg (F.magNat c) : ℤ) * 2 ^ F.ulpExp := by
  obtain ⟨m, e, hv, hval, -⟩ := F.valueOf_fin neg hc
  rw [Num.ofCode_add_zeroCode F (hc.trans F.infMag_lt), hv, hval]

theorem signInt_inj_of_ne_zero {n n' : Bool} {a a' : Nat} (h0 : a ≠ 0) (h : signInt n a = signInt n' a') : n = n' ∧ a = a' := by
  cases n <;> cases n' <;> simp [signInt] at h ⊢ <;> omega

theorem round_infCode (neg : Bool) : ((Num.ofCode F (F.infCode neg)).round F false).1 = F.infCode neg := by
  rw [F.infCode_eq, Num.ofCode_add_zeroCode F F.infMag_lt, F.valueOf_infMag]
  rfl

variable (hF : F.Sane)
include hF

/-- A finite code is the rounding of its value, the sign of a zero too. -/
theorem round_finiteCode {c : Nat} (hc : c < 2 ^ (F.p + F.ebits)) (hfin : numFin (Num.ofCode F c) = true) :
    ((Num.ofCode F c).round F false).1 = c := by
  have hp : 1 ≤ F.p := le_trans (by decide) hF.p
  obtain ⟨hfin', hval, -⟩ := round_ofCode hF hfin
  obtain ⟨n, a, ha, rfl⟩ := code_of_numFin hp hc hfin
  rcases Nat.eq_zero_or_pos a with rfl | hpos
  · obtain ⟨e, hv⟩ := F.valueOf_zero n hF
    rw [Num.ofCode_add_zeroCode F (Nat.two_pow_pos _), hv, Nat.zero_add]
    exact congrArg Prod.fst (roundTo_zero F false n e)
  · obtain ⟨n', a', ha', hr⟩ := code_of_numFin hp (Num.round_lt hF false _) hfin'
    rw [hr, numRat_code_eq_signInt ha', numRat_code_eq_signInt ha, mul_left_inj' (two_zpow_pos _).ne', Int.cast_inj] at hval
    obtain ⟨rfl, hmag⟩ := signInt_inj_of_ne_zero (F.magNat_eq_zero.not.mpr hpos.ne') hval.symm
    rw [hr, F.magNat_strictMono.injective hmag]

end

theorem round_nanCode_f32 : ((Num.ofCode f32 f32.nanCode).round f32 false).1 = f32.nanCode := by decide

/-- Rounding to FP32 is idempotent: a code that a rounding gives is the rounding of its value. -/
theorem round_round_f32 (x : Num) : ((Num.ofCode f32 (x.round f32 false).1).round f32 false).1 = (x.round f32 false).1 := by
  cases x with
  | nan sig => exact round_nanCode_f32
  | inf neg => exact round_infCode neg
  | fin neg m e =>
    rcases Nat.eq_zero_or_pos m with rfl | hm
    · exact round_finiteCode sane_f32 (f32.zeroCode_lt sane_f32 neg) (numRat_zeroCode sane_f32 neg).1
    · obtain ⟨hwidth, hover, hfinite, -, -⟩ := roundTo_exact f32 sane_f32 false neg hm e
      rw [if_neg Bool.false_ne_true] at hover hfinite
      rcases le_or_gt (2 ^ (f32.bias + 1) - 2 ^ (f32.bias - f32.p)) |numRat (.fin neg m e)| with hlarge | hsmall
      · have hinf : (Num.round f32 false (.fin neg m e)).1 = f32.infCode (numRat (.fin neg m e) < 0) := (hover hlarge).1
        rw [hinf]
        exact round_infCode _
      · exact round_finiteCode sane_f32 hwidth (hfinite hsmall).1

/-- A sum of FP32 numbers is the rounding of its value. -/
theorem round_addNum (a b : Num) : ((Num.ofCode f32 (addNum f32 a b).1).round f32 false).1 = (addNum f32 a b).1 := by
  rw [← storeLane32_addLane]
  exact round_round_f32 (addLane a b).1

end Sys2Proof.Machine

/-! Tokens of O32 lanes (R140, R146, R152): a payload read and packed lane by lane, and the heads of ports. -/

namespace Sys2Proof.Machine

open Sys2Proof

/-! ### Bits of a payload -/

theorem bits_eq (p : Frame) (lo n : Nat) : bits p lo n = p.toNat / 2 ^ lo % 2 ^ n := by
  rw [bits, Nat.shiftRight_eq_div_pow]

/-- Bits of a field of a payload. -/
theorem bits_div_mod (p : Frame) (lo : Nat) {n a m : Nat} (h : a + m ≤ n) :
    bits p lo n / 2 ^ a % 2 ^ m = bits p (lo + a) m := by
  obtain ⟨r, rfl⟩ := Nat.exists_eq_add_of_le h
  rw [bits_eq, bits_eq, Nat.add_assoc, pow_add 2 a, Nat.mod_mul_right_div_self, pow_add 2 m, Nat.mod_mul_right_mod,
    Nat.div_div_eq_div_mul, ← pow_add]

/-- The FP32 code in lane `j` of a payload (R140). -/
def laneCode (p : Frame) (j : Nat) : Nat := bits p (32 * j) 32

theorem bits_packFrame {w : Nat} {v : List Nat} (hfit : w * v.length ≤ 256) (h : ∀ x ∈ v, x < 2 ^ w) (i : Nat) :
    bits (packFrame w v) (w * i) w = v.getD i 0 := by
  have hlt : packLanes w v < 2 ^ 256 := (packLanes_lt w h).trans_le (Nat.pow_le_pow_right (by decide) hfit)
  rw [bits_eq, packFrame, BitVec.toNat_ofNat, Nat.mod_eq_of_lt hlt, packLanes_div_mod w h]

/-! ### O32 lanes -/

theorem tokenLanes_o32 (p : Frame) : (tokenLanes .o32 p).1 = (List.range 8).map fun j => Num.ofCode f32 (laneCode p j) := by
  have hatom (k i : Nat) (hi : i < 4) : openLane .o32 (bits p (128 * k) 128) i = laneCode p (4 * k + i) := by
    rw [openLane, if_neg (by decide), bits_div_mod p _ (by omega), laneCode]
    congr 1
    omega
  have hlanes (k : Nat) : (lanes .o32 (bits p (128 * k) 128)).1 =
      (List.range 4).map fun i => Num.ofCode f32 (laneCode p (4 * k + i)) :=
    List.map_congr_left fun i hi => by rw [hatom k i (List.mem_range.mp hi)]
  have hatoms : atomsOf .o32 p = (List.range 2).map fun k => bits p (128 * k) 128 := rfl
  rw [tokenLanes, hatoms]
  simp only [List.map_map, Function.comp_def, hlanes]
  rfl

/-- The units of O32 lanes are the roundings of their values. -/
theorem storeUnits_o32 (poison : Bool) (v : List Num) :
    (storeUnits .o32 poison v).1 = v.map fun x => (BitVec.ofNat 256 (x.round f32 false).1, poison) := by
  rw [storeUnits, if_neg (by decide)]
  exact List.map_map

theorem fullTokens_nil (f : Fmt) (sc : Byte) (n : Nat) : fullTokens f sc n [] = ([], []) := by
  cases n with
  | zero => rfl
  | succ n => cases f <;> rfl

/-- A buffer of exactly one token's units leaves whole. -/
theorem fullTokens_of_length {f : Fmt} {sc : Byte} {b : List (Frame × Bool)} (h : b.length = unitsPer f) :
    fullTokens f sc b.length b = ([packUnits f sc b], []) := by
  obtain ⟨n, hn⟩ : ∃ n, b.length = n + 1 := ⟨b.length - 1, by cases f <;> rw [h] <;> rfl⟩
  rw [hn, fullTokens, if_pos h.ge, ← h, List.drop_length, List.take_length, fullTokens_nil]

/-- Lane `j` of a token packed of eight FP32 codes. -/
theorem laneCode_packUnits_o32 {g : Nat → Nat} (hg : ∀ j, g j < 2 ^ 32) (poison : Bool) {j : Nat} (hj : j < 8) :
    laneCode (packUnits .o32 0 ((List.range 8).map fun i => (BitVec.ofNat 256 (g i), poison))).payload j = g j := by
  have hcode (i : Nat) : (BitVec.ofNat 256 (g i)).toNat = g i :=
    (BitVec.toNat_ofNat ..).trans (Nat.mod_eq_of_lt ((hg i).trans (by decide)))
  have hpay : (packUnits .o32 0 ((List.range 8).map fun i => (BitVec.ofNat 256 (g i), poison))).payload =
      packFrame 32 ((List.range 8).map g) := by
    simp only [packUnits, dataTok, List.map_map, Function.comp_def, hcode]
    rfl
  rw [laneCode, hpay, bits_packFrame (by simp) (List.forall_mem_map.mpr fun i _ => hg i),
    List.getD_eq_getElem _ _ (by simpa using hj), List.getElem_map, List.getElem_range]

/-! ### Heads of ports -/

/-- Where no port misses a token, the heads are the tokens of the ports in their order. -/
theorem map_some_heads {inp : Vector (Option Token) 4} {ps : List (Fin 4)} {ts : List Token} (h : headsOf inp ps = .ok ts) :
    ps.map (fun p => inp[p]) = ts.map some := by
  rw [headsOf] at h
  split at h
  next hmiss =>
    cases h
    rw [List.isEmpty_iff, List.filter_eq_nil_iff] at hmiss
    rw [List.map_filterMap]
    induction ps with
    | nil => rfl
    | cons p ps ih =>
      obtain ⟨t, ht⟩ : ∃ t, inp[p] = some t :=
        Option.ne_none_iff_exists'.mp fun hn => hmiss p List.mem_cons_self (Option.isNone_iff_eq_none.mpr hn)
      simp only [List.map_cons, List.filterMap_cons, ht, Option.map_some]
      rw [ih fun q hq => hmiss q (List.mem_cons_of_mem _ hq)]
  next => cases h

theorem exists_head {inp : Vector (Option Token) 4} {ps : List (Fin 4)} {ts : List Token} (h : headsOf inp ps = .ok ts)
    {p : Fin 4} (hp : p ∈ ps) : ∃ t ∈ ts, inp[p] = some t := by
  have hmem : inp[p] ∈ ts.map some := map_some_heads h ▸ List.mem_map_of_mem hp
  obtain ⟨t, ht, he⟩ := List.mem_map.mp hmem
  exact ⟨t, ht, he.symm⟩

theorem oneClass_of_kind {k : TokKind} {ts : List Token} (h : ∀ x ∈ ts, x.kind = k) : oneClass ts = true := by
  cases ts with
  | nil => rfl
  | cons t ts =>
    refine List.all_eq_true.mpr fun x hx => decide_eq_true ?_
    rw [h x (List.mem_cons_of_mem _ hx), h t List.mem_cons_self]

end Sys2Proof.Machine

/-! `sum.red` in O32 (R190): the terms of each lane added in the order of the steps. -/

namespace Sys2Proof.Machine

open Sys2Proof

/-- The sum of two FP32 codes as a code (R106). -/
def plus32 (a b : Nat) : Nat := (addNum f32 (Num.ofCode f32 a) (Num.ofCode f32 b)).1

/-- Lane `j` of `sum.red`: the terms of the lane added to the first one, in order (R190). -/
def redCode (t : Token) (ts : List Token) (j : Nat) : Nat :=
  ts.foldl (fun acc x => plus32 acc (laneCode x.payload j)) (laneCode t.payload j)

/-- The units that `sum.red` forms of sound terms. -/
def redUnits (t : Token) (ts : List Token) : List (Frame × Bool) :=
  (List.range 8).map fun j => (BitVec.ofNat 256 (redCode t ts j), false)

/-- The token of these units. -/
def redToken (t : Token) (ts : List Token) : Token := packUnits .o32 0 (redUnits t ts)

theorem fullTokens_redUnits (t : Token) (ts : List Token) :
    fullTokens .o32 0 (redUnits t ts).length (redUnits t ts) = ([redToken t ts], []) :=
  fullTokens_of_length (by rw [redUnits, List.length_map, List.length_range]; rfl)

/-- A lane of more than one term ends in a sum. -/
theorem exists_redCode_eq_plus32 (t : Token) {ts : List Token} (h : ts ≠ []) (j : Nat) : ∃ a b, redCode t ts j = plus32 a b := by
  obtain rfl | ⟨xs, x, rfl⟩ := List.eq_nil_or_concat ts
  · exact absurd rfl h
  · exact ⟨redCode t xs j, laneCode x.payload j, by simp [redCode]⟩

theorem redCode_lt (t : Token) {ts : List Token} (h : ts ≠ []) (j : Nat) : redCode t ts j < 2 ^ 32 := by
  obtain ⟨a, b, hab⟩ := exists_redCode_eq_plus32 t h j
  rw [hab]
  exact addNum_lt sane_f32 _ _

theorem round_redCode (t : Token) {ts : List Token} (h : ts ≠ []) (j : Nat) :
    ((Num.ofCode f32 (redCode t ts j)).round f32 false).1 = redCode t ts j := by
  obtain ⟨a, b, hab⟩ := exists_redCode_eq_plus32 t h j
  rw [hab]
  exact round_addNum _ _

/-- F of R190 on values of codes: the value of the folded sum. -/
theorem redLane_ofCode (a : Nat) (cs : List Nat) :
    (redLane false ((a :: cs).map (Num.ofCode f32))).1 = Num.ofCode f32 (cs.foldl plus32 a) := by
  suffices h : ∀ fl : Flags, ((cs.map (Num.ofCode f32)).foldl (fun acc v =>
      if false then ((addLane acc.1 v).1.wrap32, 0)
      else let (x, f) := addNums acc.1 v; (x, acc.2 ||| f)) (Num.ofCode f32 a, fl)).1 = Num.ofCode f32 (cs.foldl plus32 a) from h 0
  induction cs generalizing a with
  | nil => exact fun _ => rfl
  | cons c cs ih => exact fun fl => ih (plus32 a c) (fl ||| (addNum f32 (Num.ofCode f32 a) (Num.ofCode f32 c)).2)

theorem column_lanes (ts : List Token) {j : Nat} (hj : j < 8) :
    column (ts.map fun x => (tokenLanes .o32 x.payload).1) j = ts.map fun x => Num.ofCode f32 (laneCode x.payload j) := by
  have hlane (x : Token) : (tokenLanes .o32 x.payload).1[j]? = some (Num.ofCode f32 (laneCode x.payload j)) := by
    rw [tokenLanes_o32, List.getElem?_map, List.getElem?_range hj, Option.map_some]
  rw [column, List.filterMap_map]
  simp only [Function.comp_def, hlane]
  exact congrFun List.filterMap_eq_map' ts

section
variable {k : CompCfg} (hfa : k.fa = .o32) (hfo : k.fo = .o32)
include hfa

theorem CompCfg.sumInt_of_o32 : k.sumInt = false := by rw [CompCfg.sumInt, hfa]; rfl

theorem CompCfg.sumLanes_of_o32 (x : Token) : k.sumLanes x = (tokenLanes .o32 x.payload).1 := by
  rw [CompCfg.sumLanes, k.sumInt_of_o32 hfa, if_neg Bool.false_ne_true, hfa]

/-- One lane of the terms, added. -/
theorem redLane_column (t : Token) (ts : List Token) {j : Nat} (hj : j < 8) :
    (redLane k.sumInt (column ((t :: ts).map k.sumLanes) j)).1 = Num.ofCode f32 (redCode t ts j) := by
  have hcol : column ((t :: ts).map k.sumLanes) j = ((t :: ts).map fun x => laneCode x.payload j).map (Num.ofCode f32) := by
    rw [funext (k.sumLanes_of_o32 hfa), column_lanes _ hj, List.map_map]
    rfl
  rw [k.sumInt_of_o32 hfa, hcol, List.map_cons, redLane_ofCode, List.foldl_map, redCode]

include hfo

/-- A firing of `sum.red` in O32 on sound DATA tokens. -/
theorem fireRed_o32 {inp : Vector (Option Token) 4} {op : OpState} {t : Token} {ts : List Token}
    (hheads : headsOf inp k.order = .ok (t :: ts)) (hkind : ∀ x ∈ t :: ts, x.kind = .data)
    (hsound : ∀ x ∈ t :: ts, x.poison = false) (hts : ts ≠ []) (hbuf : op.buf = []) :
    ∃ fl, fireRed k inp op = .fire { Fired.of k.ports op with outs := [(.a, redToken t ts)], flags := fl } := by
  have hpoison : (t :: ts).any (·.poison) = false := List.any_eq_false.mpr fun x hx => by simp [hsound x hx]
  have hunits : (k.sumStore false (((List.range (lanesPer k.fa)).map fun i =>
      redLane k.sumInt (column ((t :: ts).map k.sumLanes) i)).map (·.1))).1 = redUnits t ts := by
    rw [redUnits, CompCfg.sumStore, hfo, storeUnits_o32, hfa, List.map_map, List.map_map]
    refine List.map_congr_left fun j hj => ?_
    simp only [Function.comp_apply, redLane_column hfa t ts (List.mem_range.mp hj), round_redCode t hts]
  have hstate : { op with buf := [] } = op := by rw [← hbuf]
  have hdata : ((t :: ts).headD (plainTok .mark)).kind = .data := hkind t List.mem_cons_self
  rw [fireRed, hheads]
  simp only [oneClass_of_kind hkind, Bool.not_true, Bool.false_eq_true, if_false, hdata, hpoison, hunits, hfo, hbuf,
    List.nil_append, fullTokens_redUnits, hstate]
  exact ⟨_, rfl⟩

end

theorem laneCode_redToken (t : Token) {ts : List Token} (h : ts ≠ []) {j : Nat} (hj : j < 8) :
    laneCode (redToken t ts).payload j = redCode t ts j :=
  laneCode_packUnits_o32 (redCode_lt t h) false hj

end Sys2Proof.Machine

/-! `turn.blk` and `dly.fifo` (R379, R381). -/

namespace Sys2Proof.Machine

open Sys2Proof

/-! ### A block transposed -/

/-- An entry of rows of equal length, laid end to end. -/
theorem getElem?_flatten_of_length {α : Type} {rows : List (List α)} {n : Nat} (h : ∀ row ∈ rows, row.length = n) (j : Nat)
    {i : Nat} (hi : i < n) : rows.flatten[j * n + i]? = rows[j]?.bind (·[i]?) := by
  induction rows generalizing j with
  | nil => simp
  | cons row rows ih =>
    have hrow := h row List.mem_cons_self
    rw [List.flatten_cons]
    cases j with
    | zero => rw [Nat.zero_mul, Nat.zero_add, List.getElem?_append_left (hrow.symm ▸ hi), List.getElem?_cons_zero, Option.bind_some]
    | succ j =>
      have hle : row.length ≤ (j + 1) * n + i := by rw [hrow, Nat.succ_mul]; omega
      have hsub : (j + 1) * n + i - row.length = j * n + i := by rw [hrow, Nat.succ_mul]; omega
      rw [List.getElem?_append_right hle, hsub, List.getElem?_cons_succ]
      exact ih (fun r hr => h r (List.mem_cons_of_mem _ hr)) j

theorem length_turned (n : Nat) (ts : List Token) : (turned n ts).length = n * n := by
  simp [turned, List.length_flatten, Function.comp_def]

theorem index_lt_block {n i j : Nat} (hi : i < n) (hj : j < n) : i * n + j < n * n :=
  calc i * n + j < (i + 1) * n := by rw [Nat.succ_mul]; omega
    _ ≤ n * n := Nat.mul_le_mul_right n hi

/-- A whole block is transposed (R381). -/
theorem getElem?_turned {n i j : Nat} {ts : List Token} (hlen : ts.length = n * n) (hi : i < n) (hj : j < n) :
    (turned n ts)[j * n + i]? = ts[i * n + j]? := by
  have hlt : i * n + j < ts.length := hlen ▸ index_lt_block hi hj
  rw [turned, getElem?_flatten_of_length (List.forall_mem_map.mpr fun _ _ => by simp) j hi, List.getElem?_map,
    List.getElem?_range hj, Option.map_some, Option.bind_some, List.getElem?_map, List.getElem?_range hi, Option.map_some,
    List.getD_eq_getElem _ _ hlt, List.getElem?_eq_getElem hlt]

/-- The token that completes the block of a `turn.blk`. -/
theorem fireTurn_of_full {k : CompCfg} {inp : Vector (Option Token) 4} {op : OpState} {t : Token} (hin : inp[k.port 0] = some t)
    (hkind : t.kind = .data)
    (hfull : op.store.length + 1 = (k.param 167 5 + 1) * (k.param 167 5 + 1)) :
    fireTurn k false inp op = .fire { Fired.of [k.port 0] { op with store := [] } with
      outs := toA (turned (k.param 167 5 + 1) (op.store ++ [t]) ++ [plainTok .mark]), commit := true } := by
  have hle : (k.param 167 5 + 1) * (k.param 167 5 + 1) ≤ (op.store ++ [t]).length := by
    rw [List.length_append, List.length_singleton, hfull]
  simp only [fireTurn, Bool.false_eq_true, if_false, hin, hkind, if_pos hle]

/-! ### A token that has waited its cycles -/

/-- A `dly.fifo` sends its oldest token once its cycles have passed and there is space. -/
theorem fireFifo_of_ready {k : CompCfg} {now : Nat} {inp : Vector (Option Token) 4} {op : OpState} {u : Token} {us : List Token}
    {w : Nat} {ws : List Nat} (hstore : op.store = u :: us) (hstamps : op.stamps = w :: ws) (hready : w + k.param 153 10 ≤ now) :
    fireFifo k now true inp op = .fire { Fired.of [] { op with store := us, stamps := ws } with
      outs := [(.a, u)], commit := u.kind ≠ .data } := by
  simp only [fireFifo, hstore, hstamps, hready, decide_true, Bool.and_self, if_true]
  rfl

end Sys2Proof.Machine

/-! The Joins (R382): the fewest tokens of the ports of a `join.all`, and the predicate of a `join.pred`. -/

namespace Sys2Proof.Machine

open Sys2Proof

/-! ### `join.all` -/

/-- DATA tokens of port `q` in the round of a `join.all`. -/
def joinCount (op : OpState) (q : Fin 4) : Nat := op.n[Fin.ofNat 6 q.val]

/-- The least of the counts of ports. -/
def leastCount (op : OpState) (ps : List (Fin 4)) : Nat := (ps.map (joinCount op)).foldl min ((ps.map (joinCount op)).headD 0)

/-- The fold that `join.all` makes is the minimum of the counts. -/
theorem min?_joinCounts (op : OpState) {ps : List (Fin 4)} (h : ps ≠ []) :
    (ps.map (joinCount op)).min? = some (leastCount op ps) := by
  obtain ⟨p, ps, rfl⟩ := List.exists_cons_of_ne_nil h
  rw [leastCount, List.map_cons, List.headD_cons, List.foldl_cons, min_self, List.min?_cons']

theorem leastCount_le (op : OpState) {ps : List (Fin 4)} {q : Fin 4} (hq : q ∈ ps) : leastCount op ps ≤ joinCount op q :=
  (List.min?_eq_some_iff.mp (min?_joinCounts op (List.ne_nil_of_mem hq))).2 _ (List.mem_map_of_mem hq)

theorem exists_leastCount (op : OpState) {ps : List (Fin 4)} (h : ps ≠ []) : ∃ q ∈ ps, leastCount op ps = joinCount op q := by
  obtain ⟨q, hq, he⟩ := List.mem_map.mp (List.min?_eq_some_iff.mp (min?_joinCounts op h)).1
  exact ⟨q, hq, he.symm⟩

/-- The flag of a `join.all` says that the counts of its ports differ. -/
def joinFlags (op : OpState) (ps : List (Fin 4)) : Flags :=
  flagIf ((ps.map (joinCount op)).any (· ≠ leastCount op ps)) fNv

theorem joinFlags_eq_zero (op : OpState) (ps : List (Fin 4)) :
    joinFlags op ps = 0 ↔ ∀ q ∈ ps, joinCount op q = leastCount op ps := by
  have hflag (b : Bool) : flagIf b fNv = 0 ↔ b = false := by cases b <;> decide
  rw [joinFlags, hflag, List.any_eq_false, List.forall_mem_map]
  simp

/-- A `join.all` whose ports all hold a MARK. -/
theorem fireJoinAll_of_marks {k : CompCfg} {inp : Vector (Option Token) 4} {op : OpState} {t : Token} {ts : List Token}
    (hheads : headsOf inp k.ports = .ok (t :: ts)) (hmark : ∀ x ∈ t :: ts, x.kind = .mark) :
    fireJoinAll k inp op = .fire { Fired.of k.ports { op with n := Vector.replicate 6 0 } with
      outs := toA (List.replicate (leastCount op k.ports) (dataTok 0 0 false) ++ [plainTok .mark])
      flags := joinFlags op k.ports
      commit := true } := by
  rw [fireJoinAll, if_neg]
  · simp only [hheads, oneClass_of_kind hmark, Bool.not_true, Bool.false_eq_true, if_false, List.headD_cons,
      hmark t List.mem_cons_self]
    rfl
  · -- no port holds a DATA token
    simp only [Bool.not_eq_true', Bool.not_eq_false, List.isEmpty_iff, List.filter_eq_nil_iff]
    intro p hp
    obtain ⟨x, hx, hin⟩ := exists_head hheads hp
    simp [hin, hmark x hx]

/-! ### `join.pred` -/

section
variable {k : CompCfg} {inp : Vector (Option Token) 4} {op : OpState} {t : Token} (hin : inp[k.port 0] = some t)
include hin

theorem fireJoinPred_of_data (hkind : t.kind = .data) : fireJoinPred k inp op =
    .fire { Fired.of [k.port 0] { op with latch := some t.payload } with outs := [(.a, t)], mark := t.poison } := by
  simp only [fireJoinPred, hin, hkind]
  rfl

theorem fireJoinPred_of_mark (hkind : t.kind = .mark) : fireJoinPred k inp op =
    .fire { Fired.of [k.port 0] { op with latch := none } with
      outs := [(.a, plainTok .mark)], commit := true, pred := op.latch.map (predTest (k.param 170 2)) } := by
  simp only [fireJoinPred, hin, hkind]
  rfl

end

theorem Num.sign_fin_eq_one (n : Bool) (m : Nat) (e : Int) : (Num.fin n m e).sign = 1 ↔ m ≠ 0 ∧ n = false := by
  by_cases hm : m = 0
  · simp [Num.sign, hm]
  · cases n <;> simp [Num.sign, hm]

theorem Num.sign_inf_eq_one (n : Bool) : (Num.inf n).sign = 1 ↔ n = false := by cases n <;> decide

/-- The FP32 codes of numbers above +0 and of +∞ (R370). -/
theorem sign_ofCode_f32 {x : Nat} (hx : x < 2 ^ 32) : (Num.ofCode f32 x).sign = 1 ↔ 0 < x ∧ x ≤ 0x7F80_0000 := by
  have hneg : neg32 x = false ↔ x < 2 ^ 31 := by rw [neg32, decide_eq_false_iff_not]; omega
  rw [ofCode_f32]
  rcases lt_trichotomy (x % 2 ^ 31) f32.infMag with h | h | h
  · obtain ⟨m, e, hv, -, hzero⟩ := f32.valueOf_fin (neg32 x) h
    rw [hv, Num.sign_fin_eq_one, ne_eq, hzero, hneg]
    rw [infMag_f32] at h
    omega
  · rw [h, f32.valueOf_infMag, Num.sign_inf_eq_one, hneg]
    rw [infMag_f32] at h
    omega
  · rw [f32.valueOf_of_gt h (mod_lt_f32 x)]
    rw [infMag_f32] at h
    refine iff_of_false (zero_ne_one' ℤ) ?_
    omega

theorem zero_slt (w : BitVec 32) : (0 : BitVec 32).slt w = decide (0 < w.toNat ∧ w.toNat < 2 ^ 31) := by
  have hw := w.isLt
  have h0 : (0 : BitVec 32).toInt = 0 := rfl
  rw [BitVec.slt, decide_eq_decide, h0, BitVec.toInt_eq_toNat_cond]
  split <;> omega

/-- The tests of a predicate on the first lane of a payload (R370, R382). -/
theorem predTest_eq (n : Nat) (p : Frame) : predTest n p =
    if n = 0 then decide (laneCode p 0 ≠ 0)
    else if n = 1 then decide (0 < laneCode p 0 ∧ laneCode p 0 ≤ 0x7F80_0000)
    else decide (0 < laneCode p 0 ∧ laneCode p 0 < 2 ^ 31) := by
  have hw : (p.extractLsb' 0 32).toNat = laneCode p 0 := BitVec.extractLsb'_toNat ..
  have hlt : laneCode p 0 < 2 ^ 32 := hw ▸ (p.extractLsb' 0 32).isLt
  rcases n with _ | _ | n
  · rw [if_pos rfl, predTest, ← hw]
    simp [← BitVec.toNat_inj]
  · rw [if_neg (by decide), if_pos rfl, predTest, hw, decide_eq_decide, sign_ofCode_f32 hlt]
  · rw [if_neg (by omega), if_neg (by omega), ← hw]
    exact zero_slt _

end Sys2Proof.Machine

namespace Sys2Proof

open Machine

/-- Settles O53: a firing of each operator by its own lemma (`fireRed_o32`, `fireTurn_of_full`, `fireFifo_of_ready`,
`fireJoinAll_of_marks`); a sum of `sum.red` is its own rounding where it is stored (`round_addNum`), a block is transposed by
`getElem?_turned`, and `predTest_eq` gives the predicate. -/
theorem operatorsFireByTheirRules : Obligations.OperatorsFireByTheirRules := by
  intro k e inp op ts t u code n plus
  refine ⟨fun hk hm hfa hfo hheads hterms hts hbuf => ?red, fun hk hbusy hin hkind hfull => ?turn,
    fun hk hm hstore hstamps hfree => ?fifo, fun hk hm hheads hmarks => ?all, fun hk hm hin => ?pred⟩
  case red =>
    have hne : ts ≠ [] := List.ne_nil_of_length_pos hts
    obtain ⟨fl, hfire⟩ := fireRed_o32 hfa hfo hheads (fun x hx => (hterms x hx).1) (fun x hx => (hterms x hx).2.1) hne hbuf
    have hop : fireOp k e inp op = fireRed k inp op := by simp only [fireOp, hk, hm, if_true]
    exact ⟨_, redToken t ts, hop.trans hfire, rfl, rfl, rfl, rfl, rfl, fun j hj => laneCode_redToken t hne hj⟩
  case turn =>
    have hop : fireOp k e inp op = fireTurn k false inp op := by simp only [fireOp, hk, hbusy]
    refine ⟨_, hop.trans (fireTurn_of_full hin hkind hfull), rfl, rfl, rfl, ?_, fun i hi j hj => ?_, ?_⟩
    · rw [toA, List.length_map, List.length_append, length_turned, List.length_singleton]
    · have hlen : (op.store ++ [t]).length = n * n := by rw [List.length_append, List.length_singleton, hfull]
      have hlt : j * n + i < (turned n (op.store ++ [t])).length := length_turned n _ ▸ index_lt_block hj hi
      rw [← getElem?_turned hlen hi hj, toA, List.getElem?_map, Option.map_map, List.getElem?_append_left hlt]
      exact Option.map_id' ..
    · rw [toA, List.map_append, List.map_singleton, List.getLast?_concat]
  case fifo =>
    obtain ⟨w, ws, hstamps, hready⟩ := hstamps
    have hop : fireOp k e inp op = fireFifo k e.now true inp op := by simp only [fireOp, hk, hm, hfree, if_true]
    exact ⟨_, hop.trans (fireFifo_of_ready hstore hstamps hready), rfl, rfl, rfl⟩
  case all =>
    have hne : k.ports ≠ [] := fun h0 => by simpa [h0] using map_some_heads hheads
    have hop : fireOp k e inp op = fireJoinAll k inp op := by simp only [fireOp, hk, hm, if_true]
    refine ⟨_, leastCount op k.ports, hop.trans (fireJoinAll_of_marks hheads hmarks), rfl, rfl, fun q hq => leastCount_le op hq,
      exists_leastCount op hne, ?_, joinFlags_eq_zero op k.ports⟩
    rw [toA, List.map_append, List.map_replicate, List.map_singleton]
  case pred =>
    have hop : fireOp k e inp op = fireJoinPred k inp op := by simp only [fireOp, hk, hm, if_false]
    refine ⟨fun hkind => ⟨_, hop.trans (fireJoinPred_of_data hin hkind), rfl, rfl⟩,
      fun hkind => ⟨_, hop.trans (fireJoinPred_of_mark hin hkind), rfl, rfl, ?_⟩⟩
    exact congrArg op.latch.map (funext (predTest_eq (k.param 170 2)))

end Sys2Proof

/-! The Weir of a quad (R217 to R223): what a cut of the quad shows, when a Weir settles, and the instructions `gq`, `gsw` and
`grel`. -/

namespace Sys2Proof.Machine

open Sys2Proof

/-! ### A Weir settles (R218, R222, R223) -/

theorem Weir.atRest_iff (w : Weir) : w.atRest = true ↔
    w.graph = none ∨ (w.openVec = [] ∧ w.outq = [] ∧ (w.received = false ∨ w.ended = true)) := by
  simp [Weir.atRest, and_assoc]

/-- No swap and no release of the Weir is pending. -/
def Weir.Quiet (w : Weir) : Prop := w.swap = false ∧ w.release = false

theorem Weir.settle_of_quiet {w : Weir} (h : w.Quiet) : w.settle = w := by
  simp [Weir.settle, h.1, h.2]

theorem Weir.settle_of_busy {w : Weir} (h : ¬ w.atRest = true) : w.settle = w := by
  simp [Weir.settle, h]

theorem Weir.settle_of_swap {w : Weir} (h : w.atRest = true) (hs : w.swap = true) (hr : w.release = false) :
    w.settle = { w with active := w.shadow, swap := false, received := false, ended := false } := by
  simp [Weir.settle, h, hs, hr, Weir.shadow]

theorem Weir.settle_of_release {w : Weir} (h : w.atRest = true) (hs : w.swap = false) (hr : w.release = true) :
    w.settle = { w with ctx := setAt w.ctx w.active none, release := false, received := false, ended := false } := by
  simp [Weir.settle, h, hs, hr]

/-! ### What `gsw` and `grel` make of a Weir without a pending swap or release (R222, R223) -/

/-- What `gsw` makes of a Weir before it settles. -/
def Weir.askSwap (w : Weir) : Weir := if (w.ctx[w.shadow]).isNone || w.swap then w else { w with swap := true }

/-- What `grel` makes of a Weir before it settles. -/
def Weir.askRelease (ctx : BitVec 1) (w : Weir) : Weir :=
  if (w.ctx[ctx.toFin]).isNone then w
  else if ctx.toFin = w.active then { w with release := true }
  else { w with ctx := setAt w.ctx ctx.toFin none, swap := false }

section
variable {w : Weir} (hq : w.Quiet)
include hq

theorem Weir.askSwap_settle_of_empty (h : (w.ctx[w.shadow]).isNone = true) : w.askSwap.settle = w := by
  rw [Weir.askSwap, h, Bool.true_or, if_pos rfl, Weir.settle_of_quiet hq]

theorem Weir.askSwap_of_loaded (h : (w.ctx[w.shadow]).isSome = true) : w.askSwap = { w with swap := true } := by
  have hn : (w.ctx[w.shadow]).isNone = false := Option.isNone_eq_false_iff.mpr h
  simp only [Weir.askSwap, hn, hq.1, Bool.or_self, Bool.false_eq_true, if_false]

theorem Weir.askSwap_settle_of_rest (h : (w.ctx[w.shadow]).isSome = true) (hr : w.atRest = true) :
    w.askSwap.settle = { w with active := w.shadow, received := false, ended := false } := by
  have hs : ({ w with swap := true } : Weir).settle = { w with active := w.shadow, received := false, ended := false, swap := false } :=
    Weir.settle_of_swap (w := { w with swap := true }) hr rfl hq.2
  rw [Weir.askSwap_of_loaded hq h, hs, ← hq.1]

theorem Weir.askSwap_settle_of_busy (h : (w.ctx[w.shadow]).isSome = true) (hr : ¬ w.atRest = true) :
    w.askSwap.settle = { w with swap := true } := by
  rw [Weir.askSwap_of_loaded hq h]
  exact Weir.settle_of_busy (w := { w with swap := true }) hr

variable {ctx : BitVec 1}

theorem Weir.askRelease_settle_of_empty (h : (w.ctx[ctx.toFin]).isNone = true) : (w.askRelease ctx).settle = w := by
  rw [Weir.askRelease, if_pos h, Weir.settle_of_quiet hq]

theorem Weir.askRelease_settle_of_shadow (h : (w.ctx[ctx.toFin]).isSome = true) (ha : ctx.toFin ≠ w.active) :
    (w.askRelease ctx).settle = { w with ctx := setAt w.ctx ctx.toFin none } := by
  have he : w.askRelease ctx = { w with ctx := setAt w.ctx ctx.toFin none } := by
    rw [Weir.askRelease, Option.isNone_eq_false_iff.mpr h, if_neg Bool.false_ne_true, if_neg ha, ← hq.1]
  rw [he]
  exact Weir.settle_of_quiet hq

omit hq in
theorem Weir.askRelease_of_active (h : (w.ctx[ctx.toFin]).isSome = true) (ha : ctx.toFin = w.active) :
    w.askRelease ctx = { w with release := true } := by
  rw [Weir.askRelease, Option.isNone_eq_false_iff.mpr h, if_neg Bool.false_ne_true, if_pos ha]

theorem Weir.askRelease_settle_of_rest (h : (w.ctx[ctx.toFin]).isSome = true) (ha : ctx.toFin = w.active) (hr : w.atRest = true) :
    (w.askRelease ctx).settle = { w with ctx := setAt w.ctx ctx.toFin none, received := false, ended := false } := by
  have hs : ({ w with release := true } : Weir).settle =
      { w with ctx := setAt w.ctx w.active none, received := false, ended := false, release := false } :=
    Weir.settle_of_release (w := { w with release := true }) hr hq.1 rfl
  rw [Weir.askRelease_of_active h ha, hs, ← hq.2, ha]

omit hq in
theorem Weir.askRelease_settle_of_busy (h : (w.ctx[ctx.toFin]).isSome = true) (ha : ctx.toFin = w.active)
    (hr : ¬ w.atRest = true) : (w.askRelease ctx).settle = { w with release := true } := by
  rw [Weir.askRelease_of_active h ha]
  exact Weir.settle_of_busy (w := { w with release := true }) hr

end

theorem Weir.freeNodes_toNat (w : Weir) : (BitVec.ofNat 64 w.freeNodes).toNat =
    if (w.ctx[w.shadow]).isSome then 0 else (32768 - w.activeNodes) % 2 ^ 64 := by
  rw [BitVec.toNat_ofNat, Weir.freeNodes]
  split <;> rfl

end Sys2Proof.Machine

namespace Sys2Proof

open Machine

/-! ### One Weir of a state -/

theorem weirs_modWeir_self (s : State) (q : Fin 64) (f : Weir → Weir) : (s.modWeir q f).weirs[q] = f s.weirs[q] :=
  getElem_setAt_self _ _ _

theorem weirs_modWeir_ne (s : State) {q j : Fin 64} (f : Weir → Weir) (h : j ≠ q) : (s.modWeir q f).weirs[j] = s.weirs[j] :=
  getElem_setAt_ne _ _ _ _ h

theorem modWeir_modWeir (s : State) (q : Fin 64) (f g : Weir → Weir) :
    (s.modWeir q f).modWeir q g = s.modWeir q fun w => g (f w) := by
  have h : (s.modWeir q f).modWeir q g = { s with weirs := setAt (setAt s.weirs q (f s.weirs[q])) q (g (s.modWeir q f).weirs[q]) } :=
    rfl
  rw [h, setAt_setAt, weirs_modWeir_self]
  rfl

theorem modWeir_self (s : State) (q : Fin 64) {f : Weir → Weir} (h : f s.weirs[q] = s.weirs[q]) : s.modWeir q f = s := by
  rw [State.modWeir, h, setAt_getElem]

/-! ### What a cut of the quad shows (R237, R453) -/

theorem mapVec_mapVec {α β γ : Type} {n : Nat} (g : β → γ) (f : α → β) (v : Vector α n) :
    mapVec g (mapVec f v) = mapVec (fun x => g (f x)) v := by
  simp [mapVec]

theorem shownSame_takeCut (k : Core) : ShownSame k k.takeCut := by
  unfold Core.takeCut
  split
  · exact ⟨rfl, rfl⟩
  · refine ⟨rfl, ?_⟩
    simp only [shownFab, mapVec_mapVec]
    rfl

/-- `t` is `s` but for what is not shown of the cores and of Weir `q`: stall counters, the pauses of regions, and what a replay
reads. -/
structure QuadShown (q : Fin 64) (s t : State) : Prop where
  rest : t = { s with weirs := t.weirs, cores := t.cores }
  core : ∀ d, ShownSame (s.core d) (t.core d)
  weir : shownWeir t.weirs[q] = shownWeir s.weirs[q]
  others : ∀ j : Fin 64, j ≠ q → t.weirs[j] = s.weirs[j]

theorem QuadShown.refl (q : Fin 64) (s : State) : QuadShown q s s := ⟨rfl, fun _ => .refl _, rfl, fun _ _ => rfl⟩

theorem QuadShown.trans {q : Fin 64} {s t u : State} (h : QuadShown q s t) (k : QuadShown q t u) : QuadShown q s u where
  rest := by rw [k.rest, h.rest]
  core d := (h.core d).trans (k.core d)
  weir := k.weir.trans h.weir
  others j hj := (k.others j hj).trans (h.others j hj)

theorem quadShown_modCore (q : Fin 64) (s : State) (c : CoreId) {f : Core → Core} (h : ShownSame (s.core c) (f (s.core c))) :
    QuadShown q s (s.modCore c f) := by
  refine ⟨rfl, fun d => ?_, rfl, fun _ _ => rfl⟩
  by_cases hd : d = c
  · rw [hd, State.core_modCore_self]
    exact h
  · rw [State.core_modCore_ne _ _ _ _ hd]
    exact .refl _

theorem quadShown_modWeir (q : Fin 64) (s : State) {f : Weir → Weir} (h : shownWeir (f s.weirs[q]) = shownWeir s.weirs[q]) :
    QuadShown q s (s.modWeir q f) := by
  refine ⟨rfl, fun _ => .refl _, ?_, fun j hj => weirs_modWeir_ne s f hj⟩
  rw [weirs_modWeir_self, h]

theorem quadShown_cutQuad (q : Fin 64) (s : State) : QuadShown q s (s.cutQuad q) := by
  refine .trans (List.foldlRecOn _ _ (motive := QuadShown q s) (.refl q s) fun t ht i _ => ?_) (quadShown_modWeir q _ rfl)
  exact ht.trans (quadShown_modCore q t _ (shownSame_takeCut _))

/-! ### The Weir of a quad settles (R218, R222, R223) -/

theorem settleWeir_of_quiet {s : State} {q : Fin 64} (h : (s.weirs[q]).Quiet) : s.settleWeir q = s := by
  simp only [State.settleWeir, h.1, h.2, Bool.or_self, Bool.and_false, Bool.false_eq_true, if_false]

theorem settleWeir_of_busy {s : State} {q : Fin 64} (h : ¬ (s.weirs[q]).atRest = true) : s.settleWeir q = s := by
  simp only [State.settleWeir, h, Bool.false_and, Bool.false_eq_true, if_false]

/-- Beside what is not shown, a Weir that settles becomes what `Weir.settle` says. -/
theorem quadShown_settleWeir (s : State) (q : Fin 64) : QuadShown q (s.modWeir q Weir.settle) (s.settleWeir q) := by
  unfold State.settleWeir
  dsimp only
  split
  · exact quadShown_cutQuad q _
  next h =>
    have hw : (s.weirs[q]).settle = s.weirs[q] := by
      unfold Weir.settle
      rw [if_pos]
      rw [Bool.not_eq_true, Bool.and_eq_false_iff] at h
      simpa using h
    rw [modWeir_self s q hw]
    exact .refl q s

/-- A Weir changes and settles then. -/
theorem quadShown_mod_settle (s : State) (q : Fin 64) (f : Weir → Weir) :
    QuadShown q (s.modWeir q fun _ => (f s.weirs[q]).settle) ((s.modWeir q f).settleWeir q) := by
  have h := quadShown_settleWeir (s.modWeir q f) q
  rw [modWeir_modWeir] at h
  exact h

/-! ### Who may use a Weir (R73, R409) -/

/-- The group of core `c` holds its whole quad. -/
def QuadHeld (s : State) (c : CoreId) : Prop := ∀ j : Fin 4, coreOf (weirOf c) j.val ∈ (s.launch c).group

section
variable {s : State} {c : CoreId} {i : Instr}

theorem quadHeld_iff : QuadHeld s c ↔
    ((List.range 4).all fun j => (s.launch c).group.contains (coreOf (weirOf c) j)) = true := by
  simp only [QuadHeld, List.all_eq_true, List.mem_range, List.contains_iff_mem]
  exact ⟨fun h j hj => h ⟨j, hj⟩, fun h j => h j.val j.isLt⟩

theorem weirMine_of_no_weir (h : s.part.hasWeir = false) : s.weirMine c i = .error (fault 0x12 (encode i)) := by
  simp only [State.weirMine, h, Bool.not_false, if_true, except_throw_bind]

theorem weirMine_of_not_held (h : s.part.hasWeir = true) (hq : ¬ QuadHeld s c) : s.weirMine c i = .error (fault 0x04 0) := by
  rw [quadHeld_iff, Bool.not_eq_true] at hq
  simp only [State.weirMine, h, hq, Bool.not_true, Bool.not_false, Bool.false_eq_true, if_true, if_false]
  rfl

theorem weirMine_of_held (h : s.part.hasWeir = true) (hq : QuadHeld s c) : s.weirMine c i = .ok () := by
  rw [quadHeld_iff] at hq
  simp only [State.weirMine, h, hq, Bool.not_true, Bool.false_eq_true, if_false]
  rfl

end

/-! ### `gq`, `gsw`, `grel` (R220, R222, R223) -/

/-- The attempt of an instruction of the Weir: the two checks, then `k`. -/
def weirAttempt (s : State) (i : Instr) (k : Except Stop State) : Except Stop State := s.weirMine s.cur i >>= fun _ => k

theorem exec_gq (s : State) (d : Reg) : exec (.gq d) s = s.outcome s.cur (.gq d) (weirAttempt s (.gq d)
    (.ok ((s.settleWeir (weirOf s.cur)).giveResult s.cur d
      (BitVec.ofNat 64 ((s.settleWeir (weirOf s.cur)).weirs[weirOf s.cur]).freeNodes)))) := rfl

theorem exec_gsw (s : State) : exec .gsw s = s.outcome s.cur .gsw (weirAttempt s .gsw
    (.ok ((((s.settleWeir (weirOf s.cur)).modWeir (weirOf s.cur) Weir.askSwap).settleWeir (weirOf s.cur)).goOn s.cur))) := rfl

theorem exec_grel (s : State) (ctx : BitVec 1) : exec (.grel ctx) s = s.outcome s.cur (.grel ctx) (weirAttempt s (.grel ctx)
    (.ok ((((s.settleWeir (weirOf s.cur)).modWeir (weirOf s.cur) (Weir.askRelease ctx)).settleWeir (weirOf s.cur)).goOn s.cur))) :=
  rfl

theorem exists_weirAttempt {s : State} {i : Instr} {d : Reg} {ctx : BitVec 1} (h : i = .gq d ∨ i = .gsw ∨ i = .grel ctx) :
    ∃ k, exec i s = s.outcome s.cur i (weirAttempt s i k) := by
  rcases h with rfl | rfl | rfl
  · exact ⟨_, exec_gq s d⟩
  · exact ⟨_, exec_gsw s⟩
  · exact ⟨_, exec_grel s ctx⟩

/-- `exec i s` goes on and leaves the Weir of the core as `w`, beside what is not shown. -/
def WeirGoes (s : State) (i : Instr) (w : Weir) : Prop :=
  ∃ t, exec i s = .next t ∧ shownWeir t.weirs[weirOf s.cur] = shownWeir w ∧ OthersShown s.cur (some (weirOf s.cur)) s t ∧
    t = { s with weirs := t.weirs, cores := t.cores } ∧ t.pump s.cur = { s.pump s.cur with pc := nextPc s } ∧
    t.core s.cur = { s.core s.cur with pump := t.pump s.cur, fab := (t.core s.cur).fab } ∧
    shownFab (t.core s.cur).fab = shownFab (s.core s.cur).fab

theorem weirGoes_of {s u : State} {i : Instr} {w : Weir} (h : exec i s = .next (u.goOn s.cur))
    (hu : QuadShown (weirOf s.cur) (s.modWeir (weirOf s.cur) fun _ => w) u) : WeirGoes s i w := by
  have hcur : (u.goOn s.cur).core s.cur = { u.core s.cur with pump := (u.pump s.cur).advance } := State.core_modPump_self ..
  have hpump : (u.goOn s.cur).pump s.cur = { s.pump s.cur with pc := nextPc s } := by
    rw [State.pump, hcur]
    exact congrArg Pump.advance (hu.core s.cur).pump
  refine ⟨_, h, ?_, ⟨fun d hd => ?_, fun j hj => ?_⟩, ?_, hpump, ?_, ?_⟩
  · exact hu.weir.trans (by rw [weirs_modWeir_self])
  · rw [show (u.goOn s.cur).core d = u.core d from State.core_modPump_ne _ _ _ _ hd]
    exact hu.core d
  · have hne : j ≠ weirOf s.cur := fun e => hj (congrArg some e)
    exact congrArg shownWeir ((hu.others j hne).trans (weirs_modWeir_ne s _ hne))
  · rw [State.goOn, State.modPump, State.modCore, State.setCore, hu.rest]
    rfl
  · rw [State.pump, hcur, (hu.core s.cur).1]
    rfl
  · rw [hcur]
    exact (hu.core s.cur).2

section
variable {s : State} (hweir : s.part.hasWeir = true) (hheld : QuadHeld s s.cur) (hq : (s.weirs[weirOf s.cur]).Quiet)
include hweir hheld

theorem outcome_weirAttempt (i : Instr) (t : State) : s.outcome s.cur i (weirAttempt s i (.ok t)) = .next t := by
  rw [weirAttempt, weirMine_of_held hweir hheld, except_ok_bind, State.outcome_ok]

include hq

theorem exec_gq_of_held (d : Reg) :
    exec (.gq d) s = .next (s.giveResult s.cur d (BitVec.ofNat 64 (s.weirs[weirOf s.cur]).freeNodes)) := by
  rw [exec_gq, outcome_weirAttempt hweir hheld, settleWeir_of_quiet hq]

theorem weirGoes_gsw : WeirGoes s .gsw (s.weirs[weirOf s.cur]).askSwap.settle := by
  refine weirGoes_of ?_ (quadShown_mod_settle s _ Weir.askSwap)
  rw [exec_gsw, outcome_weirAttempt hweir hheld, settleWeir_of_quiet hq]

theorem weirGoes_grel (ctx : BitVec 1) : WeirGoes s (.grel ctx) ((s.weirs[weirOf s.cur]).askRelease ctx).settle := by
  refine weirGoes_of ?_ (quadShown_mod_settle s _ (Weir.askRelease ctx))
  rw [exec_grel, outcome_weirAttempt hweir hheld, settleWeir_of_quiet hq]

end

/-- Settles O45: each instruction changes its Weir, which then settles (`weirGoes_gsw`, `weirGoes_grel`), and what `Weir.settle`
makes of it depends on whether the active context rests. -/
theorem weirContextsSwapAtRest : Obligations.WeirContextsSwapAtRest := by
  intro s d ctx q i c p w holds goes rest begun
  refine ⟨fun hi hcan => ⟨fun hn => ?absent, fun hw hn => ?notHeld⟩, fun hw hh hs hr => ?quiet, fun hs hr => ⟨?swap, ?wait⟩⟩
  case absent =>
    obtain ⟨k, hk⟩ := exists_weirAttempt hi
    exact faults_of _ _ _ _ _ hk (by rw [weirAttempt, weirMine_of_no_weir hn]; rfl) hcan
  case notHeld =>
    obtain ⟨k, hk⟩ := exists_weirAttempt hi
    exact faults_of _ _ _ _ _ hk (by rw [weirAttempt, weirMine_of_not_held hw hn]; rfl) hcan
  case quiet =>
    have hq : w.Quiet := ⟨hs, hr⟩
    have hgsw : WeirGoes s .gsw w.askSwap.settle := weirGoes_gsw hw hh hq
    have hgrel : WeirGoes s (.grel ctx) (w.askRelease ctx).settle := weirGoes_grel hw hh hq ctx
    refine ⟨computes_of _ _ _ _ _ (exec_gq_of_held hw hh hq d) w.freeNodes_toNat, fun h => ?_, fun h hrest => ?_,
      fun h hrest => ?_, fun h => ?_, fun h ha => ?_, fun h ha hrest => ?_, fun h ha hrest => ?_⟩
    · rwa [Weir.askSwap_settle_of_empty hq h] at hgsw
    · rwa [Weir.askSwap_settle_of_rest hq h (w.atRest_iff.mpr hrest)] at hgsw
    · rwa [Weir.askSwap_settle_of_busy hq h (mt w.atRest_iff.mp hrest)] at hgsw
    · rwa [Weir.askRelease_settle_of_empty hq h] at hgrel
    · rwa [Weir.askRelease_settle_of_shadow hq h ha] at hgrel
    · rwa [Weir.askRelease_settle_of_rest hq h ha (w.atRest_iff.mpr hrest)] at hgrel
    · rwa [Weir.askRelease_settle_of_busy h ha (mt w.atRest_iff.mp hrest)] at hgrel
  case swap =>
    intro hrest
    have hset := quadShown_settleWeir s q
    refine ⟨_, rfl, by rw [hset.rest]; rfl, ?_, fun j hj => (hset.others j hj).trans (weirs_modWeir_ne s _ hj), hset.core⟩
    rw [hset.weir, weirs_modWeir_self, Weir.settle_of_swap ((s.weirs[q]).atRest_iff.mpr hrest) hs hr]
  case wait =>
    exact fun hrest => congrArg Host.Outcome.next (settleWeir_of_busy (mt (s.weirs[q]).atRest_iff.mp hrest))

end Sys2Proof

/-! `gld` and GLD_COMPLETE (R213, R215, R221): what the read phase of a `gld` reads, the checks of the graph it finds, and the
graph in the shadow context. -/

namespace Sys2Proof

open Machine

/-! ### The reads of a `gld` do not depend on its pump (R221) -/

theorem loadV_modPump (s : State) (c : CoreId) (f : Pump → Pump) (ea : Word) (n : Nat) (need : Need) :
    (s.modPump c f).loadV c ea n need = s.loadV c ea n need := by
  simp only [State.loadV, State.paOf, translate_modPump, view_modPump]
  rfl

theorem loadWords_modPump (s : State) (c : CoreId) (f : Pump → Pump) (ea : Word) (n : Nat) :
    (s.modPump c f).loadWords c ea n = s.loadWords c ea n := by
  induction n generalizing ea with
  | zero => rfl
  | succ n ih => simp only [State.loadWords, loadV_modPump, ih]

theorem loadImage_modPump (s : State) (c : CoreId) (f : Pump → Pump) (a : Word) (n : Nat) :
    (s.modPump c f).loadImage c a n = s.loadImage c a n := by
  simp only [State.loadImage, loadWords_modPump]

theorem weirMine_modPump (s : State) (c : CoreId) (f : Pump → Pump) (i : Instr) :
    (s.modPump c f).weirMine c i = s.weirMine c i := by
  simp only [State.weirMine, launch_modPump_self]
  rfl

/-- A read of an image gives the bytes asked for. -/
theorem length_of_loadImage {s : State} {c : CoreId} {a : Word} {n : Nat} {bs : List Byte}
    (h : s.loadImage c a n = .ok bs) : bs.length = n := by
  unfold State.loadImage at h
  dsimp only at h
  split at h
  case h_4 ws hws =>
    cases h
    have hlen := length_of_loadWords hws
    simp only [List.length_take, List.length_drop]
    omega
  all_goals cases h

theorem length_chunks {α : Type} {n m : Nat} {v : List α} (hn : 0 < n) (h : v.length = n * m) : (chunks n v).length = m := by
  rw [chunks_eq_map hn h, List.length_map, List.length_range]

/-! ### The checks of a graph (R215) -/

theorem graphFault_of_sound {g : Graph} {sn : NodeSeen} (hin : ∀ l ∈ g.inMap, l.toNat < g.nl)
    (hout : ∀ e ∈ g.outMap, e.extractLsb' 12 8 = 0 ∧ (e.extractLsb' 0 12).toNat < g.nout)
    (hnodes : nodesFault g.inMap g.outMap.length g.nodes { nodes := #[], outs := [] } = .ok sn)
    (houts : ∀ e < g.outMap.length, e ∈ sn.outs) : g.fault = none := by
  have h1 : (g.inMap.findIdx? fun l => decide (g.nl ≤ l.toNat)) = none :=
    List.findIdx?_eq_none_iff.mpr fun l hl => decide_eq_false (not_le.mpr (hin l hl))
  have h2 : (g.outMap.findIdx? fun e =>
      decide ((e.extractLsb' 12 8).toNat ≠ 0) || decide (g.nout ≤ (e.extractLsb' 0 12).toNat)) = none :=
    List.findIdx?_eq_none_iff.mpr fun e he => by
      obtain ⟨hz, hlt⟩ := hout e he
      rw [hz, decide_eq_false (not_le.mpr hlt)]
      rfl
  have h3 : ((List.range g.outMap.length).find? fun e => !sn.outs.contains e) = none :=
    List.find?_eq_none.mpr fun e he => by simp [houts e (List.mem_range.mp he)]
  simp only [Graph.fault, h1, h2, hnodes, h3, Option.map_none]

/-! ### The attempt of a `gld` (R213, R215, R221) -/

/-- Weir `w` with the graph `g` in its shadow context. -/
def withShadow (w : Weir) (g : Graph) : Weir := { w with ctx := setAt w.ctx w.shadow (some g) }

/-- The state after a `gld` of core `c` that loads graph `g`. -/
def graphLoaded (s : State) (c : CoreId) (g : Graph) : State :=
  ((s.modWeir (weirOf c) fun w => withShadow w g).modPump c fun p => { p with stallWhy := 7 }).goOn c

/-- The image that register value `v` names can be read, and it breaks no check: its graph is `g`. -/
structure SoundImage (s : State) (c : CoreId) (v : Word) (h im om nd : List Byte) : Prop where
  header : s.loadWords c v 8 = .ok h
  good : graphHeaderBad h = false
  inMap : s.loadImage c (v + BitVec.ofNat 64 (fieldAt h 0x20 8)) (2 * fieldAt h 0xC 2) = .ok im
  outMap : s.loadImage c (v + BitVec.ofNat 64 (fieldAt h 0x28 8)) (4 * fieldAt h 0xE 2) = .ok om
  nodes : s.loadImage c (v + BitVec.ofNat 64 (fieldAt h 0x18 8)) (8 * fieldAt h 8 4) = .ok nd
  sound : (Graph.of h nd im om).fault = none

section
variable {s : State} {c : CoreId} {a : Reg} {h im om nd : List Byte} {v : Word}

theorem SoundImage.modPump (hi : SoundImage s c v h im om nd) (f : Pump → Pump) : SoundImage (s.modPump c f) c v h im om nd where
  header := (loadWords_modPump ..).trans hi.header
  good := hi.good
  inMap := (loadImage_modPump ..).trans hi.inMap
  outMap := (loadImage_modPump ..).trans hi.outMap
  nodes := (loadImage_modPump ..).trans hi.nodes
  sound := hi.sound

theorem SoundImage.length_nodes (hi : SoundImage s c v h im om nd) : (Graph.of h nd im om).nodes.length = fieldAt h 8 4 :=
  (List.length_map _).trans (length_chunks (by decide) (length_of_loadImage hi.nodes))

variable (hmine : s.weirMine c (.gld a) = .ok ())
include hmine

theorem gldTry_of_misaligned (h8 : ((s.pump c).read a).toNat % 64 ≠ 0) :
    s.gldTry c a = .error (fault 0x02 ((s.pump c).read a)) := by
  simp only [State.gldTry, hmine, except_ok_bind, if_pos h8]
  rfl

variable (h8 : ((s.pump c).read a).toNat % 64 = 0)
include h8

theorem gldTry_of_badHeader (hh : s.loadWords c ((s.pump c).read a) 8 = .ok h) (hb : graphHeaderBad h = true) :
    s.gldTry c a = .error (fault 0x10 0) := by
  simp only [State.gldTry, hmine, except_ok_bind, h8, hh, hb, ne_eq, not_true_eq_false, if_false, if_true]
  rfl

variable (hi : SoundImage s c ((s.pump c).read a) h im om nd) (hq : (s.weirs[weirOf c]).Quiet)
include hi hq

theorem gldTry_of_image : s.gldTry c a =
    if (s.weirs[weirOf c]).freeNodes < fieldAt h 8 4
    then .error (fault 0x13 (BitVec.ofNat 64 (fieldAt h 8 4 * 2 ^ 16 + (s.weirs[weirOf c]).freeNodes)))
    else .ok (graphLoaded s c (Graph.of h nd im om)) := by
  simp only [State.gldTry, hmine, except_ok_bind, h8, hi.header, hi.good, graphSizes, hi.inMap, hi.outMap, hi.nodes, hi.sound,
    hi.length_nodes, settleWeir_of_quiet hq, ne_eq, not_true_eq_false, Bool.false_eq_true, if_false]
  rfl

end

/-! ### What a loaded graph leaves (R221) -/

/-- From `s` to `t` core `c` goes on with `g` in the shadow context of its Weir, and with stall cause 7. -/
def LoadsGraph (s t : State) (c : CoreId) (g : Graph) : Prop :=
  t.weirs[weirOf c] = withShadow s.weirs[weirOf c] g ∧ (∀ j : Fin 64, j ≠ weirOf c → t.weirs[j] = s.weirs[j]) ∧
    t = { s with weirs := t.weirs, cores := t.cores } ∧
    t.cores = (s.modPump c fun _ => { s.pump c with stallWhy := 7, pc := (s.pump c).pc + 8 }).cores

theorem loadsGraph_graphLoaded (s : State) (c : CoreId) (g : Graph) : LoadsGraph s (graphLoaded s c g) c g := by
  have hw : (graphLoaded s c g).weirs = (s.modWeir (weirOf c) fun w => withShadow w g).weirs := rfl
  refine ⟨?_, fun j hj => ?_, rfl, ?_⟩
  · rw [hw, weirs_modWeir_self]
  · rw [hw, weirs_modWeir_ne s _ hj]
  · rw [graphLoaded, State.goOn, modPump_modPump]
    rfl

theorem exec_gld (s : State) (a : Reg) : exec (.gld a) s = s.outcome s.cur (.gld a) (s.gldTry s.cur a) := rfl

theorem exec_gldComplete {s : State} {c : CoreId} {a : Reg} {t : State} (hb : (s.pump c).block = some (.gld a))
    (ht : (unblocked s c).gldTry c a = .ok t) : exec (.gldComplete c) s = .next t := by
  have hr : (s.retry c (.gld a) fun t => t.gldTry c a) = t := by
    unfold unblocked at ht
    simp only [State.retry, ht]
  simp only [exec, execGldComplete, hb, hr]

/-- Settles O46: the attempt of a `gld` by the first check that fails (`gldTry_of_image`); GLD_COMPLETE makes the same attempt
once its wait is over, and reads the same image. -/
theorem gldLoadsTheShadowContext : Obligations.GldLoadsTheShadowContext := by
  intro s a h im om nd sn c p v w f n graph loaded hweir hheld hs hr
  have hmine : s.weirMine c (.gld a) = .ok () := weirMine_of_held hweir hheld
  have hq : w.Quiet := ⟨hs, hr⟩
  refine ⟨fun h8 hcan => faults_of _ _ _ _ _ (exec_gld s a) (gldTry_of_misaligned hmine h8) hcan, fun h8 hh =>
    ⟨fun hb hcan => faults_of _ _ _ _ _ (exec_gld s a) (gldTry_of_badHeader hmine h8 hh hb) hcan, ?image⟩⟩
  intro hb him hom hnd hin hout hnodes houts
  have hlen : graph.outMap.length = f 0xE 2 :=
    (List.length_map _).trans (length_chunks (by decide) (length_of_loadImage hom))
  have hi : SoundImage s c v h im om nd :=
    ⟨hh, hb, him, hom, hnd, graphFault_of_sound hin hout (hlen ▸ hnodes) (hlen ▸ houts)⟩
  have htry := gldTry_of_image hmine h8 hi hq
  refine ⟨fun hfree => ?fits, fun hfull hcan => ?full⟩
  case full =>
    rw [if_pos hfull] at htry
    exact faults_of _ _ _ _ _ (exec_gld s a) htry hcan
  case fits =>
    rw [if_neg (not_lt.mpr hfree)] at htry
    refine ⟨⟨_, ?_, loadsGraph_graphLoaded s c graph⟩, fun hblock => ?_⟩
    · rw [exec_gld, htry]
      rfl
    · have hread : ((unblocked s c).pump c).read a = v := sameReads_unblocked s c a
      have hpump : (unblocked s c).pump c = p.unblock s.now := State.pump_modPump_self ..
      have hretry := gldTry_of_image ((weirMine_modPump ..).trans hmine) (hread.symm ▸ h8) (hread.symm ▸ hi.modPump _) hq
      exact ⟨_, exec_gldComplete hblock (hretry.trans (if_neg (not_lt.mpr hfree))), hpump ▸ loadsGraph_graphLoaded (unblocked s c) c graph⟩

end Sys2Proof

/-! WEIR_VECTOR (R204, R226, R228): a Weir that one stream feeds takes a DATA token, and evaluates a complete vector. -/

namespace Sys2Proof.Machine

open Sys2Proof

/-! ### Outputs of a Weir (R175, R227) -/

theorem Weir.foldl_send_data (ts : List Token) (w : Weir) (h : ∀ t ∈ ts, t.kind = .data) :
    (ts.foldl Weir.send w).openVec = w.openVec ∧ (ts.foldl Weir.send w).inReg = w.inReg ∧
      (ts.foldl Weir.send w).outq.map (·.payload) = w.outq.map (·.payload) ++ ts.map (·.payload) := by
  induction ts generalizing w with
  | nil => simp
  | cons t ts ih =>
    have hs : w.send t = { w with outq := w.outq ++ [{ t with seq := w.outSeq }], outSeq := w.outSeq + 1 } := by
      simp only [Weir.send, h t List.mem_cons_self]
    obtain ⟨hvec, hreg, hout⟩ := ih (w.send t) fun u hu => h u (List.mem_cons_of_mem _ hu)
    rw [List.foldl_cons, hvec, hreg, hout, hs]
    simp

/-- The vector that is evaluated becomes the outputs (R204, R228). -/
theorem Weir.emitVector_spec (w : Weir) (g : Graph) (now : Nat) :
    (w.emitVector g now).openVec = [] ∧ (w.emitVector g now).inReg = w.inReg ∧ (w.emitVector g now).outq.map (·.payload) =
      w.outq.map (·.payload) ++ (chunks 8 (g.evaluate (g.vector w.openVec)).1).map (packFrame 32) := by
  obtain ⟨-, hreg, hout⟩ := Weir.foldl_send_data
    ((chunks 8 (g.evaluate (g.vector w.openVec)).1).map fun c => dataTok (packFrame 32 c) 0 w.poisoned) w
    (List.forall_mem_map.mpr fun _ _ => rfl)
  refine ⟨rfl, hreg, hout.trans ?_⟩
  rw [List.map_map]
  rfl

/-- A Weir that has read the DATA token of its one feeding stream. -/
def Weir.readData (w : Weir) (i : Fin 4) (t : Token) (now : Nat) : Weir :=
  { w with
    openVec := w.openVec ++ [t.payload]
    received := true
    stall := w.stall.fire now false
    poisoned := w.poisoned || [t].any (·.poison)
    inReg := setAt w.inReg i none }

/-- It evaluates its vector when that is complete. -/
def Weir.takeData (w : Weir) (g : Graph) (i : Fin 4) (t : Token) (now : Nat) : Weir :=
  if g.nl / 16 ≤ (w.readData i t now).openVec.length then (w.readData i t now).emitVector g now else w.readData i t now

section
variable (w : Weir) (g : Graph) (i : Fin 4) (t : Token) (now : Nat)

theorem Weir.inReg_takeData : (w.takeData g i t now).inReg[i] = none := by
  unfold Weir.takeData
  split
  · obtain ⟨-, hreg, -⟩ := (w.readData i t now).emitVector_spec g now
    exact (congrArg (·[i]) hreg).trans (getElem_setAt_self _ _ _)
  · exact getElem_setAt_self _ _ _

theorem Weir.takeData_of_open (h : w.openVec.length + 1 < g.nl / 16) : w.takeData g i t now = w.readData i t now :=
  if_neg (by simpa [Weir.readData] using h)

theorem Weir.takeData_of_complete (h : g.nl / 16 ≤ w.openVec.length + 1) :
    w.takeData g i t now = (w.readData i t now).emitVector g now :=
  if_pos (by simpa [Weir.readData] using h)

end

end Sys2Proof.Machine

namespace Sys2Proof

open Machine

/-! ### What follows an event (R395, R441, R453) -/

/-- Weirs that show the same hold the same tokens. -/
theorem pipeline_of_shownWeir {v w : Weir} (h : shownWeir v = shownWeir w) :
    v.inReg = w.inReg ∧ v.openVec = w.openVec ∧ v.outq = w.outq := by
  have hreg := congrArg Weir.inReg h
  have hvec := congrArg Weir.openVec h
  have hout := congrArg Weir.outq h
  exact ⟨hreg, hvec, hout⟩

theorem weirOf_coreOf_zero (q : Fin 64) : weirOf (coreOf q 0) = q := by
  have := q.isLt
  ext
  simp only [weirOf, coreOf, Fin.val_ofNat]
  omega

theorem quadShown_seeWeir (s : State) (q : Fin 64) : QuadShown q s (s.seeWeir q) := by
  unfold State.seeWeir
  refine quadShown_modWeir q s ?_
  generalize Weir.cause _ = e
  rfl

/-- What follows an event shows nothing of the cores and of the Weir of the quad, but that peer events are let in. -/
theorem quadShown_after (s t : State) (c : CoreId) :
    ∃ u, (u = t ∨ u = t.modCore c Core.boundary) ∧ QuadShown (weirOf c) u (s.after c t) := by
  have seen (u : State) : QuadShown (weirOf c) u ((u.modCore c fun k => k.seeStalls (u.weirFree c) u.now).seeWeir (weirOf c)) :=
    (quadShown_modCore _ u c (f := fun k => k.seeStalls (u.weirFree c) u.now)
      (shownSame_seeStalls (u.core c) (u.weirFree c) u.now)).trans (quadShown_seeWeir _ _)
  obtain ⟨u, hu, he⟩ : ∃ u, (u = t ∨ u = t.modCore c Core.boundary) ∧
      (if (t.core c).fab.rounds ≠ (s.core c).fab.rounds then t.modCore c Core.boundary else t) = u := by
    split
    · exact ⟨_, .inr rfl, rfl⟩
    · exact ⟨_, .inl rfl, rfl⟩
  refine ⟨u, hu, ?_⟩
  simp only [State.after, he]
  split
  · exact (quadShown_cutQuad _ _).trans (seen _)
  · exact seen _

theorem weir_after (s t : State) (q : Fin 64) :
    shownWeir (s.after (coreOf q 0) t).weirs[q] = shownWeir t.weirs[q] ∧
      (∀ j : Fin 64, j ≠ q → (s.after (coreOf q 0) t).weirs[j] = t.weirs[j]) ∧ (s.after (coreOf q 0) t).mem = t.mem := by
  obtain ⟨u, hu, hq⟩ := quadShown_after s t (coreOf q 0)
  rw [weirOf_coreOf_zero] at hq
  have hw : u.weirs = t.weirs ∧ u.mem = t.mem := by
    rcases hu with rfl | rfl
    · exact ⟨rfl, rfl⟩
    · exact ⟨rfl, rfl⟩
  rw [← hw.1, ← hw.2]
  exact ⟨hq.weir, hq.others, by rw [hq.rest]⟩

/-! ### A DATA token of the one feeding stream (R226) -/

/-- A register that holds a SCALE token. -/
def isScale : Option Token → Bool
  | some t => t.kind = .scale
  | none => false

/-- What the one stream that feeds the active graph of Weir `q` offers is the DATA token `t`, and the Weir may move. -/
structure OffersData (s : State) (q : Fin 64) (g : Graph) (c : CoreId) (r : Fin 8) (i : Fin 4) (t : Token) : Prop where
  graph : (s.weirs[q]).graph = some g
  quiet : (s.weirs[q]).Quiet
  home : s.weirHome q g = some (c, r)
  moves : (s.core c).fab.regions[r].moves = true
  outq : (s.weirs[q]).outq = []
  feeders : g.feeders = [i]
  offered : (s.weirs[q]).inReg[i] = some t
  data : t.kind = .data
  alone : ∀ e : Fin 4, e ≠ i → (s.weirs[q]).inReg[e] = none

section
variable {s : State} {q : Fin 64} {g : Graph} {c : CoreId} {r : Fin 8} {i : Fin 4} {t : Token} (h : OffersData s q g c r i t)
include h

theorem OffersData.no_scale : ((fins 4).filter fun e => isScale (s.weirs[q]).inReg[e]).isEmpty = true := by
  refine List.isEmpty_iff.mpr (List.filter_eq_nil_iff.mpr fun e _ => ?_)
  by_cases he : e = i
  · have hn : isScale (some t) = false := by simp [isScale, h.data]
    rw [he, h.offered, hn]
    decide
  · rw [h.alone e he]
    decide

theorem OffersData.no_stray : ((fins 4).any fun e => !g.feeders.contains e && ((s.weirs[q]).inReg[e]).isSome) = false := by
  refine List.any_eq_false.mpr fun e _ => ?_
  by_cases he : e = i
  · simp [he, h.feeders]
  · rw [h.alone e he]
    simp

theorem OffersData.heads : headsOf (s.weirs[q]).inReg g.feeders = .ok [t] := by
  have hi := h.offered
  simp only [h.feeders, headsOf, List.filter_cons, List.filter_nil, hi, Option.isNone_some, Bool.false_eq_true, if_false,
    List.isEmpty_nil, if_true, List.filterMap_cons, List.filterMap_nil]

theorem weirStep_of_data : s.weirStep q =
    (s.modWeir q fun _ => (s.weirs[q]).takeData g i t s.now).modCore c fun k => k.progress r s.now := by
  have hg := h.graph
  have hf : g.feeders.foldl (fun v e => setAt v e none) (s.weirs[q]).inReg = setAt (s.weirs[q]).inReg i none := by
    rw [h.feeders]
    rfl
  have hout : (s.weirs[q]).outq.isEmpty = true := List.isEmpty_iff.mpr h.outq
  have hclass : oneClass [t] = true := rfl
  unfold State.weirStep
  rw [settleWeir_of_quiet h.quiet]
  simp only [hg, h.home, h.moves, hout, h.no_stray, h.heads, hclass, hf, h.data, List.headD_cons,
    Bool.not_true, Bool.or_self, Bool.false_eq_true, if_false]
  exact if_neg (ne_true_of_eq_false (congrArg not h.no_scale))

theorem exec_weirVector_of_data (hs : s.shut = false) :
    exec (.weirVector q) s = .next (s.after (coreOf q 0)
      ((s.modWeir q fun _ => (s.weirs[q]).takeData g i t s.now).modCore c fun k => k.progress r s.now)) := by
  simp only [exec, execWeirVector, hs, Bool.false_eq_true, if_false, weirStep_of_data h]

/-- The Weir after WEIR_VECTOR, beside its stall counter and what a replay reads. -/
theorem weirVector_of_data (hs : s.shut = false) : ∃ z, exec (.weirVector q) s = .next z ∧
    shownWeir z.weirs[q] = shownWeir ((s.weirs[q]).takeData g i t s.now) ∧ z.mem = s.mem ∧
    ∀ e : Fin 64, e ≠ q → z.weirs[e] = s.weirs[e] := by
  obtain ⟨hw, ho, hm⟩ := weir_after s
    ((s.modWeir q fun _ => (s.weirs[q]).takeData g i t s.now).modCore c fun k => k.progress r s.now) q
  refine ⟨_, exec_weirVector_of_data h hs, ?_, hm, fun e he => ?_⟩
  · rw [hw, State.modCore_weirs, weirs_modWeir_self]
  · rw [ho e he, State.modCore_weirs, weirs_modWeir_ne s _ he]

end

end Sys2Proof

/-! CHAIN_FOLD and STATION_FOLD (R244 to R247): the sum of integer partials lane by lane, and what a block leaves of the fold
elements. -/

namespace Sys2Proof.Machine

open Sys2Proof

/-! ### Integer partials (R244) -/

/-- One token of a running value with one partial, in INT32. -/
def addInts (a p : Frame) : Frame := packFrame 32 ((List.range 8).map fun l => (laneCode a l + laneCode p l) % 2 ^ 32)

theorem laneCode_lt (p : Frame) (l : Nat) : laneCode p l < 2 ^ 32 := Nat.mod_lt _ (by decide)

theorem laneCode_addInts (a p : Frame) {l : Nat} (hl : l < 8) : laneCode (addInts a p) l = (laneCode a l + laneCode p l) % 2 ^ 32 := by
  rw [laneCode, addInts, bits_packFrame (by simp) (List.forall_mem_map.mpr fun _ _ => Nat.mod_lt _ (by decide)),
    List.getD_eq_getElem _ _ (by simpa using hl), List.getElem_map, List.getElem_range]

theorem foldAdd_single (a p : Frame) : (foldAdd true [a] [p]).1 = [addInts a p] := by
  have hlane (x y : BitVec 32) : (foldLane true x.toNat y.toNat).1 = (x.toNat + y.toNat) % 2 ^ 32 := BitVec.toNat_ofNat ..
  have hpairs : ((tokenInts a).zip (tokenInts p)).map (fun x => (x.1.toNat + x.2.toNat) % 2 ^ 32) =
      (List.range 8).map fun l => (laneCode a l + laneCode p l) % 2 ^ 32 := by
    rw [tokenInts, tokenInts, List.zip_map', List.map_map]
    refine List.map_congr_left fun l _ => ?_
    simp only [Function.comp_apply, BitVec.extractLsb'_toNat]
    rfl
  simp only [foldAdd, List.zip_cons_cons, List.zip_nil_right, List.map_cons, List.map_nil, List.map_map, Function.comp_def, hlane,
    hpairs]
  rfl

/-- Blocks of one token, folded in shard order: the sum modulo 2^32, lane by lane (R244, R246). -/
theorem foldShards_single (n : Nat) (a : Frame) (ps : List Frame) (h : n ≤ ps.length) : ∃ v, (foldShards true 1 n [a] ps).1 = [v] ∧
    ∀ l < 8, laneCode v l = (laneCode a l + ((ps.take n).map fun p => laneCode p l).sum) % 2 ^ 32 := by
  induction n generalizing a ps with
  | zero => exact ⟨a, rfl, fun l _ => (Nat.mod_eq_of_lt (laneCode_lt a l)).symm⟩
  | succ n ih =>
    cases ps with
    | nil => simp at h
    | cons p ps =>
      obtain ⟨v, hv, hlanes⟩ := ih (addInts a p) ps (by simpa using h)
      refine ⟨v, ?_, fun l hl => ?_⟩
      · simp only [foldShards, List.take_succ_cons, List.take_zero, List.drop_succ_cons, List.drop_zero, foldAdd_single, hv]
      · rw [hlanes l hl, laneCode_addInts a p hl, List.take_succ_cons, List.map_cons, List.sum_cons, Nat.mod_add_mod, Nat.add_assoc]

/-! ### Fold elements of a state -/

theorem need_of_chain {f : Fold} (h : f.rec_.station = false) : f.need = f.rec_.count * f.rec_.blk := by
  simp only [Fold.need, h, Bool.false_eq_true, if_false]

theorem State.getElem?_modFold (s : State) (i j : Nat) (f : Fold → Fold) :
    (s.modFold i f).folds[j]? = (s.folds[j]?).map fun g => if j = i then f g else g := by
  simp only [State.modFold, List.getElem?_map, List.getElem?_zipIdx, Option.map_map, Nat.zero_add]
  rfl

theorem State.getElem?_modFold_self (s : State) (i : Nat) (f : Fold → Fold) :
    (s.modFold i f).folds[i]? = (s.folds[i]?).map f := by
  simp only [State.getElem?_modFold, if_true]

theorem State.getElem?_modFold_ne (s : State) {i j : Nat} (f : Fold → Fold) (h : j ≠ i) :
    (s.modFold i f).folds[j]? = s.folds[j]? := by
  simp only [State.getElem?_modFold, if_neg h, Option.map_id']

/-- What a block leaves with its stream touches neither memory, nor fold elements, nor windows. -/
theorem State.foldDone_keeps (s : State) (f : Fold) (a : Fin 8) (run : AgRun) (fl : Flags) (n : Nat) (dropped : List Nat) :
    (s.foldDone f a run fl n dropped).mem = s.mem ∧ (s.foldDone f a run fl n dropped).folds = s.folds ∧
      (s.foldDone f a run fl n dropped).crossings = s.crossings ∧ (s.foldDone f a run fl n dropped).now = s.now := by
  cases run <;> exact ⟨rfl, rfl, rfl, rfl⟩

end Sys2Proof.Machine

namespace Sys2Proof

open Machine

/-! ### The head of a chain passes its block on (R246) -/

/-- The head of a chain after a block of it: its partials are used, and it goes on at the next block of its pattern. -/
def headTaken (f g : Fold) : Fold := { g with parts := g.parts.drop f.need, flags := 0, pos := f.pos + f.rec_.blk }

/-- The block that the head of a chain sends, and its flags. -/
def headBlock (f : Fold) : List Frame × Flags :=
  foldShards f.rec_.integer f.rec_.blk f.rec_.count (List.replicate f.rec_.blk 0) f.parts

/-- The head `f` of a chain, element `n`, has its partials, and the next member is element `m`, with no bridge between. -/
structure HeadFolds (s : State) (n m : Nat) (f gm : Fold) (a : Fin 8) (run : AgRun) (d : CoreId) (h : BitVec 6) : Prop where
  fold : s.folds[n]? = some f
  chain : f.rec_.station = false
  head : f.rec_.head = true
  need : f.need ≠ 0
  parts : f.need ≤ f.parts.length
  stream : s.foldStream f = some (a, run)
  page : (s.core f.core).fab.ags[a].page = none
  outs : f.outs = []
  next : s.chainNext f = .member d h
  nextOf : s.foldOf d h = some m
  nextFold : s.folds[m]? = some gm
  room : gm.running.length < f.rec_.blk
  bridges : s.legsTo f gm = []
  clear : f.next = some (d, h) ∨ s.legsClear n = true

section
variable {s : State} {n m : Nat} {f gm : Fold} {a : Fin 8} {run : AgRun} {d : CoreId} {h : BitVec 6}
  (hf : HeadFolds s n m f gm a run d h)
include hf

theorem HeadFolds.ready : s.chainReady n f (.member d h) = true := by
  simp only [State.chainReady, hf.parts, hf.head, hf.need, decide_true, Bool.not_true, Bool.false_eq_true, if_false, ne_eq,
    not_false_eq_true, Bool.true_or, Bool.and_self]

theorem chainFold_of_head : s.chainFold n = s.chainBlock n f a run (.member d h) := by
  have hway : (decide (f.next = some (d, h)) || s.legsClear n) = true := by simpa using hf.clear
  simp only [State.chainFold, hf.fold, hf.stream, hf.page, hf.outs, hf.chain, hf.next, hf.ready, hway, Option.isSome_none,
    Bool.false_eq_true, if_false, Bool.and_self, if_true]

theorem chainBlock_of_head : s.chainBlock n f a run (.member d h) =
    ((s.modFold n (headTaken f)).modFold m fun g =>
      { g with running := g.running ++ (headBlock f).1 }).foldDone f a run (headBlock f).2 0 [] := by
  have hlegs : ((s.folds[m]?).map (s.legsTo f)).getD [] = [] := by
    rw [hf.nextFold]
    exact hf.bridges
  have hroom : s.takesRun m f.rec_.blk = true := by
    simp only [State.takesRun, hf.nextFold]
    exact decide_eq_true hf.room
  simp only [State.chainBlock, hf.nextOf, hlegs, hroom, hf.head, if_true]
  rfl

theorem exec_chainFold_of_head (hs : s.shut = false) : exec (.chainFold n) s = .next (s.chainBlock n f a run (.member d h)) := by
  simp only [exec, execChainFold, hs, Bool.false_eq_true, if_false, chainFold_of_head hf]

theorem chainBlock_of_head_spec : (s.chainBlock n f a run (.member d h)).mem = s.mem ∧
    ((s.chainBlock n f a run (.member d h)).folds[n]?).map (·.parts) = some (f.parts.drop f.need) ∧
    ((s.chainBlock n f a run (.member d h)).folds[m]?).map (·.running) = some (gm.running ++ (headBlock f).1) := by
  rw [chainBlock_of_head hf]
  obtain ⟨hmem, hfolds, -, -⟩ := State.foldDone_keeps ((s.modFold n (headTaken f)).modFold m fun g =>
      { g with running := g.running ++ (headBlock f).1 }) f a run (headBlock f).2 0 []
  rw [hmem, hfolds]
  refine ⟨rfl, ?_, ?_⟩
  · rw [State.getElem?_modFold, State.getElem?_modFold_self, hf.fold]
    simp only [Option.map_some, Option.some.injEq]
    split <;> rfl
  · rw [State.getElem?_modFold_self, State.getElem?_modFold, hf.nextFold]
    simp only [Option.map_some, Option.some.injEq]
    split <;> rfl

end

/-- A token of zeros adds nothing. -/
theorem laneCode_zero (l : Nat) : laneCode 0 l = 0 := by simp [laneCode, bits]

theorem headBlock_ints {f : Fold} (hi : f.rec_.integer = true) (hb : f.rec_.blk = 1) (hp : f.rec_.count ≤ f.parts.length) :
    ∃ v, (headBlock f).1 = [v] ∧
      ∀ l < 8, laneCode v l = ((f.parts.take f.rec_.count).map fun p => laneCode p l).sum % 2 ^ 32 := by
  obtain ⟨v, hv, hlanes⟩ := foldShards_single f.rec_.count 0 f.parts hp
  refine ⟨v, ?_, fun l hl => ?_⟩
  · rw [headBlock, hi, hb]
    exact hv
  · rw [hlanes l hl, laneCode_zero, Nat.zero_add]

end Sys2Proof

/-! What the write events of a stream leave alone (R273, R342), and STATION_FOLD (R247). -/

namespace Sys2Proof

open Machine

/-! ### The writes of a stream (R261, R273, R342) -/

/-- `t` is `s` but for memory with its metadata, what viewers have not seen of it yet, the rings of firmware, and the writes
under way. -/
def OnlyWrites (s t : State) : Prop := OnlyMemory { s with pending := t.pending } t

theorem OnlyMemory.onlyWrites {s t : State} (h : OnlyMemory s t) : OnlyWrites s t := by
  unfold OnlyMemory at h
  unfold OnlyWrites OnlyMemory
  rw [h]

theorem OnlyWrites.refl (s : State) : OnlyWrites s s := rfl

theorem OnlyWrites.trans {s t u : State} (h : OnlyWrites s t) (k : OnlyWrites t u) : OnlyWrites s u := by
  unfold OnlyWrites OnlyMemory at *
  rw [h] at k
  exact k

section
variable {s t : State} (h : OnlyWrites s t)
include h

theorem OnlyWrites.core (c : CoreId) : t.core c = s.core c := by
  unfold OnlyWrites OnlyMemory at h
  rw [h]
  rfl

theorem OnlyWrites.jobs : t.jobs = s.jobs := by unfold OnlyWrites OnlyMemory at h; rw [h]
theorem OnlyWrites.folds : t.folds = s.folds := by unfold OnlyWrites OnlyMemory at h; rw [h]
theorem OnlyWrites.crossings : t.crossings = s.crossings := by unfold OnlyWrites OnlyMemory at h; rw [h]
theorem OnlyWrites.now : t.now = s.now := by unfold OnlyWrites OnlyMemory at h; rw [h]

end

theorem onlyWrites_streamWrite (s : State) (c : CoreId) (a : Fin 8) (pa : Nat) (bs : List Byte) (raw : Bool) :
    OnlyWrites s (s.streamWrite c a pa bs raw).1 := by
  unfold State.streamWrite
  split
  · rfl
  · exact (onlyMemory_perform ..).onlyWrites

theorem onlyWrites_streamEvents (c : CoreId) (a : Fin 8) (raw : Bool) (ws : List (Nat × List Byte)) (s : State) :
    OnlyWrites s (s.streamEvents c a raw ws).1 := by
  induction ws generalizing s with
  | nil => exact .refl s
  | cons w ws ih => exact (onlyWrites_streamWrite ..).trans (ih _)

theorem onlyWrites_streamWrites (c : CoreId) (a : Fin 8) (raw : Bool) (ws : List (Nat × List Byte)) (s : State) :
    OnlyWrites s (s.streamWrites c a raw ws).1 := by
  induction ws generalizing s with
  | nil => exact .refl s
  | cons w ws ih => exact (onlyWrites_streamEvents ..).trans (ih _)

theorem onlyWrites_of_streamWrites {s t : State} {c : CoreId} {a : Fin 8} {raw : Bool} {ws : List (Nat × List Byte)}
    {dropped : List Nat} (h : s.streamWrites c a raw ws = (t, dropped)) : OnlyWrites s t := by
  obtain rfl : _ = t := congrArg Prod.fst h
  exact onlyWrites_streamWrites ..

theorem onlyWrites_of_foldStores {s t : State} {f : Fold} {raw : Bool} {st : List Store} {dropped : List Nat}
    (h : s.foldStores f raw st = .ok (t, dropped)) : OnlyWrites s t := by
  obtain ⟨ws, -, h⟩ := except_bind_eq_ok h
  exact onlyWrites_of_streamWrites (Except.ok.inj h)

theorem onlyWrites_of_foldWrite {s t : State} {f : Fold} {ts : List Frame} {dropped : List Nat} {fl : Flags}
    (h : s.foldWrite f ts = .ok (t, dropped, fl)) : OnlyWrites s t := by
  obtain ⟨⟨u, ds⟩, hu, h⟩ := except_bind_eq_ok h
  cases h
  exact onlyWrites_of_foldStores hu

/-! ### A station folds a block (R247) -/

/-- The element in an entry of a station's table gives its partials of a block, and their places in its window. -/
def entryTaken (n : Nat) (keep : Flags) (t : State) : Option Nat → State
  | some j =>
    let k := ((t.folds[j]?).map Fold.need).getD 0
    (t.modFold j fun g => { g with parts := g.parts.drop k, flags := if j = n then keep else g.flags }).modCrossing j 0
      fun x => { x with credits := x.credits + k }
  | none => t

theorem entryTaken_mem (n : Nat) (keep : Flags) (es : List (Option Nat)) (t : State) :
    (es.foldl (entryTaken n keep) t).mem = t.mem := by
  refine List.foldlRecOn es _ (motive := fun u : State => u.mem = t.mem) rfl fun u hu e _ => ?_
  cases e with
  | none => exact hu
  | some j => exact hu

theorem entryTaken_some_folds (n j : Nat) (keep : Flags) (t : State) :
    (entryTaken n keep t (some j)).folds = (t.modFold j fun g =>
      { g with
        parts := g.parts.drop (((t.folds[j]?).map Fold.need).getD 0)
        flags := if j = n then keep else g.flags }).folds := rfl

theorem entryTaken_folds_of_not_mem {n i : Nat} (keep : Flags) {es : List (Option Nat)} (h : some i ∉ es) (t : State) :
    (es.foldl (entryTaken n keep) t).folds[i]? = t.folds[i]? := by
  refine List.foldlRecOn es _ (motive := fun u : State => u.folds[i]? = t.folds[i]?) rfl fun u hu e he => ?_
  cases e with
  | none => exact hu
  | some j =>
    have hij : i ≠ j := fun e => h (e ▸ he)
    rw [entryTaken_some_folds, State.getElem?_modFold_ne _ _ hij, hu]

theorem entryTaken_folds_self (n : Nat) (keep : Flags) (t : State) {f : Fold} (h : t.folds[n]? = some f) :
    (entryTaken n keep t (some n)).folds[n]? = some { f with parts := f.parts.drop f.need, flags := keep } := by
  rw [entryTaken_some_folds, State.getElem?_modFold_self, h]
  simp only [Option.map_some, Option.getD_some, if_true]

/-- Element `n` stands in one entry of a table: it gives its partials once. -/
theorem entryTaken_folds_of_single {n r : Nat} (keep : Flags) {es : List (Option Nat)} (hr : es[r]? = some (some n))
    (huniq : ∀ m, es[m]? = some (some n) → m = r) (t : State) {f : Fold} (h : t.folds[n]? = some f) :
    (es.foldl (entryTaken n keep) t).folds[n]? = some { f with parts := f.parts.drop f.need, flags := keep } := by
  have hsplit : es = es.take r ++ some n :: es.drop (r + 1) := by
    obtain ⟨hlt, he⟩ := List.getElem?_eq_some_iff.mp hr
    rw [← he, List.getElem_cons_drop, List.take_append_drop]
  have hbefore : some n ∉ es.take r := fun hm => by
    obtain ⟨m, hm⟩ := List.mem_iff_getElem?.mp hm
    rw [List.getElem?_take] at hm
    split at hm
    · next hlt => exact absurd (huniq m hm) (Nat.ne_of_lt hlt)
    · cases hm
  have hafter : some n ∉ es.drop (r + 1) := fun hm => by
    obtain ⟨m, hm⟩ := List.mem_iff_getElem?.mp hm
    rw [List.getElem?_drop] at hm
    have := huniq _ hm
    omega
  rw [hsplit, List.foldl_append, List.foldl_cons, entryTaken_folds_of_not_mem keep hafter]
  exact entryTaken_folds_self n keep _ ((entryTaken_folds_of_not_mem keep hbefore t).trans h)

/-- An element stands in the entry of its own member alone. -/
theorem entry_of_stationMembers {s : State} {r : FoldRec} {n m : Nat} {f : Fold} (h : (s.stationMembers r)[m]? = some (some n))
    (hf : s.folds[n]? = some f) : f.member = some m := by
  rw [State.stationMembers, List.getElem?_map, Option.map_eq_some_iff] at h
  obtain ⟨k, hk, h⟩ := h
  have hkm : k = m := by
    obtain ⟨hlt, hk⟩ := List.getElem?_eq_some_iff.mp hk
    rw [← hk, List.getElem_range]
  obtain ⟨hlt, hp, -⟩ := List.findIdx?_eq_some_iff_getElem.mp h
  rw [(List.getElem?_eq_some_iff.mp hf).2] at hp
  rw [← hkm]
  exact of_decide_eq_true (Bool.and_eq_true_iff.mp hp).2

/-- The partials of a station's next block, in table order. -/
def stationParts (s : State) (r : FoldRec) : List Frame :=
  ((s.stationMembers r).map fun e => match e.bind fun k => s.folds[k]? with
    | some g => g.parts.take g.need
    | none => []).flatten

/-- The fold of a station's next block, and its flags. -/
def stationBlock (s : State) (r : FoldRec) : List Frame × Flags :=
  foldShards r.integer r.blk r.shards (List.replicate r.blk 0) (stationParts s r)

/-- Element `n` receives the results of its station, whose partials have all arrived, with no bridge on its way. -/
structure StationFolds (s : State) (n : Nat) (f : Fold) (a : Fin 8) (run : AgRun) : Prop where
  fold : s.folds[n]? = some f
  station : f.rec_.station = true
  full : s.stationFull f.rec_ = true
  receiver : f.member = some f.rec_.receiver
  entry : (s.stationMembers f.rec_)[f.rec_.receiver]? = some (some n)
  outs : f.outs = []
  bridges : s.legsToSink f = []
  stream : s.foldStream f = some (a, run)
  page : (s.core f.core).fab.ags[a].page = none

theorem exec_stationFold {s : State} {n : Nat} (hs : s.shut = false) : exec (.stationFold n) s = .next (s.stationFold n) := by
  simp only [exec, execStationFold, hs, Bool.false_eq_true, if_false]

section
variable {s t : State} {n : Nat} {f : Fold} {a : Fin 8} {run : AgRun} {dropped : List Nat} {fo : Flags}
  (hf : StationFolds s n f a run) (hw : s.foldWrite f (stationBlock s f.rec_).1 = .ok (t, dropped, fo))
include hf hw

theorem stationFold_of_full : s.stationFold n =
    (((s.stationMembers f.rec_).foldl (entryTaken n 0) t).modFold n fun g => { g with pos := g.pos + f.rec_.blk }).foldDone
      f a run ((stationBlock s f.rec_).2 ||| fo) f.rec_.blk dropped := by
  have hrec : decide (f.member ≠ some f.rec_.receiver) = false := decide_eq_false (not_not.mpr hf.receiver)
  have hw' : s.foldWrite f (foldShards f.rec_.integer f.rec_.blk f.rec_.shards (List.replicate f.rec_.blk 0)
    (stationParts s f.rec_)).1 = .ok (t, dropped, fo) := hw
  unfold State.stationFold
  simp only [hf.fold, hf.stream, hf.station, hf.full, hrec, hf.outs, hf.page, hf.bridges, Bool.not_true, List.isEmpty_nil,
    Option.isSome_none, Bool.or_self, Bool.false_eq_true, if_false]
  generalize hps : List.flatten _ = ps
  obtain rfl : ps = stationParts s f.rec_ := hps.symm
  simp only [hw']
  rfl

theorem stationFold_of_full_spec : (s.stationFold n).mem = t.mem ∧
    ((s.stationFold n).folds[n]?).map (fun g => (g.parts, g.pos)) = some (f.parts.drop f.need, f.pos + f.rec_.blk) := by
  have hfold : t.folds[n]? = some f := by rw [(onlyWrites_of_foldWrite hw).folds, hf.fold]
  have huniq (m : Nat) (hm : (s.stationMembers f.rec_)[m]? = some (some n)) : m = f.rec_.receiver :=
    Option.some.inj ((entry_of_stationMembers hm hf.fold).symm.trans hf.receiver)
  obtain ⟨hmem, hfolds, -, -⟩ := State.foldDone_keeps (((s.stationMembers f.rec_).foldl (entryTaken n 0) t).modFold n fun g =>
    { g with pos := g.pos + f.rec_.blk }) f a run ((stationBlock s f.rec_).2 ||| fo) f.rec_.blk dropped
  rw [stationFold_of_full hf hw, hmem, hfolds]
  refine ⟨entryTaken_mem n 0 _ t, ?_⟩
  rw [State.getElem?_modFold_self, entryTaken_folds_of_single 0 hf.entry huniq t hfold]
  rfl

end

end Sys2Proof

/-! SLUICE_LINE (R354) for a line that is written, and the crossing of TOKEN_HOP (R237, R366, R367); then the statement about
Weirs, folds and sluices. -/

namespace Sys2Proof

open Machine

/-! ### A written line leaves the list (R354, R355) -/

/-- `t` has the memory and the jobs of `s`, and AG site `a` of core `c` has dropped the same lines. -/
def KeepsLines (c : CoreId) (a : Fin 8) (s t : State) : Prop :=
  t.mem = s.mem ∧ t.jobs = s.jobs ∧ (t.core c).fab.ags[a].dropped = (s.core c).fab.ags[a].dropped

section
variable {c : CoreId} {a : Fin 8}

theorem KeepsLines.trans {s t u : State} (h : KeepsLines c a s t) (k : KeepsLines c a t u) : KeepsLines c a s u := by
  obtain ⟨hm, hj, hd⟩ := h
  obtain ⟨km, kj, kd⟩ := k
  exact ⟨km.trans hm, kj.trans hj, kd.trans hd⟩

theorem keepsLines_modCore (s : State) {f : Core → Core}
    (h : (f (s.core c)).fab.ags[a].dropped = (s.core c).fab.ags[a].dropped) : KeepsLines c a s (s.modCore c f) :=
  ⟨rfl, rfl, by rw [State.core_modCore_self, h]⟩

theorem keepsLines_modStream (s : State) (h : BitVec 6) (f : Stream → Stream) : KeepsLines c a s (s.modStream c h f) :=
  keepsLines_modCore s rfl

theorem keepsLines_agSticky (s : State) (f : Flags) (run : AgRun) : KeepsLines c a s (s.agSticky c f run) := by
  cases run with
  | frame r p => exact keepsLines_modCore s rfl
  | stream h t => exact keepsLines_modStream s h _

theorem keepsLines_addCommitted (s : State) (n : Nat) (run : AgRun) : KeepsLines c a s (s.addCommitted c n run) := by
  cases run with
  | frame r p => exact ⟨rfl, rfl, rfl⟩
  | stream h t => exact keepsLines_modStream s h _

theorem keepsLines_touch (s : State) (run : AgRun) : KeepsLines c a s (s.touch c run) := by
  cases run with
  | frame r p => exact keepsLines_modCore s rfl
  | stream h t => exact (keepsLines_modStream s h _).trans (keepsLines_modCore _ rfl)

end

theorem tellDropped_of_none {s : State} {c : CoreId} {a : Fin 8} (h : (s.core c).fab.ags[a].dropped = []) (run : AgRun) :
    s.tellDropped c a run = s := by
  cases run <;> simp only [State.tellDropped, h]

/-- The state after a committed line of job `j` whose write events led to `t`, no line of them dropped. -/
def lineWritten (t : State) (j : SluiceJob) (run : AgRun) (fl : Flags) : State :=
  ((t.agSticky j.core fl run).addCommitted j.core (32 * j.tokens.length) run).modCore j.core fun k =>
    k.modAg j.ag fun y => { y with dropped := y.dropped ++ [] }

theorem keepsLines_lineWritten (t : State) (j : SluiceJob) (run : AgRun) (fl : Flags) :
    KeepsLines j.core j.ag t (lineWritten t j run fl) := by
  refine ((keepsLines_agSticky t fl run).trans (keepsLines_addCommitted _ _ run)).trans (keepsLines_modCore _ ?_)
  simp only [Core.modAg, getElem_setAt_self, List.append_nil]

/-- Job `n`, the oldest of its stream, is a line to be written that passes its context without a fault. -/
structure LinePasses (s : State) (n : Nat) (j : SluiceJob) (run : AgRun) (cfg : AgCfg) (ctx : SluiceCtx) : Prop where
  job : s.jobs[n]? = some j
  runs : (s.core j.core).agRun j.ag = some (run, cfg)
  context : s.sluice[j.ctx] = some ctx
  write : j.write = true
  oldest : (s.jobs.take n).all (fun o => o.core ≠ j.core || o.ag ≠ j.ag) = true
  page : (s.core j.core).fab.ags[j.ag].page = none
  dropped : (s.core j.core).fab.ags[j.ag].dropped = []
  fault : (sluicePass ctx.frames (j.tokens.map (·.2))).fault = none
  sound : ∀ p ∈ (sluicePass ctx.frames (j.tokens.map (·.2))).tokens.take j.tokens.length, p.2 = false

section
variable {s t : State} {n : Nat} {j : SluiceJob} {run : AgRun} {cfg : AgCfg} {ctx : SluiceCtx}
  (hj : LinePasses s n j run cfg ctx)
  (hw : (s.dropJob n).streamWrites j.core j.ag j.raw (sinkWrites (cfg.int ≠ 0)
    ((j.tokens.zip (sluicePass ctx.frames (j.tokens.map (·.2))).tokens).map fun p => (p.1.1, p.2.1))) = (t, []))
include hj hw

theorem passWrite_of_sound : (s.dropJob n).passWrite j run (cfg.int ≠ 0) ctx =
    (lineWritten t j run (sluicePass ctx.frames (j.tokens.map (·.2))).flags, none) := by
  have hany : ((sluicePass ctx.frames (j.tokens.map (·.2))).tokens.take j.tokens.length).any (·.2) = false :=
    List.any_eq_false.mpr fun p hp => ne_true_of_eq_false (hj.sound p hp)
  simp only [State.passWrite, hj.fault, hany, hw, Option.isSome_none, Bool.false_eq_true, if_false]
  rfl

theorem sluiceLine_of_write :
    s.sluiceLine n = (lineWritten t j run (sluicePass ctx.frames (j.tokens.map (·.2))).flags).touch j.core run := by
  have hlater : ((s.jobs.take n).any fun o => o.core = j.core && o.ag = j.ag) = false := by
    refine List.any_eq_false.mpr fun o ho => ?_
    have := List.all_eq_true.mp hj.oldest o ho
    simp only [Bool.or_eq_true, decide_eq_true_eq] at this
    simp only [Bool.and_eq_true, decide_eq_true_eq, not_and_or]
    exact this
  obtain ⟨-, -, hkept⟩ :=
    (keepsLines_lineWritten t j run (sluicePass ctx.frames (j.tokens.map (·.2))).flags).trans (keepsLines_touch _ run)
  have hd : (t.core j.core).fab.ags[j.ag].dropped = [] := by
    rw [(onlyWrites_of_streamWrites hw).core]
    exact hj.dropped
  have hpass := passWrite_of_sound hj hw
  simp only [State.sluiceLine, hj.job, hj.runs, hj.context, hlater, hj.write, hj.page, hpass, Bool.not_true, Bool.false_and,
    Option.isSome_none, Bool.or_self, Bool.false_eq_true, if_false, if_true]
  rw [tellDropped_of_none (hkept.trans hd), ite_self]

theorem sluiceLine_of_write_spec : (s.sluiceLine n).mem = t.mem ∧ (s.sluiceLine n).jobs = s.jobs.eraseIdx n := by
  obtain ⟨hmem, hjobs, -⟩ :=
    (keepsLines_lineWritten t j run (sluicePass ctx.frames (j.tokens.map (·.2))).flags).trans (keepsLines_touch _ run)
  rw [sluiceLine_of_write hj hw]
  exact ⟨hmem, hjobs.trans (onlyWrites_of_streamWrites hw).jobs⟩

end

theorem exec_sluiceLine {s : State} {n : Nat} (hs : s.shut = false) : exec (.sluiceLine n) s = .next (s.sluiceLine n) := by
  simp only [exec, execSluiceLine, hs, Bool.false_eq_true, if_false]

/-! ### A token leaves the buffer of a window (R366, R367) -/

/-- A token has left the window of element `i`, `rest` stays: the credit returns, except at a station. -/
def hopLeft (s : State) (f : Fold) (i : Nat) (rest : List Token) : State :=
  (s.modCrossing i 0 fun y => { y with buffer := rest, credits := if f.rec_.station then y.credits else y.credits + 1 }).modStream
    f.core f.h fun y => { y with movedAt := s.now }

theorem crossing_hopLeft {s : State} {f : Fold} {n : Nat} {x : Crossing} (hx : s.crossings[n]? = some x) (hleg : x.leg = 0)
    (rest : List Token) : (hopLeft s f x.fold rest).crossings[n]? = some { x with
      buffer := rest, credits := if f.rec_.station then x.credits else x.credits + 1, movedAt := s.now } := by
  have he : (hopLeft s f x.fold rest).crossings = (s.modCrossing x.fold 0 fun y =>
    { y with buffer := rest, credits := if f.rec_.station then y.credits else y.credits + 1 }).crossings := rfl
  rw [he, State.modCrossing, List.getElem?_map, hx]
  simp only [Option.map_some, hleg, decide_true, Bool.and_self, if_true]

/-- The open round of an element becomes partials (R237). -/
def roundClosed (f g : Fold) : Fold := { g with parts := g.parts ++ f.pend.map (·.2.1), pend := [], rounds := g.rounds + 1 }

/-- The token `tok` stands first in the window of the element `f`, at a port that carries traffic. -/
structure AtWindow (s : State) (n : Nat) (x : Crossing) (f : Fold) (tok : Token) (rest : List Token) : Prop where
  crossing : s.crossings[n]? = some x
  fold : s.folds[x.fold]? = some f
  buffer : x.buffer = tok :: rest
  leg : x.leg = 0
  up : s.portUp x.port = true

section
variable {s : State} {n : Nat} {x : Crossing} {f : Fold} {tok : Token} {rest : List Token} (h : AtWindow s n x f tok rest)
include h

theorem hopCrossing_of_data (hk : tok.kind = .data) : s.hopCrossing n =
    (hopLeft s f x.fold rest).modFold x.fold fun g => { g with pend := g.pend ++ [(tok.seq, tok.payload, tok.poison)] } := by
  simp only [State.hopCrossing, h.crossing, h.buffer, h.fold, h.up, h.leg, hk, Bool.not_true, Bool.false_eq_true, if_false, ne_eq,
    not_true_eq_false]
  rfl

theorem hopCrossing_of_mark (hk : tok.kind = .mark) (hm : f.member ≠ none)
    (hr : ((s.foldCommit x.fold f).folds[x.fold]?) = some (roundClosed f f)) :
    s.hopCrossing n = hopLeft (s.foldCommit x.fold f) f x.fold rest := by
  have hentry : s.findEntry x.fold f = s := by
    obtain ⟨m, hm⟩ := Option.ne_none_iff_exists'.mp hm
    simp only [State.findEntry, hm]
  have hrounds : ((s.foldCommit x.fold f).folds[x.fold]?).map (·.rounds) = some (f.rounds + 1) := by
    rw [hr]
    rfl
  simp only [State.hopCrossing, h.crossing, h.buffer, h.fold, h.up, h.leg, hk, hentry, hrounds, Option.getD_some, Bool.not_true,
    Bool.false_eq_true, if_false, ne_eq, not_true_eq_false, if_true]
  rfl

end

/-! ### The commit of a round (R237) -/

theorem member_known {f : Fold} (hm : f.member ≠ none) : (f.rec_.station && f.member.isNone) = false := by
  rw [Option.isNone_eq_false_iff.mpr (Option.isSome_iff_ne_none.mpr hm), Bool.and_false]

theorem pend_sound {f : Fold} (hp : ∀ p ∈ f.pend, p.2.2 = false) : (f.pend.any fun q => q.2.2) = false :=
  List.any_eq_false.mpr fun q hq => ne_true_of_eq_false (hp q hq)

section
variable {s t : State} {i : Nat} {f : Fold} {a : Fin 8} {run : AgRun} (hstream : s.foldStream f = some (a, run))
  (hm : f.member ≠ none) (hd : (s.core f.core).fab.ags[a].dropped = []) (hp : ∀ p ∈ f.pend, p.2.2 = false)
include hstream hm hd hp

theorem foldCommit_without_buffer (h : f.rec_.station = false ∨ f.pend = []) :
    s.foldCommit i f = s.modFold i (roundClosed f) := by
  have hbuf : (f.rec_.station && !(f.pend.map (·.2.1)).isEmpty) = false := by
    rcases h with h | h <;> simp [h]
  simp only [State.foldCommit, hstream, member_known hm, hd, pend_sound hp, hbuf, List.isEmpty_nil, Bool.not_true, Bool.false_eq_true, if_false]
  rfl

theorem foldCommit_into_buffer (hs : f.rec_.station = true) (hne : f.pend ≠ [])
    (hw : s.bufferWrite f (f.pend.map (·.2.1)) = .ok (t, [])) :
    s.foldCommit i f = (t.modFold i (roundClosed f)).foldDone { f with flags := 0 } a run 0 0 [] := by
  have hbuf : (f.rec_.station && !(f.pend.map (·.2.1)).isEmpty) = true := by simp [hs, hne]
  simp only [State.foldCommit, hstream, member_known hm, hd, pend_sound hp, hbuf, hw, List.isEmpty_nil, Bool.not_true, Bool.false_eq_true, if_false,
    if_true]
  rfl

end

/-- A MARK whose commit has closed the round leaves the window. -/
theorem hopMark_spec {s u : State} {n : Nat} {x : Crossing} {f : Fold} {tok : Token} {rest : List Token}
    (h : AtWindow s n x f tok rest) (hk : tok.kind = .mark) (hm : f.member ≠ none) (hu : s.foldCommit x.fold f = u)
    (hfold : u.folds[x.fold]? = some (roundClosed f f)) (hcross : u.crossings = s.crossings) (hnow : u.now = s.now) :
    ((s.hopCrossing n).crossings[n]? = some { x with
        buffer := rest, credits := if f.rec_.station then x.credits else x.credits + 1, movedAt := s.now }) ∧
      (s.hopCrossing n).folds[x.fold]? = some (roundClosed f f) ∧ (s.hopCrossing n).mem = u.mem := by
  subst hu
  rw [hopCrossing_of_mark h hk hm hfold]
  refine ⟨?_, hfold, rfl⟩
  rw [crossing_hopLeft (hcross ▸ h.crossing) h.leg, hnow]

theorem exec_crossing {s : State} {c : CoreId} {n : Nat} (hs : s.shut = false) :
    exec (.tokenHop c (.crossing n)) s = .next (s.hopCrossing n) := by
  simp only [exec, execTokenHop, hs, Bool.false_eq_true, if_false]

/-- Settles O54, clause by clause: `weirVector_of_data`; `chainBlock_of_head_spec`, with `headBlock_ints` for the sum;
`stationFold_of_full_spec`; `sluiceLine_of_write_spec`; and `hopCrossing_of_data` and `hopMark_spec` for a token that leaves the
window of an element. -/
theorem weirsFoldsAndSluicesMoveTokens : Obligations.WeirsFoldsAndSluicesMoveTokens := by
  intro s t q c r g i tok n m f a run d h gm fo j cfg ctx x rest w sum fr ps result passed hs
  refine ⟨?vector, ?chain, ?station, ?sluice, ?crossing⟩
  case vector =>
    intro hg hswap hrel hhome hmoves hout hfeed hin hk halone
    have ho : OffersData s q g c r i tok := ⟨hg, ⟨hswap, hrel⟩, hhome, hmoves, hout, hfeed, hin, hk, halone⟩
    obtain ⟨z, hz, hw, hmem, hothers⟩ := weirVector_of_data ho hs
    obtain ⟨hreg, hvec, hoq⟩ := pipeline_of_shownWeir hw
    refine ⟨z, hz, (congrArg (·[i]) hreg).trans (w.inReg_takeData g i tok s.now), hmem, hothers, fun hopen => ?_, fun hfull => ?_⟩
    · rw [hvec, hoq, w.takeData_of_open g i tok s.now hopen]
      exact ⟨rfl, hout⟩
    · obtain ⟨hempty, -, hemit⟩ := (w.readData i tok s.now).emitVector_spec g s.now
      rw [hvec, hoq, w.takeData_of_complete g i tok s.now hfull]
      refine ⟨hempty, hemit.trans ?_⟩
      have hold : (w.readData i tok s.now).outq = [] := hout
      rw [hold]
      rfl
  case chain =>
    intro hf hstation hint hhead hblk hcount _ hparts hstream hpage houts hnext hof hgm hrun hlegs hclear
    have hneed : f.need = fr.count := (need_of_chain hstation).trans ((congrArg (fr.count * ·) hblk).trans (Nat.mul_one _))
    have hfold : HeadFolds s n m f gm a run d h :=
      ⟨hf, hstation, hhead, hneed ▸ Nat.ne_of_gt hcount, hneed ▸ hparts, hstream, hpage, houts, hnext, hof, hgm,
        by rw [hrun, hblk]; exact Nat.one_pos, hlegs, hclear⟩
    obtain ⟨hmem, hused, hsent⟩ := chainBlock_of_head_spec hfold
    obtain ⟨v, hv, hlanes⟩ := headBlock_ints hint hblk hparts
    refine ⟨_, v, exec_chainFold_of_head hfold hs, hmem, hneed ▸ hused, ?_, hlanes⟩
    rw [hsent, hrun, hv, List.nil_append]
  case station =>
    intro hf hstation hfull hmember hentry houts hlegs hstream hpage hwrite
    have hfold : StationFolds s n f a run := ⟨hf, hstation, hfull, hmember, hentry, houts, hlegs, hstream, hpage⟩
    obtain ⟨hmem, hpos⟩ := stationFold_of_full_spec hfold hwrite
    exact ⟨_, exec_stationFold hs, hmem, hpos⟩
  case sluice =>
    intro hj hrun hctx hwr hold hpage hdrop hfault hsound hwrite
    obtain ⟨hmem, hjobs⟩ := sluiceLine_of_write_spec ⟨hj, hrun, hctx, hwr, hold, hpage, hdrop, hfault, hsound⟩ hwrite
    exact ⟨_, exec_sluiceLine hs, hmem, hjobs⟩
  case crossing =>
    intro hx hf hbuf hleg hup left committed
    have hwin : AtWindow s n x f tok rest := ⟨hx, hf, hbuf, hleg, hup⟩
    refine ⟨fun hk => ⟨_, exec_crossing hs, ?_⟩, fun hk hm hstream hdrop hpend => ⟨fun hplain => ?_, fun hst hne hwrite => ?_⟩⟩
    · rw [hopCrossing_of_data hwin hk]
      refine ⟨crossing_hopLeft hx hleg rest, ?_, rfl⟩
      rw [State.getElem?_modFold_self]
      exact congrArg (Option.map _) hf
    · have hu := foldCommit_without_buffer (i := x.fold) hstream hm hdrop hpend hplain
      have hfold : (s.modFold x.fold (roundClosed f)).folds[x.fold]? = some (roundClosed f f) := by
        rw [State.getElem?_modFold_self, hf]
        rfl
      exact ⟨_, exec_crossing hs, hopMark_spec (u := s.modFold x.fold (roundClosed f)) hwin hk hm hu hfold rfl rfl⟩
    · have hu := foldCommit_into_buffer (i := x.fold) hstream hm hdrop hpend hst hne hwrite
      have ht := onlyWrites_of_foldStores hwrite
      obtain ⟨hmem, hfolds, hcross, hnow⟩ := State.foldDone_keeps (t.modFold x.fold (roundClosed f)) { f with flags := 0 } a run 0 0 []
      have hfold : ((t.modFold x.fold (roundClosed f)).foldDone { f with flags := 0 } a run 0 0 []).folds[x.fold]? =
          some (roundClosed f f) := by
        rw [hfolds, State.getElem?_modFold_self, ht.folds, hf]
        rfl
      obtain ⟨hl, hc, hz⟩ := hopMark_spec hwin hk hm hu hfold (hcross.trans ht.crossings) (hnow.trans ht.now)
      exact ⟨_, exec_crossing hs, hl, hc, hz.trans hmem⟩

end Sys2Proof

/-! Stores of a pump to virtual memory (R262, R276, R296, R299): the writes that `st` and `stq` issue, and what they leave alone. -/

namespace Sys2Proof

open Machine

/-- `t` is `s` but for writes under way that core `c` has issued, which put `bytes` at `pa` in its own view alone. -/
structure StoreIssued (s t : State) (c : CoreId) (pa : Nat) (bytes : List Byte) : Prop where
  only : t = { s with pending := t.pending }
  older : ∀ w ∈ s.pending, w ∈ t.pending
  view : ∀ d a, t.viewByte d a = if c = d ∧ pa ≤ a ∧ a < pa + bytes.length then bytes.getD (a - pa) 0 else s.viewByte d a

theorem storeIssued_issueWrite (s : State) (c : CoreId) (pa : Nat) (bytes : List Byte) (va : Word) :
    StoreIssued s (s.issueWrite c pa bytes false va) c pa bytes :=
  ⟨rfl, fun _ hw => List.mem_append_left _ hw, fun d a => viewByte_issueWrite s c d pa a bytes false va⟩

/-- Two writes of neighbouring bytes are one row of bytes. -/
theorem StoreIssued.append {s t u : State} {c : CoreId} {pa : Nat} {as bs : List Byte} (h : StoreIssued s t c pa as)
    (k : StoreIssued t u c (pa + as.length) bs) : StoreIssued s u c pa (as ++ bs) := by
  refine ⟨?only, fun w hw => k.older w (h.older w hw), fun d a => ?view⟩
  case only => rw [k.only, h.only]
  case view =>
    rw [k.view, h.view, List.length_append]
    by_cases hc : c = d
    · by_cases hlo : pa ≤ a
      · by_cases has : a < pa + as.length
        · rw [if_neg (by omega), if_pos ⟨hc, hlo, has⟩, if_pos ⟨hc, by omega, by omega⟩, List.getD_append _ _ _ _ (by omega)]
        · by_cases hbs : a < pa + as.length + bs.length
          · rw [if_pos ⟨hc, by omega, hbs⟩, if_pos ⟨hc, by omega, by omega⟩, List.getD_append_right _ _ _ _ (by omega), Nat.sub_add_eq]
          · rw [if_neg (by omega), if_neg (by omega), if_neg (by omega)]
      · rw [if_neg (by omega), if_neg (by omega), if_neg (by omega)]
    · rw [if_neg fun x => hc x.1, if_neg fun x => hc x.1, if_neg fun x => hc x.1]

/-- An aligned store that its page permits is issued: one write, or two of 8 bytes (R261, R295, R299). -/
theorem storeV_spec {s : State} {c : CoreId} {ea : Word} {pa : Nat} {bytes : List Byte} (ha : ea.toNat % bytes.length = 0)
    (ht : s.translate c ea .wr = .at pa) : ∃ t, s.storeV c ea bytes = .ok t ∧ StoreIssued s t c pa bytes := by
  by_cases hlen : bytes.length = 16
  · refine ⟨(s.issueWrite c pa (bytes.take 8) false ea).issueWrite c (pa + 8) (bytes.drop 8) false (ea + 8), ?_, ?_⟩
    · have hpa : s.paOf c ea .wr = .ok pa := by rw [State.paOf, ht]
      simp only [State.storeV, if_neg (not_not.mpr ha), hpa]
      show (if bytes.length = 16 then _ else _) = _
      rw [if_pos hlen]
      rfl
    · have h := (storeIssued_issueWrite s c pa (bytes.take 8) ea).append
        (bs := bytes.drop 8) (u := (s.issueWrite c pa (bytes.take 8) false ea).issueWrite c (pa + 8) (bytes.drop 8) false (ea + 8))
        (by rw [List.length_take, hlen]; exact storeIssued_issueWrite _ c (pa + 8) (bytes.drop 8) (ea + 8))
      rwa [List.take_append_drop] at h
  · exact ⟨_, storeV_eq_issueWrite hlen ha ht, storeIssued_issueWrite s c pa bytes ea⟩

/-- The low bytes of a value, one by one (R8). -/
theorem getD_toLE_toNat {w : Nat} (x : BitVec w) {n j : Nat} (hj : j < n) : (toLE n x.toNat).getD j 0 = x.extractLsb' (8 * j) 8 := by
  refine (getD_toLE n x.toNat hj).trans (BitVec.eq_of_toNat_eq ?_)
  rw [BitVec.toNat_ofNat, Nat.mod_mod, BitVec.extractLsb'_toNat, Nat.shiftRight_eq_div_pow]

/-- A store of the pump to virtual memory makes one row of bytes of its source, stores them at its address in the state that its
release has reached, and goes on; beside that only releases are marked as written (R277, R296, R299). -/
theorem exec_store {s : State} {i : Instr} {x : Access} {n : Nat} {v : BitVec 128} (hx : accessOf (s.pump s.cur) i = some x)
    (hi : stores (s.pump s.cur) false i n v) :
    ∃ bytes : List Byte, bytes.length = n ∧ (∀ j < n, bytes.getD j 0 = byteOf v j) ∧
      ∀ t, (afterRelease s i).storeV s.cur x.ea bytes = .ok t →
        ∃ rs, exec i s = .next ({ t with releases := rs }.goOn s.cur) := by
  cases i with
  | st size cis rel d a imm =>
    obtain ⟨rfl, rfl, rfl⟩ := hi
    cases hx
    refine ⟨toLE size.bytes ((s.pump s.cur).read d).toNat, length_toLE _ _, fun j hj => ?_, fun t ht => ?_⟩
    · rw [← BitVec.toNat_setWidth_of_le (by decide : 64 ≤ 128), getD_toLE_toNat _ hj, byteOf]
    · refine ⟨(t.issued s.cur).releases, ?_⟩
      change State.store _ _ false ((s.pump s.cur).ea a imm) _ = _ at ht
      cases rel with
      | none =>
        simp only [afterRelease] at ht
        simp only [exec, execSt, ht]
        rfl
      | some scope =>
        simp only [afterRelease] at ht
        simp only [exec, execSt, ht]
        rfl
  | stq f cis q a imm =>
    obtain ⟨rfl, rfl, rfl⟩ := hi
    cases hx
    refine ⟨toLE f.bytes (s.pump s.cur).q[q.toFin].val.toNat, length_toLE _ _, fun j hj => getD_toLE_toNat _ hj, fun t ht => ?_⟩
    change State.store s _ false ((s.pump s.cur).ea a imm) _ = _ at ht
    exact ⟨t.releases, by simp only [exec, execStq, ht]; rfl⟩
  | _ => exact hi.elim

/-- Settles O28. The store is issued in the state that the release has reached, and the rest is what its issue leaves alone. -/
theorem storesWriteMemory : Obligations.StoresWriteMemory := by
  unfold Obligations.StoresWriteMemory
  intro s i x n v pa hx hi u ha htrans
  obtain ⟨bytes, rfl, hbytes, hexec⟩ := exec_store hx hi
  obtain ⟨t, hstore, honly, holder, hview⟩ := storeV_spec ha htrans
  obtain ⟨rs, ht⟩ := hexec t hstore
  have hcore (d : CoreId) : t.core d = u.core d := by rw [honly]; rfl
  refine ⟨_, ht, fun j hj => ?bytes, fun a hout => ?own, fun c a hc => ?others, ?mem, holder, ?only, fun c hc => ?cores, ?pump⟩
  case bytes => exact (hview s.cur (pa + j)).trans (by rw [if_pos ⟨rfl, by omega, by omega⟩, Nat.add_sub_cancel_left, hbytes j hj])
  case own => exact (hview s.cur a).trans (if_neg (by omega))
  case others => exact (hview c a).trans (if_neg fun h => hc h.1.symm)
  case mem => exact (congrArg State.mem honly :)
  case only => rw [honly]; rfl
  case cores => exact (State.core_modPump_ne _ _ _ _ hc).trans (hcore c)
  case pump =>
    refine (State.core_modPump_self _ _ _).trans ?_
    show ({ t.core s.cur with pump := (t.core s.cur).pump.advance } : Core) = _
    rw [hcore]
    rfl

end Sys2Proof

/-! Writes that reach memory on a sound line (R261, R342, R345), and what viewers have not seen after them (R262, R263; log 7). -/

namespace Sys2Proof

open Machine

/-! ### What a viewer has not seen (R261, R262; log 7) -/

theorem sel_of_mem_keepStale {sel : Stale → Bool} (l seen : List Stale) : ∀ e ∈ keepStale sel l seen, sel e = true := by
  induction l generalizing seen with
  | nil => simp [keepStale]
  | cons x r ih =>
    intro e he
    rw [keepStale] at he
    split at he
    · next h =>
      rcases List.mem_cons.mp he with rfl | h'
      · exact (Bool.and_eq_true_iff.mp h).1
      · exact ih _ e h'
    · exact ih _ e he

theorem Stale.touches_eq_true {e : Stale} {b : Bank} {lo n : Nat} :
    e.touches b lo n = true ↔ e.bank = b ∧ e.lo < lo + n ∧ lo < e.lo + e.old.length := by
  simp [Stale.touches, overlaps]

/-- A byte that no entry of a viewer covers is seen as it has been performed. -/
theorem staleByte_eq_none {s : State} {v : Agent} {b : Bank} {a : Nat}
    (h : ∀ e ∈ s.stale, e.viewer = v → e.bank = b → ¬ (e.lo ≤ a ∧ a < e.lo + e.old.length)) : s.staleByte v b a = none := by
  refine List.findSome?_eq_none_iff.mpr fun e he => ?_
  split
  · next hc =>
    simp only [Bool.and_eq_true, decide_eq_true_eq] at hc
    obtain ⟨⟨hv, hb⟩, hlo⟩ := hc
    have := h e (List.mem_reverse.mp he) hv hb
    exact List.getElem?_eq_none (by omega)
  · rfl

theorem staleByte_of_not_touched {s : State} {v : Agent} {b : Bank} {lo n j : Nat}
    (h : ∀ e ∈ s.stale, e.viewer = v → e.touches b lo n = false) (hj : j < n) : s.staleByte v b (lo + j) = none := by
  refine staleByte_eq_none fun e he hv hb hc => ?_
  have ht : e.touches b lo n = true := Stale.touches_eq_true.mpr ⟨hb, by omega, by omega⟩
  rw [h e he hv] at ht
  cases ht

/-- A core without stores under way sees a byte as it has been performed, or as it was before a write that it has not seen. -/
theorem viewByte_of_no_pending {s : State} {c : CoreId} (h : ∀ w ∈ s.pending, w.core ≠ c) (a : Nat) :
    s.viewByte c a = (s.staleByte (.pump c) .memory a).getD (s.mem.get a) := by
  have hp : s.pending.reverse.filter (·.core = c) = [] :=
    List.filter_eq_nil_iff.mpr fun w hw => by simpa using h w (List.mem_reverse.mp hw)
  rw [State.viewByte, hp]
  rfl

/-- What a core sees depends on its stores under way, on what it has not seen, and on memory. -/
theorem viewByte_congr {s t : State} {c : CoreId} {a : Nat} (hp : t.pending = s.pending)
    (hs : t.staleByte (.pump c) .memory a = s.staleByte (.pump c) .memory a) (hm : t.mem.get a = s.mem.get a) :
    t.viewByte c a = s.viewByte c a := by
  rw [State.viewByte, State.viewByte, hp, hs, hm]

/-! ### A write event (R261 to R263) -/

theorem mem_wordParts {lo n : Nat} {w : Nat × Nat} (h : w ∈ wordParts lo n) : lo ≤ w.1 ∧ (w.2 = 0 ∨ w.1 + w.2 ≤ lo + n) := by
  unfold wordParts at h
  split at h
  · cases h
  · obtain ⟨i, -, rfl⟩ := List.mem_map.mp h
    dsimp only
    omega

theorem length_bankBytes (s : State) (b : Bank) (lo n : Nat) : (s.bankBytes b lo n).length = n := by
  cases b <;> exact Memory.length_read _ _ _

/-- What viewers have not seen of a write event: the parts of it that the schedule keeps from them. -/
def freshStale (s : State) (b : Bank) (lo n : Nat) (v : Agent) (bound : Option CoreId) : List Stale :=
  let own (u : Agent) : Bool := u = v || (bound.isSome && u.core? = bound)
  let parts := (wordParts lo n).map fun w =>
    (w, ((s.lag.filter fun l => l.bank = b && overlaps l.lo (l.hi - l.lo) w.1 w.2 && !own l.viewer &&
      s.mayLag l.viewer b w.1).map (·.viewer)).dedup)
  (parts.map fun q => q.2.map fun u =>
    { viewer := u, bank := b, lo := q.1.1, old := s.bankBytes b q.1.1 q.1.2, serial := s.serial, known := [(v, s.serial)]
      via := [], copied := b = .memory && s.copiedLine u q.1.1 : Stale }).flatten

/-- Another agent has not seen them, and they lie in the range of the write. -/
theorem freshStale_spec {s : State} {b : Bank} {lo n : Nat} {v : Agent} {bound : Option CoreId} {x : Stale}
    (hx : x ∈ freshStale s b lo n v bound) :
    x.viewer ≠ v ∧ x.bank = b ∧ ∀ a, x.lo ≤ a → a < x.lo + x.old.length → lo ≤ a ∧ a < lo + n := by
  simp only [freshStale, List.map_map, List.mem_flatten, List.mem_map, Function.comp] at hx
  obtain ⟨_, ⟨w, hw, rfl⟩, hx⟩ := hx
  obtain ⟨u, hu, rfl⟩ := List.mem_map.mp hx
  obtain ⟨l, hl, rfl⟩ := List.mem_map.mp (List.mem_dedup.mp hu)
  have hl := (List.mem_filter.mp hl).2
  simp only [Bool.and_eq_true, Bool.not_eq_true', Bool.or_eq_false_iff, decide_eq_false_iff_not] at hl
  obtain ⟨⟨-, hown, -⟩, -⟩ := hl
  have hin := mem_wordParts hw
  refine ⟨hown, rfl, fun a hlo hhi => ?_⟩
  rw [length_bankBytes] at hhi
  dsimp only at hlo hhi
  omega

theorem noteWrite_stale (s : State) (b : Bank) (lo n : Nat) (v : Agent) (rmw : Bool) (rels : List Nat) (bound : Option CoreId) :
    (s.noteWrite b lo n v rmw rels bound).stale = freshStale s b lo n v bound ++
      keepStale (fun e => ((freshStale s b lo n v bound).any fun x => x.viewer = e.viewer && x.touches e.bank e.lo e.old.length) ||
        !e.touches b lo n) s.stale [] := rfl

/-- What is not seen after a write event was not seen before it, or is a part of the event that another agent has not seen. -/
theorem stale_noteWrite {s : State} {b : Bank} {lo n : Nat} {v : Agent} {rmw : Bool} {rels : List Nat} {bound : Option CoreId}
    {e : Stale} (h : e ∈ (s.noteWrite b lo n v rmw rels bound).stale) :
    (e ∈ s.stale ∧ (e.viewer = v → e.touches b lo n = false)) ∨
      (e.viewer ≠ v ∧ e.bank = b ∧ ∀ a, e.lo ≤ a → a < e.lo + e.old.length → lo ≤ a ∧ a < lo + n) := by
  rw [noteWrite_stale] at h
  rcases List.mem_append.mp h with h | h
  · exact .inr (freshStale_spec h)
  · refine .inl ⟨mem_of_keepStale _ _ _ e h, fun hv => ?_⟩
    rcases Bool.or_eq_true_iff.mp (sel_of_mem_keepStale _ _ e h) with hx | hx
    · obtain ⟨x, hx, hxe⟩ := List.any_eq_true.mp hx
      simp only [Bool.and_eq_true, decide_eq_true_eq] at hxe
      exact absurd (hxe.1.trans hv) (freshStale_spec hx).1
    · simpa using hx

/-! ### A write on a sound line (R342, R345) -/

/-- `t` is `s` after a write of `bytes` at `pa` by agent `v` has been performed there. -/
structure WritePerformed (s t : State) (v : Agent) (pa : Nat) (bytes : List Byte) : Prop where
  only : OnlyMemory s t
  mem : t.mem = s.mem.write pa bytes
  stale : ∀ e ∈ t.stale, (e ∈ s.stale ∧ (e.viewer = v → e.touches .memory pa bytes.length = false)) ∨
    (e.viewer ≠ v ∧ e.bank = .memory ∧ ∀ a, e.lo ≤ a → a < e.lo + e.old.length → pa ≤ a ∧ a < pa + bytes.length)

/-- A write to a line that holds no error is performed (R342). -/
theorem writePerformed_perform {s : State} {pa : Nat} (bytes : List Byte) (raw : Bool) (v : Agent) (rmw : Bool) (rels : List Nat)
    (bound : Option CoreId) (h : s.linePoisoned (lineOf pa) = false) :
    ∃ t, s.perform pa bytes raw v rmw rels bound = (t, none) ∧ WritePerformed s t v pa bytes := by
  have honly := onlyMemory_perform s pa bytes raw v rmw rels bound
  have hmerge : ∃ t, s.mergeLine pa bytes raw v rmw rels bound = (t, none) ∧ t.mem = s.mem.write pa bytes ∧
      t.stale = (s.noteWrite .memory pa bytes.length v rmw rels bound).stale := by
    simp only [State.mergeLine, h, Bool.and_false, Bool.false_eq_true, if_false]
    exact ⟨_, rfl, rfl, rfl⟩
  obtain ⟨t, ht, hmem, hstale⟩ := hmerge
  have hperf : s.perform pa bytes raw v rmw rels bound = (t, none) := by rw [State.perform, ht]
  rw [hperf] at honly
  exact ⟨t, hperf, honly, hmem, fun e he => stale_noteWrite (hstale ▸ he)⟩

section
variable {s t : State} {v : Agent} {pa : Nat} {bytes : List Byte} (h : WritePerformed s t v pa bytes)
include h

/-- Nothing outside the bytes of a write changes in memory, or for a core that lags behind no write. -/
theorem WritePerformed.sameBytesOutside : SameBytesOutside pa bytes.length s t := by
  intro a ha
  have hmem : t.mem.get a = s.mem.get a := by rw [h.mem, Memory.get_write_outside _ _ _ _ ha]
  refine ⟨hmem, fun c hc => viewByte_congr h.only.pending ?_ hmem⟩
  have hs : s.staleByte (.pump c) .memory a = none := staleByte_eq_none fun e he hv => absurd hv (hc e he)
  rw [hs]
  refine staleByte_eq_none fun e he hv hb hcov => ?_
  rcases h.stale e he with ⟨hold, -⟩ | ⟨-, -, hin⟩
  · exact hc e hold hv
  · have := hin a hcov.1 hcov.2
    omega

/-- The bytes are in memory. -/
theorem WritePerformed.get (hwf : s.mem.wf = true) {j : Nat} (hj : j < bytes.length) : t.mem.get (pa + j) = bytes.getD j 0 := by
  rw [h.mem, Memory.get_write_inside _ _ _ _ hwf hj, List.getD_eq_getElem _ _ hj]

end

end Sys2Proof

/-! `amo` and `amo.cas` (R281, R301): an update reads the newest bytes of its word, and its write is performed at once. -/

namespace Sys2Proof

open Machine

/-! ### What only orders (R276, R277; log 7) -/

/-- `t` is `s` but for the order of its writes, of which more is seen. -/
structure Ordered (s t : State) : Prop where
  only : OnlyOrder s t
  sees : SeesMore s t

theorem Ordered.refl (s : State) : Ordered s s := ⟨.refl s, .refl s⟩

theorem Ordered.trans {s t u : State} (h : Ordered s t) (k : Ordered t u) : Ordered s u :=
  ⟨h.only.trans k.only, h.sees.trans k.sees⟩

theorem ordered_learn (s : State) (v : Agent) (sel : Stale → Bool) : Ordered s (s.learn v sel) := ⟨rfl, seesMore_learn s v sel⟩

theorem ordered_keepLag (s : State) (sel : Stale → Bool) : Ordered s (s.keepLag sel) := ⟨rfl, seesMore_keepLag s sel⟩

theorem ordered_noteRead (s : State) (v : Agent) (b : Bank) (lo n : Nat) : Ordered s (s.noteRead v b lo n) :=
  ⟨rfl, seesMore_noteRead s v b lo n⟩

theorem ordered_addRelease (s : State) (core : Option CoreId) (scope : Scope) (engine : Bool) (kind : Carrier) (sel : Stale → Bool) :
    Ordered s (s.addRelease core scope engine kind sel) := by
  unfold State.addRelease
  split
  · refine ⟨rfl, seesMore_map_stale _ rfl fun e => ?_⟩
    dsimp only
    split <;> rfl
  · exact .refl s

theorem ordered_markRelease (s : State) (c : CoreId) (scope : Scope) (kind : Carrier) : Ordered s (s.markRelease c scope kind) := by
  unfold State.markRelease
  split
  · exact .refl s
  · exact ordered_addRelease ..

/-- A release of a core that has no store under way only orders (R276). -/
theorem ordered_releaseAt {s : State} {c : CoreId} (h : ∀ w ∈ s.pending, w.core ≠ c) (scope : Scope) (kind : Carrier) :
    Ordered s (s.releaseAt c scope kind) := by
  unfold State.releaseAt
  rw [release_none s c h]
  split
  · exact .refl s
  · exact ordered_markRelease ..

theorem Ordered.pending {s t : State} (h : Ordered s t) : t.pending = s.pending := by rw [h.only]; rfl
theorem Ordered.mem {s t : State} (h : Ordered s t) : t.mem = s.mem := by rw [h.only]; rfl
theorem Ordered.cores {s t : State} (h : Ordered s t) : t.cores = s.cores := by rw [h.only]; rfl
theorem Ordered.now {s t : State} (h : Ordered s t) : t.now = s.now := by rw [h.only]; rfl
theorem Ordered.pump {s t : State} (h : Ordered s t) (c : CoreId) : t.pump c = s.pump c := by rw [h.only]; rfl
theorem Ordered.linePoisoned {s t : State} (h : Ordered s t) (l : Nat) : t.linePoisoned l = s.linePoisoned l := by rw [h.only]; rfl
theorem Ordered.writeBind {s t : State} (h : Ordered s t) (c : CoreId) (pa : Nat) : t.writeBind c pa = s.writeBind c pa := by
  rw [h.only]; rfl

/-- A change of a pump after what only orders. -/
theorem Ordered.modPump {s u : State} (h : Ordered s u) (c : CoreId) (f : Pump → Pump) : OnlyPumpAndOrder c s (u.modPump c f) := by
  refine ⟨?_, h.sees⟩
  rw [State.pump_modPump_self, h.pump]
  exact (congrArg (State.modPump · c f) h.only).trans rfl

/-- An agent has seen every write of a range. -/
def SeenNewest (s : State) (v : Agent) (b : Bank) (lo n : Nat) : Prop := ∀ e ∈ s.stale, e.viewer = v → e.touches b lo n = false

/-- An entry of what is not seen later is one of before, beside who knows it and which releases carry it. -/
theorem SeesMore.entry {s t : State} (h : SeesMore s t) {e : Stale} (he : e ∈ t.stale) :
    ∃ e' ∈ s.stale, e.viewer = e'.viewer ∧ e.bank = e'.bank ∧ e.lo = e'.lo ∧ e.old = e'.old := by
  obtain ⟨e', he', heq⟩ := h e he
  simp only [Stale.mk.injEq] at heq
  exact ⟨e', he', heq.1, heq.2.1, heq.2.2.1, heq.2.2.2.1⟩

theorem SeenNewest.mono {s t : State} {v : Agent} {b : Bank} {lo n : Nat} (h : SeenNewest s v b lo n) (k : SeesMore s t) :
    SeenNewest t v b lo n := by
  intro e he hv
  obtain ⟨e', he', hv', hb, hlo, hold⟩ := k.entry he
  rw [Stale.touches, hb, hlo, hold]
  exact h e' he' (hv' ▸ hv)

theorem seenNewest_seeNewest (s : State) (v : Agent) (b : Bank) (lo n : Nat) : SeenNewest (s.seeNewest v b lo n) v b lo n := by
  intro e he hv
  have := sel_of_mem_keepStale _ _ e he
  simpa [hv] using this

theorem ordered_readNewest (s : State) (v : Agent) (b : Bank) (lo n : Nat) : Ordered s (s.readNewest v b lo n) :=
  (ordered_keepLag s _).trans (ordered_noteRead _ v b lo n)

theorem seenNewest_readNewest (s : State) (v : Agent) (b : Bank) (lo n : Nat) : SeenNewest (s.readNewest v b lo n) v b lo n :=
  (seenNewest_seeNewest s v b lo n).mono (seesMore_noteRead _ v b lo n)

/-! ### The two parts of an order (R276, R277) -/

/-- The acquire part of an update, at its word. -/
def acquirePart (s : State) (c : CoreId) (pa n : Nat) (ord : AmoOrd) : State :=
  match acquires ord with
  | some scope => s.acquireAt (.pump c) scope .memory pa n
  | none => s

/-- Its release part. -/
def releasePart (s : State) (c : CoreId) (ord : AmoOrd) : State :=
  match releaseScope ord with
  | some scope => s.releaseAt c scope
  | none => s

theorem ordered_acquirePart (s : State) (c : CoreId) (pa n : Nat) (ord : AmoOrd) : Ordered s (acquirePart s c pa n ord) := by
  unfold acquirePart
  split
  · exact ordered_learn ..
  · exact .refl s

theorem ordered_releasePart {s : State} {c : CoreId} (h : ∀ w ∈ s.pending, w.core ≠ c) (ord : AmoOrd) :
    Ordered s (releasePart s c ord) := by
  unfold releasePart
  split
  · exact ordered_releaseAt h _ _
  · exact .refl s

/-! ### An update -/

theorem linePoisoned_of_lineStop {s : State} {pa : Nat} {ea : Word} (h : s.lineStop pa ea = none) :
    s.linePoisoned (lineOf pa) = false := by
  simp only [State.lineStop] at h
  simp only [State.linePoisoned]
  split at h
  · cases h
  next hk =>
    split at h
    · cases h
    next hm =>
      split at h
      · cases h
      next hd =>
        split at h
        · cases h
        next hc => simp_all

/-- The write of an update on a sound line that no write bind holds is performed (R281, R301). -/
theorem writePerformed_rmwWrite {s : State} {c : CoreId} {pa : Nat} (bytes : List Byte) (hp : ∀ w ∈ s.pending, w.core ≠ c)
    (hb : s.writeBind c pa = none) (hl : s.linePoisoned (lineOf pa) = false) :
    WritePerformed s (s.rmwWrite c pa bytes) (.pump c) pa bytes := by
  have hnone : (s.performWhere fun w => w.core = c && overlaps w.pa w.bytes.length pa bytes.length) = s := by
    rw [State.performWhere, performAll_none]
    · rfl
    · exact fun w hw => by simp [hp w hw]
  obtain ⟨t, ht, hperf⟩ := writePerformed_perform bytes false (.pump c) true (s.carries c) none hl
  simp only [State.rmwWrite, hb, hnone, ht]
  exact hperf

/-- What an update of `n` bytes at `pa` that writes `v` leaves in memory, and what is seen of it. -/
structure Updated (s t : State) (c : CoreId) (pa n : Nat) (v : Word) : Prop where
  pending : t.pending = s.pending
  outside : SameBytesOutside pa n s t
  inside : ∀ j < n, t.mem.get (pa + j) = v.extractLsb' (8 * j) 8 ∧ t.viewByte c (pa + j) = v.extractLsb' (8 * j) 8

section
variable {s : State} {c : CoreId} {pa n : Nat} (hwf : s.mem.wf = true) (hp : ∀ w ∈ s.pending, w.core ≠ c)
include hp

/-- An update reads its bytes as they have been performed. -/
theorem view_readNewest : (s.readNewest (.pump c) .memory pa n).view c pa n = s.mem.read pa n := by
  have hord := ordered_readNewest s (.pump c) .memory pa n
  rw [State.view_eq_map, Memory.read_eq_map]
  refine List.map_congr_left fun j hj => ?_
  rw [viewByte_of_no_pending (hord.pending ▸ hp), staleByte_of_not_touched (seenNewest_readNewest s _ _ pa n) (List.mem_range.mp hj),
    hord.mem]
  rfl

include hwf

theorem updated_rmwWrite {u : State} (h : Ordered s u) (hb : s.writeBind c pa = none) (hl : s.linePoisoned (lineOf pa) = false)
    (v : Word) : Updated s (u.rmwWrite c pa (toLE n v.toNat)) c pa n v ∧ (u.rmwWrite c pa (toLE n v.toNat)).cores = s.cores := by
  have hpu : ∀ w ∈ u.pending, w.core ≠ c := h.pending ▸ hp
  have hw := writePerformed_rmwWrite (toLE n v.toNat) hpu (h.writeBind c pa ▸ hb) (h.linePoisoned _ ▸ hl)
  have hpt : ∀ w ∈ (u.rmwWrite c pa (toLE n v.toNat)).pending, w.core ≠ c := hw.only.pending ▸ hpu
  have hin (j : Nat) (hj : j < n) : (u.rmwWrite c pa (toLE n v.toNat)).mem.get (pa + j) = v.extractLsb' (8 * j) 8 :=
    (hw.get (h.mem ▸ hwf) (by rwa [length_toLE])).trans (getD_toLE_toNat v hj)
  have hseen : SeenNewest (u.rmwWrite c pa (toLE n v.toNat)) (.pump c) .memory pa n := fun e he hv => by
    rcases hw.stale e he with ⟨-, hold⟩ | ⟨hne, -⟩
    · exact length_toLE n v.toNat ▸ hold hv
    · exact absurd hv hne
  refine ⟨⟨hw.only.pending.trans h.pending, fun a ha => ?_, fun j hj => ⟨hin j hj, ?_⟩⟩, hw.only.cores.trans h.cores⟩
  · obtain ⟨hmem, hview⟩ := hw.sameBytesOutside a (by rwa [length_toLE])
    refine ⟨hmem.trans (congrArg (·.get a) h.mem), fun d hd => ?_⟩
    have hdu : ∀ e ∈ u.stale, e.viewer ≠ .pump d := fun e he => by
      obtain ⟨e', he', hv, -⟩ := h.sees.entry he
      exact hv ▸ hd e' he'
    refine (hview d hdu).trans (viewByte_congr h.pending ?_ (congrArg (·.get a) h.mem))
    rw [staleByte_eq_none fun e he hv => absurd hv (hdu e he), staleByte_eq_none fun e he hv => absurd hv (hd e he)]
  · rw [viewByte_of_no_pending hpt, staleByte_of_not_touched hseen hj]
    exact hin j hj

end

/-- An update without a value to write only reads. -/
def updateWith (s : State) (c : CoreId) (pa n : Nat) (ord : AmoOrd) : Option Word → State
  | none => s
  | some v => ((releasePart s c ord).rmwWrite c pa (toLE n v.toNat)).issued c

theorem pumpGives_giveResult (s : State) (c : CoreId) (d : Reg) (v : Word) :
    PumpGives (s.pump c) ((s.giveResult c d v).pump c) d v 0 := (gives_giveResult { s with cur := c } d v).2

theorem amo_of_permitted {s : State} {c : CoreId} {d a : Reg} {n pa : Nat} {ord : AmoOrd} {new : Word → Option Word}
    (hp : ∀ w ∈ s.pending, w.core ≠ c) (ha : ((s.pump c).read a).toNat % n = 0)
    (ht : s.translate c ((s.pump c).read a) .rw = .at pa) (hl : s.lineStop pa ((s.pump c).read a) = none) :
    s.amo c d a n ord new = .ok ((updateWith (acquirePart (s.readNewest (.pump c) .memory pa n) c pa n ord) c pa n ord
      (new (leWord (s.mem.read pa n)))).giveResult c d (leWord (s.mem.read pa n))) := by
  have hpa : s.paOf c ((s.pump c).read a) .rw = .ok pa := by rw [State.paOf, ht]
  rw [← view_readNewest hp]
  simp only [State.amo, if_neg (not_not.mpr ha), hpa]
  show (guardStop (s.lineStop pa _) >>= fun _ => _) = _
  rw [hl]
  show Except.ok _ = Except.ok _
  congr 2

/-- An update that nothing stops gives the old value, and writes the new one at once where there is one (R281, R301). -/
theorem amo_spec {s : State} {c : CoreId} (d a : Reg) {n pa : Nat} (ord : AmoOrd) (new : Word → Option Word)
    (hwf : s.mem.wf = true) (hp : ∀ w ∈ s.pending, w.core ≠ c) (ha : ((s.pump c).read a).toNat % n = 0)
    (ht : s.translate c ((s.pump c).read a) .rw = .at pa) (hl : s.lineStop pa ((s.pump c).read a) = none)
    (hb : s.writeBind c pa = none) :
    ∃ t, s.amo c d a n ord new = .ok t ∧ PumpGives (s.pump c) (t.pump c) d (leWord (s.mem.read pa n)) 0 ∧
      t.cores = (s.modPump c fun _ => t.pump c).cores ∧
      (new (leWord (s.mem.read pa n)) = none → OnlyPumpAndOrder c s t) ∧
      ∀ v, new (leWord (s.mem.read pa n)) = some v → Updated s t c pa n v := by
  have hacq : Ordered s (acquirePart (s.readNewest (.pump c) .memory pa n) c pa n ord) :=
    (ordered_readNewest s _ _ _ _).trans (ordered_acquirePart ..)
  have hrel := hacq.trans (ordered_releasePart (hacq.pending ▸ hp) ord)
  have given {u : State} (hu : u.cores = s.cores) (v : Word) : PumpGives (s.pump c) ((u.giveResult c d v).pump c) d v 0 ∧
      (u.giveResult c d v).cores = (s.modPump c fun _ => (u.giveResult c d v).pump c).cores := by
    have hc : u.core c = s.core c := by rw [State.core, State.core, hu]
    have hg := pumpGives_giveResult u c d v
    rw [State.pump, hc] at hg
    refine ⟨hg, ?_⟩
    show setAt u.cores c { u.core c with pump := ((u.core c).pump.result d v).advance } =
      setAt s.cores c { s.core c with pump := (u.giveResult c d v).pump c }
    rw [State.giveResult, State.pump_modPump_self, State.pump, hu, hc]
  refine ⟨_, amo_of_permitted hp ha ht hl, ?_⟩
  cases hnew : new (leWord (s.mem.read pa n)) with
  | none =>
    obtain ⟨hg, hc⟩ := given hacq.cores (leWord (s.mem.read pa n))
    exact ⟨hg, hc, fun _ => hacq.modPump c _, nofun⟩
  | some v =>
    obtain ⟨hupd, hcores⟩ := updated_rmwWrite hwf hp hrel hb (linePoisoned_of_lineStop hl) v
    obtain ⟨hg, hc⟩ := given (u := ((releasePart _ c ord).rmwWrite c pa (toLE n v.toNat)).issued c) hcores (leWord (s.mem.read pa n))
    refine ⟨hg, hc, nofun, fun w hw => ?_⟩
    cases hw
    exact ⟨hupd.pending, hupd.outside, hupd.inside⟩

/-- Settles O31: both instructions are one update, and `AmoOp.apply` is the operation of R301. -/
theorem atomicsReadAndWriteOneWord : Obligations.AtomicsReadAndWriteOneWord := by
  unfold Obligations.AtomicsReadAndWriteOneWord
  intro s op ord d a b c pa p ea y n old x new wrote hwf ht hl hb hp
  refine ⟨fun ha => ?amo, fun ha => ?cas⟩
  case amo =>
    have hn : op.bytes = n := by cases op <;> rfl
    have hnew : op.apply x y = new := by
      cases op with
      | add => exact BitVec.eq_of_toNat_eq (by rw [BitVec.toNat_ofNat]; exact BitVec.toNat_add x y)
      | min => simp only [AmoOp.apply, BitVec.slt, decide_eq_true_eq, new]
      | max => simp only [AmoOp.apply, BitVec.slt, decide_eq_true_eq, new]
      | minn => simp only [AmoOp.apply, BitVec.ult, decide_eq_true_eq, new]
      | maxn => simp only [AmoOp.apply, BitVec.ult, decide_eq_true_eq, new]
      | _ => rfl
    obtain ⟨t, hamo, hgives, hcores, -, hwrote⟩ := amo_spec d a ord (fun v => some (op.apply v y)) hwf hp ha ht hl hb
    obtain ⟨hpend, hout, hin⟩ := hwrote _ (congrArg some hnew)
    refine ⟨t, ?_, hgives, ⟨hpend, hout, hin⟩, hcores⟩
    rw [← hn] at hamo
    simp only [exec, execAmo]
    rw [hamo]
    rfl
  case cas =>
    have hold : old 8 = leWord (s.mem.read pa 8) := rfl
    obtain ⟨t, hamo, hgives, hcores, hread, hwrote⟩ :=
      amo_spec d a ord (fun v => if v = y then some (p.read c) else none) hwf hp ha ht hl hb
    rw [← hold] at hgives hread hwrote
    have hexec : exec (.amoCas ord d a b c) s = .next t := by
      simp only [exec, execAmoCas]
      rw [hamo]
      rfl
    -- opaque from here: a condition on the bytes of memory is costly to evaluate
    clear_value old
    refine ⟨t, hexec, hgives, ?_, hcores⟩
    by_cases h : old 8 = y
    · obtain ⟨hpend, hout, hin⟩ := hwrote _ (if_pos h)
      rw [if_pos h]
      exact ⟨hpend, hout, hin⟩
    · rw [if_neg h]
      exact hread (if_neg h)

end Sys2Proof

/-! `nma`, `nmf` and the near-memory unit (R286, R303, R304, R344, R359). -/

namespace Sys2Proof

open Machine

/-- A blocked instruction whose attempt succeeds once its wait is over is done (R96). -/
theorem retry_of_ok {s t : State} {c : CoreId} {i : Instr} {f : State → Except Stop State} (h : f (unblocked s c) = .ok t) :
    s.retry c i f = t := by
  unfold unblocked at h
  simp only [State.retry, h]

theorem pump_unblocked (s : State) (c : CoreId) : (unblocked s c).pump c = (s.pump c).unblock s.now := State.pump_modPump_self _ _ _

theorem core_unblocked (s : State) (c : CoreId) :
    (unblocked s c).core c = { s.core c with pump := (s.pump c).unblock s.now } := State.core_modPump_self _ _ _

theorem flowOf_unblocked (s : State) (c : CoreId) : (unblocked s c).flowOf c = s.flowOf c := by
  rw [State.flowOf, State.flowOf, pump_unblocked, Pump.unblock_flow]
  rfl

theorem recordsFull_unblocked (s : State) (c : CoreId) : (unblocked s c).recordsFull c = s.recordsFull c := by
  rw [State.recordsFull, State.recordsFull, flowOf_unblocked]

theorem read_unblocked (s : State) (c : CoreId) (r : Reg) : ((unblocked s c).pump c).read r = (s.pump c).read r :=
  sameReads_unblocked s c r

/-! ### `nma` (R303) -/

/-- The update that an `nma` of core `c` sends to `pa`. -/
def nmaUpdate (s : State) (c : CoreId) (op : NmaOp) (d a : Reg) (imm : BitVec 32) (pa : Nat) : NmaOpPending :=
  { core := c, op := op, pa := pa, va := (s.pump c).ea a imm, value := ((s.pump c).read d).setWidth 32 }

/-- The state after an `nma` of core `c` that sends `n`. -/
def nmaSent (s : State) (c : CoreId) (n : NmaOpPending) : State :=
  { s with nmas := s.nmas ++ [n] }.modPump c fun q => { q with nmaBatch := q.nmaBatch + 1, pc := q.pc + 8 }

section
variable {s : State} {c : CoreId} {op : NmaOp} {d a : Reg} {imm : BitVec 32} {pa : Nat}

/-- An `nma` that its page permits is sent, unless 256 updates or completion records wait. -/
theorem nmaTry_of_permitted (ha : ((s.pump c).ea a imm).toNat % 4 = 0) (ht : s.translate c ((s.pump c).ea a imm) .rw = .at pa)
    (hf : s.recordsFull c = false) : s.nmaTry c op d a imm =
      if 256 ≤ s.nmaCount c then .error (.wait (some 5)) else .ok (nmaSent s c (nmaUpdate s c op d a imm pa)) := by
  have hpa : s.paOf c ((s.pump c).ea a imm) .rw = .ok pa := by rw [State.paOf, ht]
  simp only [State.nmaTry, feature_nma, if_neg (not_not.mpr ha), hpa]
  show (if 256 ≤ s.nmaCount c || s.recordsFull c then _ else _) = _
  simp only [hf, Bool.or_false, decide_eq_true_eq]
  split
  · rfl
  · show Except.ok _ = Except.ok _
    rw [State.goOn, modPump_modPump]
    rfl

/-- The end of the wait for a place sends the update (NMA_LIMIT_RELEASE). -/
theorem exec_nmaLimitRelease (hb : (s.pump c).block = some (.nma op d a imm)) (ha : ((s.pump c).ea a imm).toNat % 4 = 0)
    (ht : s.translate c ((s.pump c).ea a imm) .rw = .at pa) (hf : s.recordsFull c = false) (hc : ¬ 256 ≤ s.nmaCount c) :
    exec (.nmaLimitRelease c) s = .next (nmaSent (unblocked s c) c (nmaUpdate s c op d a imm pa)) := by
  have hea : ((unblocked s c).pump c).ea a imm = (s.pump c).ea a imm := by rw [Pump.ea, read_unblocked]; rfl
  have hcount : (unblocked s c).nmaCount c = s.nmaCount c := rfl
  have htry : (unblocked s c).nmaTry c op d a imm = .ok (nmaSent (unblocked s c) c (nmaUpdate s c op d a imm pa)) := by
    rw [nmaTry_of_permitted (pa := pa) (by rwa [hea]) (by rwa [hea, unblocked, translate_modPump]) (by rwa [recordsFull_unblocked]),
      if_neg (hcount ▸ hc), nmaUpdate, hea, read_unblocked]
    rfl
  simp only [exec, execNmaLimitRelease, hb]
  rw [retry_of_ok htry]

end

/-! ### NMA_PERFORM (R286, R344) -/

/-- The oldest update of a sound word is performed: the word holds the new value, and its line becomes raw. -/
theorem performNma_spec {s : State} {i : Nat} {m : NmaOpPending} (hm : s.nmas[i]? = some m)
    (hold : ∀ y ∈ s.nmas.take i, y.core = m.core → y.pa ≠ m.pa) (hl : s.linePoisoned (lineOf m.pa) = false) :
    ∃ ls, WritePerformed { s with nmas := s.nmas.eraseIdx i, rawByNma := ls } (s.performNma i) (.near m.core) m.pa
      (toLE 4 (m.op.apply (BitVec.ofNat 32 (leNat (s.mem.read m.pa 4))) m.value).toNat) := by
  have hany : ((s.nmas.take i).any fun o => o.core = m.core && o.pa = m.pa) = false := by
    refine List.any_eq_false.mpr fun y hy => ?_
    simpa using hold y hy
  have hsound : State.linePoisoned { s with nmas := s.nmas.eraseIdx i } (lineOf m.pa) = false := hl
  simp only [State.performNma, hm, hany, hsound, Bool.false_eq_true, if_false]
  generalize (if s.rawByNma.contains (lineOf m.pa) = true then _ else _) = ls
  obtain ⟨t, ht, hw⟩ := writePerformed_perform (s := { s with nmas := s.nmas.eraseIdx i, rawByNma := ls })
    (toLE 4 (m.op.apply (BitVec.ofNat 32 (leNat (s.mem.read m.pa 4))) m.value).toNat) true (.near m.core) true [] none hl
  refine ⟨ls, ?_⟩
  rw [ht]
  exact hw

/-! ### `nmf` (R287, R304, R359) -/

/-- The record of the batch that an `nmf` of core `c` closes is due: the launch asks for it, and the batch is not empty. -/
def batchRecord (s : State) (c : CoreId) : Bool := (s.launch c).batches && (s.pump c).nmaBatch ≠ 0

/-- The record of a batch. -/
def batchDue (s : State) (c : CoreId) : DueRecord :=
  { kind := 2, status := 0, code := 0, flags := 0, amount := BitVec.ofNat 64 (s.pump c).nmaBatch, core := c, handle := 0,
    addr := (s.pump c).pc, by_ := .near c, upTo := s.serial }

/-- The state after an `nmf` of core `c`. -/
def batchClosed (s : State) (c : CoreId) : State :=
  ((if batchRecord s c then s.addDue (s.pump c).flow (batchDue s c) else s).passOn (.near c) (.pump c)).modPump c fun p =>
    { p with nmaBatch := 0, pc := p.pc + 8 }

theorem nmfTry_of_outstanding {s : State} {c : CoreId} (h : s.nmaCount c ≠ 0) : s.nmfTry c = .error (.wait (some 5)) := by
  simp only [State.nmfTry, h, ne_eq, not_false_eq_true, if_true]
  rfl

theorem nmfTry_of_full {s : State} {c : CoreId} (h : s.nmaCount c = 0) (hr : batchRecord s c = true) (hf : s.recordsFull c = true) :
    s.nmfTry c = .error (.wait (some 5)) := by
  unfold batchRecord at hr
  simp only [State.nmfTry, h, ne_eq, not_true_eq_false, if_false]
  show (if ((s.launch c).batches && decide ((s.pump c).nmaBatch ≠ 0)) && s.recordsFull c then _ else _) = _
  rw [hr, hf]
  rfl

theorem nmfTry_of_room {s : State} {c : CoreId} (h : s.nmaCount c = 0) (hf : batchRecord s c = true → s.recordsFull c = false) :
    s.nmfTry c = .ok (batchClosed s c) := by
  have hwait : (batchRecord s c && s.recordsFull c) = false := by
    cases hr : batchRecord s c with
    | false => rfl
    | true => exact hf hr
  simp only [State.nmfTry, h, ne_eq, not_true_eq_false, if_false]
  show (if batchRecord s c && s.recordsFull c then _ else _) = _
  rw [hwait]
  show Except.ok _ = Except.ok _
  rw [State.goOn, modPump_modPump]
  rfl

theorem batchRecord_eq_true {s : State} {c : CoreId} :
    batchRecord s c = true ↔ (s.launch c).batches = true ∧ (s.pump c).nmaBatch ≠ 0 := by
  simp [batchRecord]

/-- What an `nmf` leaves: the batch of the pump is closed, and memory stands. -/
theorem batchClosed_spec (s : State) (c : CoreId) :
    (batchClosed s c).pump c = { s.pump c with nmaBatch := 0, pc := (s.pump c).pc + 8 } ∧ (batchClosed s c).mem = s.mem := by
  unfold batchClosed
  rw [State.pump_modPump_self]
  cases batchRecord s c <;> exact ⟨rfl, rfl⟩

/-- Without a record, it only orders. -/
theorem onlyPumpAndOrder_batchClosed {s : State} {c : CoreId} (h : batchRecord s c = false) :
    OnlyPumpAndOrder c s (batchClosed s c) := by
  unfold batchClosed
  rw [h]
  exact (ordered_learn s _ _).modPump c _

/-- NMF_RETURN closes the batch once no update of the pump is outstanding. -/
theorem exec_nmfReturn {s : State} {c : CoreId} (hb : (s.pump c).block = some .nmf) (h : s.nmaCount c = 0)
    (hf : batchRecord s c = true → s.recordsFull c = false) : exec (.nmfReturn c) s = .next (batchClosed (unblocked s c) c) := by
  have hrec : batchRecord (unblocked s c) c = batchRecord s c := by
    rw [batchRecord, batchRecord, pump_unblocked, Pump.unblock_nmaBatch, unblocked, launch_modPump_self]
  have htry : (unblocked s c).nmfTry c = .ok (batchClosed (unblocked s c) c) :=
    nmfTry_of_room h fun hr => (recordsFull_unblocked s c).trans (hf (hrec ▸ hr))
  simp only [exec, execNmfReturn, hb]
  rw [retry_of_ok htry]

/-- The operation of R303 on one word. -/
theorem NmaOp.apply_add (x v : BitVec 32) : NmaOp.add.apply x v = BitVec.ofNat 32 (x.toNat + v.toNat) :=
  BitVec.eq_of_toNat_eq (by rw [BitVec.toNat_ofNat]; exact BitVec.toNat_add x v)

/-- Settles O33: `nma` and `nmf` by their attempts, the ends of their waits by the same attempts, and NMA_PERFORM by the one write
that it performs. -/
theorem nearMemoryUpdates : Obligations.NearMemoryUpdates := by
  unfold Obligations.NearMemoryUpdates
  intro s op d a imm pa i m c p ea nma count update sent x new
  have hcount : s.nmaCount c = count := List.countP_eq_length_filter
  refine ⟨fun ha ht hf => ⟨fun hlt => ⟨?send, fun hb => ?release⟩, fun hge => ?limit⟩, fun hwf hm hold hl => ?perform,
    fun h0 hrec => ⟨?close, fun hb => ?ret⟩, fun hne => ?outstanding, fun h0 hb hn hf => ?full⟩
  case send =>
    refine congrArg (State.outcome s c nma) ((nmaTry_of_permitted ha ht hf).trans (if_neg ?_))
    rw [hcount]
    omega
  case release => exact exec_nmaLimitRelease hb ha ht hf (by rw [hcount]; omega)
  case limit => exact waits_of _ _ _ _ rfl ((nmaTry_of_permitted ha ht hf).trans (if_pos (by rw [hcount]; exact hge)))
  case perform =>
    obtain ⟨ls, hw⟩ := performNma_spec hm hold hl
    have hnew : m.op.apply (BitVec.ofNat 32 (leNat (s.mem.read m.pa 4))) m.value = new := by
      show m.op.apply x m.value = new
      cases hop : m.op with
      | add => exact (NmaOp.apply_add x m.value).trans (by simp only [new, hop])
      | max => simp only [NmaOp.apply, BitVec.slt, decide_eq_true_eq, new, hop]
      | min => simp only [NmaOp.apply, BitVec.slt, decide_eq_true_eq, new, hop]
      | fadd => simp only [new, hop]; rfl
      | fmax => simp only [new, hop]; rfl
      | fmin => simp only [new, hop]; rfl
    refine ⟨_, rfl, by rw [hw.only], hw.only.cores, hw.only.pending, ?_, fun j hj => ?_⟩
    · exact length_toLE 4 _ ▸ hw.sameBytesOutside
    · rw [← hnew]
      exact (hw.get hwf (by rwa [length_toLE])).trans (getD_toLE_toNat _ hj)
  case close =>
    obtain ⟨hpump, hmem⟩ := batchClosed_spec s c
    have htry := nmfTry_of_room (hcount.trans h0) fun h => hrec (batchRecord_eq_true.mp h).1 (batchRecord_eq_true.mp h).2
    refine ⟨batchClosed s c, congrArg (State.outcome s c .nmf) htry, hpump, hmem, fun hno => onlyPumpAndOrder_batchClosed ?_⟩
    rw [← Bool.not_eq_true, batchRecord_eq_true]
    rintro ⟨hbatch, hn⟩
    rcases hno with hno | hno
    · rw [hno] at hbatch
      cases hbatch
    · exact hn hno
  case ret =>
    obtain ⟨hpump, hmem⟩ := batchClosed_spec (unblocked s c) c
    refine ⟨_, exec_nmfReturn hb (hcount.trans h0) fun h => hrec (batchRecord_eq_true.mp h).1 (batchRecord_eq_true.mp h).2, ?_⟩
    rw [hpump, pump_unblocked]
    exact ⟨Pump.unblock_block _ _, rfl, congrArg (· + 8) (Pump.unblock_pc _ _), hmem⟩
  case outstanding => exact waits_of _ _ _ _ rfl (nmfTry_of_outstanding (by rwa [hcount]))
  case full => exact waits_of _ _ _ _ rfl (nmfTry_of_full (hcount.trans h0) (batchRecord_eq_true.mpr ⟨hb, hn⟩) hf)

end Sys2Proof

/-! `bara`, `barw` and `bar` (R280, R319): what counts an arrival, when a wait ends, and an abandoned `bar`. -/

namespace Sys2Proof

open Machine

/-! ### What only one pump and the order of writes changes -/

theorem OnlyPumpAndOrder.trans {c : CoreId} {s t u : State} (h : OnlyPumpAndOrder c s t) (k : OnlyPumpAndOrder c t u) :
    OnlyPumpAndOrder c s u := by
  refine ⟨?_, h.2.trans k.2⟩
  calc u = orderedAs (t.modPump c fun _ => u.pump c) u := k.1
    _ = orderedAs ((orderedAs (s.modPump c fun _ => t.pump c) t).modPump c fun _ => u.pump c) u :=
      congrArg (fun x => orderedAs (x.modPump c fun _ => u.pump c) u) h.1
    _ = orderedAs ((s.modPump c fun _ => t.pump c).modPump c fun _ => u.pump c) u := rfl
    _ = orderedAs (s.modPump c fun _ => u.pump c) u := by rw [modPump_modPump]

theorem OnlyPump.andOrder {c : CoreId} {s t : State} (h : OnlyPump c s t) : OnlyPumpAndOrder c s t :=
  h.trans_order ⟨OnlyPump.refl c t, .refl t⟩

theorem OnlyPumpAndOrder.pump_ne {c d : CoreId} {s t : State} (h : OnlyPumpAndOrder c s t) (hd : d ≠ c) : t.pump d = s.pump d := by
  rw [h.1]
  show (s.modPump c fun _ => t.pump c).pump d = s.pump d
  exact State.pump_modPump_ne s c d _ hd

theorem OnlyPumpAndOrder.members {c : CoreId} {s t : State} (h : OnlyPumpAndOrder c s t) (scope : Scope) :
    t.members c scope = s.members c scope := by
  have hl : t.launch c = s.launch c := by
    rw [h.1]
    show (s.modPump c fun _ => t.pump c).launch c = s.launch c
    exact launch_modPump_self s c _
  rw [State.members, State.members, hl]

/-! ### The counts of a core -/

/-- The count of a core changes, and the core goes on, from `u` to `t`. -/
def CountsAs (c : CoreId) (scope : Scope) (u t : State) (y : Barrier) : Prop :=
  OnlyPumpAndOrder c u t ∧
    t.pump c = { u.pump c with bars := setAt (u.pump c).bars (scopeIndex scope) y, pc := (u.pump c).pc + 8 }

@[simp] theorem bar_modBar (s : State) (c : CoreId) (scope : Scope) (f : Barrier → Barrier) :
    (s.modBar c scope f).bar c scope = f (s.bar c scope) := by
  simp only [State.bar, State.modBar, State.pump_modPump_self, getElem_setAt_self]

theorem bar_unblocked (s : State) (c : CoreId) (scope : Scope) : (unblocked s c).bar c scope = s.bar c scope := by
  rw [State.bar, State.bar, pump_unblocked]
  unfold Pump.unblock
  split <;> rfl

/-- A wait changes its pump, which sees more (R485). -/
theorem onlyPumpAndOrder_stop_wait (s : State) (c : CoreId) (i : Instr) (why : Option (BitVec 8)) :
    OnlyPumpAndOrder c s (s.stop c i (.wait why)) := onlyPumpAndOrder_caughtUp s c fun p => p.blockIn s.now i why

theorem pump_stop_wait (s : State) (c : CoreId) (i : Instr) (why : Option (BitVec 8)) :
    (s.stop c i (.wait why)).pump c = (s.pump c).blockIn s.now i why := State.pump_modPump_self _ _ _

/-- A count that changes after what only orders, the core going on. -/
theorem countsAs_modBar {s u : State} (h : Ordered s u) (c : CoreId) (scope : Scope) (f : Barrier → Barrier) :
    CountsAs c scope s ((u.modBar c scope f).goOn c) (f (s.bar c scope)) := by
  rw [State.modBar, State.goOn, modPump_modPump]
  refine ⟨h.modPump c _, ?_⟩
  rw [State.pump_modPump_self, State.bar, h.pump]
  rfl

/-- A second change of a count takes the place of the first. -/
theorem CountsAs.after_modBar {s u t : State} {c : CoreId} {scope : Scope} {f : Barrier → Barrier} {y : Barrier}
    (h : CountsAs c scope (u.modBar c scope f) t y) (k : Ordered s u) : CountsAs c scope s t y := by
  obtain ⟨honly, hpump⟩ := h
  refine ⟨(k.modPump c _).trans honly, hpump.trans ?_⟩
  simp only [State.modBar, State.pump_modPump_self, k.pump, setAt_setAt]

/-! ### The wait (R280, R319) -/

/-- The other members of a barrier of core `c`. -/
def others (s : State) (c : CoreId) (scope : Scope) : List CoreId := (s.members c scope).filter fun j => j ≠ c

/-- Core `j` has made the arrival of the episode that `n` arrivals stand for. -/
def ArrivedAt (s : State) (scope : Scope) (n : BitVec 32) (j : CoreId) : Prop := ((s.bar j scope).arrivals - n).toNat < 2 ^ 31

theorem arrived_iff (s : State) (c : CoreId) (scope : Scope) (j : CoreId) :
    s.arrived c scope j = true ↔ ArrivedAt s scope (s.bar c scope).arrivals j := by
  simp only [State.arrived, decide_eq_true_eq, BitVec.lt_def]
  rfl

theorem OnlyPumpAndOrder.others {c : CoreId} {s t : State} (h : OnlyPumpAndOrder c s t) (scope : Scope) :
    others t c scope = others s c scope := by
  rw [Sys2Proof.others, Sys2Proof.others, h.members]

theorem ne_of_mem_others {s : State} {c j : CoreId} {scope : Scope} (h : j ∈ others s c scope) : j ≠ c := by
  simpa using (List.mem_filter.mp h).2

theorem OnlyPumpAndOrder.arrivedAt {c j : CoreId} {s t : State} (h : OnlyPumpAndOrder c s t) (hj : j ≠ c) (scope : Scope)
    (n : BitVec 32) : ArrivedAt t scope n j ↔ ArrivedAt s scope n j := by
  rw [ArrivedAt, ArrivedAt, State.bar, State.bar, h.pump_ne hj]

/-- The members that are still missing, as the wait finds them. -/
theorem missing_eq (s : State) (c : CoreId) (scope : Scope) :
    (s.members c scope).filter (fun m => m ≠ c && !s.arrived c scope m) = (others s c scope).filter fun j => !s.arrived c scope j := by
  rw [others, List.filter_filter]
  exact List.filter_congr fun j _ => Bool.and_comm _ _

theorem ordered_acquireArrivals (s : State) (c : CoreId) (scope : Scope) : Ordered s (s.acquireArrivals c scope) :=
  ordered_learn s _ _

/-- A wait for which every other member has arrived ends. -/
theorem barWait_of_arrived {s : State} {c : CoreId} {scope : Scope}
    (h : ∀ j ∈ others s c scope, ArrivedAt s scope (s.bar c scope).arrivals j) :
    ∃ t, s.barWait c scope = .ok t ∧ CountsAs c scope s t (s.bar c scope).finish := by
  have hnil : (s.members c scope).filter (fun m => m ≠ c && !s.arrived c scope m) = [] := by
    rw [missing_eq, List.filter_eq_nil_iff]
    intro j hj
    simp [(arrived_iff s c scope j).mpr (h j hj)]
  refine ⟨_, ?_, countsAs_modBar (ordered_acquireArrivals s c scope) c scope Barrier.finish⟩
  simp only [State.barWait, hnil]
  rfl

/-- It waits for a member that has not halted. -/
theorem barWait_of_missing {s : State} {c j : CoreId} {scope : Scope} (hj : j ∈ others s c scope)
    (hn : ¬ ArrivedAt s scope (s.bar c scope).arrivals j) (hr : (s.pump j).run ≠ .halted) :
    s.barWait c scope = .error (.wait (some 4)) := by
  have hmem : j ∈ (s.members c scope).filter fun m => m ≠ c && !s.arrived c scope m := by
    rw [missing_eq, List.mem_filter, Bool.not_eq_true', ← Bool.not_eq_true, arrived_iff]
    exact ⟨hj, hn⟩
  simp only [State.barWait]
  split
  · next hnil => rw [hnil] at hmem; cases hmem
  · next m r hcons =>
    rw [hcons] at hmem
    have hall : ((m :: r).all fun d => (s.pump d).run = .halted) = false := by
      rw [List.all_eq_false]
      exact ⟨j, hmem, by simpa using hr⟩
    rw [hall]
    rfl

/-- It faults at the first of the missing members when all of them have halted. -/
theorem barWait_of_halted {s : State} {c m : CoreId} {rest : List CoreId} {scope : Scope}
    (h : ((others s c scope).filter fun j => !s.arrived c scope j) = m :: rest) (hr : ∀ j ∈ m :: rest, (s.pump j).run = .halted) :
    s.barWait c scope = .error (fault 0x19 (s.coreWord m)) := by
  have hall : ((m :: rest).all fun d => (s.pump d).run = .halted) = true :=
    List.all_eq_true.mpr fun j hj => decide_eq_true (hr j hj)
  simp only [State.barWait, missing_eq, h, hall]
  rfl

theorem open_of_ne {b : Barrier} (h : ¬ b.arrivals = b.waits) : b.open_ = true := decide_eq_true h

theorem open_of_eq {b : Barrier} (h : b.arrivals = b.waits) : b.open_ = false := decide_eq_false (not_not.mpr h)

theorem barwTry_of_open {s : State} {c : CoreId} {scope : Scope} (h : ¬ (s.bar c scope).arrivals = (s.bar c scope).waits) :
    s.barwTry c scope = s.barWait c scope := by
  rw [State.barwTry, open_of_ne h, if_pos rfl]

/-! ### The instructions -/

section
variable {s : State} {scope : Scope}

/-- The end of a wait (BARW_RELEASE), of a `barw` and of a `bar`. -/
theorem exec_barwRelease {c : CoreId} (hopen : ¬ (s.bar c scope).arrivals = (s.bar c scope).waits)
    (h : ∀ j ∈ others s c scope, ArrivedAt s scope (s.bar c scope).arrivals j)
    (hb : (s.pump c).block = some (.barw scope) ∨ (s.pump c).block = some (.bar scope)) :
    ∃ t, exec (.barwRelease c) s = .next t ∧ CountsAs c scope (unblocked s c) t (s.bar c scope).finish := by
  have honly : OnlyPumpAndOrder c s (unblocked s c) := (onlyPump_modPump s c _).andOrder
  obtain ⟨t, ht, hcounts⟩ := barWait_of_arrived (s := unblocked s c) (c := c) (scope := scope) (fun j hj => by
    rw [honly.others] at hj
    rw [bar_unblocked, honly.arrivedAt (ne_of_mem_others hj)]
    exact h j hj)
  rw [bar_unblocked] at hcounts
  refine ⟨t, ?_, hcounts⟩
  rcases hb with hb | hb
  · simp only [exec, execBarwRelease, hb]
    rw [retry_of_ok ((barwTry_of_open (by rwa [bar_unblocked])).trans ht)]
  · rw [unblocked] at ht
    simp only [exec, execBarwRelease, hb, ht]

/-- What a `bar` waits with: the arrival made, or kept from the abandoned one. -/
def barBegun (s : State) (scope : Scope) : State :=
  if (s.bar s.cur scope).abandoned then s.modBar s.cur scope fun x => { x with abandoned := false }
  else (s.arriveFence s.cur scope).modBar s.cur scope Barrier.arrive

theorem barBegun_of_fresh (h : (s.bar s.cur scope).abandoned = false) :
    barBegun s scope = (s.arriveFence s.cur scope).modBar s.cur scope Barrier.arrive := by
  rw [barBegun, h, if_neg Bool.false_ne_true]

theorem barBegun_of_abandoned (h : (s.bar s.cur scope).abandoned = true) :
    barBegun s scope = s.modBar s.cur scope fun x => { x with abandoned := false } := by
  rw [barBegun, if_pos h]

/-- A `bar` that may begin, and whose wait ends at once, is done. -/
theorem exec_bar_of_ok {t : State} (hb : ((s.bar s.cur scope).open_ && !(s.bar s.cur scope).abandoned) = false)
    (ht : (barBegun s scope).barWait s.cur scope = .ok t) : exec (.bar scope) s = .next t := by
  unfold barBegun at ht
  simp only [exec, execBar, hb, Bool.false_eq_true, if_false, ht]

/-- Where its wait does not end, it waits with its arrival made. -/
theorem exec_bar_of_wait {why : Option (BitVec 8)} (hb : ((s.bar s.cur scope).open_ && !(s.bar s.cur scope).abandoned) = false)
    (ht : (barBegun s scope).barWait s.cur scope = .error (.wait why)) :
    exec (.bar scope) s = .next ((barBegun s scope).stop s.cur (.bar scope) (.wait why)) := by
  unfold barBegun at ht ⊢
  simp only [exec, execBar, hb, Bool.false_eq_true, if_false, ht]

variable {u : State} {f : Barrier → Barrier}

/-- The wait of a `bar` whose count is `f` of the old one ends when all others have made that arrival. -/
theorem barWait_modBar_of_arrived {c : CoreId} (k : Ordered s u)
    (h : ∀ j ∈ others s c scope, ArrivedAt s scope (f (s.bar c scope)).arrivals j) :
    ∃ t, (u.modBar c scope f).barWait c scope = .ok t ∧ CountsAs c scope s t (f (s.bar c scope)).finish := by
  have honly : OnlyPumpAndOrder c s (u.modBar c scope f) := k.modPump c _
  have hbar : (u.modBar c scope f).bar c scope = f (s.bar c scope) := by rw [bar_modBar, State.bar, k.pump]; rfl
  obtain ⟨t, ht, hcounts⟩ := barWait_of_arrived (s := u.modBar c scope f) (c := c) (scope := scope) (fun j hj => by
    rw [honly.others] at hj
    rw [hbar, honly.arrivedAt (ne_of_mem_others hj)]
    exact h j hj)
  rw [hbar] at hcounts
  exact ⟨t, ht, hcounts.after_modBar k⟩

/-- It waits while one that has not halted is missing. -/
theorem barWait_modBar_of_missing {c j : CoreId} (k : Ordered s u) (hj : j ∈ others s c scope)
    (hn : ¬ ArrivedAt s scope (f (s.bar c scope)).arrivals j) (hr : (s.pump j).run ≠ .halted) :
    (u.modBar c scope f).barWait c scope = .error (.wait (some 4)) := by
  have honly : OnlyPumpAndOrder c s (u.modBar c scope f) := k.modPump c _
  have hbar : (u.modBar c scope f).bar c scope = f (s.bar c scope) := by rw [bar_modBar, State.bar, k.pump]; rfl
  have hne := ne_of_mem_others hj
  refine barWait_of_missing (j := j) (by rwa [honly.others]) ?_ (by rwa [honly.pump_ne hne])
  rwa [hbar, honly.arrivedAt hne]

end

/-- An asynchronous trap abandons a `bar`, whose arrival stays and is marked (R120, R319). -/
theorem exec_asyncTrapTaken_of_bar {s : State} {c : CoreId} {scope : Scope} {cause : Cause}
    (hb : (s.pump c).block = some (.bar scope)) (hrun : (s.pump c).run = .running) (hht : (s.pump c).ht = false)
    (hpage : (s.pump c).page = none) (hcause : (s.pump c).asyncs = [cause]) :
    exec (.asyncTrapTaken c) s = .next ((s.markBar c scope).takeAsync c cause (s.pump c).pc) := by
  have hready : (s.pump c).asyncReady = true :=
    asyncReady_of_mem hht (by simp only [Pump.abandonable, hb]) hpage (hcause ▸ List.mem_singleton_self cause)
  have habandon : s.abandon c = s.markBar c scope := by simp only [State.abandon, hb]
  simp only [exec, execAsyncTrapTaken, hcause, firstCause, hrun, hready, habandon, ne_eq, not_true, decide_false, Bool.not_true,
    Bool.or_false, Bool.false_eq_true, if_false]

/-- Settles O49: an arrival changes the count of its own core and releases, a wait reads the counts of the others. -/
theorem barriersCountArrivals : Obligations.BarriersCountArrivals := by
  unfold Obligations.BarriersCountArrivals
  intro s scope m rest cause c p x fresh oth arrived counts n hp
  have horder : Ordered s (s.arriveFence c scope) := ordered_releaseAt hp _ _
  have hopen (h : ¬ fresh) : x.open_ = true := open_of_ne h
  have hclosed (h : fresh) : x.open_ = false := open_of_eq h
  refine ⟨fun hf => ?bara, fun hf hc => ?bara_again, fun hf hc => ?barw_fresh, fun hf ha => ⟨?barw, fun hb => ?release⟩, ?barw_waits,
    fun hf hm hr hc => ?barw_halted, fun hf hab ha => ?bar, ?bar_waits, fun hb hf hrun hht htvec hpage hasync => ?abandon,
    fun hf hab ha => ?reissued⟩
  case bara =>
    refine ⟨_, ?_, countsAs_modBar horder c scope Barrier.arrive⟩
    simp only [exec, execBara]
    rw [show (s.bar s.cur scope).open_ = false from hclosed hf]
    rfl
  case bara_again =>
    refine faults_of _ _ _ _ _ rfl ?_ hc
    rw [show (s.bar s.cur scope).open_ = true from hopen hf]
    rfl
  case barw_fresh =>
    refine faults_of _ _ _ _ _ rfl ?_ hc
    rw [State.barwTry, show (s.bar s.cur scope).open_ = false from hclosed hf]
    rfl
  case barw =>
    obtain ⟨t, ht, hcounts⟩ := barWait_of_arrived ha
    refine ⟨t, ?_, hcounts⟩
    simp only [exec, execBarw]
    rw [(barwTry_of_open hf).trans ht]
    rfl
  case release =>
    obtain ⟨t, ht, honly, hpump⟩ := exec_barwRelease hf ha hb
    rw [pump_unblocked] at hpump
    exact ⟨t, ht, honly, hpump⟩
  case barw_waits =>
    rintro hf ⟨j, hj, hn, hr⟩
    exact waits_of _ _ _ _ rfl ((barwTry_of_open hf).trans (barWait_of_missing hj hn hr))
  case barw_halted =>
    exact faults_of _ _ _ _ _ rfl ((barwTry_of_open hf).trans (barWait_of_halted hm hr)) hc
  case bar =>
    obtain ⟨t, ht, hcounts⟩ := barWait_modBar_of_arrived (f := Barrier.arrive) horder ha
    exact ⟨t, exec_bar_of_ok (by rw [hclosed hf]; rfl) (by rwa [barBegun_of_fresh hab]), hcounts⟩
  case bar_waits =>
    rintro hf hab ⟨j, hj, hn, hr⟩
    have hwait := barWait_modBar_of_missing (f := Barrier.arrive) horder hj hn hr
    have hbegun : OnlyPumpAndOrder c s ((s.arriveFence c scope).modBar c scope Barrier.arrive) := horder.modPump c _
    have hpump : ((s.arriveFence c scope).modBar c scope Barrier.arrive).pump c =
        { p with bars := setAt p.bars (scopeIndex scope) x.arrive } := by
      rw [State.modBar, State.pump_modPump_self, horder.pump]
      rfl
    refine ⟨_, exec_bar_of_wait (by rw [hclosed hf]; rfl) (by rwa [barBegun_of_fresh hab]), ?_⟩
    rw [barBegun_of_fresh hab]
    refine ⟨hbegun.trans (onlyPumpAndOrder_stop_wait _ c _ _), ?_⟩
    rw [State.bar, pump_stop_wait, hpump]
    exact ⟨rfl, getElem_setAt_self _ _ _, rfl⟩
  case abandon =>
    have hpump : (s.markBar c scope).pump c = { p with bars := setAt p.bars (scopeIndex scope) { x with abandoned := x.open_ } } :=
      State.pump_modPump_self _ _ _
    obtain ⟨honly, -, hent⟩ := asyncTaken_takeAsync (s := s.markBar c scope) (c := c) (by rwa [hpump]) (by rwa [hpump]) cause p.pc
    refine ⟨_, exec_asyncTrapTaken_of_bar hb hrun hht hpage hasync, (onlyPump_modPump s c _).trans honly, ?_, hent.epc,
      hent.pc.trans (by rw [hpump]), hent.tcause⟩
    have hbars := congrArg Pump.bars hent.rest
    rw [State.bar, hbars, hpump]
    exact (getElem_setAt_self _ _ _).trans (by rw [hopen hf])
  case reissued =>
    obtain ⟨t, ht, hcounts⟩ := barWait_modBar_of_arrived (f := fun x => { x with abandoned := false }) (.refl s) ha
    exact ⟨t, exec_bar_of_ok (by rw [hab, Bool.not_true, Bool.and_false]) (by rwa [barBegun_of_abandoned hab]), hcounts⟩

end Sys2Proof

/-! A fence performs the pump's earlier stores one after another: the first can bring to light what a list of metadata codes
holds behind its first entry for a line, and the next is then dropped (R339, R345). -/

namespace Sys2Proof

open Machine

/-- A store of one byte to line 5 that is under way from the core whose turn it is. -/
def storeToLine5 (b : Byte) : Pending :=
  { core := State.reset.cur, bind := none, pa := 0x500, va := 0x500, bytes := [b], raw := false
    by_ := .pump State.reset.cur, rels := [] }

/-- Line 5, whose code the list of the state names twice, 0x2 first and an uncorrectable 0x1 behind it, and two stores to it. The
first one leaves a line of zeros, whose code 0 takes the first entry away. -/
def storesToLineNamedTwice : State :=
  { State.reset with codes := [(5, 2), (5, 1)], pending := [storeToLine5 0, storeToLine5 1] }

/-- The core sees the byte of its last store. -/
theorem storesToLineNamedTwice_sees : storesToLineNamedTwice.viewByte storesToLineNamedTwice.cur 0x500 = 1 := by decide +kernel

/-- The fence drops that store, whose line has become poisoned. -/
theorem storesToLineNamedTwice_dropped :
    ((storesToLineNamedTwice.fenceAt storesToLineNamedTwice.cur .core).goOn storesToLineNamedTwice.cur).mem.get 0x500 = 0 := by
  decide +kernel

/-- Refutes O32 in its clause on the bytes stored: with every line of the stores sound, a fence can lose one, where the list of
metadata codes is not canonical. `storesToLineNamedTwice` names a line twice, which `State.codes` rules out by its comment and the
statement by no hypothesis. -/
theorem not_fencesPublishEarlierStores : ¬ Obligations.FencesPublishEarlierStores := by
  unfold Obligations.FencesPublishEarlierStores
  intro h
  have hsound : storesToLineNamedTwice.linePoisoned 5 = false := by decide
  have hstores : ∀ w ∈ storesToLineNamedTwice.pending, w.core = storesToLineNamedTwice.cur →
      w.bind = none ∧ w.by_ = .pump storesToLineNamedTwice.cur ∧ w.pa % 256 + w.bytes.length ≤ 256 ∧
        storesToLineNamedTwice.linePoisoned (lineOf w.pa) = false := by
    intro w hw _
    rcases List.mem_pair.mp hw with rfl | rfl <;> exact ⟨rfl, rfl, by decide, hsound⟩
  obtain ⟨t, ht, -, hbytes, -⟩ :=
    (h storesToLineNamedTwice .core .last (.fence .core) rfl hstores).1 (.inl ⟨rfl, by decide⟩)
  have hs : t = _ := (Host.Outcome.next.inj ht).symm
  obtain ⟨hmem, -⟩ := hbytes 0x500 ⟨storeToLine5 0, List.mem_cons_self, rfl, by decide, by decide⟩
  rw [hs, storesToLineNamedTwice_sees] at hmem
  exact absurd (storesToLineNamedTwice_dropped.symm.trans hmem) (by decide)

end Sys2Proof

/-! `cfgs`, `cfgp`, `drain` and `cfgq` (R323 to R325, R327): what they set of a region, and what the drain of a stray one keeps. -/

namespace Sys2Proof

open Machine

/-! ### One region changes (R323, R324) -/

/-- A change of a core after what only orders. -/
theorem Ordered.modCore {s u : State} (h : Ordered s u) (c : CoreId) (f : Core → Core) : OnlyCoreAndOrder c s (u.modCore c f) := by
  refine ⟨?_, h.sees⟩
  have hc : u.core c = s.core c := by rw [State.core, State.core, h.cores]
  rw [State.core_modCore_self, hc, State.modCore, hc]
  exact (congrArg (State.setCore · c (f (s.core c))) h.only).trans rfl

theorem ordered_orderAll (s : State) (us vs : List Agent) : Ordered s (s.orderAll us vs) := by
  refine List.foldlRecOn vs _ (.refl s) fun t ht v _ => ?_
  exact List.foldlRecOn us _ ht fun w hw u _ => hw.trans (ordered_learn w v _)

/-- From `u` to `t` core `c` goes on with `y` in the place of its region `r`. -/
structure RegionSet (c : CoreId) (r : Fin 8) (u t : State) (y : Region) : Prop where
  only : OnlyCoreAndOrder c u t
  pump : t.pump c = { u.pump c with pc := (u.pump c).pc + 8 }
  region : (t.core c).fab.regions[r] = y
  others : ∀ j : Fin 8, j ≠ r → (t.core c).fab.regions[j] = (u.core c).fab.regions[j]
  core : t.core c = { u.core c with pump := t.pump c, fab := { (u.core c).fab with regions := (t.core c).fab.regions } }

theorem regionSet_modRegion {s u : State} (h : Ordered s u) (c : CoreId) (r : Fin 8) (f : Region → Region) :
    RegionSet c r s ((u.modCore c fun k => k.modRegion r f).goOn c) (f (s.core c).fab.regions[r]) := by
  have heq : ((u.modCore c fun k => k.modRegion r f).goOn c) =
      u.modCore c fun k => { k.modRegion r f with pump := k.pump.advance } := by
    simp only [State.goOn, State.modPump, State.modCore, State.core_setCore_self, setCore_setCore]
    rfl
  have hc : u.core c = s.core c := by rw [State.core, State.core, h.cores]
  have hcore : ((u.modCore c fun k => k.modRegion r f).goOn c).core c = { (s.core c).modRegion r f with pump := (s.pump c).advance } := by
    rw [heq, State.core_modCore_self, hc]
    rfl
  refine ⟨heq ▸ h.modCore c _, ?_, ?_, fun j hj => ?_, ?_⟩
  · rw [State.pump, hcore]
    rfl
  · rw [hcore]
    exact getElem_setAt_self _ _ _
  · rw [hcore]
    exact getElem_setAt_ne _ _ _ _ hj
  · rw [State.pump, hcore]
    rfl

/-- A pump that only goes on leaves every region. -/
theorem regionSet_goOn {s u : State} (h : Ordered s u) (c : CoreId) (r : Fin 8) :
    RegionSet c r s (u.goOn c) (s.core c).fab.regions[r] := by
  have hc : u.core c = s.core c := by rw [State.core, State.core, h.cores]
  have hcore : (u.goOn c).core c = { s.core c with pump := (s.pump c).advance } := by
    rw [State.goOn, State.core_modPump_self, h.pump, hc]
  refine ⟨h.modCore c fun k => { k with pump := k.pump.advance }, ?_, ?_, fun j _ => ?_, ?_⟩
  · rw [State.pump, hcore]
    rfl
  · rw [hcore]
  · rw [hcore]
  · rw [State.pump, hcore]

/-! ### The attempts -/

theorem loading_of_no_load {p : Pump} (h : p.load = none) (n : Fin 4) : p.loading n = false := by rw [Pump.loading, h]

theorem heldPlane_of_no_held {p : Pump} (h : p.held = []) (n : Fin 4) : p.heldPlane n = none := by rw [Pump.heldPlane, h]; rfl

section
variable {s : State} {c : CoreId} {region : BitVec 3} {plane : BitVec 2} (hl : (s.pump c).load = none)
include hl

theorem cfgsTry_of_idle (hr : (s.core c).fab.regions[region.toFin].run = false)
    (hc : (s.core c).fab.conflict region.toFin (s.core c).fab.planes[plane.toFin] = none)
    (hw : (s.core c).fab.awakeIn region.toFin (s.core c).fab.planes[plane.toFin] = true) :
    s.cfgsTry c region plane = .ok ((s.modCore c fun k => k.modRegion region.toFin fun x =>
      { x with sel := some plane.toFin, armed := none }).goOn c) := by
  have hload : (s.core c).pump.loading plane.toFin = false := loading_of_no_load hl _
  simp only [State.cfgsTry, hr, hload, hc, hw]
  rfl

omit hl in
theorem cfgsTry_of_running (hr : (s.core c).fab.regions[region.toFin].run = true) :
    s.cfgsTry c region plane = .error (.wait (some 3)) := by
  simp only [State.cfgsTry, hr]
  rfl

end

section
variable {s : State} {c : CoreId} {region : BitVec 3}

theorem drainTry_of_idle (hs : (s.core c).fab.regions[region.toFin].stray = false)
    (hr : (s.core c).fab.regions[region.toFin].run = false) (ha : (s.core c).fab.regions[region.toFin].armed = none) :
    s.drainTry c region = .ok ((s.orderAll (s.core c).fab.regions[region.toFin].agents [.pump c]).goOn c) := by
  simp only [State.drainTry, hs, hr, ha]
  rfl

theorem drainTry_of_running (hs : (s.core c).fab.regions[region.toFin].stray = false)
    (hr : (s.core c).fab.regions[region.toFin].run = true) : s.drainTry c region = .error (.wait (some 3)) := by
  simp only [State.drainTry, hs, hr]
  rfl

theorem drainTry_of_stray (hs : (s.core c).fab.regions[region.toFin].stray = true) : s.drainTry c region =
    .ok (((s.drainStray c region.toFin).orderAll (s.core c).fab.regions[region.toFin].agents [.pump c]).goOn c) := by
  simp only [State.drainTry, hs]
  rfl

end

/-! ### What the drain of a stray region keeps (R325, R393) -/

/-- The view `P` of each core stands from `s` to `t`. -/
structure SameCores {α : Type} (P : Core → α) (s t : State) : Prop where
  view : ∀ d, P (t.core d) = P (s.core d)

section
variable {α : Type} {P : Core → α}

theorem SameCores.refl (s : State) : SameCores P s s := ⟨fun _ => rfl⟩

theorem SameCores.trans {s t u : State} (h : SameCores P s t) (k : SameCores P t u) : SameCores P s u :=
  ⟨fun d => (k.view d).trans (h.view d)⟩

theorem sameCores_of_cores {s t : State} (h : t.cores = s.cores) : SameCores P s t :=
  ⟨fun d => by rw [State.core, State.core, h]⟩

theorem sameCores_modCore (s : State) (c : CoreId) {f : Core → Core} (h : ∀ k, P (f k) = P k) : SameCores P s (s.modCore c f) := by
  refine ⟨fun d => ?_⟩
  by_cases hd : d = c
  · subst hd
    rw [State.core_modCore_self, h]
  · rw [State.core_modCore_ne _ _ _ _ hd]

theorem sameCores_foldl {β : Type} (f : State → β → State) (l : List β) (s : State) (h : ∀ t x, SameCores P t (f t x)) :
    SameCores P s (l.foldl f s) := List.foldlRecOn l f (.refl s) fun t ht x _ => ht.trans (h t x)

/-- A view of cores that folds of changes leave alone. -/
theorem foldl_core_eq {β : Type} (f : Core → β → Core) (l : List β) (k : Core) (h : ∀ k x, P (f k x) = P k) :
    P (l.foldl f k) = P k := List.foldlRecOn (motive := fun l => P l = P k) l f rfl fun k' hk x _ => (h k' x).trans hk

theorem sameCores_cutQuad (h : ∀ k : Core, P k.takeCut = P k) (s : State) (q : Fin 64) : SameCores P s (s.cutQuad q) := by
  have hcut : SameCores P s ((List.range 4).foldl (fun t i => t.modCore (coreOf q i) Core.takeCut) s) :=
    sameCores_foldl _ _ s fun t i => sameCores_modCore t _ h
  exact hcut.trans (sameCores_of_cores rfl)

end

/-- What the end of a stray region leaves of a core: the registers and the pc of its pump, and the planes selected. -/
def keptByDrain (k : Core) : (Reg → Word) × Word × (Fin 8 → Option (Fin 4)) :=
  (k.pump.read, k.pump.pc, fun j => k.fab.regions[j].sel)

theorem keptByDrain_modRegion (k : Core) (r : Fin 8) {f : Region → Region} (h : ∀ x, (f x).sel = x.sel) :
    keptByDrain (k.modRegion r f) = keptByDrain k := by
  refine congrArg (Prod.mk k.pump.read) (congrArg (Prod.mk k.pump.pc) (funext fun j => ?_))
  by_cases hj : j = r
  · subst hj
    exact (congrArg Region.sel (getElem_setAt_self _ _ _)).trans (h _)
  · exact congrArg Region.sel (getElem_setAt_ne _ _ _ _ hj)

theorem takeCut_regions (k : Core) : k.takeCut.fab.regions = k.fab.regions := by
  unfold Core.takeCut
  split <;> rfl

theorem keptByDrain_takeCut (k : Core) : keptByDrain k.takeCut = keptByDrain k := by
  unfold Core.takeCut
  split <;> rfl

theorem StoresPerformed.keptByDrain {s t : State} (h : StoresPerformed s t) : SameCores keptByDrain s t := by
  refine ⟨fun d => ?_⟩
  rw [h.core d]
  rfl

theorem keptByDrain_modHandle (s : State) (c : CoreId) (n : BitVec 6) (f : Handle → Handle) :
    SameCores keptByDrain s (s.modHandle c n f) := by
  unfold State.modHandle State.modPump
  exact sameCores_modCore s c fun _ => rfl

/-! #### Lines that are still written (R352, R485) -/

theorem keptByDrain_streamWrite (s : State) (c : CoreId) (a : Fin 8) (pa : Nat) (bs : List Byte) (raw : Bool) :
    SameCores keptByDrain s (s.streamWrite c a pa bs raw).1 := by
  unfold State.streamWrite
  split
  · exact sameCores_of_cores rfl
  · exact sameCores_of_cores (onlyMemory_perform ..).cores

theorem keptByDrain_streamEvents (c : CoreId) (a : Fin 8) (raw : Bool) (ws : List (Nat × List Byte)) (s : State) :
    SameCores keptByDrain s (s.streamEvents c a raw ws).1 := by
  induction ws generalizing s with
  | nil => exact .refl s
  | cons w r ih => exact (keptByDrain_streamWrite ..).trans (ih _)

theorem keptByDrain_streamWrites (c : CoreId) (a : Fin 8) (raw : Bool) (ws : List (Nat × List Byte)) (s : State) :
    SameCores keptByDrain s (s.streamWrites c a raw ws).1 := by
  induction ws generalizing s with
  | nil => exact .refl s
  | cons w r ih => exact (keptByDrain_streamEvents ..).trans (ih _)

theorem keptByDrain_agSticky (s : State) (c : CoreId) (f : Flags) (run : AgRun) :
    SameCores keptByDrain s (s.agSticky c f run) := by
  cases run with
  | frame r p => exact sameCores_modCore s c (f := fun k => k.sticky r f) fun k => keptByDrain_modRegion k r fun _ => rfl
  | stream h t => exact keptByDrain_modHandle s c h _

theorem keptByDrain_addCommitted (s : State) (c : CoreId) (n : Nat) (run : AgRun) :
    SameCores keptByDrain s (s.addCommitted c n run) := by
  cases run with
  | frame r p => exact .refl s
  | stream h t => exact keptByDrain_modHandle s c h _

theorem keptByDrain_passWrite (s : State) (j : SluiceJob) (run : AgRun) (int : Bool) (x : SluiceCtx) :
    SameCores keptByDrain s (s.passWrite j run int x).1 := by
  unfold State.passWrite
  dsimp only
  split
  · exact .refl s
  · split
    · exact .refl s
    · dsimp only
      refine .trans ?_ (sameCores_modCore _ _ fun _ => rfl)
      exact ((keptByDrain_streamWrites ..).trans (keptByDrain_agSticky ..)).trans (keptByDrain_addCommitted ..)

theorem keptByDrain_flushJobs (s : State) (c : CoreId) (a : Fin 8) (run : AgRun) :
    SameCores keptByDrain s (s.flushJobs c a run) := by
  refine SameCores.trans (sameCores_foldl _ s.jobs s fun t j => ?_) (sameCores_of_cores rfl)
  split
  · split
    · exact keptByDrain_passWrite ..
    · exact .refl t
  · exact .refl t

/-! #### What the region holds, and its end -/

theorem cores_discardWeir (s : State) (c : CoreId) (r : Fin 8) (p : Plane) : (s.discardWeir c r p).cores = s.cores := by
  unfold State.discardWeir
  dsimp only
  split <;> split <;> rfl

theorem keptByDrain_discard (k : Core) (r : Fin 8) (p : Plane) : keptByDrain (k.discard r p) = keptByDrain k := by
  unfold Core.discard
  dsimp only
  refine (foldl_core_eq _ _ _ ?ags).trans ((foldl_core_eq _ _ _ ?mems).trans ((foldl_core_eq _ _ _ ?sites).trans
    (foldl_core_eq _ _ _ fun k i => foldl_core_eq _ _ _ ?links)))
  case ags =>
    intro k a
    split <;> rfl
  case mems => exact fun _ _ => rfl
  case sites => exact fun _ _ => rfl
  case links =>
    intro k d
    split <;> rfl

theorem keptByDrain_freeAgs (k : Core) (r : Fin 8) : keptByDrain (k.freeAgs r) = keptByDrain k := by
  refine foldl_core_eq _ _ _ fun k a => ?_
  split <;> rfl

/-- A region that becomes idle at `now`. -/
def idleAt (now : Nat) (x : Region) : Region :=
  { x with run := false, stray := false, armed := none, movedAt := now, pausedAt := none, pauses := [], page := none }

/-- Core `k` when its region `r` becomes idle, its binds gone (R320, R325). -/
def idled (s : State) (r : Fin 8) (k : Core) : Core :=
  let l := { (k.freeAgs r).modRegion r (idleAt s.now) with activeAt := s.now }
  if l.fab.anyRunning then l else l.boundary

theorem idleRegion_eq (s : State) (c : CoreId) (r : Fin 8) :
    s.idleRegion c r = ((s.dropBinds c r).modCore c (idled s r)).cutQuad (weirOf c) := rfl

theorem idled_cases (s : State) (r : Fin 8) (k : Core) :
    idled s r k = { (k.freeAgs r).modRegion r (idleAt s.now) with activeAt := s.now } ∨
      idled s r k = Core.boundary { (k.freeAgs r).modRegion r (idleAt s.now) with activeAt := s.now } := by
  unfold idled
  dsimp only
  split
  · exact .inl rfl
  · exact .inr rfl

theorem keptByDrain_activeAt (k : Core) (now : Nat) : keptByDrain { k with activeAt := now } = keptByDrain k := rfl

theorem keptByDrain_boundary (k : Core) : keptByDrain k.boundary = keptByDrain k := rfl

theorem keptByDrain_idled (s : State) (r : Fin 8) (k : Core) : keptByDrain (idled s r k) = keptByDrain k := by
  have hregion := (keptByDrain_modRegion (k.freeAgs r) r (f := idleAt s.now) fun _ => rfl).trans (keptByDrain_freeAgs k r)
  obtain h | h := idled_cases s r k
  · rw [h, keptByDrain_activeAt, hregion]
  · rw [h, keptByDrain_boundary, keptByDrain_activeAt, hregion]

theorem region_idled (s : State) (r : Fin 8) (k : Core) :
    (idled s r k).fab.regions[r] = idleAt s.now (k.freeAgs r).fab.regions[r] := by
  obtain h | h := idled_cases s r k
  · rw [h]
    exact getElem_setAt_self _ _ _
  · rw [h]
    exact getElem_setAt_self _ _ _

/-- The state of a region that has become idle. -/
structure RegionIdle (c : CoreId) (r : Fin 8) (t : State) : Prop where
  run : (t.core c).fab.regions[r].run = false
  stray : (t.core c).fab.regions[r].stray = false
  armed : (t.core c).fab.regions[r].armed = none

theorem idleRegion_spec (s : State) (c : CoreId) (r : Fin 8) :
    SameCores keptByDrain s (s.idleRegion c r) ∧ RegionIdle c r (s.idleRegion c r) := by
  have hdrop : SameCores keptByDrain s (s.dropBinds c r) := by
    refine SameCores.trans (sameCores_modCore s c (f := fun k => { k with fab := { k.fab with
      binds := k.fab.binds.filter fun b => b.owner ≠ .frame r } }) fun _ => rfl) ?_
    exact (storesPerformed_performWhere _ _).keptByDrain.trans (sameCores_of_cores rfl)
  have hcut := sameCores_cutQuad (P := fun k => k.fab.regions) takeCut_regions ((s.dropBinds c r).modCore c (idled s r)) (weirOf c)
  refine ⟨?_, ?_⟩
  · refine (hdrop.trans (sameCores_modCore _ c fun k => ?_)).trans (sameCores_cutQuad keptByDrain_takeCut _ _)
    exact keptByDrain_idled s r k
  · have hcut := hcut.view c
    rw [State.core_modCore_self] at hcut
    have hr : ((s.idleRegion c r).core c).fab.regions[r] = _ :=
      (congrArg (fun v : Vector Region 8 => v[r]) hcut).trans (region_idled s r _)
    constructor <;> rw [hr] <;> rfl

/-- What the region holds is written or discarded. -/
def discarded (s : State) (c : CoreId) (r : Fin 8) (p : Plane) : State :=
  let t := (p.agsOf r).foldl (fun t a => if (t.core c).fab.ags[a.1].use = .frame r then t.flushJobs c a.1 (.frame r p) else t) s
  (t.discardWeir c r p).modCore c fun k => k.discard r p

theorem drainStray_eq (s : State) (c : CoreId) (r : Fin 8) :
    s.drainStray c r = s.idleRegion c r ∨ ∃ p, s.drainStray c r = (discarded s c r p).idleRegion c r := by
  unfold State.drainStray
  split
  · exact .inl rfl
  · next p _ => exact .inr ⟨p, rfl⟩

theorem keptByDrain_discarded (s : State) (c : CoreId) (r : Fin 8) (p : Plane) :
    SameCores keptByDrain s (discarded s c r p) := by
  have hflush (t : State) (a : Fin 8 × AgCfg) : SameCores keptByDrain t
      (if (t.core c).fab.ags[a.1].use = .frame r then t.flushJobs c a.1 (.frame r p) else t) := by
    split
    · exact keptByDrain_flushJobs ..
    · exact .refl t
  exact ((sameCores_foldl _ (p.agsOf r) s hflush).trans (sameCores_of_cores (cores_discardWeir ..))).trans
    (sameCores_modCore _ c (f := fun k => k.discard r p) fun k => keptByDrain_discard k r p)

/-- The drain of a stray region ends it, and keeps registers, pc and planes. -/
theorem drainStray_spec (s : State) (c : CoreId) (r : Fin 8) :
    SameCores keptByDrain s (s.drainStray c r) ∧ RegionIdle c r (s.drainStray c r) := by
  obtain h | ⟨p, h⟩ := drainStray_eq s c r
  · rw [h]
    exact idleRegion_spec s c r
  · rw [h]
    obtain ⟨hkept, hidle⟩ := idleRegion_spec (discarded s c r p) c r
    exact ⟨(keptByDrain_discarded s c r p).trans hkept, hidle⟩

/-- `drain` of a stray region (R325). -/
theorem exec_drain_of_stray {s : State} {region : BitVec 3} (hs : (s.core s.cur).fab.regions[region.toFin].stray = true) :
    ∃ t, exec (.drain region) s = .next t ∧ t.core s.cur = { (s.drainStray s.cur region.toFin).core s.cur with
      pump := ((s.drainStray s.cur region.toFin).pump s.cur).advance } := by
  have hord := ordered_orderAll (s.drainStray s.cur region.toFin) (s.core s.cur).fab.regions[region.toFin].agents [.pump s.cur]
  refine ⟨((s.drainStray s.cur region.toFin).orderAll (s.core s.cur).fab.regions[region.toFin].agents [.pump s.cur]).goOn s.cur, ?_, ?_⟩
  · show s.outcome s.cur (.drain region) (s.drainTry s.cur region) = _
    rw [drainTry_of_stray hs]
    rfl
  · rw [State.goOn, State.core_modPump_self, hord.pump, State.core, hord.cores]
    rfl

theorem exec_cfgs_of_no_held {s : State} (hh : (s.pump s.cur).held = []) (region : BitVec 3) (plane : BitVec 2) :
    exec (.cfgs region plane) s = s.outcome s.cur (.cfgs region plane) (s.cfgsTry s.cur region plane) := by
  simp only [exec, execCfgs, heldPlane_of_no_held hh]

theorem exec_cfgsSelect_of_no_held {s : State} {c : CoreId} {region : BitVec 3} {plane : BitVec 2}
    (hb : (s.pump c).block = some (.cfgs region plane)) (hh : (s.pump c).held = []) :
    exec (.cfgsSelect c) s = .next (s.retry c (.cfgs region plane) fun t => t.cfgsTry c region plane) := by
  simp only [exec, execCfgsSelect, hb, heldPlane_of_no_held hh]

theorem exec_drainReturn_of_block {s : State} {c : CoreId} {region : BitVec 3} (hb : (s.pump c).block = some (.drain region)) :
    exec (.drainReturn c) s = .next (s.retry c (.drain region) fun t => t.drainTry c region) := by
  simp only [exec, execDrainReturn, hb]

section
variable {s : State} {region : BitVec 3} (hl : (s.pump s.cur).load = none) (hh : (s.pump s.cur).held = []) (pt pf : BitVec 2)
include hl hh

/-- `cfgp` arms a region that runs (R324). -/
theorem exec_cfgp_of_running (hr : (s.core s.cur).fab.regions[region.toFin].run = true) :
    exec (.cfgp region pt pf) s = .next ((s.modCore s.cur fun k => k.modRegion region.toFin fun x =>
      { x with armed := some (pt.toFin, pf.toFin) }).goOn s.cur) := by
  simp only [exec, execCfgp, heldPlane_of_no_held hh, loading_of_no_load hl, hr]
  rfl

theorem exec_cfgp_of_idle (hr : (s.core s.cur).fab.regions[region.toFin].run = false) :
    exec (.cfgp region pt pf) s = s.outcome s.cur (.cfgp region pt pf) (.error (fault 0x10 (region.setWidth 64))) := by
  simp only [exec, execCfgp, heldPlane_of_no_held hh, loading_of_no_load hl, hr]
  rfl

end

/-! ### The status word (R327) -/

/-- The fields of the status word of a region whose plane is not being loaded. -/
theorem regionWord_toNat {s : State} {c : CoreId} (hl : (s.pump c).load = none) {r : Fin 8} {x : Region}
    (hx : (s.core c).fab.regions[r] = x) :
    (s.regionWord c r).toNat = x.sel.elim 0 (·.val) + 4 * (if x.run then 1 else 0) + 16 * (if x.pred then 1 else 0) +
      32 * (if x.stray then 1 else 0) + 64 * (if x.armed.isSome then 1 else 0) + 128 * (if x.sel.isSome then 1 else 0) +
      2 ^ 40 * x.flags.toNat := by
  have hload (n : Fin 4) : (s.core c).pump.loading n = false := loading_of_no_load hl n
  simp only [State.regionWord, hx, hload, toNat_append_eq, toNat_ofBool_eq]
  cases x.sel with
  | none =>
    simp only [Option.elim_none, Option.isSome_none, Bool.false_eq_true, if_false, BitVec.toNat_ofNat, BitVec.ofNat_eq_ofNat]
    omega
  | some n =>
    have hn := n.isLt
    simp only [Option.elim_some, Option.isSome_some, Bool.false_eq_true, if_true, if_false, BitVec.toNat_ofNat]
    omega

/-- Settles O41: each instruction by its attempt, and the drain of a stray region by what its end keeps. -/
theorem regionsAreSelectedArmedAndDrained : Obligations.RegionsAreSelectedArmedAndDrained := by
  unfold Obligations.RegionsAreSelectedArmedAndDrained
  intro s d region plane pf c p f r x bit only hl hh
  have honly {u t : State} {y : Region} (h : RegionSet c r u t y) (hf : (u.core c).fab = f)
      (hk : u.core c = { s.core c with pump := u.pump c }) : only u t y (u.pump c) := by
    refine ⟨h.only, h.pump, h.region, fun j hj => (h.others j hj).trans (by rw [hf]), ?_⟩
    have hcore := h.core
    rw [hf, hk] at hcore
    exact hcore
  have hl' : ((unblocked s c).pump c).load = none := by rw [pump_unblocked, Pump.unblock_load]; exact hl
  have hfab : ((unblocked s c).core c).fab = f := by rw [core_unblocked]
  have hcore : (unblocked s c).core c = { s.core c with pump := (unblocked s c).pump c } := by
    rw [pump_unblocked]
    exact core_unblocked s c
  refine ⟨fun hr hc hw => ⟨?cfgs, fun hb => ?cfgsSelect⟩, fun hr => ?cfgs_waits, fun hr => ?cfgp, fun hr hct => ?cfgp_faults,
    fun hr hs ha => ⟨?drain, fun hb => ?drainReturn⟩, fun hr hs => ?drain_waits, fun hr hs => ?drain_stray, ?cfgq⟩
  case cfgs =>
    refine ⟨_, ?_, honly (regionSet_modRegion (.refl s) c r fun x => { x with sel := some plane.toFin, armed := none }) rfl rfl⟩
    rw [exec_cfgs_of_no_held hh, cfgsTry_of_idle hl hr hc hw]
    rfl
  case cfgsSelect =>
    have hset := honly (regionSet_modRegion (.refl (unblocked s c)) c r fun x => { x with sel := some plane.toFin, armed := none })
      hfab hcore
    rw [pump_unblocked, hfab] at hset
    refine ⟨_, ?_, hset⟩
    rw [exec_cfgsSelect_of_no_held hb hh, retry_of_ok (cfgsTry_of_idle hl' (by rwa [hfab]) (by rwa [hfab]) (by rwa [hfab]))]
  case cfgs_waits => exact waits_of _ _ _ _ (exec_cfgs_of_no_held hh region plane) (cfgsTry_of_running hr)
  case cfgp =>
    exact ⟨_, exec_cfgp_of_running hl hh plane pf hr,
      honly (regionSet_modRegion (.refl s) c r fun x => { x with armed := some (plane.toFin, pf.toFin) }) rfl rfl⟩
  case cfgp_faults => exact faults_of _ _ _ _ _ (exec_cfgp_of_idle hl hh plane pf hr) rfl hct
  case drain =>
    refine ⟨_, ?_, honly (regionSet_goOn (ordered_orderAll s x.agents [.pump c]) c r) rfl rfl⟩
    show s.outcome c (.drain region) (s.drainTry c region) = _
    rw [drainTry_of_idle hs hr ha]
    rfl
  case drainReturn =>
    have hset := honly (regionSet_goOn (ordered_orderAll (unblocked s c) x.agents [.pump c]) c r) hfab hcore
    rw [pump_unblocked, hfab] at hset
    refine ⟨_, ?_, hset⟩
    have htry := drainTry_of_idle (s := unblocked s c) (c := c) (region := region) (by rwa [hfab]) (by rwa [hfab]) (by rwa [hfab])
    rw [hfab] at htry
    rw [exec_drainReturn_of_block hb, retry_of_ok htry]
  case drain_waits => exact waits_of _ _ _ _ rfl (drainTry_of_running hs hr)
  case drain_stray =>
    obtain ⟨hkept, hrun, hstray, harmed⟩ := drainStray_spec s c r
    obtain ⟨t, ht, hk⟩ := exec_drain_of_stray hs
    have hview := hkept.view c
    simp only [keptByDrain, Prod.mk.injEq] at hview
    obtain ⟨hread, hpc, hsel⟩ := hview
    refine ⟨t, ht, ?_⟩
    rw [State.pump, show t.core c = _ from hk]
    exact ⟨congrArg (· + 8) hpc, fun q => congrFun hread q, hrun, hstray, congrFun hsel r, harmed⟩
  case cfgq =>
    refine computes_of _ _ _ _ _ rfl ?_
    exact regionWord_toNat hl rfl

end Sys2Proof

/-! `kick` (R326): the region that it starts, and what stands beside it. -/

namespace Sys2Proof

open Machine

/-! ### The elements of a region at its start (R326) -/

/-- What the start of the elements of a region leaves of a core. -/
def keptByStart (k : Core) :
    Pump × List Word × List TlbEntry × Launch × Vector Plane 4 × Vector Region 8 × List Bind :=
  (k.pump, k.deque, k.tlb, k.launch, k.fab.planes, k.fab.regions, k.fab.binds)

theorem keptByStart_startElements (k : Core) (r : Fin 8) (p : Plane) (now : Nat) :
    keptByStart (k.startElements r p now) = keptByStart k := by
  unfold Core.startElements
  dsimp only
  refine (foldl_core_eq _ _ _ ?ags).trans ((foldl_core_eq _ _ _ ?mems).trans ((foldl_core_eq _ _ _ ?sites).trans
    (foldl_core_eq _ _ _ fun k i => foldl_core_eq _ _ _ ?links)))
  case ags => exact fun _ _ => rfl
  case mems =>
    intro k m
    split <;> rfl
  case sites => exact fun _ _ => rfl
  case links =>
    intro k d
    split <;> rfl

/-- A row of changes that takes the AG sites of a list takes each of them. -/
theorem use_foldl_modAg {r : Fin 8} {f : Fin 8 × AgCfg → AgSite} (hf : ∀ q, (f q).use = .frame r) {a : Fin 8}
    (l : List (Fin 8 × AgCfg)) (k : Core) (h : k.fab.ags[a].use = .frame r ∨ ∃ q ∈ l, q.1 = a) :
    (l.foldl (fun k q => k.modAg q.1 fun _ => f q) k).fab.ags[a].use = .frame r := by
  induction l generalizing k with
  | nil =>
    obtain h | ⟨q, hq, -⟩ := h
    · exact h
    · cases hq
  | cons q l ih =>
    refine ih _ ?_
    by_cases hq : q.1 = a
    · refine .inl ?_
      subst hq
      exact (congrArg AgSite.use (getElem_setAt_self _ _ _)).trans (hf q)
    · obtain h | ⟨q', hmem, hq'⟩ := h
      · exact .inl ((congrArg AgSite.use (getElem_setAt_ne _ _ _ _ fun e => hq e.symm)).trans h)
      · rcases List.mem_cons.mp hmem with rfl | hmem
        · exact absurd hq' hq
        · exact .inr ⟨q', hmem, hq'⟩

theorem use_startElements (k : Core) {r a : Fin 8} {p : Plane} (now : Nat) (h : (p.agsOf r).any (fun q => q.1 = a) = true) :
    (k.startElements r p now).fab.ags[a].use = .frame r := by
  obtain ⟨q, hq, ha⟩ := List.any_eq_true.mp h
  unfold Core.startElements
  exact use_foldl_modAg (f := fun q => { AgSite.reset with
    use := .frame r, credit := 2 * q.2.rnd, stall := { Stall.reset with since := now } }) (fun _ => rfl) _ _
    (.inr ⟨q, hq, of_decide_eq_true ha⟩)

/-! ### The region (R324, R326) -/

/-- Region `x` of core `k` when it starts on plane `n` by a `kick`. -/
def startedRegion (c : CoreId) (r : Fin 8) (n : Fin 4) (now : Nat) (p : Plane) (seed : Word) (x : Region) : Region :=
  { x with
    sel := some n
    run := true
    stray := false
    armed := none
    pred := false
    flags := 0
    seed := seed
    movedAt := now
    pausedAt := none
    pauses := []
    aborts := 0
    abortAt := 0
    page := none
    due := none
    fault := none
    switches := Vector.replicate 64 { Stall.reset with since := now }
    agents := (x.agents ++ p.sinks c r).dedup }

/-- Its plane had been selected before. -/
theorem shownRegion_startedRegion {c : CoreId} {r : Fin 8} {n : Fin 4} {now : Nat} {p : Plane} {seed : Word} {x : Region}
    (h : x.sel = some n) : shownRegion (startedRegion c r n now p seed x) = shownRegion { x with
      run := true, stray := false, armed := none, pred := false, flags := 0, seed := seed, movedAt := now, aborts := 0, abortAt := 0
      page := none, due := none, fault := none, agents := (x.agents ++ p.sinks c r).dedup } := by
  unfold startedRegion
  rw [← h]
  rfl

/-- Core `k` when its region `r` starts on plane `n` with the binds `bs`. -/
def startedCore (c : CoreId) (r : Fin 8) (n : Fin 4) (bs : List Bind) (now : Nat) (k : Core) : Core :=
  let l := k.startElements r k.fab.planes[n] now
  let l := l.modRegion r (startedRegion c r n now k.fab.planes[n] l.pump.seed)
  { l with fab := { l.fab with binds := l.fab.binds ++ bs }, activeAt := now }

/-- What follows the start of a region: the counters of its Weir, and a cut of the quad (R395, R453). -/
def afterStart (t : State) (c : CoreId) (r : Fin 8) (now : Nat) : State :=
  let u := if (t.core c).weirSink = some r then t.modWeir (weirOf c) fun w => { w with stall := { Stall.reset with since := now } }
    else t
  (u.cutQuad (weirOf c)).seen c

theorem quadShown_seen (s : State) (c : CoreId) : QuadShown (weirOf c) s (s.seen c) :=
  quadShown_modCore _ s c (shownSame_seeStalls _ _ _)

theorem quadShown_afterStart (t : State) (c : CoreId) (r : Fin 8) (now : Nat) : QuadShown (weirOf c) t (afterStart t c r now) := by
  have hcut (u : State) := (quadShown_cutQuad (weirOf c) u).trans (quadShown_seen _ c)
  unfold afterStart
  dsimp only
  split
  · exact (quadShown_modWeir _ _ rfl).trans (hcut _)
  · exact hcut _

/-- What the elements of the plane that region `r` leaves did happens before what those of plane `n` do (R266). -/
def orderedStart (s : State) (c : CoreId) (r : Fin 8) (n : Fin 4) : State :=
  s.orderAll ((((s.core c).fab.planeOf r).map (·.agents c r)).getD []) ((s.core c).fab.planes[n].agents c r)

theorem startRegion_eq (s : State) (c : CoreId) (r : Fin 8) (n : Fin 4) (bs : List Bind) :
    s.startRegion c r n bs true = afterStart ((orderedStart s c r n).modCore c (startedCore c r n bs s.now)) c r s.now := rfl

/-- The start of a region changes its core, and beside that what is not shown. -/
theorem quadShown_startRegion (s : State) (c : CoreId) (r : Fin 8) (n : Fin 4) (bs : List Bind) :
    ∃ v, Ordered s v ∧ QuadShown (weirOf c) (v.modCore c (startedCore c r n bs s.now)) (s.startRegion c r n bs true) := by
  refine ⟨orderedStart s c r n, ordered_orderAll s _ _, ?_⟩
  rw [startRegion_eq]
  exact quadShown_afterStart _ c r s.now

/-- What the start of region `r` with the binds `bs` leaves of core `k` in `l`, and what it sets. -/
structure StartedFrom (k l : Core) (c : CoreId) (r : Fin 8) (n : Fin 4) (bs : List Bind) (now : Nat) : Prop where
  pump : l.pump = k.pump
  deque : l.deque = k.deque
  tlb : l.tlb = k.tlb
  launch : l.launch = k.launch
  planes : l.fab.planes = k.fab.planes
  binds : l.fab.binds = k.fab.binds ++ bs
  region : l.fab.regions[r] = startedRegion c r n now k.fab.planes[n] k.pump.seed k.fab.regions[r]
  others : ∀ j : Fin 8, j ≠ r → l.fab.regions[j] = k.fab.regions[j]
  ags : ∀ a : Fin 8, (k.fab.planes[n].agsOf r).any (fun q => q.1 = a) = true → l.fab.ags[a].use = .frame r

theorem startedFrom_startedCore (c : CoreId) (r : Fin 8) (n : Fin 4) (bs : List Bind) (now : Nat) (k : Core) :
    StartedFrom k (startedCore c r n bs now k) c r n bs now := by
  have hkept := keptByStart_startElements k r k.fab.planes[n] now
  simp only [keptByStart, Prod.mk.injEq] at hkept
  obtain ⟨hpump, hdeque, htlb, hlaunch, hplanes, hregions, hbinds⟩ := hkept
  refine ⟨hpump, hdeque, htlb, hlaunch, hplanes, congrArg (· ++ bs) hbinds, ?_, fun j hj => ?_, fun a ha => use_startElements k now ha⟩
  · refine (getElem_setAt_self _ _ _).trans ?_
    rw [hpump, hregions]
  · refine (getElem_setAt_ne _ _ _ _ hj).trans ?_
    rw [hregions]

theorem ShownSame.deque {k l : Core} (h : ShownSame k l) : l.deque = k.deque := by rw [h.1]
theorem ShownSame.tlb {k l : Core} (h : ShownSame k l) : l.tlb = k.tlb := by rw [h.1]
theorem ShownSame.launch {k l : Core} (h : ShownSame k l) : l.launch = k.launch := by rw [h.1]

theorem ShownSame.withPump {k l : Core} (h : ShownSame k l) (p : Pump) : ShownSame { k with pump := p } { l with pump := p } := by
  refine ⟨?_, h.2⟩
  rw [h.1]

theorem ShownSame.binds {k l : Core} (h : ShownSame k l) : l.fab.binds = k.fab.binds := by
  simpa only [shownFab] using congrArg Fabric.binds h.2

theorem ShownSame.use {k l : Core} (h : ShownSame k l) (a : Fin 8) : l.fab.ags[a].use = k.fab.ags[a].use := by
  have ha := congrArg (fun f : Fabric => f.ags[a].use) h.2
  simpa only [shownFab, getElem_mapVec, shownAg] using ha

/-! ### The instruction -/

section
variable {s : State} {c : CoreId} {region : BitVec 3} {n : Fin 4}

/-- Without a held fault a `kick` is its attempt (R322). -/
theorem exec_kick_of_no_held (hh : (s.pump s.cur).held = []) (region : BitVec 3) :
    exec (.kick region) s = s.outcome s.cur (.kick region) (s.kickTry s.cur region) := by
  have hnone : (((s.core s.cur).fab.regions[region.toFin].sel).bind fun n =>
      if (s.pump s.cur).loading n then none else (s.pump s.cur).heldPlane n) = none := by
    cases (s.core s.cur).fab.regions[region.toFin].sel with
    | none => rfl
    | some n => simp only [Option.bind_some, heldPlane_of_no_held hh, ite_self]
  simp only [exec, execKick, hnone]

theorem kickTry_of_no_plane (hs : (s.core c).fab.regions[region.toFin].sel = none) :
    s.kickTry c region = .error (fault 0x10 (region.setWidth 64)) := by
  simp only [State.kickTry, hs]
  rfl

theorem kickTry_of_loading (hs : (s.core c).fab.regions[region.toFin].sel = some n) (hl : (s.pump c).loading n = true) :
    s.kickTry c region = .error (.wait (some 7)) := by
  have hl' : (s.core c).pump.loading n = true := hl
  simp only [State.kickTry, hs, hl']
  rfl

theorem kickTry_of_running (hs : (s.core c).fab.regions[region.toFin].sel = some n) (hl : (s.pump c).loading n = false)
    (hr : (s.core c).fab.regions[region.toFin].run = true) : s.kickTry c region = .error (fault 0x10 (region.setWidth 64)) := by
  have hl' : (s.core c).pump.loading n = false := hl
  simp only [State.kickTry, hs, hl', hr]
  rfl

/-- An idle region with its plane usable, its AG sites free and its binds granted, but for conflicts. -/
structure KickReady (s : State) (c : CoreId) (region : BitVec 3) (n : Fin 4) (bs : List Bind) : Prop where
  loading : (s.pump c).loading n = false
  sel : (s.core c).fab.regions[region.toFin].sel = some n
  run : (s.core c).fab.regions[region.toFin].run = false
  bad : (s.core c).fab.planes[n].bad = false
  ags : s.agsUnready c ((s.core c).fab.planes[n].agsOf region.toFin) = false
  binds : s.regionBinds c region.toFin ((s.core c).fab.planes[n].agsOf region.toFin) = .ok bs

theorem kickTry_of_conflict {bs : List Bind} {w : Word} (h : KickReady s c region n bs) (hw : s.bindsConflict bs = some w) :
    s.kickTry c region = .error (fault 0x1B w) := by
  have hl : (s.core c).pump.loading n = false := h.loading
  simp only [State.kickTry, h.sel, hl, h.run, h.bad, h.ags, h.binds]
  show (match s.bindsConflict bs with
    | some w => _
    | none => _) = _
  rw [hw]
  rfl

/-- The region starts, and the pump goes on. -/
theorem kickTry_of_granted {bs : List Bind} (h : KickReady s c region n bs) (hw : s.bindsConflict bs = none)
    (hp : ∀ w ∈ s.pending, w.core ≠ c) : s.kickTry c region =
      .ok (((s.orderAll [.pump c] ((s.core c).fab.planes[n].agents c region.toFin)).startRegion c region.toFin n bs true).goOn c) := by
  have hl : (s.core c).pump.loading n = false := h.loading
  simp only [State.kickTry, h.sel, hl, h.run, h.bad, h.ags, h.binds, release_none s c hp]
  show (match s.bindsConflict bs with
    | some w => _
    | none => _) = _
  rw [hw]
  rfl

end

/-- `t` is `s` but for cores and Weirs, and for the order of writes. -/
def OnlyCoresAndWeirs (s t : State) : Prop := t = orderedAs { s with cores := t.cores, weirs := t.weirs } t

theorem OnlyCoresAndWeirs.trans {s t u : State} (h : OnlyCoresAndWeirs s t) (k : OnlyCoresAndWeirs t u) : OnlyCoresAndWeirs s u := by
  unfold OnlyCoresAndWeirs at *
  rw [h] at k
  exact k

theorem onlyCoresAndWeirs_modCore (s : State) (c : CoreId) (f : Core → Core) : OnlyCoresAndWeirs s (s.modCore c f) := rfl

theorem onlyCoresAndWeirs_goOn (s : State) (c : CoreId) : OnlyCoresAndWeirs s (s.goOn c) := rfl

theorem Ordered.onlyCoresAndWeirs {s t : State} (h : Ordered s t) : OnlyCoresAndWeirs s t := by
  unfold OnlyCoresAndWeirs
  rw [h.only]
  rfl

theorem QuadShown.onlyCoresAndWeirs {q : Fin 64} {s t : State} (h : QuadShown q s t) : OnlyCoresAndWeirs s t := by
  unfold OnlyCoresAndWeirs
  rw [h.rest]
  rfl

theorem QuadShown.stale {q : Fin 64} {s t : State} (h : QuadShown q s t) : t.stale = s.stale := by rw [h.rest]

theorem QuadShown.shownWeir {q : Fin 64} {s t : State} (h : QuadShown q s t) (j : Fin 64) :
    shownWeir t.weirs[j] = shownWeir s.weirs[j] := by
  by_cases hj : j = q
  · rw [hj, h.weir]
  · rw [h.others j hj]

/-- What a `kick` leaves: core `c` has started its region, and beside it more is seen. -/
structure Kicked (s t : State) (c : CoreId) (r : Fin 8) (n : Fin 4) (bs : List Bind) : Prop where
  rest : t = orderedAs { s with cores := t.cores, weirs := t.weirs } t
  sees : SeesMore s t
  others : OthersShown c none s t
  pump : t.pump c = { s.pump c with pc := (s.pump c).pc + 8 }
  core : ShownSame { startedCore c r n bs s.now (s.core c) with pump := t.pump c } (t.core c)

theorem kicked_goOn {s u w : State} {c : CoreId} {r : Fin 8} {n : Fin 4} {bs : List Bind} (hord : Ordered s u)
    (hq : QuadShown (weirOf c) (u.modCore c (startedCore c r n bs s.now)) w) : Kicked s (w.goOn c) c r n bs := by
  have hcu (d : CoreId) : u.core d = s.core d := by rw [State.core, State.core, hord.cores]
  have hcore := hq.core c
  rw [State.core_modCore_self, hcu] at hcore
  have hpump : w.pump c = s.pump c := hcore.pump.trans (startedFrom_startedCore c r n bs s.now _).pump
  have hc : (w.goOn c).core c = { w.core c with pump := (w.goOn c).pump c } := by
    rw [State.goOn, State.core_modPump_self, State.pump_modPump_self]
  refine ⟨?rest, fun e he => hord.sees e (hq.stale ▸ he), ⟨fun d hd => ?core, fun j _ => ?weir⟩, ?pump, ?own⟩
  case rest =>
    exact ((hord.onlyCoresAndWeirs.trans (onlyCoresAndWeirs_modCore u c _)).trans hq.onlyCoresAndWeirs).trans
      (onlyCoresAndWeirs_goOn w c)
  case core =>
    have hd' := hq.core d
    rw [State.core_modCore_ne _ _ _ _ hd, hcu] at hd'
    rw [State.goOn, State.core_modPump_ne _ _ _ _ hd]
    exact hd'
  case weir =>
    refine (hq.shownWeir j).trans ?_
    show shownWeir u.weirs[j] = _
    rw [hord.only]
    rfl
  case pump =>
    rw [State.goOn, State.pump_modPump_self, hpump]
    rfl
  case own =>
    rw [hc]
    exact hcore.withPump _

/-- Settles O42: the attempt by its branches, and the start of the region by what it keeps and sets. -/
theorem kickStartsTheSelectedPlane : Obligations.KickStartsTheSelectedPlane := by
  unfold Obligations.KickStartsTheSelectedPlane
  intro s region n bs c p f r x ready hp hh
  have hexec := exec_kick_of_no_held hh region
  refine ⟨fun hs hc => ?no_plane, fun hs hl => ?loading, fun hl => ⟨fun hs hr hc => ?running, fun w hr hw hc => ?conflict,
    fun hr hw => ?starts⟩⟩
  case no_plane => exact faults_of _ _ _ _ _ hexec (kickTry_of_no_plane hs) hc
  case loading => exact waits_of _ _ _ _ hexec (kickTry_of_loading hs hl)
  case running => exact faults_of _ _ _ _ _ hexec (kickTry_of_running hs hl hr) hc
  case conflict =>
    obtain ⟨hsel, hrun, hbad, hags, hbinds⟩ := hr
    exact faults_of _ _ _ _ _ hexec (kickTry_of_conflict ⟨hl, hsel, hrun, hbad, hags, hbinds⟩ hw) hc
  case starts =>
    obtain ⟨hsel, hrun, hbad, hags, hbinds⟩ := hr
    have hfirst := ordered_orderAll s [.pump c] (f.planes[n].agents c r)
    obtain ⟨u, hu, hq⟩ := quadShown_startRegion (s.orderAll [.pump c] (f.planes[n].agents c r)) c r n bs
    rw [hfirst.now] at hq
    obtain ⟨hrest, hsees, hothers, hpump, hcore⟩ := kicked_goOn (hfirst.trans hu) hq
    obtain ⟨-, hdeque, htlb, hlaunch, hplanes, hbs, hregion, hregions, htaken⟩ := startedFrom_startedCore c r n bs s.now (s.core c)
    refine ⟨_, ?_, hrest, hsees, hothers, hpump, ?_, fun j hj => ?_, hcore.binds.trans hbs, hcore.planes.trans hplanes,
      fun a ha => (hcore.use a).trans (htaken a ha), hcore.deque.trans hdeque, hcore.tlb.trans htlb, hcore.launch.trans hlaunch⟩
    · rw [hexec, kickTry_of_granted ⟨hl, hsel, hrun, hbad, hags, hbinds⟩ hw hp]
      rfl
    · exact (hcore.region r).trans ((congrArg shownRegion hregion).trans (shownRegion_startedRegion hsel))
    · exact (hcore.region j).trans (congrArg shownRegion (hregions j hj))

end Sys2Proof

/-! Events of the polder of a core (R265, R391, R395, R441): the access itself, and what follows every one of them. -/

namespace Sys2Proof

open Machine

/-! ### What follows an event -/

/-- What follows an event of core `c` that led to `u`: a cut after a commit, and the stall counters (R395, R453). -/
def eventEnd (u : State) (c : CoreId) (commit : Bool) : State :=
  let t := if commit then u.cutQuad (weirOf c) else u
  (t.modCore c fun k => k.seeStalls (t.weirFree c) t.now).seeWeir (weirOf c)

theorem quadShown_eventEnd (u : State) (c : CoreId) (commit : Bool) : QuadShown (weirOf c) u (eventEnd u c commit) := by
  have hseen (t : State) : QuadShown (weirOf c) t
      ((t.modCore c fun k => k.seeStalls (t.weirFree c) t.now).seeWeir (weirOf c)) :=
    (quadShown_modCore _ t c (f := fun k => k.seeStalls (t.weirFree c) t.now) (shownSame_seeStalls _ _ _)).trans
      (quadShown_seeWeir _ _)
  cases commit with
  | true => exact (quadShown_cutQuad _ u).trans (hseen _)
  | false => exact hseen u

/-- Without a commit of an element of a region, an event shows what its access has left. -/
theorem quadShown_after_of_rounds {s u : State} {c : CoreId} (h : (u.core c).fab.rounds = (s.core c).fab.rounds) :
    QuadShown (weirOf c) u (s.after c u) := by
  have heq : s.after c u = eventEnd u c (decide ((u.core c).fab.commits ≠ (s.core c).fab.commits) ||
      decide ((u.weirs[weirOf c]).commits ≠ (s.weirs[weirOf c]).commits)) := by
    simp only [State.after, if_neg (not_not.mpr h)]
    rfl
  rw [heq]
  exact quadShown_eventEnd u c _

/-- A commit lets in the peer events that waited for it (R441). -/
theorem quadShown_after_of_commit {s u : State} {c : CoreId} (h : (u.core c).fab.rounds ≠ (s.core c).fab.rounds) :
    QuadShown (weirOf c) (u.modCore c Core.boundary) (s.after c u) := by
  have heq : s.after c u = eventEnd (u.modCore c Core.boundary) c (decide ((u.core c).fab.commits ≠ (s.core c).fab.commits) ||
      decide (((u.modCore c Core.boundary).weirs[weirOf c]).commits ≠ (s.weirs[weirOf c]).commits)) := by
    simp only [State.after, if_pos h]
    rfl
  rw [heq]
  exact quadShown_eventEnd _ c _

/-! ### What an event leaves alone -/

/-- `t` is `s` but for core `c`, and for the order of writes. -/
def OnlyCoreOrdered (c : CoreId) (s t : State) : Prop := t = orderedAs (s.setCore c (t.core c)) t

theorem OnlyOrder.onlyCoreOrdered {s t : State} (h : OnlyOrder s t) (c : CoreId) : OnlyCoreOrdered c s t := by
  have hc : t.core c = s.core c := by rw [h]; rfl
  unfold OnlyCoreOrdered
  rw [hc, setCore_self]
  exact h

theorem OnlyCoreOrdered.modCore {c : CoreId} {s t : State} (h : OnlyCoreOrdered c s t) (f : Core → Core) :
    OnlyCoreOrdered c s (t.modCore c f) := by
  unfold OnlyCoreOrdered at *
  rw [State.core_modCore_self]
  calc t.modCore c f = (orderedAs (s.setCore c (t.core c)) t).setCore c (f (t.core c)) := congrArg (State.setCore · c (f (t.core c))) h
    _ = orderedAs ((s.setCore c (t.core c)).setCore c (f (t.core c))) (t.modCore c f) := rfl
    _ = _ := by rw [setCore_setCore]

/-- `t` is `s` after an event of core `c` that led to `u`. -/
structure EventFrom (c : CoreId) (s u t : State) : Prop where
  rest : t = orderedAs { s with cores := t.cores, weirs := t.weirs } t
  stale : t.stale = u.stale
  others : OthersShown c none s t
  shown : ShownSame (u.core c) (t.core c)

theorem eventFrom_of_quadShown {c : CoreId} {s u t : State} (h : OnlyCoreOrdered c s u) (hq : QuadShown (weirOf c) u t) :
    EventFrom c s u t := by
  have hu : OnlyCoresAndWeirs s u := by
    unfold OnlyCoresAndWeirs
    rw [h]
    rfl
  refine ⟨hu.trans hq.onlyCoresAndWeirs, hq.stale, ⟨fun d hd => ?_, fun j _ => ?_⟩, hq.core c⟩
  · have hd' : u.core d = s.core d := by
      rw [h]
      exact State.core_setCore_ne s c d _ hd
    rw [← hd']
    exact hq.core d
  · refine (hq.shownWeir j).trans ?_
    rw [h]
    rfl

/-! ### An access that commits nothing -/

/-- `t` is `s` after an access of the polder of core `c`: its pump and its cistern stand, and no element has committed. -/
structure FabAccess (c : CoreId) (s t : State) : Prop where
  only : OnlyCoreAndOrder c s t
  core : t.core c = { s.core c with fab := (t.core c).fab, activeAt := (t.core c).activeAt }
  rounds : (t.core c).fab.rounds = (s.core c).fab.rounds

theorem FabAccess.trans {c : CoreId} {s t u : State} (h : FabAccess c s t) (k : FabAccess c t u) : FabAccess c s u := by
  refine ⟨h.only.trans k.only, ?_, k.rounds.trans h.rounds⟩
  rw [k.core, h.core]

theorem fabAccess_of_ordered {s t : State} (c : CoreId) (h : Ordered s t) : FabAccess c s t := by
  have hc : t.core c = s.core c := by rw [State.core, State.core, h.cores]
  refine ⟨⟨h.only.onlyCoreOrdered c, h.sees⟩, ?_, by rw [hc]⟩
  rw [hc]

theorem fabAccess_modCore (s : State) (c : CoreId) {f : Core → Core}
    (h : ∀ k, f k = { k with fab := (f k).fab, activeAt := (f k).activeAt }) (hr : ∀ k, (f k).fab.rounds = k.fab.rounds) :
    FabAccess c s (s.modCore c f) := by
  refine ⟨(Ordered.refl s).modCore c f, ?_, ?_⟩
  · rw [State.core_modCore_self]
    exact h _
  · rw [State.core_modCore_self]
    exact hr _

theorem FabAccess.pump {c : CoreId} {s t : State} (h : FabAccess c s t) : t.pump c = s.pump c := by rw [State.pump, h.core]; rfl
theorem FabAccess.cistern {c : CoreId} {s t : State} (h : FabAccess c s t) : (t.core c).cistern = (s.core c).cistern := by rw [h.core]

/-- The event of such an access is an event of the polder that leaves its pump, and shows what the access has left. -/
structure QuietEvent (c : CoreId) (s u t : State) : Prop where
  event : FabricEvent c s t
  pump : t.pump c = (s.core c).pump
  cistern : (t.core c).cistern = (s.core c).cistern
  shown : ShownSame (u.core c) (t.core c)

theorem quietEvent_after {c : CoreId} {s u : State} (h : FabAccess c s u) : QuietEvent c s u (s.after c u) := by
  obtain ⟨hrest, hstale, hothers, hshown⟩ := eventFrom_of_quadShown h.only.1 (quadShown_after_of_rounds h.rounds)
  have hpump : (s.after c u).pump c = s.pump c := hshown.pump.trans h.pump
  refine ⟨⟨hrest, fun e he => h.only.2 e (hstale ▸ he), hothers, ?_⟩, hpump, ?_, hshown⟩
  · rw [hpump, hshown.1, h.core]
    rfl
  · rw [hshown.1]
    exact h.cistern

/-! ### What is shown of the sites -/

theorem ShownSame.mem {k l : Core} (h : ShownSame k l) (m : Fin 8) :
    { l.fab.mems[m] with stall := Stall.reset } = { k.fab.mems[m] with stall := Stall.reset } := by
  have hm := congrArg (fun f : Fabric => f.mems[m]) h.2
  simpa only [shownFab, getElem_mapVec] using hm

theorem ShownSame.ag {k l : Core} (h : ShownSame k l) (a : Fin 8) : shownAg l.fab.ags[a] = shownAg k.fab.ags[a] := by
  have ha := congrArg (fun f : Fabric => f.ags[a]) h.2
  simpa only [shownFab, getElem_mapVec] using ha

end Sys2Proof

/-! Memory sites and AG sites (R265, R270, R329, R330, R333, R334, R347): the access that each event makes. -/

namespace Sys2Proof

open Machine

/-! ### One site of a core -/

@[simp] theorem mems_modMem_self (k : Core) (m : Fin 8) (f : MemSite → MemSite) :
    (k.modMem m f).fab.mems[m] = f k.fab.mems[m] := getElem_setAt_self _ _ _

@[simp] theorem mems_progress (k : Core) (r : Fin 8) (now : Nat) : (k.progress r now).fab.mems = k.fab.mems := rfl

@[simp] theorem mems_sticky (k : Core) (r : Fin 8) (f : Flags) : (k.sticky r f).fab.mems = k.fab.mems := rfl

@[simp] theorem mems_bumpRound (k : Core) : k.bumpRound.fab.mems = k.fab.mems := rfl

/-- A DATA token of a round that it does not fill (R235). -/
theorem rounds_add_of_open {x : Rounds} {n : Nat} (h : x.data + 1 < n) (t : Token) :
    x.add n t = { x with outq := x.outq ++ [{ t with seq := x.data }], data := x.data + 1 } := by
  have hn : ¬ n ≤ x.data + 1 := by omega
  simp only [Rounds.add, if_neg hn]

/-! ### Memory sites (R329, R330) -/

section
variable {s : State} {c : CoreId} {m r : Fin 8} {p : Plane} {g : MemCfg}

/-- The site runs, and holds no token for its link. -/
structure MemMoves (s : State) (c : CoreId) (m r : Fin 8) (p : Plane) (g : MemCfg) : Prop where
  owner : (s.core c).memOwner m = some (r, p, g)
  moves : (s.core c).fab.regions[r].moves = true
  good : p.bad = false
  outq : (s.core c).fab.mems[g.site].outq = []

theorem memHead_of_empty (h3 : g.mode ≠ 3) (h : (s.core c).fab.mems[g.site].outq = []) : s.memHead c g = none := by
  show (if g.mode = 3 then _ else ((s.core c).fab.mems[g.site].outq.head?).map fun t => (s, t)) = none
  rw [if_neg h3, h]
  rfl

theorem memAccess_of_moves (h : MemMoves s c m r p g) (hmode : g.mode = 0 ∨ g.mode = 1) :
    s.memAccess c m = if g.mode = 0 then s.memRead c r p g else s.memSink c r g := by
  have hhead : s.memHead c g = none := memHead_of_empty (by omega) h.outq
  simp only [State.memAccess, h.owner, h.moves, h.good, hhead, ite_self, Bool.not_true, Bool.or_self, Bool.false_eq_true, if_false]
  rcases hmode with h0 | h1
  · rw [h0, if_pos rfl]
    rfl
  · rw [h1, if_neg Nat.one_ne_zero]
    rfl

/-- A slot whose words hold no error is read as the agent sees it (R262, R458). -/
theorem slotRead_of_sound {v : Agent} {o : Nat} (f : Option Fmt)
    (h : ∀ w ∈ wordsOf o 32, w ∉ (s.core c).bad ∧ w ∉ (s.core c).latent) :
    s.slotRead c v o f = (s.noteRead v (.cistern c) o 32, leFrame (s.fabRead c v o 32), false) := by
  have hlatent : (wordsOf o 32).filter (s.core c).latent.contains = [] :=
    List.filter_eq_nil_iff.mpr fun w hw => by simpa using (h w hw).2
  have hbad : (wordsOf o 32).any (s.core c).bad.contains = false :=
    List.any_eq_false.mpr fun w hw => by simpa using (h w hw).1
  unfold State.slotRead
  dsimp only
  rw [hlatent, List.foldl_nil, hbad]
  rfl

/-- The core after a `mem.rd` has emitted the token of a slot that is not its last one, with `d` of its rounds left. -/
def slotEmitted (r : Fin 8) (g : MemCfg) (d : Rounds) (now : Nat) (k : Core) : Core :=
  (k.memEmit r g.site d now).modMem g.site fun y =>
    { y with credit := y.credit, pos := y.pos + 1, passes := y.passes, finished := false }

theorem memRead_of_sound (hp : p.permitMem g.site = false) (hf : (s.core c).fab.mems[g.site].finished = false)
    (ho : (s.core c).fab.mems[g.site].outq = []) (hs : (s.core c).fab.regions[r].stopping = none)
    (hl : (s.core c).fab.mems[g.site].pos + 1 < g.len)
    (hw : ∀ w ∈ wordsOf (g.slotAt (s.core c).fab.mems[g.site].pos) 32, w ∉ (s.core c).bad ∧ w ∉ (s.core c).latent) :
    s.memRead c r p g = (s.noteRead (.site c g.site) (.cistern c) (g.slotAt (s.core c).fab.mems[g.site].pos) 32).modCore c
      (slotEmitted r g ((s.core c).fab.mems[g.site].rounds.add 1024 (dataTok
        (leFrame (s.fabRead c (.site c g.site) (g.slotAt (s.core c).fab.mems[g.site].pos) 32)) 0 false)) s.now) := by
  have hlast : ¬ g.len ≤ (s.core c).fab.mems[g.site].pos + 1 := by omega
  have hread := slotRead_of_sound (v := .site c g.site) (fmtOf g.fmt) hw
  unfold State.memRead
  -- opaque from here: what a slot holds is costly to evaluate
  generalize State.slotRead s c (.site c g.site) = read at hread ⊢
  simp only [hp, hf, ho, hs, hread, hlast, List.isEmpty_nil, Option.isSome_none, Bool.not_true,
    Bool.false_and, Bool.and_false, Bool.or_self, Bool.false_eq_true, if_false, decide_false]
  split
  · next hpermit => cases hpermit
  · rfl

theorem fabAccess_slotEmitted (s : State) (c : CoreId) (r : Fin 8) (g : MemCfg) (d : Rounds) (now : Nat) :
    FabAccess c s (s.modCore c (slotEmitted r g d now)) := fabAccess_modCore s c (fun _ => rfl) fun _ => rfl

theorem mem_slotEmitted (r : Fin 8) (g : MemCfg) (d : Rounds) (now : Nat) (k : Core) :
    ((slotEmitted r g d now k).fab.mems[g.site]).outq = d.outq ∧
      ((slotEmitted r g d now k).fab.mems[g.site]).pos = (k.fab.mems[g.site]).pos + 1 := by
  rw [slotEmitted, mems_modMem_self, Core.memEmit, mems_progress, mems_modMem_self, mems_sticky]
  exact ⟨rfl, rfl⟩

/-- The core after a `mem.wr` has taken the DATA token `t` into its round. -/
def tokenHeld (r : Fin 8) (g : MemCfg) (t : Token) (now : Nat) (k : Core) : Core :=
  (k.modMem g.site fun y => { y with inReg := none, hold := y.hold ++ [t], stall := y.stall.fire now }).progress r now

theorem memSink_of_data {t : Token} (hi : (s.core c).fab.mems[g.site].inReg = some t) (ht : t.kind = .data) :
    s.memSink c r g = s.modCore c (tokenHeld r g t s.now) := by
  simp only [State.memSink, hi, ht]
  rfl

theorem fabAccess_tokenHeld (s : State) (c : CoreId) (r : Fin 8) (g : MemCfg) (t : Token) (now : Nat) :
    FabAccess c s (s.modCore c (tokenHeld r g t now)) := fabAccess_modCore s c (fun _ => rfl) fun _ => rfl

theorem mem_tokenHeld (r : Fin 8) (g : MemCfg) (t : Token) (now : Nat) (k : Core) :
    ((tokenHeld r g t now k).fab.mems[g.site]).hold = (k.fab.mems[g.site]).hold ++ [t] ∧
      ((tokenHeld r g t now k).fab.mems[g.site]).inReg = none := by
  rw [tokenHeld, mems_progress, mems_modMem_self]
  exact ⟨rfl, rfl⟩

/-! #### The commit of a round of one token (R238, R330) -/

/-- The core after a `mem.wr` has committed its round, whose write raised the flags `f`. -/
def roundCommitted (r : Fin 8) (g : MemCfg) (f : Flags) (now : Nat) (k : Core) : Core :=
  ((k.bumpRound.sticky r f).modMem g.site fun y =>
    { y with inReg := none, pos := y.pos + y.hold.length, hold := [], pendFlags := 0, commits := y.commits + 1
             stall := y.stall.fire now }).progress r now

theorem memWrites_of_single {t : Token} (hm : g.mode = 1) (pos : Nat) : s.memWrites c g pos [t] =
    (s.slotPut c (.site c g.site) (g.slotAt pos) t.payload, 0 ||| flagIf (g.len ≤ pos) fNv) := by
  simp only [State.memWrites, hm]
  rfl

theorem memSink_of_mark {t : Token} (hm : g.mode = 1) (hi : (s.core c).fab.mems[g.site].inReg = some (plainTok .mark))
    (hh : (s.core c).fab.mems[g.site].hold = [t]) (ht : t.poison = false) : ∃ f, s.memSink c r g =
      (s.slotPut c (.site c g.site) (g.slotAt (s.core c).fab.mems[g.site].pos) t.payload).modCore c (roundCommitted r g f s.now) := by
  have hpoison : ([t].any fun x => x.poison) = false := by rw [List.any_cons, ht]; rfl
  have hrmw (pos n : Nat) : s.rmwBad c g pos n = false := by simp only [State.rmwBad, hm]; rfl
  have hready (pos n : Nat) : (s.core c).syncReady g pos n = true := by simp only [Core.syncReady, hm]; rfl
  have hcommit : s.memSink c r g = s.memCommit c r g id := by simp only [State.memSink, hi]; rfl
  refine ⟨(s.core c).fab.mems[g.site].pendFlags ||| (0 ||| flagIf (g.len ≤ (s.core c).fab.mems[g.site].pos) fNv), ?_⟩
  rw [hcommit]
  simp only [State.memCommit, hh, hpoison, hrmw, hready, memWrites_of_single hm]
  rfl

end

end Sys2Proof

/-! AG sites of a region (R333, R334, R347): the access that each event makes. -/

namespace Sys2Proof

open Machine

section
variable {s : State} {c : CoreId} {a r : Fin 8} {p : Plane} {g : AgCfg}

@[simp] theorem ags_modAg_self (k : Core) (a : Fin 8) (f : AgSite → AgSite) :
    (k.modAg a f).fab.ags[a] = f k.fab.ags[a] := getElem_setAt_self _ _ _

@[simp] theorem ags_progress (k : Core) (r : Fin 8) (now : Nat) : (k.progress r now).fab.ags = k.fab.ags := rfl

@[simp] theorem ags_sticky (k : Core) (r : Fin 8) (f : Flags) : (k.sticky r f).fab.ags = k.fab.ags := rfl

/-- A frame runs on the site, it may move, and no page is missing for it. -/
structure AgFrameMoves (s : State) (c : CoreId) (a r : Fin 8) (p : Plane) (g : AgCfg) : Prop where
  run : (s.core c).agRun a = some (.frame r p, g)
  moves : (s.core c).agMoves (.frame r p) = true
  page : (s.core c).fab.ags[a].page = none

theorem agAccess_of_source (h : AgFrameMoves s c a r p g) (hg : g.sends = true) :
    s.agAccess c a = s.agSource c a (.frame r p) p g := by
  simp only [State.agAccess, h.run, h.moves, h.page, hg, Option.isSome_none, Bool.not_true, Bool.or_self,
    Bool.false_eq_true, if_false, if_true]

theorem agAccess_of_sink {t : Token} (h : AgFrameMoves s c a r p g) (hg : g.sends = false)
    (hi : (s.core c).fab.ags[a].inReg = some t) : s.agAccess c a = s.agSink c a (.frame r p) g := by
  simp only [State.agAccess, h.run, h.moves, h.page, hg, hi, Option.isSome_none, Option.isNone_some, Bool.not_true,
    Bool.or_self, Bool.and_false, Bool.false_eq_true, if_false]

/-! ### One access of a frame -/

theorem fabAccess_agStep (s : State) (c : CoreId) (a r : Fin 8) (p : Plane) (f : AgSite → AgSite) :
    FabAccess c s (s.agStep c a (.frame r p) f) :=
  (fabAccess_modCore s c (f := fun k => k.modAg a f) (fun _ => rfl) fun _ => rfl).trans
    (fabAccess_modCore _ c (f := fun k => k.progress r s.now) (fun _ => rfl) fun _ => rfl)

theorem ag_agStep (s : State) (c : CoreId) (a r : Fin 8) (p : Plane) (f : AgSite → AgSite) :
    ((s.agStep c a (.frame r p) f).core c).fab.ags[a] = f (s.core c).fab.ags[a] := by
  simp only [State.agStep, State.touch, State.core_modCore_self, ags_progress, ags_modAg_self]

theorem fabAccess_agSticky (s : State) (c : CoreId) (r : Fin 8) (p : Plane) (f : Flags) :
    FabAccess c s (s.agSticky c f (.frame r p)) :=
  fabAccess_modCore s c (f := fun k => k.sticky r f) (fun _ => rfl) fun _ => rfl

theorem ags_agSticky (s : State) (c : CoreId) (r : Fin 8) (p : Plane) (f : Flags) :
    ((s.agSticky c f (.frame r p)).core c).fab.ags = (s.core c).fab.ags := by
  rw [State.agSticky, State.core_modCore_self, ags_sticky]

/-! ### A source with nothing to send (R333) -/

theorem agSource_of_idle (ho : (s.core c).fab.ags[a].outq = []) (hi : (s.core c).fab.ags[a].inReg = none) :
    s.agSource c a (.frame r p) p g = s.agIssue c a (.frame r p) g := by
  have hnone : s.agSendable c a p g = none := by simp only [State.agSendable, ho]
  simp only [State.agSource, hnone, hi, Option.filter_none, Option.bind_none]

/-- The site after it has issued the read of the next address of its pattern. -/
def readIssued (g : AgCfg) (y : AgSite) : AgSite :=
  { y with reads := y.reads ++ [(y.pos, g.readAt y.pos, false)], pos := y.pos + 1 }

theorem agIssue_of_pattern {run : AgRun} (hm : g.mode = 0) (ho : (s.core c).fab.ags[a].outq = [])
    (hr : (s.core c).fab.ags[a].reads.length < 16) (hp : (s.core c).fab.ags[a].pos < patternLen g.counters) :
    s.agIssue c a run g = s.agStep c a run (readIssued g) := by
  have hroom : ¬ readsInFlight ≤ (s.core c).fab.ags[a].reads.length := Nat.not_le.mpr hr
  have hfree : ¬ 4 * readsInFlight ≤ (s.core c).fab.ags[a].outq.length := by
    rw [ho]
    exact Nat.not_le.mpr (by decide)
  have h3 : ¬ g.mode = 3 := by omega
  have h5 : ¬ g.mode = 5 := by omega
  simp only [State.agIssue, hroom, hfree, h3, h5, Nat.not_le.mpr hp, decide_false, Bool.or_self, Bool.false_eq_true, if_false]
  rfl

/-! ### A sink that takes a DATA token (R334) -/

/-- The site after it has taken the token `t` into its round. -/
def tokenTaken (t : Token) (y : AgSite) : AgSite := { y with inReg := none, hold := y.hold ++ [t] }

theorem agSink_of_data {run : AgRun} {t : Token} (hm : g.mode = 1) (hi : (s.core c).fab.ags[a].inReg = some t) (ht : t.kind = .data) :
    s.agSink c a run g = s.agFire c a run (tokenTaken t) := by
  have h4 : ¬ g.mode = 4 := by omega
  simp only [State.agSink, hi, ht, if_neg h4]
  rfl

/-! ### A read that returns (R347) -/

section
variable {va : Word} {pa : Nat} {rest : List (Nat × Option Word × Bool)} {n : Nat}

theorem agPa_of_at {need : Need} (h : s.translate c va need = .at pa) : s.agPa c va need = .ok pa := by
  simp only [State.agPa, h]

theorem readHeld_of_wayUp {bad : Bool} (hr : (s.core c).fab.ags[a].reads = (n, some va, bad) :: rest)
    (ht : s.translate c va .rd = .at pa) (hup : s.wayUp c pa = true) : s.readHeld c a = false := by
  simp only [State.readHeld, hr, agPa_of_at ht, hup, Bool.not_true]

/-- The state after AG `a` has read `m` bytes of a line without error. -/
def lineRead (s : State) (c : CoreId) (a : Fin 8) (pa m : Nat) : State := (s.noteRead (.ag c a) .memory pa m).copyLine c pa

theorem fabAccess_lineRead (s : State) (c : CoreId) (a : Fin 8) (pa m : Nat) : FabAccess c s (lineRead s c a pa m) :=
  have hcopy (t : State) : FabAccess c t (t.copyLine c pa) := by
    unfold State.copyLine State.modFab
    exact fabAccess_modCore t c (fun _ => rfl) fun _ => rfl
  (fabAccess_of_ordered c (ordered_noteRead s _ _ _ _)).trans (hcopy _)

theorem agRead_of_sound (m : Nat) (ht : s.translate c va .rd = .at pa) (hl : s.lineStop pa 0 = none) :
    s.agRead c a va m = .ok (lineRead s c a pa m, s.agBytes c a pa m, false) := by
  have hmeet : s.meetLine c pa = (s, false) := by simp only [State.meetLine, hl]
  unfold State.agRead
  rw [agPa_of_at ht]
  show Except.ok ((((s.meetLine c pa).1.noteRead (.ag c a) .memory pa m).copyLine c pa), s.agBytes c a pa m, (s.meetLine c pa).2) = _
  rw [hmeet]
  rfl

theorem tokenInto_of_plain (x : AgSite) (b : Frame) (h0 : g.int = 0) (h2 : g.use2 = 0) :
    s.tokenInto c g x (some va) b false false = .ok (s, x, x.rounds.add g.rnd (dataTok b 0 false)) := by
  have hscale : s.scaleOf c g va = .ok (s, 0, false) := by simp only [State.scaleOf, h2]; rfl
  simp only [State.tokenInto, h0, hscale]
  rfl

theorem readInto_of_sound (x : AgSite) (h0 : g.int = 0) (h2 : g.use2 = 0) (ht : s.translate c va .rd = .at pa)
    (hl : s.lineStop pa 0 = none) :
    s.readInto c g x (some va) false =
      .ok (lineRead s c g.site pa 32, x, x.rounds.add g.rnd (dataTok (leFrame (s.agBytes c g.site pa 32)) 0 false)) := by
  unfold State.readInto
  dsimp only
  rw [agRead_of_sound 32 ht hl]
  exact tokenInto_of_plain x _ h0 h2

theorem agReturn_of_plain (h : AgFrameMoves s c a r p g) (hg : g.sends = true) (hc : g.ctx = none) (hh : s.readHeld c a = false) :
    s.agReturn c a = s.agReturnPlain c a (.frame r p) g := by
  simp only [State.agReturn, h.run, h.moves, h.page, hg, hh, hc, Option.isSome_none, Bool.not_true, Bool.or_self,
    Bool.false_eq_true, if_false]

/-- A pattern index that is not the last one ends nothing (R333). -/
theorem agAfter_of_inner (hm : g.mode = 0) (h : n + 1 < patternLen g.counters) (d : Rounds) : g.after n d = (d, false) := by
  simp only [AgCfg.after, hm, if_neg (Nat.not_le.mpr h)]
  rfl

/-- The site `x` after its oldest read has returned: `rest` are the others, and `d` its rounds. -/
def readReturned (x : AgSite) (d : Rounds) (rest : List (Nat × Option Word × Bool)) : AgSite :=
  { x.setRounds d with reads := rest, ended := x.ended || false }

theorem agReturnPlain_of_sound {t : State} {d : Rounds} {run : AgRun} (hm : g.mode = 0) (hn : n + 1 < patternLen g.counters)
    (hr : (s.core c).fab.ags[a].reads = (n, some va, false) :: rest)
    (hread : s.readInto c g (s.core c).fab.ags[a] (some va) false = .ok (t, (s.core c).fab.ags[a], d)) :
    s.agReturnPlain c a run g = (t.agStep c a run fun _ => readReturned (s.core c).fab.ags[a] d rest).agSticky c d.done run := by
  simp only [State.agReturnPlain, hr, hread, agAfter_of_inner hm hn]
  rfl

end

end

end Sys2Proof

/-! O52: what MEMORY_SITE_ACCESS, AG_STREAM_ACCESS and AG_READ_RETURN do (R265, R270, R329, R330, R333, R334, R347). -/

namespace Sys2Proof

open Machine

/-! ### The words of a slot (R329) -/

theorem mem_insertUp {l : List Nat} {a w : Nat} : w ∈ insertUp l a ↔ w ∈ l ∨ w = a := by
  induction l with
  | nil => simp only [insertUp, List.mem_singleton, List.not_mem_nil, false_or]
  | cons b l ih =>
    unfold insertUp
    split
    · rw [List.mem_cons, or_comm]
    · split
      · next hab => simp only [hab, List.mem_cons]; tauto
      · simp only [List.mem_cons, ih, or_assoc]

theorem mem_foldl_insertUp {ws l : List Nat} {w : Nat} : w ∈ ws.foldl insertUp l ↔ w ∈ l ∨ w ∈ ws := by
  induction ws generalizing l with
  | nil => simp only [List.foldl_nil, List.not_mem_nil, or_false]
  | cons a ws ih => simp only [List.foldl_cons, ih, mem_insertUp, List.mem_cons, or_assoc]

theorem slotAt_mod (g : MemCfg) (i : Nat) : g.slotAt i % 32 = 0 := by
  simp only [MemCfg.slotAt]
  omega

theorem mem_wordsOf_slot {o w : Nat} (h : o % 32 = 0) : w ∈ wordsOf o 32 ↔ o / 8 ≤ w ∧ w < o / 8 + 4 := by
  have hlen : (o + 32 - 1) / 8 - o / 8 + 1 = 4 := by omega
  simp only [wordsOf, if_neg (by decide : ¬ (32 : Nat) = 0), hlen, List.mem_map, List.mem_range]
  constructor
  · rintro ⟨j, hj, rfl⟩
    omega
  · rintro ⟨hlo, hhi⟩
    exact ⟨w - o / 8, by omega, by omega⟩

/-- What a token written into a slot leaves of a core: its bytes, and its words full (R270, R329). -/
structure SlotWritten (k l : Core) (o : Nat) (p : Frame) : Prop where
  pump : l.pump = k.pump
  fab : l.fab = k.fab
  cistern : ∀ b, l.cistern.get b = if o ≤ b ∧ b < o + 32 then p.extractLsb' (8 * (b - o)) 8 else k.cistern.get b
  full : ∀ w, w ∈ l.full ↔ w ∈ k.full ∨ (o / 8 ≤ w ∧ w < o / 8 + 4)

/-- A frame written at an offset of a memory is read there, byte by byte, and elsewhere nothing changes. -/
theorem get_write_frame {m : Memory} (hwf : m.wf = true) (o b : Nat) (p : Frame) : (m.write o (toLE 32 p.toNat)).get b =
    if o ≤ b ∧ b < o + 32 then p.extractLsb' (8 * (b - o)) 8 else m.get b := by
  have hlen : (toLE 32 p.toNat).length = 32 := length_toLE 32 _
  by_cases hb : o ≤ b ∧ b < o + 32
  · obtain ⟨hlo, hhi⟩ := hb
    have hj : b - o < 32 := by omega
    have hget := Memory.get_write_inside m o (b - o) (toLE 32 p.toNat) hwf (by rwa [hlen])
    rw [Nat.add_sub_cancel' hlo] at hget
    rw [hget, if_pos ⟨hlo, hhi⟩, ← List.getD_eq_getElem _ 0, getD_toLE_toNat p hj]
  · rw [if_neg hb]
    exact Memory.get_write_outside _ _ _ _ (by rw [hlen]; omega)

theorem cistern_slotWrite (k : Core) (o : Nat) (p : Frame) (v : Agent) (n : Nat) :
    (k.slotWrite o p v n).cistern = k.cistern.write o (toLE 32 p.toNat) := by
  rw [Core.slotWrite, Core.setFull, Core.cisternWrite]

theorem pump_slotWrite (k : Core) (o : Nat) (p : Frame) (v : Agent) (n : Nat) : (k.slotWrite o p v n).pump = k.pump := by
  rw [Core.slotWrite, Core.setFull, Core.cisternWrite]

theorem fab_slotWrite (k : Core) (o : Nat) (p : Frame) (v : Agent) (n : Nat) : (k.slotWrite o p v n).fab = k.fab := by
  rw [Core.slotWrite, Core.setFull, Core.cisternWrite]

theorem full_slotWrite (k : Core) (o : Nat) (p : Frame) (v : Agent) (n : Nat) :
    (k.slotWrite o p v n).full = (wordsOf o 32).foldl insertUp k.full := by
  rw [Core.slotWrite, Core.setFull, Core.cisternWrite]

theorem slotWritten_slotWrite {k : Core} {o : Nat} (p : Frame) (v : Agent) (n : Nat) (hwf : k.cistern.wf = true) (ho : o % 32 = 0) :
    SlotWritten k (k.slotWrite o p v n) o p where
  pump := pump_slotWrite k o p v n
  fab := fab_slotWrite k o p v n
  cistern b := by rw [cistern_slotWrite, get_write_frame hwf]
  full w := by rw [full_slotWrite, mem_foldl_insertUp, mem_wordsOf_slot ho]

/-! ### The event that commits a round (R238, R441) -/

section
variable {s : State} {c : CoreId} {r : Fin 8} {g : MemCfg}

/-- The state after `mem.wr` has written the token `p` of its round into slot `o`, and committed. -/
def roundWritten (s : State) (c : CoreId) (r : Fin 8) (g : MemCfg) (f : Flags) (o : Nat) (p : Frame) : State :=
  (s.slotPut c (.site c g.site) o p).modCore c (roundCommitted r g f s.now)

theorem core_roundWritten (s : State) (c : CoreId) (r : Fin 8) (g : MemCfg) (f : Flags) (o : Nat) (p : Frame) :
    (roundWritten s c r g f o p).core c =
      roundCommitted r g f s.now ((s.core c).slotWrite o p (.site c g.site) (s.serial + 1)) := by
  rw [roundWritten, State.core_modCore_self, State.slotPut, State.core_modCore_self]
  rfl

theorem onlyCoreOrdered_roundWritten (s : State) (c : CoreId) (r : Fin 8) (g : MemCfg) (f : Flags) (o : Nat) (p : Frame) :
    OnlyCoreOrdered c s (roundWritten s c r g f o p) := by
  have hnote : OnlyOrder s (s.noteWrite (.cistern c) o 32 (.site c g.site)) := rfl
  exact ((hnote.onlyCoreOrdered c).modCore _).modCore _

theorem mem_roundCommitted (r : Fin 8) (g : MemCfg) (f : Flags) (now : Nat) (k : Core) :
    ((roundCommitted r g f now k).fab.mems[g.site]).hold = [] ∧
      ((roundCommitted r g f now k).fab.mems[g.site]).pos = (k.fab.mems[g.site]).pos + (k.fab.mems[g.site]).hold.length := by
  rw [roundCommitted, mems_progress, mems_modMem_self, mems_sticky, mems_bumpRound]
  exact ⟨rfl, rfl⟩

/-- The commit bumps the rounds of its core, so that peer events enter its pump. -/
theorem eventFrom_roundWritten (s : State) (c : CoreId) (r : Fin 8) (g : MemCfg) (f : Flags) (o : Nat) (p : Frame) :
    EventFrom c s ((roundWritten s c r g f o p).modCore c Core.boundary) (s.after c (roundWritten s c r g f o p)) := by
  have hrounds : ((roundWritten s c r g f o p).core c).fab.rounds = (s.core c).fab.rounds + 1 := by
    rw [core_roundWritten]
    rfl
  exact eventFrom_of_quadShown ((onlyCoreOrdered_roundWritten s c r g f o p).modCore _)
    (quadShown_after_of_commit (by omega))

end

/-! ### The three events -/

section
variable {s : State} {c : CoreId} {m a : Fin 8}

theorem exec_access_of_shut (h : s.shut = true) (i : Instr)
    (hi : i = .memorySiteAccess c m ∨ i = .agStreamAccess c a ∨ i = .agReadReturn c a) : exec i s = .next s := by
  rcases hi with rfl | rfl | rfl
  · exact congrArg Host.Outcome.next (if_pos h)
  · exact congrArg Host.Outcome.next (if_pos h)
  · exact congrArg Host.Outcome.next (if_pos h)

theorem exec_memorySiteAccess (h : s.shut = false) : exec (.memorySiteAccess c m) s = .next (s.after c (s.memAccess c m)) :=
  congrArg Host.Outcome.next (if_neg (by rw [h]; decide))

theorem exec_agStreamAccess (h : s.shut = false) : exec (.agStreamAccess c a) s = .next (s.after c (s.agAccess c a)) :=
  congrArg Host.Outcome.next (if_neg (by rw [h]; decide))

theorem exec_agReadReturn (h : s.shut = false) : exec (.agReadReturn c a) s = .next (s.after c (s.agReturn c a)) :=
  congrArg Host.Outcome.next (if_neg (by rw [h]; decide))

/-- An access of a memory site that commits nothing. -/
theorem memorySiteAccess_quiet (hs : s.shut = false) (h : FabAccess c s (s.memAccess c m)) :
    ∃ t, exec (.memorySiteAccess c m) s = .next t ∧ (FabricEvent c s t ∧ t.pump c = (s.core c).pump) ∧
      (t.core c).cistern = (s.core c).cistern ∧ ShownSame ((s.memAccess c m).core c) (t.core c) := by
  obtain ⟨hevent, hpump, hcis, hshown⟩ := quietEvent_after h
  exact ⟨_, exec_memorySiteAccess hs, ⟨hevent, hpump⟩, hcis, hshown⟩

theorem agStreamAccess_quiet (hs : s.shut = false) (h : FabAccess c s (s.agAccess c a)) :
    ∃ t, exec (.agStreamAccess c a) s = .next t ∧ (FabricEvent c s t ∧ t.pump c = (s.core c).pump) ∧
      shownAg (t.core c).fab.ags[a] = shownAg ((s.agAccess c a).core c).fab.ags[a] := by
  obtain ⟨hevent, hpump, -, hshown⟩ := quietEvent_after h
  exact ⟨_, exec_agStreamAccess hs, ⟨hevent, hpump⟩, hshown.ag a⟩

theorem agReadReturn_quiet (hs : s.shut = false) (h : FabAccess c s (s.agReturn c a)) :
    ∃ t, exec (.agReadReturn c a) s = .next t ∧ (FabricEvent c s t ∧ t.pump c = (s.core c).pump) ∧
      shownAg (t.core c).fab.ags[a] = shownAg ((s.agReturn c a).core c).fab.ags[a] := by
  obtain ⟨hevent, hpump, -, hshown⟩ := quietEvent_after h
  exact ⟨_, exec_agReadReturn hs, ⟨hevent, hpump⟩, hshown.ag a⟩

end

/-! ### What the accesses of memory sites give (R329, R330) -/

section
variable {s : State} {c : CoreId} {m r : Fin 8} {p : Plane} {g : MemCfg}

/-- The token that `mem.rd` makes of its next slot, with its number in the round. -/
def slotToken (s : State) (c : CoreId) (g : MemCfg) : Token :=
  { dataTok (leFrame (s.fabRead c (.site c g.site) (g.slotAt (s.core c).fab.mems[g.site].pos) 32)) 0 false with
    seq := (s.core c).fab.mems[g.site].roundData }

theorem memAccess_emits (hm : MemMoves s c m r p g) (hmode : g.mode = 0) (hp : p.permitMem g.site = false)
    (hf : (s.core c).fab.mems[g.site].finished = false) (hs : (s.core c).fab.regions[r].stopping = none)
    (hl : (s.core c).fab.mems[g.site].pos + 1 < g.len) (hd : (s.core c).fab.mems[g.site].roundData + 1 < 1024)
    (hw : ∀ w ∈ wordsOf (g.slotAt (s.core c).fab.mems[g.site].pos) 32, w ∉ (s.core c).bad ∧ w ∉ (s.core c).latent) :
    FabAccess c s (s.memAccess c m) ∧ ((s.memAccess c m).core c).fab.mems[g.site].outq = [slotToken s c g] ∧
      ((s.memAccess c m).core c).fab.mems[g.site].pos = (s.core c).fab.mems[g.site].pos + 1 := by
  rw [memAccess_of_moves hm (.inl hmode), if_pos hmode, memRead_of_sound hp hf hm.outq hs hl hw, State.core_modCore_self]
  refine ⟨(fabAccess_of_ordered c (ordered_noteRead ..)).trans (fabAccess_slotEmitted ..),
    (mem_slotEmitted ..).1.trans ?_, (mem_slotEmitted ..).2⟩
  rw [rounds_add_of_open hd, MemSite.rounds, hm.outq, List.nil_append, slotToken]

theorem memorySiteAccess_emits (hshut : s.shut = false) (hm : MemMoves s c m r p g) (hmode : g.mode = 0)
    (hp : p.permitMem g.site = false) (hf : (s.core c).fab.mems[g.site].finished = false)
    (hs : (s.core c).fab.regions[r].stopping = none) (hl : (s.core c).fab.mems[g.site].pos + 1 < g.len)
    (hd : (s.core c).fab.mems[g.site].roundData + 1 < 1024)
    (hw : ∀ w ∈ wordsOf (g.slotAt (s.core c).fab.mems[g.site].pos) 32, w ∉ (s.core c).bad ∧ w ∉ (s.core c).latent) :
    ∃ t, exec (.memorySiteAccess c m) s = .next t ∧ (FabricEvent c s t ∧ t.pump c = (s.core c).pump) ∧
      (t.core c).cistern = (s.core c).cistern ∧ (t.core c).fab.mems[g.site].outq = [slotToken s c g] ∧
      (t.core c).fab.mems[g.site].pos = (s.core c).fab.mems[g.site].pos + 1 := by
  obtain ⟨hacc, hq, hpos⟩ := memAccess_emits hm hmode hp hf hs hl hd hw
  obtain ⟨t, hexec, hquiet, hcis, hshown⟩ := memorySiteAccess_quiet hshut hacc
  have hx := hshown.mem g.site
  exact ⟨t, hexec, hquiet, hcis, (congrArg MemSite.outq hx).trans hq, (congrArg MemSite.pos hx).trans hpos⟩

theorem memAccess_holds {t : Token} (hm : MemMoves s c m r p g) (hmode : g.mode = 1)
    (hi : (s.core c).fab.mems[g.site].inReg = some t) (ht : t.kind = .data) :
    FabAccess c s (s.memAccess c m) ∧
      ((s.memAccess c m).core c).fab.mems[g.site].hold = (s.core c).fab.mems[g.site].hold ++ [t] ∧
      ((s.memAccess c m).core c).fab.mems[g.site].inReg = none := by
  rw [memAccess_of_moves hm (.inr hmode), if_neg (by omega), memSink_of_data hi ht, State.core_modCore_self]
  exact ⟨fabAccess_tokenHeld .., mem_tokenHeld ..⟩

theorem memorySiteAccess_holds {u : Token} (hshut : s.shut = false) (hm : MemMoves s c m r p g) (hmode : g.mode = 1)
    (hi : (s.core c).fab.mems[g.site].inReg = some u) (hu : u.kind = .data) :
    ∃ t, exec (.memorySiteAccess c m) s = .next t ∧ (FabricEvent c s t ∧ t.pump c = (s.core c).pump) ∧
      (t.core c).cistern = (s.core c).cistern ∧
      (t.core c).fab.mems[g.site].hold = (s.core c).fab.mems[g.site].hold ++ [u] ∧
      (t.core c).fab.mems[g.site].inReg = none := by
  obtain ⟨hacc, hhold, hreg⟩ := memAccess_holds hm hmode hi hu
  obtain ⟨t, hexec, hquiet, hcis, hshown⟩ := memorySiteAccess_quiet hshut hacc
  have hx := hshown.mem g.site
  exact ⟨t, hexec, hquiet, hcis, (congrArg MemSite.hold hx).trans hhold, (congrArg MemSite.inReg hx).trans hreg⟩

theorem memAccess_writes {u : Token} (hm : MemMoves s c m r p g) (hmode : g.mode = 1)
    (hi : (s.core c).fab.mems[g.site].inReg = some (plainTok .mark)) (hh : (s.core c).fab.mems[g.site].hold = [u])
    (hu : u.poison = false) :
    ∃ f, s.memAccess c m = roundWritten s c r g f (g.slotAt (s.core c).fab.mems[g.site].pos) u.payload := by
  rw [memAccess_of_moves hm (.inr hmode), if_neg (by omega)]
  exact memSink_of_mark hmode hi hh hu

/-- What the event shows of the core whose `mem.wr` has committed the token `u` into slot `o` (R238, R329, R441). -/
structure RoundShown (g : MemCfg) (o : Nat) (u : Token) (k l : Core) : Prop where
  pump : l.pump = { k.pump with asyncs := k.pump.asyncs ++ k.pump.events, events := [] }
  hold : l.fab.mems[g.site].hold = []
  pos : l.fab.mems[g.site].pos = k.fab.mems[g.site].pos + k.fab.mems[g.site].hold.length
  cistern : ∀ b, l.cistern.get b = if o ≤ b ∧ b < o + 32 then u.payload.extractLsb' (8 * (b - o)) 8 else k.cistern.get b
  full : ∀ w, w ∈ l.full ↔ w ∈ k.full ∨ (o / 8 ≤ w ∧ w < o / 8 + 4)

theorem roundShown_of_shown {k w l : Core} {o : Nat} {u : Token} {f : Flags} {now : Nat} (hw : SlotWritten k w o u.payload)
    (h : ShownSame (Core.boundary (roundCommitted r g f now w)) l) : RoundShown g o u k l := by
  have hx := h.mem g.site
  obtain ⟨hhold, hpos⟩ := mem_roundCommitted r g f now w
  refine ⟨?_, (congrArg MemSite.hold hx).trans hhold, (congrArg MemSite.pos hx).trans (hpos.trans ?_), ?_, ?_⟩
  · rw [h.pump, ← hw.pump]
    rfl
  · rw [hw.fab]
  · rw [h.1]
    exact hw.cistern
  · rw [h.1]
    exact hw.full

theorem memorySiteAccess_writes {u : Token} (hshut : s.shut = false) (hm : MemMoves s c m r p g) (hmode : g.mode = 1)
    (hi : (s.core c).fab.mems[g.site].inReg = some (plainTok .mark)) (hh : (s.core c).fab.mems[g.site].hold = [u])
    (hu : u.poison = false) (hwf : (s.core c).cistern.wf = true) :
    ∃ t, exec (.memorySiteAccess c m) s = .next t ∧ t = orderedAs { s with cores := t.cores, weirs := t.weirs } t ∧
      OthersShown c none s t ∧ RoundShown g (g.slotAt (s.core c).fab.mems[g.site].pos) u (s.core c) (t.core c) := by
  obtain ⟨f, hf⟩ := memAccess_writes hm hmode hi hh hu
  obtain ⟨hrest, -, hothers, hshown⟩ := eventFrom_roundWritten s c r g f (g.slotAt (s.core c).fab.mems[g.site].pos) u.payload
  rw [State.core_modCore_self, core_roundWritten] at hshown
  refine ⟨_, (exec_memorySiteAccess hshut).trans (congrArg (fun v => Host.Outcome.next (s.after c v)) hf), hrest, hothers,
    roundShown_of_shown (slotWritten_slotWrite _ _ _ hwf (slotAt_mod _ _)) hshown⟩

end

/-! ### What the accesses of AG sites give (R333, R334, R347) -/

section
variable {s : State} {c : CoreId} {a r : Fin 8} {p : Plane} {g : AgCfg}

theorem agAccess_issues (h : AgFrameMoves s c a r p g) (hm : g.mode = 0) (ho : (s.core c).fab.ags[a].outq = [])
    (hi : (s.core c).fab.ags[a].inReg = none) (hr : (s.core c).fab.ags[a].reads.length < 16)
    (hp : (s.core c).fab.ags[a].pos < patternLen g.counters) :
    FabAccess c s (s.agAccess c a) ∧ ((s.agAccess c a).core c).fab.ags[a] = readIssued g (s.core c).fab.ags[a] := by
  rw [agAccess_of_source h (by rw [AgCfg.sends, hm]; rfl), agSource_of_idle ho hi, agIssue_of_pattern hm ho hr hp]
  exact ⟨fabAccess_agStep .., ag_agStep ..⟩

theorem agStreamAccess_issues (hshut : s.shut = false) (h : AgFrameMoves s c a r p g) (hm : g.mode = 0)
    (ho : (s.core c).fab.ags[a].outq = []) (hi : (s.core c).fab.ags[a].inReg = none)
    (hr : (s.core c).fab.ags[a].reads.length < 16) (hp : (s.core c).fab.ags[a].pos < patternLen g.counters) :
    ∃ t, exec (.agStreamAccess c a) s = .next t ∧ (FabricEvent c s t ∧ t.pump c = (s.core c).pump) ∧
      (t.core c).fab.ags[a].reads = (s.core c).fab.ags[a].reads ++
        [((s.core c).fab.ags[a].pos, some (g.address (s.core c).fab.ags[a].pos), false)] ∧
      (t.core c).fab.ags[a].pos = (s.core c).fab.ags[a].pos + 1 := by
  obtain ⟨hacc, hsite⟩ := agAccess_issues h hm ho hi hr hp
  obtain ⟨t, hexec, hquiet, hx⟩ := agStreamAccess_quiet hshut hacc
  rw [hsite] at hx
  refine ⟨t, hexec, hquiet, (congrArg AgSite.reads hx).trans ?_, congrArg AgSite.pos hx⟩
  have haddr : g.readAt (s.core c).fab.ags[a].pos = some (g.address (s.core c).fab.ags[a].pos) := by
    rw [AgCfg.readAt, if_neg (by omega)]
  exact congrArg (fun q => (s.core c).fab.ags[a].reads ++ [((s.core c).fab.ags[a].pos, q, false)]) haddr

theorem agAccess_takes {u : Token} (h : AgFrameMoves s c a r p g) (hm : g.mode = 1)
    (hi : (s.core c).fab.ags[a].inReg = some u) (hu : u.kind = .data) :
    FabAccess c s (s.agAccess c a) ∧ ((s.agAccess c a).core c).fab.ags[a] = (tokenTaken u (s.core c).fab.ags[a]).fire s.now := by
  rw [agAccess_of_sink h (by rw [AgCfg.sends, hm]; rfl) hi, agSink_of_data hm hi hu]
  exact ⟨fabAccess_agStep .., ag_agStep ..⟩

theorem agStreamAccess_takes {u : Token} (hshut : s.shut = false) (h : AgFrameMoves s c a r p g) (hm : g.mode = 1)
    (hi : (s.core c).fab.ags[a].inReg = some u) (hu : u.kind = .data) :
    ∃ t, exec (.agStreamAccess c a) s = .next t ∧ (FabricEvent c s t ∧ t.pump c = (s.core c).pump) ∧
      (t.core c).fab.ags[a].hold = (s.core c).fab.ags[a].hold ++ [u] ∧ (t.core c).fab.ags[a].inReg = none := by
  obtain ⟨hacc, hsite⟩ := agAccess_takes h hm hi hu
  obtain ⟨t, hexec, hquiet, hx⟩ := agStreamAccess_quiet hshut hacc
  rw [hsite] at hx
  exact ⟨t, hexec, hquiet, congrArg AgSite.hold hx, congrArg AgSite.inReg hx⟩

section
variable {n pa : Nat} {va : Word} {rest : List (Nat × Option Word × Bool)}

/-- The token that an `ag.in` makes of 32 bytes at `pa`, with its number in the round. -/
def lineToken (s : State) (c : CoreId) (a : Fin 8) (g : AgCfg) (pa : Nat) : Token :=
  { dataTok (leFrame (s.agBytes c g.site pa 32)) 0 false with seq := (s.core c).fab.ags[a].roundData }

theorem agReturn_gives (h : AgFrameMoves s c a r p g) (hm : g.mode = 0) (hc : g.ctx = none) (h0 : g.int = 0) (h2 : g.use2 = 0)
    (hr : (s.core c).fab.ags[a].reads = (n, some va, false) :: rest) (ht : s.translate c va .rd = .at pa)
    (hl : s.lineStop pa 0 = none) (hup : s.wayUp c pa = true) (hn : n + 1 < patternLen g.counters)
    (hd : (s.core c).fab.ags[a].roundData + 1 < g.rnd) :
    FabAccess c s (s.agReturn c a) ∧ ((s.agReturn c a).core c).fab.ags[a].reads = rest ∧
      ((s.agReturn c a).core c).fab.ags[a].outq = (s.core c).fab.ags[a].outq ++ [lineToken s c a g pa] := by
  rw [agReturn_of_plain h (by rw [AgCfg.sends, hm]; rfl) hc (readHeld_of_wayUp hr ht hup),
    agReturnPlain_of_sound hm hn hr (readInto_of_sound _ h0 h2 ht hl), ags_agSticky, ag_agStep]
  refine ⟨((fabAccess_lineRead ..).trans (fabAccess_agStep ..)).trans (fabAccess_agSticky ..), rfl, ?_⟩
  rw [rounds_add_of_open hd]
  rfl

theorem agReadReturn_gives (hshut : s.shut = false) (h : AgFrameMoves s c a r p g) (hm : g.mode = 0) (hc : g.ctx = none)
    (h0 : g.int = 0) (h2 : g.use2 = 0) (hr : (s.core c).fab.ags[a].reads = (n, some va, false) :: rest)
    (ht : s.translate c va .rd = .at pa) (hl : s.lineStop pa 0 = none) (hup : s.wayUp c pa = true)
    (hn : n + 1 < patternLen g.counters) (hd : (s.core c).fab.ags[a].roundData + 1 < g.rnd) :
    ∃ t, exec (.agReadReturn c a) s = .next t ∧ (FabricEvent c s t ∧ t.pump c = (s.core c).pump) ∧
      (t.core c).fab.ags[a].reads = rest ∧
      (t.core c).fab.ags[a].outq = (s.core c).fab.ags[a].outq ++ [lineToken s c a g pa] := by
  obtain ⟨hacc, hreads, hq⟩ := agReturn_gives h hm hc h0 h2 hr ht hl hup hn hd
  obtain ⟨t, hexec, hquiet, hx⟩ := agReadReturn_quiet hshut hacc
  exact ⟨t, hexec, hquiet, (congrArg AgSite.reads hx).trans hreads, (congrArg AgSite.outq hx).trans hq⟩

end

end

/-- Settles O52: each event is the access of its site and what follows it. An access of one site that commits nothing is quiet;
the MARK of a `mem.wr` commits a round, so that peer events enter the pump. -/
theorem sourcesReadAndSinksWrite : Obligations.SourcesReadAndSinksWrite := by
  unfold Obligations.SourcesReadAndSinksWrite
  intro s c m a r p g ag tok n pa va rest
  refine ⟨fun hshut i hi => exec_access_of_shut hshut i hi,
    fun hshut => ⟨exec_memorySiteAccess hshut, exec_agStreamAccess hshut, exec_agReadReturn hshut⟩, fun hshut => ⟨?mem, ?ag⟩⟩
  case mem =>
    intro howner hmoves hbad hout
    have hm : MemMoves s c m r p g := ⟨howner, hmoves, hbad, hout⟩
    refine ⟨memorySiteAccess_emits hshut hm, memorySiteAccess_holds hshut hm, fun hmode hi hh ht hwf => ?mark⟩
    case mark =>
      obtain ⟨t, hexec, hrest, hothers, hpump, hhold, hpos, hcis, hfull⟩ :=
        memorySiteAccess_writes hshut hm hmode hi hh ht hwf
      rw [hh] at hpos
      exact ⟨t, hexec, hrest, hothers, hpump, hhold, hpos, hcis, hfull⟩
  case ag =>
    intro hrun hmoves hpage
    have hag : AgFrameMoves s c a r p ag := ⟨hrun, hmoves, hpage⟩
    exact ⟨agStreamAccess_issues hshut hag, agStreamAccess_takes hshut hag, agReadReturn_gives hshut hag⟩

end Sys2Proof
